-- ==== Sys2Proof/Word.lean ====
section
/-! DEFINITION. The byte of the serial line, the fixed table of records, and the plainest arithmetic
of spec/00_scope.md ("Arithmetic"): integer division and the rounded-up quotient. -/

namespace Sys2Proof

/-- One byte of the serial line (R178). -/
abbrev Byte := BitVec 8

/-- A set of piles, bit k standing for pile k (R178). -/
abbrev PileSet := BitVec 24

/-- A fixed number of like records, numbered from 0. -/
structure Table (n : Nat) (α : Type) where
  rows : List α
  size : rows.length = n
deriving DecidableEq, Repr

/-- Every record the same. -/
def Table.fill (n : Nat) {α : Type} (a : α) : Table n α :=
  ⟨List.replicate n a, List.length_replicate⟩

def Table.get {n : Nat} {α : Type} (t : Table n α) (i : Fin n) : α :=
  t.rows.get (i.cast t.size.symm)

def Table.set {n : Nat} {α : Type} (t : Table n α) (i : Fin n) (a : α) : Table n α :=
  ⟨t.rows.set i.val a, by rw [List.length_set, t.size]⟩

def Table.modify {n : Nat} {α : Type} (t : Table n α) (i : Fin n) (f : α → α) : Table n α :=
  t.set i (f (t.get i))

def Table.map {n : Nat} {α β : Type} (t : Table n α) (f : α → β) : Table n β :=
  ⟨t.rows.map f, by rw [List.length_map, t.size]⟩

/-- Record i made by f. -/
def Table.make {n : Nat} {α : Type} (f : Fin n → α) : Table n α :=
  ⟨(List.finRange n).map f, by rw [List.length_map, List.length_finRange]⟩

/-- "ceil(a / b)" of the manual. -/
def ceilDiv (a b : Nat) : Nat := (a + b - 1) / b

end Sys2Proof
end

