-- ==== Sys2Proof/Config.lean ====
section
/-! DEFINITION. What is fixed for the machine: the tick of the model's time, the intervals the manual
states as constants, and the free values, which have no body. -/

namespace Sys2Proof.Config

/-- Ticks of 200 microseconds in a second. Every filter and interval of the manual is a whole number
of them (R1, R16, R94, R157, R167, R170). DESIGN CHOICE, log 2. -/
abbrev ticksPerSecond : Nat := 5000

/-- An interval of n seconds in ticks. -/
abbrev seconds (n : Nat) : Nat := n * ticksPerSecond

/-- R1, R3: the 200 microsecond filter of the pulse and vane lines. -/
abbrev mastFilter : Nat := 1

/-- R16: the 10 ms filter of the RAIN line. -/
abbrev rainFilter : Nat := 50

/-- R94, R157: the 20 ms filter of the feedback inputs and of the STOP line. -/
abbrev valveFilter : Nat := 100

/-- R16: the 500 ms bounce interval. -/
abbrev bounceTicks : Nat := 2500

/-- R167: the 10 ms of the gap between a stop bit and the next start bit. -/
abbrev gapTicks : Nat := 50

/-- R2: the gate countdown. -/
abbrev gateTicks : Nat := seconds 3

/-- R42: the assessment countdown. -/
abbrev assessmentTicks : Nat := seconds 60

/-- The free value behind the n-th reply's turnaround, of which only the range 1 ms to 20 ms is given
(R170). DESIGN CHOICE of form, log 4. -/
opaque turnaround : Nat → Nat

/-- The turnaround in ticks: any value of 5..100, that is 1 ms to 20 ms. -/
def turnaroundTicks (n : Nat) : Nat := 5 + turnaround n % 96

/-- The free value that says which of several expiries due at one instant is taken first, "in either
order" (R2, R72, R76, R94 and others). DESIGN CHOICE of form, log 3. -/
opaque tieBreak : Nat → Nat

/-- What a 48-bit count reads past its range, which the manual does not state (R82, R115, R128). Log 6. -/
opaque overflow48 : Nat → BitVec 48

/-- What the 32-bit closure counter reads past its range, which the manual does not state (R146). Log 6. -/
opaque overflow32 : Nat → BitVec 32

/-- What a signed 48-bit correction reads past its range, which the manual does not state (R82). Log 6. -/
opaque overflowSigned48 : Int → BitVec 48

/-- A 48-bit count that has come to n (R82, R115, R128). -/
def count48 (n : Nat) : Nat := if n < 2 ^ 48 then n else (overflow48 n).toNat

/-- A 32-bit count that has come to n (R146). -/
def count32 (n : Nat) : Nat := if n < 2 ^ 32 then n else (overflow32 n).toNat

/-- A signed 48-bit figure that has come to n (R82, corrections). -/
def signed48 (n : Int) : Int :=
  if -(2 ^ 47 : Int) ≤ n ∧ n < (2 ^ 47 : Int) then n else (overflowSigned48 n).toInt

end Sys2Proof.Config
end

