-- ==== Sys2Proof/Syntax.lean ====
section
/-! DEFINITION. The commands and events of the GL-32: one constructor for each row of
spec/opcode_table.json. The table gives no operand fields, so each constructor carries the operands
its owning rule gives: an event names its object, a request carries its frame tag and the fields of
its body in body order (R181, R182), as numbers before any range is judged. -/

namespace Sys2Proof

/-- The pile configuration block as sent (R37, R183). -/
structure PileFields where
  t0 : Nat
  s : Nat
  area : Nat
  retention : Nat
  wcap : Nat
  drain : Nat
  exposure : List Nat
  w0 : Nat
deriving DecidableEq, Repr

/-- The cannon configuration block as sent (R87, R183). -/
structure CannonFields where
  pile : Nat
  flow : Nat
  rail : Nat
  zoneStart : Nat
  zoneEnd : Nat
  driftLimit : Nat
  mask : Nat
deriving DecidableEq, Repr

/-- The pond configuration block as sent (R61, R183). -/
structure PondFields where
  capacity : Nat
  floor : Nat
  flow : Nat
  catchment : Nat
  settleTime : Nat
  stirVolume : Nat
  priority : Nat
  initial : Nat
deriving DecidableEq, Repr

/-- The three fields of MONITOR_SETUP as sent (R137). -/
structure MonitorFields where
  limit : Nat
  holdOff : Nat
  interval : Nat
deriving DecidableEq, Repr

/-- One slot of a FORECAST as sent (R27, R181). -/
structure SlotFields where
  start : Nat
  mean : Nat
  gust : Nat
  sector : Nat
  dryingClass : Nat
deriving DecidableEq, Repr

/-- The site parameters as sent (R158, R182), in the order of R182. Flags are bytes. -/
structure SiteFields where
  mast1Fitted : Nat
  kcal0 : Nat
  ocal0 : Nat
  kcal1 : Nat
  ocal1 : Nat
  designWind : Nat
  gaugeFitted : Nat
  tipDepth : Nat
  dayOffset : Nat
  staleTime : Nat
  horizon : Nat
  baseDrying : Nat
  windDrying : Nat
  band : Nat
  escalationBand : Nat
  severeMargin : Nat
  stagger : Nat
  travel : Nat
  machines : Nat
  machineStale : Nat
  guardZone : Nat
  resumeWindow : Nat
  maxRun : Nat
  minRun : Nat
  freshRate : Nat
  freshAllocation : Nat
  priming : Nat
  rundown : Nat
  changeover : Nat
  lean : Nat
  short : Nat
deriving DecidableEq, Repr

/-- Every row of spec/opcode_table.json. -/
inductive Instr where
  /-- R163; the levels of the straps RATE1 and RATE0 (R166). -/
  | powerOnReset (rate1 rate0 : Bool)
  /-- R1: a falling edge of the filtered pulse line. -/
  | pulseEdge (mast : Fin 2)
  /-- R2; the vane lines A B C D of each mast as read, A the most significant bit (R3). -/
  | gateExpiry (vane0 vane1 : BitVec 4)
  /-- R16, R17: a falling edge of the filtered RAIN line. -/
  | rainTip
  /-- R16. -/
  | bounceExpiry
  /-- R20. -/
  | secondEvent
  /-- R42. -/
  | assessment
  /-- R72. -/
  | primingExpiry
  /-- R74. -/
  | rundownExpiry
  /-- R76. -/
  | changeoverExpiry
  /-- R65. -/
  | settleExpiry (pond : Fin 4)
  /-- R117; the run is named by its cannon (R113). -/
  | deliverySecond (cannon : Fin 32)
  /-- R98. -/
  | lostWaterExpiry (cannon : Fin 32)
  /-- R90. -/
  | slotExpiry
  /-- R94; the new filtered level, true for open. -/
  | feedbackChange (cannon : Fin 32) (isOpen : Bool)
  /-- R94, R96, R101. -/
  | travelExpiry (cannon : Fin 32)
  /-- R105. -/
  | machineStaleExpiry (machine : Fin 4)
  /-- R115. -/
  | resumeExpiry (cannon : Fin 32)
  /-- R131. -/
  | orderExpiry (slot : Nat)
  /-- R131. -/
  | holdExpiry (slot : Nat)
  /-- R139. -/
  | monitorStaleExpiry (monitor : Fin 8)
  /-- R157; true for asserted (low). -/
  | stopLineChange (asserted : Bool)
  /-- R167; framingError says that the stop bit was read low. -/
  | receiveCharacter (char : Byte) (framingError : Bool)
  /-- R167. -/
  | gapExpiry
  /-- R170. -/
  | replyStart
  /-- R170. -/
  | replySent
  /-- R171: a well-formed frame whose kind is no request kind. -/
  | unknownKind (kind frameTag : Nat)
  /-- R165. -/
  | ident (frameTag : Nat)
  /-- R158. -/
  | siteSetup (frameTag : Nat) (site : SiteFields)
  /-- R159. -/
  | poolSplit (frameTag forecast episodes orders : Nat)
  /-- R37. -/
  | pileSetup (frameTag pile action : Nat) (fields : PileFields)
  /-- R87. -/
  | cannonSetup (frameTag cannon action : Nat) (fields : CannonFields)
  /-- R61. -/
  | pondSetup (frameTag pond action : Nat) (fields : PondFields)
  /-- R137. -/
  | monitorSetup (frameTag monitor action : Nat) (fields : MonitorFields)
  /-- R150. -/
  | attrib (frameTag monitor sector count : Nat) (piles : List Nat)
  /-- R155. -/
  | mode (frameTag target : Nat)
  /-- R164. -/
  | warmRestart (frameTag : Nat)
  /-- R22. -/
  | setTime (frameTag time : Nat)
  /-- R28. -/
  | forecast (frameTag issue issueTime count : Nat) (slots : List SlotFields)
  /-- R140. -/
  | reading (frameTag monitor value : Nat)
  /-- R66; 0xFFFFFFFF and 0xFF stand for absent parts. -/
  | pondReport (frameTag pond level quality service : Nat)
  /-- R105. -/
  | machinePos (frameTag machine rail chainage : Nat)
  /-- R7. -/
  | mastService (frameTag mast action : Nat)
  /-- R129. -/
  | orderWet (frameTag orderTag pile volume expiry : Nat)
  /-- R130. -/
  | orderHold (frameTag orderTag pile duration : Nat)
  /-- R132. -/
  | orderCancel (frameTag orderTag : Nat)
  /-- R100. -/
  | cannonService (frameTag cannon action : Nat)
  /-- R161. -/
  | ackAlert (frameTag kind object : Nat)
  /-- R174. -/
  | poll (frameTag max : Nat)
  /-- R58. -/
  | pileStatus (frameTag pile : Nat)
  /-- R109. -/
  | cannonStatus (frameTag cannon : Nat)
  /-- R84. -/
  | waterStatus (frameTag : Nat)
  /-- R15. -/
  | windStatus (frameTag : Nat)
  /-- R149. -/
  | episodeRead (frameTag slot : Nat)
  /-- R84. -/
  | dayTotals (frameTag : Nat)
  /-- R134. -/
  | orderStatus (frameTag slot : Nat)
deriving DecidableEq, Repr

end Sys2Proof
end

