-- ==== Sys2Proof/WellFormed.lean ====
section
/-! DEFINITION. When a command is one that the line or the yard can send: every field of a request
fits the bytes the layouts of spec/10_message_reference.md give it, and a listed object exists. The
ranges of the owning rules are not judged here: a field in its bytes but out of its range is a
well-formed request, which the part refuses. -/

namespace Sys2Proof

/-- The field fits n bytes (R178). -/
abbrev fitsBytes (n value : Nat) : Prop := value < 256 ^ n

/-- The request kinds of R180. -/
def requestKinds : List Nat :=
  [0x01, 0x02, 0x03, 0x04, 0x05, 0x06, 0x07, 0x08, 0x09, 0x0A, 0x10, 0x11, 0x12, 0x13, 0x14, 0x15,
   0x20, 0x21, 0x22, 0x23, 0x24, 0x30, 0x31, 0x32, 0x33, 0x34, 0x35, 0x36, 0x37]

abbrev PileFields.WellFormed (f : PileFields) : Prop :=
  fitsBytes 2 f.t0 ∧ fitsBytes 1 f.s ∧ fitsBytes 2 f.area ∧ fitsBytes 1 f.retention ∧
  fitsBytes 2 f.wcap ∧ fitsBytes 1 f.drain ∧ f.exposure.length = 16 ∧
  (∀ x ∈ f.exposure, fitsBytes 1 x) ∧ fitsBytes 2 f.w0

abbrev CannonFields.WellFormed (f : CannonFields) : Prop :=
  fitsBytes 1 f.pile ∧ fitsBytes 2 f.flow ∧ fitsBytes 1 f.rail ∧ fitsBytes 2 f.zoneStart ∧
  fitsBytes 2 f.zoneEnd ∧ fitsBytes 2 f.driftLimit ∧ fitsBytes 2 f.mask

abbrev PondFields.WellFormed (f : PondFields) : Prop :=
  fitsBytes 4 f.capacity ∧ fitsBytes 4 f.floor ∧ fitsBytes 2 f.flow ∧ fitsBytes 4 f.catchment ∧
  fitsBytes 4 f.settleTime ∧ fitsBytes 4 f.stirVolume ∧ fitsBytes 1 f.priority ∧
  fitsBytes 4 f.initial

abbrev MonitorFields.WellFormed (f : MonitorFields) : Prop :=
  fitsBytes 2 f.limit ∧ fitsBytes 1 f.holdOff ∧ fitsBytes 2 f.interval

abbrev SlotFields.WellFormed (f : SlotFields) : Prop :=
  fitsBytes 4 f.start ∧ fitsBytes 2 f.mean ∧ fitsBytes 2 f.gust ∧ fitsBytes 1 f.sector ∧
  fitsBytes 1 f.dryingClass

/-- The sizes of R182. -/
abbrev SiteFields.WellFormed (f : SiteFields) : Prop :=
  (fitsBytes 1 f.mast1Fitted ∧ fitsBytes 2 f.kcal0 ∧ fitsBytes 1 f.ocal0 ∧ fitsBytes 2 f.kcal1 ∧
   fitsBytes 1 f.ocal1 ∧ fitsBytes 2 f.designWind ∧ fitsBytes 1 f.gaugeFitted ∧
   fitsBytes 2 f.tipDepth ∧ fitsBytes 4 f.dayOffset ∧ fitsBytes 4 f.staleTime ∧
   fitsBytes 1 f.horizon) ∧
  (fitsBytes 1 f.baseDrying ∧ fitsBytes 1 f.windDrying ∧ fitsBytes 1 f.band ∧
   fitsBytes 1 f.escalationBand ∧ fitsBytes 1 f.severeMargin ∧ fitsBytes 1 f.stagger ∧
   fitsBytes 1 f.travel ∧ fitsBytes 1 f.machines ∧ fitsBytes 2 f.machineStale ∧
   fitsBytes 1 f.guardZone) ∧
  (fitsBytes 2 f.resumeWindow ∧ fitsBytes 2 f.maxRun ∧ fitsBytes 2 f.minRun ∧
   fitsBytes 2 f.freshRate ∧ fitsBytes 4 f.freshAllocation ∧ fitsBytes 2 f.priming ∧
   fitsBytes 2 f.rundown ∧ fitsBytes 1 f.changeover ∧ fitsBytes 4 f.lean ∧ fitsBytes 4 f.short)

/-- A command the outside can send. Events name their objects by types that admit no other, but for
an order slot, of which the record pool has at most 24 (R128). -/
abbrev Instr.WellFormed : Instr → Prop
  | .powerOnReset _ _ => True
  | .pulseEdge _ => True
  | .gateExpiry _ _ => True
  | .rainTip => True
  | .bounceExpiry => True
  | .secondEvent => True
  | .assessment => True
  | .primingExpiry => True
  | .rundownExpiry => True
  | .changeoverExpiry => True
  | .settleExpiry _ => True
  | .deliverySecond _ => True
  | .lostWaterExpiry _ => True
  | .slotExpiry => True
  | .feedbackChange _ _ => True
  | .travelExpiry _ => True
  | .machineStaleExpiry _ => True
  | .resumeExpiry _ => True
  | .orderExpiry k => k < 24
  | .holdExpiry k => k < 24
  | .monitorStaleExpiry _ => True
  | .stopLineChange _ => True
  | .receiveCharacter _ _ => True
  | .gapExpiry => True
  | .replyStart => True
  | .replySent => True
  | .unknownKind kind tag => fitsBytes 1 kind ∧ kind ∉ requestKinds ∧ fitsBytes 1 tag
  | .ident tag => fitsBytes 1 tag
  | .siteSetup tag f => fitsBytes 1 tag ∧ f.WellFormed
  | .poolSplit tag f e o => fitsBytes 1 tag ∧ fitsBytes 1 f ∧ fitsBytes 1 e ∧ fitsBytes 1 o
  | .pileSetup tag i a f => fitsBytes 1 tag ∧ fitsBytes 1 i ∧ fitsBytes 1 a ∧ f.WellFormed
  | .cannonSetup tag i a f => fitsBytes 1 tag ∧ fitsBytes 1 i ∧ fitsBytes 1 a ∧ f.WellFormed
  | .pondSetup tag i a f => fitsBytes 1 tag ∧ fitsBytes 1 i ∧ fitsBytes 1 a ∧ f.WellFormed
  | .monitorSetup tag i a f => fitsBytes 1 tag ∧ fitsBytes 1 i ∧ fitsBytes 1 a ∧ f.WellFormed
  | .attrib tag m d n ps =>
    fitsBytes 1 tag ∧ fitsBytes 1 m ∧ fitsBytes 1 d ∧ fitsBytes 1 n ∧ ps.length ≤ 509 ∧
    ∀ p ∈ ps, fitsBytes 1 p
  | .mode tag t => fitsBytes 1 tag ∧ fitsBytes 1 t
  | .warmRestart tag => fitsBytes 1 tag
  | .setTime tag t => fitsBytes 1 tag ∧ fitsBytes 4 t
  | .forecast tag i t n fs =>
    fitsBytes 1 tag ∧ fitsBytes 4 i ∧ fitsBytes 4 t ∧ fitsBytes 1 n ∧ fs.length ≤ 50 ∧
    ∀ f ∈ fs, f.WellFormed
  | .reading tag m v => fitsBytes 1 tag ∧ fitsBytes 1 m ∧ fitsBytes 2 v
  | .pondReport tag p l q v =>
    fitsBytes 1 tag ∧ fitsBytes 1 p ∧ fitsBytes 4 l ∧ fitsBytes 1 q ∧ fitsBytes 1 v
  | .machinePos tag m r c => fitsBytes 1 tag ∧ fitsBytes 1 m ∧ fitsBytes 1 r ∧ fitsBytes 2 c
  | .mastService tag m a => fitsBytes 1 tag ∧ fitsBytes 1 m ∧ fitsBytes 1 a
  | .orderWet tag o p v x =>
    fitsBytes 1 tag ∧ fitsBytes 2 o ∧ fitsBytes 1 p ∧ fitsBytes 4 v ∧ fitsBytes 4 x
  | .orderHold tag o p d => fitsBytes 1 tag ∧ fitsBytes 2 o ∧ fitsBytes 1 p ∧ fitsBytes 4 d
  | .orderCancel tag o => fitsBytes 1 tag ∧ fitsBytes 2 o
  | .cannonService tag c a => fitsBytes 1 tag ∧ fitsBytes 1 c ∧ fitsBytes 1 a
  | .ackAlert tag k o => fitsBytes 1 tag ∧ fitsBytes 1 k ∧ fitsBytes 1 o
  | .poll tag n => fitsBytes 1 tag ∧ fitsBytes 1 n
  | .pileStatus tag i => fitsBytes 1 tag ∧ fitsBytes 1 i
  | .cannonStatus tag i => fitsBytes 1 tag ∧ fitsBytes 1 i
  | .waterStatus tag => fitsBytes 1 tag
  | .windStatus tag => fitsBytes 1 tag
  | .episodeRead tag k => fitsBytes 1 tag ∧ fitsBytes 1 k
  | .dayTotals tag => fitsBytes 1 tag
  | .orderStatus tag k => fitsBytes 1 tag ∧ fitsBytes 1 k

end Sys2Proof
end

