-- ==== Sys2Proof/Decode.lean ====
section
/-! DEFINITION. From bytes to a command and back: the fields of a body (R178), the body of each request
kind (R180 to R182) read and written. spec/opcode_table.json gives no row any bits, so no number spells a
command (`decodeTableWord`). -/

namespace Sys2Proof

/-- The rows of the table carry no bits: no word spells a command. -/
def decodeTableWord (_nbits _w : Nat) : Option Instr := none

/-! ## Fields (R178) -/

/-- An unsigned field of k bytes, least significant byte first. -/
def le : Nat → Nat → List Byte
  | 0, _ => []
  | k + 1, n => BitVec.ofNat 8 n :: le k (n / 256)

/-- The number that bytes spell, least significant byte first. -/
def ofLe : List Byte → Nat
  | [] => 0
  | b :: rest => b.toNat + 256 * ofLe rest

/-- The field of k bytes at an offset of a body. -/
def field (body : List Byte) (offset k : Nat) : Nat := ofLe ((body.drop offset).take k)

/-- The numbers of a list of one-byte fields. -/
def byteList (body : List Byte) : List Nat := body.map BitVec.toNat

/-! ## Blocks of fields (R181, R182, R183) -/

def PileFields.read (b : List Byte) : PileFields where
  t0 := field b 0 2
  s := field b 2 1
  area := field b 3 2
  retention := field b 5 1
  wcap := field b 6 2
  drain := field b 8 1
  exposure := byteList ((b.drop 9).take 16)
  w0 := field b 25 2

def PileFields.bytes (f : PileFields) : List Byte :=
  le 2 f.t0 ++ le 1 f.s ++ le 2 f.area ++ le 1 f.retention ++ le 2 f.wcap ++ le 1 f.drain ++
    f.exposure.flatMap (le 1) ++ le 2 f.w0

def CannonFields.read (b : List Byte) : CannonFields where
  pile := field b 0 1
  flow := field b 1 2
  rail := field b 3 1
  zoneStart := field b 4 2
  zoneEnd := field b 6 2
  driftLimit := field b 8 2
  mask := field b 10 2

def CannonFields.bytes (f : CannonFields) : List Byte :=
  le 1 f.pile ++ le 2 f.flow ++ le 1 f.rail ++ le 2 f.zoneStart ++ le 2 f.zoneEnd ++
    le 2 f.driftLimit ++ le 2 f.mask

def PondFields.read (b : List Byte) : PondFields where
  capacity := field b 0 4
  floor := field b 4 4
  flow := field b 8 2
  catchment := field b 10 4
  settleTime := field b 14 4
  stirVolume := field b 18 4
  priority := field b 22 1
  initial := field b 23 4

def PondFields.bytes (f : PondFields) : List Byte :=
  le 4 f.capacity ++ le 4 f.floor ++ le 2 f.flow ++ le 4 f.catchment ++ le 4 f.settleTime ++
    le 4 f.stirVolume ++ le 1 f.priority ++ le 4 f.initial

def MonitorFields.read (b : List Byte) : MonitorFields where
  limit := field b 0 2
  holdOff := field b 2 1
  interval := field b 3 2

def MonitorFields.bytes (f : MonitorFields) : List Byte :=
  le 2 f.limit ++ le 1 f.holdOff ++ le 2 f.interval

def SlotFields.read (b : List Byte) : SlotFields where
  start := field b 0 4
  mean := field b 4 2
  gust := field b 6 2
  sector := field b 8 1
  dryingClass := field b 9 1

def SlotFields.bytes (f : SlotFields) : List Byte :=
  le 4 f.start ++ le 2 f.mean ++ le 2 f.gust ++ le 1 f.sector ++ le 1 f.dryingClass

/-- n slots of ten bytes each. -/
def readSlots : Nat → List Byte → List SlotFields
  | 0, _ => []
  | n + 1, b => .read (b.take 10) :: readSlots n (b.drop 10)

/-- R182. -/
def SiteFields.read (b : List Byte) : SiteFields where
  mast1Fitted := field b 0 1
  kcal0 := field b 1 2
  ocal0 := field b 3 1
  kcal1 := field b 4 2
  ocal1 := field b 6 1
  designWind := field b 7 2
  gaugeFitted := field b 9 1
  tipDepth := field b 10 2
  dayOffset := field b 12 4
  staleTime := field b 16 4
  horizon := field b 20 1
  baseDrying := field b 21 1
  windDrying := field b 22 1
  band := field b 23 1
  escalationBand := field b 24 1
  severeMargin := field b 25 1
  stagger := field b 26 1
  travel := field b 27 1
  machines := field b 28 1
  machineStale := field b 29 2
  guardZone := field b 31 1
  resumeWindow := field b 32 2
  maxRun := field b 34 2
  minRun := field b 36 2
  freshRate := field b 38 2
  freshAllocation := field b 40 4
  priming := field b 44 2
  rundown := field b 46 2
  changeover := field b 48 1
  lean := field b 49 4
  short := field b 53 4

/-- R182. -/
def SiteFields.bytes (f : SiteFields) : List Byte :=
  le 1 f.mast1Fitted ++ le 2 f.kcal0 ++ le 1 f.ocal0 ++ le 2 f.kcal1 ++ le 1 f.ocal1 ++
    le 2 f.designWind ++ le 1 f.gaugeFitted ++ le 2 f.tipDepth ++ le 4 f.dayOffset ++
    le 4 f.staleTime ++ le 1 f.horizon ++ le 1 f.baseDrying ++ le 1 f.windDrying ++ le 1 f.band ++
    le 1 f.escalationBand ++ le 1 f.severeMargin ++ le 1 f.stagger ++ le 1 f.travel ++
    le 1 f.machines ++ le 2 f.machineStale ++ le 1 f.guardZone ++ le 2 f.resumeWindow ++
    le 2 f.maxRun ++ le 2 f.minRun ++ le 2 f.freshRate ++ le 4 f.freshAllocation ++ le 2 f.priming ++
    le 2 f.rundown ++ le 1 f.changeover ++ le 4 f.lean ++ le 4 f.short

/-! ## Bodies (R180, R181) -/

/-- The command, if the body has the length. -/
def ofLength (n : Nat) (body : List Byte) (i : Instr) : Option Instr :=
  if body.length = n then some i else none

/-- ATTRIB's body: the count is the third byte, and the length follows from it (R181). -/
def readAttrib (tag : Nat) (b : List Byte) : Option Instr :=
  if 3 ≤ b.length ∧ b.length = 3 + field b 2 1 then
    some (.attrib tag (field b 0 1) (field b 1 1) (field b 2 1) (byteList (b.drop 3)))
  else none

/-- FORECAST's body: the count is the ninth byte, and the length follows from it (R181). -/
def readForecast (tag : Nat) (b : List Byte) : Option Instr :=
  if 9 ≤ b.length ∧ b.length = 9 + 10 * field b 8 1 then
    some (.forecast tag (field b 0 4) (field b 4 4) (field b 8 1)
      (readSlots (field b 8 1) (b.drop 9)))
  else none

/-- The request a frame carries, or none where its body has not the length its kind requires (R171 steps 1
and 2, R180). -/
def readRequest (kind tag : Nat) (b : List Byte) : Option Instr :=
  match kind with
  | 0x01 => ofLength 0 b (.ident tag)
  | 0x02 => ofLength 57 b (.siteSetup tag (.read b))
  | 0x03 => ofLength 3 b (.poolSplit tag (field b 0 1) (field b 1 1) (field b 2 1))
  | 0x04 => ofLength 29 b (.pileSetup tag (field b 0 1) (field b 1 1) (.read (b.drop 2)))
  | 0x05 => ofLength 14 b (.cannonSetup tag (field b 0 1) (field b 1 1) (.read (b.drop 2)))
  | 0x06 => ofLength 29 b (.pondSetup tag (field b 0 1) (field b 1 1) (.read (b.drop 2)))
  | 0x07 => ofLength 7 b (.monitorSetup tag (field b 0 1) (field b 1 1) (.read (b.drop 2)))
  | 0x08 => readAttrib tag b
  | 0x09 => ofLength 1 b (.mode tag (field b 0 1))
  | 0x0A => ofLength 0 b (.warmRestart tag)
  | 0x10 => ofLength 4 b (.setTime tag (field b 0 4))
  | 0x11 => readForecast tag b
  | 0x12 => ofLength 3 b (.reading tag (field b 0 1) (field b 1 2))
  | 0x13 => ofLength 7 b (.pondReport tag (field b 0 1) (field b 1 4) (field b 5 1) (field b 6 1))
  | 0x14 => ofLength 4 b (.machinePos tag (field b 0 1) (field b 1 1) (field b 2 2))
  | 0x15 => ofLength 2 b (.mastService tag (field b 0 1) (field b 1 1))
  | 0x20 => ofLength 11 b (.orderWet tag (field b 0 2) (field b 2 1) (field b 3 4) (field b 7 4))
  | 0x21 => ofLength 7 b (.orderHold tag (field b 0 2) (field b 2 1) (field b 3 4))
  | 0x22 => ofLength 2 b (.orderCancel tag (field b 0 2))
  | 0x23 => ofLength 2 b (.cannonService tag (field b 0 1) (field b 1 1))
  | 0x24 => ofLength 2 b (.ackAlert tag (field b 0 1) (field b 1 1))
  | 0x30 => ofLength 1 b (.poll tag (field b 0 1))
  | 0x31 => ofLength 1 b (.pileStatus tag (field b 0 1))
  | 0x32 => ofLength 1 b (.cannonStatus tag (field b 0 1))
  | 0x33 => ofLength 0 b (.waterStatus tag)
  | 0x34 => ofLength 0 b (.windStatus tag)
  | 0x35 => ofLength 1 b (.episodeRead tag (field b 0 1))
  | 0x36 => ofLength 0 b (.dayTotals tag)
  | 0x37 => ofLength 1 b (.orderStatus tag (field b 0 1))
  | other => some (.unknownKind other tag)

/-- How a request goes on the line: its kind, its frame tag and its body. -/
structure Request where
  kind : Nat
  frameTag : Nat
  body : List Byte
deriving DecidableEq, Repr

/-- The request a command stands for; an event is none. -/
def encodeRequest : Instr → Option Request
  | .powerOnReset _ _ => none
  | .pulseEdge _ => none
  | .gateExpiry _ _ => none
  | .rainTip => none
  | .bounceExpiry => none
  | .secondEvent => none
  | .assessment => none
  | .primingExpiry => none
  | .rundownExpiry => none
  | .changeoverExpiry => none
  | .settleExpiry _ => none
  | .deliverySecond _ => none
  | .lostWaterExpiry _ => none
  | .slotExpiry => none
  | .feedbackChange _ _ => none
  | .travelExpiry _ => none
  | .machineStaleExpiry _ => none
  | .resumeExpiry _ => none
  | .orderExpiry _ => none
  | .holdExpiry _ => none
  | .monitorStaleExpiry _ => none
  | .stopLineChange _ => none
  | .receiveCharacter _ _ => none
  | .gapExpiry => none
  | .replyStart => none
  | .replySent => none
  | .unknownKind kind tag => some ⟨kind, tag, []⟩
  | .ident tag => some ⟨0x01, tag, []⟩
  | .siteSetup tag f => some ⟨0x02, tag, f.bytes⟩
  | .poolSplit tag f e o => some ⟨0x03, tag, le 1 f ++ le 1 e ++ le 1 o⟩
  | .pileSetup tag i a f => some ⟨0x04, tag, le 1 i ++ le 1 a ++ f.bytes⟩
  | .cannonSetup tag i a f => some ⟨0x05, tag, le 1 i ++ le 1 a ++ f.bytes⟩
  | .pondSetup tag i a f => some ⟨0x06, tag, le 1 i ++ le 1 a ++ f.bytes⟩
  | .monitorSetup tag i a f => some ⟨0x07, tag, le 1 i ++ le 1 a ++ f.bytes⟩
  | .attrib tag m d n ps => some ⟨0x08, tag, le 1 m ++ le 1 d ++ le 1 n ++ ps.flatMap (le 1)⟩
  | .mode tag t => some ⟨0x09, tag, le 1 t⟩
  | .warmRestart tag => some ⟨0x0A, tag, []⟩
  | .setTime tag t => some ⟨0x10, tag, le 4 t⟩
  | .forecast tag i t n fs =>
    some ⟨0x11, tag, le 4 i ++ le 4 t ++ le 1 n ++ fs.flatMap SlotFields.bytes⟩
  | .reading tag m v => some ⟨0x12, tag, le 1 m ++ le 2 v⟩
  | .pondReport tag p l q v => some ⟨0x13, tag, le 1 p ++ le 4 l ++ le 1 q ++ le 1 v⟩
  | .machinePos tag m r c => some ⟨0x14, tag, le 1 m ++ le 1 r ++ le 2 c⟩
  | .mastService tag m a => some ⟨0x15, tag, le 1 m ++ le 1 a⟩
  | .orderWet tag o p v x => some ⟨0x20, tag, le 2 o ++ le 1 p ++ le 4 v ++ le 4 x⟩
  | .orderHold tag o p d => some ⟨0x21, tag, le 2 o ++ le 1 p ++ le 4 d⟩
  | .orderCancel tag o => some ⟨0x22, tag, le 2 o⟩
  | .cannonService tag c a => some ⟨0x23, tag, le 1 c ++ le 1 a⟩
  | .ackAlert tag k o => some ⟨0x24, tag, le 1 k ++ le 1 o⟩
  | .poll tag n => some ⟨0x30, tag, le 1 n⟩
  | .pileStatus tag i => some ⟨0x31, tag, le 1 i⟩
  | .cannonStatus tag i => some ⟨0x32, tag, le 1 i⟩
  | .waterStatus tag => some ⟨0x33, tag, []⟩
  | .windStatus tag => some ⟨0x34, tag, []⟩
  | .episodeRead tag k => some ⟨0x35, tag, le 1 k⟩
  | .dayTotals tag => some ⟨0x36, tag, []⟩
  | .orderStatus tag k => some ⟨0x37, tag, le 1 k⟩

/-- The counts of ATTRIB and FORECAST agree with their lists. -/
def countsAgree : Instr → Bool
  | .attrib _ _ _ n ps => n = ps.length
  | .forecast _ _ _ n fs => n = fs.length
  | _ => true

end Sys2Proof
end

