-- ==== Sys2Proof/Machine/State.lean ====
section
/-! DEFINITION. The state of the GL-32: a structure for each block of spec/00_scope.md ("Blocks of the
part"), the input pins with their level filters, the site parameters, the queue of waiting commands,
and the state right after power-on reset (R18, R26, R36, R59, R85, R111, R136, R151, R163, R177). -/

namespace Sys2Proof.Machine

/-! ## Pins -/

/-- An input line behind a level filter (R1, R16, R94, R157): the raw pin, the filtered level or none
before the filter has taken one (R18), the ticks the pin has held without change a level not yet taken,
and the pin as the last tick found it. -/
structure LineFilter where
  pin : Bool
  level : Option Bool
  held : Nat
  last : Bool
deriving DecidableEq, Repr

/-- The input pins. Pulse, vane and rain lines: true is high. Feedback: true is open (R94). STOP: true
is asserted, the pin being low (R157). Straps: true is high (R166). -/
structure Pins where
  pulse : Table 2 LineFilter
  vane : Table 2 (Table 4 LineFilter)
  rain : LineFilter
  feedback : Table 32 LineFilter
  stop : LineFilter
  rate1 : Bool
  rate0 : Bool
deriving DecidableEq, Repr

/-! ## Wind Front-End -/

/-- A wind sector, or CALM or UNKNOWN (file 00, Units; R12). -/
inductive Direction where
  | sector (n : Fin 16)
  | calm
  | unknown
deriving DecidableEq, Repr

/-- R4, R9: speed, sector and saturated mark. -/
structure Sample where
  speed : Nat
  sector : Fin 16
  saturated : Bool
deriving DecidableEq, Repr

/-- R5. Fitted, Kcal and Ocal are site parameters. -/
structure Mast where
  pulses : Nat
  sample : Option Sample
  zeroRun : Nat
  suspect : Bool
  declaredOut : Bool
deriving DecidableEq, Repr

/-- R12. -/
inductive WindSource where
  | live | forecast | design
deriving DecidableEq, Repr

/-- The published wind state (section 1.4). -/
structure WindState where
  mean : Nat
  gust : Nat
  direction : Direction
  source : WindSource
  saturated : Bool
deriving DecidableEq, Repr

structure Wfe where
  masts : Table 2 Mast
  /-- R2: the gate countdown. -/
  gate : Nat
  /-- R9: oldest first. -/
  ring : List Sample
  /-- R10. -/
  sums : Table 16 Nat
  published : WindState
  /-- R8. -/
  selected : Option (Fin 2)
  /-- R16: the bounce interval. -/
  bounce : Option Nat
deriving DecidableEq, Repr

/-! ## Yard Clock and Forecast Table -/

structure Yc where
  time : Nat
  valid : Bool
  recordedDay : Option Nat
  /-- R20: the one-second countdown. -/
  second : Nat
deriving DecidableEq, Repr

/-- R27; no sector stands for CALM. -/
structure Slot where
  start : Nat
  mean : Nat
  gust : Nat
  sector : Option (Fin 16)
  dryingClass : Nat
  issue : Nat
deriving DecidableEq, Repr

structure Ft where
  /-- In order of start, earliest first (R27). -/
  slots : List Slot
  newestIssue : Option Nat
deriving DecidableEq, Repr

/-! ## Pile Assessment Unit -/

/-- R37. -/
structure PileConfig where
  t0 : Nat
  s : Nat
  area : Nat
  retention : Nat
  wcap : Nat
  drain : Option (Fin 4)
  exposure : Table 16 Nat
  w0 : Nat
deriving DecidableEq, Repr

/-- R48. -/
inductive RiskClass where
  | quiet | watch | lift | severe
deriving DecidableEq, Repr

/-- R53, R54. -/
structure Qualifiers where
  windForecast : Bool
  windDesign : Bool
  noForecast : Bool
  forecastGap : Bool
  speedSaturated : Bool
  reqClamped : Bool
  escalated : Bool
  uncovered : Bool
deriving DecidableEq, Repr

/-- The last results (R55). -/
structure Results where
  exposed : Nat
  threshold : Nat
  margin : Int
  risk : RiskClass
  peak : Nat
  required : Nat
  deficit : Nat
  demand : Nat
  tier : Fin 4
  qualifiers : Qualifiers
  time : Option Nat
deriving DecidableEq, Repr

/-- Section 3.1. -/
structure Pile where
  configured : Bool
  config : PileConfig
  moisture : Nat
  pendingSpray : Nat
  pendingRain : Nat
  deliveredToday : Nat
  escalated : Bool
  hold : Bool
  results : Option Results
deriving DecidableEq, Repr

structure Pau where
  /-- R42: the assessment countdown. -/
  countdown : Nat
  piles : Table 24 Pile
deriving DecidableEq, Repr

/-! ## Cannon Controller -/

/-- R87; no rail stands for NONE. -/
structure CannonConfig where
  pile : Fin 24
  flow : Nat
  rail : Option (Fin 2)
  zoneStart : Nat
  zoneEnd : Nat
  driftLimit : Nat
  mask : BitVec 16
deriving DecidableEq, Repr

/-- The nine states of section 5.2. -/
inductive CannonPhase where
  | idle | pendingOpen | opening | spraying | closePending | closing | faulted | stuck | locked
deriving DecidableEq, Repr

/-- R88. The queued movement is read from the queue and the filtered feedback from the pins. -/
structure Cannon where
  configured : Bool
  config : CannonConfig
  phase : CannonPhase
  travel : Option Nat
  lostWater : Option Nat
  driftBlocked : Bool
  excluded : Bool
deriving DecidableEq, Repr

/-- R90. -/
inductive Movement where
  | opens | closes
deriving DecidableEq, Repr

/-- R105. -/
structure MachineRecord where
  reported : Bool
  rail : Fin 2
  chainage : Nat
  countdown : Option Nat
  stale : Bool
deriving DecidableEq, Repr

structure Cc where
  cannons : Table 32 Cannon
  /-- Oldest first (R90). -/
  queue : List (Fin 32 × Movement)
  /-- The stagger slot countdown (R90). -/
  slot : Option Nat
  machines : Table 4 MachineRecord
deriving DecidableEq, Repr

/-! ## Spray Dispatcher -/

/-- R113. -/
inductive Origin where
  | auto
  | order (slot : Nat)
  | detached
deriving DecidableEq, Repr

/-- R113. -/
inductive SuspendCause where
  | flow | drift | excluded
deriving DecidableEq, Repr

/-- R114. -/
inductive Disposition where
  | none
  | ends
  | suspend (cause : SuspendCause)
deriving DecidableEq, Repr

/-- R113: ACTIVE with its close disposition and delivery countdown, or SUSPENDED with its cause,
suspension number and resume countdown. -/
inductive RunPhase where
  | active (disposition : Disposition) (delivery : Option Nat)
  | suspended (cause : SuspendCause) (number : Nat) (resume : Nat)
deriving DecidableEq, Repr

/-- R113; the cannon is the run's place in the run list. -/
structure Run where
  pile : Fin 24
  origin : Origin
  tier : Option (Fin 4)
  target : Nat
  delivered : Nat
  phase : RunPhase
deriving DecidableEq, Repr

/-- R128. -/
inductive OrderKind where
  | wet | hold
deriving DecidableEq, Repr

/-- R131. -/
inductive OrderOutcome where
  | done | expired | cancelled | superseded
deriving DecidableEq, Repr

/-- The outcome and the closed time of a CLOSED order (R128). -/
structure OrderClosure where
  outcome : OrderOutcome
  time : Option Nat
deriving DecidableEq, Repr

/-- R128; OPEN while it has no closure. -/
structure Order where
  tag : Nat
  kind : OrderKind
  pile : Fin 24
  volume : Nat
  duration : Nat
  delivered : Nat
  countdown : Option Nat
  acceptance : Nat
  acceptedTime : Option Nat
  closure : Option OrderClosure
deriving DecidableEq, Repr

/-- A pile's open demand and the tier handed with it (R123). -/
structure Demand where
  volume : Nat
  tier : Fin 4
deriving DecidableEq, Repr

structure Sd where
  /-- The run list, keyed by cannon (R113). -/
  runs : Table 32 (Option Run)
  /-- The O order slots (R128). -/
  orders : List (Option Order)
  demands : Table 24 Demand
  suspensions : Nat
  acceptances : Nat
  /-- The model's own mark: this event owes a grant pass at its end (R124). DESIGN CHOICE, log 9. -/
  passDue : Bool
deriving DecidableEq, Repr

/-! ## Water Inventory Unit -/

/-- R61. -/
structure PondConfig where
  capacity : Nat
  floor : Nat
  flow : Nat
  catchment : Nat
  settleTime : Nat
  stirVolume : Nat
  priority : Nat
  initial : Nat
deriving DecidableEq, Repr

/-- Section 4.1. settled, clear and inService: true for SETTLED, CLEAR and IN. -/
structure Pond where
  configured : Bool
  config : PondConfig
  volume : Nat
  settled : Bool
  settleCountdown : Option Nat
  runoff : Nat
  clear : Bool
  inService : Bool
deriving DecidableEq, Repr

inductive Source where
  | pond (n : Fin 4)
  | fresh
deriving DecidableEq, Repr

/-- Section 4.4. -/
inductive PumpPhase where
  | off | priming | running | rundown | changeover
deriving DecidableEq, Repr

structure Pump where
  phase : PumpPhase
  source : Option Source
  interval : Option Nat
deriving DecidableEq, Repr

/-- R81. -/
inductive WaterState where
  | ample | lean | short
deriving DecidableEq, Repr

/-- One pond's day figures (R82). -/
structure PondDay where
  drawn : Nat
  rain : Nat
  runoff : Nat
  spill : Nat
  corrections : Int
deriving DecidableEq, Repr

/-- R82; fresh is Fu. -/
structure DayRecord where
  day : Option Nat
  fresh : Nat
  ponds : Table 4 PondDay
  delivered : Nat
  lost : Nat
deriving DecidableEq, Repr

structure Wiu where
  ponds : Table 4 Pond
  pump : Pump
  today : DayRecord
  previous : DayRecord
deriving DecidableEq, Repr

/-! ## Boundary Watch Unit -/

/-- R137, R138. -/
structure Monitor where
  configured : Bool
  limit : Nat
  holdOff : Nat
  interval : Nat
  lastValue : Option Nat
  lastTime : Option Nat
  belowRun : Nat
  openEpisode : Option Nat
  stale : Bool
  countdown : Option Nat
deriving DecidableEq, Repr

/-- R146. -/
inductive CloseReason where
  | clear | stale
deriving DecidableEq, Repr

/-- What a closure writes into an episode (R146). -/
structure EpisodeClosure where
  reason : CloseReason
  time : Option Nat
  number : Nat
deriving DecidableEq, Repr

/-- R141; OPEN while it has no closure. -/
structure Episode where
  id : Nat
  monitor : Fin 8
  firstTime : Option Nat
  latestTime : Option Nat
  peak : Nat
  exceedCount : Nat
  sectorAtOpen : Direction
  piles : PileSet
  closure : Option EpisodeClosure
  reported : Bool
deriving DecidableEq, Repr

structure Bwu where
  monitors : Table 8 Monitor
  /-- The E episode slots (R141). -/
  episodes : List (Option Episode)
  map : Table 8 (Table 16 PileSet)
  nextId : Nat
  closures : Nat
deriving DecidableEq, Repr

/-! ## Mode and Alert Unit -/

inductive Mode where
  | standby | auto | manual | lockdown
deriving DecidableEq, Repr

/-- R154. -/
inductive Cause where
  | request | stopLine | restart
deriving DecidableEq, Repr

/-- The 51 entries of R160. -/
inductive AlertId where
  | mastSuspect (mast : Fin 2)
  | windDegraded
  | forecastStale
  | timeInvalid
  | noWater
  | waterShort
  | valve (cannon : Fin 32)
  | monitorStale (monitor : Fin 8)
  | machineStale (machine : Fin 4)
deriving DecidableEq, Repr

/-- R160. -/
structure Alert where
  condition : Bool
  latch : Bool
  firstLatch : Option Nat
deriving DecidableEq, Repr

/-- The alert table, by kind (R160). -/
structure Alerts where
  mastSuspect : Table 2 Alert
  windDegraded : Alert
  forecastStale : Alert
  timeInvalid : Alert
  noWater : Alert
  waterShort : Alert
  valve : Table 32 Alert
  monitorStale : Table 8 Alert
  machineStale : Table 4 Alert
deriving DecidableEq, Repr

/-- R159: the partition sizes F, E and O. -/
structure Split where
  forecast : Nat
  episodes : Nat
  orders : Nat
deriving DecidableEq, Repr

structure Mau where
  mode : Mode
  cause : Option Cause
  alerts : Alerts
  split : Split
deriving DecidableEq, Repr

/-! ## Link Controller -/

/-- R166, in bit/s. -/
inductive LineRate where
  | r19200 | r38400 | r57600 | r115200
deriving DecidableEq, Repr

/-- R167. -/
inductive RxState where
  | hunt | header | body | trailer | taking
deriving DecidableEq, Repr

/-- R172: a kind and its object. -/
inductive Notice where
  | risk (pile : Fin 24)
  | order (slot : Nat)
  | episode (slot : Nat)
  | alert (entry : AlertId)
  | source
  | mode
  | day
deriving DecidableEq, Repr

/-- The reply in progress (R170, R171): its whole frame, whether it is on the line yet, the ticks left
of the turnaround or of the sending, and whether the warm restart follows it (R164). -/
structure Reply where
  frame : List Byte
  sending : Bool
  left : Nat
  restart : Bool
deriving DecidableEq, Repr

structure Lc where
  rate : LineRate
  rx : RxState
  /-- The bytes kept of the frame, SYNC first (R167). -/
  buffer : List Byte
  gap : Option Nat
  reply : Option Reply
  /-- Oldest first (R172). -/
  notices : List Notice
deriving DecidableEq, Repr

/-! ## Site parameters -/

/-- The site parameters of file 00 and R182, flags as flags. -/
structure Site where
  mast1Fitted : Bool
  kcal0 : Nat
  ocal0 : Nat
  kcal1 : Nat
  ocal1 : Nat
  designWind : Nat
  gaugeFitted : Bool
  tipDepth : Nat
  dayOffset : Nat
  staleTime : Nat
  horizon : Nat
  baseDrying : Nat
  windDrying : Nat
  band : Nat
  escalationBand : Nat
  severeMargin : Nat
  stagger : Nat
  travel : Nat
  machines : Nat
  machineStale : Nat
  guardZone : Nat
  resumeWindow : Nat
  maxRun : Nat
  minRun : Nat
  freshRate : Nat
  freshAllocation : Nat
  priming : Nat
  rundown : Nat
  changeover : Nat
  lean : Nat
  short : Nat
deriving DecidableEq, Repr

/-! ## The whole -/

/-- The part, the pins it reads, and what the outside has sent and not yet been taken. -/
structure State where
  pins : Pins
  lc : Lc
  yc : Yc
  wfe : Wfe
  ft : Ft
  pau : Pau
  cc : Cc
  sd : Sd
  wiu : Wiu
  bwu : Bwu
  mau : Mau
  site : Site
  /-- The model's own: how many free values have been drawn (log 4). -/
  freeCount : Nat
  /-- The commands and events that wait, first in first out. -/
  pending : List Instr
deriving DecidableEq, Repr

/-- No rule of the manual makes the part stop: a declined request is answered by a refusal frame
(R171), and that is a next state. So there is no fault to name. -/
inductive Fault where
deriving DecidableEq, Repr

/-- The refusals of the model. -/
inductive Refusal where
  /-- Raised by an arm of exec for a row that has no meaning yet. Safe: nothing is claimed. No arm of
  this model raises it. -/
  | notModelled (mnemonic : String)
deriving DecidableEq, Repr

/-! ## After power-on reset -/

/-- A filter that holds no level (R18, R111, R157). -/
def LineFilter.initial (pin : Bool) : LineFilter := ⟨pin, none, 0, pin⟩

/-- R18, R111, R157: no filter has taken a level. The raw levels are the outside's: pulse and rain lines
high, vane lines low, no valve open, STOP released, straps low. DESIGN CHOICE, log 5. -/
def Pins.reset : Pins where
  pulse := .fill 2 (.initial true)
  vane := .fill 2 (.fill 4 (.initial false))
  rain := .initial true
  feedback := .fill 32 (.initial false)
  stop := .initial false
  rate1 := false
  rate0 := false

/-- The defaults of file 00. -/
def Site.reset : Site where
  mast1Fitted := false
  kcal0 := 75
  ocal0 := 0
  kcal1 := 75
  ocal1 := 0
  designWind := 100
  gaugeFitted := false
  tipDepth := 200
  dayOffset := 0
  staleTime := 21600
  horizon := 3
  baseDrying := 4
  windDrying := 2
  band := 20
  escalationBand := 15
  severeMargin := 30
  stagger := 5
  travel := 8
  machines := 0
  machineStale := 60
  guardZone := 20
  resumeWindow := 600
  maxRun := 300
  minRun := 2000
  freshRate := 0
  freshAllocation := 0
  priming := 45
  rundown := 120
  changeover := 20
  lean := 5000000
  short := 1000000

/-- R18. -/
def Mast.reset : Mast := ⟨0, none, 0, false, false⟩

/-- R18. -/
def Wfe.reset : Wfe where
  masts := .fill 2 .reset
  gate := Config.gateTicks
  ring := []
  sums := .fill 16 0
  published := ⟨100, 100, .unknown, .design, false⟩
  selected := none
  bounce := none

/-- R26. -/
def Yc.reset : Yc := ⟨0, false, none, Config.ticksPerSecond⟩

/-- R36. -/
def Ft.reset : Ft := ⟨[], none⟩

/-- R59. -/
def PileConfig.reset : PileConfig where
  t0 := 0
  s := 1
  area := 100
  retention := 100
  wcap := 0
  drain := none
  exposure := .fill 16 0
  w0 := 0

/-- R59. -/
def Pile.reset : Pile where
  configured := false
  config := .reset
  moisture := 0
  pendingSpray := 0
  pendingRain := 0
  deliveredToday := 0
  escalated := false
  hold := false
  results := none

/-- R59. -/
def Pau.reset : Pau := ⟨Config.assessmentTicks, .fill 24 .reset⟩

/-- R111. -/
def CannonConfig.reset : CannonConfig where
  pile := 0
  flow := 10
  rail := none
  zoneStart := 0
  zoneEnd := 0
  driftLimit := 600
  mask := BitVec.allOnes 16

/-- R111. -/
def Cannon.reset : Cannon where
  configured := false
  config := .reset
  phase := .idle
  travel := none
  lostWater := none
  driftBlocked := false
  excluded := false

/-- R111. -/
def MachineRecord.reset : MachineRecord := ⟨false, 0, 0, none, false⟩

/-- R111. -/
def Cc.reset : Cc := ⟨.fill 32 .reset, [], none, .fill 4 .reset⟩

/-- R136. -/
def Sd.reset : Sd where
  runs := .fill 32 none
  orders := List.replicate 8 none
  demands := .fill 24 ⟨0, 3⟩
  suspensions := 0
  acceptances := 0
  passDue := false

/-- R85: the priority of each pond is its index. -/
def Pond.reset (n : Fin 4) : Pond where
  configured := false
  config := ⟨1, 0, 100, 0, 0, 1, n, 0⟩
  volume := 0
  settled := true
  settleCountdown := none
  runoff := 0
  clear := true
  inService := true

/-- R85: every figure 0. -/
def DayRecord.empty (day : Option Nat) : DayRecord := ⟨day, 0, .fill 4 ⟨0, 0, 0, 0, 0⟩, 0, 0⟩

/-- R85. -/
def Wiu.reset : Wiu where
  ponds := .make Pond.reset
  pump := ⟨.off, none, none⟩
  today := .empty none
  previous := .empty none

/-- R151. -/
def Monitor.reset : Monitor where
  configured := false
  limit := 1
  holdOff := 2
  interval := 60
  lastValue := none
  lastTime := none
  belowRun := 0
  openEpisode := none
  stale := false
  countdown := none

/-- R151. -/
def Bwu.reset : Bwu where
  monitors := .fill 8 .reset
  episodes := List.replicate 16 none
  map := .fill 8 (.fill 16 0)
  nextId := 1
  closures := 0

/-- An entry whose condition is false and whose latch is clear. -/
def Alert.quiet : Alert := ⟨false, false, none⟩

/-- R163: a true condition latched while the clock is invalid. -/
def Alert.latched : Alert := ⟨true, true, none⟩

/-- R163: TIME_INVALID, WIND_DEGRADED and WATER_SHORT are latched, with absent times. -/
def Alerts.reset : Alerts where
  mastSuspect := .fill 2 .quiet
  windDegraded := .latched
  forecastStale := .quiet
  timeInvalid := .latched
  noWater := .quiet
  waterShort := .latched
  valve := .fill 32 .quiet
  monitorStale := .fill 8 .quiet
  machineStale := .fill 4 .quiet

/-- R163. -/
def Mau.reset : Mau := ⟨.standby, none, .reset, ⟨48, 16, 8⟩⟩

/-- R177: the ALERT notices of R163 in the order of the alert table. -/
def Lc.reset (rate : LineRate) : Lc where
  rate := rate
  rx := .hunt
  buffer := []
  gap := none
  reply := none
  notices := [.alert .windDegraded, .alert .timeInvalid, .alert .waterShort]

/-- The part right after power-on reset (R163), the straps low (log 5). -/
def State.reset : State where
  pins := .reset
  lc := .reset .r19200
  yc := .reset
  wfe := .reset
  ft := .reset
  pau := .reset
  cc := .reset
  sd := .reset
  wiu := .reset
  bwu := .reset
  mau := .reset
  site := .reset
  freeCount := 0
  pending := []

end Sys2Proof.Machine
end

