-- ==== Sys2Proof/Machine/Ops.lean ====
section
/-! DEFINITION. The named operations over the state that every meaning is made of: reading and writing
one record, the present time (R25), posting a notice (R172), and the mark that an event owes a grant
pass (R124). -/

namespace Sys2Proof.Machine

/-! ## Reading and writing one record -/

def State.mast (s : State) (m : Fin 2) : Mast := s.wfe.masts.get m
def State.pile (s : State) (p : Fin 24) : Pile := s.pau.piles.get p
def State.cannon (s : State) (c : Fin 32) : Cannon := s.cc.cannons.get c
def State.machine (s : State) (m : Fin 4) : MachineRecord := s.cc.machines.get m
def State.run (s : State) (c : Fin 32) : Option Run := s.sd.runs.get c
def State.demand (s : State) (p : Fin 24) : Demand := s.sd.demands.get p
def State.pond (s : State) (p : Fin 4) : Pond := s.wiu.ponds.get p
def State.monitor (s : State) (m : Fin 8) : Monitor := s.bwu.monitors.get m

/-- The order in slot k, if the slot exists and is occupied (R128). -/
def State.order (s : State) (k : Nat) : Option Order := (s.sd.orders[k]?).join

/-- The episode in slot k, if the slot exists and is occupied (R141). -/
def State.episode (s : State) (k : Nat) : Option Episode := (s.bwu.episodes[k]?).join

def State.setMast (s : State) (m : Fin 2) (v : Mast) : State :=
  { s with wfe := { s.wfe with masts := s.wfe.masts.set m v } }

def State.setPile (s : State) (p : Fin 24) (v : Pile) : State :=
  { s with pau := { s.pau with piles := s.pau.piles.set p v } }

def State.setCannon (s : State) (c : Fin 32) (v : Cannon) : State :=
  { s with cc := { s.cc with cannons := s.cc.cannons.set c v } }

def State.setMachine (s : State) (m : Fin 4) (v : MachineRecord) : State :=
  { s with cc := { s.cc with machines := s.cc.machines.set m v } }

def State.setQueue (s : State) (q : List (Fin 32 × Movement)) : State :=
  { s with cc := { s.cc with queue := q } }

def State.setSlot (s : State) (t : Option Nat) : State :=
  { s with cc := { s.cc with slot := t } }

def State.setRun (s : State) (c : Fin 32) (r : Option Run) : State :=
  { s with sd := { s.sd with runs := s.sd.runs.set c r } }

def State.setOrder (s : State) (k : Nat) (o : Option Order) : State :=
  { s with sd := { s.sd with orders := s.sd.orders.set k o } }

def State.setOrders (s : State) (os : List (Option Order)) : State :=
  { s with sd := { s.sd with orders := os } }

def State.setDemand (s : State) (p : Fin 24) (d : Demand) : State :=
  { s with sd := { s.sd with demands := s.sd.demands.set p d } }

def State.setSuspensions (s : State) (n : Nat) : State :=
  { s with sd := { s.sd with suspensions := n } }

def State.setAcceptances (s : State) (n : Nat) : State :=
  { s with sd := { s.sd with acceptances := n } }

def State.setPass (s : State) (b : Bool) : State :=
  { s with sd := { s.sd with passDue := b } }

def State.setPond (s : State) (p : Fin 4) (v : Pond) : State :=
  { s with wiu := { s.wiu with ponds := s.wiu.ponds.set p v } }

def State.setPump (s : State) (v : Pump) : State :=
  { s with wiu := { s.wiu with pump := v } }

def State.setToday (s : State) (d : DayRecord) : State :=
  { s with wiu := { s.wiu with today := d } }

def State.setPrevious (s : State) (d : DayRecord) : State :=
  { s with wiu := { s.wiu with previous := d } }

def State.setMonitor (s : State) (m : Fin 8) (v : Monitor) : State :=
  { s with bwu := { s.bwu with monitors := s.bwu.monitors.set m v } }

def State.setEpisode (s : State) (k : Nat) (e : Option Episode) : State :=
  { s with bwu := { s.bwu with episodes := s.bwu.episodes.set k e } }

def State.setNotices (s : State) (ns : List Notice) : State :=
  { s with lc := { s.lc with notices := ns } }

def State.setAlerts (s : State) (a : Alerts) : State :=
  { s with mau := { s.mau with alerts := a } }

def State.setMode (s : State) (m : Mode) (c : Option Cause) : State :=
  { s with mau := { s.mau with mode := m, cause := c } }

def State.setPins (s : State) (p : Pins) : State := { s with pins := p }

def State.setYc (s : State) (y : Yc) : State := { s with yc := y }

def State.setWfe (s : State) (w : Wfe) : State := { s with wfe := w }

def State.setFt (s : State) (f : Ft) : State := { s with ft := f }

def State.setPau (s : State) (p : Pau) : State := { s with pau := p }

def State.setSite (s : State) (v : Site) : State := { s with site := v }

def State.setLc (s : State) (l : Lc) : State := { s with lc := l }

/-! ## The alert table by entry (R160) -/

def Alerts.get (t : Alerts) : AlertId → Alert
  | .mastSuspect m => t.mastSuspect.get m
  | .windDegraded => t.windDegraded
  | .forecastStale => t.forecastStale
  | .timeInvalid => t.timeInvalid
  | .noWater => t.noWater
  | .waterShort => t.waterShort
  | .valve c => t.valve.get c
  | .monitorStale m => t.monitorStale.get m
  | .machineStale m => t.machineStale.get m

def Alerts.set (t : Alerts) (a : Alert) : AlertId → Alerts
  | .mastSuspect m => { t with mastSuspect := t.mastSuspect.set m a }
  | .windDegraded => { t with windDegraded := a }
  | .forecastStale => { t with forecastStale := a }
  | .timeInvalid => { t with timeInvalid := a }
  | .noWater => { t with noWater := a }
  | .waterShort => { t with waterShort := a }
  | .valve c => { t with valve := t.valve.set c a }
  | .monitorStale m => { t with monitorStale := t.monitorStale.set m a }
  | .machineStale m => { t with machineStale := t.machineStale.set m a }

/-- The 51 entries in the order of the alert table (R160). -/
def alertOrder : List AlertId :=
  (List.finRange 2).map .mastSuspect ++ [.windDegraded, .forecastStale, .timeInvalid, .noWater, .waterShort] ++
  (List.finRange 32).map .valve ++ (List.finRange 8).map .monitorStale ++ (List.finRange 4).map .machineStale

/-! ## Time and notices -/

/-- The present time that a block stamps a record with: the yard time, or absent while the clock is
invalid (R25). -/
def now (s : State) : Option Nat := if s.yc.valid then some s.yc.time else none

/-- A posting: the pair joins the tail unless it is already pending, when the list is unchanged (R172). -/
def post (n : Notice) (s : State) : State :=
  if n ∈ s.lc.notices then s else s.setNotices (s.lc.notices ++ [n])

/-- R173: the NOTICE line is low while the list holds a notice. -/
def noticeLow (s : State) : Bool := !s.lc.notices.isEmpty

/-- R166: LDE is high while a reply is on the line. -/
def ldeHigh (s : State) : Bool :=
  match s.lc.reply with
  | some r => r.sending
  | none => false

/-- The event now taken owes a grant pass (R124). -/
def markPass (s : State) : State := s.setPass true

/-! ## The level filters -/

/-- The outside has held the line at the level and the filter has taken it (R1, R16, R94, R157). -/
def LineFilter.settled (level : Bool) : LineFilter := ⟨level, some level, 0, level⟩

/-- The filter takes a level. A filter that holds the level already is unchanged: its pin may be on the
way to the other one. -/
def LineFilter.take (f : LineFilter) (level : Bool) : LineFilter :=
  if f.level = some level then f else .settled level

/-- The level a line is read at: the filtered one, and before the filter has settled the raw pin. -/
def LineFilter.read (f : LineFilter) : Bool := f.level.getD f.pin

/-- R94, R111: a cannon's filtered feedback, not-open until the filter has settled. -/
def feedbackOpen (s : State) (c : Fin 32) : Bool := (s.pins.feedback.get c).level.getD false

/-- R157: the filtered STOP level, released until the filter has taken a level. -/
def stopAsserted (s : State) : Bool := s.pins.stop.level.getD false

def setFeedback (c : Fin 32) (isOpen : Bool) (s : State) : State :=
  s.setPins { s.pins with feedback := s.pins.feedback.modify c (·.take isOpen) }

def setStop (asserted : Bool) (s : State) : State :=
  s.setPins { s.pins with stop := s.pins.stop.take asserted }

/-- A falling edge leaves the filtered pulse line low (R1). -/
def setPulseLow (m : Fin 2) (s : State) : State :=
  s.setPins { s.pins with pulse := s.pins.pulse.modify m (·.take false) }

/-- A falling edge leaves the filtered RAIN line low (R16). -/
def setRainLow (s : State) : State := s.setPins { s.pins with rain := s.pins.rain.take false }

/-- One vane line as the gate reads it: a line read at another level takes that one. -/
def LineFilter.readAs (f : LineFilter) (level : Bool) : LineFilter :=
  if f.read = level then f else .settled level

/-- The four filtered vane lines A B C D of a mast as the gate reads them, A the most significant bit
(R3). -/
def setVane (m : Fin 2) (v : BitVec 4) (s : State) : State :=
  s.setPins { s.pins with
    vane := s.pins.vane.modify m fun lines =>
      .make fun i => (lines.get i).readAs (v.getLsbD (3 - i.val)) }

/-- The vane lines of a mast as the filters hold them; before a filter has settled, the raw pin. -/
def vaneLines (s : State) (m : Fin 2) : BitVec 4 :=
  let bit (i : Fin 4) : BitVec 4 :=
    if ((s.pins.vane.get m).get i).read then 1#4 <<< (3 - i.val) else 0#4
  bit 0 ||| bit 1 ||| bit 2 ||| bit 3

/-- A countdown's remaining whole seconds, as replies give them; a part of a second counts as one.
DESIGN CHOICE, log 7. -/
def secondsLeft (ticks : Nat) : Nat := ceilDiv ticks Config.ticksPerSecond

end Sys2Proof.Machine
end

