-- ==== Sys2Proof/Machine/Views.lean ====
section
/-! DEFINITION. What the blocks ask one another: figures the manual defines as functions of the state,
kept nowhere else so that they cannot disagree with it (log 10). Sources and capacity (R68, R69), water
in hand (R81), reservations (R89, R119), eligibility (R108), the forecast questions (R33 to R35), the
day number (R21), and the outputs. -/

namespace Sys2Proof.Machine

/-! ## Wind Front-End -/

/-- R1, R5: mast 0 is always fitted, mast 1 as SITE_SETUP says. -/
def fitted (s : State) (m : Fin 2) : Bool := m = 0 || s.site.mast1Fitted

/-- R8. -/
def mastUsable (s : State) (m : Fin 2) : Bool :=
  fitted s m && !(s.mast m).suspect && !(s.mast m).declaredOut

/-! ## Yard Clock and Forecast Table -/

/-- R21. -/
def dayNumber (time offset : Nat) : Nat := if time < offset then 0 else (time - offset) / 86400

/-- R33. -/
def forecastIsStale (s : State) : Bool :=
  s.yc.valid &&
    match s.ft.newestIssue with
    | none => true
    | some t => decide (t + s.site.staleTime < s.yc.time)

/-- R34. -/
def currentSlot (s : State) : Option Slot :=
  if s.yc.valid && !forecastIsStale s then
    s.ft.slots.find? fun f => decide (f.start ≤ s.yc.time) && decide (s.yc.time < f.start + 3600)
  else none

/-- R35: the slots of the window and the gap mark, or no look-ahead. -/
def lookAhead (s : State) : Option (List Slot × Bool) :=
  if s.yc.valid && !forecastIsStale s then
    let hour := s.yc.time - s.yc.time % 3600
    let list := s.ft.slots.filter fun f =>
      decide (hour ≤ f.start) && decide (f.start < hour + s.site.horizon * 3600)
    let gap := (List.range s.site.horizon).any fun k =>
      !s.ft.slots.any fun f => decide (f.start = hour + k * 3600)
    some (list, gap)
  else none

/-! ## Water Inventory Unit -/

/-- Fresh used today, Fu (R67). -/
def freshUsed (s : State) : Nat := s.wiu.today.fresh

/-- R68. -/
def fit (s : State) : Source → Bool
  | .pond p =>
    let d := s.pond p
    d.configured && d.clear && d.inService && decide (d.config.floor < d.volume)
  | .fresh => decide (0 < s.site.freshRate) && decide (freshUsed s < s.site.freshAllocation)

/-- R68. -/
def usable (s : State) : Source → Bool
  | .pond p => fit s (.pond p) && (s.pond p).settled
  | .fresh => fit s .fresh

/-- The five sources. -/
def sources : List Source := (List.finRange 4).map .pond ++ [.fresh]

/-- The better of two ponds to draw from: the usable one of lower priority number (R68). -/
def betterPond (s : State) (best : Option (Fin 4)) (p : Fin 4) : Option (Fin 4) :=
  if usable s (.pond p) then
    match best with
    | none => some p
    | some b => if (s.pond p).config.priority < (s.pond b).config.priority then some p else some b
  else best

/-- Selection (R68). -/
def selection (s : State) : Option Source :=
  match (List.finRange 4).foldl (betterPond s) none with
  | some p => some (.pond p)
  | none => if usable s .fresh then some .fresh else none

/-- R68: true while a selection would give none. -/
def noUsableSource (s : State) : Bool := (selection s).isNone

/-- The rate of a source (R69). -/
def sourceRate (s : State) : Source → Nat
  | .pond p => (s.pond p).config.flow
  | .fresh => s.site.freshRate

/-- The header capacity C (R69). -/
def capacity (s : State) : Nat :=
  match s.wiu.pump.phase, s.wiu.pump.source with
  | .running, some src => sourceRate s src
  | .rundown, some src => sourceRate s src
  | _, _ => 0

/-- One pond's part of the usable water (R81). -/
def pondWater (s : State) (p : Fin 4) : Nat :=
  let d := s.pond p
  if d.configured && d.clear && d.inService then d.volume - d.config.floor else 0

/-- The usable water U (R81). -/
def usableWater (s : State) : Nat :=
  ((List.finRange 4).map (pondWater s)).sum +
    if 0 < s.site.freshRate then s.site.freshAllocation - freshUsed s else 0

/-- R81. -/
def waterState (s : State) : WaterState :=
  if usableWater s < s.site.short then .short
  else if usableWater s < s.site.lean then .lean
  else .ample

/-- R69: the output PMPn or FMV is driven while its source is active in any state but OFF. -/
def sourceDriven (s : State) (src : Source) : Bool :=
  s.wiu.pump.phase ≠ .off && s.wiu.pump.source = some src

/-! ## Cannon Controller -/

/-- R89: the states that hold a header flow reservation. -/
def CannonPhase.reserves : CannonPhase → Bool
  | .pendingOpen | .opening | .spraying | .closePending | .closing | .stuck => true
  | .idle | .faulted | .locked => false

/-- R73, R122: the states whose reservation holds the header busy; STUCK does not. -/
def CannonPhase.busy : CannonPhase → Bool
  | .pendingOpen | .opening | .spraying | .closePending | .closing => true
  | .idle | .stuck | .faulted | .locked => false

/-- R89: the valve output VOc is driven. -/
def valveDriven (s : State) (c : Fin 32) : Bool :=
  match (s.cannon c).phase with
  | .opening | .spraying | .closePending => true
  | _ => false

/-- The reserved flow (R119). -/
def reservedFlow (s : State) : Nat :=
  ((List.finRange 32).map fun c =>
    if (s.cannon c).phase.reserves then (s.cannon c).config.flow else 0).sum

/-- Some cannon holds the header busy (R122). -/
def headerBusy (s : State) : Bool := (List.finRange 32).any fun c => (s.cannon c).phase.busy

/-- The cannon's entry in the valve movement queue (R90). -/
def queuedMovement (s : State) (c : Fin 32) : Option Movement :=
  (s.cc.queue.find? fun e => e.1 = c).map Prod.snd

/-- The part is in AUTO or MANUAL. -/
def spraysMode : Mode → Bool
  | .auto | .manual => true
  | .standby | .lockdown => false

/-- The conditions of R108 but for the run that holds the cannon. -/
def couldSpray (s : State) (c : Fin 32) : Bool :=
  let r := s.cannon c
  r.configured && r.phase = .idle && !r.excluded && !r.driftBlocked &&
    (s.pile r.config.pile).configured && spraysMode s.mau.mode

/-- R108: eligible for a new run. -/
def eligible (s : State) (c : Fin 32) : Bool := couldSpray s c && (s.run c).isNone

/-- The run waits to resume. -/
def Run.isSuspended (r : Run) : Bool :=
  match r.phase with
  | .suspended _ _ _ => true
  | .active _ _ => false

/-- R108: held by a suspended run and free to resume it. -/
def freeToResume (s : State) (c : Fin 32) : Bool :=
  couldSpray s c &&
    match s.run c with
    | some r => r.isSuspended
    | none => false

/-- R105: machines below the declared count are declared. -/
def declared (s : State) (m : Fin 4) : Bool := decide (m.val < s.site.machines)

/-- R106: machine m excludes cannon c. The comparison is made on signed figures. -/
def excludes (s : State) (m : Fin 4) (c : Fin 32) : Bool :=
  let k := (s.cannon c).config
  let r := s.machine m
  match k.rail with
  | none => false
  | some rail =>
    (s.cannon c).configured && declared s m &&
      if !r.reported then true
      else if r.stale then decide (r.rail = rail)
      else decide (r.rail = rail) &&
        decide ((k.zoneStart : Int) - s.site.guardZone ≤ r.chainage) &&
        decide ((r.chainage : Int) ≤ k.zoneEnd + s.site.guardZone)

/-- R106. -/
def shouldExclude (s : State) (c : Fin 32) : Bool := (List.finRange 4).any fun m => excludes s m c

/-- R103: the sector test. -/
def sectorPasses (mask : BitVec 16) : Direction → Bool
  | .sector n => mask.getLsbD n
  | .calm => true
  | .unknown => decide (mask = BitVec.allOnes 16)

/-- R103: the drift-blocked flag after a publication, from the flag before it. -/
def driftTest (s : State) (c : Fin 32) (blocked : Bool) : Bool :=
  let k := (s.cannon c).config
  let w := s.wfe.published
  if blocked then
    !(decide (w.gust ≤ k.driftLimit - 20) && sectorPasses k.mask w.direction)
  else decide (k.driftLimit < w.gust) || !sectorPasses k.mask w.direction

/-! ## Spray Dispatcher -/

/-- The outstanding volume of a run (R113). -/
def Run.outstanding (r : Run) : Nat :=
  match r.phase with
  | .active .ends _ => 0
  | _ => r.target - r.delivered

/-- The outstanding volumes of the runs that pass the test, added up. -/
def outstandingOf (s : State) (test : Run → Bool) : Nat :=
  ((List.finRange 32).map fun c =>
    match s.run c with
    | some r => if test r then r.outstanding else 0
    | none => 0).sum

/-- R125: an order's undelivered volume. -/
def undelivered (s : State) (k : Nat) (o : Order) : Nat :=
  o.volume - o.delivered - outstandingOf s fun r => r.origin = .order k

/-- The cannons of an order's runs, ascending. -/
def orderRuns (s : State) (k : Nat) : List (Fin 32) :=
  (List.finRange 32).filter fun c =>
    match s.run c with
    | some r => r.origin = .order k
    | none => false

/-- R128: the lowest-numbered free slot. -/
def freeOrderSlot (s : State) : Option Nat :=
  s.sd.orders.findIdx? Option.isNone

/-- R128: the occupied slot that carries the tag. -/
def orderOfTag (s : State) (tag : Nat) : Option Nat :=
  s.sd.orders.findIdx? fun o =>
    match o with
    | some r => r.tag = tag
    | none => false

/-- R130: some OPEN HOLD names the pile. -/
def heldByOrder (s : State) (p : Fin 24) : Bool :=
  s.sd.orders.any fun o =>
    match o with
    | some r => r.kind = .hold && r.closure.isNone && r.pile = p
    | none => false

/-- R126: the tiers a water state serves. -/
def tierServed (w : WaterState) (tier : Nat) : Bool :=
  match w with
  | .ample => true
  | .lean => decide (tier ≤ 2)
  | .short => decide (tier ≤ 1)

/-! ## Boundary Watch Unit -/

/-- R148: the union of the attributed sets of the OPEN episodes. -/
def escalatedSet (s : State) : PileSet :=
  s.bwu.episodes.foldl (fun acc e =>
    match e with
    | some r => if r.closure.isNone then acc ||| r.piles else acc
    | none => acc) 0

end Sys2Proof.Machine
end

