-- ==== Sys2Proof/Machine/Flags.lean ====
section
/-! DEFINITION. The conditions of the 51 alert entries, as their owners define them, and what a change
of a condition does to its entry (R160): the only place a latch is set but for the restarts. -/

namespace Sys2Proof.Machine

/-- The condition of an entry as its owner defines it: R14, R33, R25, R162, R81, R99, R139, R105. -/
def conditionOf (s : State) : AlertId → Bool
  | .mastSuspect m => fitted s m && ((s.mast m).suspect || (s.mast m).declaredOut)
  | .windDegraded => s.wfe.published.source ≠ .live
  | .forecastStale => forecastIsStale s
  | .timeInvalid => !s.yc.valid
  | .noWater => noUsableSource s && spraysMode s.mau.mode
  | .waterShort => waterState s = .short
  | .valve c =>
    (s.cannon c).configured && ((s.cannon c).phase = .faulted || (s.cannon c).phase = .stuck)
  | .monitorStale m => (s.monitor m).configured && (s.monitor m).stale
  | .machineStale m => declared s m && (!(s.machine m).reported || (s.machine m).stale)

/-- The entry after its condition has come to c (R160). A rise sets the latch and stamps the first-latch
time where the latch was clear. A fall touches only the condition. -/
def Alert.after (a : Alert) (c : Bool) (time : Option Nat) : Alert :=
  if c && !a.condition then ⟨true, true, if a.latch then a.firstLatch else time⟩
  else { a with condition := c }

/-- The owner writes the entry's condition; a rise posts an ALERT notice in the same event (R160). -/
def syncAlert (e : AlertId) (s : State) : State :=
  let a := s.mau.alerts.get e
  let c := conditionOf s e
  let t := s.setAlerts (s.mau.alerts.set (a.after c (now s)) e)
  if c && !a.condition then post (.alert e) t else t

def syncAlerts (es : List AlertId) (s : State) : State := es.foldl (fun t e => syncAlert e t) s

/-- The restart's reading of one entry (R163, R164): the latch takes the condition, and a true one is
stamped and posted. -/
def relatch (e : AlertId) (s : State) : State :=
  let c := conditionOf s e
  let t := s.setAlerts (s.mau.alerts.set ⟨c, c, if c then now s else none⟩ e)
  if c then post (.alert e) t else t

def relatchAll (s : State) : State := alertOrder.foldl (fun t e => relatch e t) s

end Sys2Proof.Machine
end

