-- ==== Sys2Proof/Machine/Runs.lean ====
section
/-! DEFINITION. The run list and the closing of an order without runs (R113 to R117, R131, R133): what
happens to a run when its cannon returns to IDLE, and how a run ends or is suspended. -/

namespace Sys2Proof.Machine

/-- R114: END is kept once set; a SUSPEND disposition takes the latest cause. -/
def RunPhase.dispose (p : RunPhase) (d : Disposition) : RunPhase :=
  match p with
  | .active .ends t => .active .ends t
  | .active _ t => .active d t
  | .suspended c n t => .suspended c n t

def RunPhase.withDelivery (p : RunPhase) (t : Option Nat) : RunPhase :=
  match p with
  | .active d _ => .active d t
  | .suspended c n r => .suspended c n r

def updateRun (c : Fin 32) (f : Run → Run) (s : State) : State :=
  match s.run c with
  | some r => s.setRun c (some (f r))
  | none => s

/-- The run on the cannon takes the disposition, by R114. -/
def setDisposition (c : Fin 32) (d : Disposition) (s : State) : State :=
  updateRun c (fun r => { r with phase := r.phase.dispose d }) s

/-- Open confirmed: the delivery countdown starts at 1 s (R117, R127). -/
def startDelivery (c : Fin 32) (s : State) : State :=
  updateRun c (fun r => { r with phase := r.phase.withDelivery (some Config.ticksPerSecond) }) s

/-- Close issued: the delivery countdown stops and its part of a second is discarded (R117, R127). -/
def stopDelivery (c : Fin 32) (s : State) : State :=
  updateRun c (fun r => { r with phase := r.phase.withDelivery none }) s

/-- The hold flag of a pile follows the OPEN HOLD orders that name it (R130). -/
def recomputeHold (p : Fin 24) (s : State) : State :=
  s.setPile p { s.pile p with hold := heldByOrder s p }

/-- Steps 1 and 2 of a closure (R133): CLOSED with its outcome and time, the countdown stopped. -/
def writeClosure (k : Nat) (o : Order) (outcome : OrderOutcome) (s : State) : State :=
  s.setOrder k (some { o with countdown := none, closure := some ⟨outcome, now s⟩ })

/-- Step 4 of a closure (R133), and the recomputing of the hold flag where the order was a HOLD (R130). -/
def announceClosure (k : Nat) (o : Order) (s : State) : State :=
  let t := if o.kind = .hold then recomputeHold o.pile s else s
  post (.order k) t

/-- R131: at the end of a run of a WET order the order closes DONE when it has its volume and no run
left. It has no run to detach. -/
def completeIfDone (k : Nat) (s : State) : State :=
  match s.order k with
  | some o =>
    if o.kind = .wet ∧ o.closure.isNone ∧ o.volume ≤ o.delivered ∧ orderRuns s k = [] then
      announceClosure k o (writeClosure k o .done s)
    else s
  | none => s

/-- A run ends: it leaves the run list, its order is tested for completion, and a grant pass follows
(R116). -/
def endRun (c : Fin 32) (s : State) : State :=
  match s.run c with
  | none => s
  | some r =>
    let t := markPass (s.setRun c none)
    match r.origin with
    | .order k => completeIfDone k t
    | .auto => t
    | .detached => t

/-- A SUSPEND disposition is applied (R115). With a resume window of 0 the countdown expires at once. -/
def suspendRun (c : Fin 32) (cause : SuspendCause) (s : State) : State :=
  let n := Config.count48 (s.sd.suspensions + 1)
  let t := updateRun c
    (fun r => { r with phase := .suspended cause n (Config.seconds s.site.resumeWindow) })
    (s.setSuspensions n)
  if s.site.resumeWindow = 0 then endRun c t else t

/-- The cannon has returned to IDLE and its run's close disposition is applied (R114). NONE is found
there only at the entry to STANDBY or LOCKDOWN, and the run ends. -/
def applyDisposition (c : Fin 32) (s : State) : State :=
  match s.run c with
  | none => s
  | some r =>
    match r.phase with
    | .active (.suspend cause) _ => suspendRun c cause s
    | .active .ends _ => endRun c s
    | .active .none _ => endRun c s
    | .suspended _ _ _ => s

end Sys2Proof.Machine
end

