-- ==== Sys2Proof/Machine/Pump.lean ====
section
/-! DEFINITION. The pump set as the Spray Dispatcher's header reports move it (R69, R71, R73, R74). The
parts of a change to OFF that reach back into the run list (the capacity loss of R70) are in
Sys2Proof/Machine/Spray.lean; here no cannon holds the header busy, so a capacity loss finds no ACTIVE
run to act on (R120) and changes nothing. -/

namespace Sys2Proof.Machine

/-- A change of the pump set, with its SOURCE notice (R70). -/
def pumpTo (phase : PumpPhase) (source : Option Source) (interval : Option Nat) (s : State) : State :=
  post .source (s.setPump ⟨phase, source, interval⟩)

/-- The pump set goes to OFF: the output is released and any interval stops (R74). -/
def pumpOff (s : State) : State := pumpTo .off none none s

/-- A start request (R71). -/
def startRequest (s : State) : State :=
  if s.wiu.pump.phase = .off ∧ spraysMode s.mau.mode = true then
    match selection s with
    | some src => pumpTo .priming (some src) (some (Config.seconds s.site.priming)) s
    | none => s
  else s

/-- The entry to RUNDOWN with its idle re-selection (R73, R74). With Th 0 the interval expires at once. -/
def enterRundown (s : State) : State :=
  if (selection s).isSome ∧ selection s = s.wiu.pump.source then
    if s.site.rundown = 0 then pumpOff s
    else pumpTo .rundown s.wiu.pump.source (some (Config.seconds s.site.rundown)) s
  else pumpOff s

/-- A header idle report, sent where no cannon holds the header busy (R122) and ignored but in RUNNING
(R73). -/
def headerIdle (s : State) : State :=
  if s.wiu.pump.phase = .running ∧ headerBusy s = false then enterRundown s else s

/-- A grant report: a grant or resumption made in RUNDOWN returns the pump set to RUNNING on the same
source (R73). -/
def grantReport (s : State) : State :=
  if s.wiu.pump.phase = .rundown then pumpTo .running s.wiu.pump.source none s else s

end Sys2Proof.Machine
end

