-- ==== Sys2Proof/Machine/Valves.lean ====
section
/-! DEFINITION. The valve movement queue and the closes (R90 to R93, R96, R110, R112), with the
dispatcher's answer to a released reservation (R127). -/

namespace Sys2Proof.Machine

/-- The cannon enters a state, and its VALVE condition follows (R99). -/
def enterPhase (c : Fin 32) (phase : CannonPhase) (travel lost : Option Nat) (s : State) : State :=
  syncAlert (.valve c)
    (s.setCannon c { s.cannon c with phase := phase, travel := travel, lostWater := lost })

/-- The cannon's entry leaves the queue; the stagger slot countdown is not touched (R90). -/
def removeEntry (c : Fin 32) (s : State) : State := s.setQueue (s.cc.queue.filter fun e => e.1 ≠ c)

/-- Reservation released at a cannon returned to IDLE: the disposition is applied, the header idle
report is made if this was the last busy reservation, and a grant pass follows (R127). -/
def releaseIdle (c : Fin 32) (s : State) : State := markPass (headerIdle (applyDisposition c s))

/-- The cannon returns to IDLE and its reservation is released (R91, R93, R96). -/
def returnToIdle (c : Fin 32) (s : State) : State :=
  releaseIdle c (enterPhase c .idle none none s)

/-- An open entry is withdrawn before its issue (R91, R93, R104, R110). -/
def withdrawOpen (c : Fin 32) (s : State) : State := returnToIdle c (removeEntry c s)

/-- The valve output is released and the cannon enters CLOSING under travel supervision; the close issued
is reported (R92, R93). -/
def commandClose (c : Fin 32) (s : State) : State :=
  enterPhase c .closing (some (Config.seconds s.site.travel)) none (stopDelivery c s)

/-- A close is commanded. Where the filtered feedback already shows not-open, the close is confirmed at
once (R92, R93, R96; log 12). -/
def beginClose (c : Fin 32) (s : State) : State :=
  if feedbackOpen s c then commandClose c s else returnToIdle c (stopDelivery c s)

/-- An issued entry acts on its cannon (R92). -/
def issueEntry (c : Fin 32) (m : Movement) (s : State) : State :=
  match m, (s.cannon c).phase with
  | .opens, .pendingOpen => enterPhase c .opening (some (Config.seconds s.site.travel)) none s
  | .closes, .closePending => beginClose c s
  | .closes, .opening => beginClose c s
  | _, _ => s

/-- An entry arrives at the queue (R90). -/
def enqueue (c : Fin 32) (m : Movement) (s : State) : State :=
  if s.cc.queue = [] ∧ s.cc.slot = none then
    issueEntry c m (s.setSlot (some (Config.seconds s.site.stagger)))
  else s.setQueue (s.cc.queue ++ [(c, m)])

/-- The stagger slot countdown expires (R90). -/
def slotStep (s : State) : State :=
  match s.cc.queue with
  | [] => s.setSlot none
  | (c, m) :: rest =>
    issueEntry c m ((s.setQueue rest).setSlot (some (Config.seconds s.site.stagger)))

/-- An open request (R91). -/
def openRequest (c : Fin 32) (s : State) : State :=
  enqueue c .opens (enterPhase c .pendingOpen none none s)

/-- A queued close request (R91). -/
def queuedClose (c : Fin 32) (s : State) : State :=
  match (s.cannon c).phase with
  | .pendingOpen => withdrawOpen c s
  | .opening => if queuedMovement s c = none then enqueue c .closes s else s
  | .spraying => enqueue c .closes (enterPhase c .closePending none none s)
  | _ => s

/-- An immediate close (R93). -/
def immediateClose (c : Fin 32) (s : State) : State :=
  match (s.cannon c).phase with
  | .pendingOpen => withdrawOpen c s
  | .opening => beginClose c (removeEntry c s)
  | .spraying => beginClose c (removeEntry c s)
  | .closePending => beginClose c (removeEntry c s)
  | _ => s

/-- The immediate close of a cannon at the entry to LOCKDOWN and at the warm restart, which leaves every
cannon that was moving or spraying in CLOSING (R110, R112, R154). A close whose filtered feedback already
shows not-open is confirmed by R96 in an event of its own. DESIGN CHOICE, log 28. -/
def closeToStop (c : Fin 32) (s : State) : State :=
  match (s.cannon c).phase with
  | .pendingOpen => withdrawOpen c s
  | .opening => commandClose c (removeEntry c s)
  | .spraying => commandClose c (removeEntry c s)
  | .closePending => commandClose c (removeEntry c s)
  | _ => s

/-- The cannon is in CLOSING and its filtered feedback shows not-open already: its close waits to be
confirmed (R96). DESIGN CHOICE, log 28. -/
def closeUnconfirmed (s : State) (c : Fin 32) : Bool :=
  (s.cannon c).configured && (s.cannon c).phase = .closing && !feedbackOpen s c

end Sys2Proof.Machine
end

