-- ==== Sys2Proof/Machine/Spray.lean ====
section
/-! DEFINITION. The Spray Dispatcher: the ends it decides, the capacity loss and the header overload
(R120, R121), the closure of an order (R133), and the grant pass (R119, R122, R124 to R126). -/

namespace Sys2Proof.Machine

/-- The event f done to every cannon in ascending order of index. Where no rule orders the cannons of one
event, that order is the model's, and the movements that f queues join the queue in it. DESIGN CHOICE,
log 24. -/
def forCannons (f : Fin 32 → State → State) (s : State) : State :=
  (List.finRange 32).foldl (fun t c => f c t) s

/-! ## Ending runs -/

/-- An end is decided for the run on a cannon (R115, R116, R123, R133, R135): an ACTIVE run takes END
and a queued close request, a SUSPENDED run ends at once. -/
def decideEnd (c : Fin 32) (s : State) : State :=
  match s.run c with
  | none => s
  | some r => if r.isSuspended then endRun c s else queuedClose c (setDisposition c .ends s)

/-- An end is decided for every run that passes the test. The rules give no order in which the queued
closes join the queue (R118, R123, R130, R133, R135). DESIGN CHOICE, log 24. -/
def decideEnds (test : Run → Bool) (s : State) : State :=
  forCannons (fun c t =>
    match t.run c with
    | some r => if test r then decideEnd c t else t
    | none => t) s

/-! ## Capacity loss and overload -/

/-- The capacity loss at one cannon (R120). -/
def loseCapacityAt (c : Fin 32) (s : State) : State :=
  match s.run c with
  | none => s
  | some r =>
    if r.isSuspended then s
    else
      match (s.cannon c).phase with
      | .pendingOpen => immediateClose c (setDisposition c (.suspend .flow) s)
      | .opening => immediateClose c (setDisposition c (.suspend .flow) s)
      | .spraying => immediateClose c (setDisposition c (.suspend .flow) s)
      | .closePending => immediateClose c (setDisposition c .ends s)
      | _ => s

/-- A capacity loss is taken (R120). -/
def capacityLoss (s : State) : State := forCannons loseCapacityAt s

/-- The answer to unbidden flow: the header overload test (R121). -/
def overloadTest (s : State) : State :=
  if reservedFlow s ≤ capacity s then s else capacityLoss s

/-! ## Closing an order -/

/-- Step 3 of a closure at one cannon: the order's run is detached, and ended (R133). -/
def detachAt (k : Nat) (c : Fin 32) (s : State) : State :=
  match s.run c with
  | none => s
  | some r =>
    if r.origin = .order k then
      decideEnd c (s.setRun c (some { r with origin := .detached }))
    else s

/-- The closure of an OPEN order (R133). -/
def closeOrder (k : Nat) (outcome : OrderOutcome) (s : State) : State :=
  match s.order k with
  | none => s
  | some o =>
    if o.closure.isSome then s
    else announceClosure k o (forCannons (detachAt k) (writeClosure k o outcome s))

/-- Every OPEN order that passes the test closes, in ascending order of slot, which is the model's. DESIGN
CHOICE, log 24. -/
def closeOrders (test : Order → Bool) (outcome : OrderOutcome) (s : State) : State :=
  (List.range s.sd.orders.length).foldl (fun t k =>
    match t.order k with
    | some o => if test o then closeOrder k outcome t else t
    | none => t) s

/-! ## The grant pass -/

/-- A pass under way: the state as its grants have left it, whether it granted or resumed anything, and
whether it skipped a candidate for the flow test (R122). -/
structure Pass where
  s : State
  granted : Bool
  skipped : Bool

/-- The flow test (R119). -/
def flowFits (s : State) (c : Fin 32) : Bool :=
  decide (reservedFlow s + (s.cannon c).config.flow ≤ capacity s)

/-- A candidate is granted by f where it passes the flow test, and skipped where it does not. -/
def Pass.attempt (p : Pass) (c : Fin 32) (f : State → State) : Pass :=
  if flowFits p.s c then { p with s := f p.s, granted := true } else { p with skipped := true }

/-- The run on the cannon is made ACTIVE again (R115, R124). -/
def resumeRun (c : Fin 32) (s : State) : State :=
  openRequest c (updateRun c (fun r => { r with phase := .active .none none }) s)

/-- A new run is entered in the run list (R113, R124). -/
def newRun (c : Fin 32) (origin : Origin) (tier : Option (Fin 4)) (target : Nat) (s : State) : State :=
  openRequest c (s.setRun c (some {
    pile := (s.cannon c).config.pile, origin := origin, tier := tier, target := target,
    delivered := 0, phase := .active .none none }))

/-- The most one run on the cannon may be asked to deliver: Qc times the maximum run time (R125, R126). -/
def longestRun (s : State) (c : Fin 32) : Nat := (s.cannon c).config.flow * s.site.maxRun

/-- Insertion into a list that is in order by the test, before the elements it does not hold earlier. -/
def insertBy {α : Type} (before : α → α → Bool) (a : α) : List α → List α
  | [] => [a]
  | b :: rest => if before b a then b :: insertBy before a rest else a :: b :: rest

/-- The list in order by the test; elements the test does not tell apart keep their order. -/
def sortBy {α : Type} (before : α → α → Bool) (l : List α) : List α :=
  l.foldr (insertBy before) []

/-- The slots of the OPEN WET orders, by acceptance number (R125, R128). -/
def openWetOrders (s : State) : List Nat :=
  let isOpenWet (k : Nat) : Bool :=
    match s.order k with
    | some o => o.kind = .wet && o.closure.isNone
    | none => false
  let acceptance (k : Nat) : Nat :=
    match s.order k with
    | some o => o.acceptance
    | none => 0
  sortBy (fun a b => acceptance a < acceptance b) ((List.range s.sd.orders.length).filter isOpenWet)

/-- Step 1, part 1: the order's suspended runs, in ascending order of cannon (R125). -/
def resumeOrderAt (k : Nat) (p : Pass) (c : Fin 32) : Pass :=
  match p.s.run c with
  | some r =>
    if r.origin = .order k && freeToResume p.s c then p.attempt c (resumeRun c) else p
  | none => p

/-- Step 1, part 3: one eligible cannon of the order's pile, and what stays undelivered (R125). -/
def grantOrderAt (k : Nat) (pile : Fin 24) (acc : Pass × Nat) (c : Fin 32) : Pass × Nat :=
  let p := acc.1
  let left := acc.2
  if 0 < left && eligible p.s c && (p.s.cannon c).config.pile = pile then
    let target := min left (longestRun p.s c)
    (p.attempt c (newRun c (.order k) none target),
      if flowFits p.s c then left - target else left)
  else acc

/-- Step 1 for one order (R125). -/
def serveOrder (p : Pass) (k : Nat) : Pass :=
  match p.s.order k with
  | none => p
  | some o =>
    let q := (List.finRange 32).foldl (resumeOrderAt k) p
    ((List.finRange 32).foldl (grantOrderAt k o.pile) (q, undelivered q.s k o)).1

/-- The tier a run stands in; an AUTO run has one (R113). -/
def Run.tierNumber (r : Run) : Nat :=
  match r.tier with
  | some t => t
  | none => 3

/-- The suspension number of a suspended run (R115). -/
def Run.suspensionNumber (r : Run) : Nat :=
  match r.phase with
  | .suspended _ n _ => n
  | .active _ _ => 0

/-- Step 2's candidates: suspended AUTO runs free to resume, by tier and then suspension number (R126). -/
def resumableAuto (s : State) : List (Fin 32) :=
  let key (c : Fin 32) : Nat × Nat :=
    match s.run c with
    | some r => (r.tierNumber, r.suspensionNumber)
    | none => (0, 0)
  sortBy (fun a b => decide ((key a).1 < (key b).1) ||
      decide ((key a).1 = (key b).1) && decide ((key a).2 < (key b).2))
    ((List.finRange 32).filter fun c => freeToResume s c &&
      match s.run c with
      | some r => r.origin = .auto
      | none => false)

/-- Step 2 for one run: the tier filter first, then the flow test (R126). -/
def resumeAutoAt (p : Pass) (c : Fin 32) : Pass :=
  match p.s.run c with
  | some r => if tierServed (waterState p.s) r.tierNumber then p.attempt c (resumeRun c) else p
  | none => p

/-- Step 3's piles: open demand above 0, by tier ascending, open demand descending, index ascending (R126). -/
def demandingPiles (s : State) : List (Fin 24) :=
  sortBy (fun a b =>
      decide ((s.demand a).tier < (s.demand b).tier) ||
      decide ((s.demand a).tier = (s.demand b).tier) && decide ((s.demand b).volume < (s.demand a).volume))
    ((List.finRange 24).filter fun i => decide (0 < (s.demand i).volume))

/-- Step 3 at one cannon of a served pile (R126). -/
def grantAutoAt (i : Fin 24) (p : Pass) (c : Fin 32) : Pass :=
  let d := p.s.demand i
  if p.s.site.minRun ≤ d.volume && eligible p.s c && (p.s.cannon c).config.pile = i then
    let target := min d.volume (longestRun p.s c)
    p.attempt c fun s =>
      (newRun c .auto (some d.tier) target s).setDemand i { d with volume := d.volume - target }
  else p

/-- Step 3 for one pile (R126). -/
def servePile (p : Pass) (i : Fin 24) : Pass :=
  if (p.s.pile i).hold || !tierServed (waterState p.s) (p.s.demand i).tier then p
  else (List.finRange 32).foldl (grantAutoAt i) p

/-- The three steps of the pass (R124 to R126). Step 3 is made only in AUTO. -/
def passSteps (s : State) : Pass :=
  let p1 := (openWetOrders s).foldl serveOrder ⟨s, false, false⟩
  let p2 := (resumableAuto p1.s).foldl resumeAutoAt p1
  if s.mau.mode = .auto then (demandingPiles p2.s).foldl servePile p2 else p2

/-- The grant pass, which ends with the reports of R122: the grant report, the start request, and the
header idle report. -/
def grantPass (s : State) : State :=
  let p := passSteps s
  let t := if p.granted then grantReport p.s else p.s
  headerIdle (if p.skipped then startRequest t else t)

/-- One event of the part: one pass is made after everything else the event does, where something in
the event asks for it (R124). A command is one such event, the inflows of one RAIN_TIP or ASSESSMENT
among it, though R17, R46 and R64 make each an event of its own. DESIGN CHOICE, log 27. -/
def inEvent (f : State → State) (s : State) : State :=
  let t := f (s.setPass false)
  if t.sd.passDue then (grantPass t).setPass false else t

end Sys2Proof.Machine
end

