-- ==== Sys2Proof/Machine/Water.lean ====
section
/-! DEFINITION. The Water Inventory Unit: forced switches (R75, R76), draws (R78 to R80), inflows and
settling (R64, R65), setup and reports of ponds (R62, R63, R66), the day's closing (R83), and its answer
to a change of mode (R77). -/

namespace Sys2Proof.Machine

/-- A source that was not usable has become usable: the dispatcher makes a grant pass (R68, R124). -/
def reportUsable (before after : State) : State :=
  if sources.any fun x => !usable before x && usable after x then markPass after else after

/-- One event of the WIU: what f does, then the conditions that follow the water (R81, R162), then the
report of a source become usable (R68). -/
def waterEvent (f : State → State) (s : State) : State :=
  reportUsable s (syncAlerts [.noWater, .waterShort] (f s))

/-! ## Forced switches -/

/-- The active source is given up, with the capacity loss of R75; a further switch in CHANGEOVER hands
none (R76). -/
def giveUpSource (s : State) : State :=
  if s.wiu.pump.phase = .changeover then s.setPump ⟨.off, none, none⟩
  else capacityLoss (s.setPump ⟨.off, none, none⟩)

/-- The selection of a forced switch (R75): the changeover to another source, or OFF. In STANDBY no
selection is made. -/
def selectAnew (s : State) : State :=
  if s.mau.mode = .standby then s
  else
    match selection s with
    | some src => s.setPump ⟨.changeover, some src, some (Config.seconds s.site.changeover)⟩
    | none => s

/-- A forced switch (R75), or a further one in CHANGEOVER (R76). -/
def forcedSwitch (s : State) : State :=
  post .source (syncAlert .noWater (selectAnew (giveUpSource s)))

/-- The active source has ceased to be fit: a forced switch follows at once (R68, R75). -/
def testFitness (before after : State) : State :=
  match after.wiu.pump.source with
  | some src =>
    if after.wiu.pump.phase ≠ .off ∧ fit before src = true ∧ fit after src = false then
      forcedSwitch after
    else after
  | none => after

/-! ## Draws -/

def updatePondDay (p : Fin 4) (f : PondDay → PondDay) (s : State) : State :=
  s.setToday { s.wiu.today with ponds := s.wiu.today.ponds.modify p f }

/-- Steps 1 and 2 of a draw of q dL from the active source (R78), held at 0 with the shortfall a
correction (R80). -/
def debit (q : Nat) (src : Source) (s : State) : State :=
  match src with
  | .pond p =>
    let d := s.pond p
    updatePondDay p
      (fun r => { r with
        drawn := Config.count48 (r.drawn + q)
        corrections := if d.volume < q then Config.signed48 (r.corrections + ((q - d.volume : Nat) : Int))
          else r.corrections })
      (s.setPond p { d with volume := d.volume - q })
  | .fresh => s.setToday { s.wiu.today with fresh := Config.count48 (s.wiu.today.fresh + q) }

/-- A draw's other side: delivered to piles (R78) or lost through stuck valves (R79). -/
def countDrawn (lost : Bool) (q : Nat) (s : State) : State :=
  if lost then s.setToday { s.wiu.today with lost := Config.count48 (s.wiu.today.lost + q) }
  else s.setToday { s.wiu.today with delivered := Config.count48 (s.wiu.today.delivered + q) }

/-- A draw of q dL, taken whole, with the tests that follow it (R78 to R80). Nothing is drawn where no
source is active, which R78 says does not arise. -/
def draw (lost : Bool) (q : Nat) (s : State) : State :=
  match s.wiu.pump.source with
  | some src => waterEvent (fun t => testFitness t (countDrawn lost q (debit q src t))) s
  | none => s

/-! ## Inflows and settling -/

inductive InflowKind where
  | rain | runoff
deriving DecidableEq, Repr

/-- Steps 3 and 4 of an inflow on a pond's settle state (R64, R65). A pond with Tset 0 makes no test. -/
def Pond.stir (d : Pond) (kind : InflowKind) (v : Nat) : Pond :=
  if d.config.settleTime = 0 then d
  else
    let runoff := match kind with
      | .rain => d.runoff
      | .runoff => min (d.runoff + v) 4294967295
    let stirred := !d.settled || kind = .rain || decide (d.config.stirVolume ≤ runoff)
    if stirred then
      { d with
        runoff := runoff
        settled := false
        settleCountdown := some (Config.seconds d.config.settleTime) }
    else { d with runoff := runoff }

/-- Step 1 of an inflow on the volume (R64). -/
def Pond.fill (d : Pond) (v : Nat) : Pond := { d with volume := min (d.volume + v) d.config.capacity }

/-- An inflow of v dL, one event of the WIU; discarded where the pond is not configured (R64). -/
def inflow (kind : InflowKind) (p : Fin 4) (v : Nat) (s : State) : State :=
  let d := s.pond p
  if d.configured then
    waterEvent (fun t =>
      updatePondDay p
        (fun r => { r with
          spill := Config.count48 (r.spill + (d.volume + v - d.config.capacity))
          rain := if kind = .rain then Config.count48 (r.rain + v) else r.rain
          runoff := if kind = .runoff then Config.count48 (r.runoff + v) else r.runoff })
        (t.setPond p ((d.fill v).stir kind v))) s
  else s

/-- A settle countdown expires (R65). -/
def settle (p : Fin 4) (s : State) : State :=
  waterEvent (fun t =>
    t.setPond p { t.pond p with settled := true, settleCountdown := none, runoff := 0 }) s

/-! ## Setting a pond's volume -/

/-- The volume is restated and the signed difference becomes a correction (R62, R63, R66). -/
def restateVolume (p : Fin 4) (v : Nat) (s : State) : State :=
  let d := s.pond p
  updatePondDay p
    (fun r => { r with corrections := Config.signed48 (r.corrections + ((v : Int) - (d.volume : Int))) })
    (s.setPond p { d with volume := v })

/-- An accepted CONFIGURE of a pond (R62). -/
def configurePond (p : Fin 4) (k : PondConfig) (s : State) : State :=
  waterEvent (fun t =>
    let d := t.pond p
    let u := restateVolume p k.initial
      (t.setPond p { d with volume := if d.configured then d.volume else 0 })
    u.setPond p { u.pond p with
      configured := true
      config := k
      settled := true
      settleCountdown := none
      runoff := 0
      clear := if d.configured then d.clear else true
      inService := if d.configured then d.inService else true }) s

/-- An accepted RELEASE of a pond (R63). -/
def releasePond (p : Fin 4) (s : State) : State :=
  if (s.pond p).configured then
    waterEvent (fun t =>
      let u := restateVolume p 0 t
      u.setPond p { u.pond p with
        configured := false
        settled := true
        settleCountdown := none
        runoff := 0
        clear := true
        inService := true }) s
  else s

/-- The level of a POND_REPORT, if it carries one, held at the capacity (R66). -/
def reportLevel (p : Fin 4) (level : Option Nat) (s : State) : State :=
  match level with
  | some v => restateVolume p (min v (s.pond p).config.capacity) s
  | none => s

/-- The quality and the service of a POND_REPORT, where it carries them (R66). -/
def reportQuality (p : Fin 4) (clear inService : Option Bool) (s : State) : State :=
  s.setPond p { s.pond p with
    clear := clear.getD (s.pond p).clear
    inService := inService.getD (s.pond p).inService }

/-- An accepted POND_REPORT: level, quality, service in this order, then the one judgement (R66). -/
def reportPond (p : Fin 4) (level : Option Nat) (clear inService : Option Bool) (s : State) : State :=
  waterEvent (fun t => testFitness t (reportQuality p clear inService (reportLevel p level t))) s

/-! ## The pump set's own events -/

/-- The pump set enters RUNNING from PRIMING or CHANGEOVER: a capacity increase is handed, which brings a
grant pass (R70, R72, R76). -/
def capacityIncrease (s : State) : State := markPass (pumpTo .running s.wiu.pump.source none s)

/-- The pump set goes to OFF with the capacity loss handed (R70, R74, R77). -/
def pumpStop (s : State) : State := capacityLoss (pumpOff s)

/-- The WIU's answer to a change of mode (R77). -/
def pumpOnMode (m : Mode) (s : State) : State :=
  match m, s.wiu.pump.phase with
  | .lockdown, .off => s
  | .lockdown, _ => pumpStop s
  | .standby, .priming => pumpStop s
  | .standby, .changeover => pumpStop s
  | _, _ => s

/-- The WIU's part of a day rollover (R83): the current record becomes the previous one, and a new one is
opened for the day. -/
def closeDay (day : Nat) (s : State) : State :=
  waterEvent (fun t => (t.setPrevious t.wiu.today).setToday (.empty (some day))) s

end Sys2Proof.Machine
end

