-- ==== Sys2Proof/Machine/Cannons.lean ====
section
/-! DEFINITION. The Cannon Controller's events: valve feedback and travel supervision (R94 to R98),
locking (R101, R102), drift (R103, R104), machines and exclusion (R106, R107), setup (R88), and its
answer to a change of mode (R110). -/

namespace Sys2Proof.Machine

/-- A busy cannon leaves its reservation for FAULTED or LOCKED: its run ends, the header idle report is
made if this was the last busy reservation, and a grant pass follows (R89, R116, R122, R127). -/
def releaseEnded (c : Fin 32) (s : State) : State := markPass (headerIdle (endRun c s))

/-- The cannon becomes STUCK and its lost-water countdown starts at 1 s (R96, R97). -/
def becomeStuck (c : Fin 32) (s : State) : State :=
  enterPhase c .stuck none (some Config.ticksPerSecond) s

/-- A cannon that held no reservation becomes STUCK and takes one: unbidden flow. A suspended run that
held it ends first, and the overload test follows (R97, R121, R127). -/
def unbiddenFlow (c : Fin 32) (s : State) : State := overloadTest (endRun c (becomeStuck c s))

/-! ## Feedback -/

/-- A configured cannon's filtered feedback has changed to open (R94, R96, R97, R101). -/
def feedbackOpened (c : Fin 32) (s : State) : State :=
  match (s.cannon c).phase with
  | .opening =>
    startDelivery c
      (enterPhase c (if queuedMovement s c = some .closes then .closePending else .spraying) none none s)
  | .pendingOpen => endRun c (becomeStuck c (removeEntry c s))
  | .idle => unbiddenFlow c s
  | .faulted => unbiddenFlow c s
  | .locked => if (s.cannon c).travel = none then unbiddenFlow c s else s
  | _ => s

/-- A configured cannon's filtered feedback has changed to not-open (R95, R96, R98, R101). -/
def feedbackClosed (c : Fin 32) (s : State) : State :=
  match (s.cannon c).phase with
  | .spraying => releaseEnded c (enterPhase c .faulted none none (removeEntry c (stopDelivery c s)))
  | .closePending => releaseEnded c (enterPhase c .faulted none none (removeEntry c (stopDelivery c s)))
  | .closing => returnToIdle c s
  | .stuck => markPass (enterPhase c .faulted none none s)
  | .locked => enterPhase c .locked none none s
  | _ => s

/-- The filter has taken a level of the feedback input; a change of the filtered level of a configured
cannon is an event of the CC (R94). The level not-open, shown already to a cannon in CLOSING, confirms its
close (R96) and leaves the line's filter as it is. DESIGN CHOICE, log 28. -/
def feedbackStep (c : Fin 32) (isOpen : Bool) (s : State) : State :=
  let t := setFeedback c isOpen s
  if closeUnconfirmed s c && !isOpen then returnToIdle c s
  else if feedbackOpen s c = isOpen ∨ (s.cannon c).configured = false then t
  else if isOpen then feedbackOpened c t
  else feedbackClosed c t

/-- A travel countdown expires (R94, R96, R101). Where none runs there is no such event (log 8). -/
def travelStep (c : Fin 32) (s : State) : State :=
  if (s.cannon c).travel = none then s
  else
    match (s.cannon c).phase, feedbackOpen s c with
    | .opening, false => releaseEnded c (enterPhase c .faulted none none (removeEntry c s))
    | .closing, true => endRun c (becomeStuck c s)
    | .locked, true => unbiddenFlow c s
    | .closing, false => returnToIdle c s
    | phase, _ => enterPhase c phase none (s.cannon c).lostWater s

/-- A lost-water countdown expires and restarts; it is a lost-water second while the pump set is RUNNING
or RUNDOWN (R79, R98). -/
def lostWaterStep (c : Fin 32) (s : State) : State :=
  if (s.cannon c).lostWater = none then s
  else
    let t := s.setCannon c { s.cannon c with lostWater := some Config.ticksPerSecond }
    if s.wiu.pump.phase = .running ∨ s.wiu.pump.phase = .rundown then
      draw true (s.cannon c).config.flow t
    else t

/-! ## Locking -/

/-- An accepted LOCK (R101). -/
def lockCannon (c : Fin 32) (s : State) : State :=
  let supervised (t : Option Nat) : Option Nat := if feedbackOpen s c then t else none
  let moving := supervised (some (Config.seconds s.site.travel))
  match (s.cannon c).phase with
  | .idle => endRun c (enterPhase c .locked none none s)
  | .faulted => enterPhase c .locked none none s
  | .pendingOpen => releaseEnded c (enterPhase c .locked none none (removeEntry c s))
  | .opening => releaseEnded c (enterPhase c .locked moving none (removeEntry c (stopDelivery c s)))
  | .spraying => releaseEnded c (enterPhase c .locked moving none (removeEntry c (stopDelivery c s)))
  | .closePending => releaseEnded c (enterPhase c .locked moving none (removeEntry c (stopDelivery c s)))
  | .closing => releaseEnded c (enterPhase c .locked (supervised (s.cannon c).travel) none s)
  | .stuck => s
  | .locked => s

/-- An accepted UNLOCK of a LOCKED or FAULTED cannon (R102). -/
def unlockCannon (c : Fin 32) (s : State) : State :=
  if feedbackOpen s c then unbiddenFlow c s else markPass (enterPhase c .idle none none s)

/-! ## Drift -/

/-- The drift evaluation of one cannon at a publication (R103), with the block's movement and disposition
(R104, R127) or the clear's grant pass. -/
def driftAt (c : Fin 32) (s : State) : State :=
  let r := s.cannon c
  let blocked := driftTest s c r.driftBlocked
  if r.configured = false ∨ blocked = r.driftBlocked then s
  else
    let t := s.setCannon c { r with driftBlocked := blocked }
    if blocked then queuedClose c (setDisposition c (.suspend .drift) t) else markPass t

/-- The CC takes a publication of the wind state (R13, R103). -/
def driftEvaluation (s : State) : State := forCannons driftAt s

/-! ## Machines and exclusion -/

/-- The exclusion of one cannon evaluated anew (R106), with the close and disposition of R107 and R127. -/
def excludeAt (c : Fin 32) (s : State) : State :=
  let r := s.cannon c
  let x := shouldExclude s c
  if r.configured = false ∨ x = r.excluded then s
  else
    let t := s.setCannon c { r with excluded := x }
    if x then
      immediateClose c
        (setDisposition c (if r.phase = .closePending then .ends else .suspend .excluded) t)
    else markPass t

/-- An evaluation of exclusion (R106). -/
def evaluateExclusion (s : State) : State := forCannons excludeAt s

/-- An accepted MACHINE_POS (R105). -/
def reportMachine (m : Fin 4) (rail : Fin 2) (chainage : Nat) (s : State) : State :=
  evaluateExclusion (syncAlert (.machineStale m) (s.setMachine m
    ⟨true, rail, chainage, some (Config.seconds s.site.machineStale), false⟩))

/-- A machine's stale countdown expires (R105). -/
def machineStaleStep (m : Fin 4) (s : State) : State :=
  if (s.machine m).countdown = none then s
  else
    evaluateExclusion (syncAlert (.machineStale m)
      (s.setMachine m { s.machine m with countdown := none, stale := true }))

/-! ## Setup -/

/-- Steps 1 and 2 of a CONFIGURE (R88): the configuration, and the state kept or IDLE. -/
def writeCannonConfig (c : Fin 32) (k : CannonConfig) (s : State) : State :=
  let r := s.cannon c
  s.setCannon c { r with
    configured := true, config := k, phase := if r.configured then r.phase else .idle }

/-- Steps 3 and 4 of a CONFIGURE (R88), which set flags only. -/
def judgeCannon (c : Fin 32) (s : State) : State :=
  s.setCannon c { s.cannon c with driftBlocked := driftTest s c false, excluded := shouldExclude s c }

/-- An IDLE cannon whose feedback shows open at its CONFIGURE becomes STUCK at once (R88). -/
def discoverOpen (c : Fin 32) (s : State) : State :=
  if (s.cannon c).phase = .idle ∧ feedbackOpen s c = true then unbiddenFlow c s else s

/-- An accepted CONFIGURE of a cannon (R88). -/
def configureCannon (c : Fin 32) (k : CannonConfig) (s : State) : State :=
  discoverOpen c (judgeCannon c (writeCannonConfig c k s))

/-- An accepted RELEASE of a cannon (R88). -/
def releaseCannon (c : Fin 32) (s : State) : State :=
  let r := s.cannon c
  if r.configured then
    syncAlert (.valve c) (s.setCannon c { r with
      configured := false, phase := .idle, travel := none, lostWater := none,
      driftBlocked := false, excluded := false })
  else s

/-! ## Modes -/

/-- A cannon's open entry is removed at the entry to STANDBY (R110). -/
def withdrawPending (c : Fin 32) (s : State) : State :=
  if (s.cannon c).phase = .pendingOpen then withdrawOpen c s else s

/-- The immediate close of every cannon, which empties the queue and stops the slot countdown (R110, R112). -/
def closeAll (s : State) : State := ((forCannons closeToStop s).setQueue []).setSlot none

/-- The CC's answer to a change of mode (R110). -/
def cannonsOnMode (m : Mode) (s : State) : State :=
  match m with
  | .lockdown => closeAll s
  | .standby => forCannons withdrawPending s
  | .auto => s
  | .manual => s

end Sys2Proof.Machine
end

