-- ==== Sys2Proof/Machine/Modes.lean ====
section
/-! DEFINITION. The Mode and Alert Unit's changes of mode (R154), the Spray Dispatcher's answer to them
(R135), the layout check (R156) and the STOP line (R157). -/

namespace Sys2Proof.Machine

/-- The SD's ends of runs at a change of mode, after the CC's action (R135). -/
def dispatcherOnMode (before after : Mode) (s : State) : State :=
  match after with
  | .standby => decideEnds (fun _ => true) s
  | .lockdown => decideEnds (fun _ => true) s
  | .manual => markPass (if before = .auto then decideEnds (fun r => r.origin = .auto) s else s)
  | .auto => markPass s

/-- The orders at a change of mode, after the runs: each OPEN one closes CANCELLED at the entry to STANDBY,
and at every other change it stays OPEN (R135, R154). -/
def ordersOnMode (m : Mode) (s : State) : State :=
  match m with
  | .standby => closeOrders (fun _ => true) .cancelled s
  | .lockdown => s
  | .auto => s
  | .manual => s

/-- The event f with the order list put aside, so that no run that ends in it completes its order. Of the
entry to LOCKDOWN R154 says that every order is still OPEN, and of that to STANDBY that every OPEN order is
CANCELLED, where R131 tests an order at each run end. DESIGN CHOICE, log 25. -/
def sparingOrders (f : State → State) (s : State) : State := (f (s.setOrders [])).setOrders s.sd.orders

/-- A change of mode (R154): the mode and the cause are written and MODE posted, then the CC, the SD and
the WIU answer, then NO_WATER is recomputed. -/
def enterMode (m : Mode) (cause : Cause) (s : State) : State :=
  syncAlert .noWater
    (pumpOnMode m
      (ordersOnMode m
        (sparingOrders (fun t => dispatcherOnMode s.mau.mode m (cannonsOnMode m t))
          (post .mode (s.setMode m (some cause))))))

/-- An item of the layout check that fails (R156). -/
inductive LayoutFailure where
  | piles
  | cannons
  | cannonTarget (cannon : Fin 32)
  | drain (pile : Fin 24)
  | source
deriving DecidableEq, Repr

/-- The cannon is configured and aimed at a configured pile. -/
def wellAimed (s : State) (c : Fin 32) : Bool :=
  (s.cannon c).configured && (s.pile (s.cannon c).config.pile).configured

/-- The pile's drain is NONE or a configured pond. -/
def wellDrained (s : State) (p : Fin 24) : Bool :=
  match (s.pile p).config.drain with
  | none => true
  | some d => (s.pond d).configured

/-- The layout check: the first item that fails, with the lowest-numbered object that fails it (R156). -/
def layoutCheck (s : State) : Option LayoutFailure :=
  if (List.finRange 24).all fun p => !(s.pile p).configured then some .piles
  else if (List.finRange 32).all fun c => !wellAimed s c then some .cannons
  else
    match (List.finRange 32).find? fun c => (s.cannon c).configured && !wellAimed s c with
    | some c => some (.cannonTarget c)
    | none =>
      match (List.finRange 24).find? fun p => (s.pile p).configured && !wellDrained s p with
      | some p => some (.drain p)
      | none =>
        if ((List.finRange 4).any fun p => (s.pond p).configured) ||
            (0 < s.site.freshRate && 0 < s.site.freshAllocation) then none
        else some .source

/-- The filtered STOP level changes (R157). -/
def stopStep (asserted : Bool) (s : State) : State :=
  let t := setStop asserted s
  if stopAsserted s ≠ asserted ∧ asserted = true ∧ s.mau.mode ≠ .lockdown then
    enterMode .lockdown .stopLine t
  else t

end Sys2Proof.Machine
end

