-- ==== Sys2Proof/Machine/Assess.lean ====
section
/-! DEFINITION. The Pile Assessment Unit: the nine stages of an assessment (R43 to R54), the results
(R55), the completion handed to the Spray Dispatcher (R56, R123), and the rain a tip brings (R17). -/

namespace Sys2Proof.Machine

/-- What the assessment reads once at its start (R42). -/
structure Inputs where
  wind : WindState
  current : Option Slot
  look : Option (List Slot × Bool)
  site : Site

def readInputs (s : State) : Inputs := ⟨s.wfe.published, currentSlot s, lookAhead s, s.site⟩

/-- Stage 1 (R43), and a slot's effective wind (R49). -/
def effectiveWind (mean gust : Nat) : Nat := (3 * mean + gust + 2) / 4

/-- Stage 2 (R44), and a slot's exposed speed (R49). -/
def exposedSpeed (effective exposure : Nat) : Nat := (effective * exposure + 8) / 16

/-- The exposure for a direction (R44). -/
def PileConfig.exposureTo (k : PileConfig) : Direction → Nat
  | .sector n => k.exposure.get n
  | .calm => 16
  | .unknown => k.exposure.rows.foldl max 0

/-- Stages 1 and 2: the exposed speed Ue. -/
def exposedNow (w : WindState) (k : PileConfig) : Nat :=
  exposedSpeed (effectiveWind w.mean w.gust) (k.exposureTo w.direction)

/-- Stage 3: the loss of the minute (R45). -/
def dryingLoss (i : Inputs) (ue : Nat) : Nat :=
  let c := match i.current with
    | some f => f.dryingClass
    | none => 1
  i.site.baseDrying * (2 + 2 * c) / 4 + ue * i.site.windDrying / 64

/-- Stage 4, step 1: the spray credit in micrometres (R46). -/
def sprayCredit (d : Pile) : Nat := d.pendingSpray * d.config.retention / d.config.area

/-- Stage 4, step 2: the runoff in dL (R46). -/
def runoffOf (d : Pile) : Nat := d.pendingSpray * (100 - d.config.retention) / 100

/-- Stages 3 and 4: the new W (R45, R46). -/
def newMoisture (i : Inputs) (d : Pile) : Nat :=
  min (d.moisture - dryingLoss i (exposedNow i.wind d.config) + sprayCredit d + d.pendingRain) 20000

/-- Stage 5: the threshold T (R47). -/
def threshold (k : PileConfig) (w : Nat) : Nat := k.t0 + k.s * w / 1000

/-- Stage 5: the band B_eff (R47). -/
def bandOf (v : Site) (escalated : Bool) : Nat :=
  if escalated then v.band + v.escalationBand else v.band

/-- Stage 5: the class (R48). -/
def classify (margin : Int) (band severe : Nat) : RiskClass :=
  if margin ≤ -(band : Int) then .quiet
  else if margin ≤ 0 then .watch
  else if margin ≤ severe then .lift
  else .severe

/-- A slot's exposed speed (R49). -/
def slotExposed (k : PileConfig) (f : Slot) : Nat :=
  exposedSpeed (effectiveWind f.mean f.gust)
    (match f.sector with
     | some n => k.exposure.get n
     | none => 16)

/-- Stage 6: the forecast peak (R49). -/
def forecastPeak (i : Inputs) (k : PileConfig) : Nat :=
  let ue := exposedNow i.wind k
  match i.look with
  | none => ue
  | some (list, _) => (list.map (slotExposed k)).foldl max ue

/-- Stage 7: the required moisture before it is held at Wcap (R50). -/
def requiredFor (k : PileConfig) (peak band : Nat) : Nat :=
  ceilDiv ((peak + band - k.t0) * 1000) k.s

/-- Stage 8: the demand for a deficit (R51). -/
def demandFor (k : PileConfig) (deficit : Nat) : Nat := ceilDiv (deficit * k.area) k.retention

/-- Stage 9: the tier (R52). -/
def tierFor (escalated : Bool) (demand : Nat) (risk : RiskClass) : Fin 4 :=
  if escalated && decide (0 < demand) then 0
  else
    match risk with
    | .lift | .severe => 1
    | .watch => 2
    | .quiet => 3

/-- R54: some configured cannon aimed at the pile is eligible or holds an ACTIVE run. -/
def covered (s : State) (p : Fin 24) : Bool :=
  (List.finRange 32).any fun c =>
    (s.cannon c).configured && (s.cannon c).config.pile = p &&
      (eligible s c ||
        match s.run c with
        | some r => !r.isSuspended
        | none => false)

/-- Stages 5 to 9 for a pile whose W stage 4 has written (R47 to R55). -/
def assessResults (i : Inputs) (s : State) (p : Fin 24) : Results :=
  let d := s.pile p
  let k := d.config
  let ue := exposedNow i.wind k
  let t := threshold k d.moisture
  let margin : Int := (ue : Int) - (t : Int)
  let band := bandOf i.site d.escalated
  let risk := classify margin band i.site.severeMargin
  let peak := forecastPeak i k
  let wanted := requiredFor k peak band
  let required := min wanted k.wcap
  let deficit := required - d.moisture
  let demand := demandFor k deficit
  let tier := tierFor d.escalated demand risk
  { exposed := ue, threshold := t, margin := margin, risk := risk, peak := peak,
    required := required, deficit := deficit, demand := demand, tier := tier,
    qualifiers := {
      windForecast := i.wind.source = .forecast
      windDesign := i.wind.source = .design
      noForecast := match i.look with
        | none => true
        | some (list, _) => list.isEmpty && decide (0 < i.site.horizon)
      forecastGap := match i.look with
        | none => false
        | some (_, gap) => gap
      speedSaturated := i.wind.saturated
      reqClamped := decide (k.wcap < wanted)
      escalated := d.escalated
      uncovered := decide (0 < demand) && decide (tier ≤ 1) && !covered s p }
    time := now s }

/-- Stage 4's posting of the runoff at the drain pond (R46). -/
def postRunoff (drain : Option (Fin 4)) (v : Nat) (s : State) : State :=
  match drain with
  | some q => if 0 < v then inflow .runoff q v s else s
  | none => s

/-- The assessment of one pile (R42); an unconfigured pile is not touched. RISK is posted where the class
has changed or the previous results are absent (R48). -/
def assessPile (i : Inputs) (p : Fin 24) (s : State) : State :=
  let d := s.pile p
  if d.configured then
    let t := postRunoff d.config.drain (runoffOf d) (s.setPile p { d with
      moisture := newMoisture i d, pendingSpray := 0, pendingRain := 0 })
    let r := assessResults i t p
    let u := t.setPile p { t.pile p with results := some r }
    if d.results.map Results.risk = some r.risk then u else post (.risk p) u
  else s

def forPiles (f : Fin 24 → State → State) (s : State) : State :=
  (List.finRange 24).foldl (fun t p => f p t) s

/-- What the completion hands for a pile: its demand and tier, or no demand (R56). -/
def handed (s : State) (p : Fin 24) : Option (Nat × Fin 4) :=
  if (s.pile p).configured then (s.pile p).results.map fun r => (r.demand, r.tier) else none

/-- Step 1 of a completion: the handed tier is recorded; a pile handed no demand keeps its tier (R123). -/
def recordTier (p : Fin 24) (s : State) : State :=
  match handed s p with
  | some h => s.setDemand p { s.demand p with tier := h.2 }
  | none => s

/-- The demand handed for a pile, 0 for a pile handed none (R123). -/
def handedDemand (s : State) (p : Fin 24) : Nat :=
  match handed s p with
  | some h => h.1
  | none => 0

/-- Step 2 of a completion (R123). -/
def endSatisfied (p : Fin 24) (s : State) : State :=
  if handedDemand s p = 0 then decideEnds (fun r => r.origin = .auto && r.pile = p) s else s

/-- Step 3 of a completion (R123). -/
def setOpenDemand (p : Fin 24) (s : State) : State :=
  s.setDemand p { s.demand p with
    volume := handedDemand s p - outstandingOf s fun r => r.origin = .auto && r.pile = p }

/-- The assessment completion, with the pass it brings (R56, R123). -/
def completion (s : State) : State :=
  markPass (forPiles setOpenDemand (forPiles endSatisfied (forPiles recordTier s)))

/-- The assessment countdown expires and restarts (R42). The piles are assessed, and their runoff posted, in
ascending order of pile, which is the model's. DESIGN CHOICE, log 23. The pass that a source become usable by
a runoff is owed is that of the completion. DESIGN CHOICE, log 27. -/
def assessmentStep (s : State) : State :=
  completion (forPiles (assessPile (readInputs s))
    (s.setPau { s.pau with countdown := Config.assessmentTicks }))

/-! ## Rain -/

/-- A tip's rain on one pile (R17, R41). -/
def wetPile (depth : Nat) (p : Fin 24) (s : State) : State :=
  let d := s.pile p
  if d.configured then s.setPile p { d with pendingRain := d.pendingRain + depth } else s

/-- A tip's inflow to one pond (R17). -/
def rainOnPond (depth : Nat) (p : Fin 4) (s : State) : State :=
  let k := (s.pond p).config
  if 0 < k.catchment then inflow .rain p (depth * k.catchment / 100) s else s

/-- An accepted tip shares its rain out (R17). Each pond's inflow is an event of its own; that they come in
ascending order of pond is the model's. DESIGN CHOICE, log 23. The pass that a source become usable is owed
waits for the last of them. DESIGN CHOICE, log 27. -/
def shareRain (depth : Nat) (s : State) : State :=
  (List.finRange 4).foldl (fun t p => rainOnPond depth p t) (forPiles (wetPile depth) s)

/-- A falling edge of the filtered RAIN line (R16): accepted while the gauge is fitted and no bounce
interval runs. -/
def rainEdge (s : State) : State :=
  let t := setRainLow s
  if s.site.gaugeFitted && s.wfe.bounce.isNone then
    shareRain s.site.tipDepth (t.setWfe { t.wfe with bounce := some Config.bounceTicks })
  else t

end Sys2Proof.Machine
end

