-- ==== Sys2Proof/Machine/Operands.lean ====
section
/-! DEFINITION. The operand forms: how the numbers of a request body are read into the values of the
machine, or found outside their ranges (R7, R27, R29, R37, R61, R66, R87, R137, R155, R158, R161, R178),
and the vane's Gray code (R3). -/

namespace Sys2Proof.Machine

/-- An index below n. -/
def index? (n i : Nat) : Option (Fin n) := if h : i < n then some ⟨i, h⟩ else none

/-- R178: a flag is 0 or 1. -/
def flag? : Nat → Option Bool
  | 0 => some false
  | 1 => some true
  | _ => none

/-- R178: an index, or 0xFF for NONE. -/
def indexOrNone? (n i : Nat) : Option (Option (Fin n)) :=
  if i = 0xFF then some none else (index? n i).map some

/-- R178: the setup action codes. -/
inductive SetupAction where
  | configure | release
deriving DecidableEq, Repr

def setupAction? : Nat → Option SetupAction
  | 0 => some .configure
  | 1 => some .release
  | _ => none

/-- R178: the mode codes. -/
def mode? : Nat → Option Mode
  | 0 => some .standby
  | 1 => some .auto
  | 2 => some .manual
  | 3 => some .lockdown
  | _ => none

/-- R37. -/
def pileConfig? (f : PileFields) : Option PileConfig :=
  match indexOrNone? 4 f.drain with
  | none => none
  | some drain =>
    if h : f.exposure.length = 16 then
      if f.t0 ≤ 300 ∧ (1 ≤ f.s ∧ f.s ≤ 100) ∧ (100 ≤ f.area ∧ f.area ≤ 60000) ∧
          (10 ≤ f.retention ∧ f.retention ≤ 100) ∧ f.wcap ≤ 20000 ∧
          (∀ x ∈ f.exposure, x ≤ 24) ∧ f.w0 ≤ 20000 then
        some ⟨f.t0, f.s, f.area, f.retention, f.wcap, drain, ⟨f.exposure, h⟩, f.w0⟩
      else none
    else none

/-- R87. -/
def cannonConfig? (f : CannonFields) : Option CannonConfig :=
  match index? 24 f.pile, indexOrNone? 2 f.rail with
  | some pile, some rail =>
    if (10 ≤ f.flow ∧ f.flow ≤ 1000) ∧ f.zoneStart ≤ f.zoneEnd ∧ f.zoneEnd ≤ 4000 ∧
        f.driftLimit ≤ 600 ∧ f.mask < 65536 then
      some ⟨pile, f.flow, rail, f.zoneStart, f.zoneEnd, f.driftLimit, BitVec.ofNat 16 f.mask⟩
    else none
  | _, _ => none

/-- R61, but for the priority, which is judged against the other ponds. -/
def pondConfig? (f : PondFields) : Option PondConfig :=
  if (1 ≤ f.capacity ∧ f.capacity ≤ 500000000) ∧ f.floor < f.capacity ∧
      (100 ≤ f.flow ∧ f.flow ≤ 5000) ∧ f.catchment ≤ 500000 ∧ f.settleTime ≤ 86400 ∧
      (1 ≤ f.stirVolume ∧ f.stirVolume ≤ 10000000) ∧ f.priority ≤ 3 ∧
      f.initial ≤ f.capacity then
    some ⟨f.capacity, f.floor, f.flow, f.catchment, f.settleTime, f.stirVolume, f.priority, f.initial⟩
  else none

/-- R137. -/
def monitorFieldsOk (f : MonitorFields) : Bool :=
  decide (1 ≤ f.limit ∧ f.limit ≤ 5000) && decide (1 ≤ f.holdOff ∧ f.holdOff ≤ 8) &&
    decide (60 ≤ f.interval ∧ f.interval ≤ 3600)

/-- R29, class invalid excepted: the slot a FORECAST lists, with its issue number. -/
def slot? (issue : Nat) (f : SlotFields) : Option Slot :=
  if f.start % 3600 = 0 ∧ f.mean ≤ 600 ∧ f.mean ≤ f.gust ∧ f.gust ≤ 600 ∧ f.sector ≤ 16 ∧
      f.dryingClass ≤ 3 then
    some ⟨f.start, f.mean, f.gust, index? 16 f.sector, f.dryingClass, issue⟩
  else none

/-- The ranges of file 00's table of site parameters, the short threshold not above the lean one. -/
def site? (f : SiteFields) : Option Site :=
  match flag? f.mast1Fitted, flag? f.gaugeFitted with
  | some mast1, some gauge =>
    if ((1 ≤ f.kcal0 ∧ f.kcal0 ≤ 1000) ∧ f.ocal0 ≤ 20 ∧ (1 ≤ f.kcal1 ∧ f.kcal1 ≤ 1000) ∧
         f.ocal1 ≤ 20 ∧ f.designWind ≤ 600 ∧ (50 ≤ f.tipDepth ∧ f.tipDepth ≤ 1000) ∧
         f.dayOffset ≤ 86399 ∧ (3600 ≤ f.staleTime ∧ f.staleTime ≤ 86400) ∧ f.horizon ≤ 12) ∧
       (f.baseDrying ≤ 50 ∧ f.windDrying ≤ 16 ∧ (5 ≤ f.band ∧ f.band ≤ 100) ∧
         f.escalationBand ≤ 100 ∧ (5 ≤ f.severeMargin ∧ f.severeMargin ≤ 100) ∧
         (2 ≤ f.stagger ∧ f.stagger ≤ 30) ∧ (2 ≤ f.travel ∧ f.travel ≤ 30) ∧ f.machines ≤ 4 ∧
         (10 ≤ f.machineStale ∧ f.machineStale ≤ 600) ∧ f.guardZone ≤ 200) ∧
       (f.resumeWindow ≤ 3600 ∧ (30 ≤ f.maxRun ∧ f.maxRun ≤ 1800) ∧
         (100 ≤ f.minRun ∧ f.minRun ≤ 50000) ∧ f.freshRate ≤ 5000 ∧
         f.freshAllocation ≤ 1000000000 ∧ (10 ≤ f.priming ∧ f.priming ≤ 300) ∧ f.rundown ≤ 1800 ∧
         (5 ≤ f.changeover ∧ f.changeover ≤ 120) ∧ f.lean ≤ 1000000000 ∧
         f.short ≤ 1000000000 ∧ f.short ≤ f.lean) then
      some {
        mast1Fitted := mast1, kcal0 := f.kcal0, ocal0 := f.ocal0, kcal1 := f.kcal1,
        ocal1 := f.ocal1, designWind := f.designWind, gaugeFitted := gauge,
        tipDepth := f.tipDepth, dayOffset := f.dayOffset, staleTime := f.staleTime,
        horizon := f.horizon, baseDrying := f.baseDrying, windDrying := f.windDrying,
        band := f.band, escalationBand := f.escalationBand, severeMargin := f.severeMargin,
        stagger := f.stagger, travel := f.travel, machines := f.machines,
        machineStale := f.machineStale, guardZone := f.guardZone, resumeWindow := f.resumeWindow,
        maxRun := f.maxRun, minRun := f.minRun, freshRate := f.freshRate,
        freshAllocation := f.freshAllocation, priming := f.priming, rundown := f.rundown,
        changeover := f.changeover, lean := f.lean, short := f.short }
    else none
  | _, _ => none

/-- R161, R160: the entry an alert kind code and an object name; the object is 0 for kinds with one
entry. -/
def alertId? (kind object : Nat) : Option AlertId :=
  match kind with
  | 1 => (index? 2 object).map .mastSuspect
  | 2 => if object = 0 then some .windDegraded else none
  | 3 => if object = 0 then some .forecastStale else none
  | 4 => if object = 0 then some .timeInvalid else none
  | 5 => if object = 0 then some .noWater else none
  | 6 => if object = 0 then some .waterShort else none
  | 7 => (index? 32 object).map .valve
  | 8 => (index? 8 object).map .monitorStale
  | 9 => (index? 4 object).map .machineStale
  | _ => none

/-- R3: the sector named by the vane lines A B C D, A the most significant bit. -/
def vaneSector (lines : BitVec 4) : Fin 16 :=
  match lines.toNat with
  | 0b0000 => 0
  | 0b0001 => 1
  | 0b0011 => 2
  | 0b0010 => 3
  | 0b0110 => 4
  | 0b0111 => 5
  | 0b0101 => 6
  | 0b0100 => 7
  | 0b1100 => 8
  | 0b1101 => 9
  | 0b1111 => 10
  | 0b1110 => 11
  | 0b1010 => 12
  | 0b1011 => 13
  | 0b1001 => 14
  | _ => 15

end Sys2Proof.Machine
end

