-- ==== Sys2Proof/Machine/Clock.lean ====
section
/-! DEFINITION. The Yard Clock and the Forecast Table: the second event (R20), the change of day (R23,
R24), SET_TIME (R22), the purge (R32), the judging and storing of forecast slots (R29 to R31), and the
staleness evaluation (R33). -/

namespace Sys2Proof.Machine

/-- The day number of the current yard time (R21). -/
def currentDay (s : State) : Nat := dayNumber s.yc.time s.site.dayOffset

def zeroDelivered (p : Fin 24) (s : State) : State :=
  s.setPile p { s.pile p with deliveredToday := 0 }

/-- The day rollover test would cause a rollover (R23). -/
def rolloverDue (s : State) : Bool :=
  match s.yc.recordedDay with
  | none => false
  | some d => decide (d < currentDay s)

/-- A rollover event, taken by the WIU, the PAU and the LC (R24). -/
def rollover (s : State) : State :=
  let day := currentDay s
  post .day (forPiles zeroDelivered (closeDay day (s.setYc { s.yc with recordedDay := some day })))

/-- The day rollover test (R23). The first recorded day opens the current day-totals record (R82). -/
def rolloverTest (s : State) : State :=
  match s.yc.recordedDay with
  | none =>
    let day := currentDay s
    (s.setYc { s.yc with recordedDay := some day }).setToday { s.wiu.today with day := some day }
  | some d => if d < currentDay s then rollover s else s

/-- The purge (R32): every slot whose end is at or before the present yard time is removed. -/
def purge (s : State) : State :=
  s.setFt { s.ft with slots := s.ft.slots.filter fun f => decide (s.yc.time < f.start + 3600) }

/-- The table of R20: the yard time and the time-valid flag after a second event that found the clock
valid. -/
def nextTime (t : Nat) : Nat × Bool :=
  if t < 0xFFFFFFFD then (t + 1, true) else (0xFFFFFFFE, false)

/-- The one-second countdown expires and restarts (R20). An hour boundary carries out the purge. -/
def secondStep (s : State) : State :=
  let r := s.setYc { s.yc with second := Config.ticksPerSecond }
  if s.yc.valid then
    let n := nextTime s.yc.time
    let t := rolloverTest (syncAlert .timeInvalid (r.setYc { r.yc with time := n.1, valid := n.2 }))
    syncAlert .forecastStale (if t.yc.time % 3600 = 0 then purge t else t)
  else syncAlert .forecastStale r

/-- An accepted SET_TIME (R22): time and validity, rollover test, purge, staleness, in this order. -/
def setTimeStep (time : Nat) (s : State) : State :=
  syncAlert .forecastStale
    (purge
      (rolloverTest
        (syncAlert .timeInvalid (s.setYc { s.yc with time := time, valid := true }))))

/-! ## Forecast slots -/

/-- The outcome classes of R29. -/
inductive SlotOutcome where
  | invalid | past | older | stored | noRoom
deriving DecidableEq, Repr

/-- The judgement of a listed slot (R29); none stands for fields that are invalid. -/
def judgeSlot (time room : Nat) (table : List Slot) : Option Slot → SlotOutcome
  | none => .invalid
  | some f =>
    if f.start + 3600 ≤ time then .past
    else
      match table.find? fun g => g.start = f.start with
      | some g => if f.issue < g.issue then .older else .stored
      | none =>
        if table.length < room then .stored
        else if table.any fun g => decide (f.start < g.start) then .stored
        else .noRoom

/-- Insertion in place by start (R30). -/
def insertSlot (f : Slot) : List Slot → List Slot
  | [] => [f]
  | g :: rest => if g.start < f.start then g :: insertSlot f rest else f :: g :: rest

/-- The table after a slot counted stored enters it: replacement, insertion or displacement (R30). -/
def storeSlot (room : Nat) (table : List Slot) (f : Slot) : List Slot :=
  if table.any fun g => g.start = f.start then
    table.map fun g => if g.start = f.start then f else g
  else if table.length < room then insertSlot f table
  else insertSlot f table.dropLast

/-- Storing the slot displaces another (R30). -/
def displaces (room : Nat) (table : List Slot) (f : Slot) : Bool :=
  !(table.any fun g => g.start = f.start) && decide (room ≤ table.length)

/-- A FORECAST under way: the table as the slots taken have left it, and the counts of R31. -/
structure Tally where
  table : List Slot
  stored : Nat
  older : Nat
  past : Nat
  invalid : Nat
  noRoom : Nat
  displaced : Nat
deriving DecidableEq, Repr

/-- One listed slot is taken (R28, R29, R30). -/
def takeSlot (time room : Nat) (t : Tally) (slot : Option Slot) : Tally :=
  match judgeSlot time room t.table slot, slot with
  | .stored, some f =>
    { t with
      table := storeSlot room t.table f
      stored := t.stored + 1
      displaced := if displaces room t.table f then t.displaced + 1 else t.displaced }
  | .older, _ => { t with older := t.older + 1 }
  | .past, _ => { t with past := t.past + 1 }
  | .noRoom, _ => { t with noRoom := t.noRoom + 1 }
  | _, _ => { t with invalid := t.invalid + 1 }

/-- The slots of a FORECAST taken one after another, in the order listed (R28). -/
def tallyForecast (s : State) (issue : Nat) (slots : List SlotFields) : Tally :=
  slots.foldl (fun t f => takeSlot s.yc.time s.mau.split.forecast t (slot? issue f))
    ⟨s.ft.slots, 0, 0, 0, 0, 0, 0⟩

/-- The newest issue time after a FORECAST that stored a slot (R31). -/
def laterIssue (before : Option Nat) (time : Nat) : Nat :=
  match before with
  | none => time
  | some t => max t time

/-- A FORECAST that is taken (R28, R31). -/
def forecastStep (issue issueTime : Nat) (slots : List SlotFields) (s : State) : State :=
  let t := tallyForecast s issue slots
  syncAlert .forecastStale (s.setFt {
    slots := t.table
    newestIssue := if 0 < t.stored then some (laterIssue s.ft.newestIssue issueTime)
      else s.ft.newestIssue })

end Sys2Proof.Machine
end

