-- ==== Sys2Proof/Machine/Boundary.lean ====
section
/-! DEFINITION. The Boundary Watch Unit: readings (R140), the opening, update, hold-off and closure of
episodes (R141 to R146), escalation (R148), monitors (R137 to R139), and the attribution map (R150). -/

namespace Sys2Proof.Machine

/-- The escalated flag of one pile follows the OPEN episodes (R148). -/
def escalate (p : Fin 24) (s : State) : State :=
  s.setPile p { s.pile p with escalated := (escalatedSet s).getLsbD p }

/-- The escalated flags are recomputed for all 24 piles (R148). -/
def recomputeEscalation (s : State) : State := forPiles escalate s

/-- The attribution of a reading at a monitor (R144). -/
def attribution (s : State) (m : Fin 8) : PileSet :=
  match s.wfe.published.direction with
  | .sector n => (s.bwu.map.get m).get n
  | .calm => 0
  | .unknown => 0

/-- The closure number of the episode in slot k where it is CLOSED and passes the test. -/
def closedNumber (s : State) (test : Episode → Bool) (k : Nat) : Option Nat :=
  match s.episode k with
  | some e =>
    match e.closure with
    | some x => if test e then some x.number else none
    | none => none
  | none => none

/-- Of two slots, the one whose episode closed earlier (R142). -/
def earlierClosed (s : State) (test : Episode → Bool) (best : Option Nat) (k : Nat) : Option Nat :=
  match closedNumber s test k with
  | none => best
  | some n =>
    match best with
    | none => some k
    | some b =>
      match closedNumber s test b with
      | none => some k
      | some m => if n < m then some k else some b

/-- The CLOSED episode that closed earliest of those that pass the test (R142). -/
def earliestClosed (s : State) (test : Episode → Bool) : Option Nat :=
  (List.range s.bwu.episodes.length).foldl (earlierClosed s test) none

/-- The slot for a new episode (R142). -/
def episodeSlot (s : State) : Option Nat :=
  match s.bwu.episodes.findIdx? Option.isNone with
  | some k => some k
  | none =>
    match earliestClosed s Episode.reported with
    | some k => some k
    | none => earliestClosed s fun _ => true

/-- The id after an opening: 1..65535 (R142). -/
def nextEpisodeId (n : Nat) : Nat := if n = 65535 then 1 else n + 1

/-- An episode opens in a slot (R141). -/
def openEpisode (m : Fin 8) (value : Nat) (k : Nat) (s : State) : State :=
  let e : Episode := {
    id := s.bwu.nextId, monitor := m, firstTime := now s, latestTime := now s, peak := value,
    exceedCount := 1, sectorAtOpen := s.wfe.published.direction, piles := attribution s m,
    closure := none, reported := false }
  let t := s.setEpisode k (some e)
  let u := { t with bwu := { t.bwu with nextId := nextEpisodeId s.bwu.nextId } }
  recomputeEscalation (post (.episode k)
    (u.setMonitor m { u.monitor m with openEpisode := some k, belowRun := 0 }))

/-- A reading above the limit updates the open episode (R143). -/
def updateEpisode (m : Fin 8) (value : Nat) (k : Nat) (e : Episode) (s : State) : State :=
  let t := s.setEpisode k (some { e with
    latestTime := now s, peak := max e.peak value, exceedCount := min (e.exceedCount + 1) 65535,
    piles := e.piles ||| attribution s m })
  recomputeEscalation (post (.episode k) (t.setMonitor m { t.monitor m with belowRun := 0 }))

/-- The closure of the OPEN episode in slot k (R146). -/
def closeEpisode (k : Nat) (reason : CloseReason) (s : State) : State :=
  match s.episode k with
  | none => s
  | some e =>
    let n := Config.count32 (s.bwu.closures + 1)
    let t := s.setEpisode k (some { e with closure := some ⟨reason, now s, n⟩ })
    let u := { t with bwu := { t.bwu with closures := n } }
    recomputeEscalation (post (.episode k)
      (u.setMonitor e.monitor { u.monitor e.monitor with openEpisode := none, belowRun := 0 }))

/-- The monitor's open episode, if it has one, closes with reason STALE (R138, R139). -/
def closeStale (m : Fin 8) (s : State) : State :=
  match (s.monitor m).openEpisode with
  | some k => closeEpisode k .stale s
  | none => s

/-- A reading at or below the limit holds the open episode off, and closes it once the count has come to
Nc (R145). -/
def holdOff (m : Fin 8) (k : Nat) (s : State) : State :=
  let d := s.monitor m
  let n := min (d.belowRun + 1) 255
  let t := s.setMonitor m { d with belowRun := n }
  if d.holdOff ≤ n then closeEpisode k .clear t else t

/-- Steps 1 and 2 of a reading (R140), with the MONITOR_STALE condition (R139). -/
def recordReading (m : Fin 8) (value : Nat) (s : State) : State :=
  let d := s.monitor m
  syncAlert (.monitorStale m) (s.setMonitor m { d with
    lastValue := some value, lastTime := now s, stale := false,
    countdown := some (Config.seconds (2 * d.interval)) })

/-- The outcomes a READING reports (R140). -/
inductive ReadingOutcome where
  | none | opened | updated | heldOff | closed
deriving DecidableEq, Repr

/-- The open episode of a monitor with its slot (R138). -/
def openEpisodeOf (s : State) (m : Fin 8) : Option (Nat × Episode) :=
  match (s.monitor m).openEpisode with
  | some k => (s.episode k).map fun e => (k, e)
  | none => none

/-- An accepted READING (R140). -/
def readingStep (m : Fin 8) (value : Nat) (s : State) : State :=
  let t := recordReading m value s
  let above := (t.monitor m).limit < value
  match openEpisodeOf t m with
  | none =>
    if above then
      match episodeSlot t with
      | some k => openEpisode m value k t
      | none => t
    else t
  | some (k, e) => if above then updateEpisode m value k e t else holdOff m k t

/-- The outcome of that READING, from the state before it (R140). -/
def readingOutcome (m : Fin 8) (value : Nat) (s : State) : ReadingOutcome :=
  let d := s.monitor m
  match openEpisodeOf s m with
  | none => if d.limit < value then .opened else .none
  | some _ =>
    if d.limit < value then .updated
    else if d.holdOff ≤ min (d.belowRun + 1) 255 then .closed
    else .heldOff

/-! ## Monitors -/

/-- An accepted CONFIGURE of a monitor (R137). -/
def configureMonitor (m : Fin 8) (f : MonitorFields) (s : State) : State :=
  let d := s.monitor m
  let kept : Monitor := if d.configured then d else .reset
  syncAlert (.monitorStale m) (s.setMonitor m { kept with
    configured := true, limit := f.limit, holdOff := f.holdOff, interval := f.interval,
    stale := false, countdown := some (Config.seconds (2 * f.interval)) })

/-- An accepted RELEASE of a monitor (R138). -/
def releaseMonitor (m : Fin 8) (s : State) : State :=
  if (s.monitor m).configured then
    let t := closeStale m s
    syncAlert (.monitorStale m) (t.setMonitor m { t.monitor m with
      configured := false, countdown := none, stale := false, lastValue := none, lastTime := none,
      belowRun := 0 })
  else s

/-- A monitor's stale countdown expires (R139). -/
def monitorStaleStep (m : Fin 8) (s : State) : State :=
  if (s.monitor m).countdown = none then s
  else
    let t := closeStale m (syncAlert (.monitorStale m)
      (s.setMonitor m { s.monitor m with stale := true, countdown := none }))
    t.setMonitor m { t.monitor m with belowRun := 0 }

/-! ## The attribution map -/

/-- The set of the listed piles. -/
def pileSetOf (ps : List (Fin 24)) : PileSet := ps.foldl (fun acc p => acc ||| (1#24 <<< p.val)) 0

/-- An accepted ATTRIB (R150): an empty list empties the set, another is added to it. -/
def attribStep (m : Fin 8) (n : Fin 16) (ps : List (Fin 24)) (s : State) : State :=
  let row := s.bwu.map.get m
  let set := if ps.isEmpty then 0 else row.get n ||| pileSetOf ps
  { s with bwu := { s.bwu with map := s.bwu.map.set m (row.set n set) } }

end Sys2Proof.Machine
end

