-- ==== Sys2Proof/Machine/Wind.lean ====
section
/-! DEFINITION. The Wind Front-End: pulses (R1), samples (R3, R4), suspicion (R6), selection (R8), the
wind window and its sums (R9, R10), the prevailing sector (R11), the publication (R12), and MAST_SERVICE
(R7). -/

namespace Sys2Proof.Machine

/-- A falling edge of a mast's filtered pulse line (R1). -/
def pulseStep (m : Fin 2) (s : State) : State :=
  let t := setPulseLow m s
  if fitted s m then t.setMast m { t.mast m with pulses := min ((t.mast m).pulses + 1) 4095 } else t

def Site.kcal (v : Site) (m : Fin 2) : Nat := if m = 0 then v.kcal0 else v.kcal1
def Site.ocal (v : Site) (m : Fin 2) : Nat := if m = 0 then v.ocal0 else v.ocal1

/-- The speed of a gate with p pulses before it is held at 600 (R4). -/
def rawSpeed (p kcal ocal : Nat) : Nat := if p = 0 then 0 else (p * kcal + 15) / 30 + ocal

/-- The sample of a gate (R3, R4). -/
def formSample (p kcal ocal : Nat) (vane : BitVec 4) : Sample :=
  let v := rawSpeed p kcal ocal
  ⟨min v 600, vaneSector vane, decide (600 < v)⟩

/-- Stages 1 and 2 for one mast (R2, R4, R6). -/
def measureMast (vane : BitVec 4) (m : Fin 2) (s : State) : State :=
  let t := setVane m vane s
  if fitted s m then
    let d := t.mast m
    t.setMast m { d with
      pulses := 0
      sample := some (formSample d.pulses (s.site.kcal m) (s.site.ocal m) vane)
      zeroRun := if d.pulses = 0 then min (d.zeroRun + 1) 100 else 0
      suspect := if d.pulses = 0 then d.suspect else false }
  else t

/-- The other mast. -/
def otherMast (m : Fin 2) : Fin 2 := if m = 0 then 1 else 0

/-- The test of stage 3 (R6), with the flags as stage 2 left them. -/
def becomesSuspect (s : State) (m : Fin 2) : Bool :=
  let o := otherMast m
  fitted s m && (s.mast m).zeroRun = 100 && fitted s o && !(s.mast o).suspect &&
    match (s.mast o).sample with
    | some x => decide (20 ≤ x.speed)
    | none => false

/-- Stage 3 (R6), and the MAST_SUSPECT conditions (R14). -/
def testSuspicion (s : State) : State :=
  let mark (m : Fin 2) (t : State) : State :=
    if becomesSuspect s m then t.setMast m { t.mast m with suspect := true } else t
  syncAlerts [.mastSuspect 0, .mastSuspect 1] (mark 1 (mark 0 s))

/-- Stage 4 (R8). -/
def selectMast (s : State) : Option (Fin 2) :=
  if mastUsable s 0 then some 0 else if mastUsable s 1 then some 1 else none

def addSpeed (sums : Table 16 Nat) (x : Sample) : Table 16 Nat := sums.modify x.sector (· + x.speed)

def dropSpeed (sums : Table 16 Nat) (x : Sample) : Table 16 Nat := sums.modify x.sector (· - x.speed)

/-- A sample enters the wind window; a full window gives up its oldest entry (R9, R10). -/
def Wfe.enter (w : Wfe) (x : Sample) : Wfe :=
  match w.ring with
  | old :: rest =>
    if w.ring.length < 200 then { w with ring := w.ring ++ [x], sums := addSpeed w.sums x }
    else { w with ring := rest ++ [x], sums := addSpeed (dropSpeed w.sums old) x }
  | [] => { w with ring := [x], sums := addSpeed w.sums x }

/-- Stages 4 and 5 (R8, R9). -/
def enterWindow (s : State) : State :=
  let sel := selectMast s
  let t := s.setWfe { s.wfe with selected := sel }
  match sel with
  | none => t
  | some m =>
    match (s.mast m).sample with
    | some x => t.setWfe (t.wfe.enter x)
    | none => t

/-- The mean of the ring (R10). -/
def Wfe.mean (w : Wfe) : Nat := (w.sums.rows.sum + w.ring.length / 2) / w.ring.length

/-- The gust of the ring (R10). -/
def Wfe.gust (w : Wfe) : Nat := (w.ring.map Sample.speed).foldl max 0

/-- The sectors that share the largest sum (R11). -/
def Wfe.leading (w : Wfe) : List (Fin 16) :=
  (List.finRange 16).filter fun n => w.sums.get n = w.sums.rows.foldl max 0

/-- The prevailing sector of the ring (R11). -/
def Wfe.prevailing (w : Wfe) : Direction :=
  if w.mean < 5 then .calm
  else
    match w.ring.getLast?, w.leading with
    | some x, lead :: rest => if x.sector ∈ lead :: rest then .sector x.sector else .sector lead
    | _, _ => .calm

/-- The wind state that stage 6 publishes (R12). -/
def windToPublish (s : State) : WindState :=
  let w := s.wfe
  let mark := w.ring.any Sample.saturated
  if w.selected.isSome ∧ 20 ≤ w.ring.length then ⟨w.mean, w.gust, w.prevailing, .live, mark⟩
  else
    match currentSlot s with
    | some f =>
      ⟨f.mean, f.gust, match f.sector with
        | some n => .sector n
        | none => .calm, .forecast, mark⟩
    | none => ⟨s.site.designWind, s.site.designWind, .unknown, .design, mark⟩

/-- Stage 6 (R12), and the WIND_DEGRADED condition (R14). -/
def publish (s : State) : State :=
  syncAlert .windDegraded (s.setWfe { s.wfe with published := windToPublish s })

/-- The six stages of a gate expiry (R2). -/
def gateStages (vane0 vane1 : BitVec 4) (s : State) : State :=
  publish (enterWindow (testSuspicion (measureMast vane1 1 (measureMast vane0 0
    (s.setWfe { s.wfe with gate := Config.gateTicks })))))

/-- A gate expiry, whose publication the CC takes (R2, R13). -/
def gateStep (vane0 vane1 : BitVec 4) (s : State) : State :=
  driftEvaluation (gateStages vane0 vane1 s)

/-- An accepted MAST_SERVICE (R7). -/
def serviceMast (m : Fin 2) (out : Bool) (s : State) : State :=
  syncAlert (.mastSuspect m) (s.setMast m { s.mast m with declaredOut := out })

end Sys2Proof.Machine
end

