-- ==== Sys2Proof/Machine/Orders.lean ====
section
/-! DEFINITION. What runs and orders do over time and at the host's word: delivery seconds (R40, R117,
R118), the expiries of runs and orders (R115, R131), and the acceptance and cancelling of orders (R129,
R130, R132). -/

namespace Sys2Proof.Machine

/-! ## Delivery seconds -/

/-- A delivery second's credit to the run's pile, if it is configured (R40). -/
def creditPile (p : Fin 24) (q : Nat) (s : State) : State :=
  let d := s.pile p
  if d.configured then
    s.setPile p { d with
      pendingSpray := d.pendingSpray + q
      deliveredToday := min (d.deliveredToday + q) 4294967295 }
  else s

/-- A delivery second's credit to the order, while it is OPEN (R117). -/
def creditOrder (origin : Origin) (q : Nat) (s : State) : State :=
  match origin with
  | .order k =>
    match s.order k with
    | some o =>
      if o.closure.isNone then s.setOrder k (some { o with delivered := o.delivered + q }) else s
    | none => s
  | .auto => s
  | .detached => s

/-- The target test (R118). -/
def targetTest (c : Fin 32) (s : State) : State :=
  match s.run c with
  | none => s
  | some r =>
    match r.phase with
    | .active .ends _ => s
    | .active _ _ => if r.target ≤ r.delivered then queuedClose c (setDisposition c .ends s) else s
    | .suspended _ _ _ => s

/-- This second of q dL has brought the OPEN WET order in slot k to its volume (R118). -/
def reachesVolume (s : State) (k q : Nat) : Bool :=
  match s.order k with
  | some o =>
    o.kind = .wet && o.closure.isNone && decide (o.volume ≤ o.delivered) &&
      decide (o.delivered < o.volume + q)
  | none => false

/-- The order-volume test: an end is decided for each other run of the order (R118). -/
def endOthers (k : Nat) (c : Fin 32) (s : State) : State :=
  forCannons (fun x t =>
    match t.run x with
    | some r => if x ≠ c ∧ r.origin = .order k then decideEnd x t else t
    | none => t) s

/-- The additions of a delivery second (R117), which find the delivery countdown restarted. -/
def deliver (c : Fin 32) (r : Run) (s : State) : State :=
  let q := (s.cannon c).config.flow
  draw false q (creditOrder r.origin q (creditPile r.pile q
    (s.setRun c (some { r with
      delivered := r.delivered + q
      phase := r.phase.withDelivery (some Config.ticksPerSecond) }))))

/-- A run's delivery countdown expires and restarts: one delivery second (R117), then the two tests
(R118). -/
def deliveryStep (c : Fin 32) (s : State) : State :=
  match s.run c with
  | none => s
  | some r =>
    match r.phase with
    | .active _ (some _) =>
      let t := deliver c r s
      let u := targetTest c t
      match r.origin with
      | .order k => if reachesVolume t k (s.cannon c).config.flow then endOthers k c u else u
      | .auto => u
      | .detached => u
    | .active _ none => s
    | .suspended _ _ _ => s

/-! ## Expiries -/

/-- A suspended run's resume countdown expires (R115, R116). -/
def resumeStep (c : Fin 32) (s : State) : State :=
  match s.run c with
  | some r => if r.isSuspended then endRun c s else s
  | none => s

/-- The countdown of the order in slot k expires, where an OPEN order of the kind runs one: the order
closes with the outcome (R131). -/
def orderStep (kind : OrderKind) (outcome : OrderOutcome) (k : Nat) (s : State) : State :=
  match s.order k with
  | some o =>
    if o.kind = kind ∧ o.closure.isNone ∧ o.countdown.isSome then closeOrder k outcome s else s
  | none => s

/-! ## Acceptance and cancelling -/

/-- A countdown of n seconds, or none for 0 (R129). -/
def expiryOf (n : Nat) : Option Nat := if n = 0 then none else some (Config.seconds n)

/-- An accepted order enters its slot with the acceptance counter's new value (R128). -/
def acceptOrder (k : Nat) (o : Order) (s : State) : State :=
  let n := Config.count48 (s.sd.acceptances + 1)
  (s.setAcceptances n).setOrder k (some { o with acceptance := n, acceptedTime := now s })

/-- An accepted ORDER_WET (R129). -/
def wetStep (k tag : Nat) (p : Fin 24) (volume expiry : Nat) (s : State) : State :=
  markPass (acceptOrder k {
    tag := tag, kind := .wet, pile := p, volume := volume, duration := 0, delivered := 0,
    countdown := expiryOf expiry, acceptance := 0, acceptedTime := none, closure := none } s)

/-- Step 2 of an accepted ORDER_HOLD (R130). -/
def setHold (p : Fin 24) (s : State) : State := s.setPile p { s.pile p with hold := true }

/-- An accepted ORDER_HOLD (R130). -/
def holdStep (k tag : Nat) (p : Fin 24) (duration : Nat) (s : State) : State :=
  closeOrders (fun o => o.kind = .wet && o.pile = p) .superseded
    (decideEnds (fun r => r.origin = .auto && r.pile = p)
      (setHold p
        (acceptOrder k {
          tag := tag, kind := .hold, pile := p, volume := 0, duration := duration, delivered := 0,
          countdown := some (Config.seconds duration), acceptance := 0, acceptedTime := none,
          closure := none } s)))

/-- The slot of the OPEN order that carries the tag (R132). -/
def openOrderOfTag (s : State) (tag : Nat) : Option Nat :=
  s.sd.orders.findIdx? fun o =>
    match o with
    | some r => r.tag = tag && r.closure.isNone
    | none => false

end Sys2Proof.Machine
end

