-- ==== Sys2Proof/Machine/Setup.lean ====
section
/-! DEFINITION. What an accepted SITE_SETUP, POOL_SPLIT and PILE_SETUP do, and the two restarts: the
power-on reset (R163) and the warm restart (R164). -/

namespace Sys2Proof.Machine

/-! ## SITE_SETUP -/

/-- R5: mast 1 marked not fitted clears its sample, count and flags, and mast 0's suspect flag; marked
fitted, it starts afresh and counts only the pulses after the request. -/
def refitMast (before after : Bool) (s : State) : State :=
  let t :=
    match before, after with
    | true, false =>
      (s.setMast 1 { s.mast 1 with sample := none, zeroRun := 0, suspect := false, declaredOut := false }).setMast
        0 { s.mast 0 with suspect := false }
    | false, true => s.setMast 1 .reset
    | true, true => s
    | false, false => s
  syncAlerts [.mastSuspect 0, .mastSuspect 1] t

/-- R16: a gauge marked not fitted ends any bounce interval. -/
def refitGauge (fitted : Bool) (s : State) : State :=
  if fitted then s else s.setWfe { s.wfe with bounce := none }

/-- R23: a changed day-start offset brings the day rollover test while the clock is valid. -/
def retestDay (before : Site) (s : State) : State :=
  if before.dayOffset ≠ s.site.dayOffset ∧ s.yc.valid = true then rolloverTest s else s

/-- R33: a changed Tfs brings the staleness evaluation. -/
def retestForecast (before : Site) (s : State) : State :=
  if before.staleTime ≠ s.site.staleTime then syncAlert .forecastStale s else s

/-- R67: the fresh main, U and the water state follow the new figures; the source is judged against the
state before the request. -/
def retestWater (before : State) (s : State) : State :=
  reportUsable before (syncAlerts [.noWater, .waterShort] (testFitness before s))

/-- R105: a machine no longer declared returns to never reported. -/
def undeclare (m : Fin 4) (s : State) : State :=
  if declared s m then s else s.setMachine m .reset

/-- R105: the declared count and the zone guard. -/
def redeclare (before : Site) (s : State) : State :=
  let t := (List.finRange 4).foldl (fun t m => undeclare m t) s
  let u := syncAlerts ((List.finRange 4).map .machineStale) t
  if before.machines ≠ s.site.machines ∨ before.guardZone ≠ s.site.guardZone then evaluateExclusion u
  else u

/-- An accepted SITE_SETUP: every parameter is written at once, then each block applies the new values
in the order of R158's list. -/
def siteStep (v : Site) (s : State) : State :=
  redeclare s.site
    (retestWater s
      (retestForecast s.site
        (retestDay s.site
          (refitGauge v.gaugeFitted
            (refitMast s.site.mast1Fitted v.mast1Fitted (s.setSite v))))))

/-! ## POOL_SPLIT -/

/-- No episode slot is in use and no monitor has an open episode (R152, R153). -/
def emptyEpisodes (slots : Nat) (s : State) : State :=
  { s with bwu := { s.bwu with
      episodes := List.replicate slots none
      monitors := s.bwu.monitors.map fun d => { d with openEpisode := none, belowRun := 0 } } }

/-- An accepted POOL_SPLIT (R159, R36, R153). -/
def splitStep (f e o : Nat) (s : State) : State :=
  let t := { s with mau := { s.mau with split := ⟨f, e, o⟩ } }
  let u := syncAlert .forecastStale (t.setFt ⟨[], none⟩)
  let v := recomputeEscalation (emptyEpisodes e u)
  { v with sd := { v.sd with orders := List.replicate o none } }

/-! ## PILE_SETUP -/

/-- An accepted CONFIGURE of a pile (R38). -/
def configurePile (p : Fin 24) (k : PileConfig) (s : State) : State :=
  s.setPile p { s.pile p with configured := true, config := k, moisture := k.w0, results := none }

/-- An accepted RELEASE of a pile (R39). -/
def releasePile (p : Fin 24) (s : State) : State :=
  if (s.pile p).configured then
    s.setPile p { s.pile p with
      configured := false, moisture := 0, pendingSpray := 0, pendingRain := 0, deliveredToday := 0,
      results := none }
  else s

/-! ## Restarts -/

/-- R166: the line rate of the straps. -/
def rateOf (rate1 rate0 : Bool) : LineRate :=
  match rate1, rate0 with
  | false, false => .r19200
  | false, true => .r38400
  | true, false => .r57600
  | true, true => .r115200

/-- The filter holds no level (R18); the pin is the outside's. -/
def LineFilter.forget (f : LineFilter) : LineFilter := .initial f.pin

/-- The pins after a power-on reset: the levels on the pins are the outside's, no filter has taken one,
and the straps are read. -/
def Pins.restart (p : Pins) (rate1 rate0 : Bool) : Pins where
  pulse := p.pulse.map LineFilter.forget
  vane := p.vane.map fun lines => lines.map LineFilter.forget
  rain := p.rain.forget
  feedback := p.feedback.map LineFilter.forget
  stop := p.stop.forget
  rate1 := rate1
  rate0 := rate0

/-- The power-on reset (R163): every block takes its initial state. What waits outside the part stays. -/
def powerOn (rate1 rate0 : Bool) (s : State) : State :=
  { State.reset with
    pins := s.pins.restart rate1 rate0
    lc := .reset (rateOf rate1 rate0)
    freeCount := s.freeCount
    pending := s.pending }

/-- R136: runs and orders are discarded, and every open demand and tier set back. -/
def discardWork (s : State) : State :=
  { s with sd := { s.sd with
      runs := .fill 32 none
      orders := List.replicate s.mau.split.orders none
      demands := .fill 24 ⟨0, 3⟩ } }

/-- R152: each configured monitor that is not stale restarts its stale countdown. -/
def Monitor.restart (d : Monitor) : Monitor :=
  if d.configured && !d.stale then { d with countdown := some (Config.seconds (2 * d.interval)) } else d

def restartMonitors (s : State) : State :=
  { s with bwu := { s.bwu with monitors := s.bwu.monitors.map Monitor.restart } }

/-- R60: the escalated and hold flags of every pile are cleared. -/
def clearFlags (s : State) : State :=
  s.setPau { s.pau with piles := s.pau.piles.map fun d => { d with escalated := false, hold := false } }

/-- R157, R164: with the STOP line asserted the part goes on to LOCKDOWN in the same event. -/
def obeyStop (s : State) : State := if stopAsserted s then enterMode .lockdown .stopLine s else s

/-- The warm restart, taken after its reply (R164). The runs are gone before the valves close, so the
closes are reported to no run (R112), and the notices that the closing posts go with the list. -/
def warmRestart (s : State) : State :=
  let valves := closeAll (discardWork s)
  let water := valves.setPump ⟨.off, none, none⟩
  let watch := restartMonitors (emptyEpisodes s.mau.split.episodes water)
  let blocks := (clearFlags watch).setNotices []
  let unit := relatchAll (post .mode (blocks.setMode .standby (some .restart)))
  (obeyStop unit).setPass false

end Sys2Proof.Machine
end

