-- ==== Sys2Proof/Machine/Blocks.lean ====
section
/-! DEFINITION. The bytes of the line: the encoding of fields and named values (R178), the check (R169),
the frame (R179) and the six shared blocks (R183). -/

namespace Sys2Proof.Machine

/-! ## Fields (R178) -/

/-- A signed field of k bytes, in two's complement. -/
def signedLe (k : Nat) (n : Int) : List Byte := le k (n % (256 : Int) ^ k).toNat

/-- k bytes of 0xFF. -/
def absent (k : Nat) : List Byte := List.replicate k 0xFF

/-- An optional field of k bytes, every byte 0xFF where it is absent. -/
def optional (k : Nat) : Option Nat → List Byte
  | some n => le k n
  | none => absent k

/-- A flag. -/
def flagByte (b : Bool) : List Byte := le 1 (if b then 1 else 0)

/-- The remaining seconds of a countdown, every byte 0xFF where it does not run (R183 to R186). -/
def remaining (k : Nat) (t : Option Nat) : List Byte := optional k (t.map secondsLeft)

/-! ## Named values (R178) -/

def Mode.code : Mode → Nat
  | .standby => 0
  | .auto => 1
  | .manual => 2
  | .lockdown => 3

def Cause.code : Cause → Nat
  | .request => 0
  | .stopLine => 1
  | .restart => 2

def Direction.code : Direction → Nat
  | .sector n => n
  | .calm => 16
  | .unknown => 17

def WindSource.code : WindSource → Nat
  | .live => 0
  | .forecast => 1
  | .design => 2

def RiskClass.code : RiskClass → Nat
  | .quiet => 0
  | .watch => 1
  | .lift => 2
  | .severe => 3

def CannonPhase.code : CannonPhase → Nat
  | .idle => 0
  | .pendingOpen => 1
  | .opening => 2
  | .spraying => 3
  | .closePending => 4
  | .closing => 5
  | .faulted => 6
  | .stuck => 7
  | .locked => 8

def movementCode : Option Movement → Nat
  | none => 0
  | some .opens => 1
  | some .closes => 2

def Origin.code : Origin → Nat
  | .order k => k
  | .detached => 0xFD
  | .auto => 0xFE

def SuspendCause.code : SuspendCause → Nat
  | .flow => 0
  | .drift => 1
  | .excluded => 2

def PumpPhase.code : PumpPhase → Nat
  | .off => 0
  | .priming => 1
  | .running => 2
  | .rundown => 3
  | .changeover => 4

def Source.code : Source → Nat
  | .pond p => p
  | .fresh => 4

def WaterState.code : WaterState → Nat
  | .ample => 0
  | .lean => 1
  | .short => 2

def OrderKind.code : OrderKind → Nat
  | .wet => 0
  | .hold => 1

def OrderOutcome.code : OrderOutcome → Nat
  | .done => 0
  | .expired => 1
  | .cancelled => 2
  | .superseded => 3

def CloseReason.code : CloseReason → Nat
  | .clear => 0
  | .stale => 1

def ReadingOutcome.code : ReadingOutcome → Nat
  | .none => 0
  | .opened => 1
  | .updated => 2
  | .heldOff => 3
  | .closed => 4

/-- R166, in bit/s. -/
def LineRate.bitsPerSecond : LineRate → Nat
  | .r19200 => 19200
  | .r38400 => 38400
  | .r57600 => 57600
  | .r115200 => 115200

/-- R160: the alert kind code of an entry. -/
def AlertId.kindCode : AlertId → Nat
  | .mastSuspect _ => 1
  | .windDegraded => 2
  | .forecastStale => 3
  | .timeInvalid => 4
  | .noWater => 5
  | .waterShort => 6
  | .valve _ => 7
  | .monitorStale _ => 8
  | .machineStale _ => 9

/-- R160: the object of an entry, 0 for a kind with one entry. -/
def AlertId.objectCode : AlertId → Nat
  | .mastSuspect m => m
  | .windDegraded => 0
  | .forecastStale => 0
  | .timeInvalid => 0
  | .noWater => 0
  | .waterShort => 0
  | .valve c => c
  | .monitorStale m => m
  | .machineStale m => m

/-- R183: the qualifier bits. -/
def Qualifiers.code (q : Qualifiers) : Nat :=
  let bit (b : Bool) (k : Nat) : Nat := if b then 2 ^ k else 0
  bit q.windForecast 0 + bit q.windDesign 1 + bit q.noForecast 2 + bit q.forecastGap 3 +
    bit q.speedSaturated 4 + bit q.reqClamped 5 + bit q.escalated 6 + bit q.uncovered 7

/-- R178: the bit set of the members that pass the test. -/
def bitSet {n : Nat} (test : Fin n → Bool) : Nat :=
  ((List.finRange n).map fun i => if test i then 2 ^ i.val else 0).sum

/-! ## The check and the frame -/

/-- One bit of the check: the register shifted, with the generator added where a one falls out (R169). -/
def crcShift (r : BitVec 16) : BitVec 16 := if r.msb then (r <<< 1) ^^^ 0x1021 else r <<< 1

/-- One byte of the check, most significant bit first (R169). -/
def crcByte (r : BitVec 16) (b : Byte) : BitVec 16 :=
  let x := r ^^^ (b.setWidth 16 <<< 8)
  crcShift (crcShift (crcShift (crcShift (crcShift (crcShift (crcShift (crcShift x)))))))

/-- The check of R169. -/
def crc (bytes : List Byte) : BitVec 16 := bytes.foldl crcByte 0xFFFF

/-- The check as it is sent, high byte first (R169). -/
def crcField (bytes : List Byte) : List Byte :=
  [(crc bytes).extractLsb' 8 8, (crc bytes).extractLsb' 0 8]

/-- R167. -/
def syncByte : Byte := 0xA5

/-- What the check covers: kind through length echo (R169, R179). -/
def checkedPart (kind tag : Nat) (body : List Byte) : List Byte :=
  le 1 kind ++ le 1 tag ++ le 2 body.length ++ body ++ le 2 (body.length + 5)

/-- A whole frame (R179). -/
def frame (kind tag : Nat) (body : List Byte) : List Byte :=
  syncByte :: (checkedPart kind tag body ++ crcField (checkedPart kind tag body))

/-! ## The shared blocks (R183) -/

def pileBlock (k : PileConfig) : List Byte :=
  le 2 k.t0 ++ le 1 k.s ++ le 2 k.area ++ le 1 k.retention ++ le 2 k.wcap ++
    optional 1 (k.drain.map Fin.val) ++ k.exposure.rows.flatMap (le 1) ++ le 2 k.w0

def cannonBlock (k : CannonConfig) : List Byte :=
  le 1 k.pile ++ le 2 k.flow ++ optional 1 (k.rail.map Fin.val) ++ le 2 k.zoneStart ++
    le 2 k.zoneEnd ++ le 2 k.driftLimit ++ le 2 k.mask.toNat

def pondBlock (k : PondConfig) : List Byte :=
  le 4 k.capacity ++ le 4 k.floor ++ le 2 k.flow ++ le 4 k.catchment ++ le 4 k.settleTime ++
    le 4 k.stirVolume ++ le 1 k.priority ++ le 4 k.initial

/-- Where the results are absent every byte is 0xFF. -/
def resultsBlock : Option Results → List Byte
  | none => absent 23
  | some r =>
    le 2 r.exposed ++ le 2 r.threshold ++ signedLe 2 r.margin ++ le 1 r.risk.code ++ le 2 r.peak ++
      le 2 r.required ++ le 2 r.deficit ++ le 4 r.demand ++ le 1 r.tier ++ le 1 r.qualifiers.code ++
      optional 4 r.time

/-- A free slot has state 2 and every other byte 0xFF. -/
def orderBlock : Option Order → List Byte
  | none => absent 28 ++ le 1 2 ++ absent 5
  | some o =>
    le 2 o.tag ++ le 1 o.kind.code ++ le 1 o.pile ++ le 4 o.volume ++ le 4 o.duration ++
      le 4 o.delivered ++ remaining 4 o.countdown ++ le 4 o.acceptance ++ optional 4 o.acceptedTime ++
      match o.closure with
      | none => le 1 0 ++ absent 1 ++ absent 4
      | some x => le 1 1 ++ le 1 x.outcome.code ++ optional 4 x.time

/-- A free slot has state 2 and every other byte 0xFF. -/
def episodeBlock : Option Episode → List Byte
  | none => le 1 2 ++ absent 29
  | some e =>
    le 1 (if e.closure.isSome then 1 else 0) ++ le 2 e.id ++ le 1 e.monitor ++
      optional 4 e.firstTime ++ optional 4 e.latestTime ++ optional 4 (e.closure.bind (·.time)) ++
      le 2 e.peak ++ le 2 e.exceedCount ++ le 1 e.sectorAtOpen.code ++ le 3 e.piles.toNat ++
      optional 1 (e.closure.map (·.reason.code)) ++ flagByte e.reported ++
      optional 4 (e.closure.map (·.number))

/-! ## Refusals (R171) -/

/-- The reason codes. NOT_CONFIGURED names the failing item of the layout check. -/
inductive Reason where
  | unknownKind | badLength | outOfRange | wrongMode | timeInvalid | noSuchObject | full
  | duplicateTag | held
  | notConfigured (failure : LayoutFailure)
  | lockdown | ordersPending | stopAsserted | wrongState
deriving DecidableEq, Repr

def Reason.code : Reason → Nat
  | .unknownKind => 1
  | .badLength => 2
  | .outOfRange => 3
  | .wrongMode => 4
  | .timeInvalid => 5
  | .noSuchObject => 6
  | .full => 7
  | .duplicateTag => 8
  | .held => 9
  | .notConfigured _ => 10
  | .lockdown => 11
  | .ordersPending => 12
  | .stopAsserted => 13
  | .wrongState => 14

/-- The item of R156 and the object it names. -/
def LayoutFailure.bytes : LayoutFailure → List Byte
  | .piles => le 1 1 ++ absent 1
  | .cannons => le 1 2 ++ absent 1
  | .cannonTarget c => le 1 3 ++ le 1 c
  | .drain p => le 1 4 ++ le 1 p
  | .source => le 1 5 ++ absent 1

/-- The body of a refusal (R171, R179). -/
def refusalBody (kind : Nat) (r : Reason) : List Byte :=
  le 1 kind ++ le 1 r.code ++
    match r with
    | .notConfigured f => f.bytes
    | _ => []

/-! ## The two forms of a reply (R171) -/

def acceptance (kind tag : Nat) (body : List Byte) : List Byte := frame (kind + 0x80) tag body

def refusal (kind tag : Nat) (r : Reason) : List Byte := frame 0x7F tag (refusalBody kind r)

end Sys2Proof.Machine
end

