-- ==== Sys2Proof/Machine/Answers.lean ====
section
/-! DEFINITION. What each request does and answers: its refusal cases in the order of its owning rule
(R171 step 3), its one event, and the body of its acceptance, composed from the state the event leaves
(R170, R184 to R186). -/

namespace Sys2Proof.Machine

/-- A request is accepted, leaving a state and a reply body, or refused, changing nothing (R171). -/
inductive Answer where
  | accepted (after : State) (body : List Byte)
  | refused (reason : Reason)

/-- The request's event is taken, and its reply composed from the state it leaves (R170). -/
def accept (event : State → State) (body : State → List Byte) (s : State) : Answer :=
  .accepted (inEvent event s) (body (inEvent event s))

/-- A request that changes no state. -/
def report (body : List Byte) (s : State) : Answer := .accepted s body

/-- 96 − F − E − O (R159). -/
def unallotted (s : State) : Nat :=
  96 - s.mau.split.forecast - s.mau.split.episodes - s.mau.split.orders

/-! ## Identity, site and pool -/

/-- R165, R185. -/
def identBody (s : State) : List Byte :=
  le 2 0x5D17 ++ le 2 0x0032 ++ le 1 1 ++ le 1 0 ++ le 4 s.lc.rate.bitsPerSecond ++
    le 1 s.mau.split.forecast ++ le 1 s.mau.split.episodes ++ le 1 s.mau.split.orders ++
    le 1 (unallotted s) ++ le 1 s.mau.mode.code ++ optional 1 (s.mau.cause.map Cause.code) ++
    flagByte (stopAsserted s) ++ [24, 32, 4, 8, 4, 2, 96, 51, 142]

def answerIdent (s : State) : Answer := report (identBody s) s

/-- R182. -/
def siteBody (v : Site) : List Byte :=
  flagByte v.mast1Fitted ++ le 2 v.kcal0 ++ le 1 v.ocal0 ++ le 2 v.kcal1 ++ le 1 v.ocal1 ++
    le 2 v.designWind ++ flagByte v.gaugeFitted ++ le 2 v.tipDepth ++ le 4 v.dayOffset ++
    le 4 v.staleTime ++ le 1 v.horizon ++ le 1 v.baseDrying ++ le 1 v.windDrying ++ le 1 v.band ++
    le 1 v.escalationBand ++ le 1 v.severeMargin ++ le 1 v.stagger ++ le 1 v.travel ++
    le 1 v.machines ++ le 2 v.machineStale ++ le 1 v.guardZone ++ le 2 v.resumeWindow ++
    le 2 v.maxRun ++ le 2 v.minRun ++ le 2 v.freshRate ++ le 4 v.freshAllocation ++ le 2 v.priming ++
    le 2 v.rundown ++ le 1 v.changeover ++ le 4 v.lean ++ le 4 v.short

/-- R67, R158: a changed Qf while the fresh main feeds the header. -/
def movesActiveMain (v : Site) (s : State) : Bool :=
  v.freshRate ≠ s.site.freshRate && s.wiu.pump.source = some .fresh && s.wiu.pump.phase ≠ .off

/-- R158, R67. An Fa below the present Fu is refused by R158's list also where it is sent unchanged, after a
draw that has taken Fu past it (R80), though R67 checks a change of the parameters and R158 gives an unchanged
one no effect. DESIGN CHOICE, log 30. -/
def answerSiteSetup (f : SiteFields) (s : State) : Answer :=
  if s.mau.mode ≠ .standby then .refused .wrongMode
  else
    match site? f with
    | none => .refused .outOfRange
    | some v =>
      if v.freshAllocation < freshUsed s then .refused .outOfRange
      else if movesActiveMain v s then .refused .wrongState
      else accept (siteStep v) (fun t => siteBody t.site) s

/-- R159. -/
def splitOk (f e o : Nat) : Bool :=
  decide (24 ≤ f ∧ f ≤ 72) && decide (9 ≤ e ∧ e ≤ 40) && decide (4 ≤ o ∧ o ≤ 24) &&
    decide (f + e + o ≤ 96)

def splitBody (s : State) : List Byte :=
  le 1 s.mau.split.forecast ++ le 1 s.mau.split.episodes ++ le 1 s.mau.split.orders ++
    le 1 (unallotted s)

/-- R159. -/
def answerPoolSplit (f e o : Nat) (s : State) : Answer :=
  if s.mau.mode ≠ .standby then .refused .wrongMode
  else if splitOk f e o = false then .refused .outOfRange
  else if s.sd.orders.any Option.isSome then .refused .ordersPending
  else accept (splitStep f e o) splitBody s

/-! ## Setup of objects -/

def pileSetupBody (p : Fin 24) (s : State) : List Byte :=
  le 1 p ++ flagByte (s.pile p).configured ++ pileBlock (s.pile p).config

/-- R37. -/
def answerPileSetup (pile action : Nat) (f : PileFields) (s : State) : Answer :=
  if s.mau.mode ≠ .standby then .refused .wrongMode
  else
    match index? 24 pile, setupAction? action with
    | some p, some .configure =>
      match pileConfig? f with
      | some k => accept (configurePile p k) (pileSetupBody p) s
      | none => .refused .outOfRange
    | some p, some .release => accept (releasePile p) (pileSetupBody p) s
    | _, _ => .refused .outOfRange

def cannonSetupBody (c : Fin 32) (s : State) : List Byte :=
  le 1 c ++ flagByte (s.cannon c).configured ++ cannonBlock (s.cannon c).config ++
    le 1 (s.cannon c).phase.code ++ flagByte (s.cannon c).driftBlocked ++
    flagByte (s.cannon c).excluded

/-- R87: the states in which a cannon is not to be set up. -/
def setupBlocked (s : State) (c : Fin 32) : Bool := (s.cannon c).phase.reserves

/-- R87. -/
def answerCannonSetup (cannon action : Nat) (f : CannonFields) (s : State) : Answer :=
  if s.mau.mode ≠ .standby then .refused .wrongMode
  else
    match index? 32 cannon, setupAction? action with
    | some c, some .configure =>
      match cannonConfig? f with
      | some k =>
        if setupBlocked s c then .refused .wrongState
        else accept (configureCannon c k) (cannonSetupBody c) s
      | none => .refused .outOfRange
    | some c, some .release =>
      if setupBlocked s c then .refused .wrongState else accept (releaseCannon c) (cannonSetupBody c) s
    | _, _ => .refused .outOfRange

/-- R61: another configured pond holds the priority. -/
def priorityTaken (s : State) (p : Fin 4) (priority : Nat) : Bool :=
  (List.finRange 4).any fun q =>
    q ≠ p && (s.pond q).configured && (s.pond q).config.priority = priority

/-- R61: the pond feeds the header. -/
def pondInUse (s : State) (p : Fin 4) : Bool :=
  s.wiu.pump.source = some (.pond p) && s.wiu.pump.phase ≠ .off

def pondSetupBody (p : Fin 4) (s : State) : List Byte :=
  le 1 p ++ flagByte (s.pond p).configured ++ pondBlock (s.pond p).config ++ le 4 (s.pond p).volume

/-- R61. -/
def answerPondSetup (pond action : Nat) (f : PondFields) (s : State) : Answer :=
  if s.mau.mode ≠ .standby then .refused .wrongMode
  else
    match index? 4 pond, setupAction? action with
    | some p, some .configure =>
      match pondConfig? f with
      | some k =>
        if priorityTaken s p k.priority then .refused .outOfRange
        else if pondInUse s p then .refused .wrongState
        else accept (configurePond p k) (pondSetupBody p) s
      | none => .refused .outOfRange
    | some p, some .release =>
      if pondInUse s p then .refused .wrongState else accept (releasePond p) (pondSetupBody p) s
    | _, _ => .refused .outOfRange

def monitorSetupBody (m : Fin 8) (s : State) : List Byte :=
  let d := s.monitor m
  le 1 m ++ flagByte d.configured ++ le 2 d.limit ++ le 1 d.holdOff ++ le 2 d.interval ++
    flagByte d.lastValue.isSome ++ optional 2 d.lastValue ++ optional 4 d.lastTime ++
    le 1 d.belowRun ++ optional 1 d.openEpisode ++ flagByte d.stale ++ remaining 2 d.countdown

/-- R137, R138. -/
def answerMonitorSetup (monitor action : Nat) (f : MonitorFields) (s : State) : Answer :=
  match index? 8 monitor, setupAction? action with
  | some m, some .configure =>
    if monitorFieldsOk f then accept (configureMonitor m f) (monitorSetupBody m) s
    else .refused .outOfRange
  | some m, some .release => accept (releaseMonitor m) (monitorSetupBody m) s
  | _, _ => .refused .outOfRange

def attribBody (m : Fin 8) (n : Fin 16) (s : State) : List Byte :=
  le 1 m ++ le 1 n ++ le 3 ((s.bwu.map.get m).get n).toNat

/-- The piles of a list, if every one of them is below 24 (R150). -/
def piles? (ps : List Nat) : Option (List (Fin 24)) := ps.mapM (index? 24)

/-- R150, the body's length being judged first (R181). -/
def answerAttrib (monitor sector count : Nat) (ps : List Nat) (s : State) : Answer :=
  if count ≠ ps.length then .refused .badLength
  else
    match index? 8 monitor, index? 16 sector, piles? ps with
    | some m, some n, some list =>
      if 12 < count then .refused .outOfRange
      else accept (attribStep m n list) (attribBody m n) s
    | _, _, _ => .refused .outOfRange

/-! ## Mode -/

def modeBody (s : State) : List Byte := le 1 s.mau.mode.code ++ optional 1 (s.mau.cause.map Cause.code)

/-- The change from the present mode that R155's table makes of a target: refused, no change, or entered. -/
def modeRefusal (target : Mode) (s : State) : Option Reason :=
  let checked : Option Reason := (layoutCheck s).map .notConfigured
  match s.mau.mode, target with
  | .standby, .auto => checked
  | .standby, .manual => checked
  | .lockdown, .standby => if stopAsserted s then some .stopAsserted else none
  | .lockdown, .auto => if stopAsserted s then some .stopAsserted else checked
  | .lockdown, .manual => if stopAsserted s then some .stopAsserted else checked
  | _, _ => none

/-- An accepted MODE (R154, R155). -/
def modeStep (target : Mode) (s : State) : State :=
  if target = s.mau.mode then s else enterMode target .request s

/-- R155. -/
def answerMode (target : Nat) (s : State) : Answer :=
  match mode? target with
  | none => .refused .outOfRange
  | some m =>
    match modeRefusal m s with
    | some r => .refused r
    | none => accept (modeStep m) modeBody s

/-- R164: the reply has no body, and the restart follows it. -/
def answerWarmRestart (s : State) : Answer := report [] s

/-! ## The clock and the forecast -/

/-- R184, R22. -/
def setTimeBody (before after : State) : List Byte :=
  le 4 after.yc.time ++ flagByte after.yc.valid ++ optional 4 after.yc.recordedDay ++
    flagByte (before.yc.recordedDay.isSome && before.yc.recordedDay ≠ after.yc.recordedDay) ++
    le 1 (before.ft.slots.length - after.ft.slots.length)

/-- R22. -/
def answerSetTime (time : Nat) (s : State) : Answer :=
  if 0xFFFFFFFF ≤ time then .refused .outOfRange else accept (setTimeStep time) (setTimeBody s) s

/-- R31, R184. -/
def forecastBody (t : Tally) (s : State) : List Byte :=
  le 1 t.stored ++ le 1 t.older ++ le 1 t.past ++ le 1 t.invalid ++ le 1 t.noRoom ++
    le 1 t.displaced ++ le 1 s.ft.slots.length ++ optional 4 (s.ft.slots.head?.map Slot.start) ++
    optional 4 (s.ft.slots.getLast?.map Slot.start) ++ optional 4 s.ft.newestIssue

/-- R28, the body's length being judged first (R181). -/
def answerForecast (issue issueTime count : Nat) (slots : List SlotFields) (s : State) : Answer :=
  if count ≠ slots.length then .refused .badLength
  else if s.yc.valid = false then .refused .timeInvalid
  else if count = 0 ∨ 12 < count ∨ 0xFFFFFFFF ≤ issueTime then .refused .outOfRange
  else accept (forecastStep issue issueTime slots) (forecastBody (tallyForecast s issue slots)) s

/-! ## Reports from the field -/

/-- R140, R184. -/
def readingBody (m : Fin 8) (outcome : ReadingOutcome) (s : State) : List Byte :=
  le 1 outcome.code ++ le 1 (s.monitor m).belowRun ++
    match openEpisodeOf s m with
    | some (k, e) => le 1 k ++ le 2 e.id
    | none => absent 1 ++ le 2 0

/-- R140. -/
def answerReading (monitor value : Nat) (s : State) : Answer :=
  match index? 8 monitor with
  | none => .refused .outOfRange
  | some m =>
    if 65535 < value then .refused .outOfRange
    else if (s.monitor m).configured = false then .refused .noSuchObject
    else accept (readingStep m value) (readingBody m (readingOutcome m value s)) s

/-- A part of POND_REPORT that may be absent: 0xFF, or a code of two values, 0 for the first (R66, R178). -/
def observed? : Nat → Option (Option Bool)
  | 0 => some (some true)
  | 1 => some (some false)
  | 0xFF => some none
  | _ => none

def pondReportBody (p : Fin 4) (s : State) : List Byte :=
  le 1 p ++ le 4 (s.pond p).volume ++ flagByte (!(s.pond p).settled) ++ flagByte (!(s.pond p).clear) ++
    flagByte (!(s.pond p).inService) ++ flagByte (fit s (.pond p)) ++ flagByte (usable s (.pond p))

/-- R66. -/
def answerPondReport (pond level quality service : Nat) (s : State) : Answer :=
  match index? 4 pond, observed? quality, observed? service with
  | some p, some q, some v =>
    if (s.pond p).configured = false then .refused .noSuchObject
    else
      accept (reportPond p (if level = 0xFFFFFFFF then none else some level) q v) (pondReportBody p) s
  | _, _, _ => .refused .outOfRange

/-- R105, R184. -/
def machineBody (m : Fin 4) (s : State) : List Byte :=
  let r := s.machine m
  le 1 m ++ flagByte r.reported ++ le 1 r.rail ++ le 2 r.chainage ++ flagByte r.stale ++
    le 4 (bitSet fun c => (s.cannon c).excluded)

/-- R105. -/
def answerMachinePos (machine rail chainage : Nat) (s : State) : Answer :=
  match index? 4 machine, index? 2 rail with
  | some m, some r =>
    if 4000 < chainage then .refused .outOfRange
    else if declared s m = false then .refused .noSuchObject
    else accept (reportMachine m r chainage) (machineBody m) s
  | _, _ => .refused .outOfRange

def mastBody (m : Fin 2) (s : State) : List Byte :=
  le 1 m ++ flagByte (fitted s m) ++ flagByte (s.mast m).suspect ++ flagByte (s.mast m).declaredOut

/-- R178: the MAST_SERVICE action codes, 0 OUT and 1 IN. -/
def serviceOut? : Nat → Option Bool
  | 0 => some true
  | 1 => some false
  | _ => none

/-- R7. -/
def answerMastService (mast action : Nat) (s : State) : Answer :=
  match index? 2 mast, serviceOut? action with
  | some m, some out =>
    if fitted s m = false then .refused .noSuchObject else accept (serviceMast m out) (mastBody m) s
  | _, _ => .refused .outOfRange

/-! ## Orders -/

/-- R184. -/
def orderBody (k : Nat) (s : State) : List Byte :=
  le 1 k ++ orderBlock (s.order k) ++ le 1 (orderRuns s k).length

/-- R129. -/
def answerOrderWet (tag pile volume expiry : Nat) (s : State) : Answer :=
  if s.mau.mode = .standby then .refused .wrongMode
  else if s.mau.mode = .lockdown then .refused .lockdown
  else
    match index? 24 pile with
    | none => .refused .outOfRange
    | some p =>
      if volume = 0 ∨ 10000000 < volume ∨ 86400 < expiry then .refused .outOfRange
      else if (s.pile p).configured = false then .refused .noSuchObject
      else if (s.pile p).hold then .refused .held
      else if (orderOfTag s tag).isSome then .refused .duplicateTag
      else
        match freeOrderSlot s with
        | none => .refused .full
        | some k => accept (wetStep k tag p volume expiry) (orderBody k) s

/-- R130. -/
def answerOrderHold (tag pile duration : Nat) (s : State) : Answer :=
  if s.mau.mode = .standby then .refused .wrongMode
  else
    match index? 24 pile with
    | none => .refused .outOfRange
    | some p =>
      if duration = 0 ∨ 86400 < duration then .refused .outOfRange
      else if (s.pile p).configured = false then .refused .noSuchObject
      else if (orderOfTag s tag).isSome then .refused .duplicateTag
      else
        match freeOrderSlot s with
        | none => .refused .full
        | some k => accept (holdStep k tag p duration) (orderBody k) s

/-- R132. -/
def answerOrderCancel (tag : Nat) (s : State) : Answer :=
  match openOrderOfTag s tag with
  | none => .refused .noSuchObject
  | some k => accept (closeOrder k .cancelled) (orderBody k) s

/-! ## Service and acknowledgement -/

/-- R178: the CANNON_SERVICE action codes. -/
inductive ServiceAction where
  | lock | unlock
deriving DecidableEq, Repr

def serviceAction? : Nat → Option ServiceAction
  | 0 => some .lock
  | 1 => some .unlock
  | _ => none

def serviceBody (c : Fin 32) (s : State) : List Byte :=
  le 1 c ++ le 1 (s.cannon c).phase.code ++ le 1 (movementCode (queuedMovement s c)) ++
    flagByte (s.cannon c).travel.isSome

/-- R100. -/
def answerCannonService (cannon action : Nat) (s : State) : Answer :=
  match index? 32 cannon, serviceAction? action with
  | some c, some a =>
    if (s.cannon c).configured = false then .refused .noSuchObject
    else
      match a, (s.cannon c).phase with
      | .lock, .stuck => .refused .wrongState
      | .lock, _ => accept (lockCannon c) (serviceBody c) s
      | .unlock, .locked => accept (unlockCannon c) (serviceBody c) s
      | .unlock, .faulted => accept (unlockCannon c) (serviceBody c) s
      | .unlock, _ => .refused .wrongState
  | _, _ => .refused .outOfRange

/-- An accepted ACK_ALERT (R161). -/
def ackStep (e : AlertId) (s : State) : State :=
  let a := s.mau.alerts.get e
  if a.condition then s
  else s.setAlerts (s.mau.alerts.set { a with latch := false, firstLatch := none } e)

/-- R161, R184: the result is PERSISTS where the condition is true. -/
def ackBody (e : AlertId) (s : State) : List Byte :=
  let a := s.mau.alerts.get e
  flagByte a.condition ++ le 1 e.kindCode ++ le 1 e.objectCode ++ flagByte a.condition ++
    flagByte a.latch ++ optional 4 a.firstLatch

/-- R161. -/
def answerAckAlert (kind object : Nat) (s : State) : Answer :=
  match alertId? kind object with
  | none => .refused .outOfRange
  | some e => accept (ackStep e) (ackBody e) s

/-! ## POLL -/

/-- The kind code and the object bytes of a notice (R172, R187). -/
def noticeHead : Notice → List Byte
  | .risk p => le 1 1 ++ le 1 p ++ le 1 0
  | .order k => le 1 2 ++ le 1 k ++ le 1 0
  | .episode k => le 1 3 ++ le 1 k ++ le 1 0
  | .alert e => le 1 4 ++ le 1 e.kindCode ++ le 1 e.objectCode
  | .source => le 1 5 ++ absent 2
  | .mode => le 1 6 ++ absent 2
  | .day => le 1 7 ++ absent 2

/-- The content of a notice, read at delivery (R175, R187). -/
def noticeContent (s : State) : Notice → List Byte
  | .risk p =>
    if (s.pile p).configured then
      flagByte true ++ le 2 (s.pile p).moisture ++ resultsBlock (s.pile p).results
    else flagByte false ++ absent 25
  | .order k => orderBlock (s.order k)
  | .episode k => episodeBlock (s.episode k)
  | .alert e =>
    let a := s.mau.alerts.get e
    flagByte a.condition ++ flagByte a.latch ++ optional 4 a.firstLatch
  | .source =>
    le 1 s.wiu.pump.phase.code ++ optional 1 (s.wiu.pump.source.map Source.code) ++
      le 2 (capacity s) ++ le 1 (waterState s).code
  | .mode => modeBody s
  | .day => optional 4 s.yc.recordedDay ++ le 4 s.yc.time ++ flagByte s.yc.valid

/-- One entry of the reply to POLL (R187). -/
def noticeEntry (s : State) (n : Notice) : List Byte :=
  noticeHead n ++ le 1 (noticeContent s n).length ++ noticeContent s n

/-- The delivery effect of a notice (R176, R147): an order's slot is freed, a CLOSED episode reported. -/
def delivered (n : Notice) (s : State) : State :=
  match n with
  | .order k => s.setOrder k none
  | .episode k =>
    match s.episode k with
    | some e => if e.closure.isSome then s.setEpisode k (some { e with reported := true }) else s
    | none => s
  | .risk _ => s
  | .alert _ => s
  | .source => s
  | .mode => s
  | .day => s

/-- The three acts of R174 for one notice: read, take effect, leave the list. -/
def deliverNotice (acc : State × List Byte) (n : Notice) : State × List Byte :=
  ((delivered n acc.1).setNotices (acc.1.lc.notices.erase n), acc.2 ++ noticeEntry acc.1 n)

/-- An accepted POLL: the state after it and the entries delivered (R174). -/
def pollEvent (max : Nat) (s : State) : State × List Byte :=
  (s.lc.notices.take max).foldl deliverNotice (s, [])

/-- R174. -/
def answerPoll (max : Nat) (s : State) : Answer :=
  if max = 0 ∨ 8 < max then .refused .outOfRange
  else
    let r := pollEvent max s
    .accepted r.1 (le 1 (s.lc.notices.take max).length ++ r.2 ++ le 1 r.1.lc.notices.length)

/-! ## Status -/

/-- R185. -/
def pileStatusBody (s : State) (p : Fin 24) : List Byte :=
  let d := s.pile p
  le 1 p ++ pileBlock d.config ++ le 2 d.moisture ++ le 4 d.pendingSpray ++ le 4 d.pendingRain ++
    le 4 d.deliveredToday ++ flagByte d.escalated ++ flagByte d.hold ++ resultsBlock d.results ++
    le 4 (s.demand p).volume

/-- R58. -/
def answerPileStatus (pile : Nat) (s : State) : Answer :=
  match index? 24 pile with
  | none => .refused .outOfRange
  | some p =>
    if (s.pile p).configured = false then .refused .noSuchObject else report (pileStatusBody s p) s

/-- The cannon's place in the valve movement queue (R109). -/
def queuePosition (s : State) (c : Fin 32) : Option Nat := s.cc.queue.findIdx? fun e => e.1 = c

/-- Run state and suspension cause (R185). -/
def runStateBytes (r : Run) : List Byte :=
  match r.phase with
  | .active (.suspend cause) _ => le 1 0 ++ le 1 cause.code
  | .active .none _ => le 1 0 ++ absent 1
  | .active .ends _ => le 1 0 ++ absent 1
  | .suspended cause _ _ => le 1 1 ++ le 1 cause.code

/-- The resume countdown of a suspended run (R115). -/
def Run.resumeLeft (r : Run) : Option Nat :=
  match r.phase with
  | .suspended _ _ t => some t
  | .active _ _ => none

/-- The run part of CANNON_STATUS (R185). -/
def runBytes : Option Run → List Byte
  | none => absent 13
  | some r =>
    le 1 r.origin.code ++ runStateBytes r ++ le 4 r.target ++ le 4 r.delivered ++
      remaining 2 r.resumeLeft

/-- R185. -/
def cannonStatusBody (s : State) (c : Fin 32) : List Byte :=
  let d := s.cannon c
  le 1 c ++ cannonBlock d.config ++ le 1 d.phase.code ++ le 1 (movementCode (queuedMovement s c)) ++
    optional 1 (queuePosition s c) ++ remaining 1 d.travel ++ flagByte (feedbackOpen s c) ++
    flagByte d.driftBlocked ++ flagByte d.excluded ++ flagByte (eligible s c) ++
    le 1 (bitSet fun m => excludes s m c) ++ runBytes (s.run c)

/-- R109. -/
def answerCannonStatus (cannon : Nat) (s : State) : Answer :=
  match index? 32 cannon with
  | none => .refused .outOfRange
  | some c =>
    if (s.cannon c).configured = false then .refused .noSuchObject
    else report (cannonStatusBody s c) s

/-- One pond's 45 bytes (R186). -/
def pondStatus (s : State) (p : Fin 4) : List Byte :=
  let d := s.pond p
  flagByte d.configured ++ pondBlock d.config ++ le 4 d.volume ++ flagByte (!d.settled) ++
    remaining 4 d.settleCountdown ++ le 4 d.runoff ++ flagByte (!d.clear) ++ flagByte (!d.inService) ++
    flagByte (fit s (.pond p)) ++ flagByte (usable s (.pond p))

/-- R186. -/
def waterStatusBody (s : State) : List Byte :=
  (List.finRange 4).flatMap (pondStatus s) ++
    le 2 s.site.freshRate ++ le 4 s.site.freshAllocation ++ le 4 (freshUsed s) ++
    flagByte (usable s .fresh) ++ le 1 s.wiu.pump.phase.code ++
    optional 1 (s.wiu.pump.source.map Source.code) ++ le 2 (capacity s) ++
    remaining 2 s.wiu.pump.interval ++ le 4 (usableWater s) ++ le 1 (waterState s).code ++
    flagByte (noUsableSource s)

def answerWaterStatus (s : State) : Answer := report (waterStatusBody s) s

/-- One mast's 8 bytes (R185). -/
def mastStatus (s : State) (m : Fin 2) : List Byte :=
  let d := s.mast m
  flagByte (fitted s m) ++ flagByte d.suspect ++ flagByte d.declaredOut ++ le 1 d.zeroRun ++
    match d.sample with
    | some x => le 2 x.speed ++ le 1 x.sector ++ flagByte x.saturated
    | none => absent 4

/-- R185. -/
def windStatusBody (s : State) : List Byte :=
  let w := s.wfe.published
  le 2 w.mean ++ le 2 w.gust ++ le 1 w.direction.code ++ le 1 w.source.code ++ flagByte w.saturated ++
    le 1 s.wfe.ring.length ++ optional 1 (s.wfe.selected.map Fin.val) ++ mastStatus s 0 ++ mastStatus s 1

def answerWindStatus (s : State) : Answer := report (windStatusBody s) s

/-- The below-run count and Nc of an OPEN episode's monitor (R149, R185). -/
def holdOffBytes (s : State) : Option Episode → List Byte
  | none => absent 2
  | some e =>
    if e.closure.isNone then le 1 (s.monitor e.monitor).belowRun ++ le 1 (s.monitor e.monitor).holdOff
    else absent 2

/-- R185. -/
def episodeReadBody (s : State) (k : Nat) : List Byte :=
  le 1 k ++ episodeBlock (s.episode k) ++ holdOffBytes s (s.episode k)

/-- R149. -/
def answerEpisodeRead (slot : Nat) (s : State) : Answer :=
  if s.bwu.episodes.length ≤ slot then .refused .outOfRange else report (episodeReadBody s slot) s

/-- One pond's 30 bytes of a day-totals record (R186). -/
def pondDayBytes (r : PondDay) : List Byte :=
  le 6 r.drawn ++ le 6 r.rain ++ le 6 r.runoff ++ le 6 r.spill ++ signedLe 6 r.corrections

/-- One day-totals record (R186). -/
def dayBytes (r : DayRecord) : List Byte :=
  optional 4 r.day ++ le 6 r.fresh ++ r.ponds.rows.flatMap pondDayBytes ++ le 6 r.delivered ++
    le 6 r.lost

/-- R186. -/
def dayTotalsBody (s : State) : List Byte :=
  dayBytes s.wiu.today ++ dayBytes s.wiu.previous ++ le 4 s.yc.time ++ flagByte s.yc.valid ++
    optional 4 s.yc.recordedDay

def answerDayTotals (s : State) : Answer := report (dayTotalsBody s) s

/-- The undelivered volume of an OPEN WET order (R134, R185). -/
def undeliveredBytes (s : State) (k : Nat) : List Byte :=
  match s.order k with
  | some o => if o.kind = .wet ∧ o.closure.isNone then le 4 (undelivered s k o) else absent 4
  | none => absent 4

/-- One run's 6 bytes of ORDER_STATUS (R185). -/
def orderRunBytes (s : State) (c : Fin 32) : List Byte :=
  match s.run c with
  | some r => le 1 c ++ le 1 (if r.isSuspended then 1 else 0) ++ le 4 r.outstanding
  | none => []

/-- R185. -/
def orderStatusBody (s : State) (k : Nat) : List Byte :=
  le 1 k ++ orderBlock (s.order k) ++ undeliveredBytes s k ++ le 1 (orderRuns s k).length ++
    (orderRuns s k).flatMap (orderRunBytes s)

/-- R134. -/
def answerOrderStatus (slot : Nat) (s : State) : Answer :=
  if s.sd.orders.length ≤ slot then .refused .outOfRange else report (orderStatusBody s slot) s

end Sys2Proof.Machine
end

