-- ==== Sys2Proof/Machine/Link.lean ====
section
/-! DEFINITION. The Link Controller: taking a request and replying (R166, R170, R171), and receiving a
frame character by character (R167 to R169). -/

namespace Sys2Proof.Machine

/-! ## Replies -/

/-- R164: the one request whose event follows its reply is WARM_RESTART. -/
def restartFollows (kind : Nat) : Bool := kind = 0x0A

/-- The receiver is TAKING, and the reply waits out its turnaround, a free value of 1 to 20 ms (R170). -/
def startReply (bytes : List Byte) (restart : Bool) (s : State) : State :=
  { s with
    lc := { s.lc with
      rx := .taking
      gap := none
      reply := some ⟨bytes, false, Config.turnaroundTicks s.freeCount, restart⟩ }
    freeCount := s.freeCount + 1 }

/-- The last stop bit of the reply has been sent: the receiver enters HUNT with an empty buffer (R170), and
the warm restart is taken where this was its reply (R164). Commanded while the reply still waits out its
turnaround, it finds the whole reply sent. DESIGN CHOICE, log 26. -/
def replySentStep (s : State) : State :=
  match s.lc.reply with
  | none => s
  | some r =>
    let t := s.setLc { s.lc with rx := .hunt, buffer := [], reply := none }
    if r.restart then warmRestart t else t

/-- Ticks of ten bit times for each byte at the line rate, rounded up (R166). -/
def sendingTicks (rate : LineRate) (bytes : Nat) : Nat :=
  ceilDiv (bytes * 10 * Config.ticksPerSecond) rate.bitsPerSecond

/-- The turnaround is over: LDE is driven and the reply begins (R166, R170). -/
def replyStartStep (s : State) : State :=
  match s.lc.reply with
  | none => s
  | some r =>
    if r.sending then s
    else
      s.setLc { s.lc with
        reply := some { r with sending := true, left := sendingTicks s.lc.rate r.frame.length } }

/-- A request is taken as one event and answered by one reply frame (R170, R171). A request commanded
while an earlier reply is still in progress finds that reply sent, and one commanded while a frame is partly
received takes the receiver to TAKING, so that frame is lost. DESIGN CHOICE, log 13. -/
def takeRequest (kind tag : Nat) (ask : State → Answer) (s : State) : State :=
  let t := replySentStep s
  match ask t with
  | .accepted u body => startReply (acceptance kind tag body) (restartFollows kind) u
  | .refused r => startReply (refusal kind tag r) false t

/-- What a request read off the line asks for. An event is no request. -/
def answerOf : Instr → State → Answer
  | .powerOnReset _ _, _ => .refused .unknownKind
  | .pulseEdge _, _ => .refused .unknownKind
  | .gateExpiry _ _, _ => .refused .unknownKind
  | .rainTip, _ => .refused .unknownKind
  | .bounceExpiry, _ => .refused .unknownKind
  | .secondEvent, _ => .refused .unknownKind
  | .assessment, _ => .refused .unknownKind
  | .primingExpiry, _ => .refused .unknownKind
  | .rundownExpiry, _ => .refused .unknownKind
  | .changeoverExpiry, _ => .refused .unknownKind
  | .settleExpiry _, _ => .refused .unknownKind
  | .deliverySecond _, _ => .refused .unknownKind
  | .lostWaterExpiry _, _ => .refused .unknownKind
  | .slotExpiry, _ => .refused .unknownKind
  | .feedbackChange _ _, _ => .refused .unknownKind
  | .travelExpiry _, _ => .refused .unknownKind
  | .machineStaleExpiry _, _ => .refused .unknownKind
  | .resumeExpiry _, _ => .refused .unknownKind
  | .orderExpiry _, _ => .refused .unknownKind
  | .holdExpiry _, _ => .refused .unknownKind
  | .monitorStaleExpiry _, _ => .refused .unknownKind
  | .stopLineChange _, _ => .refused .unknownKind
  | .receiveCharacter _ _, _ => .refused .unknownKind
  | .gapExpiry, _ => .refused .unknownKind
  | .replyStart, _ => .refused .unknownKind
  | .replySent, _ => .refused .unknownKind
  | .unknownKind _ _, _ => .refused .unknownKind
  | .ident _, s => answerIdent s
  | .siteSetup _ f, s => answerSiteSetup f s
  | .poolSplit _ f e o, s => answerPoolSplit f e o s
  | .pileSetup _ i a f, s => answerPileSetup i a f s
  | .cannonSetup _ i a f, s => answerCannonSetup i a f s
  | .pondSetup _ i a f, s => answerPondSetup i a f s
  | .monitorSetup _ i a f, s => answerMonitorSetup i a f s
  | .attrib _ m d n ps, s => answerAttrib m d n ps s
  | .mode _ t, s => answerMode t s
  | .warmRestart _, s => answerWarmRestart s
  | .setTime _ t, s => answerSetTime t s
  | .forecast _ i t n fs, s => answerForecast i t n fs s
  | .reading _ m v, s => answerReading m v s
  | .pondReport _ p l q v, s => answerPondReport p l q v s
  | .machinePos _ m r c, s => answerMachinePos m r c s
  | .mastService _ m a, s => answerMastService m a s
  | .orderWet _ o p v x, s => answerOrderWet o p v x s
  | .orderHold _ o p d, s => answerOrderHold o p d s
  | .orderCancel _ o, s => answerOrderCancel o s
  | .cannonService _ c a, s => answerCannonService c a s
  | .ackAlert _ k o, s => answerAckAlert k o s
  | .poll _ n, s => answerPoll n s
  | .pileStatus _ i, s => answerPileStatus i s
  | .cannonStatus _ i, s => answerCannonStatus i s
  | .waterStatus _, s => answerWaterStatus s
  | .windStatus _, s => answerWindStatus s
  | .episodeRead _ k, s => answerEpisodeRead k s
  | .dayTotals _, s => answerDayTotals s
  | .orderStatus _ k, s => answerOrderStatus k s

/-- A well-formed frame is taken (R170), and judged by kind, by length and by its owning rule (R171). -/
def takeFrame (kind tag : Nat) (body : List Byte) (s : State) : State :=
  match readRequest kind tag body with
  | some i => takeRequest kind tag (answerOf i) s
  | none => takeRequest kind tag (fun _ => .refused .badLength) s

/-! ## Receiving -/

/-- A frame is abandoned or discarded (R167, R168). -/
def dropFrame (s : State) : State :=
  s.setLc { s.lc with rx := .hunt, buffer := [], gap := none }

/-- The gap countdown expires (R167); where none runs there is no such event (log 8). -/
def gapStep (s : State) : State := if s.lc.gap = none then s else dropFrame s

/-- The gap countdown from one character's stop bit: 10 ms to the next one's start bit (R167), and the ten bit
times of that character (R166), which RECEIVE_CHARACTER reports whole. DEDUCED, log 29. -/
def gapSpan (rate : LineRate) : Nat := Config.gapTicks + sendingTicks rate 1

/-- A character is kept and restarts the gap countdown, and the receiver goes to a state (R167). -/
def keepCharacter (rx : RxState) (bytes : List Byte) (s : State) : State :=
  s.setLc { s.lc with rx := rx, buffer := bytes, gap := some (gapSpan s.lc.rate) }

/-- The body length L of a frame whose header has been kept (R179). -/
def bodyLength (bytes : List Byte) : Nat := field bytes 3 2

/-- The length test after the second byte of L (R168). -/
def takeHeader (bytes : List Byte) (s : State) : State :=
  if bytes.length < 5 then keepCharacter .header bytes s
  else if 512 < bodyLength bytes then dropFrame s
  else if bodyLength bytes = 0 then keepCharacter .trailer bytes s
  else keepCharacter .body bytes s

/-- After the L-th body byte the receiver enters TRAILER (R167). -/
def takeBody (bytes : List Byte) (s : State) : State :=
  if bytes.length < bodyLength bytes + 5 then keepCharacter .body bytes s
  else keepCharacter .trailer bytes s

/-- The echo test of R168. -/
def echoAgrees (bytes : List Byte) : Bool :=
  field bytes (bodyLength bytes + 5) 2 = bodyLength bytes + 5

/-- The CRC test of R169: the check over the L + 6 bytes after SYNC against the last two, high byte
first. -/
def crcAgrees (bytes : List Byte) : Bool :=
  crcField ((bytes.drop 1).take (bodyLength bytes + 6)) = bytes.drop (bodyLength bytes + 7)

/-- The tests of the trailer (R168, R169), and the taking of a well-formed frame (R170). -/
def takeTrailer (bytes : List Byte) (s : State) : State :=
  let n := bodyLength bytes
  if bytes.length < n + 7 then keepCharacter .trailer bytes s
  else if bytes.length = n + 7 then
    if echoAgrees bytes then keepCharacter .trailer bytes s else dropFrame s
  else if bytes.length < n + 9 then keepCharacter .trailer bytes s
  else if crcAgrees bytes then
    takeFrame (field bytes 1 1) (field bytes 2 1) ((bytes.drop 5).take n)
      (s.setLc { s.lc with buffer := bytes })
  else dropFrame s

/-- A received character (R167). -/
def receiveStep (c : Byte) (framingError : Bool) (s : State) : State :=
  match s.lc.rx, framingError with
  | .hunt, false => if c = syncByte then keepCharacter .header [c] s else s
  | .hunt, true => s
  | .header, false => takeHeader (s.lc.buffer ++ [c]) s
  | .header, true => dropFrame s
  | .body, false => takeBody (s.lc.buffer ++ [c]) s
  | .body, true => dropFrame s
  | .trailer, false => takeTrailer (s.lc.buffer ++ [c]) s
  | .trailer, true => dropFrame s
  | .taking, _ => s

end Sys2Proof.Machine
end

