-- ==== Sys2Proof/Machine/Time.lean ====
section
/-! DEFINITION. The part's own crystal: which countdowns and filters have come to their end, which of them
is taken first, and what one tick of 200 microseconds does to all of them (log 2). -/

namespace Sys2Proof.Machine

/-! ## Level filters -/

/-- Taking the pin's level would be a falling edge of the filtered level (R1, R16). The first level a
filter takes is no edge (R18). -/
def LineFilter.falls (f : LineFilter) : Bool := f.level = some true && !f.pin

/-- Taking the pin's level would change the filtered level of a line that stands inactive until its
filter has settled (R94, R111, R157). -/
def LineFilter.changes (f : LineFilter) : Bool := f.level.getD false ≠ f.pin

/-- Taking the pin's level is no event of any block. -/
def LineFilter.silent (_ : LineFilter) : Bool := false

/-- The pin has held a level for the filter's time, and taking it is an event. -/
def LineFilter.due (event : LineFilter → Bool) (time : Nat) (f : LineFilter) : Bool :=
  event f && decide (f.level ≠ some f.pin) && decide (time ≤ f.held) && decide (f.last = f.pin)

/-- The ticks that the pin, at one more tick, has held its level without change (R1, R16, R94, R157): a
changed pin is held from this tick on. -/
def LineFilter.heldNow (f : LineFilter) : Nat := if f.last = f.pin then f.held + 1 else 1

/-- A tick of a filter of the given time. A level whose taking is no event is taken here. -/
def LineFilter.tick (event : LineFilter → Bool) (time : Nat) (f : LineFilter) : LineFilter :=
  if f.level = some f.pin then { f with held := 0, last := f.pin }
  else if event f || decide (f.heldNow < time) then { f with held := f.heldNow, last := f.pin }
  else .settled f.pin

/-! ## What is due -/

/-- The event, where the test holds. -/
def dueIf (test : Bool) (i : Instr) : List Instr := if test then [i] else []

/-- The expiry of the one interval of the pump set (R72, R74, R76). -/
def duePump (s : State) : List Instr :=
  if s.wiu.pump.interval = some 0 then
    match s.wiu.pump.phase with
    | .priming => [.primingExpiry]
    | .rundown => [.rundownExpiry]
    | .changeover => [.changeoverExpiry]
    | .off => []
    | .running => []
  else []

/-- The expiry of a run's delivery or resume countdown (R115, R117). -/
def dueRun (s : State) (c : Fin 32) : List Instr :=
  match s.run c with
  | none => []
  | some r =>
    match r.phase with
    | .active _ (some 0) => [.deliverySecond c]
    | .suspended _ _ 0 => [.resumeExpiry c]
    | _ => []

/-- The expiry of an OPEN order's countdown (R131). -/
def dueOrder (s : State) (k : Nat) : List Instr :=
  match s.order k with
  | none => []
  | some o =>
    if o.closure.isNone ∧ o.countdown = some 0 then
      match o.kind with
      | .wet => [.orderExpiry k]
      | .hold => [.holdExpiry k]
    else []

/-- The beginning or the end of a reply (R170). -/
def dueReply (s : State) : List Instr :=
  match s.lc.reply with
  | none => []
  | some r => if r.left = 0 then (if r.sending then [.replySent] else [.replyStart]) else []

/-- A cannon's expiries and its feedback (R94, R98), and a close that waits to be confirmed (R96; log 28). -/
def dueCannon (s : State) (c : Fin 32) : List Instr :=
  dueRun s c ++ dueIf ((s.cannon c).lostWater = some 0) (.lostWaterExpiry c) ++
    dueIf ((s.cannon c).travel = some 0) (.travelExpiry c) ++
    dueIf (closeUnconfirmed s c) (.feedbackChange c false) ++
    dueIf ((s.pins.feedback.get c).due LineFilter.changes Config.valveFilter)
      (.feedbackChange c (s.pins.feedback.get c).pin)

/-- Every event that is due at this instant. -/
def dueEvents (s : State) : List Instr :=
  dueIf (s.wfe.gate = 0) (.gateExpiry (vaneLines s 0) (vaneLines s 1)) ++
    dueIf (s.wfe.bounce = some 0) .bounceExpiry ++ dueIf (s.yc.second = 0) .secondEvent ++
    dueIf (s.pau.countdown = 0) .assessment ++ duePump s ++
    ((List.finRange 4).flatMap fun p =>
      dueIf ((s.pond p).settleCountdown = some 0) (.settleExpiry p)) ++
    (List.finRange 32).flatMap (dueCannon s) ++ dueIf (s.cc.slot = some 0) .slotExpiry ++
    ((List.finRange 4).flatMap fun m =>
      dueIf ((s.machine m).countdown = some 0) (.machineStaleExpiry m)) ++
    (List.range s.sd.orders.length).flatMap (dueOrder s) ++
    ((List.finRange 8).flatMap fun m =>
      dueIf ((s.monitor m).countdown = some 0) (.monitorStaleExpiry m)) ++
    dueIf (s.lc.gap = some 0) .gapExpiry ++ dueReply s ++
    ((List.finRange 2).flatMap fun m =>
      dueIf ((s.pins.pulse.get m).due LineFilter.falls Config.mastFilter) (.pulseEdge m)) ++
    dueIf (s.pins.rain.due LineFilter.falls Config.rainFilter) .rainTip ++
    dueIf (s.pins.stop.due LineFilter.changes Config.valveFilter) (.stopLineChange s.pins.stop.pin)

/-- The event taken next, and the state it finds. Which of several is taken first is a free value (log 3). -/
def chooseDue (s : State) : Option (Instr × State) :=
  match dueEvents s with
  | [] => none
  | [i] => some (i, s)
  | i :: rest =>
    some ((i :: rest).getD (Config.tieBreak s.freeCount % (rest.length + 1)) i,
      { s with freeCount := s.freeCount + 1 })

/-! ## A tick -/

/-- A countdown a tick later, if it runs. -/
def countDown (t : Option Nat) : Option Nat := t.map (· - 1)

def RunPhase.tick : RunPhase → RunPhase
  | .active d t => .active d (countDown t)
  | .suspended c n t => .suspended c n (t - 1)

def Run.tick (r : Run) : Run := { r with phase := r.phase.tick }

def Order.tick (o : Order) : Order := { o with countdown := countDown o.countdown }

def Cannon.tick (d : Cannon) : Cannon :=
  { d with travel := countDown d.travel, lostWater := countDown d.lostWater }

def MachineRecord.tick (r : MachineRecord) : MachineRecord :=
  { r with countdown := countDown r.countdown }

def Pond.tick (d : Pond) : Pond := { d with settleCountdown := countDown d.settleCountdown }

def Pump.tick (p : Pump) : Pump := { p with interval := countDown p.interval }

def Monitor.tick (d : Monitor) : Monitor := { d with countdown := countDown d.countdown }

def Reply.tick (r : Reply) : Reply := { r with left := r.left - 1 }

def Pins.tick (p : Pins) : Pins :=
  { p with
    pulse := p.pulse.map (·.tick LineFilter.falls Config.mastFilter)
    vane := p.vane.map fun lines => lines.map (·.tick LineFilter.silent Config.mastFilter)
    rain := p.rain.tick LineFilter.falls Config.rainFilter
    feedback := p.feedback.map (·.tick LineFilter.changes Config.valveFilter)
    stop := p.stop.tick LineFilter.changes Config.valveFilter }

/-- One tick of every filter and every running countdown. -/
def tick (s : State) : State :=
  { s with
    pins := s.pins.tick
    lc := { s.lc with gap := countDown s.lc.gap, reply := s.lc.reply.map Reply.tick }
    yc := { s.yc with second := s.yc.second - 1 }
    wfe := { s.wfe with gate := s.wfe.gate - 1, bounce := countDown s.wfe.bounce }
    pau := { s.pau with countdown := s.pau.countdown - 1 }
    cc := { s.cc with
      cannons := s.cc.cannons.map Cannon.tick
      slot := countDown s.cc.slot
      machines := s.cc.machines.map MachineRecord.tick }
    sd := { s.sd with
      runs := s.sd.runs.map (·.map Run.tick)
      orders := s.sd.orders.map (·.map Order.tick) }
    wiu := { s.wiu with ponds := s.wiu.ponds.map Pond.tick, pump := s.wiu.pump.tick }
    bwu := { s.bwu with monitors := s.bwu.monitors.map Monitor.tick } }

end Sys2Proof.Machine
end

