-- ==== Sys2Proof/Machine/Events.lean ====
section
/-! DEFINITION. The meanings of the rows that are events: reset, yard inputs, expiries and the line. -/

namespace Sys2Proof.Machine

/-- POWER_ON_RESET. R163: power-on reset, brown-out recovery included; the straps are read (R166). -/
def execPowerOnReset (rate1 rate0 : Bool) (s : State) : Host.Outcome State Fault Refusal :=
  .next (powerOn rate1 rate0 s)

/-- PULSE_EDGE. R1. -/
def execPulseEdge (mast : Fin 2) (s : State) : Host.Outcome State Fault Refusal :=
  .next (pulseStep mast s)

/-- GATE_EXPIRY. R2 to R13, and the drift evaluation of R103. -/
def execGateExpiry (vane0 vane1 : BitVec 4) (s : State) : Host.Outcome State Fault Refusal :=
  .next (inEvent (gateStep vane0 vane1) s)

/-- RAIN_TIP. R16, R17. One grant pass is made at the end of the whole tip, not after each pond's inflow.
DESIGN CHOICE, log 27. -/
def execRainTip (s : State) : Host.Outcome State Fault Refusal :=
  .next (inEvent rainEdge s)

/-- BOUNCE_EXPIRY. R16: the next falling edge is again accepted. -/
def execBounceExpiry (s : State) : Host.Outcome State Fault Refusal :=
  .next (s.setWfe { s.wfe with bounce := none })

/-- SECOND_EVENT. R20. -/
def execSecondEvent (s : State) : Host.Outcome State Fault Refusal :=
  .next (inEvent secondStep s)

/-- ASSESSMENT. R42 to R56, R123. -/
def execAssessment (s : State) : Host.Outcome State Fault Refusal :=
  .next (inEvent assessmentStep s)

/-- PRIMING_EXPIRY. R72: in PRIMING the pump set enters RUNNING; elsewhere no such interval runs (log 8). -/
def execPrimingExpiry (s : State) : Host.Outcome State Fault Refusal :=
  .next (if s.wiu.pump.phase = .priming then inEvent capacityIncrease s else s)

/-- RUNDOWN_EXPIRY. R74: in RUNDOWN the pump set goes to OFF; elsewhere no such interval runs (log 8). -/
def execRundownExpiry (s : State) : Host.Outcome State Fault Refusal :=
  .next (if s.wiu.pump.phase = .rundown then inEvent pumpStop s else s)

/-- CHANGEOVER_EXPIRY. R76: in CHANGEOVER the pump set enters RUNNING; elsewhere no such interval runs (log 8). -/
def execChangeoverExpiry (s : State) : Host.Outcome State Fault Refusal :=
  .next (if s.wiu.pump.phase = .changeover then inEvent capacityIncrease s else s)

/-- SETTLE_EXPIRY. R65; where no settle countdown runs there is no such event (log 8). -/
def execSettleExpiry (pond : Fin 4) (s : State) : Host.Outcome State Fault Refusal :=
  .next (if (s.pond pond).settleCountdown = none then s else inEvent (settle pond) s)

/-- DELIVERY_SECOND. R117, R118. -/
def execDeliverySecond (cannon : Fin 32) (s : State) : Host.Outcome State Fault Refusal :=
  .next (inEvent (deliveryStep cannon) s)

/-- LOST_WATER_EXPIRY. R79, R98. -/
def execLostWaterExpiry (cannon : Fin 32) (s : State) : Host.Outcome State Fault Refusal :=
  .next (inEvent (lostWaterStep cannon) s)

/-- SLOT_EXPIRY. R90; where the slot countdown does not run there is no such event (log 8). -/
def execSlotExpiry (s : State) : Host.Outcome State Fault Refusal :=
  .next (if s.cc.slot = none then s else inEvent slotStep s)

/-- FEEDBACK_CHANGE. R94 to R98, R101. -/
def execFeedbackChange (cannon : Fin 32) (isOpen : Bool) (s : State) : Host.Outcome State Fault Refusal :=
  .next (inEvent (feedbackStep cannon isOpen) s)

/-- TRAVEL_EXPIRY. R94, R96, R101. -/
def execTravelExpiry (cannon : Fin 32) (s : State) : Host.Outcome State Fault Refusal :=
  .next (inEvent (travelStep cannon) s)

/-- MACHINE_STALE_EXPIRY. R105. -/
def execMachineStaleExpiry (machine : Fin 4) (s : State) : Host.Outcome State Fault Refusal :=
  .next (inEvent (machineStaleStep machine) s)

/-- RESUME_EXPIRY. R115, R116. -/
def execResumeExpiry (cannon : Fin 32) (s : State) : Host.Outcome State Fault Refusal :=
  .next (inEvent (resumeStep cannon) s)

/-- ORDER_EXPIRY. R131: an OPEN WET order closes EXPIRED. -/
def execOrderExpiry (slot : Nat) (s : State) : Host.Outcome State Fault Refusal :=
  .next (inEvent (orderStep .wet .expired slot) s)

/-- HOLD_EXPIRY. R131: an OPEN HOLD order closes DONE. -/
def execHoldExpiry (slot : Nat) (s : State) : Host.Outcome State Fault Refusal :=
  .next (inEvent (orderStep .hold .done slot) s)

/-- MONITOR_STALE_EXPIRY. R139. -/
def execMonitorStaleExpiry (monitor : Fin 8) (s : State) : Host.Outcome State Fault Refusal :=
  .next (monitorStaleStep monitor s)

/-- STOP_LINE_CHANGE. R157. -/
def execStopLineChange (asserted : Bool) (s : State) : Host.Outcome State Fault Refusal :=
  .next (inEvent (stopStep asserted) s)

/-- RECEIVE_CHARACTER. R167 to R170. -/
def execReceiveCharacter (char : Byte) (framingError : Bool) (s : State) : Host.Outcome State Fault Refusal :=
  .next (receiveStep char framingError s)

/-- GAP_EXPIRY. R167. -/
def execGapExpiry (s : State) : Host.Outcome State Fault Refusal :=
  .next (gapStep s)

/-- REPLY_START. R170. -/
def execReplyStart (s : State) : Host.Outcome State Fault Refusal :=
  .next (replyStartStep s)

/-- REPLY_SENT. R170, R164. -/
def execReplySent (s : State) : Host.Outcome State Fault Refusal :=
  .next (replySentStep s)

end Sys2Proof.Machine
end

