-- ==== Sys2Proof/Machine/Requests.lean ====
section
/-! DEFINITION. The meanings of the rows that are requests of the host: each is taken as one event and
answered by one reply frame (R170, R171). -/

namespace Sys2Proof.Machine

/-- UNKNOWN_KIND. R171 step 1. -/
def execUnknownKind (kind frameTag : Nat) (s : State) :
    Host.Outcome State Fault Refusal :=
  .next (takeRequest kind frameTag (fun _ => .refused .unknownKind) s)

/-- IDENT. R165. -/
def execIdent (frameTag : Nat) (s : State) :
    Host.Outcome State Fault Refusal :=
  .next (takeRequest 0x01 frameTag answerIdent s)

/-- SITE_SETUP. R158, R182. -/
def execSiteSetup (frameTag : Nat) (site : SiteFields) (s : State) :
    Host.Outcome State Fault Refusal :=
  .next (takeRequest 0x02 frameTag (answerSiteSetup site) s)

/-- POOL_SPLIT. R159. -/
def execPoolSplit (frameTag forecast episodes orders : Nat) (s : State) :
    Host.Outcome State Fault Refusal :=
  .next (takeRequest 0x03 frameTag (answerPoolSplit forecast episodes orders) s)

/-- PILE_SETUP. R37 to R39. -/
def execPileSetup (frameTag pile action : Nat) (fields : PileFields) (s : State) :
    Host.Outcome State Fault Refusal :=
  .next (takeRequest 0x04 frameTag (answerPileSetup pile action fields) s)

/-- CANNON_SETUP. R87, R88. -/
def execCannonSetup (frameTag cannon action : Nat) (fields : CannonFields) (s : State) :
    Host.Outcome State Fault Refusal :=
  .next (takeRequest 0x05 frameTag (answerCannonSetup cannon action fields) s)

/-- POND_SETUP. R61 to R63. -/
def execPondSetup (frameTag pond action : Nat) (fields : PondFields) (s : State) :
    Host.Outcome State Fault Refusal :=
  .next (takeRequest 0x06 frameTag (answerPondSetup pond action fields) s)

/-- MONITOR_SETUP. R137, R138. -/
def execMonitorSetup (frameTag monitor action : Nat) (fields : MonitorFields) (s : State) :
    Host.Outcome State Fault Refusal :=
  .next (takeRequest 0x07 frameTag (answerMonitorSetup monitor action fields) s)

/-- ATTRIB. R150. -/
def execAttrib (frameTag monitor sector count : Nat) (piles : List Nat) (s : State) :
    Host.Outcome State Fault Refusal :=
  .next (takeRequest 0x08 frameTag (answerAttrib monitor sector count piles) s)

/-- MODE. R155. -/
def execMode (frameTag target : Nat) (s : State) :
    Host.Outcome State Fault Refusal :=
  .next (takeRequest 0x09 frameTag (answerMode target) s)

/-- WARM_RESTART. R164: the restart itself follows the reply. -/
def execWarmRestart (frameTag : Nat) (s : State) :
    Host.Outcome State Fault Refusal :=
  .next (takeRequest 0x0A frameTag answerWarmRestart s)

/-- SET_TIME. R22. -/
def execSetTime (frameTag time : Nat) (s : State) :
    Host.Outcome State Fault Refusal :=
  .next (takeRequest 0x10 frameTag (answerSetTime time) s)

/-- FORECAST. R28 to R31. -/
def execForecast (frameTag issue issueTime count : Nat) (slots : List SlotFields) (s : State) :
    Host.Outcome State Fault Refusal :=
  .next (takeRequest 0x11 frameTag (answerForecast issue issueTime count slots) s)

/-- READING. R140. -/
def execReading (frameTag monitor value : Nat) (s : State) :
    Host.Outcome State Fault Refusal :=
  .next (takeRequest 0x12 frameTag (answerReading monitor value) s)

/-- POND_REPORT. R66. -/
def execPondReport (frameTag pond level quality service : Nat) (s : State) :
    Host.Outcome State Fault Refusal :=
  .next (takeRequest 0x13 frameTag (answerPondReport pond level quality service) s)

/-- MACHINE_POS. R105. -/
def execMachinePos (frameTag machine rail chainage : Nat) (s : State) :
    Host.Outcome State Fault Refusal :=
  .next (takeRequest 0x14 frameTag (answerMachinePos machine rail chainage) s)

/-- MAST_SERVICE. R7. -/
def execMastService (frameTag mast action : Nat) (s : State) :
    Host.Outcome State Fault Refusal :=
  .next (takeRequest 0x15 frameTag (answerMastService mast action) s)

/-- ORDER_WET. R129. -/
def execOrderWet (frameTag orderTag pile volume expiry : Nat) (s : State) :
    Host.Outcome State Fault Refusal :=
  .next (takeRequest 0x20 frameTag (answerOrderWet orderTag pile volume expiry) s)

/-- ORDER_HOLD. R130. -/
def execOrderHold (frameTag orderTag pile duration : Nat) (s : State) :
    Host.Outcome State Fault Refusal :=
  .next (takeRequest 0x21 frameTag (answerOrderHold orderTag pile duration) s)

/-- ORDER_CANCEL. R132. -/
def execOrderCancel (frameTag orderTag : Nat) (s : State) :
    Host.Outcome State Fault Refusal :=
  .next (takeRequest 0x22 frameTag (answerOrderCancel orderTag) s)

/-- CANNON_SERVICE. R100 to R102. -/
def execCannonService (frameTag cannon action : Nat) (s : State) :
    Host.Outcome State Fault Refusal :=
  .next (takeRequest 0x23 frameTag (answerCannonService cannon action) s)

/-- ACK_ALERT. R161. -/
def execAckAlert (frameTag kind object : Nat) (s : State) :
    Host.Outcome State Fault Refusal :=
  .next (takeRequest 0x24 frameTag (answerAckAlert kind object) s)

/-- POLL. R174 to R176, R187. -/
def execPoll (frameTag max : Nat) (s : State) :
    Host.Outcome State Fault Refusal :=
  .next (takeRequest 0x30 frameTag (answerPoll max) s)

/-- PILE_STATUS. R58. -/
def execPileStatus (frameTag pile : Nat) (s : State) :
    Host.Outcome State Fault Refusal :=
  .next (takeRequest 0x31 frameTag (answerPileStatus pile) s)

/-- CANNON_STATUS. R109. -/
def execCannonStatus (frameTag cannon : Nat) (s : State) :
    Host.Outcome State Fault Refusal :=
  .next (takeRequest 0x32 frameTag (answerCannonStatus cannon) s)

/-- WATER_STATUS. R84. -/
def execWaterStatus (frameTag : Nat) (s : State) :
    Host.Outcome State Fault Refusal :=
  .next (takeRequest 0x33 frameTag answerWaterStatus s)

/-- WIND_STATUS. R15. -/
def execWindStatus (frameTag : Nat) (s : State) :
    Host.Outcome State Fault Refusal :=
  .next (takeRequest 0x34 frameTag answerWindStatus s)

/-- EPISODE_READ. R149. -/
def execEpisodeRead (frameTag slot : Nat) (s : State) :
    Host.Outcome State Fault Refusal :=
  .next (takeRequest 0x35 frameTag (answerEpisodeRead slot) s)

/-- DAY_TOTALS. R84. -/
def execDayTotals (frameTag : Nat) (s : State) :
    Host.Outcome State Fault Refusal :=
  .next (takeRequest 0x36 frameTag answerDayTotals s)

/-- ORDER_STATUS. R134. -/
def execOrderStatus (frameTag slot : Nat) (s : State) :
    Host.Outcome State Fault Refusal :=
  .next (takeRequest 0x37 frameTag (answerOrderStatus slot) s)

end Sys2Proof.Machine
end

