-- ==== Sys2Proof/Machine/Dispatch.lean ====
section
/-! DEFINITION. One arm for each row of spec/opcode_table.json. -/

namespace Sys2Proof.Machine

def exec (i : Instr) (s : State) : Host.Outcome State Fault Refusal :=
  match i with
  | .powerOnReset rate1 rate0 => Sys2Proof.Machine.execPowerOnReset rate1 rate0 s
  | .pulseEdge mast => Sys2Proof.Machine.execPulseEdge mast s
  | .gateExpiry vane0 vane1 => Sys2Proof.Machine.execGateExpiry vane0 vane1 s
  | .rainTip => Sys2Proof.Machine.execRainTip s
  | .bounceExpiry => Sys2Proof.Machine.execBounceExpiry s
  | .secondEvent => Sys2Proof.Machine.execSecondEvent s
  | .assessment => Sys2Proof.Machine.execAssessment s
  | .primingExpiry => Sys2Proof.Machine.execPrimingExpiry s
  | .rundownExpiry => Sys2Proof.Machine.execRundownExpiry s
  | .changeoverExpiry => Sys2Proof.Machine.execChangeoverExpiry s
  | .settleExpiry pond => Sys2Proof.Machine.execSettleExpiry pond s
  | .deliverySecond cannon => Sys2Proof.Machine.execDeliverySecond cannon s
  | .lostWaterExpiry cannon => Sys2Proof.Machine.execLostWaterExpiry cannon s
  | .slotExpiry => Sys2Proof.Machine.execSlotExpiry s
  | .feedbackChange cannon isOpen => Sys2Proof.Machine.execFeedbackChange cannon isOpen s
  | .travelExpiry cannon => Sys2Proof.Machine.execTravelExpiry cannon s
  | .machineStaleExpiry machine => Sys2Proof.Machine.execMachineStaleExpiry machine s
  | .resumeExpiry cannon => Sys2Proof.Machine.execResumeExpiry cannon s
  | .orderExpiry slot => Sys2Proof.Machine.execOrderExpiry slot s
  | .holdExpiry slot => Sys2Proof.Machine.execHoldExpiry slot s
  | .monitorStaleExpiry monitor => Sys2Proof.Machine.execMonitorStaleExpiry monitor s
  | .stopLineChange asserted => Sys2Proof.Machine.execStopLineChange asserted s
  | .receiveCharacter char framingError => Sys2Proof.Machine.execReceiveCharacter char framingError s
  | .gapExpiry => Sys2Proof.Machine.execGapExpiry s
  | .replyStart => Sys2Proof.Machine.execReplyStart s
  | .replySent => Sys2Proof.Machine.execReplySent s
  | .unknownKind kind frameTag => Sys2Proof.Machine.execUnknownKind kind frameTag s
  | .ident frameTag => Sys2Proof.Machine.execIdent frameTag s
  | .siteSetup frameTag site => Sys2Proof.Machine.execSiteSetup frameTag site s
  | .poolSplit frameTag forecast episodes orders => Sys2Proof.Machine.execPoolSplit frameTag forecast episodes orders s
  | .pileSetup frameTag pile action fields => Sys2Proof.Machine.execPileSetup frameTag pile action fields s
  | .cannonSetup frameTag cannon action fields => Sys2Proof.Machine.execCannonSetup frameTag cannon action fields s
  | .pondSetup frameTag pond action fields => Sys2Proof.Machine.execPondSetup frameTag pond action fields s
  | .monitorSetup frameTag monitor action fields => Sys2Proof.Machine.execMonitorSetup frameTag monitor action fields s
  | .attrib frameTag monitor sector count piles => Sys2Proof.Machine.execAttrib frameTag monitor sector count piles s
  | .mode frameTag target => Sys2Proof.Machine.execMode frameTag target s
  | .warmRestart frameTag => Sys2Proof.Machine.execWarmRestart frameTag s
  | .setTime frameTag time => Sys2Proof.Machine.execSetTime frameTag time s
  | .forecast frameTag issue issueTime count slots => Sys2Proof.Machine.execForecast frameTag issue issueTime count slots s
  | .reading frameTag monitor value => Sys2Proof.Machine.execReading frameTag monitor value s
  | .pondReport frameTag pond level quality service => Sys2Proof.Machine.execPondReport frameTag pond level quality service s
  | .machinePos frameTag machine rail chainage => Sys2Proof.Machine.execMachinePos frameTag machine rail chainage s
  | .mastService frameTag mast action => Sys2Proof.Machine.execMastService frameTag mast action s
  | .orderWet frameTag orderTag pile volume expiry => Sys2Proof.Machine.execOrderWet frameTag orderTag pile volume expiry s
  | .orderHold frameTag orderTag pile duration => Sys2Proof.Machine.execOrderHold frameTag orderTag pile duration s
  | .orderCancel frameTag orderTag => Sys2Proof.Machine.execOrderCancel frameTag orderTag s
  | .cannonService frameTag cannon action => Sys2Proof.Machine.execCannonService frameTag cannon action s
  | .ackAlert frameTag kind object => Sys2Proof.Machine.execAckAlert frameTag kind object s
  | .poll frameTag max => Sys2Proof.Machine.execPoll frameTag max s
  | .pileStatus frameTag pile => Sys2Proof.Machine.execPileStatus frameTag pile s
  | .cannonStatus frameTag cannon => Sys2Proof.Machine.execCannonStatus frameTag cannon s
  | .waterStatus frameTag => Sys2Proof.Machine.execWaterStatus frameTag s
  | .windStatus frameTag => Sys2Proof.Machine.execWindStatus frameTag s
  | .episodeRead frameTag slot => Sys2Proof.Machine.execEpisodeRead frameTag slot s
  | .dayTotals frameTag => Sys2Proof.Machine.execDayTotals frameTag s
  | .orderStatus frameTag slot => Sys2Proof.Machine.execOrderStatus frameTag slot s

end Sys2Proof.Machine
end

