-- ==== Sys2Proof/Machine/Step.lean ====
section
/-! DEFINITION. One step: the command at the front of the queue, and on an empty queue the part's own
crystal (log 2). -/

namespace Sys2Proof.Machine

/-- On an empty queue: an event that is due is taken, and where none is due one tick passes. -/
def idle (s : State) : Host.Outcome State Fault Refusal :=
  match chooseDue s with
  | some (i, t) => exec i t
  | none => .next (tick s)

/-- The command at the front of the queue is taken, with the rest of the queue left waiting. -/
def step (s : State) : Host.Outcome State Fault Refusal :=
  match s.pending with
  | i :: rest => exec i { s with pending := rest }
  | [] => idle s

/-- The command that the word spells is put at the front of the queue. The table gives no row any bits, so
no word spells one. -/
def State.withFetchWord (s : State) (nbits w : Nat) : State :=
  match Sys2Proof.decodeTableWord nbits w with
  | some i => { s with pending := i :: s.pending }
  | none => s

end Sys2Proof.Machine
end

