-- ==== Sys2Proof/Safety.lean ====
section
/-! DEFINITION. What a sound state of the GL-32 is, in the terms the statements use: each predicate is a
sentence the manual says of the whole part, "at every moment" or "never". Then what one step may do: the
frames, and what a grant pass, a close, a runoff and a tick leave behind them. -/

namespace Sys2Proof.Machine

/-- R172: the notice list never holds two entries of the same kind for the same object. -/
abbrev NoticesDistinct (s : State) : Prop := s.lc.notices.Nodup

/-- R27: the forecast table is strictly ordered by start time, on whole hours, within its capacity, and
holds no slot whose end is at or before the current yard time. -/
abbrev ForecastSound (s : State) : Prop :=
  s.ft.slots.Pairwise (fun f g => f.start < g.start) ∧
  s.ft.slots.length ≤ s.mau.split.forecast ∧
  ∀ f ∈ s.ft.slots, f.start % 3600 = 0 ∧ s.yc.time < f.start + 3600

/-- The sum of the speeds of the ring's samples from a sector (R10). -/
def ringSum (ring : List Sample) (n : Fin 16) : Nat :=
  ((ring.filter fun x => x.sector = n).map Sample.speed).sum

/-- R9, R10: the ring holds at most 200 samples, and each sector sum is the sum of the speeds of the ring's
samples from that sector. -/
abbrev WindSumsSound (s : State) : Prop :=
  s.wfe.ring.length ≤ 200 ∧ ∀ n, s.wfe.sums.get n = ringSum s.wfe.ring n

/-- What section 5.2's table says of one cannon's queued movement, travel countdown and lost-water
countdown in its state, and R94 to R98 of its filtered feedback. A LOCKED cannon's countdown runs only
over an open feedback. -/
abbrev ValveSound (s : State) (c : Fin 32) : Prop :=
  match (s.cannon c).phase with
  | .idle => queuedMovement s c = none ∧ (s.cannon c).travel = none ∧ (s.cannon c).lostWater = none ∧
      ((s.cannon c).configured = true → feedbackOpen s c = false)
  | .pendingOpen => queuedMovement s c = some .opens ∧ (s.cannon c).travel = none ∧
      (s.cannon c).lostWater = none ∧ feedbackOpen s c = false
  | .opening => queuedMovement s c ≠ some .opens ∧ (s.cannon c).travel.isSome ∧
      (s.cannon c).lostWater = none ∧ feedbackOpen s c = false
  | .spraying => queuedMovement s c = none ∧ (s.cannon c).travel = none ∧
      (s.cannon c).lostWater = none ∧ feedbackOpen s c = true
  | .closePending => queuedMovement s c = some .closes ∧ (s.cannon c).travel = none ∧
      (s.cannon c).lostWater = none ∧ feedbackOpen s c = true
  | .closing => queuedMovement s c = none ∧ (s.cannon c).travel.isSome ∧ (s.cannon c).lostWater = none
  | .stuck => queuedMovement s c = none ∧ (s.cannon c).travel = none ∧
      (s.cannon c).lostWater.isSome ∧ feedbackOpen s c = true
  | .faulted => queuedMovement s c = none ∧ (s.cannon c).travel = none ∧
      (s.cannon c).lostWater = none ∧ feedbackOpen s c = false
  | .locked => queuedMovement s c = none ∧ (s.cannon c).lostWater = none ∧
      (feedbackOpen s c = true ↔ (s.cannon c).travel.isSome)

/-- R87 to R98: every cannon's record agrees with its state, a cannon that is not configured is IDLE and
one that is has a flow of at least 10, the queue holds at most one entry for a cannon, and an entry waits
only while the slot countdown runs (R90). -/
abbrev ValvesSound (s : State) : Prop :=
  (∀ c, ValveSound s c) ∧ (∀ c, (s.cannon c).configured = false → (s.cannon c).phase = .idle) ∧
  (∀ c, (s.cannon c).configured = true → 10 ≤ (s.cannon c).config.flow) ∧
  (s.cc.queue.map Prod.fst).Nodup ∧ (s.cc.slot = none → s.cc.queue = [])

/-- The cannon of a run that is ACTIVE (R114). -/
abbrev RunSound (s : State) (c : Fin 32) : Prop :=
  match s.run c with
  | none => (s.cannon c).phase ≠ .pendingOpen ∧ (s.cannon c).phase ≠ .opening ∧
      (s.cannon c).phase ≠ .spraying ∧ (s.cannon c).phase ≠ .closePending
  | some r =>
    match r.phase with
    | .suspended _ _ _ => (s.cannon c).phase = .idle
    | .active _ delivery => (s.cannon c).phase.busy = true ∧
        (delivery.isSome ↔ (s.cannon c).phase = .spraying ∨ (s.cannon c).phase = .closePending)

/-- R113, R114, R117: an ACTIVE run has its cannon in a busy state, a SUSPENDED one in IDLE, water is
counted exactly in SPRAYING and CLOSE_PENDING, and no valve moves or stands open for no run but on its way
closed. -/
abbrev RunsSound (s : State) : Prop := ∀ c, RunSound s c

/-- R119: the reserved flow never exceeds the header capacity, except when what is reserved is held by
CLOSING and STUCK cannons alone. -/
abbrev HeaderSound (s : State) : Prop :=
  reservedFlow s ≤ capacity s ∨
  ∀ c, (s.cannon c).phase.reserves = true → (s.cannon c).phase = .closing ∨ (s.cannon c).phase = .stuck

/-- Everything drawn from the ponds and the fresh main in a day record. -/
def DayRecord.drawnTotal (r : DayRecord) : Nat := r.fresh + ((List.finRange 4).map fun p => (r.ponds.get p).drawn).sum

/-- R84: the water drawn equals the water delivered plus the water lost. -/
abbrev WaterSound (s : State) : Prop :=
  s.wiu.today.drawnTotal = s.wiu.today.delivered + s.wiu.today.lost ∧
  s.wiu.previous.drawnTotal = s.wiu.previous.delivered + s.wiu.previous.lost

/-- The slot holds a CLOSED order. -/
def closedOrder (s : State) (k : Nat) : Bool :=
  match s.order k with
  | some o => o.closure.isSome
  | none => false

/-- R133, R176: an ORDER notice is pending exactly for the CLOSED orders, whose slots its delivery frees. -/
abbrev OrderNoticesSound (s : State) : Prop :=
  (∀ k < s.sd.orders.length, (.order k ∈ s.lc.notices ↔ closedOrder s k = true)) ∧
  (∀ n ∈ s.lc.notices, ∀ k, n = .order k → k < s.sd.orders.length) ∧ s.lc.notices.Nodup

/-- R130: a pile's hold flag is set exactly while an OPEN HOLD order names it. -/
abbrev HoldsSound (s : State) : Prop := ∀ p, (s.pile p).hold = heldByOrder s p

/-- R148: a pile's escalated flag is set exactly while it belongs to the attributed set of an OPEN
episode. -/
abbrev EscalationSound (s : State) : Prop :=
  ∀ p : Fin 24, (s.pile p).escalated = (escalatedSet s).getLsbD p

/-- Slot k holds the OPEN episode of monitor m. -/
def openAt (s : State) (m : Fin 8) (k : Nat) : Bool :=
  match s.episode k with
  | some e => e.closure.isNone && e.monitor = m
  | none => false

/-- R138, R141, R159: a monitor's open episode is the one slot that holds an OPEN episode of that monitor, a
monitor with none counts nothing below its limit, one that is not configured has none, and the list has its
E slots, at least nine. -/
abbrev EpisodesSound (s : State) : Prop :=
  (∀ m, ∀ k < s.bwu.episodes.length, ((s.monitor m).openEpisode = some k ↔ openAt s m k = true)) ∧
  (∀ m, ∀ k ∈ (s.monitor m).openEpisode, k < s.bwu.episodes.length) ∧
  (∀ m, (s.monitor m).openEpisode = none → (s.monitor m).belowRun = 0) ∧
  (∀ m, (s.monitor m).configured = false → (s.monitor m).openEpisode = none) ∧
  s.bwu.episodes.length = s.mau.split.episodes ∧ 9 ≤ s.mau.split.episodes

/-- R157: while the STOP line is asserted the part is in LOCKDOWN. -/
abbrev StopObeyed (s : State) : Prop := stopAsserted s = true → s.mau.mode = .lockdown

/-- R110, R154: in LOCKDOWN no valve output is driven and no open waits; in STANDBY no open waits. -/
abbrev ModeSound (s : State) : Prop :=
  match s.mau.mode with
  | .standby => ∀ c, (s.cannon c).phase ≠ .pendingOpen
  | .lockdown => ∀ c, (s.cannon c).phase ≠ .pendingOpen ∧ valveDriven s c = false
  | .auto => True
  | .manual => True

/-- R129, R130, R135: no order is entered in STANDBY, and the entry to it closes every OPEN one, so that in
STANDBY no order slot holds an OPEN order. -/
abbrev OrdersObeyMode (s : State) : Prop :=
  s.mau.mode = .standby → ∀ k, ∀ o ∈ s.order k, o.closure.isSome = true

/-- R160: every entry's condition is the one its owner's state gives it. -/
abbrev AlertsSound (s : State) : Prop := ∀ e ∈ alertOrder, (s.mau.alerts.get e).condition = conditionOf s e

/-- R68, R69, R75: a source is active in every pump-set state but OFF, it is fit, and an interval runs in
PRIMING, RUNDOWN and CHANGEOVER alone. -/
abbrev PumpSound (s : State) : Prop :=
  match s.wiu.pump.phase with
  | .off => s.wiu.pump.source = none ∧ s.wiu.pump.interval = none
  | .running => (∃ src ∈ s.wiu.pump.source, fit s src = true) ∧ s.wiu.pump.interval = none
  | .priming => (∃ src ∈ s.wiu.pump.source, fit s src = true) ∧ s.wiu.pump.interval.isSome
  | .rundown => (∃ src ∈ s.wiu.pump.source, fit s src = true) ∧ s.wiu.pump.interval.isSome
  | .changeover => (∃ src ∈ s.wiu.pump.source, fit s src = true) ∧ s.wiu.pump.interval.isSome

/-- R46, R64: a pile's W lies within 0..20000, and a pond's volume within 0..capacity. -/
abbrev LevelsSound (s : State) : Prop :=
  (∀ p, (s.pile p).moisture ≤ 20000) ∧ ∀ p, (s.pond p).volume ≤ (s.pond p).config.capacity

/-! ## Frames -/

/-- What the valves, the runs, the orders and the pump set never touch: the pins, the clock, the wind, the
forecast, the episodes, the site, the machines, the waiting commands, the line but for its notices, the
mode and the split. -/
abbrev SprayFrame (s t : State) : Prop :=
  t.pins = s.pins ∧ t.yc = s.yc ∧ t.wfe = s.wfe ∧ t.ft = s.ft ∧ t.bwu = s.bwu ∧ t.site = s.site ∧
  t.cc.machines = s.cc.machines ∧ t.pau.countdown = s.pau.countdown ∧ t.pending = s.pending ∧
  t.freeCount = s.freeCount ∧ t.lc = { s.lc with notices := t.lc.notices } ∧
  t.mau = { s.mau with alerts := t.mau.alerts }

/-- The ponds and the day records are unchanged. -/
abbrev WaterFrame (s t : State) : Prop :=
  t.wiu.ponds = s.wiu.ponds ∧ t.wiu.today = s.wiu.today ∧ t.wiu.previous = s.wiu.previous

/-- Every pile is unchanged but for its hold flag, which follows the orders (R130). -/
abbrev PilesFrame (s t : State) : Prop := ∀ p, t.pile p = { s.pile p with hold := (t.pile p).hold }

/-- Every cannon keeps its configuration and its two flags. -/
abbrev CannonsFrame (s t : State) : Prop :=
  ∀ c, t.cannon c = { s.cannon c with
    phase := (t.cannon c).phase, travel := (t.cannon c).travel, lostWater := (t.cannon c).lostWater }

/-- A draw of q dL has been counted at the active source and in the day totals (R78 to R80). -/
abbrev Drawn (lost : Bool) (q : Nat) (s t : State) : Prop :=
  (∀ p, s.wiu.pump.source = some (.pond p) →
    (t.pond p).volume = (s.pond p).volume - q ∧
    (t.wiu.today.ponds.get p).drawn = Config.count48 ((s.wiu.today.ponds.get p).drawn + q) ∧
    ((s.pond p).volume < q → (t.wiu.today.ponds.get p).corrections =
      Config.signed48 ((s.wiu.today.ponds.get p).corrections + ((q : Int) - (s.pond p).volume))) ∧
    (q ≤ (s.pond p).volume →
      (t.wiu.today.ponds.get p).corrections = (s.wiu.today.ponds.get p).corrections)) ∧
  (∀ p, s.wiu.pump.source ≠ some (.pond p) →
    t.pond p = s.pond p ∧ t.wiu.today.ponds.get p = s.wiu.today.ponds.get p) ∧
  t.wiu.today.fresh = (if s.wiu.pump.source = some .fresh
    then Config.count48 (s.wiu.today.fresh + q) else s.wiu.today.fresh) ∧
  t.wiu.today.delivered = (if s.wiu.pump.source ≠ none ∧ lost = false
    then Config.count48 (s.wiu.today.delivered + q) else s.wiu.today.delivered) ∧
  t.wiu.today.lost = (if s.wiu.pump.source ≠ none ∧ lost = true
    then Config.count48 (s.wiu.today.lost + q) else s.wiu.today.lost) ∧
  t.wiu.today.day = s.wiu.today.day ∧ t.wiu.previous = s.wiu.previous

/-- R116: the run has left the cannon in the event. What the cannon carries, if anything, is a new run that a
pass has granted (R124). -/
abbrev RunLeft (c : Fin 32) (t : State) : Prop :=
  match t.run c with
  | none => (t.cannon c).phase = .idle
  | some x => x.delivered = 0 ∧ x.phase = .active .none none ∧
      ((t.cannon c).phase = .pendingOpen ∨ (t.cannon c).phase = .opening)

/-- R114: the cannon carries the run on, with END and the given delivery countdown. -/
abbrev RunEnding (c : Fin 32) (r : Run) (n : Option Nat) (t : State) : Prop :=
  t.run c = some { r with phase := .active .ends n }

/-- R118, R123, R130, R133, R135: an end has been decided for the run on the cannon, which goes on as r. A
SUSPENDED one has ended. An ACTIVE one has END and its close requested (R91): an open that waited is
withdrawn, and with it the run; in OPENING and SPRAYING the close waits in the queue, or has been issued where
the stagger slot stood free (R90, R92); a close under way goes on as it was. -/
abbrev EndDecided (c : Fin 32) (r : Run) (s t : State) : Prop :=
  match r.phase with
  | .suspended _ _ _ => RunLeft c t
  | .active _ n =>
    match (s.cannon c).phase with
    | .pendingOpen => RunLeft c t
    | .opening =>
      ((t.cannon c).phase = .opening ∧ queuedMovement t c = some .closes ∧ RunEnding c r n t) ∨
        (s.cc.slot = none ∧
          if feedbackOpen s c then (t.cannon c).phase = .closing ∧ RunEnding c r none t else RunLeft c t)
    | .spraying =>
      ((t.cannon c).phase = .closePending ∧ queuedMovement t c = some .closes ∧ RunEnding c r n t) ∨
        (s.cc.slot = none ∧ (t.cannon c).phase = .closing ∧ RunEnding c r none t)
    | .closePending | .closing => t.cannon c = s.cannon c ∧ RunEnding c r n t
    | .idle | .stuck | .faulted | .locked => True

/-- The run goes on as it was, or is a SUSPENDED one that a pass has resumed (R115, R124). -/
abbrev RunGoesOn (c : Fin 32) (r : Run) (t : State) : Prop :=
  t.run c = some r ∨ (r.isSuspended = true ∧ t.run c = some { r with phase := .active .none none })

/-- R133: the run as it is once every OPEN order of s has closed. -/
def Run.freed (r : Run) (s : State) : Run :=
  match r.origin with
  | .order k => if ∃ o ∈ s.order k, o.closure = none then { r with origin := .detached } else r
  | .auto => r
  | .detached => r

/-- The order in slot k has closed with the outcome: R133's four acts, and the hold flag of R130. Its runs are
detached and ended, and every other run goes on. -/
abbrev OrderClosed (k : Nat) (o : Order) (outcome : OrderOutcome) (s t : State) : Prop :=
  t.sd.orders = s.sd.orders.set k (some { o with countdown := none, closure := some ⟨outcome, now s⟩ }) ∧
  .order k ∈ t.lc.notices ∧
  (∀ c, ∀ r ∈ t.run c, r.origin ≠ .order k) ∧
  (ValvesSound s → RunsSound s → ∀ c, ∀ r ∈ s.run c, r.origin = .order k →
    EndDecided c { r with origin := .detached } s t) ∧
  (∀ c, ∀ r ∈ s.run c, r.origin ≠ .order k → RunGoesOn c r t) ∧
  (o.kind = .hold → (t.pile o.pile).hold = heldByOrder t o.pile)

/-- Exclusion has been evaluated (R106, R107): every configured cannon's flag is as the machine table says,
and a cannon newly excluded stands closed or is on its way closed. -/
abbrev ExclusionApplied (s t : State) : Prop :=
  (∀ c, (s.cannon c).configured = true → (t.cannon c).excluded = shouldExclude t c) ∧
  ∀ c, (s.cannon c).excluded = false → (t.cannon c).excluded = true →
    valveDriven t c = false ∧ (t.cannon c).phase ≠ .pendingOpen

/-- The day number d, that of the yard time that the event has left, has been tested against the recorded
one (R23), and the day closed off where it has passed it (R24, R83). -/
abbrev DayTested (d : Nat) (s t : State) : Prop :=
  match s.yc.recordedDay with
  | none => t.yc.recordedDay = some d ∧ t.wiu.today = { s.wiu.today with day := some d } ∧
      t.wiu.previous = s.wiu.previous
  | some r =>
    if r < d then
      t.yc.recordedDay = some d ∧ t.wiu.today = .empty (some d) ∧ t.wiu.previous = s.wiu.today ∧
      (∀ p, (t.pile p).deliveredToday = 0) ∧ .day ∈ t.lc.notices
    else t.yc.recordedDay = some r ∧ t.wiu.today = s.wiu.today ∧ t.wiu.previous = s.wiu.previous

/-- R33, R34: the clock is valid and the forecast not stale. -/
abbrev ForecastCurrent (s : State) : Prop :=
  s.yc.valid = true ∧ ∃ i ∈ s.ft.newestIssue, s.yc.time ≤ i + s.site.staleTime

/-- R126: the tier is one that the water state serves. -/
abbrev ServesTier (s : State) (tier : Nat) : Prop :=
  waterState s = .ample ∨ (waterState s = .lean ∧ tier ≤ 2) ∨ tier ≤ 1

/-- R125: order slot k holds an OPEN WET order. -/
abbrev OpenWetAt (s : State) (k : Nat) : Prop :=
  ∃ o ∈ s.order k, o.kind = .wet ∧ o.closure = none

/-! ## The grant pass

A turn is a candidate's place in the order of a pass, compared as words are in a dictionary: the step, what
orders the candidates of the step, and the cannon (R125, R126). -/

/-- R125: the turn, in step 1, of a cannon for order slot k: the orders by acceptance, and of one order the
resumptions before the new runs. -/
def orderTurn (s : State) (k : Nat) (resumes : Bool) (c : Fin 32) : List Int :=
  [0, ((s.order k).map Order.acceptance).getD 0, k, if resumes then 0 else 1, c.val]

/-- R126: the turn, in step 2, of a suspended AUTO run: by tier and then by suspension number. -/
def resumeTurn (r : Run) (c : Fin 32) : List Int := [1, r.tierNumber, r.suspensionNumber, c.val]

/-- R126: the turn, in step 3, of a cannon of a pile: by tier, then the greater open demand, then pile. -/
def pileTurn (s : State) (c : Fin 32) : List Int :=
  [2, (s.demand (s.cannon c).config.pile).tier.val, -(s.demand (s.cannon c).config.pile).volume,
    (s.cannon c).config.pile.val, c.val]

/-- The turn at which the run on the cannon is resumed. -/
def runTurn (s : State) (r : Run) (c : Fin 32) : List Int :=
  match r.origin with
  | .order k => orderTurn s k true c
  | .auto => resumeTurn r c
  | .detached => resumeTurn r c

/-- The turn at which a pass from s to t took the cannon, if it did: a run resumed, or a new one. -/
def turnTaken (s t : State) (c : Fin 32) : Option (List Int) :=
  match s.run c, t.run c with
  | some r, some x => if r.isSuspended && !x.isSuspended then some (runTurn s r c) else none
  | some _, none => none
  | none, some x =>
    match x.origin with
    | .order k => some (orderTurn s k false c)
    | .auto => some (pileTurn s c)
    | .detached => some (pileTurn s c)
  | none, none => none

/-- R125: order slot k has undelivered volume for the cannon's pile. -/
abbrev OrderWants (s : State) (k : Nat) (c : Fin 32) : Prop :=
  ∃ o ∈ s.order k, o.kind = .wet ∧ o.closure = none ∧ o.pile = (s.cannon c).config.pile ∧
    0 < undelivered s k o

/-- R126: in AUTO, the cannon's pile is one that step 3 serves and its open demand is enough for a run. -/
abbrev PileWants (s : State) (c : Fin 32) : Prop :=
  s.mau.mode = .auto ∧ (s.pile (s.cannon c).config.pile).hold = false ∧
  ServesTier s (s.demand (s.cannon c).config.pile).tier ∧
  0 < (s.demand (s.cannon c).config.pile).volume ∧
  s.site.minRun ≤ (s.demand (s.cannon c).config.pile).volume

/-- R125, R126: a suspended run that a pass may resume: of an OPEN WET order, or AUTO of a served tier. -/
abbrev RunServed (s : State) (r : Run) : Prop :=
  match r.origin with
  | .order k => OpenWetAt s k
  | .auto => ServesTier s r.tierNumber
  | .detached => False

/-- The turns that the cannon still waits for at t in a pass from s: each is one for which the cannon would
be taken if its flow fitted the header. -/
def turnsWaiting (s t : State) (c : Fin 32) : List (List Int) :=
  (if eligible t c then
    (((List.range t.sd.orders.length).filter fun k => decide (OrderWants t k c)).map
        fun k => orderTurn s k false c) ++
      if PileWants t c then [pileTurn s c] else []
  else []) ++
  if freeToResume t c then
    match t.run c with
    | some r =>
      match r.origin with
      | .order k => if OpenWetAt t k then [orderTurn s k true c] else []
      | .auto => if ServesTier t r.tierNumber then [resumeTurn r c] else []
      | .detached => []
    | none => []
  else []

/-- R125, R126: the cannon is one that a pass would take up if its flow fitted the header. -/
abbrev Wanted (s : State) (c : Fin 32) : Prop := turnsWaiting s s c ≠ []

/-- R119, R124 to R126: a grant pass has been made. Whatever cannon is still wanted is one whose flow the
header has no room for. -/
abbrev PassMade (s : State) : Prop :=
  ∀ c, Wanted s c → capacity s < reservedFlow s + (s.cannon c).config.flow

/-- The flow that a pass from s to t reserved at its turns before the given one. -/
def flowTakenBefore (s t : State) (turn : List Int) : Nat :=
  ((List.finRange 32).map fun x =>
    match turnTaken s t x with
    | some u => if u < turn then (s.cannon x).config.flow else 0
    | none => 0).sum

/-- The targets of the new runs, of those that pass the test, on the cannons that pass the other. -/
def newTargets (s t : State) (run : Run → Bool) (on : Fin 32 → Bool) : Nat :=
  ((List.finRange 32).map fun x =>
    match s.run x, t.run x with
    | none, some r => if run r && on x then r.target else 0
    | _, _ => 0).sum

/-- What is left, of the volume that the new run on the cannon is for, when its turn comes (R125, R126). -/
def leftAtTurn (s t : State) (r : Run) (c : Fin 32) : Nat :=
  match r.origin with
  | .order k =>
    ((s.order k).map (undelivered s k)).getD 0 -
      newTargets s t (fun x => x.origin = .order k) fun x => decide (x < c)
  | .auto =>
    (s.demand r.pile).volume -
      newTargets s t (fun x => x.origin = .auto && x.pile = r.pile) fun x => decide (x < c)
  | .detached => 0

/-- R119, R124 to R126: the grant pass that leads from s to t. A run it finds stands, or is a suspended one
that it resumes. A run it enters is of the cannon's pile, for an order or for the pile's open demand, with
the smaller of what is left and Qc times the maximum run time as its target. The open demands are spent by
the new AUTO runs. Whatever it took fitted the header beside what was taken at earlier turns, and whatever
it left waiting did not. -/
abbrev PassTaken (s t : State) : Prop :=
  (∀ c, ∀ r ∈ s.run c, t.run c = some r ∨
    (freeToResume s c = true ∧ RunServed s r ∧
      t.run c = some { r with phase := .active .none none })) ∧
  (∀ c, s.run c = none → ∀ r ∈ t.run c,
    eligible s c = true ∧ r.pile = (s.cannon c).config.pile ∧ r.delivered = 0 ∧
    r.phase = .active .none none ∧
    r.target = min (leftAtTurn s t r c) ((s.cannon c).config.flow * s.site.maxRun) ∧
    match r.origin with
    | .order k => r.tier = none ∧ OrderWants s k c ∧ 0 < leftAtTurn s t r c
    | .auto => r.tier = some (s.demand r.pile).tier ∧ PileWants s c ∧
        s.site.minRun ≤ leftAtTurn s t r c
    | .detached => False) ∧
  (∀ p, (t.demand p).tier = (s.demand p).tier ∧
    (t.demand p).volume = (s.demand p).volume -
      newTargets s t (fun x => x.origin = .auto && x.pile = p) fun _ => true) ∧
  (∀ c, ∀ u ∈ turnTaken s t c,
    reservedFlow s + flowTakenBefore s t u + (s.cannon c).config.flow ≤ capacity s) ∧
  (∀ c, ∀ u ∈ turnsWaiting s t c,
    capacity s < reservedFlow s + flowTakenBefore s t u + (s.cannon c).config.flow) ∧
  ∀ c, if turnTaken s t c = none then t.cannon c = s.cannon c
    else (t.cannon c).phase = .pendingOpen ∨ (t.cannon c).phase = .opening

/-- R71: what a start request leaves of the pump set where the pass from OFF to t found a candidate. -/
def pumpStarted (s t : State) : Pump :=
  if ∃ c, Wanted t c then
    match selection t with
    | some src => ⟨.priming, some src, some (Config.seconds s.site.priming)⟩
    | none => s.wiu.pump
  else s.wiu.pump

/-- R74: the pump set that has entered RUNDOWN on its source, after the idle re-selection. -/
def pumpIdle (s t : State) : Pump :=
  if s.wiu.pump.source ≠ none ∧ selection t = s.wiu.pump.source ∧ s.site.rundown ≠ 0 then
    ⟨.rundown, s.wiu.pump.source, some (Config.seconds s.site.rundown)⟩
  else ⟨.off, none, none⟩

/-- R75, R76: the pump set after a forced switch, by the selection of the water as t has it. -/
def pumpSwitched (s t : State) : Pump :=
  if s.mau.mode = .standby then ⟨.off, none, none⟩
  else
    match selection t with
    | some src => ⟨.changeover, some src, some (Config.seconds s.site.changeover)⟩
    | none => ⟨.off, none, none⟩

/-! ## What becomes of runs and valves -/

/-- R115: the suspension counter once n runs more have been suspended. -/
def suspensionsAfter (s : State) : Nat → Nat
  | 0 => s.sd.suspensions
  | n + 1 => Config.count48 (suspensionsAfter s n + 1)

/-- How many of the cannons below n pass the test. -/
def countBelow (n : Nat) (test : Fin 32 → Bool) : Nat :=
  ((List.finRange 32).filter fun x => decide (x.val < n) && test x).length

/-- The cannon carries an ACTIVE run that a SUSPEND disposition would suspend: END is not set (R114). -/
def carriesLiveRun (s : State) (c : Fin 32) : Bool :=
  match s.run c with
  | some r =>
    match r.phase with
    | .active d _ => d ≠ .ends
    | .suspended _ _ _ => false
  | none => false

/-- R114, R115: the run on the cannon was suspended in an event from s to t that has left the cannon in
IDLE. -/
def suspendedIn (s t : State) (c : Fin 32) : Bool := carriesLiveRun s c && (t.cannon c).phase = .idle

/-- R120, R121: a capacity loss or a header overload suspends the run on the cannon at once: its open waits,
or its valve is moving with the feedback still not-open (R96; log 12). -/
def suspendedAtOnce (s : State) (c : Fin 32) : Bool :=
  carriesLiveRun s c &&
    ((s.cannon c).phase = .pendingOpen || (s.cannon c).phase = .opening && !feedbackOpen s c)

/-- R114, R115, R127: the run on the cannon has taken SUSPEND with the cause, or keeps END; where the cannon
is back in IDLE that disposition has been applied. The runs that the event suspends take their numbers in
ascending order of cannon. A suspended run stands. -/
abbrev RunSuspends (cause : SuspendCause) (suspends : Fin 32 → Bool) (c : Fin 32) (s t : State) : Prop :=
  ∀ r ∈ s.run c,
    match r.phase with
    | .suspended _ _ _ => t.run c = some r
    | .active .ends _ =>
      if (t.cannon c).phase = .idle then t.run c = none
      else ∃ n, t.run c = some { r with phase := .active .ends n }
    | .active _ _ =>
      if (t.cannon c).phase ≠ .idle then
        ∃ n, t.run c = some { r with phase := .active (.suspend cause) n }
      else if s.site.resumeWindow = 0 then t.run c = none
      else t.run c = some { r with
        phase := .suspended cause (suspensionsAfter s (countBelow c suspends + 1))
          (Config.seconds s.site.resumeWindow) }

/-- R115: the suspension counter is the last number that the runs suspended in the event were given. -/
abbrev SuspensionsCounted (suspends : Fin 32 → Bool) (s t : State) : Prop :=
  t.sd.suspensions = suspensionsAfter s (countBelow 32 suspends)

/-- R107, R120: the run on the cannon has taken END. -/
abbrev RunEnds (c : Fin 32) (s t : State) : Prop :=
  ∀ r ∈ s.run c, ∃ n, t.run c = some { r with phase := .active .ends n }

/-- R93, R114: an immediate close has been taken on the cannon with a disposition for its run: withdrawn to
IDLE, or in CLOSING under travel supervision. An OPENING cannon whose feedback shows not-open has passed
through CLOSING to IDLE (R96; log 12). -/
abbrev ClosedAtOnce (cause : SuspendCause) (suspends : Fin 32 → Bool) (c : Fin 32) (s t : State) : Prop :=
  match (s.cannon c).phase with
  | .pendingOpen => (t.cannon c).phase = .idle ∧ RunSuspends cause suspends c s t
  | .opening =>
    ((t.cannon c).phase = if feedbackOpen s c then .closing else .idle) ∧ RunSuspends cause suspends c s t
  | .spraying => (t.cannon c).phase = .closing ∧
      (t.cannon c).travel = some (Config.seconds s.site.travel) ∧ RunSuspends cause suspends c s t
  | .closePending => (t.cannon c).phase = .closing ∧
      (t.cannon c).travel = some (Config.seconds s.site.travel) ∧ RunEnds c s t
  | x => (t.cannon c).phase = x

/-- R115, R120: a capacity loss has been taken. Cannons in CLOSING and suspended runs are untouched. -/
abbrev CapacityLost (s t : State) : Prop :=
  (∀ c, ClosedAtOnce .flow (suspendedAtOnce s) c s t ∧
    ((s.cannon c).phase.busy = false ∨ (s.cannon c).phase = .closing → t.run c = s.run c)) ∧
  SuspensionsCounted (suspendedAtOnce s) s t

/-- R121: a header overload has been taken at a cannon other than the one found open. A run that is back in
IDLE may have been resumed by the pass. -/
abbrev OverloadAnswered (c : Fin 32) (s t : State) : Prop :=
  match (s.cannon c).phase with
  | .spraying => ClosedAtOnce .flow (suspendedAtOnce s) c s t
  | .closePending => ClosedAtOnce .flow (suspendedAtOnce s) c s t
  | .closing => t.cannon c = s.cannon c ∧ t.run c = s.run c
  | .pendingOpen | .opening => ClosedAtOnce .flow (suspendedAtOnce s) c s t ∨
      ((t.cannon c).phase ≠ .closing ∧ ∀ r ∈ t.run c, r.phase = .active .none none)
  | .idle | .stuck | .faulted | .locked => True

/-! ## What becomes of an order at the end of a run -/

/-- R131, R133: the order closed DONE at the present time, its countdown stopped. -/
def Order.done (o : Order) (s : State) : Order :=
  { o with countdown := none, closure := some ⟨.done, now s⟩ }

/-- R131: the order is WET and OPEN and has its whole volume delivered. -/
abbrev Order.VolumeMet (o : Order) : Prop := o.kind = .wet ∧ o.closure = none ∧ o.volume ≤ o.delivered

/-- R116, R131, R133: the run r has ended on the cannon, and no other run in the event. The order it belongs
to, if it has its volume and no other run, is closed DONE with its notice pending; every other order, and an
order with volume undelivered, is as it was. -/
abbrev OrderTested (c : Fin 32) (r : Run) (s t : State) : Prop :=
  match r.origin with
  | .order k =>
    match s.order k with
    | some o =>
      if o.VolumeMet ∧ ∀ x, x ≠ c → ∀ y ∈ s.run x, y.origin ≠ .order k then
        t.sd.orders = s.sd.orders.set k (some (o.done s)) ∧ .order k ∈ t.lc.notices
      else t.sd.orders = s.sd.orders
    | none => t.sd.orders = s.sd.orders
  | .auto | .detached => t.sd.orders = s.sd.orders

/-- R116, R131: whatever run the cannon carried has ended, and no other in the event. -/
abbrev OrderTestedAt (c : Fin 32) (s t : State) : Prop :=
  match s.run c with
  | some r => OrderTested c r s t
  | none => t.sd.orders = s.sd.orders

/-- R116, R131, R133: the run ends of an event have been tested. An order with its volume whose runs have all
ended in it is closed DONE with its notice pending, and every other is as it was. -/
abbrev OrdersTested (s t : State) : Prop :=
  t.sd.orders.length = s.sd.orders.length ∧
  ∀ k, match s.order k with
    | some o =>
      if o.VolumeMet ∧ (∃ c, ∃ r ∈ s.run c, r.origin = .order k) ∧ ∀ c, ∀ r ∈ t.run c, r.origin ≠ .order k then
        t.order k = some (o.done s) ∧ .order k ∈ t.lc.notices
      else t.order k = some o
    | none => t.order k = none

/-- R116, R124: the run r has left the cannon, whose run, if any, is a new one of the event's pass, and the
order of r has been tested. -/
abbrev RunEnded (c : Fin 32) (r : Run) (s t : State) : Prop :=
  (∀ x ∈ t.run c, x.delivered = 0 ∧ x.phase = .active .none none) ∧ OrderTested c r s t

/-- R114 to R116, R124, R131: the cannon has returned to IDLE and its run's close disposition has been
applied. With SUSPEND the run is SUSPENDED under the next number, or already resumed by the event's pass; with
a resume window of 0, and with any other disposition, it has ended. -/
abbrev DispositionApplied (c : Fin 32) (s t : State) : Prop :=
  match s.run c with
  | some r =>
    match r.phase with
    | .active (.suspend cause) _ =>
      t.sd.suspensions = suspensionsAfter s 1 ∧
      if s.site.resumeWindow = 0 then RunEnded c r s t
      else t.sd.orders = s.sd.orders ∧
        ∃ x ∈ t.run c, x.delivered = r.delivered ∧ x.target = r.target ∧ x.origin = r.origin ∧
          (x.phase = .suspended cause (suspensionsAfter s 1) (Config.seconds s.site.resumeWindow) ∨
            x.phase = .active .none none)
    | .active _ _ => t.sd.suspensions = s.sd.suspensions ∧ RunEnded c r s t
    | .suspended _ _ _ => t.sd.suspensions = s.sd.suspensions ∧ t.sd.orders = s.sd.orders
  | none => t.sd.suspensions = s.sd.suspensions ∧ t.sd.orders = s.sd.orders

/-- R121, R127: cannon c, of the given flow, has become STUCK without having held a reservation, and whatever
suspended run it carried has ended. Where the header holds the flow nothing more is done; else the header
overload has been taken at every other cannon. -/
abbrev UnbiddenFlowAnswered (flow : Nat) (c : Fin 32) (s t : State) : Prop :=
  HeaderSound t ∧
  if reservedFlow s + flow ≤ capacity s then
    t.sd.suspensions = s.sd.suspensions ∧ OrderTestedAt c s t ∧
    (s.run c = none → t.sd.runs = s.sd.runs ∧ ∀ x, x ≠ c → t.cannon x = s.cannon x)
  else
    SuspensionsCounted (suspendedAtOnce s) s t ∧ OrdersTested s t ∧
    ∀ x, x ≠ c → OverloadAnswered x s t

/-- R104, R127: what a newly drift-blocked cannon has done: its open is withdrawn, or a close is queued, or
issued at once where the stagger slot stood free (R90), and its run takes SUSPEND with cause DRIFT. -/
abbrev DriftAnswered (c : Fin 32) (s t : State) : Prop :=
  RunSuspends .drift (suspendedIn s t) c s t ∧
  match (s.cannon c).phase with
  | .pendingOpen => (t.cannon c).phase = .idle
  | .opening =>
    ((t.cannon c).phase = .opening ∧ queuedMovement t c = some .closes) ∨
      (s.cc.slot = none ∧ (t.cannon c).phase = if feedbackOpen s c then .closing else .idle)
  | .spraying =>
    ((t.cannon c).phase = .closePending ∧ queuedMovement t c = some .closes) ∨
      (s.cc.slot = none ∧ (t.cannon c).phase = .closing)
  | x => (t.cannon c).phase = x

/-- R110, R112, R154: every valve has been closed for the entry to LOCKDOWN or the warm restart. A cannon
that was moving or spraying is in CLOSING, one that waited is in IDLE, and every other is as it was. -/
abbrev ValvesStopped (s t : State) : Prop :=
  ∀ c, t.cannon c =
    match (s.cannon c).phase with
    | .pendingOpen => { s.cannon c with phase := .idle, travel := none, lostWater := none }
    | .opening | .spraying | .closePending =>
      { s.cannon c with
        phase := .closing, travel := some (Config.seconds s.site.travel), lostWater := none }
    | .idle | .closing | .stuck | .faulted | .locked => s.cannon c

/-! ## Runoff -/

/-- R46: the runoff that an assessment posts at pond q. -/
def runoffTo (s : State) (q : Fin 4) : Nat :=
  ((List.finRange 24).map fun p =>
    if (s.pile p).configured && (s.pile p).config.drain = some q then
      (s.pile p).pendingSpray * (100 - (s.pile p).config.retention) / 100
    else 0).sum

/-- R64, R65: runoff of v dL in all has reached pond q, which is configured: held at the capacity, the
excess spilt, counted for the day and since the pond settled, and unsettling it at Vd. -/
abbrev RunoffTaken (q : Fin 4) (v : Nat) (s t : State) : Prop :=
  (t.pond q = { s.pond q with
    volume := min ((s.pond q).volume + v) (s.pond q).config.capacity
    runoff := if (s.pond q).config.settleTime = 0 then (s.pond q).runoff
      else min ((s.pond q).runoff + v) 4294967295
    settled := (t.pond q).settled
    settleCountdown := (t.pond q).settleCountdown }) ∧
  (if (s.pond q).config.settleTime ≠ 0 ∧
      ((s.pond q).settled = false ∨ (s.pond q).config.stirVolume ≤ (t.pond q).runoff) then
    (t.pond q).settled = false ∧
      (t.pond q).settleCountdown = some (Config.seconds (s.pond q).config.settleTime)
  else (t.pond q).settled = (s.pond q).settled ∧
    (t.pond q).settleCountdown = (s.pond q).settleCountdown) ∧
  ((s.wiu.today.ponds.get q).runoff + v < 2 ^ 48 →
    (s.wiu.today.ponds.get q).spill + ((s.pond q).volume + v) < 2 ^ 48 →
    t.wiu.today.ponds.get q = { s.wiu.today.ponds.get q with
      runoff := (s.wiu.today.ponds.get q).runoff + v
      spill := (s.wiu.today.ponds.get q).spill + ((s.pond q).volume + v - (s.pond q).config.capacity) })

/-! ## Time -/

/-- A countdown one tick later, if it runs. -/
def less (t : Option Nat) : Option Nat := t.map (· - 1)

/-- R1, R16, R94, R157: a level filter one tick later. The pin's level is taken when it has been held for
the filter's time, but for one whose taking is an event: that one waits for the event. -/
def FilterTicked (event : Bool) (time : Nat) (f g : LineFilter) : Prop :=
  g.pin = f.pin ∧ g.last = f.pin ∧
  if f.level = some f.pin then g.level = f.level ∧ g.held = 0
  else if event = true ∨ (if f.last = f.pin then f.held + 1 else 1) < time then
    g.level = f.level ∧ g.held = if f.last = f.pin then f.held + 1 else 1
  else g.level = some f.pin ∧ g.held = 0

/-- One tick of 200 microseconds (log 2): 1 less on every running countdown, a tick of every level filter,
and nothing else. -/
abbrev Ticked (s t : State) : Prop :=
  (∀ m, FilterTicked ((s.pins.pulse.get m).level = some true && !(s.pins.pulse.get m).pin) 1
    (s.pins.pulse.get m) (t.pins.pulse.get m)) ∧
  (∀ m i, FilterTicked false 1 ((s.pins.vane.get m).get i) ((t.pins.vane.get m).get i)) ∧
  FilterTicked (s.pins.rain.level = some true && !s.pins.rain.pin) 50 s.pins.rain t.pins.rain ∧
  (∀ c, FilterTicked (feedbackOpen s c != (s.pins.feedback.get c).pin) 100
    (s.pins.feedback.get c) (t.pins.feedback.get c)) ∧
  FilterTicked (stopAsserted s != s.pins.stop.pin) 100 s.pins.stop t.pins.stop ∧
  (∀ c, t.cannon c = { s.cannon c with
    travel := less (s.cannon c).travel, lostWater := less (s.cannon c).lostWater }) ∧
  (∀ m, t.machine m = { s.machine m with countdown := less (s.machine m).countdown }) ∧
  (∀ c, t.run c = (s.run c).map fun r => { r with phase :=
    match r.phase with
    | .active d n => .active d (less n)
    | .suspended x k n => .suspended x k (n - 1) }) ∧
  t.sd.orders = s.sd.orders.map (Option.map fun o => { o with countdown := less o.countdown }) ∧
  (∀ p, t.pond p = { s.pond p with settleCountdown := less (s.pond p).settleCountdown }) ∧
  (∀ m, t.monitor m = { s.monitor m with countdown := less (s.monitor m).countdown }) ∧
  t = { s with
    pins := { s.pins with
      pulse := t.pins.pulse, vane := t.pins.vane, rain := t.pins.rain
      feedback := t.pins.feedback, stop := t.pins.stop }
    lc := { s.lc with
      gap := less s.lc.gap, reply := s.lc.reply.map fun r => { r with left := r.left - 1 } }
    yc := { s.yc with second := s.yc.second - 1 }
    wfe := { s.wfe with gate := s.wfe.gate - 1, bounce := less s.wfe.bounce }
    pau := { s.pau with countdown := s.pau.countdown - 1 }
    cc := { s.cc with
      cannons := t.cc.cannons, machines := t.cc.machines, slot := less s.cc.slot }
    sd := { s.sd with runs := t.sd.runs, orders := t.sd.orders }
    wiu := { s.wiu with
      ponds := t.wiu.ponds, pump := { s.wiu.pump with interval := less s.wiu.pump.interval } }
    bwu := { s.bwu with monitors := t.bwu.monitors } }

/-- The pin has held, for the filter's time, a level other than the filtered one. -/
abbrev HeldFor (time : Nat) (f : LineFilter) : Prop :=
  f.level ≠ some f.pin ∧ f.last = f.pin ∧ time ≤ f.held

/-- The event is due: its countdown runs and stands at 0, or its filter has held the new level for its full
time (R1, R16, R94, R157), or it is the confirming of a close whose feedback shows not-open already (R96;
log 28). No request and no event from outside is ever due. -/
def Due (s : State) : Instr → Prop
  | .gateExpiry v w => s.wfe.gate = 0 ∧ v = vaneLines s 0 ∧ w = vaneLines s 1
  | .bounceExpiry => s.wfe.bounce = some 0
  | .secondEvent => s.yc.second = 0
  | .assessment => s.pau.countdown = 0
  | .primingExpiry => s.wiu.pump.phase = .priming ∧ s.wiu.pump.interval = some 0
  | .rundownExpiry => s.wiu.pump.phase = .rundown ∧ s.wiu.pump.interval = some 0
  | .changeoverExpiry => s.wiu.pump.phase = .changeover ∧ s.wiu.pump.interval = some 0
  | .settleExpiry p => (s.pond p).settleCountdown = some 0
  | .deliverySecond c => ∃ r ∈ s.run c,
      match r.phase with
      | .active _ n => n = some 0
      | .suspended _ _ _ => False
  | .resumeExpiry c => ∃ r ∈ s.run c,
      match r.phase with
      | .active _ _ => False
      | .suspended _ _ n => n = 0
  | .lostWaterExpiry c => (s.cannon c).lostWater = some 0
  | .travelExpiry c => (s.cannon c).travel = some 0
  | .slotExpiry => s.cc.slot = some 0
  | .machineStaleExpiry m => (s.machine m).countdown = some 0
  | .orderExpiry k => ∃ o ∈ s.order k, o.kind = .wet ∧ o.closure = none ∧ o.countdown = some 0
  | .holdExpiry k => ∃ o ∈ s.order k, o.kind = .hold ∧ o.closure = none ∧ o.countdown = some 0
  | .monitorStaleExpiry m => (s.monitor m).countdown = some 0
  | .gapExpiry => s.lc.gap = some 0
  | .replyStart => ∃ r ∈ s.lc.reply, r.sending = false ∧ r.left = 0
  | .replySent => ∃ r ∈ s.lc.reply, r.sending = true ∧ r.left = 0
  | .pulseEdge m => (s.pins.pulse.get m).level = some true ∧ (s.pins.pulse.get m).pin = false ∧
      HeldFor 1 (s.pins.pulse.get m)
  | .rainTip => s.pins.rain.level = some true ∧ s.pins.rain.pin = false ∧ HeldFor 50 s.pins.rain
  | .feedbackChange c b =>
    (feedbackOpen s c ≠ (s.pins.feedback.get c).pin ∧ HeldFor 100 (s.pins.feedback.get c) ∧
      b = (s.pins.feedback.get c).pin) ∨
    ((s.cannon c).configured = true ∧ (s.cannon c).phase = .closing ∧ feedbackOpen s c = false ∧
      b = false)
  | .stopLineChange b => stopAsserted s ≠ s.pins.stop.pin ∧ HeldFor 100 s.pins.stop ∧
      b = s.pins.stop.pin
  | .powerOnReset _ _ | .receiveCharacter _ _ | .unknownKind _ _ | .ident _ | .siteSetup _ _
  | .poolSplit _ _ _ _ | .pileSetup _ _ _ _ | .cannonSetup _ _ _ _ | .pondSetup _ _ _ _
  | .monitorSetup _ _ _ _ | .attrib _ _ _ _ _ | .mode _ _ | .warmRestart _ | .setTime _ _
  | .forecast _ _ _ _ _ | .reading _ _ _ | .pondReport _ _ _ _ _ | .machinePos _ _ _ _
  | .mastService _ _ _ | .orderWet _ _ _ _ _ | .orderHold _ _ _ _ | .orderCancel _ _
  | .cannonService _ _ _ | .ackAlert _ _ _ | .poll _ _ | .pileStatus _ _ | .cannonStatus _ _
  | .waterStatus _ | .windStatus _ | .episodeRead _ _ | .dayTotals _ | .orderStatus _ _ => False

/-! ## The line -/

/-- R166, R167: 10 ms to the next character's start bit and the ten bit times of that character, in ticks of
200 microseconds (logs 2 and 29). -/
def gapFor : LineRate → Nat
  | .r19200 => 53
  | .r38400 => 52
  | .r57600 => 51
  | .r115200 => 51

/-- R187: the content length of a notice's entry in the reply to POLL. -/
def noticeLength : Notice → Nat
  | .risk _ => 26
  | .order _ => 34
  | .episode _ => 30
  | .alert _ => 6
  | .source => 5
  | .mode => 2
  | .day => 9

/-- Bytes received one after another, none with a framing error (R167). -/
def receiveAll : List Byte → State → Host.Outcome State Fault Refusal
  | [], s => .next s
  | b :: rest, s =>
    match exec (.receiveCharacter b false) s with
    | .next t => receiveAll rest t
    | .fault f => .fault f
    | .refused r => .refused r

/-- R180: the request lengths that do not depend on a count. -/
def requestLength : Nat → Option Nat
  | 0x01 => some 0
  | 0x02 => some 57
  | 0x03 => some 3
  | 0x04 => some 29
  | 0x05 => some 14
  | 0x06 => some 29
  | 0x07 => some 7
  | 0x09 => some 1
  | 0x0A => some 0
  | 0x10 => some 4
  | 0x12 => some 3
  | 0x13 => some 7
  | 0x14 => some 4
  | 0x15 => some 2
  | 0x20 => some 11
  | 0x21 => some 7
  | 0x22 => some 2
  | 0x23 => some 2
  | 0x24 => some 2
  | 0x30 => some 1
  | 0x31 => some 1
  | 0x32 => some 1
  | 0x33 => some 0
  | 0x34 => some 0
  | 0x35 => some 1
  | 0x36 => some 0
  | 0x37 => some 1
  | _ => none

/-- R180: the reply lengths that do not depend on a count, by request kind. -/
def replyLength : Nat → Option Nat
  | 0x01 => some 26
  | 0x02 => some 57
  | 0x03 => some 4
  | 0x04 => some 29
  | 0x05 => some 17
  | 0x06 => some 33
  | 0x07 => some 19
  | 0x08 => some 5
  | 0x09 => some 2
  | 0x0A => some 0
  | 0x10 => some 11
  | 0x11 => some 19
  | 0x12 => some 5
  | 0x13 => some 10
  | 0x14 => some 10
  | 0x15 => some 4
  | 0x20 => some 36
  | 0x21 => some 36
  | 0x22 => some 36
  | 0x23 => some 4
  | 0x24 => some 9
  | 0x31 => some 71
  | 0x32 => some 35
  | 0x33 => some 203
  | 0x34 => some 25
  | 0x35 => some 33
  | 0x36 => some 293
  | _ => none

end Sys2Proof.Machine
end

