-- ==== Sys2Proof/Certificates/Slice0/Obligations.lean ====
section
/-! DEFINITION. The statements for the provers, in the terms of Sys2Proof/Safety.lean: the step and the
state after reset, the invariants that every step keeps, what each command does and what it leaves, and
the requests on the line. -/

open Sys2Proof Sys2Proof.Machine

/-- A step is exec of the command at the front of the queue. 95_what_each_step_holds.md, R170.
Where it rests on the model's choices: log 1. -/
def Obligations.StepTakesTheFrontCommand : Prop :=
  ∀ (i : Instr) (rest : List Instr) (s : State), s.pending = i :: rest →
    step s = exec i { s with pending := rest }

/-- With nothing waiting, an event that is due is taken, and where none is due one tick passes;
what a tick does and what is due. 00_scope.md: Conventions, Time, 95_what_each_step_holds.md,
R1, R2, R16, R20, R42, R94, R115, R117, R157, R170. Where it rests on the model's choices: logs
2, 3, 28. -/
def Obligations.IdleStepFollowsTheCrystal : Prop :=
  (∀ s : State, s.pending = [] →
    (dueEvents s = [] → step s = .next (tick s)) ∧
    (∀ i, dueEvents s = [i] → step s = exec i s) ∧
    (2 ≤ (dueEvents s).length →
      ∃ i ∈ dueEvents s, step s = exec i { s with freeCount := s.freeCount + 1 })) ∧
    (∀ s : State, Ticked s (tick s)) ∧
    ∀ (s : State) (i : Instr), i ∈ dueEvents s ↔ Due s i

/-- The state after power-on reset holds the values of the tables of each chapter and every
default of the site parameters. R18, R26, R36, R59, R85, R111, R136, R151, R163, R177,
00_scope.md: the table of site parameters. Where it rests on the model's choices: logs 4, 5. -/
def Obligations.ResetStateHoldsTheStatedValues : Prop :=
  (State.reset.wfe.gate = Config.seconds 3 ∧ State.reset.wfe.ring = [] ∧
      (∀ n, State.reset.wfe.sums.get n = 0) ∧ State.reset.wfe.selected = none ∧
      State.reset.wfe.bounce = none ∧
      State.reset.wfe.published = ⟨100, 100, .unknown, .design, false⟩ ∧
      (∀ m, State.reset.mast m = ⟨0, none, 0, false, false⟩) ∧
      (∀ m, (State.reset.pins.pulse.get m).level = none) ∧ State.reset.pins.rain.level = none) ∧
    State.reset.yc = ⟨0, false, none, Config.seconds 1⟩ ∧
    State.reset.ft = ⟨[], none⟩ ∧
    (State.reset.pau.countdown = Config.seconds 60 ∧
      ∀ p, State.reset.pile p = ⟨false, ⟨0, 1, 100, 100, 0, none, .fill 16 0, 0⟩, 0, 0, 0, 0, false, false, none⟩) ∧
    ((∀ p, State.reset.pond p =
        ⟨false, ⟨1, 0, 100, 0, 0, 1, p, 0⟩, 0, true, none, 0, true, true⟩) ∧
      State.reset.wiu.pump = ⟨.off, none, none⟩ ∧ capacity State.reset = 0 ∧
      usableWater State.reset = 0 ∧ waterState State.reset = .short ∧
      noUsableSource State.reset = true ∧ (∀ src ∈ sources, sourceDriven State.reset src = false) ∧
      State.reset.wiu.today = ⟨none, 0, .fill 4 ⟨0, 0, 0, 0, 0⟩, 0, 0⟩ ∧
      State.reset.wiu.previous = State.reset.wiu.today) ∧
    ((∀ c, State.reset.cannon c =
        ⟨false, ⟨0, 10, none, 0, 0, 600, BitVec.allOnes 16⟩, .idle, none, none, false, false⟩) ∧
      (∀ c, feedbackOpen State.reset c = false) ∧ State.reset.cc.queue = [] ∧
      State.reset.cc.slot = none ∧ ∀ m, State.reset.machine m = ⟨false, 0, 0, none, false⟩) ∧
    ((∀ c, State.reset.run c = none) ∧ State.reset.sd.orders = List.replicate 8 none ∧
      (∀ p, State.reset.demand p = ⟨0, 3⟩) ∧ State.reset.sd.suspensions = 0 ∧
      State.reset.sd.acceptances = 0) ∧
    ((∀ m, State.reset.monitor m = ⟨false, 1, 2, 60, none, none, 0, none, false, none⟩) ∧
      State.reset.bwu.episodes = List.replicate 16 none ∧
      (∀ m n, (State.reset.bwu.map.get m).get n = 0) ∧ State.reset.bwu.nextId = 1 ∧
      State.reset.bwu.closures = 0) ∧
    (State.reset.mau.mode = .standby ∧ State.reset.mau.cause = none ∧
      stopAsserted State.reset = false ∧ State.reset.mau.split = ⟨48, 16, 8⟩ ∧
      ∀ e ∈ alertOrder, State.reset.mau.alerts.get e =
        if e = .windDegraded ∨ e = .timeInvalid ∨ e = .waterShort then ⟨true, true, none⟩
        else ⟨false, false, none⟩) ∧
    State.reset.lc.rx = .hunt ∧ State.reset.lc.buffer = [] ∧ State.reset.lc.reply = none ∧
    State.reset.lc.notices = [.alert .windDegraded, .alert .timeInvalid, .alert .waterShort] ∧
    noticeLow State.reset = true ∧ ldeHigh State.reset = false ∧
    State.reset.site = {
      mast1Fitted := false, kcal0 := 75, ocal0 := 0, kcal1 := 75, ocal1 := 0, designWind := 100
      gaugeFitted := false, tipDepth := 200, dayOffset := 0, staleTime := 21600, horizon := 3
      baseDrying := 4, windDrying := 2, band := 20, escalationBand := 15, severeMargin := 30
      stagger := 5, travel := 8, machines := 0, machineStale := 60, guardZone := 20
      resumeWindow := 600, maxRun := 300, minRun := 2000, freshRate := 0, freshAllocation := 0
      priming := 45, rundown := 120, changeover := 20, lean := 5000000, short := 1000000 }

/-- Every invariant stated below holds of the state after power-on reset. R10, R27, R84, R114,
R119, R133, R135, R148, R154, R160, R172. Where it rests on the model's choices: log 5. -/
def Obligations.ResetStateIsSound : Prop :=
  NoticesDistinct State.reset ∧ ForecastSound State.reset ∧ WindSumsSound State.reset ∧
    ValvesSound State.reset ∧ RunsSound State.reset ∧ HeaderSound State.reset ∧
    WaterSound State.reset ∧ OrderNoticesSound State.reset ∧ HoldsSound State.reset ∧
    EscalationSound State.reset ∧ EpisodesSound State.reset ∧
    (StopObeyed State.reset ∧ ModeSound State.reset ∧ OrdersObeyMode State.reset) ∧
        PumpSound State.reset ∧
    LevelsSound State.reset ∧ AlertsSound State.reset

/-- The notice list never holds two entries of the same kind for the same object. R172, R174,
R177. -/
def Obligations.NoticesStayDistinct : Prop :=
  ∀ s t : State, NoticesDistinct s →
    step s = .next t → NoticesDistinct t

/-- The forecast table stays strictly ordered, within its capacity, and free of ended slots.
R27, R30, R32, R36. -/
def Obligations.ForecastTableStaysOrdered : Prop :=
  ∀ s t : State, ForecastSound s →
    step s = .next t → ForecastSound t

/-- The wind window holds at most 200 samples and each sector sum stays the sum over the ring.
R9, R10. -/
def Obligations.SectorSumsStayTheRingsSums : Prop :=
  ∀ s t : State, WindSumsSound s →
    step s = .next t → WindSumsSound t

/-- Every cannon's queued movement, countdowns and feedback stay as the table of its states
says. R88, R90, R94, R95, R96, R97, R98. -/
def Obligations.CannonRecordsStayConsistent : Prop :=
  ∀ s t : State, ValvesSound s →
    step s = .next t → ValvesSound t

/-- ACTIVE runs have busy cannons, SUSPENDED runs IDLE ones, and water is counted exactly while
spraying. R113, R114, R115, R117. Where it rests on the model's choices: log 9. -/
def Obligations.RunsStayOnTheirCannons : Prop :=
  ∀ s t : State, ValvesSound s → RunsSound s →
    step s = .next t → RunsSound t

/-- The reserved flow never exceeds the header capacity but by CLOSING and STUCK cannons alone.
R119, R120, R121. Where it rests on the model's choices: log 9. -/
def Obligations.ReservedFlowStaysWithinCapacity : Prop :=
  ∀ s t : State, ValvesSound s → RunsSound s → HeaderSound s →
    step s = .next t → HeaderSound t

/-- The water drawn equals the water delivered plus the water lost, in both day records. R78,
R79, R82, R84. Where it rests on the model's choices: log 6. -/
def Obligations.WaterDrawnStaysWaterCounted : Prop :=
  ∀ s t : State, WaterSound s →
    (∀ c p, s.wiu.today.fresh + (s.cannon c).config.flow < 2 ^ 48 ∧
      (s.wiu.today.ponds.get p).drawn + (s.cannon c).config.flow < 2 ^ 48 ∧
      s.wiu.today.delivered + (s.cannon c).config.flow < 2 ^ 48 ∧
      s.wiu.today.lost + (s.cannon c).config.flow < 2 ^ 48) →
    step s = .next t → WaterSound t

/-- An ORDER notice is pending exactly for the CLOSED orders, and hold flags follow the OPEN HOLD
orders. R130, R133, R176. -/
def Obligations.ClosedOrdersKeepTheirNotices : Prop :=
  (∀ s t : State, OrderNoticesSound s → step s = .next t →
    OrderNoticesSound t ∧ (HoldsSound s → HoldsSound t)) ∧
    ∀ (p : Fin 24) (s : State), heldByOrder s p = true ↔
      ∃ k, ∃ o ∈ s.order k, o.kind = .hold ∧ o.closure = none ∧ o.pile = p

/-- A pile is escalated exactly while it belongs to the attributed set of an OPEN episode. R148,
R152, R153. -/
def Obligations.EscalationStaysTheOpenEpisodesUnion : Prop :=
  (∀ s t : State, EscalationSound s →
    step s = .next t → EscalationSound t) ∧
    ∀ (p : Fin 24) (s : State), (escalatedSet s).getLsbD p = true ↔
      ∃ k, ∃ e ∈ s.episode k, e.closure = none ∧ e.piles.getLsbD p = true

/-- A monitor's open episode is the one slot that holds an OPEN episode of that monitor. R138,
R141, R146. -/
def Obligations.MonitorsStayLinkedToTheirEpisodes : Prop :=
  ∀ s t : State, EpisodesSound s →
    step s = .next t → EpisodesSound t

/-- STOP asserted means LOCKDOWN; in LOCKDOWN no valve is driven; in STANDBY and LOCKDOWN no
open waits; in STANDBY no order is OPEN. R92, R110, R129, R130, R135, R154, R157. -/
def Obligations.StopAndModeStayObeyed : Prop :=
  ∀ s t : State, step s = .next t →
    (StopObeyed s → StopObeyed t) ∧ (ModeSound s → ModeSound t) ∧
    (OrdersObeyMode s → OrdersObeyMode t)

/-- In every pump-set state but OFF a source is active and fit, and the owned interval runs.
R64, R68, R69, R75, R76. Where it rests on the model's choices: log 19. -/
def Obligations.PumpKeepsAFitSource : Prop :=
  ∀ s t : State, LevelsSound s → PumpSound s →
    step s = .next t → PumpSound t

/-- Every pile's W stays within 0..20000 and every pond's volume within its capacity. R46, R64. -/
def Obligations.LevelsStayInRange : Prop :=
  ∀ s t : State, LevelsSound s →
    step s = .next t → LevelsSound t

/-- Each alert condition stays what its owner's state says; a latch and its time stand until
they are acknowledged. R14, R25, R33, R81, R99, R105, R139, R160, R162. Where it rests on the
model's choices: log 10. -/
def Obligations.AlertConditionsStayTheirOwners : Prop :=
  (∀ s t : State, AlertsSound s → step s = .next t → AlertsSound t) ∧
    (∀ (i : Instr) (e : AlertId) (s t : State), (∀ a b, i ≠ .powerOnReset a b) →
      (∀ tag, i ≠ .ackAlert tag e.kindCode e.objectCode) →
      (∀ b x, i = .receiveCharacter b x → s.lc.rx ≠ .trailer) →
      (∀ r ∈ s.lc.reply, r.restart = false) → exec i s = .next t →
      ((s.mau.alerts.get e).latch = true → (t.mau.alerts.get e).latch = true ∧
          (t.mau.alerts.get e).firstLatch = (s.mau.alerts.get e).firstLatch) ∧
      ((s.mau.alerts.get e).latch = false → (t.mau.alerts.get e).latch = true →
        (t.mau.alerts.get e).firstLatch = now t ∧ .alert e ∈ t.lc.notices) ∧
      ((s.mau.alerts.get e).condition = false → (t.mau.alerts.get e).condition = true →
        (t.mau.alerts.get e).latch = true ∧ .alert e ∈ t.lc.notices) ∧
      (AlertsSound s → e ≠ .noWater → e ≠ .waterShort → conditionOf t e = conditionOf s e →
        t.mau.alerts.get e = s.mau.alerts.get e))

/-- Only a gate expiry and the power-on reset change the wind window, the selected mast and the
published wind. R2, R9, R12, R13, R19. Where it rests on the model's choices: log 15. -/
def Obligations.WindChangesOnlyAtAGateExpiry : Prop :=
  ∀ (i : Instr) (s t : State), (∀ v w, i ≠ .gateExpiry v w) → (∀ a b, i ≠ .powerOnReset a b) →
    exec i s = .next t →
    t.wfe.ring = s.wfe.ring ∧ t.wfe.sums = s.wfe.sums ∧ t.wfe.selected = s.wfe.selected ∧
    t.wfe.published = s.wfe.published ∧ t.wfe.gate = s.wfe.gate

/-- A refused request changes no state of the part and is answered by its refusal frame. R170,
R171, R179. Where it rests on the model's choices: logs 4, 13. -/
def Obligations.RefusedRequestChangesNothing : Prop :=
  ∀ (i : Instr) (r : Request) (s : State) (why : Reason), encodeRequest i = some r →
    s.lc.reply = none → answerOf i s = .refused why →
    exec i s = .next (startReply (frame 0x7F r.frameTag (le 1 r.kind ++ le 1 why.code ++
      match why with
      | .notConfigured f => f.bytes
      | _ => [])) false s)

/-- Reading the bytes of a well-formed request gives the request back. R178, R180, R181, R182,
R183. -/
def Obligations.RequestsSurviveTheLine : Prop :=
  ∀ (i : Instr) (r : Request), i.WellFormed → countsAgree i = true →
    encodeRequest i = some r → readRequest r.kind r.frameTag r.body = some i

/-- The bytes of a well-formed frame, received one by one in HUNT, are taken as the request they
carry. R166, R167, R168, R169, R170, R179. Where it rests on the model's choices: logs 2, 4, 29. -/
def Obligations.FramesAreTakenAsTheirRequests : Prop :=
  ∀ (i : Instr) (r : Request) (s : State), i.WellFormed → countsAgree i = true →
    encodeRequest i = some r → s.lc.rx = .hunt → s.lc.reply = none →
    receiveAll (frame r.kind r.frameTag r.body) s =
      exec i { s with lc := { s.lc with
        rx := .trailer, buffer := frame r.kind r.frameTag r.body, gap := some (gapFor s.lc.rate) } }

/-- A body of the wrong length is answered BAD_LENGTH, and every reply body has the length of
the table. R170, R171, R180, R181, R185, R187. Where it rests on the model's choices: logs 4,
13. -/
def Obligations.BodyLengthsFollowTheTable : Prop :=
  (∀ (kind tag n : Nat) (b : List Byte), requestLength kind = some n →
      (readRequest kind tag b = none ↔ b.length ≠ n)) ∧
    (∀ (tag : Nat) (b : List Byte),
      (readRequest 0x08 tag b = none ↔ b.length < 3 ∨ b.length ≠ 3 + field b 2 1) ∧
      (readRequest 0x11 tag b = none ↔ b.length < 9 ∨ b.length ≠ 9 + 10 * field b 8 1)) ∧
    (∀ (kind tag : Nat) (body : List Byte) (b : Byte) (s : State),
      kind < 256 → tag < 256 → body.length ≤ 512 →
      ((∃ n ∈ requestLength kind, body.length ≠ n) ∨
        (kind = 0x08 ∧ (body.length < 3 ∨ body.length ≠ 3 + field body 2 1)) ∨
        (kind = 0x11 ∧ (body.length < 9 ∨ body.length ≠ 9 + 10 * field body 8 1))) →
      s.lc.rx = .trailer → s.lc.reply = none → s.lc.buffer ++ [b] = frame kind tag body →
      exec (.receiveCharacter b false) s = .next (startReply (refusal kind tag .badLength) false
        { s with lc := { s.lc with buffer := frame kind tag body } })) ∧
    (∀ (i : Instr) (r : Request) (s t : State) (body : List Byte) (n : Nat),
      encodeRequest i = some r → answerOf i s = .accepted t body → replyLength r.kind = some n →
      body.length = n) ∧
    (∀ (tag k : Nat) (s t : State) (body : List Byte),
      answerOf (.orderStatus tag k) s = .accepted t body →
      body.length = 40 + 6 * (orderRuns s k).length) ∧
    (∀ (n : Notice) (s : State), (noticeEntry s n).length = 4 + noticeLength n ∧
      ((noticeEntry s n).drop 3).head? = some (BitVec.ofNat 8 (noticeLength n))) ∧
    ∀ (tag n : Nat) (s t : State) (body : List Byte),
      answerOf (.poll tag n) s = .accepted t body →
      body.length = 2 + ((s.lc.notices.take n).map fun x => 4 + noticeLength x).sum

/-- PULSE_EDGE counts at a fitted mast; an accepted RAIN_TIP wets every pile and pond;
BOUNCE_EXPIRY ends the interval. R1, R16, R17, R64, R65. Where it rests on the model's choices:
logs 8, 15, 23, 27. -/
def Obligations.PulseAndRainEdgesAreCounted : Prop :=
  (∀ (m : Fin 2) (s : State),
      exec (.pulseEdge m) s = .next
        (if fitted s m then
        (setPulseLow m s).setMast m { s.mast m with pulses := min ((s.mast m).pulses + 1) 4095 }
      else setPulseLow m s)) ∧
    (∀ (s : State),
      exec (.bounceExpiry) s = .next
        (s.setWfe { s.wfe with bounce := none })) ∧
    (∀ (s : State),
      s.site.gaugeFitted = true →
      s.wfe.bounce = none →
      ∃ t, exec (.rainTip) s = .next t ∧
        t.wfe = { s.wfe with bounce := some 2500 } ∧
        (∀ p, t.pile p = { s.pile p with
        pendingRain := (s.pile p).pendingRain + if (s.pile p).configured then s.site.tipDepth else 0
        hold := (t.pile p).hold }) ∧
        (∀ q, (s.pond q).configured = true → 0 < (s.pond q).config.catchment →
        (t.pond q).volume = min ((s.pond q).volume + s.site.tipDepth * (s.pond q).config.catchment / 100)
          (s.pond q).config.capacity ∧
        (t.wiu.today.ponds.get q).rain = Config.count48 ((s.wiu.today.ponds.get q).rain +
          s.site.tipDepth * (s.pond q).config.catchment / 100) ∧
        (t.wiu.today.ponds.get q).spill = Config.count48 ((s.wiu.today.ponds.get q).spill +
          ((s.pond q).volume + s.site.tipDepth * (s.pond q).config.catchment / 100 -
            (s.pond q).config.capacity)) ∧
        (0 < (s.pond q).config.settleTime → (t.pond q).settled = false ∧
          (t.pond q).settleCountdown = some (Config.seconds (s.pond q).config.settleTime))) ∧
        (∀ q, (s.pond q).configured = false ∨ (s.pond q).config.catchment = 0 →
        t.pond q = s.pond q ∧ t.wiu.today.ponds.get q = s.wiu.today.ponds.get q) ∧
        t.yc = s.yc ∧
        t.ft = s.ft ∧
        t.bwu = s.bwu ∧
        t.site = s.site ∧
        t.mau.mode = s.mau.mode) ∧
    (∀ (s : State),
      (s.site.gaugeFitted = false ∨ s.wfe.bounce ≠ none) →
      exec (.rainTip) s = .next
        ((setRainLow s).setPass false))

/-- At a gate expiry each fitted mast gets its sample, its zero-run count and its suspicion. R2,
R3, R4, R5, R6. Where it rests on the model's choices: logs 8, 15, 21. -/
def Obligations.GateExpiryFormsTheSamples : Prop :=
  ∀ (v0 v1 : BitVec 4) (s : State),
    ∃ t, exec (.gateExpiry v0 v1) s = .next t ∧
      (∀ m, fitted s m = true →
        (∃ x ∈ (t.mast m).sample, ([0, 1, 3, 2, 6, 7, 5, 4, 12, 13, 15, 14, 10, 11, 9, 8] : List (BitVec 4))[x.sector.val]? = some (if m = 0 then v0 else v1) ∧
          x.speed = min (if (s.mast m).pulses = 0 then 0
          else ((s.mast m).pulses * s.site.kcal m + 15) / 30 + s.site.ocal m) 600 ∧
          x.saturated = decide (600 < (if (s.mast m).pulses = 0 then 0
          else ((s.mast m).pulses * s.site.kcal m + 15) / 30 + s.site.ocal m))) ∧
        (t.mast m).pulses = 0 ∧
        (t.mast m).zeroRun = (if (s.mast m).pulses = 0 then min ((s.mast m).zeroRun + 1) 100 else 0) ∧
        (t.mast m).declaredOut = (s.mast m).declaredOut ∧
        ((t.mast m).suspect = true ↔
          ((s.mast m).suspect = true ∧ (s.mast m).pulses = 0) ∨
          ((t.mast m).zeroRun = 100 ∧ fitted s (otherMast m) = true ∧
            ¬((s.mast (otherMast m)).suspect = true ∧ (s.mast (otherMast m)).pulses = 0) ∧
            ∃ y ∈ (t.mast (otherMast m)).sample, 20 ≤ y.speed))) ∧
      (∀ m, fitted s m = false → t.mast m = s.mast m)

/-- A gate expiry chooses the mast, enters its sample, publishes the wind, judges every cannon's
drift and closes the blocked. R2, R8, R9, R10, R11, R12, R13, R14, R34, R103, R104, R115, R127,
R131 (06_spray_dispatch.md). Where it rests on the model's choices: logs 6, 8, 12, 15. -/
def Obligations.GateExpiryPublishesTheWind : Prop :=
  (∀ (v0 v1 : BitVec 4) (s : State),
      ∃ t, exec (.gateExpiry v0 v1) s = .next t ∧
        t.wfe.gate = Config.seconds 3 ∧
        (t.wfe.selected = (if mastUsable t 0 then some 0 else if mastUsable t 1 then some 1 else none)) ∧
        (∀ m ∈ t.wfe.selected, ∀ x ∈ (t.mast m).sample,
        t.wfe.ring = (if s.wfe.ring.length < 200 then s.wfe.ring else s.wfe.ring.drop 1) ++ [x]) ∧
        (t.wfe.selected = none → t.wfe.ring = s.wfe.ring ∧ t.wfe.sums = s.wfe.sums) ∧
        (t.wfe.published =
        (if t.wfe.selected.isSome ∧ 20 ≤ t.wfe.ring.length then
          ⟨(t.wfe.sums.rows.sum + t.wfe.ring.length / 2) / t.wfe.ring.length,
            (t.wfe.ring.map Sample.speed).foldl max 0, t.wfe.prevailing, .live,
            t.wfe.ring.any Sample.saturated⟩
        else
          match currentSlot s with
          | some f => ⟨f.mean, f.gust,
              match f.sector with
              | some n => .sector n
              | none => .calm, .forecast, t.wfe.ring.any Sample.saturated⟩
          | none => ⟨s.site.designWind, s.site.designWind, .unknown, .design,
              t.wfe.ring.any Sample.saturated⟩)) ∧
        (t.wfe.published.source = .live → t.wfe.published.mean < 5 →
            t.wfe.published.direction = .calm) ∧
        (t.wfe.published.source = .live → 5 ≤ t.wfe.published.mean →
        ∃ n, t.wfe.published.direction = .sector n ∧
          (∀ m, t.wfe.sums.get m ≤ t.wfe.sums.get n) ∧
          ∀ x ∈ t.wfe.ring.getLast?,
            if ∀ m, t.wfe.sums.get m ≤ t.wfe.sums.get x.sector then n = x.sector
            else ∀ m, m < n → t.wfe.sums.get m < t.wfe.sums.get n) ∧
        t.mau.alerts.windDegraded.condition = decide (t.wfe.published.source ≠ .live) ∧
        (∀ c, (s.cannon c).configured = true → (t.cannon c).driftBlocked =
        if (s.cannon c).driftBlocked then
          !(decide (t.wfe.published.gust ≤ (s.cannon c).config.driftLimit - 20) &&
            sectorPasses (s.cannon c).config.mask t.wfe.published.direction)
        else decide ((s.cannon c).config.driftLimit < t.wfe.published.gust) ||
          !sectorPasses (s.cannon c).config.mask t.wfe.published.direction) ∧
        (ValvesSound s → RunsSound s → ∀ c, (s.cannon c).configured = true →
        (s.cannon c).driftBlocked = false → (t.cannon c).driftBlocked = true →
            DriftAnswered c s t) ∧
        (ValvesSound s → RunsSound s → SuspensionsCounted (suspendedIn s t) s t) ∧
        OrdersTested s t ∧
        t.yc = s.yc ∧
        t.ft = s.ft ∧
        t.bwu = s.bwu ∧
        t.site = s.site ∧
        WaterFrame s t ∧
        PilesFrame s t) ∧
    (∀ (f : Slot) (s : State), currentSlot s = some f →
      ForecastCurrent s ∧ f ∈ s.ft.slots ∧ f.start ≤ s.yc.time ∧ s.yc.time < f.start + 3600) ∧
    (∀ s : State, currentSlot s = none →
      ¬ ForecastCurrent s ∨
        ∀ f ∈ s.ft.slots, s.yc.time < f.start ∨ f.start + 3600 ≤ s.yc.time) ∧
    (∀ s : State, forecastIsStale s = true ↔ s.yc.valid = true ∧ ¬ ForecastCurrent s) ∧
    (∀ (m : Fin 2) (s : State), mastUsable s m = true ↔
      (m = 0 ∨ s.site.mast1Fitted = true) ∧ (s.mast m).suspect = false ∧
        (s.mast m).declaredOut = false) ∧
    (∀ (mask : BitVec 16) (d : Direction), sectorPasses mask d = true ↔
      match d with
      | .sector n => mask.getLsbD n = true
      | .calm => True
      | .unknown => ∀ n < 16, mask.getLsbD n = true)

/-- A second event advances a valid clock, tests the day, and purges the forecast at an hour
boundary. R20, R21, R23, R24, R32, R33, R83. Where it rests on the model's choices: log 8. -/
def Obligations.SecondEventAdvancesTheClock : Prop :=
  (∀ (s : State),
      s.yc.valid = false →
      ∃ t, exec (.secondEvent) s = .next t ∧
        t.yc = { s.yc with second := Config.seconds 1 } ∧
        t.ft = s.ft ∧
        WaterFrame s t ∧
        PilesFrame s t ∧
        t.wfe = s.wfe ∧
        t.bwu = s.bwu ∧
        t.site = s.site) ∧
    (∀ (s : State),
      s.yc.valid = true →
      ∃ t, exec (.secondEvent) s = .next t ∧
        t.yc.second = Config.seconds 1 ∧
        (t.yc.time = (if s.yc.time < 0xFFFFFFFE then s.yc.time + 1 else 0xFFFFFFFE)) ∧
        t.yc.valid = decide (s.yc.time < 0xFFFFFFFD) ∧
        DayTested (dayNumber t.yc.time s.site.dayOffset) s t ∧
        t.ft.newestIssue = s.ft.newestIssue ∧
        (t.ft.slots = (if t.yc.time % 3600 = 0 then
          s.ft.slots.filter fun f => decide (t.yc.time < f.start + 3600) else s.ft.slots)) ∧
        t.mau.alerts.forecastStale.condition = forecastIsStale t ∧
        t.mau.alerts.timeInvalid.condition = !t.yc.valid ∧
        t.wiu.ponds = s.wiu.ponds ∧
        t.wfe = s.wfe ∧
        t.bwu = s.bwu ∧
        t.site = s.site) ∧
    (∀ time offset : Nat,
      dayNumber time offset = if time < offset then 0 else (time - offset) / 86400)

/-- Each configured pile's film, threshold, margin, class, peak, required moisture, deficit,
demand, tier and qualifiers. R42, R43, R44, R45, R46, R47, R48, R49, R50, R51, R52, R35, R53,
R54, R55 (02_yard_clock_and_forecast_table.md, 03_pile_moisture_and_lift_risk.md). Where it rests
on the model's choices: log 8. -/
def Obligations.AssessmentComputesItsStages : Prop :=
  (∀ (s : State),
      ∃ t, exec (.assessment) s = .next t ∧
        t.pau.countdown = Config.seconds 60 ∧
        (∀ p, (s.pile p).configured = true → ∃ r ∈ (t.pile p).results,
        r.exposed = ((3 * s.wfe.published.mean + s.wfe.published.gust + 2) / 4 *
          (match s.wfe.published.direction with
            | .sector n => (s.pile p).config.exposure.get n
            | .calm => 16
            | .unknown => (s.pile p).config.exposure.rows.foldl max 0) + 8) / 16 ∧
        (t.pile p).moisture = min ((s.pile p).moisture -
            (s.site.baseDrying * (2 + 2 * (match currentSlot s with
              | some f => f.dryingClass
              | none => 1)) / 4 + r.exposed * s.site.windDrying / 64) +
            (s.pile p).pendingSpray * (s.pile p).config.retention / (s.pile p).config.area +
            (s.pile p).pendingRain) 20000 ∧
        r.threshold = (s.pile p).config.t0 + (s.pile p).config.s * (t.pile p).moisture / 1000 ∧
        r.margin = (r.exposed : Int) - r.threshold ∧
        r.risk = (if r.margin ≤ -(bandOf s.site (s.pile p).escalated : Int) then .quiet
          else if r.margin ≤ 0 then .watch
          else if r.margin ≤ s.site.severeMargin then .lift
          else .severe) ∧
        r.peak = (match lookAhead s with
          | none => r.exposed
          | some (list, _) => (list.map fun f => ((3 * f.mean + f.gust + 2) / 4 *
              (match f.sector with
                | some n => (s.pile p).config.exposure.get n
                | none => 16) + 8) / 16).foldl max r.exposed) ∧
        r.required = min (ceilDiv ((r.peak + bandOf s.site (s.pile p).escalated -
            (s.pile p).config.t0) * 1000) (s.pile p).config.s) (s.pile p).config.wcap ∧
        r.deficit = r.required - (t.pile p).moisture ∧
        r.demand = ceilDiv (r.deficit * (s.pile p).config.area) (s.pile p).config.retention ∧
        r.tier = (if (s.pile p).escalated = true ∧ 0 < r.demand then 0
          else if r.risk = .lift ∨ r.risk = .severe then 1
          else if r.risk = .watch then 2 else 3) ∧
        r.time = now s ∧
        (r.qualifiers.uncovered = true ↔ 0 < r.demand ∧ r.tier.val ≤ 1 ∧
          ∀ c, (s.cannon c).configured = true → (s.cannon c).config.pile = p →
            eligible s c = false ∧ ∀ x ∈ s.run c, x.isSuspended = true) ∧
        r.qualifiers = { r.qualifiers with
          windForecast := decide (s.wfe.published.source = .forecast)
          windDesign := decide (s.wfe.published.source = .design)
          noForecast := (match lookAhead s with
            | none => true
            | some (list, _) => list.isEmpty && decide (0 < s.site.horizon))
          forecastGap := (match lookAhead s with
            | none => false
            | some (_, gap) => gap)
          speedSaturated := s.wfe.published.saturated
          reqClamped := decide ((s.pile p).config.wcap < ceilDiv ((r.peak +
            bandOf s.site (s.pile p).escalated - (s.pile p).config.t0) * 1000) (s.pile p).config.s)
          escalated := (s.pile p).escalated })) ∧
    (∀ (v : Site) (escalated : Bool),
      bandOf v escalated = v.band + if escalated then v.escalationBand else 0) ∧
    (∀ s : State, lookAhead s = none ↔ ¬ ForecastCurrent s) ∧
    (∀ (list : List Slot) (gap : Bool) (s : State), lookAhead s = some (list, gap) →
      (list = s.ft.slots.filter fun f => decide (s.yc.time - s.yc.time % 3600 ≤ f.start ∧
        f.start < s.yc.time - s.yc.time % 3600 + s.site.horizon * 3600)) ∧
      (gap = true ↔ ∃ k < s.site.horizon, ∀ f ∈ s.ft.slots,
        f.start ≠ s.yc.time - s.yc.time % 3600 + k * 3600))

/-- An assessment spends the pending water, posts RISK at a change of class, hands every demand
and posts the runoff to the ponds. R42, R46, R48, R55, R56, R64, R65, R82, R116, R123, R126.
Where it rests on the model's choices: logs 8, 17, 23, 24, 27. -/
def Obligations.AssessmentHandsItsDemands : Prop :=
  ∀ (s : State),
    ∃ t, exec (.assessment) s = .next t ∧
      (∀ p, (s.pile p).configured = true → ∃ r ∈ (t.pile p).results,
        t.pile p = { s.pile p with
          moisture := (t.pile p).moisture, pendingSpray := 0, pendingRain := 0,
          results := some r, hold := (t.pile p).hold } ∧
        (.risk p ∈ t.lc.notices ↔
          .risk p ∈ s.lc.notices ∨ (s.pile p).results.map Results.risk ≠ some r.risk) ∧
        (t.demand p).tier = r.tier ∧ (t.demand p).volume = r.demand -
          outstandingOf t (fun x => x.origin = .auto && x.pile = p) ∧
        (r.demand = 0 → ∀ c, ∀ x ∈ t.run c, x.origin = .auto → x.pile = p →
          ∃ n, x.phase = .active .ends n)) ∧
      (∀ p, (s.pile p).configured = false →
        t.pile p = { s.pile p with hold := (t.pile p).hold } ∧ t.demand p = ⟨0, (s.demand p).tier⟩ ∧
        (.risk p ∈ t.lc.notices ↔ .risk p ∈ s.lc.notices)) ∧
      (ValvesSound s → RunsSound s → ∀ c, ∀ x ∈ s.run c, x.origin = .auto →
        ((s.pile x.pile).configured = true → ∀ r ∈ (t.pile x.pile).results, r.demand = 0) →
        EndDecided c x s t) ∧
      (∀ q, (∀ p, (s.pile p).configured = true → (s.pile p).config.drain ≠ some q) →
          t.pond q = s.pond q) ∧
      (∀ q, if (s.pond q).configured = true ∧ 0 < runoffTo s q then RunoffTaken q (runoffTo s q) s t
        else t.pond q = s.pond q ∧ t.wiu.today.ponds.get q = s.wiu.today.ponds.get q) ∧
      t.wiu.today = { s.wiu.today with ponds := t.wiu.today.ponds } ∧
      t.wiu.previous = s.wiu.previous ∧
      t.yc = s.yc ∧
      t.wfe = s.wfe ∧
      t.ft = s.ft ∧
      t.bwu = s.bwu ∧
      t.site = s.site ∧
      t.pins = s.pins

/-- Priming and changeover end in RUNNING with a grant pass, or in the idle re-selection; rundown
ends in OFF. R70, R72, R73, R74, R76, R108, R113, R119, R122, R124, R125, R126
(06_spray_dispatch.md), R69, R89 (04_water_sources_and_the_pump_set.md,
05_cannons_valves_and_machines.md). Where it rests on the model's choices: logs 8, 9. -/
def Obligations.PumpIntervalsEndAsStated : Prop :=
  (∀ (s : State),
      s.wiu.pump.phase = .priming →
      ∃ t, exec (.primingExpiry) s = .next t ∧
        .source ∈ t.lc.notices ∧
        PassMade t ∧
        PassTaken (s.setPump ⟨.running, s.wiu.pump.source, none⟩) t ∧
        (headerBusy t = true → t.wiu.pump = ⟨.running, s.wiu.pump.source, none⟩) ∧
        (headerBusy t = false → t.wiu.pump = pumpIdle s t) ∧
        SprayFrame s t ∧
        WaterFrame s t ∧
        PilesFrame s t ∧
        CannonsFrame s t) ∧
    (∀ (s : State),
      s.wiu.pump.phase = .changeover →
      ∃ t, exec (.changeoverExpiry) s = .next t ∧
        .source ∈ t.lc.notices ∧
        PassMade t ∧
        PassTaken (s.setPump ⟨.running, s.wiu.pump.source, none⟩) t ∧
        (headerBusy t = true → t.wiu.pump = ⟨.running, s.wiu.pump.source, none⟩) ∧
        (headerBusy t = false → t.wiu.pump = pumpIdle s t) ∧
        SprayFrame s t ∧
        WaterFrame s t ∧
        PilesFrame s t ∧
        CannonsFrame s t) ∧
    (∀ (s : State),
      s.wiu.pump.phase = .rundown →
      headerBusy s = false →
      exec (.rundownExpiry) s = .next
        (post .source ((s.setPass false).setPump ⟨.off, none, none⟩))) ∧
    (∀ (c : Fin 32) (s : State),
      (eligible s c = true ↔ (s.cannon c).configured = true ∧ (s.cannon c).phase = .idle ∧
        (s.cannon c).excluded = false ∧ (s.cannon c).driftBlocked = false ∧
        (s.pile (s.cannon c).config.pile).configured = true ∧
        (s.mau.mode = .auto ∨ s.mau.mode = .manual) ∧ s.run c = none) ∧
      (freeToResume s c = true ↔ (s.cannon c).configured = true ∧ (s.cannon c).phase = .idle ∧
        (s.cannon c).excluded = false ∧ (s.cannon c).driftBlocked = false ∧
        (s.pile (s.cannon c).config.pile).configured = true ∧
        (s.mau.mode = .auto ∨ s.mau.mode = .manual) ∧ ∃ r ∈ s.run c, r.isSuspended = true)) ∧
    (∀ s : State, capacity s =
      if s.wiu.pump.phase = .running ∨ s.wiu.pump.phase = .rundown then
        match s.wiu.pump.source with
        | some (.pond p) => (s.pond p).config.flow
        | some .fresh => s.site.freshRate
        | none => 0
      else 0) ∧
    (∀ s : State, reservedFlow s =
      ((List.finRange 32).map fun c =>
        if (s.cannon c).phase ∈ [.pendingOpen, .opening, .spraying, .closePending, .closing, .stuck] then
          (s.cannon c).config.flow
        else 0).sum) ∧
    (∀ s : State, headerBusy s = true ↔
      ∃ c, (s.cannon c).phase ∈ [.pendingOpen, .opening, .spraying, .closePending, .closing]) ∧
    (∀ (c : Fin 32) (s : State), valveDriven s c = true ↔
      (s.cannon c).phase ∈ [.opening, .spraying, .closePending]) ∧
    (∀ (src : Source) (s : State), sourceDriven s src = true ↔
      s.wiu.pump.phase ≠ .off ∧ s.wiu.pump.source = some src)

/-- SETTLE_EXPIRY and POND_REPORT: the pond as stated; a start on a pond become usable; a forced
switch from an unfit source; selection. R65, R66, R68, R70, R71, R75, R76, R81, R114, R115, R120,
R122, R131 (06_spray_dispatch.md), R184. Where it rests on the model's choices: logs 4, 6, 8, 9,
12, 13. -/
def Obligations.PondSettlesAndIsReported : Prop :=
  (∀ (p : Fin 4) (s : State),
      (s.pond p).settleCountdown ≠ none →
      ∃ t, exec (.settleExpiry p) s = .next t ∧
        (ValvesSound s → s.wiu.pump.phase = .off → fit s (.pond p) = true →
            usable s (.pond p) = false →
        t.wiu.pump = pumpStarted s t) ∧
        t.pond p = { s.pond p with settled := true, settleCountdown := none, runoff := 0 } ∧
        (∀ q, q ≠ p → t.pond q = s.pond q) ∧
        t.wiu.today = s.wiu.today ∧
        t.wiu.previous = s.wiu.previous ∧
        SprayFrame s t ∧
        PilesFrame s t ∧
        CannonsFrame s t) ∧
    (∀ (tag : Nat) (p : Fin 4) (level q v : Nat) (s : State),
      s.lc.reply = none →
      (s.pond p).configured = true →
      (q = 0 ∨ q = 1 ∨ q = 0xFF) →
      (v = 0 ∨ v = 1 ∨ v = 0xFF) →
      ∃ t, exec (.pondReport tag p level q v) s = .next (startReply (acceptance 0x13 tag
          (le 1 p ++ le 4 (t.pond p).volume ++ flagByte (!(t.pond p).settled) ++
            flagByte (!(t.pond p).clear) ++ flagByte (!(t.pond p).inService) ++
            flagByte (fit t (.pond p)) ++ flagByte (usable t (.pond p)))) false t) ∧
        (t.pond p = { s.pond p with
        volume := if level = 0xFFFFFFFF then (s.pond p).volume else min level (s.pond p).config.capacity
        clear := if q = 0xFF then (s.pond p).clear else decide (q = 0)
        inService := if v = 0xFF then (s.pond p).inService else decide (v = 0) }) ∧
        (∀ x, x ≠ p → t.pond x = s.pond x) ∧
        (t.wiu.today = { s.wiu.today with
        ponds := if level = 0xFFFFFFFF then s.wiu.today.ponds
          else s.wiu.today.ponds.set p { s.wiu.today.ponds.get p with
            corrections := Config.signed48 ((s.wiu.today.ponds.get p).corrections +
              (((t.pond p).volume : Int) - (s.pond p).volume)) } }) ∧
        t.wiu.previous = s.wiu.previous ∧
        (s.wiu.pump.source = some (.pond p) → s.wiu.pump.phase ≠ .off → fit s (.pond p) = true →
        fit t (.pond p) = false → t.wiu.pump.source ≠ some (.pond p)) ∧
        (ValvesSound s → RunsSound s → s.wiu.pump.source = some (.pond p) →
            fit s (.pond p) = true → fit t (.pond p) = false →
        s.wiu.pump.phase = .priming ∨ s.wiu.pump.phase = .running ∨ s.wiu.pump.phase = .rundown →
        t.wiu.pump = pumpSwitched s t ∧ CapacityLost s t ∧ .source ∈ t.lc.notices) ∧
        (ValvesSound s → s.wiu.pump.source = some (.pond p) → fit s (.pond p) = true →
            fit t (.pond p) = false →
        s.wiu.pump.phase = .changeover → s.mau.mode ≠ .standby →
        t.wiu.pump = pumpSwitched s t ∧ t.sd.runs = s.sd.runs ∧ t.cc = s.cc ∧
            .source ∈ t.lc.notices) ∧
        OrdersTested s t ∧
        SprayFrame s t ∧
        PilesFrame s t ∧
        CannonsFrame s t) ∧
    (∀ (tag i l q v : Nat) (s : State),
      s.lc.reply = none →
      (4 ≤ i ∨ (2 ≤ q ∧ q ≠ 0xFF) ∨ (2 ≤ v ∧ v ≠ 0xFF)) →
      exec (.pondReport tag i l q v) s = .next
        (startReply (refusal 0x13 tag .outOfRange) false s)) ∧
    (∀ (tag : Nat) (p : Fin 4) (l q v : Nat) (s : State),
      s.lc.reply = none →
      (s.pond p).configured = false →
      (q = 0 ∨ q = 1 ∨ q = 0xFF) →
      (v = 0 ∨ v = 1 ∨ v = 0xFF) →
      exec (.pondReport tag p l q v) s = .next
        (startReply (refusal 0x13 tag .noSuchObject) false s)) ∧
    (∀ (src : Source) (s : State),
      (fit s src = true ↔
        match src with
        | .pond p => (s.pond p).configured = true ∧ (s.pond p).clear = true ∧
            (s.pond p).inService = true ∧ (s.pond p).config.floor < (s.pond p).volume
        | .fresh => 0 < s.site.freshRate ∧ s.wiu.today.fresh < s.site.freshAllocation) ∧
      (usable s src = true ↔ fit s src = true ∧ ∀ p, src = .pond p → (s.pond p).settled = true)) ∧
    (∀ s : State,
      match selection s with
      | some (.pond p) => usable s (.pond p) = true ∧ ∀ q, usable s (.pond q) = true →
          (s.pond p).config.priority ≤ (s.pond q).config.priority
      | some .fresh => usable s .fresh = true ∧ ∀ q, usable s (.pond q) = false
      | none => ∀ src, usable s src = false) ∧
    (∀ s : State, usableWater s =
      ((List.finRange 4).map fun p =>
        if (s.pond p).configured = true ∧ (s.pond p).clear = true ∧ (s.pond p).inService = true then
          (s.pond p).volume - (s.pond p).config.floor
        else 0).sum +
      if s.site.freshRate = 0 then 0 else s.site.freshAllocation - s.wiu.today.fresh) ∧
    (∀ s : State, waterState s =
      if usableWater s < s.site.short then .short
      else if usableWater s < s.site.lean then .lean else .ample) ∧
    (∀ s : State, noUsableSource s = true ↔ ∀ src, usable s src = false)

/-- A delivery second adds Qc to run, pile, order, day and draw, restarts, and ends full runs
and full orders' runs; lost water is drawn. R40, R75, R78, R79, R80, R91, R98, R115, R117, R118,
R120. Where it rests on the model's choices: logs 6, 8, 12, 16, 24. -/
def Obligations.WaterSecondsAreCountedEverywhere : Prop :=
  (∀ (c : Fin 32) (r : Run) (d : Disposition) (n : Nat) (s : State),
      s.run c = some r →
      r.phase = .active d (some n) →
      ((s.cannon c).phase = .spraying ∨ (s.cannon c).phase = .closePending) →
      feedbackOpen s c = true →
      ∃ t, exec (.deliverySecond c) s = .next t ∧
        (∃ x ∈ t.run c, x = { r with delivered := r.delivered + (s.cannon c).config.flow, phase := x.phase } ∧
        (r.target ≤ x.delivered → ∃ n, x.phase = .active .ends n)) ∧
        ((t.cannon c).phase = .spraying ∨ (t.cannon c).phase = .closePending → ∀ x ∈ t.run c,
        x.phase = .active (if r.target ≤ r.delivered + (s.cannon c).config.flow then .ends else d) (some (Config.seconds 1))) ∧
        ((∀ src ∈ s.wiu.pump.source, fit s src = true → fit t src = true) →
            r.delivered + (s.cannon c).config.flow < r.target →
        t.cannon c = s.cannon c) ∧
        (ValvesSound s → (∀ src ∈ s.wiu.pump.source, fit s src = true → fit t src = true) →
        r.target ≤ r.delivered + (s.cannon c).config.flow → d ≠ .ends →
            (s.cannon c).phase = .spraying →
        ((t.cannon c).phase = .closePending ∧ queuedMovement t c = some .closes) ∨
        (s.cc.slot = none ∧ (t.cannon c).phase = .closing ∧
          ∀ x ∈ t.run c, x.phase = .active .ends none)) ∧
        (∀ p, t.pile p = { s.pile p with
        pendingSpray := if p = r.pile ∧ (s.pile p).configured = true
          then (s.pile p).pendingSpray + (s.cannon c).config.flow else (s.pile p).pendingSpray
        deliveredToday := if p = r.pile ∧ (s.pile p).configured = true
          then min ((s.pile p).deliveredToday + (s.cannon c).config.flow) 4294967295
          else (s.pile p).deliveredToday
        hold := (t.pile p).hold }) ∧
        (match r.origin with
        | .order k =>
          match s.order k, t.order k with
          | some o, some x => x.delivered = o.delivered +
              if o.closure.isNone then (s.cannon c).config.flow else 0
          | none, none => True
          | _, _ => False
        | _ => True) ∧
        Drawn false (s.cannon c).config.flow s t ∧
        (ValvesSound s → ∀ src ∈ s.wiu.pump.source, s.wiu.pump.phase = .running ∨
            s.wiu.pump.phase = .rundown →
        fit s src = true → fit t src = false → t.wiu.pump = pumpSwitched s t ∧
            (t.cannon c).phase = .closing ∧
          ∀ x ∈ t.run c, x.phase = .active (if r.target ≤ r.delivered + (s.cannon c).config.flow ∨
              d = .ends ∨ (s.cannon c).phase = .closePending
            then .ends else .suspend .flow) none) ∧
        SprayFrame s t ∧
        CannonsFrame s t) ∧
    (∀ (c : Fin 32) (r : Run) (d : Disposition) (n k : Nat) (o : Order) (s : State),
      s.run c = some r →
      r.phase = .active d (some n) →
      ((s.cannon c).phase = .spraying ∨ (s.cannon c).phase = .closePending) →
      feedbackOpen s c = true →
      r.origin = .order k →
      s.order k = some o →
      o.kind = .wet →
      o.closure = none →
      o.delivered < o.volume →
      o.volume ≤ o.delivered + (s.cannon c).config.flow →
      ∃ t, exec (.deliverySecond c) s = .next t ∧
        (∀ x, x ≠ c → ∀ r' ∈ s.run x, r'.origin = .order k → ∀ y ∈ t.run x,
        (∃ n, y.phase = .active .ends n) ∨
          (y.origin ≠ .order k ∧ y.delivered = 0 ∧ y.phase = .active .none none)) ∧
        (∀ x, x ≠ c → ∀ r' ∈ s.run x, r'.origin = .order k → r'.isSuspended = false →
        (s.cannon x).phase = .spraying ∨ (s.cannon x).phase = .closePending ∨
          (s.cannon x).phase = .closing → feedbackOpen s x = true →
        ∃ y ∈ t.run x, y.origin = .order k ∧ y.delivered = r'.delivered ∧
            (∃ n, y.phase = .active .ends n)) ∧
        (ValvesSound s → RunsSound s → (∀ src ∈ s.wiu.pump.source, fit s src = true →
            fit t src = true) →
        ∀ x, x ≠ c → ∀ r' ∈ s.run x, r'.origin = .order k → EndDecided x r' s t)) ∧
    (∀ (c : Fin 32) (s : State),
      (s.cannon c).phase = .stuck →
      (s.cannon c).lostWater ≠ none →
      (s.wiu.pump.phase = .running ∨ s.wiu.pump.phase = .rundown) →
      ∃ t, exec (.lostWaterExpiry c) s = .next t ∧
        t.cannon c = { s.cannon c with lostWater := some (Config.seconds 1) } ∧
        Drawn true (s.cannon c).config.flow s t ∧
        (ValvesSound s → ∀ src ∈ s.wiu.pump.source, s.wiu.pump.phase = .running ∨
            s.wiu.pump.phase = .rundown →
        fit s src = true → fit t src = false → t.wiu.pump = pumpSwitched s t) ∧
        SprayFrame s t ∧
        PilesFrame s t ∧
        CannonsFrame (s.setCannon c (t.cannon c)) t) ∧
    (∀ (c : Fin 32) (s : State),
      (s.cannon c).lostWater ≠ none →
      s.wiu.pump.phase ≠ .running →
      s.wiu.pump.phase ≠ .rundown →
      exec (.lostWaterExpiry c) s = .next
        ((s.setCannon c { s.cannon c with lostWater := some (Config.seconds 1) }).setPass false))

/-- A slot expiry issues the oldest entry of the valve movement queue, or stops the countdown.
R90, R92, R96, R114, R115, R116, R124, R127, R131. Where it rests on the model's choices: logs 6,
8, 9. -/
def Obligations.SlotExpiryIssuesTheOldestEntry : Prop :=
  (∀ (s : State),
      s.cc.slot ≠ none →
      s.cc.queue = [] →
      exec (.slotExpiry) s = .next
        ((s.setSlot none).setPass false)) ∧
    (∀ (c : Fin 32) (rest : List (Fin 32 × Movement)) (s : State),
      s.cc.slot ≠ none →
      s.cc.queue = (c, .opens) :: rest →
      (s.cannon c).phase = .pendingOpen →
      ∃ t, exec (.slotExpiry) s = .next t ∧
        t.cannon c = { s.cannon c with phase := .opening, travel := some (Config.seconds s.site.travel), lostWater := none } ∧
        valveDriven t c = true ∧
        (∀ x, x ≠ c → t.cannon x = s.cannon x) ∧
        t.cc.queue = rest ∧
        t.cc.slot = some (Config.seconds s.site.stagger) ∧
        t.sd = { s.sd with passDue := false } ∧
        t.wiu = s.wiu ∧
        t.pau = s.pau ∧
        SprayFrame s t) ∧
    (∀ (c : Fin 32) (rest : List (Fin 32 × Movement)) (s : State),
      s.cc.slot ≠ none →
      s.cc.queue = (c, .closes) :: rest →
      (s.cannon c).phase = .closePending →
      feedbackOpen s c = true →
      ∃ t, exec (.slotExpiry) s = .next t ∧
        t.cannon c = { s.cannon c with phase := .closing, travel := some (Config.seconds s.site.travel), lostWater := none } ∧
        valveDriven t c = false ∧
        (∀ x, x ≠ c → t.cannon x = s.cannon x) ∧
        t.cc.queue = rest ∧
        t.cc.slot = some (Config.seconds s.site.stagger) ∧
        (t.run c = (s.run c).map (fun r => { r with phase := r.phase.withDelivery none })) ∧
        (∀ x, x ≠ c → t.run x = s.run x) ∧
        t.sd.orders = s.sd.orders ∧
        t.sd.demands = s.sd.demands ∧
        t.sd.suspensions = s.sd.suspensions ∧
        t.sd.acceptances = s.sd.acceptances ∧
        t.wiu = s.wiu ∧
        t.pau = s.pau ∧
        SprayFrame s t) ∧
    (∀ (c : Fin 32) (rest : List (Fin 32 × Movement)) (s : State),
      s.cc.slot ≠ none →
      s.cc.queue = (c, .closes) :: rest →
      (s.cannon c).phase = .opening →
      feedbackOpen s c = true →
      ∃ t, exec (.slotExpiry) s = .next t ∧
        t.cannon c = { s.cannon c with phase := .closing, travel := some (Config.seconds s.site.travel), lostWater := none } ∧
        valveDriven t c = false ∧
        (∀ x, x ≠ c → t.cannon x = s.cannon x) ∧
        t.cc.queue = rest ∧
        t.cc.slot = some (Config.seconds s.site.stagger) ∧
        (t.run c = (s.run c).map (fun r => { r with phase := r.phase.withDelivery none })) ∧
        (∀ x, x ≠ c → t.run x = s.run x) ∧
        t.sd.orders = s.sd.orders ∧
        t.sd.demands = s.sd.demands ∧
        t.sd.suspensions = s.sd.suspensions ∧
        t.sd.acceptances = s.sd.acceptances ∧
        t.wiu = s.wiu ∧
        t.pau = s.pau ∧
        SprayFrame s t) ∧
    (∀ (c : Fin 32) (rest : List (Fin 32 × Movement)) (s : State),
      s.cc.slot ≠ none →
      s.cc.queue = (c, .closes) :: rest →
      (s.cannon c).phase = .opening →
      feedbackOpen s c = false →
      ∃ t, exec (.slotExpiry) s = .next t ∧
        ((t.cannon c).phase = .idle ∨ (t.cannon c).phase = .pendingOpen) ∧
        (t.cannon c).travel = none ∧
        (t.cannon c).lostWater = none ∧
        valveDriven t c = false ∧
        DispositionApplied c s t ∧
        t.cc.slot = some (Config.seconds s.site.stagger) ∧
        rest <+: t.cc.queue ∧
        SprayFrame s t ∧
        WaterFrame s t ∧
        PilesFrame s t ∧
        CannonsFrame s t)

/-- What a change of a configured cannon's filtered feedback does in each of its states. R94,
R95, R96, R97, R98, R99, R101, R115, R116, R121, R114, R131. Where it rests on the model's
choices: logs 6, 12, 15, 28. -/
def Obligations.FeedbackIsJudgedByTheState : Prop :=
  (∀ (c : Fin 32) (s : State),
      (s.cannon c).configured = true →
      (s.cannon c).phase = .opening →
      feedbackOpen s c = false →
      ∃ t, exec (.feedbackChange c true) s = .next t ∧
        feedbackOpen t c = true ∧
        (t.cannon c = { s.cannon c with
        phase := if queuedMovement s c = some .closes then .closePending else .spraying
        travel := none, lostWater := none }) ∧
        (∀ x, x ≠ c → t.cannon x = s.cannon x) ∧
        (t.run c = (s.run c).map (fun r => { r with phase := r.phase.withDelivery (some (Config.seconds 1)) })) ∧
        (∀ x, x ≠ c → t.run x = s.run x) ∧
        t.cc.queue = s.cc.queue ∧
        t.wiu = s.wiu ∧
        t.pau = s.pau ∧
        SprayFrame (setFeedback c true s) t) ∧
    (∀ (c : Fin 32) (s : State),
      (s.cannon c).configured = true →
      ((s.cannon c).phase = .idle ∨ (s.cannon c).phase = .pendingOpen ∨
          (s.cannon c).phase = .faulted) →
      feedbackOpen s c = false →
      ∃ t, exec (.feedbackChange c true) s = .next t ∧
        (ValvesSound s → RunsSound s → (s.cannon c).phase ≠ .pendingOpen →
            UnbiddenFlowAnswered (s.cannon c).config.flow c s t) ∧
        ((s.cannon c).phase = .pendingOpen →
            OrderTestedAt c s t ∧ t.sd.suspensions = s.sd.suspensions) ∧
        feedbackOpen t c = true ∧
        (t.cannon c).phase = .stuck ∧
        (t.cannon c).lostWater = some (Config.seconds 1) ∧
        (t.cannon c).travel = none ∧
        t.run c = none ∧
        (t.mau.alerts.get (.valve c)).condition = true ∧
        SprayFrame (setFeedback c true s) t ∧
        WaterFrame s t ∧
        PilesFrame s t ∧
        CannonsFrame s t) ∧
    (∀ (c : Fin 32) (s : State),
      (s.cannon c).configured = true →
      ((s.cannon c).phase = .spraying ∨ (s.cannon c).phase = .closePending) →
      feedbackOpen s c = true →
      ∃ t, exec (.feedbackChange c false) s = .next t ∧
        feedbackOpen t c = false ∧
        (t.cannon c).phase = .faulted ∧
        t.run c = none ∧
        OrderTestedAt c s t ∧
        t.sd.suspensions = s.sd.suspensions ∧
        queuedMovement t c = none ∧
        valveDriven t c = false ∧
        (t.mau.alerts.get (.valve c)).condition = true ∧
        SprayFrame (setFeedback c false s) t ∧
        WaterFrame s t ∧
        PilesFrame s t ∧
        CannonsFrame s t) ∧
    (∀ (c : Fin 32) (s : State),
      (s.cannon c).configured = true →
      (s.cannon c).phase = .closing →
      feedbackOpen s c = true →
      ∃ t, exec (.feedbackChange c false) s = .next t ∧
        feedbackOpen t c = false ∧
        ((t.cannon c).phase = .idle ∨ (t.cannon c).phase = .pendingOpen ∨
            (t.cannon c).phase = .opening) ∧
        DispositionApplied c s t ∧
        SprayFrame (setFeedback c false s) t ∧
        WaterFrame s t ∧
        PilesFrame s t ∧
        CannonsFrame s t) ∧
    (∀ (c : Fin 32) (s : State),
      (s.cannon c).configured = true →
      (s.cannon c).phase = .closing →
      feedbackOpen s c = false →
      ∃ t, exec (.feedbackChange c false) s = .next t ∧
        feedbackOpen t c = false ∧
        ((t.cannon c).phase = .idle ∨ (t.cannon c).phase = .pendingOpen ∨
            (t.cannon c).phase = .opening) ∧
        DispositionApplied c s t ∧
        SprayFrame s t ∧
        WaterFrame s t ∧
        PilesFrame s t ∧
        CannonsFrame s t) ∧
    (∀ (c : Fin 32) (s : State),
      (s.cannon c).configured = true →
      (s.cannon c).phase = .closing →
      feedbackOpen s c = false →
      exec (.feedbackChange c true) s = .next
        ((setFeedback c true s).setPass false)) ∧
    (∀ (c : Fin 32) (s : State),
      (s.cannon c).configured = true →
      (s.cannon c).phase = .stuck →
      feedbackOpen s c = true →
      ∃ t, exec (.feedbackChange c false) s = .next t ∧
        feedbackOpen t c = false ∧
        (t.cannon c).phase = .faulted ∧
        (t.cannon c).lostWater = none ∧
        (t.mau.alerts.get (.valve c)).condition = true ∧
        SprayFrame (setFeedback c false s) t ∧
        WaterFrame s t ∧
        PilesFrame s t ∧
        CannonsFrame s t) ∧
    (∀ (c : Fin 32) (s : State),
      (s.cannon c).configured = true →
      (s.cannon c).phase = .locked →
      (s.cannon c).travel = none →
      feedbackOpen s c = false →
      ∃ t, exec (.feedbackChange c true) s = .next t ∧
        feedbackOpen t c = true ∧
        (t.cannon c).phase = .stuck ∧
        (t.cannon c).lostWater = some (Config.seconds 1) ∧
        (t.cannon c).travel = none ∧
        t.run c = none ∧
        (t.mau.alerts.get (.valve c)).condition = true ∧
        (RunsSound s → HeaderSound t) ∧
        (ValvesSound s → RunsSound s → UnbiddenFlowAnswered (s.cannon c).config.flow c s t) ∧
        SprayFrame (setFeedback c true s) t ∧
        WaterFrame s t ∧
        PilesFrame s t ∧
        CannonsFrame s t) ∧
    (∀ (c : Fin 32) (s : State),
      (s.cannon c).configured = true →
      (s.cannon c).phase = .locked →
      (s.cannon c).travel ≠ none →
      feedbackOpen s c = false →
      exec (.feedbackChange c true) s = .next
        ((setFeedback c true s).setPass false)) ∧
    (∀ (c : Fin 32) (s : State),
      (s.cannon c).configured = true →
      (s.cannon c).phase = .locked →
      feedbackOpen s c = true →
      ∃ t, exec (.feedbackChange c false) s = .next t ∧
        feedbackOpen t c = false ∧
        t.cannon c = { s.cannon c with travel := none, lostWater := none } ∧
        (∀ x, x ≠ c → t.cannon x = s.cannon x) ∧
        t.cc = { s.cc with cannons := t.cc.cannons } ∧
        t.sd = { s.sd with passDue := false } ∧
        t.wiu = s.wiu ∧
        t.pau = s.pau ∧
        (t.mau.alerts.get (.valve c)).condition = false ∧
        SprayFrame (setFeedback c false s) t) ∧
    (∀ (c : Fin 32) (b : Bool) (s : State),
      ((s.cannon c).configured = false ∨ (feedbackOpen s c = b ∧ (b = true ∨
          (s.cannon c).phase ≠ .closing))) →
      exec (.feedbackChange c b) s = .next
        ((setFeedback c b s).setPass false))

/-- TRAVEL_EXPIRY: an open not confirmed is FAULTED; a close not confirmed, or a locked valve
left open, is STUCK; else the travel ends. R94, R96, R99, R101, R115, R116, R114, R121, R131.
Where it rests on the model's choices: logs 6, 8, 12, 28. -/
def Obligations.TravelSupervisionFindsFaults : Prop :=
  (∀ (c : Fin 32) (s : State),
      (s.cannon c).travel ≠ none →
      (s.cannon c).configured = true →
      (s.cannon c).phase = .opening →
      feedbackOpen s c = false →
      ∃ t, exec (.travelExpiry c) s = .next t ∧
        (t.cannon c).phase = .faulted ∧
        (t.cannon c).travel = none ∧
        valveDriven t c = false ∧
        queuedMovement t c = none ∧
        t.run c = none ∧
        OrderTestedAt c s t ∧
        t.sd.suspensions = s.sd.suspensions ∧
        (t.mau.alerts.get (.valve c)).condition = true ∧
        SprayFrame s t ∧
        WaterFrame s t ∧
        PilesFrame s t ∧
        CannonsFrame s t) ∧
    (∀ (c : Fin 32) (s : State),
      (s.cannon c).travel ≠ none →
      (s.cannon c).configured = true →
      ((s.cannon c).phase = .closing ∨ (s.cannon c).phase = .locked) →
      feedbackOpen s c = true →
      ∃ t, exec (.travelExpiry c) s = .next t ∧
        (t.cannon c).phase = .stuck ∧
        (t.cannon c).travel = none ∧
        (t.cannon c).lostWater = some (Config.seconds 1) ∧
        t.run c = none ∧
        ((s.cannon c).phase = .closing → OrderTestedAt c s t ∧ t.sd.suspensions = s.sd.suspensions) ∧
        ((s.cannon c).phase = .locked → ValvesSound s → RunsSound s →
            UnbiddenFlowAnswered (s.cannon c).config.flow c s t) ∧
        (t.mau.alerts.get (.valve c)).condition = true ∧
        SprayFrame s t ∧
        WaterFrame s t ∧
        PilesFrame s t ∧
        CannonsFrame s t) ∧
    (∀ (c : Fin 32) (s : State),
      (s.cannon c).travel ≠ none →
      (s.cannon c).configured = true →
      (s.cannon c).phase = .closing →
      feedbackOpen s c = false →
      ∃ t, exec (.travelExpiry c) s = .next t ∧
        ((t.cannon c).phase = .idle ∨ (t.cannon c).phase = .pendingOpen ∨
            (t.cannon c).phase = .opening) ∧
        DispositionApplied c s t ∧
        SprayFrame s t ∧
        WaterFrame s t ∧
        PilesFrame s t ∧
        CannonsFrame s t) ∧
    (∀ (c : Fin 32) (s : State),
      (s.cannon c).travel ≠ none →
      (s.cannon c).configured = true →
      (s.cannon c).phase = .locked →
      feedbackOpen s c = false →
      ∃ t, exec (.travelExpiry c) s = .next t ∧
        t.cannon c = { s.cannon c with travel := none } ∧
        (∀ x, x ≠ c → t.cannon x = s.cannon x) ∧
        t.cc = { s.cc with cannons := t.cc.cannons } ∧
        t.sd = { s.sd with passDue := false } ∧
        t.wiu = s.wiu ∧
        t.pau = s.pau ∧
        SprayFrame s t)

/-- A machine's report and its staleness set the excluded flags and close the newly excluded
cannons at once. R93, R105, R106, R107, R114, R115, R127, R131, R184. Where it rests on the
model's choices: logs 4, 6, 7, 8, 12, 13. -/
def Obligations.MachinesExcludeCannons : Prop :=
  (∀ (m : Fin 4) (s : State),
      (s.machine m).countdown ≠ none →
      ∃ t, exec (.machineStaleExpiry m) s = .next t ∧
        t.machine m = { s.machine m with countdown := none, stale := true } ∧
        (∀ x, x ≠ m → t.machine x = s.machine x) ∧
        ExclusionApplied s t ∧
        (ValvesSound s → RunsSound s → ∀ x, (s.cannon x).configured = true →
        (s.cannon x).excluded = false → (t.cannon x).excluded = true →
        ClosedAtOnce .excluded (suspendedIn s t) x s t ∧
        ((s.cannon x).phase = .idle → t.run x = s.run x) ∧
        ((s.cannon x).phase = .closing → RunSuspends .excluded (suspendedIn s t) x s t)) ∧
        (ValvesSound s → RunsSound s → SuspensionsCounted (suspendedIn s t) s t) ∧
        OrdersTested s t ∧
        (t.mau.alerts.get (.machineStale m)).condition = conditionOf t (.machineStale m) ∧
        WaterFrame s t ∧
        PilesFrame s t ∧
        t.yc = s.yc ∧
        t.wfe = s.wfe ∧
        t.ft = s.ft ∧
        t.bwu = s.bwu ∧
        t.site = s.site) ∧
    (∀ (tag : Nat) (m : Fin 4) (rail : Fin 2) (x : Nat) (s : State),
      s.lc.reply = none →
      m.val < s.site.machines →
      x ≤ 4000 →
      ∃ t, exec (.machinePos tag m rail x) s = .next (startReply (acceptance 0x14 tag
          (le 1 m ++ flagByte (t.machine m).reported ++ le 1 (t.machine m).rail ++
            le 2 (t.machine m).chainage ++ flagByte (t.machine m).stale ++
            le 4 (bitSet fun c => (t.cannon c).excluded))) false t) ∧
        t.machine m = ⟨true, rail, x, some (Config.seconds s.site.machineStale), false⟩ ∧
        (∀ y, y ≠ m → t.machine y = s.machine y) ∧
        ExclusionApplied s t ∧
        (ValvesSound s → RunsSound s → ∀ x, (s.cannon x).configured = true →
        (s.cannon x).excluded = false → (t.cannon x).excluded = true →
        ClosedAtOnce .excluded (suspendedIn s t) x s t ∧
        ((s.cannon x).phase = .idle → t.run x = s.run x) ∧
        ((s.cannon x).phase = .closing → RunSuspends .excluded (suspendedIn s t) x s t)) ∧
        (ValvesSound s → RunsSound s → SuspensionsCounted (suspendedIn s t) s t) ∧
        OrdersTested s t ∧
        (t.mau.alerts.get (.machineStale m)).condition = conditionOf t (.machineStale m) ∧
        WaterFrame s t ∧
        PilesFrame s t ∧
        t.yc = s.yc ∧
        t.wfe = s.wfe ∧
        t.ft = s.ft ∧
        t.bwu = s.bwu ∧
        t.site = s.site) ∧
    (∀ (tag m rail x : Nat) (s : State),
      s.lc.reply = none →
      (4 ≤ m ∨ 2 ≤ rail ∨ 4000 < x) →
      exec (.machinePos tag m rail x) s = .next
        (startReply (refusal 0x14 tag .outOfRange) false s)) ∧
    (∀ (tag : Nat) (m : Fin 4) (rail x : Nat) (s : State),
      s.lc.reply = none →
      s.site.machines ≤ m.val →
      rail < 2 →
      x ≤ 4000 →
      exec (.machinePos tag m rail x) s = .next
        (startReply (refusal 0x14 tag .noSuchObject) false s)) ∧
    (∀ (m : Fin 4) (c : Fin 32) (s : State), excludes s m c = true ↔
      (s.cannon c).configured = true ∧ m.val < s.site.machines ∧ ∃ rail ∈ (s.cannon c).config.rail,
        (s.machine m).reported = false ∨
          (s.machine m).rail = rail ∧ ((s.machine m).stale = true ∨
            ((s.cannon c).config.zoneStart ≤ (s.machine m).chainage + s.site.guardZone ∧
              (s.machine m).chainage ≤ (s.cannon c).config.zoneEnd + s.site.guardZone))) ∧
    (∀ (c : Fin 32) (s : State), shouldExclude s c = true ↔
      (s.cannon c).configured = true ∧ ∃ rail ∈ (s.cannon c).config.rail, ∃ m : Fin 4,
        m.val < s.site.machines ∧
        ((s.machine m).reported = false ∨
          (s.machine m).rail = rail ∧ ((s.machine m).stale = true ∨
            ((s.cannon c).config.zoneStart ≤ (s.machine m).chainage + s.site.guardZone ∧
              (s.machine m).chainage ≤ (s.cannon c).config.zoneEnd + s.site.guardZone))))

/-- A suspended run whose resume countdown expires ends, which closes a delivered order DONE; its
cannon may be taken up by a new run. R115, R116, R124, R131. Where it rests on the model's
choices: log 8. -/
def Obligations.ResumeExpiryEndsTheRun : Prop :=
  ∀ (c : Fin 32) (r : Run) (s : State),
    s.run c = some r →
    r.isSuspended = true →
    ∃ t, exec (.resumeExpiry c) s = .next t ∧
      RunEnded c r s t ∧
      t.sd.suspensions = s.sd.suspensions ∧
      (∀ y, y ≠ c → (s.run y).isSome = true → (t.run y).isSome = true) ∧
      SprayFrame s t ∧
      WaterFrame s t ∧
      PilesFrame s t ∧
      CannonsFrame s t

/-- Expiry, the end of a hold and a cancel each close the one order, detach its runs and post its
notice. R91, R92, R116, R130, R131, R132, R133, R184. Where it rests on the model's choices: logs
4, 7, 8, 9, 13, 24. -/
def Obligations.OrdersCloseWithTheirNotice : Prop :=
  (∀ (k : Nat) (o : Order) (s : State),
      s.order k = some o →
      o.kind = .wet →
      o.closure = none →
      o.countdown ≠ none →
      ∃ t, exec (.orderExpiry k) s = .next t ∧
        OrderClosed k o .expired s t ∧
        SprayFrame s t ∧
        WaterFrame s t ∧
        PilesFrame s t ∧
        CannonsFrame s t) ∧
    (∀ (k : Nat) (o : Order) (s : State),
      s.order k = some o →
      o.kind = .hold →
      o.closure = none →
      o.countdown ≠ none →
      ∃ t, exec (.holdExpiry k) s = .next t ∧
        OrderClosed k o .done s t ∧
        SprayFrame s t ∧
        WaterFrame s t ∧
        PilesFrame s t ∧
        CannonsFrame s t) ∧
    (∀ (tag k : Nat) (o : Order) (s : State),
      s.lc.reply = none →
      s.order k = some o →
      o.closure = none →
      (∀ j < k, ∀ y ∈ s.order j, y.closure = none → y.tag ≠ o.tag) →
      ∃ t, exec (.orderCancel tag o.tag) s = .next (startReply (acceptance 0x22 tag
          (le 1 k ++ orderBlock (t.order k) ++
            le 1 ((List.finRange 32).filter fun c => decide (∃ r ∈ t.run c, r.origin = .order k)).length)) false t) ∧
        OrderClosed k o .cancelled s t ∧
        SprayFrame s t ∧
        WaterFrame s t ∧
        PilesFrame s t ∧
        CannonsFrame s t) ∧
    (∀ (tag x : Nat) (s : State),
      s.lc.reply = none →
      (∀ y ∈ s.sd.orders, ∀ r ∈ y, r.closure = none → r.tag ≠ x) →
      exec (.orderCancel tag x) s = .next
        (startReply (refusal 0x22 tag .noSuchObject) false s))

/-- A silent monitor closes its episode STALE; CONFIGURE and RELEASE of a monitor. R137, R138,
R139, R146, R148, R184. Where it rests on the model's choices: logs 4, 6, 7, 8, 13. -/
def Obligations.MonitorsGoSilentAndAreSetUp : Prop :=
  (∀ (m : Fin 8) (s : State),
      (s.monitor m).countdown ≠ none →
      (s.monitor m).openEpisode = none →
      ∃ t, exec (.monitorStaleExpiry m) s = .next t ∧
        t.monitor m = { s.monitor m with stale := true, countdown := none, belowRun := 0 } ∧
        (∀ x, x ≠ m → t.monitor x = s.monitor x) ∧
        t.bwu.episodes = s.bwu.episodes ∧
        (t.mau.alerts.get (.monitorStale m)).condition = (s.monitor m).configured ∧
        t.pau = s.pau ∧
        t.wiu = s.wiu ∧
        t.sd = s.sd ∧
        t.cc = s.cc) ∧
    (∀ (m : Fin 8) (k : Nat) (e : Episode) (s : State),
      (s.monitor m).countdown ≠ none →
      (s.monitor m).openEpisode = some k →
      s.episode k = some e →
      e.monitor = m →
      ∃ t, exec (.monitorStaleExpiry m) s = .next t ∧
        t.monitor m = { s.monitor m with stale := true, countdown := none, belowRun := 0, openEpisode := none } ∧
        (∀ x, x ≠ m → t.monitor x = s.monitor x) ∧
        t.bwu.episodes = s.bwu.episodes.set k (some { e with closure := some ⟨.stale, now s, Config.count32 (s.bwu.closures + 1)⟩ }) ∧
        .episode k ∈ t.lc.notices ∧
        (∀ p : Fin 24, (t.pile p).escalated = (escalatedSet t).getLsbD p) ∧
        t.wiu = s.wiu ∧
        t.sd = s.sd ∧
        t.cc = s.cc) ∧
    (∀ (tag : Nat) (m : Fin 8) (f : MonitorFields) (s : State),
      s.lc.reply = none →
      (1 ≤ f.limit ∧ f.limit ≤ 5000) →
      (1 ≤ f.holdOff ∧ f.holdOff ≤ 8) →
      (60 ≤ f.interval ∧ f.interval ≤ 3600) →
      ∃ t, exec (.monitorSetup tag m 0 f) s = .next (startReply (acceptance 0x07 tag
          (le 1 m ++ flagByte (t.monitor m).configured ++ le 2 (t.monitor m).limit ++
            le 1 (t.monitor m).holdOff ++ le 2 (t.monitor m).interval ++
            flagByte (t.monitor m).lastValue.isSome ++ optional 2 (t.monitor m).lastValue ++
            optional 4 (t.monitor m).lastTime ++ le 1 (t.monitor m).belowRun ++
            optional 1 (t.monitor m).openEpisode ++ flagByte (t.monitor m).stale ++
            remaining 2 (t.monitor m).countdown)) false t) ∧
        (t.monitor m =
        if (s.monitor m).configured then { s.monitor m with
          limit := f.limit, holdOff := f.holdOff, interval := f.interval, stale := false,
          countdown := some (Config.seconds (2 * f.interval)) }
        else ⟨true, f.limit, f.holdOff, f.interval, none, none, 0, none, false,
          some (Config.seconds (2 * f.interval))⟩) ∧
        (∀ x, x ≠ m → t.monitor x = s.monitor x) ∧
        t.bwu = { s.bwu with monitors := t.bwu.monitors } ∧
        (t.mau.alerts.get (.monitorStale m)).condition = false ∧
        t.pau = s.pau ∧
        t.wiu = s.wiu ∧
        t.cc = s.cc) ∧
    (∀ (tag : Nat) (m : Fin 8) (f : MonitorFields) (s : State),
      s.lc.reply = none →
      (s.monitor m).configured = true →
      (s.monitor m).openEpisode = none →
      ∃ t, exec (.monitorSetup tag m 1 f) s = .next (startReply (acceptance 0x07 tag
          (le 1 m ++ flagByte (t.monitor m).configured ++ le 2 (t.monitor m).limit ++
            le 1 (t.monitor m).holdOff ++ le 2 (t.monitor m).interval ++
            flagByte (t.monitor m).lastValue.isSome ++ optional 2 (t.monitor m).lastValue ++
            optional 4 (t.monitor m).lastTime ++ le 1 (t.monitor m).belowRun ++
            optional 1 (t.monitor m).openEpisode ++ flagByte (t.monitor m).stale ++
            remaining 2 (t.monitor m).countdown)) false t) ∧
        t.monitor m = { s.monitor m with configured := false, countdown := none, stale := false, lastValue := none, lastTime := none, belowRun := 0 } ∧
        (∀ x, x ≠ m → t.monitor x = s.monitor x) ∧
        t.bwu = { s.bwu with monitors := t.bwu.monitors } ∧
        (t.mau.alerts.get (.monitorStale m)).condition = false ∧
        t.pau = s.pau ∧
        t.wiu = s.wiu ∧
        t.cc = s.cc) ∧
    (∀ (tag : Nat) (m : Fin 8) (f : MonitorFields) (k : Nat) (e : Episode) (s : State),
      s.lc.reply = none →
      (s.monitor m).configured = true →
      (s.monitor m).openEpisode = some k →
      s.episode k = some e →
      e.monitor = m →
      ∃ t, exec (.monitorSetup tag m 1 f) s = .next (startReply (acceptance 0x07 tag
          (le 1 m ++ flagByte (t.monitor m).configured ++ le 2 (t.monitor m).limit ++
            le 1 (t.monitor m).holdOff ++ le 2 (t.monitor m).interval ++
            flagByte (t.monitor m).lastValue.isSome ++ optional 2 (t.monitor m).lastValue ++
            optional 4 (t.monitor m).lastTime ++ le 1 (t.monitor m).belowRun ++
            optional 1 (t.monitor m).openEpisode ++ flagByte (t.monitor m).stale ++
            remaining 2 (t.monitor m).countdown)) false t) ∧
        t.monitor m = { s.monitor m with
        configured := false, countdown := none, stale := false, lastValue := none, lastTime := none
        belowRun := 0, openEpisode := none } ∧
        (∀ x, x ≠ m → t.monitor x = s.monitor x) ∧
        t.bwu.episodes = s.bwu.episodes.set k (some { e with closure := some ⟨.stale, now s, Config.count32 (s.bwu.closures + 1)⟩ }) ∧
        .episode k ∈ t.lc.notices ∧
        (∀ p : Fin 24, (t.pile p).escalated = (escalatedSet t).getLsbD p) ∧
        t.bwu.map = s.bwu.map ∧
        (t.mau.alerts.get (.monitorStale m)).condition = false ∧
        t.wiu = s.wiu ∧
        t.cc = s.cc) ∧
    (∀ (tag : Nat) (m : Fin 8) (f : MonitorFields) (s : State),
      s.lc.reply = none →
      (s.monitor m).configured = false →
      exec (.monitorSetup tag m 1 f) s = .next
        (startReply (acceptance 0x07 tag (le 1 m ++ flagByte (s.monitor m).configured ++ le 2 (s.monitor m).limit ++
            le 1 (s.monitor m).holdOff ++ le 2 (s.monitor m).interval ++
            flagByte (s.monitor m).lastValue.isSome ++ optional 2 (s.monitor m).lastValue ++
            optional 4 (s.monitor m).lastTime ++ le 1 (s.monitor m).belowRun ++
            optional 1 (s.monitor m).openEpisode ++ flagByte (s.monitor m).stale ++
            remaining 2 (s.monitor m).countdown)) false (s.setPass false))) ∧
    (∀ (tag i a : Nat) (f : MonitorFields) (s : State),
      s.lc.reply = none →
      (8 ≤ i ∨ 2 ≤ a ∨ (a = 0 ∧ (f.limit = 0 ∨ 5000 < f.limit ∨ f.holdOff = 0 ∨ 8 < f.holdOff ∨
        f.interval < 60 ∨ 3600 < f.interval))) →
      exec (.monitorSetup tag i a f) s = .next
        (startReply (refusal 0x07 tag .outOfRange) false s))

/-- STOP asserted takes the part to LOCKDOWN with every valve released and the pump set OFF; a
release changes nothing. R77, R110, R135, R154, R157. Where it rests on the model's choices:
logs 15, 25, 28. -/
def Obligations.StopLineTakesThePartToLockdown : Prop :=
  (∀ (s : State),
      stopAsserted s = false →
      s.mau.mode ≠ .lockdown →
      ∃ t, exec (.stopLineChange true) s = .next t ∧
        stopAsserted t = true ∧
        t.mau.mode = .lockdown ∧
        t.mau.cause = some .stopLine ∧
        t.mau.split = s.mau.split ∧
        .mode ∈ t.lc.notices ∧
        (∀ c, valveDriven t c = false ∧ (t.cannon c).phase ≠ .pendingOpen) ∧
        ValvesStopped s t ∧
        t.cc.queue = [] ∧
        t.cc.slot = none ∧
        (∀ c, ∀ r ∈ t.run c, ∃ n, r.phase = .active .ends n) ∧
        t.wiu.pump.phase = .off ∧
        t.sd.orders = s.sd.orders ∧
        t.mau.alerts.noWater.condition = false ∧
        WaterFrame s t ∧
        PilesFrame s t ∧
        CannonsFrame s t ∧
        t.yc = s.yc ∧
        t.wfe = s.wfe ∧
        t.ft = s.ft ∧
        t.bwu = s.bwu ∧
        t.site = s.site) ∧
    (∀ (s : State),
      exec (.stopLineChange false) s = .next
        ((setStop false s).setPass false)) ∧
    (∀ (s : State),
      s.mau.mode = .lockdown →
      exec (.stopLineChange true) s = .next
        ((setStop true s).setPass false))

/-- What a received character does in each state of the receiver: kept, ignored, or the end of
the frame. R166, R167, R168, R169. Where it rests on the model's choices: logs 2, 8, 29. -/
def Obligations.ReceiverKeepsDropsAndIgnores : Prop :=
  (∀ (s : State),
      s.lc.rx = .hunt →
      exec (.receiveCharacter 0xA5 false) s = .next
        { s with lc := { s.lc with rx := .header, buffer := [0xA5], gap := some (gapFor s.lc.rate) } }) ∧
    (∀ (b : Byte) (s : State),
      s.lc.rx = .hunt →
      b ≠ 0xA5 →
      exec (.receiveCharacter b false) s = .next
        s) ∧
    (∀ (b : Byte) (s : State),
      s.lc.rx = .hunt →
      exec (.receiveCharacter b true) s = .next
        s) ∧
    (∀ (b : Byte) (x : Bool) (s : State),
      s.lc.rx = .taking →
      exec (.receiveCharacter b x) s = .next
        s) ∧
    (∀ (b : Byte) (s : State),
      (s.lc.rx = .header ∨ s.lc.rx = .body ∨ s.lc.rx = .trailer) →
      exec (.receiveCharacter b true) s = .next
        { s with lc := { s.lc with rx := .hunt, buffer := [], gap := none } }) ∧
    (∀ (b : Byte) (s : State),
      s.lc.rx = .header →
      s.lc.buffer.length = 4 →
      512 < field (s.lc.buffer ++ [b]) 3 2 →
      exec (.receiveCharacter b false) s = .next
        { s with lc := { s.lc with rx := .hunt, buffer := [], gap := none } }) ∧
    (∀ (b : Byte) (s : State),
      s.lc.rx = .trailer →
      s.lc.buffer.length = field s.lc.buffer 3 2 + 6 →
      field (s.lc.buffer ++ [b]) (field s.lc.buffer 3 2 + 5) 2 ≠ field s.lc.buffer 3 2 + 5 →
      exec (.receiveCharacter b false) s = .next
        { s with lc := { s.lc with rx := .hunt, buffer := [], gap := none } }) ∧
    (∀ (b : Byte) (s : State),
      s.lc.rx = .trailer →
      s.lc.buffer.length = field s.lc.buffer 3 2 + 8 →
      crcField ((s.lc.buffer.drop 1).take (field s.lc.buffer 3 2 + 6)) ≠ (s.lc.buffer ++
          [b]).drop (field s.lc.buffer 3 2 + 7) →
      exec (.receiveCharacter b false) s = .next
        { s with lc := { s.lc with rx := .hunt, buffer := [], gap := none } }) ∧
    (∀ (b : Byte) (s : State),
      s.lc.rx = .header →
      s.lc.buffer.length < 4 →
      exec (.receiveCharacter b false) s = .next
        { s with lc := { s.lc with
          rx := .header
          buffer := s.lc.buffer ++ [b]
          gap := some (gapFor s.lc.rate) } }) ∧
    (∀ (b : Byte) (s : State),
      s.lc.rx = .header →
      s.lc.buffer.length = 4 →
      field (s.lc.buffer ++ [b]) 3 2 ≤ 512 →
      exec (.receiveCharacter b false) s = .next
        { s with lc := { s.lc with
          rx := (if field (s.lc.buffer ++ [b]) 3 2 = 0 then .trailer else .body)
          buffer := s.lc.buffer ++ [b]
          gap := some (gapFor s.lc.rate) } }) ∧
    (∀ (b : Byte) (s : State),
      s.lc.rx = .body →
      exec (.receiveCharacter b false) s = .next
        { s with lc := { s.lc with
          rx := (if s.lc.buffer.length + 1 < field (s.lc.buffer ++ [b]) 3 2 + 5 then .body else .trailer)
          buffer := s.lc.buffer ++ [b]
          gap := some (gapFor s.lc.rate) } }) ∧
    (∀ (b : Byte) (s : State),
      s.lc.rx = .trailer →
      s.lc.buffer.length + 1 < field (s.lc.buffer ++ [b]) 3 2 + 9 →
      s.lc.buffer.length + 1 ≠ field (s.lc.buffer ++ [b]) 3 2 + 7 →
      exec (.receiveCharacter b false) s = .next
        { s with lc := { s.lc with
          rx := .trailer
          buffer := s.lc.buffer ++ [b]
          gap := some (gapFor s.lc.rate) } }) ∧
    (∀ (b : Byte) (s : State),
      s.lc.rx = .trailer →
      s.lc.buffer.length + 1 = field (s.lc.buffer ++ [b]) 3 2 + 7 →
      field (s.lc.buffer ++ [b]) (field (s.lc.buffer ++ [b]) 3 2 + 5) 2 = field (s.lc.buffer ++
          [b]) 3 2 + 5 →
      exec (.receiveCharacter b false) s = .next
        { s with lc := { s.lc with
          rx := .trailer
          buffer := s.lc.buffer ++ [b]
          gap := some (gapFor s.lc.rate) } })

/-- GAP_EXPIRY, REPLY_START and REPLY_SENT move the line; POWER_ON_RESET leaves the reset state
at the straps' rate. R18, R111, R163, R166, R167, R170, R177. Where it rests on the model's
choices: logs 2, 4, 5, 8, 26, 29. -/
def Obligations.LineIntervalsAndPowerOn : Prop :=
  (∀ (s : State),
      s.lc.gap ≠ none →
      exec (.gapExpiry) s = .next
        { s with lc := { s.lc with rx := .hunt, buffer := [], gap := none } }) ∧
    (∀ (r : Reply) (s : State),
      s.lc.reply = some r →
      r.sending = false →
      ∃ t, exec (.replyStart) s = .next t ∧
        ldeHigh t = true ∧
        t = { s with lc := { s.lc with reply := some { r with sending := true, left := ceilDiv (r.frame.length * 10 * 5000) s.lc.rate.bitsPerSecond } } }) ∧
    (∀ (r : Reply) (s : State),
      s.lc.reply = some r →
      r.restart = false →
      ∃ t, exec (.replySent) s = .next t ∧
        ldeHigh t = false ∧
        t = { s with lc := { s.lc with rx := .hunt, buffer := [], reply := none } }) ∧
    (∀ (rate1 rate0 : Bool) (s : State),
      ∃ t, exec (.powerOnReset rate1 rate0) s = .next t ∧
        t = { State.reset with pins := t.pins, lc := { State.reset.lc with rate := t.lc.rate }, freeCount := s.freeCount, pending := s.pending } ∧
        (t.lc.rate.bitsPerSecond = (if rate1 then (if rate0 then 115200 else 57600) else if rate0 then 38400 else 19200)) ∧
        (∀ c, feedbackOpen t c = false) ∧
        stopAsserted t = false ∧
        (∀ m, (t.pins.pulse.get m).level = none) ∧
        (∀ m, t.pins.pulse.get m = .initial (s.pins.pulse.get m).pin) ∧
        (∀ m i, (t.pins.vane.get m).get i = .initial ((s.pins.vane.get m).get i).pin) ∧
        t.pins.rain = .initial s.pins.rain.pin ∧
        (∀ x, t.pins.feedback.get x = .initial (s.pins.feedback.get x).pin) ∧
        t.pins.stop = .initial s.pins.stop.pin ∧
        t.pins.rate1 = rate1 ∧
        t.pins.rate0 = rate0)

/-- WARM_RESTART is answered first; its REPLY_SENT discards runs, orders and episodes, closes
every valve and latches anew. R19, R26, R36, R60, R86, R112, R136, R152, R164, R177. Where it
rests on the model's choices: logs 4, 13, 26, 28. -/
def Obligations.WarmRestartFollowsItsReply : Prop :=
  (∀ (tag : Nat) (s : State),
      s.lc.reply = none →
      exec (.warmRestart tag) s = .next
        (startReply (acceptance 0x0A tag []) true s)) ∧
    (∀ (r : Reply) (s : State),
      s.lc.reply = some r →
      r.restart = true →
      ∃ t, exec (.replySent) s = .next t ∧
        (t.mau.mode = (if stopAsserted s then .lockdown else .standby)) ∧
        (t.mau.cause = some (if stopAsserted s then .stopLine else .restart)) ∧
        t.mau.split = s.mau.split ∧
        (∀ c, t.run c = none ∧ valveDriven t c = false ∧ (t.cannon c).phase ≠ .pendingOpen) ∧
        t.sd.orders = List.replicate s.mau.split.orders none ∧
        (∀ p, t.demand p = ⟨0, 3⟩) ∧
        t.sd.acceptances = s.sd.acceptances ∧
        t.sd.suspensions = s.sd.suspensions ∧
        ValvesStopped s t ∧
        t.cc.queue = [] ∧
        t.cc.slot = none ∧
        t.cc.machines = s.cc.machines ∧
        CannonsFrame s t ∧
        t.wiu.pump = ⟨.off, none, none⟩ ∧
        WaterFrame s t ∧
        t.bwu.episodes = List.replicate s.mau.split.episodes none ∧
        t.bwu.map = s.bwu.map ∧
        t.bwu.nextId = s.bwu.nextId ∧
        t.bwu.closures = s.bwu.closures ∧
        (∀ m, t.monitor m = { s.monitor m with
        openEpisode := none, belowRun := 0
        countdown := if (s.monitor m).configured = true ∧ (s.monitor m).stale = false
          then some (Config.seconds (2 * (s.monitor m).interval)) else (s.monitor m).countdown }) ∧
        (∀ p, t.pile p = { s.pile p with escalated := false, hold := false }) ∧
        t.pau.countdown = s.pau.countdown ∧
        (∀ e ∈ alertOrder, t.mau.alerts.get e = ⟨conditionOf t e, conditionOf t e, if conditionOf t e then now s else none⟩) ∧
        t.lc.notices = .mode :: (alertOrder.filter (conditionOf t)).map .alert ∧
        t.lc.rx = .hunt ∧
        t.lc.buffer = [] ∧
        t.lc.reply = none ∧
        t.lc.rate = s.lc.rate ∧
        t.yc = s.yc ∧
        t.ft = s.ft ∧
        t.wfe = s.wfe ∧
        t.site = s.site ∧
        t.pins = s.pins)

/-- The seven status requests are answered from the state found, in the layouts listed, and
change none of it; UNKNOWN_KIND is refused. R15, R58, R84, R109, R134, R149, R171, R185, R186,
R178, R183. Where it rests on the model's choices: logs 4, 7, 13. -/
def Obligations.StatusRequestsChangeNothing : Prop :=
  (∀ (tag : Nat) (s : State),
      s.lc.reply = none →
      exec (.waterStatus tag) s = .next
        (startReply (acceptance 0x33 tag (((List.finRange 4).flatMap fun p =>
            flagByte (s.pond p).configured ++ pondBlock (s.pond p).config ++ le 4 (s.pond p).volume ++
            flagByte (!(s.pond p).settled) ++ remaining 4 (s.pond p).settleCountdown ++
            le 4 (s.pond p).runoff ++ flagByte (!(s.pond p).clear) ++
            flagByte (!(s.pond p).inService) ++ flagByte (fit s (.pond p)) ++
            flagByte (usable s (.pond p))) ++
          le 2 s.site.freshRate ++ le 4 s.site.freshAllocation ++ le 4 s.wiu.today.fresh ++
          flagByte (usable s .fresh) ++ le 1 s.wiu.pump.phase.code ++
          optional 1 (s.wiu.pump.source.map Source.code) ++ le 2 (capacity s) ++
          remaining 2 s.wiu.pump.interval ++ le 4 (usableWater s) ++ le 1 (waterState s).code ++
          flagByte (noUsableSource s))) false s)) ∧
    (∀ (tag : Nat) (s : State),
      s.lc.reply = none →
      exec (.windStatus tag) s = .next
        (startReply (acceptance 0x34 tag (le 2 s.wfe.published.mean ++ le 2 s.wfe.published.gust ++
          le 1 s.wfe.published.direction.code ++ le 1 s.wfe.published.source.code ++
          flagByte s.wfe.published.saturated ++ le 1 s.wfe.ring.length ++
          optional 1 (s.wfe.selected.map Fin.val) ++
          ([0, 1] : List (Fin 2)).flatMap fun m =>
            flagByte (fitted s m) ++ flagByte (s.mast m).suspect ++ flagByte (s.mast m).declaredOut ++
            le 1 (s.mast m).zeroRun ++
            match (s.mast m).sample with
            | some x => le 2 x.speed ++ le 1 x.sector ++ flagByte x.saturated
            | none => [0xFF, 0xFF, 0xFF, 0xFF])) false s)) ∧
    (∀ (tag : Nat) (s : State),
      s.lc.reply = none →
      exec (.dayTotals tag) s = .next
        (startReply (acceptance 0x36 tag ((([s.wiu.today, s.wiu.previous].flatMap fun r =>
            optional 4 r.day ++ le 6 r.fresh ++
            ((List.finRange 4).flatMap fun p =>
              le 6 (r.ponds.get p).drawn ++ le 6 (r.ponds.get p).rain ++ le 6 (r.ponds.get p).runoff ++
              le 6 (r.ponds.get p).spill ++ signedLe 6 (r.ponds.get p).corrections) ++
            le 6 r.delivered ++ le 6 r.lost) ++
          le 4 s.yc.time ++ flagByte s.yc.valid ++ optional 4 s.yc.recordedDay))) false s)) ∧
    (∀ (tag : Nat) (p : Fin 24) (s : State),
      s.lc.reply = none →
      (s.pile p).configured = true →
      exec (.pileStatus tag p) s = .next
        (startReply (acceptance 0x31 tag (le 1 p ++ pileBlock (s.pile p).config ++ le 2 (s.pile p).moisture ++
          le 4 (s.pile p).pendingSpray ++ le 4 (s.pile p).pendingRain ++
          le 4 (s.pile p).deliveredToday ++ flagByte (s.pile p).escalated ++
          flagByte (s.pile p).hold ++ resultsBlock (s.pile p).results ++ le 4 (s.demand p).volume)) false s)) ∧
    (∀ (tag : Nat) (c : Fin 32) (s : State),
      s.lc.reply = none →
      (s.cannon c).configured = true →
      exec (.cannonStatus tag c) s = .next
        (startReply (acceptance 0x32 tag (le 1 c ++ cannonBlock (s.cannon c).config ++ le 1 (s.cannon c).phase.code ++
          le 1 (movementCode (queuedMovement s c)) ++
          optional 1 (s.cc.queue.findIdx? fun e => e.1 = c) ++ remaining 1 (s.cannon c).travel ++
          flagByte (feedbackOpen s c) ++ flagByte (s.cannon c).driftBlocked ++
          flagByte (s.cannon c).excluded ++ flagByte (eligible s c) ++
          le 1 (bitSet fun m => excludes s m c) ++
          match s.run c with
          | some r =>
            le 1 r.origin.code ++
            (match r.phase with
              | .active (.suspend cause) _ => [0] ++ le 1 cause.code
              | .active _ _ => [0, 0xFF]
              | .suspended cause _ _ => [1] ++ le 1 cause.code) ++
            le 4 r.target ++ le 4 r.delivered ++
            match r.phase with
            | .suspended _ _ n => le 2 (secondsLeft n)
            | .active _ _ => [0xFF, 0xFF]
          | none => List.replicate 13 0xFF)) false s)) ∧
    (∀ (tag k : Nat) (s : State),
      s.lc.reply = none →
      k < s.bwu.episodes.length →
      exec (.episodeRead tag k) s = .next
        (startReply (acceptance 0x35 tag (le 1 k ++ episodeBlock (s.episode k) ++
          match s.episode k with
          | some e =>
            if e.closure = none then
              le 1 (s.monitor e.monitor).belowRun ++ le 1 (s.monitor e.monitor).holdOff
            else [0xFF, 0xFF]
          | none => [0xFF, 0xFF])) false s)) ∧
    (∀ (tag k : Nat) (s : State),
      s.lc.reply = none →
      k < s.sd.orders.length →
      exec (.orderStatus tag k) s = .next
        (startReply (acceptance 0x37 tag (le 1 k ++ orderBlock (s.order k) ++
          (match s.order k with
            | some o =>
              if o.kind = .wet ∧ o.closure = none then le 4 (undelivered s k o)
              else [0xFF, 0xFF, 0xFF, 0xFF]
            | none => [0xFF, 0xFF, 0xFF, 0xFF]) ++
          le 1 ((List.finRange 32).filter fun c =>
            decide (∃ r ∈ s.run c, r.origin = .order k)).length ++
          (List.finRange 32).flatMap fun c =>
            match s.run c with
            | some r =>
              if r.origin = .order k then
                le 1 c ++
                match r.phase with
                | .active .ends _ => [0] ++ le 4 0
                | .active _ _ => [0] ++ le 4 (r.target - r.delivered)
                | .suspended _ _ _ => [1] ++ le 4 (r.target - r.delivered)
              else []
            | none => [])) false s)) ∧
    (∀ (tag n : Nat) (s : State),
      s.lc.reply = none →
      24 ≤ n →
      exec (.pileStatus tag n) s = .next
        (startReply (refusal 0x31 tag .outOfRange) false s)) ∧
    (∀ (tag : Nat) (p : Fin 24) (s : State),
      s.lc.reply = none →
      (s.pile p).configured = false →
      exec (.pileStatus tag p) s = .next
        (startReply (refusal 0x31 tag .noSuchObject) false s)) ∧
    (∀ (tag n : Nat) (s : State),
      s.lc.reply = none →
      32 ≤ n →
      exec (.cannonStatus tag n) s = .next
        (startReply (refusal 0x32 tag .outOfRange) false s)) ∧
    (∀ (tag : Nat) (c : Fin 32) (s : State),
      s.lc.reply = none →
      (s.cannon c).configured = false →
      exec (.cannonStatus tag c) s = .next
        (startReply (refusal 0x32 tag .noSuchObject) false s)) ∧
    (∀ (tag n : Nat) (s : State),
      s.lc.reply = none →
      s.bwu.episodes.length ≤ n →
      exec (.episodeRead tag n) s = .next
        (startReply (refusal 0x35 tag .outOfRange) false s)) ∧
    (∀ (tag n : Nat) (s : State),
      s.lc.reply = none →
      s.sd.orders.length ≤ n →
      exec (.orderStatus tag n) s = .next
        (startReply (refusal 0x37 tag .outOfRange) false s)) ∧
    (∀ (tag kind : Nat) (s : State),
      s.lc.reply = none →
      exec (.unknownKind kind tag) s = .next
        (startReply (refusal kind tag .unknownKind) false s)) ∧
    (∀ k : PileConfig, pileBlock k = le 2 k.t0 ++ le 1 k.s ++ le 2 k.area ++ le 1 k.retention ++
      le 2 k.wcap ++ optional 1 (k.drain.map Fin.val) ++
      ((List.finRange 16).flatMap fun n => le 1 (k.exposure.get n)) ++ le 2 k.w0) ∧
    (∀ k : CannonConfig, cannonBlock k = le 1 k.pile ++ le 2 k.flow ++
      optional 1 (k.rail.map Fin.val) ++ le 2 k.zoneStart ++ le 2 k.zoneEnd ++ le 2 k.driftLimit ++
      le 2 k.mask.toNat) ∧
    (∀ k : PondConfig, pondBlock k = le 4 k.capacity ++ le 4 k.floor ++ le 2 k.flow ++
      le 4 k.catchment ++ le 4 k.settleTime ++ le 4 k.stirVolume ++ le 1 k.priority ++
      le 4 k.initial) ∧
    resultsBlock none = List.replicate 23 0xFF ∧
    (∀ r : Results, resultsBlock (some r) = le 2 r.exposed ++ le 2 r.threshold ++
      signedLe 2 r.margin ++ le 1 r.risk.code ++ le 2 r.peak ++ le 2 r.required ++ le 2 r.deficit ++
      le 4 r.demand ++ le 1 r.tier ++ le 1 r.qualifiers.code ++ optional 4 r.time) ∧
    (∀ q : Qualifiers, q.code = bitSet fun i : Fin 8 =>
      [q.windForecast, q.windDesign, q.noForecast, q.forecastGap, q.speedSaturated, q.reqClamped,
        q.escalated, q.uncovered].getD i false) ∧
    orderBlock none = List.replicate 28 0xFF ++ [2] ++ List.replicate 5 0xFF ∧
    (∀ o : Order, orderBlock (some o) = le 2 o.tag ++ le 1 o.kind.code ++ le 1 o.pile ++
      le 4 o.volume ++ le 4 o.duration ++ le 4 o.delivered ++ remaining 4 o.countdown ++
      le 4 o.acceptance ++ optional 4 o.acceptedTime ++
      match o.closure with
      | some x => [1] ++ le 1 x.outcome.code ++ optional 4 x.time
      | none => [0] ++ List.replicate 5 0xFF) ∧
    episodeBlock none = [2] ++ List.replicate 29 0xFF ∧
    (∀ e : Episode, episodeBlock (some e) = (if e.closure = none then [0] else [1]) ++ le 2 e.id ++
      le 1 e.monitor ++ optional 4 e.firstTime ++ optional 4 e.latestTime ++
      optional 4 (e.closure.bind fun x => x.time) ++ le 2 e.peak ++ le 2 e.exceedCount ++
      le 1 e.sectorAtOpen.code ++ le 3 e.piles.toNat ++
      optional 1 (e.closure.map fun x => x.reason.code) ++ flagByte e.reported ++
      optional 4 (e.closure.map fun x => x.number)) ∧
    (∀ (k n : Nat) (b : Bool) (z : Int),
      (le k n).length = k ∧ (∀ j < k, (le k n)[j]? = some (BitVec.ofNat 8 (n / 256 ^ j))) ∧
      flagByte b = (if b then [1] else [0]) ∧ signedLe k z = le k (z % 256 ^ k).toNat ∧
      optional k (some n) = le k n ∧ optional k none = List.replicate k 0xFF ∧
      remaining k (some n) = le k ((n + 4999) / 5000) ∧ remaining k none = List.replicate k 0xFF ∧
      secondsLeft n = (n + 4999) / 5000) ∧
    (∀ (n : Nat) (test : Fin n → Bool) (i : Nat),
      (bitSet test).testBit i = true ↔ ∃ h : i < n, test ⟨i, h⟩ = true) ∧
    [Mode.standby, .auto, .manual, .lockdown].map Mode.code = [0, 1, 2, 3] ∧
    [Cause.request, .stopLine, .restart].map Cause.code = [0, 1, 2] ∧
    (∀ n : Fin 16, (Direction.sector n).code = n) ∧ Direction.calm.code = 16 ∧
    Direction.unknown.code = 17 ∧
    [WindSource.live, .forecast, .design].map WindSource.code = [0, 1, 2] ∧
    [RiskClass.quiet, .watch, .lift, .severe].map RiskClass.code = [0, 1, 2, 3] ∧
    [CannonPhase.idle, .pendingOpen, .opening, .spraying, .closePending, .closing, .faulted, .stuck,
      .locked].map CannonPhase.code = [0, 1, 2, 3, 4, 5, 6, 7, 8] ∧
    [none, some .opens, some .closes].map movementCode = [0, 1, 2] ∧
    (∀ k : Nat, (Origin.order k).code = k) ∧ Origin.detached.code = 0xFD ∧ Origin.auto.code = 0xFE ∧
    [SuspendCause.flow, .drift, .excluded].map SuspendCause.code = [0, 1, 2] ∧
    [PumpPhase.off, .priming, .running, .rundown, .changeover].map PumpPhase.code = [0, 1, 2, 3, 4] ∧
    (∀ p : Fin 4, (Source.pond p).code = p) ∧ Source.fresh.code = 4 ∧
    [WaterState.ample, .lean, .short].map WaterState.code = [0, 1, 2] ∧
    [OrderKind.wet, .hold].map OrderKind.code = [0, 1] ∧
    [OrderOutcome.done, .expired, .cancelled, .superseded].map OrderOutcome.code = [0, 1, 2, 3] ∧
    [CloseReason.clear, .stale].map CloseReason.code = [0, 1]

/-- SET_TIME sets a valid clock, tests the day, purges the forecast and reports them; short of a
rollover no countdown moves. R22, R23, R24, R32, R33. Where it rests on the model's choices:
logs 4, 13. -/
def Obligations.SetTimeSetsTestsAndPurges : Prop :=
  (∀ (tag x : Nat) (s : State),
      s.lc.reply = none →
      x < 0xFFFFFFFF →
      ∃ t, exec (.setTime tag x) s = .next (startReply (acceptance 0x10 tag
          (le 4 x ++ [1] ++ optional 4 t.yc.recordedDay ++
          flagByte (decide (∃ d ∈ s.yc.recordedDay, d < dayNumber x s.site.dayOffset)) ++
          le 1 (s.ft.slots.length - t.ft.slots.length))) false t) ∧
        t.yc.time = x ∧
        t.yc.valid = true ∧
        t.yc.second = s.yc.second ∧
        DayTested (dayNumber x s.site.dayOffset) s t ∧
        (t.ft = { s.ft with slots := s.ft.slots.filter fun f => decide (x < f.start + 3600) }) ∧
        t.mau.alerts.forecastStale.condition = forecastIsStale t ∧
        t.mau.alerts.timeInvalid.condition = false ∧
        t.wfe = s.wfe ∧
        t.bwu = s.bwu ∧
        t.site = s.site ∧
        t.pau.countdown = s.pau.countdown ∧
        t.wiu.ponds = s.wiu.ponds ∧
        t.cc.machines = s.cc.machines ∧
        t.sd.orders = s.sd.orders ∧
        ((∀ d ∈ s.yc.recordedDay, dayNumber x s.site.dayOffset ≤ d) →
        t.cc = s.cc ∧ t.sd = { s.sd with passDue := false } ∧ t.wiu.pump = s.wiu.pump)) ∧
    (∀ (tag : Nat) (s : State),
      s.lc.reply = none →
      exec (.setTime tag 0xFFFFFFFF) s = .next
        (startReply (refusal 0x10 tag .outOfRange) false s))

/-- A FORECAST is refused whole or taken slot by slot: each is invalid, past, older, stored
(perhaps displacing) or finds no room. R28, R29, R30, R31, R184. Where it rests on the model's
choices: logs 4, 13. -/
def Obligations.ForecastSlotsAreJudgedAndStored : Prop :=
  (∀ (tag issue x : Nat) (fs : List SlotFields) (s : State),
      s.lc.reply = none →
      s.yc.valid = true →
      (1 ≤ fs.length ∧ fs.length ≤ 12) →
      x < 0xFFFFFFFF →
      ∃ t, exec (.forecast tag issue x fs.length fs) s = .next (startReply (acceptance 0x11 tag
          (le 1 (tallyForecast s issue fs).stored ++ le 1 (tallyForecast s issue fs).older ++
            le 1 (tallyForecast s issue fs).past ++ le 1 (tallyForecast s issue fs).invalid ++
            le 1 (tallyForecast s issue fs).noRoom ++ le 1 (tallyForecast s issue fs).displaced ++
            le 1 t.ft.slots.length ++ optional 4 (t.ft.slots.head?.map Slot.start) ++
            optional 4 (t.ft.slots.getLast?.map Slot.start) ++ optional 4 t.ft.newestIssue)) false t) ∧
        (tallyForecast s issue fs).stored + (tallyForecast s issue fs).older + (tallyForecast s issue fs).past +
        (tallyForecast s issue fs).invalid + (tallyForecast s issue fs).noRoom = fs.length ∧
        t.ft.slots = (tallyForecast s issue fs).table ∧
        (t.ft.newestIssue = (if (tallyForecast s issue fs).stored = 0 then s.ft.newestIssue
          else some (max (s.ft.newestIssue.getD 0) x))) ∧
        t.mau.alerts.forecastStale.condition = forecastIsStale t ∧
        t.mau = { s.mau with alerts := { s.mau.alerts with forecastStale := t.mau.alerts.forecastStale } } ∧
        t.sd = { s.sd with passDue := false } ∧
        t.pins = s.pins ∧
        t.lc = { s.lc with notices := t.lc.notices } ∧
        (∀ x, x ∈ t.lc.notices → x ∈ s.lc.notices ∨ x = .alert .forecastStale) ∧
        t.pending = s.pending ∧
        t.freeCount = s.freeCount ∧
        t.yc = s.yc ∧
        t.wfe = s.wfe ∧
        t.pau = s.pau ∧
        t.cc = s.cc ∧
        t.wiu = s.wiu ∧
        t.bwu = s.bwu ∧
        t.site = s.site) ∧
    (∀ (tag issue x : Nat) (f : SlotFields) (g : Slot) (s : State),
      s.lc.reply = none →
      s.yc.valid = true →
      x < 0xFFFFFFFF →
      slot? issue f = some g →
      s.yc.time < g.start + 3600 →
      (∃ h ∈ s.ft.slots, h.start = g.start ∧ g.issue < h.issue) →
      (s.ft.slots.map Slot.start).Nodup →
      ∃ t, exec (.forecast tag issue x 1 [f]) s = .next (startReply (acceptance 0x11 tag
          ([0, 1, 0, 0, 0, 0] ++ le 1 t.ft.slots.length ++
            optional 4 (t.ft.slots.head?.map Slot.start) ++
            optional 4 (t.ft.slots.getLast?.map Slot.start) ++ optional 4 t.ft.newestIssue)) false t) ∧
        t.ft = s.ft) ∧
    (∀ (tag issue x : Nat) (f : SlotFields) (g : Slot) (s : State),
      s.lc.reply = none →
      s.yc.valid = true →
      x < 0xFFFFFFFF →
      slot? issue f = some g →
      s.yc.time < g.start + 3600 →
      (∀ h ∈ s.ft.slots, h.start = g.start → h.issue ≤ g.issue) →
      (s.ft.slots.length < s.mau.split.forecast ∨ ∃ h ∈ s.ft.slots, h.start = g.start) →
      ∃ t, exec (.forecast tag issue x 1 [f]) s = .next (startReply (acceptance 0x11 tag
          ([1, 0, 0, 0, 0, 0] ++ le 1 t.ft.slots.length ++
            optional 4 (t.ft.slots.head?.map Slot.start) ++
            optional 4 (t.ft.slots.getLast?.map Slot.start) ++ optional 4 t.ft.newestIssue)) false t) ∧
        (∀ h, h ∈ t.ft.slots ↔ h = g ∨ (h ∈ s.ft.slots ∧ h.start ≠ g.start))) ∧
    (∀ (tag issue x : Nat) (f : SlotFields) (g : Slot) (s : State),
      s.lc.reply = none →
      s.yc.valid = true →
      x < 0xFFFFFFFF →
      slot? issue f = some g →
      s.yc.time < g.start + 3600 →
      (∀ h ∈ s.ft.slots, h.start ≠ g.start) →
      s.mau.split.forecast ≤ s.ft.slots.length →
      (∃ h ∈ s.ft.slots, g.start < h.start) →
      ∃ t, exec (.forecast tag issue x 1 [f]) s = .next (startReply (acceptance 0x11 tag
          ([1, 0, 0, 0, 0, 1] ++ le 1 t.ft.slots.length ++
            optional 4 (t.ft.slots.head?.map Slot.start) ++
            optional 4 (t.ft.slots.getLast?.map Slot.start) ++ optional 4 t.ft.newestIssue)) false t) ∧
        (∀ h, h ∈ t.ft.slots ↔ h = g ∨ h ∈ s.ft.slots.dropLast)) ∧
    (∀ (tag issue x : Nat) (f : SlotFields) (g : Slot) (s : State),
      s.lc.reply = none →
      s.yc.valid = true →
      x < 0xFFFFFFFF →
      slot? issue f = some g →
      s.yc.time < g.start + 3600 →
      (∀ h ∈ s.ft.slots, h.start < g.start) →
      s.mau.split.forecast ≤ s.ft.slots.length →
      ∃ t, exec (.forecast tag issue x 1 [f]) s = .next (startReply (acceptance 0x11 tag
          ([0, 0, 0, 0, 1, 0] ++ le 1 t.ft.slots.length ++
            optional 4 (t.ft.slots.head?.map Slot.start) ++
            optional 4 (t.ft.slots.getLast?.map Slot.start) ++ optional 4 t.ft.newestIssue)) false t) ∧
        t.ft = s.ft) ∧
    (∀ (tag issue x : Nat) (f : SlotFields) (s : State),
      s.lc.reply = none →
      s.yc.valid = true →
      x < 0xFFFFFFFF →
      (f.start % 3600 ≠ 0 ∨ 600 < f.mean ∨ f.gust < f.mean ∨ 600 < f.gust ∨ 16 < f.sector ∨
          3 < f.dryingClass) →
      ∃ t, exec (.forecast tag issue x 1 [f]) s = .next (startReply (acceptance 0x11 tag
          ([0, 0, 0, 1, 0, 0] ++ le 1 t.ft.slots.length ++
            optional 4 (t.ft.slots.head?.map Slot.start) ++
            optional 4 (t.ft.slots.getLast?.map Slot.start) ++ optional 4 t.ft.newestIssue)) false t) ∧
        t.ft = s.ft) ∧
    (∀ (tag issue x : Nat) (f : SlotFields) (g : Slot) (s : State),
      s.lc.reply = none →
      s.yc.valid = true →
      x < 0xFFFFFFFF →
      slot? issue f = some g →
      g.start + 3600 ≤ s.yc.time →
      ∃ t, exec (.forecast tag issue x 1 [f]) s = .next (startReply (acceptance 0x11 tag
          ([0, 0, 1, 0, 0, 0] ++ le 1 t.ft.slots.length ++
            optional 4 (t.ft.slots.head?.map Slot.start) ++
            optional 4 (t.ft.slots.getLast?.map Slot.start) ++ optional 4 t.ft.newestIssue)) false t) ∧
        t.ft = s.ft) ∧
    (∀ (tag issue x : Nat) (fs : List SlotFields) (s : State),
      s.lc.reply = none →
      s.yc.valid = false →
      exec (.forecast tag issue x fs.length fs) s = .next
        (startReply (refusal 0x11 tag .timeInvalid) false s)) ∧
    (∀ (tag issue x : Nat) (fs : List SlotFields) (s : State),
      s.lc.reply = none →
      s.yc.valid = true →
      (fs.length = 0 ∨ 12 < fs.length ∨ x = 0xFFFFFFFF) →
      exec (.forecast tag issue x fs.length fs) s = .next
        (startReply (refusal 0x11 tag .outOfRange) false s)) ∧
    (∀ (issue : Nat) (f : SlotFields),
      (slot? issue f = none ↔ f.start % 3600 ≠ 0 ∨ 600 < f.mean ∨ f.gust < f.mean ∨
        600 < f.gust ∨ 16 < f.sector ∨ 3 < f.dryingClass) ∧
      ∀ g, slot? issue f = some g → g.start = f.start ∧ g.mean = f.mean ∧ g.gust = f.gust ∧
        g.sector.map Fin.val = (if f.sector = 16 then none else some f.sector) ∧
        g.dryingClass = f.dryingClass ∧ g.issue = issue) ∧
    (∀ (issue : Nat) (s : State), tallyForecast s issue [] = ⟨s.ft.slots, 0, 0, 0, 0, 0, 0⟩) ∧
    (∀ (issue : Nat) (fs : List SlotFields) (f : SlotFields) (s : State),
      slot? issue f = none →
      tallyForecast s issue (fs ++ [f]) = { tallyForecast s issue fs with
        invalid := (tallyForecast s issue fs).invalid + 1 }) ∧
    (∀ (issue : Nat) (fs : List SlotFields) (f : SlotFields) (g : Slot) (s : State),
      slot? issue f = some g →
      g.start + 3600 ≤ s.yc.time →
      tallyForecast s issue (fs ++ [f]) = { tallyForecast s issue fs with
        past := (tallyForecast s issue fs).past + 1 }) ∧
    (∀ (issue : Nat) (fs : List SlotFields) (f : SlotFields) (g h : Slot) (s : State),
      slot? issue f = some g →
      s.yc.time < g.start + 3600 →
      h ∈ (tallyForecast s issue fs).table →
      h.start = g.start →
      g.issue < h.issue →
      ((tallyForecast s issue fs).table.map Slot.start).Nodup →
      tallyForecast s issue (fs ++ [f]) = { tallyForecast s issue fs with
        older := (tallyForecast s issue fs).older + 1 }) ∧
    (∀ (issue : Nat) (fs : List SlotFields) (f : SlotFields) (g h : Slot) (s : State),
      slot? issue f = some g →
      s.yc.time < g.start + 3600 →
      h ∈ (tallyForecast s issue fs).table →
      h.start = g.start →
      h.issue ≤ g.issue →
      ((tallyForecast s issue fs).table.map Slot.start).Nodup →
      tallyForecast s issue (fs ++ [f]) = { tallyForecast s issue fs with
        table := (tallyForecast s issue fs).table.map fun x => if x.start = g.start then g else x
        stored := (tallyForecast s issue fs).stored + 1 }) ∧
    (∀ (issue : Nat) (fs : List SlotFields) (f : SlotFields) (g : Slot) (s : State),
      slot? issue f = some g →
      s.yc.time < g.start + 3600 →
      (∀ h ∈ (tallyForecast s issue fs).table, h.start ≠ g.start) →
      (tallyForecast s issue fs).table.length < s.mau.split.forecast →
      (tallyForecast s issue fs).table.Pairwise (fun x y => x.start < y.start) →
      tallyForecast s issue (fs ++ [f]) = { tallyForecast s issue fs with
        table := ((tallyForecast s issue fs).table.filter fun x => decide (x.start < g.start)) ++
          g :: (tallyForecast s issue fs).table.filter fun x => decide (g.start < x.start)
        stored := (tallyForecast s issue fs).stored + 1 }) ∧
    (∀ (issue : Nat) (fs : List SlotFields) (f : SlotFields) (g : Slot) (s : State),
      slot? issue f = some g →
      s.yc.time < g.start + 3600 →
      (∀ h ∈ (tallyForecast s issue fs).table, h.start ≠ g.start) →
      s.mau.split.forecast ≤ (tallyForecast s issue fs).table.length →
      (∃ h ∈ (tallyForecast s issue fs).table, g.start < h.start) →
      (tallyForecast s issue fs).table.Pairwise (fun x y => x.start < y.start) →
      tallyForecast s issue (fs ++ [f]) = { tallyForecast s issue fs with
        table := ((tallyForecast s issue fs).table.dropLast.filter fun x =>
            decide (x.start < g.start)) ++
          g :: (tallyForecast s issue fs).table.dropLast.filter fun x => decide (g.start < x.start)
        stored := (tallyForecast s issue fs).stored + 1
        displaced := (tallyForecast s issue fs).displaced + 1 }) ∧
    (∀ (issue : Nat) (fs : List SlotFields) (f : SlotFields) (g : Slot) (s : State),
      slot? issue f = some g →
      s.yc.time < g.start + 3600 →
      (∀ h ∈ (tallyForecast s issue fs).table, h.start < g.start) →
      s.mau.split.forecast ≤ (tallyForecast s issue fs).table.length →
      tallyForecast s issue (fs ++ [f]) = { tallyForecast s issue fs with
        noRoom := (tallyForecast s issue fs).noRoom + 1 })

/-- A READING opens, updates, holds off or closes the monitor's episode, and the escalated flags
follow. R139, R140, R141, R142, R143, R144, R145, R146, R148. Where it rests on the model's
choices: logs 4, 6, 7, 13, 22. -/
def Obligations.ReadingsOpenUpdateAndCloseEpisodes : Prop :=
  (∀ (tag : Nat) (m : Fin 8) (v : Nat) (s : State),
      s.lc.reply = none →
      (s.monitor m).configured = true →
      v ≤ 65535 →
      (s.monitor m).openEpisode = none →
      v ≤ (s.monitor m).limit →
      ∃ t, exec (.reading tag m v) s = .next (startReply (acceptance 0x12 tag
          ([0] ++ le 1 (t.monitor m).belowRun ++ [0xFF, 0, 0])) false t) ∧
        t.monitor m = { s.monitor m with
        lastValue := some v, lastTime := now s, stale := false
        countdown := some (Config.seconds (2 * (s.monitor m).interval)) } ∧
        (∀ x, x ≠ m → t.monitor x = s.monitor x) ∧
        t.bwu.map = s.bwu.map ∧
        t.wfe = s.wfe ∧
        t.wiu = s.wiu ∧
        t.cc = s.cc ∧
        t.sd.runs = s.sd.runs ∧
        t.bwu.episodes = s.bwu.episodes ∧
        t.pau = s.pau) ∧
    (∀ (tag : Nat) (m : Fin 8) (v k : Nat) (s : State),
      s.lc.reply = none →
      (s.monitor m).configured = true →
      v ≤ 65535 →
      (s.monitor m).openEpisode = none →
      (s.monitor m).limit < v →
      episodeSlot s = some k →
      ∃ t, exec (.reading tag m v) s = .next (startReply (acceptance 0x12 tag
          ([1, 0] ++ le 1 k ++ le 2 s.bwu.nextId)) false t) ∧
        t.monitor m = { s.monitor m with
        lastValue := some v, lastTime := now s, stale := false
        countdown := some (Config.seconds (2 * (s.monitor m).interval))
        openEpisode := some k, belowRun := 0 } ∧
        (∀ x, x ≠ m → t.monitor x = s.monitor x) ∧
        t.bwu.map = s.bwu.map ∧
        t.wfe = s.wfe ∧
        t.wiu = s.wiu ∧
        t.cc = s.cc ∧
        t.sd.runs = s.sd.runs ∧
        (t.bwu.episodes = s.bwu.episodes.set k (some {
        id := s.bwu.nextId, monitor := m, firstTime := now s, latestTime := now s, peak := v,
        exceedCount := 1, sectorAtOpen := s.wfe.published.direction,
        piles := (match s.wfe.published.direction with
          | .sector n => (s.bwu.map.get m).get n
          | _ => 0), closure := none, reported := false })) ∧
        (t.bwu.nextId = (if s.bwu.nextId = 65535 then 1 else s.bwu.nextId + 1)) ∧
        .episode k ∈ t.lc.notices ∧
        (∀ p : Fin 24, (t.pile p).escalated = (escalatedSet t).getLsbD p)) ∧
    (∀ (tag : Nat) (m : Fin 8) (v k : Nat) (e : Episode) (s : State),
      s.lc.reply = none →
      (s.monitor m).configured = true →
      v ≤ 65535 →
      (s.monitor m).openEpisode = some k →
      s.episode k = some e →
      e.monitor = m →
      (s.monitor m).limit < v →
      ∃ t, exec (.reading tag m v) s = .next (startReply (acceptance 0x12 tag
          ([2, 0] ++ le 1 k ++ le 2 e.id)) false t) ∧
        t.monitor m = { s.monitor m with
        lastValue := some v, lastTime := now s, stale := false
        countdown := some (Config.seconds (2 * (s.monitor m).interval))
        belowRun := 0 } ∧
        (∀ x, x ≠ m → t.monitor x = s.monitor x) ∧
        t.bwu.map = s.bwu.map ∧
        t.wfe = s.wfe ∧
        t.wiu = s.wiu ∧
        t.cc = s.cc ∧
        t.sd.runs = s.sd.runs ∧
        (t.bwu.episodes = s.bwu.episodes.set k (some { e with
        latestTime := now s, peak := max e.peak v, exceedCount := min (e.exceedCount + 1) 65535,
        piles := e.piles ||| (match s.wfe.published.direction with
          | .sector n => (s.bwu.map.get m).get n
          | _ => 0) })) ∧
        .episode k ∈ t.lc.notices ∧
        (∀ p : Fin 24, (t.pile p).escalated = (escalatedSet t).getLsbD p)) ∧
    (∀ (tag : Nat) (m : Fin 8) (v k : Nat) (e : Episode) (s : State),
      s.lc.reply = none →
      (s.monitor m).configured = true →
      v ≤ 65535 →
      (s.monitor m).openEpisode = some k →
      s.episode k = some e →
      e.monitor = m →
      v ≤ (s.monitor m).limit →
      (s.monitor m).belowRun + 1 < (s.monitor m).holdOff →
      (s.monitor m).holdOff ≤ 8 →
      ∃ t, exec (.reading tag m v) s = .next (startReply (acceptance 0x12 tag
          ([3] ++ le 1 ((s.monitor m).belowRun + 1) ++ le 1 k ++ le 2 e.id)) false t) ∧
        t.monitor m = { s.monitor m with
        lastValue := some v, lastTime := now s, stale := false
        countdown := some (Config.seconds (2 * (s.monitor m).interval))
        belowRun := (s.monitor m).belowRun + 1 } ∧
        (∀ x, x ≠ m → t.monitor x = s.monitor x) ∧
        t.bwu.map = s.bwu.map ∧
        t.wfe = s.wfe ∧
        t.wiu = s.wiu ∧
        t.cc = s.cc ∧
        t.sd.runs = s.sd.runs ∧
        t.bwu.episodes = s.bwu.episodes ∧
        t.pau = s.pau) ∧
    (∀ (tag : Nat) (m : Fin 8) (v k : Nat) (e : Episode) (s : State),
      s.lc.reply = none →
      (s.monitor m).configured = true →
      v ≤ 65535 →
      (s.monitor m).openEpisode = some k →
      s.episode k = some e →
      e.monitor = m →
      v ≤ (s.monitor m).limit →
      (s.monitor m).holdOff ≤ (s.monitor m).belowRun + 1 →
      (s.monitor m).holdOff ≤ 8 →
      ∃ t, exec (.reading tag m v) s = .next (startReply (acceptance 0x12 tag
          ([4, 0, 0xFF, 0, 0])) false t) ∧
        t.monitor m = { s.monitor m with
        lastValue := some v, lastTime := now s, stale := false
        countdown := some (Config.seconds (2 * (s.monitor m).interval))
        belowRun := 0, openEpisode := none } ∧
        (∀ x, x ≠ m → t.monitor x = s.monitor x) ∧
        t.bwu.map = s.bwu.map ∧
        t.wfe = s.wfe ∧
        t.wiu = s.wiu ∧
        t.cc = s.cc ∧
        t.sd.runs = s.sd.runs ∧
        t.bwu.episodes = s.bwu.episodes.set k (some { e with closure := some ⟨.clear, now s, Config.count32 (s.bwu.closures + 1)⟩ }) ∧
        .episode k ∈ t.lc.notices ∧
        (∀ p : Fin 24, (t.pile p).escalated = (escalatedSet t).getLsbD p)) ∧
    (∀ (tag n v : Nat) (s : State),
      s.lc.reply = none →
      8 ≤ n →
      exec (.reading tag n v) s = .next
        (startReply (refusal 0x12 tag .outOfRange) false s)) ∧
    (∀ (tag : Nat) (m : Fin 8) (v : Nat) (s : State),
      s.lc.reply = none →
      (s.monitor m).configured = false →
      v ≤ 65535 →
      exec (.reading tag m v) s = .next
        (startReply (refusal 0x12 tag .noSuchObject) false s)) ∧
    (∀ (k : Nat) (s : State), episodeSlot s = some k → k < s.bwu.episodes.length ∧
      if ∃ e ∈ s.bwu.episodes, e = none then
        s.episode k = none ∧ ∀ j < k, (s.episode j).isSome = true
      else if ∃ e ∈ s.bwu.episodes, ∃ y ∈ e, y.closure.isSome = true ∧ y.reported = true then
        ∃ e ∈ s.episode k, ∃ x ∈ e.closure, e.reported = true ∧
            ∀ j, ∀ y ∈ s.episode j, ∀ z ∈ y.closure, y.reported = true → x.number ≤ z.number
      else
        ∃ e ∈ s.episode k, ∃ x ∈ e.closure,
            ∀ j, ∀ y ∈ s.episode j, ∀ z ∈ y.closure, x.number ≤ z.number) ∧
    (∀ s : State, episodeSlot s = none ↔
      ∀ e ∈ s.bwu.episodes, ∃ y ∈ e, y.closure = none)

/-- IDENT is answered with the codes, the revision, the rate, the split, the mode, the STOP
level and the fixed counts. R165. Where it rests on the model's choices: logs 4, 13. -/
def Obligations.IdentGivesTheIdentity : Prop :=
  ∀ (tag : Nat) (s : State),
    s.lc.reply = none →
    exec (.ident tag) s = .next
      (startReply (acceptance 0x01 tag ([0x17, 0x5D, 0x32, 0x00, 0x01, 0x00] ++
          le 4 s.lc.rate.bitsPerSecond ++
        le 1 s.mau.split.forecast ++ le 1 s.mau.split.episodes ++ le 1 s.mau.split.orders ++
        le 1 (96 - s.mau.split.forecast - s.mau.split.episodes - s.mau.split.orders) ++
        le 1 s.mau.mode.code ++ optional 1 (s.mau.cause.map Cause.code) ++
        flagByte (stopAsserted s) ++ [24, 32, 4, 8, 4, 2, 96, 51, 142])) false s)

/-- MAST_SERVICE sets one declared-out flag and ATTRIB writes one set of the attribution map.
R7, R14, R150, R181. Where it rests on the model's choices: logs 4, 13. -/
def Obligations.MastServiceAndAttribActOnOneObject : Prop :=
  (∀ (tag : Nat) (m : Fin 2) (s : State),
      s.lc.reply = none →
      fitted s m = true →
      ∃ t, exec (.mastService tag m 0) s = .next (startReply (acceptance 0x15 tag
          (le 1 m ++ [1] ++ flagByte (s.mast m).suspect ++ [1])) false t) ∧
        t.mast m = { s.mast m with declaredOut := true } ∧
        (∀ x, x ≠ m → t.mast x = s.mast x) ∧
        t.wfe = { s.wfe with masts := t.wfe.masts } ∧
        (t.mau.alerts.get (.mastSuspect m)).condition = true ∧
        t.mau = { s.mau with alerts := t.mau.alerts } ∧
        t.sd = { s.sd with passDue := false } ∧
        t.cc = s.cc ∧
        t.wiu = s.wiu ∧
        t.bwu = s.bwu ∧
        t.yc = s.yc ∧
        t.ft = s.ft ∧
        t.pau = s.pau ∧
        t.site = s.site ∧
        t.pins = s.pins) ∧
    (∀ (tag : Nat) (m : Fin 2) (s : State),
      s.lc.reply = none →
      fitted s m = true →
      ∃ t, exec (.mastService tag m 1) s = .next (startReply (acceptance 0x15 tag
          (le 1 m ++ [1] ++ flagByte (s.mast m).suspect ++ [0])) false t) ∧
        t.mast m = { s.mast m with declaredOut := false } ∧
        (∀ x, x ≠ m → t.mast x = s.mast x) ∧
        t.wfe = { s.wfe with masts := t.wfe.masts } ∧
        (t.mau.alerts.get (.mastSuspect m)).condition = (s.mast m).suspect ∧
        t.mau = { s.mau with alerts := t.mau.alerts } ∧
        t.sd = { s.sd with passDue := false } ∧
        t.cc = s.cc ∧
        t.wiu = s.wiu ∧
        t.bwu = s.bwu ∧
        t.yc = s.yc ∧
        t.ft = s.ft ∧
        t.pau = s.pau ∧
        t.site = s.site ∧
        t.pins = s.pins) ∧
    (∀ (tag m a : Nat) (s : State),
      s.lc.reply = none →
      (2 ≤ m ∨ 2 ≤ a) →
      exec (.mastService tag m a) s = .next
        (startReply (refusal 0x15 tag .outOfRange) false s)) ∧
    (∀ (tag a : Nat) (s : State),
      s.lc.reply = none →
      s.site.mast1Fitted = false →
      a < 2 →
      exec (.mastService tag 1 a) s = .next
        (startReply (refusal 0x15 tag .noSuchObject) false s)) ∧
    (∀ (tag : Nat) (m : Fin 8) (n : Fin 16) (ps : List (Fin 24)) (s : State),
      s.lc.reply = none →
      ps.length ≤ 12 →
      ∃ t, exec (.attrib tag m n ps.length (ps.map Fin.val)) s = .next (startReply (acceptance 0x08 tag
          (le 1 m ++ le 1 n ++ le 3 ((t.bwu.map.get m).get n).toNat)) false t) ∧
        (∀ x y, ∀ p : Fin 24, ((t.bwu.map.get x).get y).getLsbD p =
        if x = m ∧ y = n then !ps.isEmpty && (((s.bwu.map.get x).get y).getLsbD p || decide (p ∈ ps))
        else ((s.bwu.map.get x).get y).getLsbD p) ∧
        t = { s.setPass false with bwu := { s.bwu with map := t.bwu.map } }) ∧
    (∀ (tag m n : Nat) (ps : List Nat) (s : State),
      s.lc.reply = none →
      (8 ≤ m ∨ 16 ≤ n ∨ 12 < ps.length ∨ ∃ p ∈ ps, 24 ≤ p) →
      exec (.attrib tag m n ps.length ps) s = .next
        (startReply (refusal 0x08 tag .outOfRange) false s)) ∧
    (∀ (tag m n k : Nat) (ps : List Nat) (s : State),
      s.lc.reply = none →
      k ≠ ps.length →
      exec (.attrib tag m n k ps) s = .next
        (startReply (refusal 0x08 tag .badLength) false s))

/-- ORDER_WET takes the lowest free slot or is refused in the rule's order; its grant pass goes
by R125 and R126 and may start the pump set. R68, R71, R113, R119, R122, R124, R125, R126, R128,
R129, R159, R184. Where it rests on the model's choices: logs 4, 6, 7, 9, 13. -/
def Obligations.WetOrdersAreJudgedEnteredAndServed : Prop :=
  (∀ (tag o : Nat) (p : Fin 24) (v x k : Nat) (s : State),
      s.lc.reply = none →
      (s.mau.mode = .auto ∨ s.mau.mode = .manual) →
      (1 ≤ v ∧ v ≤ 10000000) →
      x ≤ 86400 →
      (s.pile p).configured = true →
      (s.pile p).hold = false →
      (∀ y ∈ s.sd.orders, ∀ r ∈ y, r.tag ≠ o) →
      k < s.sd.orders.length →
      s.order k = none →
      (∀ j < k, (s.order j).isSome = true) →
      ∃ t, exec (.orderWet tag o p v x) s = .next (startReply (acceptance 0x20 tag
          (le 1 k ++ orderBlock (t.order k) ++
            le 1 ((List.finRange 32).filter fun c => decide (∃ r ∈ t.run c, r.origin = .order k)).length)) false t) ∧
        (t.sd.orders = s.sd.orders.set k (some {
        tag := o, kind := .wet, pile := p, volume := v, duration := 0, delivered := 0,
        countdown := if x = 0 then none else some (Config.seconds x),
        acceptance := Config.count48 (s.sd.acceptances + 1), acceptedTime := now s, closure := none })) ∧
        t.sd.acceptances = Config.count48 (s.sd.acceptances + 1) ∧
        (∀ c, (s.run c).isSome = true → (t.run c).isSome = true) ∧
        (∀ c, s.run c = none → ∀ r ∈ t.run c,
        r.delivered = 0 ∧ r.phase = .active .none none ∧ r.pile = (s.cannon c).config.pile) ∧
        (∀ c, eligible t c = true → (t.cannon c).config.pile = p →
            (∃ y ∈ t.order k, 0 < undelivered t k y) →
        capacity t < reservedFlow t + (t.cannon c).config.flow) ∧
        PassMade t ∧
        PassTaken { s with sd := { s.sd with orders := t.sd.orders } } t ∧
        (ValvesSound s → s.wiu.pump.phase = .off → t.wiu.pump = pumpStarted s t) ∧
        (s.wiu.pump.phase = .priming ∨ s.wiu.pump.phase = .changeover → t.wiu.pump = s.wiu.pump) ∧
        t.pau = s.pau ∧
        SprayFrame s t ∧
        WaterFrame s t ∧
        CannonsFrame s t) ∧
    (∀ (tag o p v x : Nat) (s : State),
      s.lc.reply = none →
      s.mau.mode = .standby →
      exec (.orderWet tag o p v x) s = .next
        (startReply (refusal 0x20 tag .wrongMode) false s)) ∧
    (∀ (tag o p v x : Nat) (s : State),
      s.lc.reply = none →
      s.mau.mode = .lockdown →
      exec (.orderWet tag o p v x) s = .next
        (startReply (refusal 0x20 tag .lockdown) false s)) ∧
    (∀ (tag o p v x : Nat) (s : State),
      s.lc.reply = none →
      (s.mau.mode = .auto ∨ s.mau.mode = .manual) →
      (24 ≤ p ∨ v = 0 ∨ 10000000 < v ∨ 86400 < x) →
      exec (.orderWet tag o p v x) s = .next
        (startReply (refusal 0x20 tag .outOfRange) false s)) ∧
    (∀ (tag o : Nat) (p : Fin 24) (v x : Nat) (s : State),
      s.lc.reply = none →
      (s.mau.mode = .auto ∨ s.mau.mode = .manual) →
      (1 ≤ v ∧ v ≤ 10000000) →
      x ≤ 86400 →
      (s.pile p).configured = false →
      exec (.orderWet tag o p v x) s = .next
        (startReply (refusal 0x20 tag .noSuchObject) false s)) ∧
    (∀ (tag o : Nat) (p : Fin 24) (v x : Nat) (s : State),
      s.lc.reply = none →
      (s.mau.mode = .auto ∨ s.mau.mode = .manual) →
      (1 ≤ v ∧ v ≤ 10000000) →
      x ≤ 86400 →
      (s.pile p).configured = true →
      (s.pile p).hold = true →
      exec (.orderWet tag o p v x) s = .next
        (startReply (refusal 0x20 tag .held) false s)) ∧
    (∀ (tag o : Nat) (p : Fin 24) (v x : Nat) (s : State),
      s.lc.reply = none →
      (s.mau.mode = .auto ∨ s.mau.mode = .manual) →
      (1 ≤ v ∧ v ≤ 10000000) →
      x ≤ 86400 →
      (s.pile p).configured = true →
      (s.pile p).hold = false →
      (∃ y ∈ s.sd.orders, ∃ r ∈ y, r.tag = o) →
      exec (.orderWet tag o p v x) s = .next
        (startReply (refusal 0x20 tag .duplicateTag) false s)) ∧
    (∀ (tag o : Nat) (p : Fin 24) (v x : Nat) (s : State),
      s.lc.reply = none →
      (s.mau.mode = .auto ∨ s.mau.mode = .manual) →
      (1 ≤ v ∧ v ≤ 10000000) →
      x ≤ 86400 →
      (s.pile p).configured = true →
      (s.pile p).hold = false →
      (∀ y ∈ s.sd.orders, ∀ r ∈ y, r.tag ≠ o) →
      (∀ y ∈ s.sd.orders, y.isSome = true) →
      exec (.orderWet tag o p v x) s = .next
        (startReply (refusal 0x20 tag .full) false s)) ∧
    (∀ (test : Run → Bool) (s : State), outstandingOf s test =
      ((List.finRange 32).map fun c =>
        match s.run c with
        | some r =>
          if test r = true then
            match r.phase with
            | .active .ends _ => 0
            | _ => r.target - r.delivered
          else 0
        | none => 0).sum) ∧
    (∀ (k : Nat) (o : Order) (s : State), undelivered s k o =
      o.volume - o.delivered - outstandingOf s fun r => r.origin = .order k)

/-- ORDER_HOLD enters its order, sets the hold flag, supersedes the pile's OPEN WET orders and
ends its AUTO runs. R91, R92, R116, R130, R133, R159, R184. Where it rests on the model's
choices: logs 4, 6, 7, 9, 13, 24. -/
def Obligations.HoldOrdersSupersedeAndEndAutoRuns : Prop :=
  (∀ (tag o : Nat) (p : Fin 24) (d k : Nat) (s : State),
      s.lc.reply = none →
      s.mau.mode ≠ .standby →
      (1 ≤ d ∧ d ≤ 86400) →
      (s.pile p).configured = true →
      (∀ y ∈ s.sd.orders, ∀ r ∈ y, r.tag ≠ o) →
      k < s.sd.orders.length →
      s.order k = none →
      (∀ j < k, (s.order j).isSome = true) →
      ∃ t, exec (.orderHold tag o p d) s = .next (startReply (acceptance 0x21 tag
          (le 1 k ++ orderBlock (t.order k) ++
            le 1 ((List.finRange 32).filter fun c => decide (∃ r ∈ t.run c, r.origin = .order k)).length)) false t) ∧
        t.order k = some {
        tag := o, kind := .hold, pile := p, volume := 0, duration := d, delivered := 0,
        countdown := some (Config.seconds d), acceptance := Config.count48 (s.sd.acceptances + 1),
        acceptedTime := now s, closure := none } ∧
        t.sd.acceptances = Config.count48 (s.sd.acceptances + 1) ∧
        (∀ j, j ≠ k → t.order j = (s.order j).map fun y =>
        if y.kind = .wet ∧ y.pile = p ∧ y.closure = none then
          { y with countdown := none, closure := some ⟨.superseded, now s⟩ } else y) ∧
        (∀ j, ∀ y ∈ s.order j, y.kind = .wet → y.pile = p → y.closure = none →
            .order j ∈ t.lc.notices) ∧
        (∀ c, ∀ r ∈ t.run c, r.origin = .auto → r.pile = p → ∃ n, r.phase = .active .ends n) ∧
        (ValvesSound s → RunsSound s → ∀ c, ∀ r ∈ s.run c, r.origin = .auto → r.pile = p →
        EndDecided c r s t) ∧
        (ValvesSound s → RunsSound s → ∀ j, ∀ y ∈ s.order j, y.kind = .wet → y.pile = p →
            y.closure = none →
        ∀ c, ∀ r ∈ s.run c, r.origin = .order j → EndDecided c { r with origin := .detached } s t) ∧
        t.pile p = { s.pile p with hold := true } ∧
        (∀ q, q ≠ p → t.pile q = s.pile q) ∧
        SprayFrame s t ∧
        WaterFrame s t ∧
        CannonsFrame s t) ∧
    (∀ (tag o p d : Nat) (s : State),
      s.lc.reply = none →
      s.mau.mode = .standby →
      exec (.orderHold tag o p d) s = .next
        (startReply (refusal 0x21 tag .wrongMode) false s)) ∧
    (∀ (tag o p d : Nat) (s : State),
      s.lc.reply = none →
      s.mau.mode ≠ .standby →
      (24 ≤ p ∨ d = 0 ∨ 86400 < d) →
      exec (.orderHold tag o p d) s = .next
        (startReply (refusal 0x21 tag .outOfRange) false s)) ∧
    (∀ (tag o : Nat) (p : Fin 24) (d : Nat) (s : State),
      s.lc.reply = none →
      s.mau.mode ≠ .standby →
      (1 ≤ d ∧ d ≤ 86400) →
      (s.pile p).configured = false →
      exec (.orderHold tag o p d) s = .next
        (startReply (refusal 0x21 tag .noSuchObject) false s)) ∧
    (∀ (tag o : Nat) (p : Fin 24) (d : Nat) (s : State),
      s.lc.reply = none →
      s.mau.mode ≠ .standby →
      (1 ≤ d ∧ d ≤ 86400) →
      (s.pile p).configured = true →
      (∃ y ∈ s.sd.orders, ∃ r ∈ y, r.tag = o) →
      exec (.orderHold tag o p d) s = .next
        (startReply (refusal 0x21 tag .duplicateTag) false s)) ∧
    (∀ (tag o : Nat) (p : Fin 24) (d : Nat) (s : State),
      s.lc.reply = none →
      s.mau.mode ≠ .standby →
      (1 ≤ d ∧ d ≤ 86400) →
      (s.pile p).configured = true →
      (∀ y ∈ s.sd.orders, ∀ r ∈ y, r.tag ≠ o) →
      (∀ y ∈ s.sd.orders, y.isSome = true) →
      exec (.orderHold tag o p d) s = .next
        (startReply (refusal 0x21 tag .full) false s))

/-- LOCK takes a cannon out of use with its valve released; UNLOCK returns it to IDLE or finds it
STUCK. R93, R97, R99, R100, R101, R102, R121, R131, R184. Where it rests on the model's choices:
logs 4, 6, 9, 12, 13. -/
def Obligations.CannonServiceLocksAndUnlocks : Prop :=
  (∀ (tag : Nat) (c : Fin 32) (s : State),
      s.lc.reply = none →
      (s.cannon c).configured = true →
      (s.cannon c).phase ≠ .stuck →
      (s.cannon c).phase ≠ .locked →
      ∃ t, exec (.cannonService tag c 0) s = .next (startReply (acceptance 0x23 tag
          (le 1 c ++ le 1 (t.cannon c).phase.code ++ le 1 (movementCode (queuedMovement t c)) ++
              flagByte (t.cannon c).travel.isSome)) false t) ∧
        (t.cannon c).phase = .locked ∧
        (t.cannon c).lostWater = none ∧
        ((t.cannon c).travel = (if feedbackOpen s c = false then none
        else match (s.cannon c).phase with
          | .opening => some (Config.seconds s.site.travel)
          | .spraying => some (Config.seconds s.site.travel)
          | .closePending => some (Config.seconds s.site.travel)
          | .closing => (s.cannon c).travel
          | _ => none)) ∧
        valveDriven t c = false ∧
        ((s.cannon c).phase.busy = true → (s.cannon c).phase ≠ .closing →
            queuedMovement t c = none) ∧
        ((s.cannon c).phase ≠ .faulted →
            t.run c = none ∧ OrderTestedAt c s t ∧ t.sd.suspensions = s.sd.suspensions) ∧
        (t.mau.alerts.get (.valve c)).condition = false ∧
        SprayFrame s t ∧
        WaterFrame s t ∧
        PilesFrame s t ∧
        CannonsFrame s t) ∧
    (∀ (tag : Nat) (c : Fin 32) (s : State),
      s.lc.reply = none →
      (s.cannon c).configured = true →
      (s.cannon c).phase = .locked →
      exec (.cannonService tag c 0) s = .next
        (startReply (acceptance 0x23 tag (le 1 c ++ le 1 (s.cannon c).phase.code ++
          le 1 (movementCode (queuedMovement s c)) ++ flagByte (s.cannon c).travel.isSome)) false (s.setPass false))) ∧
    (∀ (tag : Nat) (c : Fin 32) (s : State),
      s.lc.reply = none →
      (s.cannon c).configured = true →
      ((s.cannon c).phase = .locked ∨ (s.cannon c).phase = .faulted) →
      feedbackOpen s c = false →
      ∃ t, exec (.cannonService tag c 1) s = .next (startReply (acceptance 0x23 tag
          (le 1 c ++ le 1 (t.cannon c).phase.code ++ le 1 (movementCode (queuedMovement t c)) ++
              flagByte (t.cannon c).travel.isSome)) false t) ∧
        ((t.cannon c).phase = .idle ∨ (t.cannon c).phase = .pendingOpen ∨
            (t.cannon c).phase = .opening) ∧
        ((t.cannon c).phase = .idle → (t.cannon c).travel = none) ∧
        (t.cannon c).lostWater = none ∧
        (t.mau.alerts.get (.valve c)).condition = false ∧
        SprayFrame s t ∧
        WaterFrame s t ∧
        PilesFrame s t ∧
        CannonsFrame s t) ∧
    (∀ (tag : Nat) (c : Fin 32) (s : State),
      s.lc.reply = none →
      (s.cannon c).configured = true →
      ((s.cannon c).phase = .locked ∨ (s.cannon c).phase = .faulted) →
      feedbackOpen s c = true →
      ∃ t, exec (.cannonService tag c 1) s = .next (startReply (acceptance 0x23 tag
          (le 1 c ++ le 1 (t.cannon c).phase.code ++ le 1 (movementCode (queuedMovement t c)) ++
              flagByte (t.cannon c).travel.isSome)) false t) ∧
        (t.cannon c).phase = .stuck ∧
        (t.cannon c).travel = none ∧
        (t.cannon c).lostWater = some (Config.seconds 1) ∧
        t.run c = none ∧
        (ValvesSound s → RunsSound s → UnbiddenFlowAnswered (s.cannon c).config.flow c s t) ∧
        (t.mau.alerts.get (.valve c)).condition = true ∧
        SprayFrame s t ∧
        WaterFrame s t ∧
        PilesFrame s t ∧
        CannonsFrame s t) ∧
    (∀ (tag c a : Nat) (s : State),
      s.lc.reply = none →
      (32 ≤ c ∨ 2 ≤ a) →
      exec (.cannonService tag c a) s = .next
        (startReply (refusal 0x23 tag .outOfRange) false s)) ∧
    (∀ (tag : Nat) (c : Fin 32) (a : Nat) (s : State),
      s.lc.reply = none →
      (s.cannon c).configured = false →
      a < 2 →
      exec (.cannonService tag c a) s = .next
        (startReply (refusal 0x23 tag .noSuchObject) false s)) ∧
    (∀ (tag : Nat) (c : Fin 32) (s : State),
      s.lc.reply = none →
      (s.cannon c).configured = true →
      (s.cannon c).phase = .stuck →
      exec (.cannonService tag c 0) s = .next
        (startReply (refusal 0x23 tag .wrongState) false s)) ∧
    (∀ (tag : Nat) (c : Fin 32) (s : State),
      s.lc.reply = none →
      (s.cannon c).configured = true →
      (s.cannon c).phase ≠ .locked →
      (s.cannon c).phase ≠ .faulted →
      exec (.cannonService tag c 1) s = .next
        (startReply (refusal 0x23 tag .wrongState) false s))

/-- ACK_ALERT clears the latch of an entry whose condition is false, and answers PERSISTS where
it is true. R161. Where it rests on the model's choices: logs 4, 13. -/
def Obligations.AcknowledgementsClearLatchesNotConditions : Prop :=
  (∀ (tag : Nat) (e : AlertId) (s : State),
      s.lc.reply = none →
      (s.mau.alerts.get e).condition = false →
      exec (.ackAlert tag e.kindCode e.objectCode) s = .next
        (startReply (acceptance 0x24 tag ([0] ++ le 1 e.kindCode ++ le 1 e.objectCode ++
        [0, 0] ++ absent 4)) false
        ((s.setAlerts (s.mau.alerts.set ⟨false, false, none⟩ e)).setPass false))) ∧
    (∀ (tag : Nat) (e : AlertId) (s : State),
      s.lc.reply = none →
      (s.mau.alerts.get e).condition = true →
      exec (.ackAlert tag e.kindCode e.objectCode) s = .next
        (startReply (acceptance 0x24 tag ([1] ++ le 1 e.kindCode ++ le 1 e.objectCode ++ [1] ++
        flagByte (s.mau.alerts.get e).latch ++ optional 4 (s.mau.alerts.get e).firstLatch)) false
        (s.setPass false))) ∧
    (∀ (tag k x : Nat) (s : State),
      s.lc.reply = none →
      (k = 0 ∨ 9 < k ∨ (k = 1 ∧ 2 ≤ x) ∨ (2 ≤ k ∧ k ≤ 6 ∧ 1 ≤ x) ∨ (k = 7 ∧ 32 ≤ x) ∨
      (k = 8 ∧ 8 ≤ x) ∨ (k = 9 ∧ 4 ≤ x)) →
      exec (.ackAlert tag k x) s = .next
        (startReply (refusal 0x24 tag .outOfRange) false s)) ∧
    (∀ s : State, AlertsSound s →
      (∀ c, (s.cannon c).configured = false → (s.mau.alerts.get (.valve c)).condition = false) ∧
      (∀ m, (s.monitor m).configured = false →
        (s.mau.alerts.get (.monitorStale m)).condition = false) ∧
      (∀ m : Fin 4, s.site.machines ≤ m.val →
        (s.mau.alerts.get (.machineStale m)).condition = false) ∧
      (s.site.mast1Fitted = false → (s.mau.alerts.get (.mastSuspect 1)).condition = false)) ∧
    (∀ (e : AlertId) (s : State), s.mau.alerts.get e = ⟨false, false, none⟩ →
        conditionOf s e = true →
      (syncAlert e s).mau.alerts.get e = ⟨true, true, now s⟩ ∧
      .alert e ∈ (syncAlert e s).lc.notices)

/-- POLL delivers the oldest notices in order, frees the delivered order slots and marks closed
episodes reported. R174, R175, R176, R187. Where it rests on the model's choices: logs 4, 7, 13.
-/
def Obligations.PollDeliversTheOldestNotices : Prop :=
  (∀ (tag n : Nat) (s : State),
      s.lc.reply = none →
      (1 ≤ n ∧ n ≤ 8) →
      NoticesDistinct s →
      ∃ t, exec (.poll tag n) s = .next (startReply (acceptance 0x30 tag
          (le 1 (s.lc.notices.take n).length ++
          (s.lc.notices.take n).flatMap (noticeEntry s) ++
              le 1 (s.lc.notices.drop n).length)) false t) ∧
        t.lc.notices = s.lc.notices.drop n ∧
        (∀ k, t.order k = if .order k ∈ s.lc.notices.take n then none else s.order k) ∧
        (∀ k, t.episode k = (s.episode k).map fun e =>
        if .episode k ∈ s.lc.notices.take n ∧
            e.closure.isSome = true then { e with reported := true } else e) ∧
        t = { s with
        lc := { s.lc with notices := t.lc.notices }
        sd := { s.sd with orders := t.sd.orders }
        bwu := { s.bwu with episodes := t.bwu.episodes } } ∧
        t.sd.orders.length = s.sd.orders.length ∧
        t.bwu.episodes.length = s.bwu.episodes.length) ∧
    (∀ (tag n : Nat) (s : State),
      s.lc.reply = none →
      (n = 0 ∨ 8 < n) →
      exec (.poll tag n) s = .next
        (startReply (refusal 0x30 tag .outOfRange) false s)) ∧
    (∀ (n : Notice) (s : State), noticeEntry s n =
      (match n with
        | .risk p => [1] ++ le 1 p ++ [0]
        | .order k => [2] ++ le 1 k ++ [0]
        | .episode k => [3] ++ le 1 k ++ [0]
        | .alert e => [4] ++ le 1 e.kindCode ++ le 1 e.objectCode
        | .source => [5, 0xFF, 0xFF]
        | .mode => [6, 0xFF, 0xFF]
        | .day => [7, 0xFF, 0xFF]) ++ le 1 (noticeLength n) ++
      match n with
      | .risk p =>
        if (s.pile p).configured = true then
          [1] ++ le 2 (s.pile p).moisture ++ resultsBlock (s.pile p).results
        else [0] ++ List.replicate 25 0xFF
      | .order k => orderBlock (s.order k)
      | .episode k => episodeBlock (s.episode k)
      | .alert e => flagByte (s.mau.alerts.get e).condition ++ flagByte (s.mau.alerts.get e).latch ++
          optional 4 (s.mau.alerts.get e).firstLatch
      | .source => le 1 s.wiu.pump.phase.code ++ optional 1 (s.wiu.pump.source.map Source.code) ++
          le 2 (capacity s) ++ le 1 (waterState s).code
      | .mode => le 1 s.mau.mode.code ++ optional 1 (s.mau.cause.map Cause.code)
      | .day => optional 4 s.yc.recordedDay ++ le 4 s.yc.time ++ flagByte s.yc.valid)

/-- PILE_SETUP configures a pile with W at W0 and no results, or releases it, and touches
nothing else. R37, R38, R39, R183. Where it rests on the model's choices: logs 4, 13. -/
def Obligations.PileSetupWritesOneRecord : Prop :=
  (∀ (tag : Nat) (p : Fin 24) (f : PileFields) (k : PileConfig) (s : State),
      s.lc.reply = none →
      s.mau.mode = .standby →
      pileConfig? f = some k →
      exec (.pileSetup tag p 0 f) s = .next
        (startReply (acceptance 0x04 tag (le 1 p ++ [1] ++
            pileBlock k)) false ((s.setPile p { s.pile p with
        configured := true, config := k, moisture := k.w0, results := none }).setPass false))) ∧
    (∀ (tag : Nat) (p : Fin 24) (f : PileFields) (s : State),
      s.lc.reply = none →
      s.mau.mode = .standby →
      (s.pile p).configured = true →
      exec (.pileSetup tag p 1 f) s = .next
        (startReply (acceptance 0x04 tag (le 1 p ++ [0] ++ pileBlock (s.pile p).config)) false
        ((s.setPile p { s.pile p with
          configured := false, moisture := 0, pendingSpray := 0, pendingRain := 0, deliveredToday := 0
          results := none }).setPass false))) ∧
    (∀ (tag : Nat) (p : Fin 24) (f : PileFields) (s : State),
      s.lc.reply = none →
      s.mau.mode = .standby →
      (s.pile p).configured = false →
      exec (.pileSetup tag p 1 f) s = .next
        (startReply (acceptance 0x04 tag (le 1 p ++ [0] ++
            pileBlock (s.pile p).config)) false (s.setPass false))) ∧
    (∀ (tag i a : Nat) (f : PileFields) (s : State),
      s.lc.reply = none →
      s.mau.mode ≠ .standby →
      exec (.pileSetup tag i a f) s = .next
        (startReply (refusal 0x04 tag .wrongMode) false s)) ∧
    (∀ (tag i a : Nat) (f : PileFields) (s : State),
      s.lc.reply = none →
      s.mau.mode = .standby →
      (24 ≤ i ∨ 2 ≤ a ∨ (a = 0 ∧ pileConfig? f = none)) →
      exec (.pileSetup tag i a f) s = .next
        (startReply (refusal 0x04 tag .outOfRange) false s)) ∧
    (∀ f : PileFields, (pileConfig? f).isSome = true ↔
      f.t0 ≤ 300 ∧ (1 ≤ f.s ∧ f.s ≤ 100) ∧ (100 ≤ f.area ∧ f.area ≤ 60000) ∧
      (10 ≤ f.retention ∧ f.retention ≤ 100) ∧ f.wcap ≤ 20000 ∧ (f.drain ≤ 3 ∨ f.drain = 255) ∧
      f.exposure.length = 16 ∧ (∀ x ∈ f.exposure, x ≤ 24) ∧ f.w0 ≤ 20000) ∧
    (∀ (f : PileFields) (k : PileConfig), pileConfig? f = some k →
      k.t0 = f.t0 ∧ k.s = f.s ∧ k.area = f.area ∧ k.retention = f.retention ∧ k.wcap = f.wcap ∧
      k.drain.map Fin.val = (if f.drain = 255 then none else some f.drain) ∧
      k.exposure.rows = f.exposure ∧ k.w0 = f.w0)

/-- CANNON_SETUP writes the configuration and both flags, finds an open valve STUCK, or releases
the cannon. R87, R88, R97, R99, R103, R106, R121, R184. Where it rests on the model's choices:
logs 4, 6, 12, 13, 22. -/
def Obligations.CannonSetupJudgesTheCannonAtOnce : Prop :=
  (∀ (tag : Nat) (c : Fin 32) (f : CannonFields) (k : CannonConfig) (s : State),
      s.lc.reply = none →
      s.mau.mode = .standby →
      (s.cannon c).phase.reserves = false →
      cannonConfig? f = some k →
      (feedbackOpen s c = false ∨ ((s.cannon c).configured = true ∧ (s.cannon c).phase ≠ .idle)) →
      ∃ t, exec (.cannonSetup tag c 0 f) s = .next (startReply (acceptance 0x05 tag
          (le 1 c ++ flagByte (t.cannon c).configured ++ cannonBlock (t.cannon c).config ++
            le 1 (t.cannon c).phase.code ++ flagByte (t.cannon c).driftBlocked ++
            flagByte (t.cannon c).excluded)) false t) ∧
        (t = (s.setCannon c { s.cannon c with
        configured := true, config := k
        phase := if (s.cannon c).configured then (s.cannon c).phase else .idle
        driftBlocked := decide (k.driftLimit < s.wfe.published.gust) ||
          !sectorPasses k.mask s.wfe.published.direction
        excluded := shouldExclude t c }).setPass false)) ∧
    (∀ (tag : Nat) (c : Fin 32) (f : CannonFields) (k : CannonConfig) (s : State),
      s.lc.reply = none →
      s.mau.mode = .standby →
      (s.cannon c).phase.reserves = false →
      cannonConfig? f = some k →
      feedbackOpen s c = true →
      ((s.cannon c).configured = false ∨ (s.cannon c).phase = .idle) →
      ∃ t, exec (.cannonSetup tag c 0 f) s = .next (startReply (acceptance 0x05 tag
          (le 1 c ++ flagByte (t.cannon c).configured ++ cannonBlock (t.cannon c).config ++
            le 1 (t.cannon c).phase.code ++ flagByte (t.cannon c).driftBlocked ++
            flagByte (t.cannon c).excluded)) false t) ∧
        t.cannon c = ⟨true, k, .stuck, none, some (Config.seconds 1),
        decide (k.driftLimit < s.wfe.published.gust) || !sectorPasses k.mask s.wfe.published.direction,
        shouldExclude t c⟩ ∧
        t.run c = none ∧
        (ValvesSound s → RunsSound s → UnbiddenFlowAnswered k.flow c s t) ∧
        (t.mau.alerts.get (.valve c)).condition = true ∧
        SprayFrame s t ∧
        WaterFrame s t ∧
        PilesFrame s t ∧
        CannonsFrame (s.setCannon c (t.cannon c)) t) ∧
    (∀ (tag : Nat) (c : Fin 32) (f : CannonFields) (s : State),
      s.lc.reply = none →
      s.mau.mode = .standby →
      (s.cannon c).phase.reserves = false →
      (s.cannon c).configured = true →
      ∃ t, exec (.cannonSetup tag c 1 f) s = .next (startReply (acceptance 0x05 tag
          (le 1 c ++ flagByte (t.cannon c).configured ++ cannonBlock (t.cannon c).config ++
            le 1 (t.cannon c).phase.code ++ flagByte (t.cannon c).driftBlocked ++
            flagByte (t.cannon c).excluded)) false t) ∧
        t.cannon c = { s.cannon c with
        configured := false, phase := .idle, travel := none, lostWater := none
        driftBlocked := false, excluded := false } ∧
        (∀ x, x ≠ c → t.cannon x = s.cannon x) ∧
        t.cc = { s.cc with cannons := t.cc.cannons } ∧
        t.sd = { s.sd with passDue := false } ∧
        t.wiu = s.wiu ∧
        t.pau = s.pau ∧
        (t.mau.alerts.get (.valve c)).condition = false ∧
        SprayFrame s t) ∧
    (∀ (tag : Nat) (c : Fin 32) (f : CannonFields) (s : State),
      s.lc.reply = none →
      s.mau.mode = .standby →
      (s.cannon c).phase.reserves = false →
      (s.cannon c).configured = false →
      exec (.cannonSetup tag c 1 f) s = .next
        (startReply (acceptance 0x05 tag (le 1 c ++ flagByte (s.cannon c).configured ++ cannonBlock (s.cannon c).config ++
            le 1 (s.cannon c).phase.code ++ flagByte (s.cannon c).driftBlocked ++
            flagByte (s.cannon c).excluded)) false (s.setPass false))) ∧
    (∀ (tag i a : Nat) (f : CannonFields) (s : State),
      s.lc.reply = none →
      s.mau.mode ≠ .standby →
      exec (.cannonSetup tag i a f) s = .next
        (startReply (refusal 0x05 tag .wrongMode) false s)) ∧
    (∀ (tag i a : Nat) (f : CannonFields) (s : State),
      s.lc.reply = none →
      s.mau.mode = .standby →
      (32 ≤ i ∨ 2 ≤ a ∨ (a = 0 ∧ cannonConfig? f = none)) →
      exec (.cannonSetup tag i a f) s = .next
        (startReply (refusal 0x05 tag .outOfRange) false s)) ∧
    (∀ (tag : Nat) (c : Fin 32) (a : Nat) (f : CannonFields) (s : State),
      s.lc.reply = none →
      s.mau.mode = .standby →
      (s.cannon c).phase.reserves = true →
      (a = 1 ∨ (a = 0 ∧ cannonConfig? f ≠ none)) →
      exec (.cannonSetup tag c a f) s = .next
        (startReply (refusal 0x05 tag .wrongState) false s)) ∧
    (∀ f : CannonFields, (cannonConfig? f).isSome = true ↔
      f.pile ≤ 23 ∧ (10 ≤ f.flow ∧ f.flow ≤ 1000) ∧ (f.rail ≤ 1 ∨ f.rail = 255) ∧
      f.zoneStart ≤ f.zoneEnd ∧ f.zoneEnd ≤ 4000 ∧ f.driftLimit ≤ 600 ∧ f.mask ≤ 65535) ∧
    (∀ (f : CannonFields) (k : CannonConfig), cannonConfig? f = some k →
      k.pile.val = f.pile ∧ k.flow = f.flow ∧
      k.rail.map Fin.val = (if f.rail = 255 then none else some f.rail) ∧
      k.zoneStart = f.zoneStart ∧ k.zoneEnd = f.zoneEnd ∧ k.driftLimit = f.driftLimit ∧
      k.mask.toNat = f.mask)

/-- POND_SETUP configures a pond at its initial volume or releases it, the difference counted as
a correction. R61, R62, R63, R81, R184. Where it rests on the model's choices: logs 4, 6, 13. -/
def Obligations.PondSetupWritesOneRecord : Prop :=
  (∀ (tag : Nat) (p : Fin 4) (f : PondFields) (k : PondConfig) (s : State),
      s.lc.reply = none →
      s.mau.mode = .standby →
      pondConfig? f = some k →
      (∀ q, q ≠ p → (s.pond q).configured = true → (s.pond q).config.priority ≠ k.priority) →
      (s.wiu.pump.source ≠ some (.pond p) ∨ s.wiu.pump.phase = .off) →
      ∃ t, exec (.pondSetup tag p 0 f) s = .next (startReply (acceptance 0x06 tag
          (le 1 p ++ [1] ++ pondBlock k ++ le 4 k.initial)) false t) ∧
        t.pond p = ⟨true, k, k.initial, true, none, 0,
        !(s.pond p).configured || (s.pond p).clear, !(s.pond p).configured || (s.pond p).inService⟩ ∧
        (t.wiu.today = { s.wiu.today with ponds := s.wiu.today.ponds.set p { s.wiu.today.ponds.get p with
        corrections := Config.signed48 ((s.wiu.today.ponds.get p).corrections + ((k.initial : Int) -
          if (s.pond p).configured then ((s.pond p).volume : Int) else 0)) } }) ∧
        (∀ q, q ≠ p → t.pond q = s.pond q) ∧
        t.wiu.previous = s.wiu.previous ∧
        (t.mau.alerts.get .waterShort).condition = decide (waterState t = .short) ∧
        t.cc = s.cc ∧
        t.sd = { s.sd with passDue := false } ∧
        t.pau = s.pau ∧
        SprayFrame s t) ∧
    (∀ (tag : Nat) (p : Fin 4) (f : PondFields) (s : State),
      s.lc.reply = none →
      s.mau.mode = .standby →
      (s.wiu.pump.source ≠ some (.pond p) ∨ s.wiu.pump.phase = .off) →
      (s.pond p).configured = true →
      ∃ t, exec (.pondSetup tag p 1 f) s = .next (startReply (acceptance 0x06 tag
          (le 1 p ++ [0] ++ pondBlock (s.pond p).config ++ le 4 0)) false t) ∧
        t.pond p = ⟨false, (s.pond p).config, 0, true, none, 0, true, true⟩ ∧
        t.wiu.today = { s.wiu.today with ponds := s.wiu.today.ponds.set p { s.wiu.today.ponds.get p with
        corrections := Config.signed48 ((s.wiu.today.ponds.get p).corrections + (-((s.pond p).volume : Int))) } } ∧
        (∀ q, q ≠ p → t.pond q = s.pond q) ∧
        t.wiu.previous = s.wiu.previous ∧
        (t.mau.alerts.get .waterShort).condition = decide (waterState t = .short) ∧
        t.cc = s.cc ∧
        t.sd = { s.sd with passDue := false } ∧
        t.pau = s.pau ∧
        SprayFrame s t) ∧
    (∀ (tag : Nat) (p : Fin 4) (f : PondFields) (s : State),
      s.lc.reply = none →
      s.mau.mode = .standby →
      (s.wiu.pump.source ≠ some (.pond p) ∨ s.wiu.pump.phase = .off) →
      (s.pond p).configured = false →
      exec (.pondSetup tag p 1 f) s = .next
        (startReply (acceptance 0x06 tag (le 1 p ++ [0] ++ pondBlock (s.pond p).config ++ le 4 (s.pond p).volume)) false (s.setPass false))) ∧
    (∀ (tag i a : Nat) (f : PondFields) (s : State),
      s.lc.reply = none →
      s.mau.mode ≠ .standby →
      exec (.pondSetup tag i a f) s = .next
        (startReply (refusal 0x06 tag .wrongMode) false s)) ∧
    (∀ (tag i a : Nat) (f : PondFields) (s : State),
      s.lc.reply = none →
      s.mau.mode = .standby →
      (4 ≤ i ∨ 2 ≤ a ∨ (a = 0 ∧ pondConfig? f = none)) →
      exec (.pondSetup tag i a f) s = .next
        (startReply (refusal 0x06 tag .outOfRange) false s)) ∧
    (∀ (tag : Nat) (p q : Fin 4) (f : PondFields) (s : State),
      s.lc.reply = none →
      s.mau.mode = .standby →
      q ≠ p →
      (s.pond q).configured = true →
      (s.pond q).config.priority = f.priority →
      exec (.pondSetup tag p 0 f) s = .next
        (startReply (refusal 0x06 tag .outOfRange) false s)) ∧
    (∀ (tag : Nat) (p : Fin 4) (a : Nat) (f : PondFields) (s : State),
      s.lc.reply = none →
      s.mau.mode = .standby →
      s.wiu.pump.source = some (.pond p) →
      s.wiu.pump.phase ≠ .off →
      (a = 1 ∨ (a = 0 ∧ pondConfig? f ≠ none ∧ ∀ q, q ≠ p → (s.pond q).configured = true →
        (s.pond q).config.priority ≠ f.priority)) →
      exec (.pondSetup tag p a f) s = .next
        (startReply (refusal 0x06 tag .wrongState) false s)) ∧
    (∀ f : PondFields, (pondConfig? f).isSome = true ↔
      (1 ≤ f.capacity ∧ f.capacity ≤ 500000000) ∧ f.floor < f.capacity ∧ (100 ≤ f.flow ∧
          f.flow ≤ 5000) ∧
      f.catchment ≤ 500000 ∧ f.settleTime ≤ 86400 ∧ (1 ≤ f.stirVolume ∧ f.stirVolume ≤ 10000000) ∧
      f.priority ≤ 3 ∧ f.initial ≤ f.capacity) ∧
    (∀ (f : PondFields) (k : PondConfig), pondConfig? f = some k →
      k.capacity = f.capacity ∧ k.floor = f.floor ∧ k.flow = f.flow ∧ k.catchment = f.catchment ∧
      k.settleTime = f.settleTime ∧ k.stirVolume = f.stirVolume ∧ k.priority = f.priority ∧
      k.initial = f.initial)

/-- SITE_SETUP writes every parameter at once, and each block applies the new values as its rule
says. R5, R16, R23, R33, R67, R105, R129, R130, R135, R158, R182, 00_scope.md: the table of site
parameters. Where it rests on the model's choices: logs 4, 13, 14, 18, 30. That an unchanged Fa
below Fu is refused is the model's choice, log 30. -/
def Obligations.SiteSetupIsAppliedByEachBlock : Prop :=
  (∀ (tag : Nat) (f : SiteFields) (v : Site) (s : State),
      s.lc.reply = none →
      s.mau.mode = .standby →
      site? f = some v →
      s.wiu.today.fresh ≤ v.freshAllocation →
      (v.freshRate = s.site.freshRate ∨ s.wiu.pump.source ≠ some .fresh ∨ s.wiu.pump.phase = .off) →
      (∀ k, ∀ y ∈ s.order k, y.closure.isSome = true) →
      ∃ t, exec (.siteSetup tag f) s = .next (startReply (acceptance 0x02 tag
          (flagByte v.mast1Fitted ++ le 2 v.kcal0 ++ le 1 v.ocal0 ++ le 2 v.kcal1 ++ le 1 v.ocal1 ++
            le 2 v.designWind ++ flagByte v.gaugeFitted ++ le 2 v.tipDepth ++ le 4 v.dayOffset ++
            le 4 v.staleTime ++ le 1 v.horizon ++ le 1 v.baseDrying ++ le 1 v.windDrying ++
            le 1 v.band ++ le 1 v.escalationBand ++ le 1 v.severeMargin ++ le 1 v.stagger ++
            le 1 v.travel ++ le 1 v.machines ++ le 2 v.machineStale ++ le 1 v.guardZone ++
            le 2 v.resumeWindow ++ le 2 v.maxRun ++ le 2 v.minRun ++ le 2 v.freshRate ++
            le 4 v.freshAllocation ++ le 2 v.priming ++ le 2 v.rundown ++ le 1 v.changeover ++
            le 4 v.lean ++ le 4 v.short)) false t) ∧
        t.site = v ∧
        (t.mast 1 = (match s.site.mast1Fitted, v.mast1Fitted with
        | true, false => { s.mast 1 with
            sample := none, zeroRun := 0, suspect := false, declaredOut := false }
        | false, true => ⟨0, none, 0, false, false⟩
        | _, _ => s.mast 1)) ∧
        (t.mast 0 = (if s.site.mast1Fitted = true ∧
            v.mast1Fitted = false then { s.mast 0 with suspect := false }
        else s.mast 0)) ∧
        (t.wfe = { s.wfe with masts := t.wfe.masts, bounce := if v.gaugeFitted then s.wfe.bounce else none }) ∧
        (if v.dayOffset ≠ s.site.dayOffset ∧ s.yc.valid = true then
          DayTested (dayNumber s.yc.time v.dayOffset) s t else t.yc = s.yc ∧ WaterFrame s t) ∧
        t.yc = { s.yc with recordedDay := t.yc.recordedDay } ∧
        t.ft = s.ft ∧
        t.bwu = s.bwu ∧
        t.wiu.ponds = s.wiu.ponds ∧
        t.mau.mode = s.mau.mode ∧
        t.pins = s.pins ∧
        t.sd.orders = s.sd.orders ∧
        (∀ m, t.machine m = if m.val < v.machines then s.machine m else ⟨false, 0, 0, none, false⟩) ∧
        (v.machines ≠ s.site.machines ∨ v.guardZone ≠ s.site.guardZone → ExclusionApplied s t) ∧
        (s.wiu.pump.source = some .fresh → s.wiu.pump.phase ≠ .off → fit s .fresh = true →
        fit t .fresh = false → t.wiu.pump.source ≠ some .fresh) ∧
        (∀ m, (t.mau.alerts.get (.mastSuspect m)).condition =
        (fitted t m && ((t.mast m).suspect || (t.mast m).declaredOut))) ∧
        t.mau.alerts.waterShort.condition = decide (waterState t = .short) ∧
        (v.staleTime ≠ s.site.staleTime →
            t.mau.alerts.forecastStale.condition = forecastIsStale t) ∧
        (∀ m, (t.mau.alerts.get (.machineStale m)).condition = conditionOf t (.machineStale m))) ∧
    (∀ (tag : Nat) (f : SiteFields) (s : State),
      s.lc.reply = none →
      s.mau.mode ≠ .standby →
      exec (.siteSetup tag f) s = .next
        (startReply (refusal 0x02 tag .wrongMode) false s)) ∧
    (∀ (tag : Nat) (f : SiteFields) (s : State),
      s.lc.reply = none →
      s.mau.mode = .standby →
      site? f = none →
      exec (.siteSetup tag f) s = .next
        (startReply (refusal 0x02 tag .outOfRange) false s)) ∧
    (∀ (tag : Nat) (f : SiteFields) (v : Site) (s : State),
      s.lc.reply = none →
      s.mau.mode = .standby →
      site? f = some v →
      v.freshAllocation < s.wiu.today.fresh →
      exec (.siteSetup tag f) s = .next
        (startReply (refusal 0x02 tag .outOfRange) false s)) ∧
    (∀ (tag : Nat) (f : SiteFields) (v : Site) (s : State),
      s.lc.reply = none →
      s.mau.mode = .standby →
      site? f = some v →
      s.wiu.today.fresh ≤ v.freshAllocation →
      v.freshRate ≠ s.site.freshRate →
      s.wiu.pump.source = some .fresh →
      s.wiu.pump.phase ≠ .off →
      exec (.siteSetup tag f) s = .next
        (startReply (refusal 0x02 tag .wrongState) false s)) ∧
    (∀ (f : SiteFields) (v : Site), site? f = some v →
      v.mast1Fitted = decide (f.mast1Fitted = 1) ∧ v.gaugeFitted = decide (f.gaugeFitted = 1) ∧
      v.kcal0 = f.kcal0 ∧ v.ocal0 = f.ocal0 ∧ v.kcal1 = f.kcal1 ∧
      v.ocal1 = f.ocal1 ∧ v.designWind = f.designWind ∧ v.tipDepth = f.tipDepth ∧
      v.dayOffset = f.dayOffset ∧ v.staleTime = f.staleTime ∧ v.horizon = f.horizon ∧
      v.baseDrying = f.baseDrying ∧ v.windDrying = f.windDrying ∧ v.band = f.band ∧
      v.escalationBand = f.escalationBand ∧ v.severeMargin = f.severeMargin ∧
          v.stagger = f.stagger ∧
      v.travel = f.travel ∧ v.machines = f.machines ∧ v.machineStale = f.machineStale ∧
      v.guardZone = f.guardZone ∧ v.resumeWindow = f.resumeWindow ∧ v.maxRun = f.maxRun ∧
      v.minRun = f.minRun ∧ v.freshRate = f.freshRate ∧ v.freshAllocation = f.freshAllocation ∧
      v.priming = f.priming ∧ v.rundown = f.rundown ∧ v.changeover = f.changeover ∧
      v.lean = f.lean ∧ v.short = f.short) ∧
    (∀ f : SiteFields, (site? f).isSome = true ↔
      f.mast1Fitted ≤ 1 ∧ f.gaugeFitted ≤ 1 ∧
      (1 ≤ f.kcal0 ∧ f.kcal0 ≤ 1000) ∧ f.ocal0 ≤ 20 ∧ (1 ≤ f.kcal1 ∧ f.kcal1 ≤ 1000) ∧
      f.ocal1 ≤ 20 ∧ f.designWind ≤ 600 ∧ (50 ≤ f.tipDepth ∧ f.tipDepth ≤ 1000) ∧
      f.dayOffset ≤ 86399 ∧ (3600 ≤ f.staleTime ∧ f.staleTime ≤ 86400) ∧ f.horizon ≤ 12 ∧
      f.baseDrying ≤ 50 ∧ f.windDrying ≤ 16 ∧ (5 ≤ f.band ∧ f.band ≤ 100) ∧
      f.escalationBand ≤ 100 ∧ (5 ≤ f.severeMargin ∧ f.severeMargin ≤ 100) ∧ (2 ≤ f.stagger ∧
          f.stagger ≤ 30) ∧
      (2 ≤ f.travel ∧ f.travel ≤ 30) ∧ f.machines ≤ 4 ∧ (10 ≤ f.machineStale ∧
          f.machineStale ≤ 600) ∧
      f.guardZone ≤ 200 ∧ f.resumeWindow ≤ 3600 ∧ (30 ≤ f.maxRun ∧ f.maxRun ≤ 1800) ∧
      (100 ≤ f.minRun ∧ f.minRun ≤ 50000) ∧ f.freshRate ≤ 5000 ∧ f.freshAllocation ≤ 1000000000 ∧
      (10 ≤ f.priming ∧ f.priming ≤ 300) ∧ f.rundown ≤ 1800 ∧ (5 ≤ f.changeover ∧
          f.changeover ≤ 120) ∧
      f.lean ≤ 1000000000 ∧ f.short ≤ 1000000000 ∧
      f.short ≤ f.lean)

/-- An accepted POOL_SPLIT empties the episode list at its new size, and the forecast table and
order list with it. R33, R36, R153, R159, R160. Where it rests on the model's choices: logs 4,
13. -/
def Obligations.PoolSplitEmptiesTheThreeLists : Prop :=
  (∀ (tag f e o : Nat) (s : State),
      s.lc.reply = none →
      s.mau.mode = .standby →
      (24 ≤ f ∧ f ≤ 72) →
      (9 ≤ e ∧ e ≤ 40) →
      (4 ≤ o ∧ o ≤ 24) →
      f + e + o ≤ 96 →
      (∀ y ∈ s.sd.orders, y = none) →
      ∃ t, exec (.poolSplit tag f e o) s = .next (startReply (acceptance 0x03 tag
          (le 1 f ++ le 1 e ++ le 1 o ++ le 1 (96 - f - e - o))) false t) ∧
        t.mau = { s.mau with split := ⟨f, e, o⟩, alerts := t.mau.alerts } ∧
        t.bwu.episodes = List.replicate e none ∧
        9 ≤ t.bwu.episodes.length ∧
        (∀ m, t.monitor m = { s.monitor m with openEpisode := none, belowRun := 0 }) ∧
        t.bwu = { s.bwu with episodes := t.bwu.episodes, monitors := t.bwu.monitors } ∧
        (∀ p, t.pile p = { s.pile p with escalated := false }) ∧
        t.pau.countdown = s.pau.countdown ∧
        t.lc = { s.lc with notices := t.lc.notices } ∧
        (t.lc.notices = s.lc.notices ∨ t.lc.notices = s.lc.notices ++ [.alert .forecastStale]) ∧
        (∀ k, .episode k ∈ t.lc.notices → noticeContent t (.episode k) = le 1 2 ++ absent 29) ∧
        t.ft = ⟨[], none⟩ ∧
        t.mau.alerts.forecastStale.condition = s.yc.valid ∧
        t.sd = { s.sd with orders := List.replicate o none, passDue := false } ∧
        t.yc = s.yc ∧
        t.wfe = s.wfe ∧
        t.wiu = s.wiu ∧
        t.cc = s.cc ∧
        t.site = s.site ∧
        t.pins = s.pins) ∧
    (∀ (tag x y z : Nat) (s : State),
      s.lc.reply = none →
      s.mau.mode ≠ .standby →
      exec (.poolSplit tag x y z) s = .next
        (startReply (refusal 0x03 tag .wrongMode) false s)) ∧
    (∀ (tag x y z : Nat) (s : State),
      s.lc.reply = none →
      s.mau.mode = .standby →
      (x < 24 ∨ 72 < x ∨ y < 9 ∨ 40 < y ∨ z < 4 ∨ 24 < z ∨ 96 < x + y + z) →
      exec (.poolSplit tag x y z) s = .next
        (startReply (refusal 0x03 tag .outOfRange) false s)) ∧
    (∀ (tag x y z : Nat) (s : State),
      s.lc.reply = none →
      s.mau.mode = .standby →
      (24 ≤ x ∧ x ≤ 72) →
      (9 ≤ y ∧ y ≤ 40) →
      (4 ≤ z ∧ z ≤ 24) →
      x + y + z ≤ 96 →
      (∃ y ∈ s.sd.orders, y.isSome = true) →
      exec (.poolSplit tag x y z) s = .next
        (startReply (refusal 0x03 tag .ordersPending) false s))

/-- MODE enters its target as the table of R155 says: refused, no change, or the mode with what
every block answers. R71, R77, R110, R122, R124, R125, R126, R135, R154, R155, R156, R162. Where
it rests on the model's choices: logs 4, 9, 13, 24, 25, 28. -/
def Obligations.ModeRequestsEnterTheirModes : Prop :=
  (∀ (tag : Nat) (s : State),
      s.lc.reply = none →
      exec (.mode tag s.mau.mode.code) s = .next
        (startReply (acceptance 0x09 tag (le 1 s.mau.mode.code ++
            optional 1 (s.mau.cause.map Cause.code))) false (s.setPass false))) ∧
    (∀ (tag n : Nat) (s : State),
      s.lc.reply = none →
      4 ≤ n →
      exec (.mode tag n) s = .next
        (startReply (refusal 0x09 tag .outOfRange) false s)) ∧
    (∀ (tag n : Nat) (s : State),
      s.lc.reply = none →
      n < 3 →
      s.mau.mode = .lockdown →
      stopAsserted s = true →
      exec (.mode tag n) s = .next
        (startReply (refusal 0x09 tag .stopAsserted) false s)) ∧
    (∀ (tag n : Nat) (x : LayoutFailure) (s : State),
      s.lc.reply = none →
      (n = 1 ∨ n = 2) →
      (s.mau.mode = .standby ∨ (s.mau.mode = .lockdown ∧ stopAsserted s = false)) →
      layoutCheck s = some x →
      exec (.mode tag n) s = .next
        (startReply (refusal 0x09 tag (.notConfigured x)) false s)) ∧
    (∀ (tag : Nat) (m : Mode) (s : State),
      s.lc.reply = none →
      (m = .auto ∨ m = .manual) →
      m ≠ s.mau.mode →
      (s.mau.mode = .lockdown → stopAsserted s = false) →
      (s.mau.mode = .standby ∨ s.mau.mode = .lockdown → layoutCheck s = none) →
      ∃ t, exec (.mode tag m.code) s = .next (startReply (acceptance 0x09 tag
          (le 1 m.code ++ [0])) false t) ∧
        t.mau.mode = m ∧
        t.mau.cause = some .request ∧
        t.mau.split = s.mau.split ∧
        .mode ∈ t.lc.notices ∧
        t.sd.orders = s.sd.orders ∧
        t.mau.alerts.noWater.condition = noUsableSource t ∧
        (s.mau.mode = .auto → ∀ c, ∀ r ∈ t.run c, r.origin = .auto →
            ∃ n, r.phase = .active .ends n) ∧
        (s.mau.mode = .auto → ValvesSound s → RunsSound s → ∀ c, ∀ r ∈ s.run c, r.origin = .auto →
        EndDecided c r s t) ∧
        (∀ c, ∀ r ∈ s.run c, s.mau.mode ≠ .auto ∨ r.origin ≠ .auto → RunGoesOn c r t) ∧
        PassMade t ∧
        (s.mau.mode ≠ .auto → PassTaken (s.setMode m (some .request)) t) ∧
        (ValvesSound s → s.wiu.pump.phase = .off → t.wiu.pump = pumpStarted s t) ∧
        (s.wiu.pump.phase = .priming ∨ s.wiu.pump.phase = .changeover → t.wiu.pump = s.wiu.pump) ∧
        (s.mau.mode ≠ .auto → s.wiu.pump.phase = .running →
        t.wiu.pump = if headerBusy t = true then s.wiu.pump else pumpIdle s t) ∧
        (s.mau.mode ≠ .auto → s.wiu.pump.phase = .rundown → t.wiu.pump =
        if ∃ c, turnTaken s t c ≠ none then ⟨.running, s.wiu.pump.source, none⟩ else s.wiu.pump) ∧
        WaterFrame s t ∧
        t.pau = s.pau ∧
        CannonsFrame s t ∧
        t.yc = s.yc ∧
        t.wfe = s.wfe ∧
        t.ft = s.ft ∧
        t.bwu = s.bwu ∧
        t.site = s.site ∧
        t.pins = s.pins) ∧
    (∀ (tag : Nat) (s : State),
      s.lc.reply = none →
      s.mau.mode ≠ .standby →
      (s.mau.mode = .lockdown → stopAsserted s = false) →
      ∃ t, exec (.mode tag 0) s = .next (startReply (acceptance 0x09 tag
          ([0, 0])) false t) ∧
        t.mau.mode = .standby ∧
        t.mau.cause = some .request ∧
        t.mau.split = s.mau.split ∧
        .mode ∈ t.lc.notices ∧
        t.mau.alerts.noWater.condition = false ∧
        (∀ c, (t.cannon c).phase ≠ .pendingOpen) ∧
        (∀ c, ∀ r ∈ t.run c, ∃ n, r.phase = .active .ends n) ∧
        (ValvesSound s → RunsSound s → HeaderSound s →
            ∀ c, ∀ r ∈ s.run c, EndDecided c (r.freed s) s t) ∧
        (t.sd.orders = s.sd.orders.map (Option.map fun o =>
          if o.closure = none then
            { o with countdown := none, closure := some ⟨.cancelled, now s⟩ } else o)) ∧
        (∀ k < s.sd.orders.length, ∀ o ∈ s.order k, o.closure = none → .order k ∈ t.lc.notices) ∧
        (s.wiu.pump.phase = .priming ∨ s.wiu.pump.phase = .changeover →
            t.wiu.pump = ⟨.off, none, none⟩) ∧
        WaterFrame s t ∧
        (∀ p, t.pile p = { s.pile p with
        hold := if ∃ y ∈ s.sd.orders, ∃ r ∈ y, r.kind = .hold ∧ r.closure = none ∧ r.pile = p
          then false else (s.pile p).hold }) ∧
        CannonsFrame s t ∧
        t.yc = s.yc ∧
        t.wfe = s.wfe ∧
        t.ft = s.ft ∧
        t.bwu = s.bwu ∧
        t.site = s.site ∧
        t.pins = s.pins) ∧
    (∀ (tag : Nat) (s : State),
      s.lc.reply = none →
      s.mau.mode ≠ .lockdown →
      ∃ t, exec (.mode tag 3) s = .next (startReply (acceptance 0x09 tag
          ([3, 0])) false t) ∧
        t.mau.mode = .lockdown ∧
        t.mau.cause = some .request ∧
        t.mau.split = s.mau.split ∧
        .mode ∈ t.lc.notices ∧
        t.mau.alerts.noWater.condition = false ∧
        (∀ c, valveDriven t c = false ∧ (t.cannon c).phase ≠ .pendingOpen) ∧
        ValvesStopped s t ∧
        t.cc.queue = [] ∧
        t.cc.slot = none ∧
        (∀ c, ∀ r ∈ t.run c, ∃ n, r.phase = .active .ends n) ∧
        t.wiu.pump.phase = .off ∧
        t.sd.orders = s.sd.orders ∧
        WaterFrame s t ∧
        t.pau = s.pau ∧
        CannonsFrame s t ∧
        t.yc = s.yc ∧
        t.wfe = s.wfe ∧
        t.ft = s.ft ∧
        t.bwu = s.bwu ∧
        t.site = s.site ∧
        t.pins = s.pins) ∧
    (∀ s : State, layoutCheck s = none ↔
      (∃ p, (s.pile p).configured = true) ∧
      (∃ c, (s.cannon c).configured = true ∧ (s.pile (s.cannon c).config.pile).configured = true) ∧
      (∀ c, (s.cannon c).configured = true → (s.pile (s.cannon c).config.pile).configured = true) ∧
      (∀ p, (s.pile p).configured = true →
          ∀ d ∈ (s.pile p).config.drain, (s.pond d).configured = true) ∧
      ((∃ d, (s.pond d).configured = true) ∨ (0 < s.site.freshRate ∧ 0 < s.site.freshAllocation))) ∧
    (∀ (x : LayoutFailure) (s : State), layoutCheck s = some x ↔
      match x with
      | .piles => ∀ p, (s.pile p).configured = false
      | .cannons => (∃ p, (s.pile p).configured = true) ∧
          ∀ c, (s.cannon c).configured = true → (s.pile (s.cannon c).config.pile).configured = false
      | .cannonTarget k => (∃ p, (s.pile p).configured = true) ∧
          (∃ c, (s.cannon c).configured = true ∧
              (s.pile (s.cannon c).config.pile).configured = true) ∧
          (s.cannon k).configured = true ∧ (s.pile (s.cannon k).config.pile).configured = false ∧
          ∀ c < k, (s.cannon c).configured = true →
              (s.pile (s.cannon c).config.pile).configured = true
      | .drain k => (∃ p, (s.pile p).configured = true) ∧
          (∃ c, (s.cannon c).configured = true ∧
              (s.pile (s.cannon c).config.pile).configured = true) ∧
          (∀ c, (s.cannon c).configured = true →
              (s.pile (s.cannon c).config.pile).configured = true) ∧
          (s.pile k).configured = true ∧
              (∃ d ∈ (s.pile k).config.drain, (s.pond d).configured = false) ∧
          ∀ p < k, (s.pile p).configured = true →
            ∀ d ∈ (s.pile p).config.drain, (s.pond d).configured = true
      | .source => (∃ p, (s.pile p).configured = true) ∧
          (∃ c, (s.cannon c).configured = true ∧
              (s.pile (s.cannon c).config.pile).configured = true) ∧
          (∀ c, (s.cannon c).configured = true →
              (s.pile (s.cannon c).config.pile).configured = true) ∧
          (∀ p, (s.pile p).configured = true →
          ∀ d ∈ (s.pile p).config.drain, (s.pond d).configured = true) ∧
          (∀ d, (s.pond d).configured = false) ∧ ¬(0 < s.site.freshRate ∧
              0 < s.site.freshAllocation)) ∧
    (∀ (c : Fin 32) (p : Fin 24),
      LayoutFailure.piles.bytes = [1, 0xFF] ∧ LayoutFailure.cannons.bytes = [2, 0xFF] ∧
      (LayoutFailure.cannonTarget c).bytes = 3 :: le 1 c ∧
          (LayoutFailure.drain p).bytes = 4 :: le 1 p ∧
      LayoutFailure.source.bytes = [5, 0xFF])
end

