-- ==== Sys2Proof/Laws/Filters.lean ====
section
/-! SUPPORT. All that a tick and a taken level do to a level filter (R1, R16, R94, R157). -/

namespace Sys2Proof.Machine

@[simp] theorem LineFilter.take_pin_of_new (f : LineFilter) (b : Bool) (h : f.level ≠ some b) :
    f.take b = .settled b := by simp [LineFilter.take, h]

@[simp] theorem LineFilter.take_level (f : LineFilter) (b : Bool) : (f.take b).level = some b := by
  by_cases h : f.level = some b <;> simp [LineFilter.take, h, LineFilter.settled]

@[simp] theorem LineFilter.tick_pin (e : LineFilter → Bool) (time : Nat) (f : LineFilter) :
    (f.tick e time).pin = f.pin := by
  unfold LineFilter.tick; repeat' split
  all_goals rfl

@[simp] theorem LineFilter.tick_last (e : LineFilter → Bool) (time : Nat) (f : LineFilter) :
    (f.tick e time).last = f.pin := by
  unfold LineFilter.tick; repeat' split
  all_goals rfl

/-- A tick keeps the filtered level, or takes the pin's where that is no event and the pin has been held
for the filter's time. -/
theorem LineFilter.tick_level (e : LineFilter → Bool) (time : Nat) (f : LineFilter) :
    (f.tick e time).level = f.level ∨
      ((f.tick e time).level = some f.pin ∧ e f = false ∧ time ≤ f.heldNow) := by
  unfold LineFilter.tick
  split
  · exact .inl rfl
  · split
    · exact .inl rfl
    · rename_i h
      simp only [Bool.or_eq_true, decide_eq_true_eq, not_or, Nat.not_lt, Bool.not_eq_true] at h
      exact .inr ⟨rfl, h⟩

/-- A pin found changed is held from this tick on: a filter of two ticks or more takes nothing at it. -/
theorem LineFilter.tick_changed (e : LineFilter → Bool) (time : Nat) (f : LineFilter)
    (h : f.last ≠ f.pin) (n : f.level ≠ some f.pin) (t : 1 < time) :
    f.tick e time = { f with held := 1, last := f.pin } := by
  simp [LineFilter.tick, LineFilter.heldNow, h, n, t]

end Sys2Proof.Machine
end

