-- ==== Sys2Proof/Laws/Freed.lean ====
section
/-! SUPPORT. The closing of orders frees a run of its order and changes nothing else of the run (R133). -/

namespace Sys2Proof.Machine

variable (r : Run) (s : State)

/-- A freed run is the run, with or without its order. -/
theorem Run.freed_cases : r.freed s = r ∨ r.freed s = { r with origin := .detached } := by
  unfold Run.freed
  split
  · split
    · exact .inr rfl
    · exact .inl rfl
  · exact .inl rfl
  · exact .inl rfl

@[simp] theorem Run.freed_phase : (r.freed s).phase = r.phase := by
  obtain h | h := r.freed_cases s <;> rw [h]

@[simp] theorem Run.freed_pile : (r.freed s).pile = r.pile := by
  obtain h | h := r.freed_cases s <;> rw [h]

@[simp] theorem Run.freed_target : (r.freed s).target = r.target := by
  obtain h | h := r.freed_cases s <;> rw [h]

@[simp] theorem Run.freed_delivered : (r.freed s).delivered = r.delivered := by
  obtain h | h := r.freed_cases s <;> rw [h]

end Sys2Proof.Machine
end

