-- ==== Sys2Proof/Laws/Line.lean ====
section
/-! SUPPORT. The gap countdown at each line rate (R166, R167). -/

namespace Sys2Proof.Machine

theorem gapSpan_eq (rate : LineRate) : gapSpan rate = gapFor rate := by
  cases rate <;> decide

@[simp] theorem keepCharacter_lc (rx : RxState) (bytes : List Byte) (s : State) :
    (keepCharacter rx bytes s).lc =
      { s.lc with rx := rx, buffer := bytes, gap := some (gapFor s.lc.rate) } := by
  rw [← gapSpan_eq]
  rfl

end Sys2Proof.Machine
end

