-- ==== Sys2Proof/Laws/Table.lean ====
section
/-! SUPPORT. Reading a table of records after it is written, mapped, made or filled. -/

namespace Sys2Proof

variable {n : Nat} {α β : Type}

theorem Table.get_eq_getElem (t : Table n α) (i : Fin n) :
    t.get i = t.rows[i.val]'(by rw [t.size]; exact i.isLt) := rfl

theorem Table.get_set (t : Table n α) (i j : Fin n) (a : α) :
    (t.set i a).get j = if j = i then a else t.get j := by
  simp only [Table.get_eq_getElem, Table.set, List.getElem_set]
  by_cases h : j = i
  · simp [h]
  · have h' : ¬ i.val = j.val := fun e => h (Fin.ext e.symm)
    simp [h, h']

@[simp] theorem Table.get_set_same (t : Table n α) (i : Fin n) (a : α) : (t.set i a).get i = a := by
  simp [Table.get_set]

theorem Table.get_set_other (t : Table n α) {i j : Fin n} (a : α) (h : j ≠ i) :
    (t.set i a).get j = t.get j := by simp [Table.get_set, h]

theorem Table.get_modify (t : Table n α) (i j : Fin n) (f : α → α) :
    (t.modify i f).get j = if j = i then f (t.get i) else t.get j := by
  simp [Table.modify, Table.get_set]

@[simp] theorem Table.get_map (t : Table n α) (f : α → β) (i : Fin n) :
    (t.map f).get i = f (t.get i) := by simp [Table.get_eq_getElem, Table.map]

@[simp] theorem Table.get_make (f : Fin n → α) (i : Fin n) : (Table.make f).get i = f i := by
  simp [Table.get_eq_getElem, Table.make]

@[simp] theorem Table.get_fill (a : α) (i : Fin n) : (Table.fill n a).get i = a := by
  simp [Table.get_eq_getElem, Table.fill]

/-- Two tables with the same records are the same table. -/
theorem Table.ext_get {t u : Table n α} (h : ∀ i, t.get i = u.get i) : t = u := by
  obtain ⟨a, ha⟩ := t
  obtain ⟨b, hb⟩ := u
  have e : a = b := by
    apply List.ext_getElem (by rw [ha, hb])
    intro i h₁ _
    exact h ⟨i, ha ▸ h₁⟩
  subst e; rfl

@[simp] theorem Table.set_get_self (t : Table n α) (i : Fin n) : t.set i (t.get i) = t := by
  apply Table.ext_get; intro j; by_cases h : j = i <;> simp [Table.get_set, h]

end Sys2Proof
end

