-- ==== Sys2Proof/Laws/State.lean ====
section
/-! SUPPORT. What each update of the state leaves in each field, and what each reading operation reads
after it. -/

namespace Sys2Proof.Machine

variable (s : State)

@[simp] theorem setMast_pins (m : Fin 2) (v : Mast) : (s.setMast m v).pins = s.pins := rfl
@[simp] theorem setMast_lc (m : Fin 2) (v : Mast) : (s.setMast m v).lc = s.lc := rfl
@[simp] theorem setMast_yc (m : Fin 2) (v : Mast) : (s.setMast m v).yc = s.yc := rfl
@[simp] theorem setMast_wfe (m : Fin 2) (v : Mast) : (s.setMast m v).wfe = { s.wfe with masts := s.wfe.masts.set m v } := rfl
@[simp] theorem setMast_ft (m : Fin 2) (v : Mast) : (s.setMast m v).ft = s.ft := rfl
@[simp] theorem setMast_pau (m : Fin 2) (v : Mast) : (s.setMast m v).pau = s.pau := rfl
@[simp] theorem setMast_cc (m : Fin 2) (v : Mast) : (s.setMast m v).cc = s.cc := rfl
@[simp] theorem setMast_sd (m : Fin 2) (v : Mast) : (s.setMast m v).sd = s.sd := rfl
@[simp] theorem setMast_wiu (m : Fin 2) (v : Mast) : (s.setMast m v).wiu = s.wiu := rfl
@[simp] theorem setMast_bwu (m : Fin 2) (v : Mast) : (s.setMast m v).bwu = s.bwu := rfl
@[simp] theorem setMast_mau (m : Fin 2) (v : Mast) : (s.setMast m v).mau = s.mau := rfl
@[simp] theorem setMast_site (m : Fin 2) (v : Mast) : (s.setMast m v).site = s.site := rfl
@[simp] theorem setMast_freeCount (m : Fin 2) (v : Mast) : (s.setMast m v).freeCount = s.freeCount := rfl
@[simp] theorem setMast_pending (m : Fin 2) (v : Mast) : (s.setMast m v).pending = s.pending := rfl

@[simp] theorem setPile_pins (p : Fin 24) (v : Pile) : (s.setPile p v).pins = s.pins := rfl
@[simp] theorem setPile_lc (p : Fin 24) (v : Pile) : (s.setPile p v).lc = s.lc := rfl
@[simp] theorem setPile_yc (p : Fin 24) (v : Pile) : (s.setPile p v).yc = s.yc := rfl
@[simp] theorem setPile_wfe (p : Fin 24) (v : Pile) : (s.setPile p v).wfe = s.wfe := rfl
@[simp] theorem setPile_ft (p : Fin 24) (v : Pile) : (s.setPile p v).ft = s.ft := rfl
@[simp] theorem setPile_pau (p : Fin 24) (v : Pile) : (s.setPile p v).pau = { s.pau with piles := s.pau.piles.set p v } := rfl
@[simp] theorem setPile_cc (p : Fin 24) (v : Pile) : (s.setPile p v).cc = s.cc := rfl
@[simp] theorem setPile_sd (p : Fin 24) (v : Pile) : (s.setPile p v).sd = s.sd := rfl
@[simp] theorem setPile_wiu (p : Fin 24) (v : Pile) : (s.setPile p v).wiu = s.wiu := rfl
@[simp] theorem setPile_bwu (p : Fin 24) (v : Pile) : (s.setPile p v).bwu = s.bwu := rfl
@[simp] theorem setPile_mau (p : Fin 24) (v : Pile) : (s.setPile p v).mau = s.mau := rfl
@[simp] theorem setPile_site (p : Fin 24) (v : Pile) : (s.setPile p v).site = s.site := rfl
@[simp] theorem setPile_freeCount (p : Fin 24) (v : Pile) : (s.setPile p v).freeCount = s.freeCount := rfl
@[simp] theorem setPile_pending (p : Fin 24) (v : Pile) : (s.setPile p v).pending = s.pending := rfl

@[simp] theorem setCannon_pins (c : Fin 32) (v : Cannon) : (s.setCannon c v).pins = s.pins := rfl
@[simp] theorem setCannon_lc (c : Fin 32) (v : Cannon) : (s.setCannon c v).lc = s.lc := rfl
@[simp] theorem setCannon_yc (c : Fin 32) (v : Cannon) : (s.setCannon c v).yc = s.yc := rfl
@[simp] theorem setCannon_wfe (c : Fin 32) (v : Cannon) : (s.setCannon c v).wfe = s.wfe := rfl
@[simp] theorem setCannon_ft (c : Fin 32) (v : Cannon) : (s.setCannon c v).ft = s.ft := rfl
@[simp] theorem setCannon_pau (c : Fin 32) (v : Cannon) : (s.setCannon c v).pau = s.pau := rfl
@[simp] theorem setCannon_cc (c : Fin 32) (v : Cannon) : (s.setCannon c v).cc = { s.cc with cannons := s.cc.cannons.set c v } := rfl
@[simp] theorem setCannon_sd (c : Fin 32) (v : Cannon) : (s.setCannon c v).sd = s.sd := rfl
@[simp] theorem setCannon_wiu (c : Fin 32) (v : Cannon) : (s.setCannon c v).wiu = s.wiu := rfl
@[simp] theorem setCannon_bwu (c : Fin 32) (v : Cannon) : (s.setCannon c v).bwu = s.bwu := rfl
@[simp] theorem setCannon_mau (c : Fin 32) (v : Cannon) : (s.setCannon c v).mau = s.mau := rfl
@[simp] theorem setCannon_site (c : Fin 32) (v : Cannon) : (s.setCannon c v).site = s.site := rfl
@[simp] theorem setCannon_freeCount (c : Fin 32) (v : Cannon) : (s.setCannon c v).freeCount = s.freeCount := rfl
@[simp] theorem setCannon_pending (c : Fin 32) (v : Cannon) : (s.setCannon c v).pending = s.pending := rfl

@[simp] theorem setMachine_pins (m : Fin 4) (v : MachineRecord) : (s.setMachine m v).pins = s.pins := rfl
@[simp] theorem setMachine_lc (m : Fin 4) (v : MachineRecord) : (s.setMachine m v).lc = s.lc := rfl
@[simp] theorem setMachine_yc (m : Fin 4) (v : MachineRecord) : (s.setMachine m v).yc = s.yc := rfl
@[simp] theorem setMachine_wfe (m : Fin 4) (v : MachineRecord) : (s.setMachine m v).wfe = s.wfe := rfl
@[simp] theorem setMachine_ft (m : Fin 4) (v : MachineRecord) : (s.setMachine m v).ft = s.ft := rfl
@[simp] theorem setMachine_pau (m : Fin 4) (v : MachineRecord) : (s.setMachine m v).pau = s.pau := rfl
@[simp] theorem setMachine_cc (m : Fin 4) (v : MachineRecord) : (s.setMachine m v).cc = { s.cc with machines := s.cc.machines.set m v } := rfl
@[simp] theorem setMachine_sd (m : Fin 4) (v : MachineRecord) : (s.setMachine m v).sd = s.sd := rfl
@[simp] theorem setMachine_wiu (m : Fin 4) (v : MachineRecord) : (s.setMachine m v).wiu = s.wiu := rfl
@[simp] theorem setMachine_bwu (m : Fin 4) (v : MachineRecord) : (s.setMachine m v).bwu = s.bwu := rfl
@[simp] theorem setMachine_mau (m : Fin 4) (v : MachineRecord) : (s.setMachine m v).mau = s.mau := rfl
@[simp] theorem setMachine_site (m : Fin 4) (v : MachineRecord) : (s.setMachine m v).site = s.site := rfl
@[simp] theorem setMachine_freeCount (m : Fin 4) (v : MachineRecord) : (s.setMachine m v).freeCount = s.freeCount := rfl
@[simp] theorem setMachine_pending (m : Fin 4) (v : MachineRecord) : (s.setMachine m v).pending = s.pending := rfl

@[simp] theorem setQueue_pins (v : List (Fin 32 × Movement)) : (s.setQueue v).pins = s.pins := rfl
@[simp] theorem setQueue_lc (v : List (Fin 32 × Movement)) : (s.setQueue v).lc = s.lc := rfl
@[simp] theorem setQueue_yc (v : List (Fin 32 × Movement)) : (s.setQueue v).yc = s.yc := rfl
@[simp] theorem setQueue_wfe (v : List (Fin 32 × Movement)) : (s.setQueue v).wfe = s.wfe := rfl
@[simp] theorem setQueue_ft (v : List (Fin 32 × Movement)) : (s.setQueue v).ft = s.ft := rfl
@[simp] theorem setQueue_pau (v : List (Fin 32 × Movement)) : (s.setQueue v).pau = s.pau := rfl
@[simp] theorem setQueue_cc (v : List (Fin 32 × Movement)) : (s.setQueue v).cc = { s.cc with queue := v } := rfl
@[simp] theorem setQueue_sd (v : List (Fin 32 × Movement)) : (s.setQueue v).sd = s.sd := rfl
@[simp] theorem setQueue_wiu (v : List (Fin 32 × Movement)) : (s.setQueue v).wiu = s.wiu := rfl
@[simp] theorem setQueue_bwu (v : List (Fin 32 × Movement)) : (s.setQueue v).bwu = s.bwu := rfl
@[simp] theorem setQueue_mau (v : List (Fin 32 × Movement)) : (s.setQueue v).mau = s.mau := rfl
@[simp] theorem setQueue_site (v : List (Fin 32 × Movement)) : (s.setQueue v).site = s.site := rfl
@[simp] theorem setQueue_freeCount (v : List (Fin 32 × Movement)) : (s.setQueue v).freeCount = s.freeCount := rfl
@[simp] theorem setQueue_pending (v : List (Fin 32 × Movement)) : (s.setQueue v).pending = s.pending := rfl

@[simp] theorem setSlot_pins (v : Option Nat) : (s.setSlot v).pins = s.pins := rfl
@[simp] theorem setSlot_lc (v : Option Nat) : (s.setSlot v).lc = s.lc := rfl
@[simp] theorem setSlot_yc (v : Option Nat) : (s.setSlot v).yc = s.yc := rfl
@[simp] theorem setSlot_wfe (v : Option Nat) : (s.setSlot v).wfe = s.wfe := rfl
@[simp] theorem setSlot_ft (v : Option Nat) : (s.setSlot v).ft = s.ft := rfl
@[simp] theorem setSlot_pau (v : Option Nat) : (s.setSlot v).pau = s.pau := rfl
@[simp] theorem setSlot_cc (v : Option Nat) : (s.setSlot v).cc = { s.cc with slot := v } := rfl
@[simp] theorem setSlot_sd (v : Option Nat) : (s.setSlot v).sd = s.sd := rfl
@[simp] theorem setSlot_wiu (v : Option Nat) : (s.setSlot v).wiu = s.wiu := rfl
@[simp] theorem setSlot_bwu (v : Option Nat) : (s.setSlot v).bwu = s.bwu := rfl
@[simp] theorem setSlot_mau (v : Option Nat) : (s.setSlot v).mau = s.mau := rfl
@[simp] theorem setSlot_site (v : Option Nat) : (s.setSlot v).site = s.site := rfl
@[simp] theorem setSlot_freeCount (v : Option Nat) : (s.setSlot v).freeCount = s.freeCount := rfl
@[simp] theorem setSlot_pending (v : Option Nat) : (s.setSlot v).pending = s.pending := rfl

@[simp] theorem setRun_pins (c : Fin 32) (v : Option Run) : (s.setRun c v).pins = s.pins := rfl
@[simp] theorem setRun_lc (c : Fin 32) (v : Option Run) : (s.setRun c v).lc = s.lc := rfl
@[simp] theorem setRun_yc (c : Fin 32) (v : Option Run) : (s.setRun c v).yc = s.yc := rfl
@[simp] theorem setRun_wfe (c : Fin 32) (v : Option Run) : (s.setRun c v).wfe = s.wfe := rfl
@[simp] theorem setRun_ft (c : Fin 32) (v : Option Run) : (s.setRun c v).ft = s.ft := rfl
@[simp] theorem setRun_pau (c : Fin 32) (v : Option Run) : (s.setRun c v).pau = s.pau := rfl
@[simp] theorem setRun_cc (c : Fin 32) (v : Option Run) : (s.setRun c v).cc = s.cc := rfl
@[simp] theorem setRun_sd (c : Fin 32) (v : Option Run) : (s.setRun c v).sd = { s.sd with runs := s.sd.runs.set c v } := rfl
@[simp] theorem setRun_wiu (c : Fin 32) (v : Option Run) : (s.setRun c v).wiu = s.wiu := rfl
@[simp] theorem setRun_bwu (c : Fin 32) (v : Option Run) : (s.setRun c v).bwu = s.bwu := rfl
@[simp] theorem setRun_mau (c : Fin 32) (v : Option Run) : (s.setRun c v).mau = s.mau := rfl
@[simp] theorem setRun_site (c : Fin 32) (v : Option Run) : (s.setRun c v).site = s.site := rfl
@[simp] theorem setRun_freeCount (c : Fin 32) (v : Option Run) : (s.setRun c v).freeCount = s.freeCount := rfl
@[simp] theorem setRun_pending (c : Fin 32) (v : Option Run) : (s.setRun c v).pending = s.pending := rfl

@[simp] theorem setOrder_pins (k : Nat) (v : Option Order) : (s.setOrder k v).pins = s.pins := rfl
@[simp] theorem setOrder_lc (k : Nat) (v : Option Order) : (s.setOrder k v).lc = s.lc := rfl
@[simp] theorem setOrder_yc (k : Nat) (v : Option Order) : (s.setOrder k v).yc = s.yc := rfl
@[simp] theorem setOrder_wfe (k : Nat) (v : Option Order) : (s.setOrder k v).wfe = s.wfe := rfl
@[simp] theorem setOrder_ft (k : Nat) (v : Option Order) : (s.setOrder k v).ft = s.ft := rfl
@[simp] theorem setOrder_pau (k : Nat) (v : Option Order) : (s.setOrder k v).pau = s.pau := rfl
@[simp] theorem setOrder_cc (k : Nat) (v : Option Order) : (s.setOrder k v).cc = s.cc := rfl
@[simp] theorem setOrder_sd (k : Nat) (v : Option Order) : (s.setOrder k v).sd = { s.sd with orders := s.sd.orders.set k v } := rfl
@[simp] theorem setOrder_wiu (k : Nat) (v : Option Order) : (s.setOrder k v).wiu = s.wiu := rfl
@[simp] theorem setOrder_bwu (k : Nat) (v : Option Order) : (s.setOrder k v).bwu = s.bwu := rfl
@[simp] theorem setOrder_mau (k : Nat) (v : Option Order) : (s.setOrder k v).mau = s.mau := rfl
@[simp] theorem setOrder_site (k : Nat) (v : Option Order) : (s.setOrder k v).site = s.site := rfl
@[simp] theorem setOrder_freeCount (k : Nat) (v : Option Order) : (s.setOrder k v).freeCount = s.freeCount := rfl
@[simp] theorem setOrder_pending (k : Nat) (v : Option Order) : (s.setOrder k v).pending = s.pending := rfl

@[simp] theorem setDemand_pins (p : Fin 24) (v : Demand) : (s.setDemand p v).pins = s.pins := rfl
@[simp] theorem setDemand_lc (p : Fin 24) (v : Demand) : (s.setDemand p v).lc = s.lc := rfl
@[simp] theorem setDemand_yc (p : Fin 24) (v : Demand) : (s.setDemand p v).yc = s.yc := rfl
@[simp] theorem setDemand_wfe (p : Fin 24) (v : Demand) : (s.setDemand p v).wfe = s.wfe := rfl
@[simp] theorem setDemand_ft (p : Fin 24) (v : Demand) : (s.setDemand p v).ft = s.ft := rfl
@[simp] theorem setDemand_pau (p : Fin 24) (v : Demand) : (s.setDemand p v).pau = s.pau := rfl
@[simp] theorem setDemand_cc (p : Fin 24) (v : Demand) : (s.setDemand p v).cc = s.cc := rfl
@[simp] theorem setDemand_sd (p : Fin 24) (v : Demand) : (s.setDemand p v).sd = { s.sd with demands := s.sd.demands.set p v } := rfl
@[simp] theorem setDemand_wiu (p : Fin 24) (v : Demand) : (s.setDemand p v).wiu = s.wiu := rfl
@[simp] theorem setDemand_bwu (p : Fin 24) (v : Demand) : (s.setDemand p v).bwu = s.bwu := rfl
@[simp] theorem setDemand_mau (p : Fin 24) (v : Demand) : (s.setDemand p v).mau = s.mau := rfl
@[simp] theorem setDemand_site (p : Fin 24) (v : Demand) : (s.setDemand p v).site = s.site := rfl
@[simp] theorem setDemand_freeCount (p : Fin 24) (v : Demand) : (s.setDemand p v).freeCount = s.freeCount := rfl
@[simp] theorem setDemand_pending (p : Fin 24) (v : Demand) : (s.setDemand p v).pending = s.pending := rfl

@[simp] theorem setSuspensions_pins (v : Nat) : (s.setSuspensions v).pins = s.pins := rfl
@[simp] theorem setSuspensions_lc (v : Nat) : (s.setSuspensions v).lc = s.lc := rfl
@[simp] theorem setSuspensions_yc (v : Nat) : (s.setSuspensions v).yc = s.yc := rfl
@[simp] theorem setSuspensions_wfe (v : Nat) : (s.setSuspensions v).wfe = s.wfe := rfl
@[simp] theorem setSuspensions_ft (v : Nat) : (s.setSuspensions v).ft = s.ft := rfl
@[simp] theorem setSuspensions_pau (v : Nat) : (s.setSuspensions v).pau = s.pau := rfl
@[simp] theorem setSuspensions_cc (v : Nat) : (s.setSuspensions v).cc = s.cc := rfl
@[simp] theorem setSuspensions_sd (v : Nat) : (s.setSuspensions v).sd = { s.sd with suspensions := v } := rfl
@[simp] theorem setSuspensions_wiu (v : Nat) : (s.setSuspensions v).wiu = s.wiu := rfl
@[simp] theorem setSuspensions_bwu (v : Nat) : (s.setSuspensions v).bwu = s.bwu := rfl
@[simp] theorem setSuspensions_mau (v : Nat) : (s.setSuspensions v).mau = s.mau := rfl
@[simp] theorem setSuspensions_site (v : Nat) : (s.setSuspensions v).site = s.site := rfl
@[simp] theorem setSuspensions_freeCount (v : Nat) : (s.setSuspensions v).freeCount = s.freeCount := rfl
@[simp] theorem setSuspensions_pending (v : Nat) : (s.setSuspensions v).pending = s.pending := rfl

@[simp] theorem setAcceptances_pins (v : Nat) : (s.setAcceptances v).pins = s.pins := rfl
@[simp] theorem setAcceptances_lc (v : Nat) : (s.setAcceptances v).lc = s.lc := rfl
@[simp] theorem setAcceptances_yc (v : Nat) : (s.setAcceptances v).yc = s.yc := rfl
@[simp] theorem setAcceptances_wfe (v : Nat) : (s.setAcceptances v).wfe = s.wfe := rfl
@[simp] theorem setAcceptances_ft (v : Nat) : (s.setAcceptances v).ft = s.ft := rfl
@[simp] theorem setAcceptances_pau (v : Nat) : (s.setAcceptances v).pau = s.pau := rfl
@[simp] theorem setAcceptances_cc (v : Nat) : (s.setAcceptances v).cc = s.cc := rfl
@[simp] theorem setAcceptances_sd (v : Nat) : (s.setAcceptances v).sd = { s.sd with acceptances := v } := rfl
@[simp] theorem setAcceptances_wiu (v : Nat) : (s.setAcceptances v).wiu = s.wiu := rfl
@[simp] theorem setAcceptances_bwu (v : Nat) : (s.setAcceptances v).bwu = s.bwu := rfl
@[simp] theorem setAcceptances_mau (v : Nat) : (s.setAcceptances v).mau = s.mau := rfl
@[simp] theorem setAcceptances_site (v : Nat) : (s.setAcceptances v).site = s.site := rfl
@[simp] theorem setAcceptances_freeCount (v : Nat) : (s.setAcceptances v).freeCount = s.freeCount := rfl
@[simp] theorem setAcceptances_pending (v : Nat) : (s.setAcceptances v).pending = s.pending := rfl

@[simp] theorem setPass_pins (v : Bool) : (s.setPass v).pins = s.pins := rfl
@[simp] theorem setOrders_pins (v : List (Option Order)) : (s.setOrders v).pins = s.pins := rfl
@[simp] theorem setPass_lc (v : Bool) : (s.setPass v).lc = s.lc := rfl
@[simp] theorem setOrders_lc (v : List (Option Order)) : (s.setOrders v).lc = s.lc := rfl
@[simp] theorem setPass_yc (v : Bool) : (s.setPass v).yc = s.yc := rfl
@[simp] theorem setOrders_yc (v : List (Option Order)) : (s.setOrders v).yc = s.yc := rfl
@[simp] theorem setPass_wfe (v : Bool) : (s.setPass v).wfe = s.wfe := rfl
@[simp] theorem setOrders_wfe (v : List (Option Order)) : (s.setOrders v).wfe = s.wfe := rfl
@[simp] theorem setPass_ft (v : Bool) : (s.setPass v).ft = s.ft := rfl
@[simp] theorem setOrders_ft (v : List (Option Order)) : (s.setOrders v).ft = s.ft := rfl
@[simp] theorem setPass_pau (v : Bool) : (s.setPass v).pau = s.pau := rfl
@[simp] theorem setOrders_pau (v : List (Option Order)) : (s.setOrders v).pau = s.pau := rfl
@[simp] theorem setPass_cc (v : Bool) : (s.setPass v).cc = s.cc := rfl
@[simp] theorem setOrders_cc (v : List (Option Order)) : (s.setOrders v).cc = s.cc := rfl
@[simp] theorem setPass_sd (v : Bool) : (s.setPass v).sd = { s.sd with passDue := v } := rfl
@[simp] theorem setOrders_sd (v : List (Option Order)) : (s.setOrders v).sd = { s.sd with orders := v } := rfl
@[simp] theorem setPass_wiu (v : Bool) : (s.setPass v).wiu = s.wiu := rfl
@[simp] theorem setOrders_wiu (v : List (Option Order)) : (s.setOrders v).wiu = s.wiu := rfl
@[simp] theorem setPass_bwu (v : Bool) : (s.setPass v).bwu = s.bwu := rfl
@[simp] theorem setOrders_bwu (v : List (Option Order)) : (s.setOrders v).bwu = s.bwu := rfl
@[simp] theorem setPass_mau (v : Bool) : (s.setPass v).mau = s.mau := rfl
@[simp] theorem setOrders_mau (v : List (Option Order)) : (s.setOrders v).mau = s.mau := rfl
@[simp] theorem setPass_site (v : Bool) : (s.setPass v).site = s.site := rfl
@[simp] theorem setOrders_site (v : List (Option Order)) : (s.setOrders v).site = s.site := rfl
@[simp] theorem setPass_freeCount (v : Bool) : (s.setPass v).freeCount = s.freeCount := rfl
@[simp] theorem setOrders_freeCount (v : List (Option Order)) : (s.setOrders v).freeCount = s.freeCount := rfl
@[simp] theorem setPass_pending (v : Bool) : (s.setPass v).pending = s.pending := rfl
@[simp] theorem setOrders_pending (v : List (Option Order)) : (s.setOrders v).pending = s.pending := rfl

@[simp] theorem setPond_pins (p : Fin 4) (v : Pond) : (s.setPond p v).pins = s.pins := rfl
@[simp] theorem setPond_lc (p : Fin 4) (v : Pond) : (s.setPond p v).lc = s.lc := rfl
@[simp] theorem setPond_yc (p : Fin 4) (v : Pond) : (s.setPond p v).yc = s.yc := rfl
@[simp] theorem setPond_wfe (p : Fin 4) (v : Pond) : (s.setPond p v).wfe = s.wfe := rfl
@[simp] theorem setPond_ft (p : Fin 4) (v : Pond) : (s.setPond p v).ft = s.ft := rfl
@[simp] theorem setPond_pau (p : Fin 4) (v : Pond) : (s.setPond p v).pau = s.pau := rfl
@[simp] theorem setPond_cc (p : Fin 4) (v : Pond) : (s.setPond p v).cc = s.cc := rfl
@[simp] theorem setPond_sd (p : Fin 4) (v : Pond) : (s.setPond p v).sd = s.sd := rfl
@[simp] theorem setPond_wiu (p : Fin 4) (v : Pond) : (s.setPond p v).wiu = { s.wiu with ponds := s.wiu.ponds.set p v } := rfl
@[simp] theorem setPond_bwu (p : Fin 4) (v : Pond) : (s.setPond p v).bwu = s.bwu := rfl
@[simp] theorem setPond_mau (p : Fin 4) (v : Pond) : (s.setPond p v).mau = s.mau := rfl
@[simp] theorem setPond_site (p : Fin 4) (v : Pond) : (s.setPond p v).site = s.site := rfl
@[simp] theorem setPond_freeCount (p : Fin 4) (v : Pond) : (s.setPond p v).freeCount = s.freeCount := rfl
@[simp] theorem setPond_pending (p : Fin 4) (v : Pond) : (s.setPond p v).pending = s.pending := rfl

@[simp] theorem setPump_pins (v : Pump) : (s.setPump v).pins = s.pins := rfl
@[simp] theorem setPump_lc (v : Pump) : (s.setPump v).lc = s.lc := rfl
@[simp] theorem setPump_yc (v : Pump) : (s.setPump v).yc = s.yc := rfl
@[simp] theorem setPump_wfe (v : Pump) : (s.setPump v).wfe = s.wfe := rfl
@[simp] theorem setPump_ft (v : Pump) : (s.setPump v).ft = s.ft := rfl
@[simp] theorem setPump_pau (v : Pump) : (s.setPump v).pau = s.pau := rfl
@[simp] theorem setPump_cc (v : Pump) : (s.setPump v).cc = s.cc := rfl
@[simp] theorem setPump_sd (v : Pump) : (s.setPump v).sd = s.sd := rfl
@[simp] theorem setPump_wiu (v : Pump) : (s.setPump v).wiu = { s.wiu with pump := v } := rfl
@[simp] theorem setPump_bwu (v : Pump) : (s.setPump v).bwu = s.bwu := rfl
@[simp] theorem setPump_mau (v : Pump) : (s.setPump v).mau = s.mau := rfl
@[simp] theorem setPump_site (v : Pump) : (s.setPump v).site = s.site := rfl
@[simp] theorem setPump_freeCount (v : Pump) : (s.setPump v).freeCount = s.freeCount := rfl
@[simp] theorem setPump_pending (v : Pump) : (s.setPump v).pending = s.pending := rfl

@[simp] theorem setToday_pins (v : DayRecord) : (s.setToday v).pins = s.pins := rfl
@[simp] theorem setToday_lc (v : DayRecord) : (s.setToday v).lc = s.lc := rfl
@[simp] theorem setToday_yc (v : DayRecord) : (s.setToday v).yc = s.yc := rfl
@[simp] theorem setToday_wfe (v : DayRecord) : (s.setToday v).wfe = s.wfe := rfl
@[simp] theorem setToday_ft (v : DayRecord) : (s.setToday v).ft = s.ft := rfl
@[simp] theorem setToday_pau (v : DayRecord) : (s.setToday v).pau = s.pau := rfl
@[simp] theorem setToday_cc (v : DayRecord) : (s.setToday v).cc = s.cc := rfl
@[simp] theorem setToday_sd (v : DayRecord) : (s.setToday v).sd = s.sd := rfl
@[simp] theorem setToday_wiu (v : DayRecord) : (s.setToday v).wiu = { s.wiu with today := v } := rfl
@[simp] theorem setToday_bwu (v : DayRecord) : (s.setToday v).bwu = s.bwu := rfl
@[simp] theorem setToday_mau (v : DayRecord) : (s.setToday v).mau = s.mau := rfl
@[simp] theorem setToday_site (v : DayRecord) : (s.setToday v).site = s.site := rfl
@[simp] theorem setToday_freeCount (v : DayRecord) : (s.setToday v).freeCount = s.freeCount := rfl
@[simp] theorem setToday_pending (v : DayRecord) : (s.setToday v).pending = s.pending := rfl

@[simp] theorem setPrevious_pins (v : DayRecord) : (s.setPrevious v).pins = s.pins := rfl
@[simp] theorem setPrevious_lc (v : DayRecord) : (s.setPrevious v).lc = s.lc := rfl
@[simp] theorem setPrevious_yc (v : DayRecord) : (s.setPrevious v).yc = s.yc := rfl
@[simp] theorem setPrevious_wfe (v : DayRecord) : (s.setPrevious v).wfe = s.wfe := rfl
@[simp] theorem setPrevious_ft (v : DayRecord) : (s.setPrevious v).ft = s.ft := rfl
@[simp] theorem setPrevious_pau (v : DayRecord) : (s.setPrevious v).pau = s.pau := rfl
@[simp] theorem setPrevious_cc (v : DayRecord) : (s.setPrevious v).cc = s.cc := rfl
@[simp] theorem setPrevious_sd (v : DayRecord) : (s.setPrevious v).sd = s.sd := rfl
@[simp] theorem setPrevious_wiu (v : DayRecord) : (s.setPrevious v).wiu = { s.wiu with previous := v } := rfl
@[simp] theorem setPrevious_bwu (v : DayRecord) : (s.setPrevious v).bwu = s.bwu := rfl
@[simp] theorem setPrevious_mau (v : DayRecord) : (s.setPrevious v).mau = s.mau := rfl
@[simp] theorem setPrevious_site (v : DayRecord) : (s.setPrevious v).site = s.site := rfl
@[simp] theorem setPrevious_freeCount (v : DayRecord) : (s.setPrevious v).freeCount = s.freeCount := rfl
@[simp] theorem setPrevious_pending (v : DayRecord) : (s.setPrevious v).pending = s.pending := rfl

@[simp] theorem setMonitor_pins (m : Fin 8) (v : Monitor) : (s.setMonitor m v).pins = s.pins := rfl
@[simp] theorem setMonitor_lc (m : Fin 8) (v : Monitor) : (s.setMonitor m v).lc = s.lc := rfl
@[simp] theorem setMonitor_yc (m : Fin 8) (v : Monitor) : (s.setMonitor m v).yc = s.yc := rfl
@[simp] theorem setMonitor_wfe (m : Fin 8) (v : Monitor) : (s.setMonitor m v).wfe = s.wfe := rfl
@[simp] theorem setMonitor_ft (m : Fin 8) (v : Monitor) : (s.setMonitor m v).ft = s.ft := rfl
@[simp] theorem setMonitor_pau (m : Fin 8) (v : Monitor) : (s.setMonitor m v).pau = s.pau := rfl
@[simp] theorem setMonitor_cc (m : Fin 8) (v : Monitor) : (s.setMonitor m v).cc = s.cc := rfl
@[simp] theorem setMonitor_sd (m : Fin 8) (v : Monitor) : (s.setMonitor m v).sd = s.sd := rfl
@[simp] theorem setMonitor_wiu (m : Fin 8) (v : Monitor) : (s.setMonitor m v).wiu = s.wiu := rfl
@[simp] theorem setMonitor_bwu (m : Fin 8) (v : Monitor) : (s.setMonitor m v).bwu = { s.bwu with monitors := s.bwu.monitors.set m v } := rfl
@[simp] theorem setMonitor_mau (m : Fin 8) (v : Monitor) : (s.setMonitor m v).mau = s.mau := rfl
@[simp] theorem setMonitor_site (m : Fin 8) (v : Monitor) : (s.setMonitor m v).site = s.site := rfl
@[simp] theorem setMonitor_freeCount (m : Fin 8) (v : Monitor) : (s.setMonitor m v).freeCount = s.freeCount := rfl
@[simp] theorem setMonitor_pending (m : Fin 8) (v : Monitor) : (s.setMonitor m v).pending = s.pending := rfl

@[simp] theorem setEpisode_pins (k : Nat) (v : Option Episode) : (s.setEpisode k v).pins = s.pins := rfl
@[simp] theorem setEpisode_lc (k : Nat) (v : Option Episode) : (s.setEpisode k v).lc = s.lc := rfl
@[simp] theorem setEpisode_yc (k : Nat) (v : Option Episode) : (s.setEpisode k v).yc = s.yc := rfl
@[simp] theorem setEpisode_wfe (k : Nat) (v : Option Episode) : (s.setEpisode k v).wfe = s.wfe := rfl
@[simp] theorem setEpisode_ft (k : Nat) (v : Option Episode) : (s.setEpisode k v).ft = s.ft := rfl
@[simp] theorem setEpisode_pau (k : Nat) (v : Option Episode) : (s.setEpisode k v).pau = s.pau := rfl
@[simp] theorem setEpisode_cc (k : Nat) (v : Option Episode) : (s.setEpisode k v).cc = s.cc := rfl
@[simp] theorem setEpisode_sd (k : Nat) (v : Option Episode) : (s.setEpisode k v).sd = s.sd := rfl
@[simp] theorem setEpisode_wiu (k : Nat) (v : Option Episode) : (s.setEpisode k v).wiu = s.wiu := rfl
@[simp] theorem setEpisode_bwu (k : Nat) (v : Option Episode) : (s.setEpisode k v).bwu = { s.bwu with episodes := s.bwu.episodes.set k v } := rfl
@[simp] theorem setEpisode_mau (k : Nat) (v : Option Episode) : (s.setEpisode k v).mau = s.mau := rfl
@[simp] theorem setEpisode_site (k : Nat) (v : Option Episode) : (s.setEpisode k v).site = s.site := rfl
@[simp] theorem setEpisode_freeCount (k : Nat) (v : Option Episode) : (s.setEpisode k v).freeCount = s.freeCount := rfl
@[simp] theorem setEpisode_pending (k : Nat) (v : Option Episode) : (s.setEpisode k v).pending = s.pending := rfl

@[simp] theorem setNotices_pins (v : List Notice) : (s.setNotices v).pins = s.pins := rfl
@[simp] theorem setNotices_lc (v : List Notice) : (s.setNotices v).lc = { s.lc with notices := v } := rfl
@[simp] theorem setNotices_yc (v : List Notice) : (s.setNotices v).yc = s.yc := rfl
@[simp] theorem setNotices_wfe (v : List Notice) : (s.setNotices v).wfe = s.wfe := rfl
@[simp] theorem setNotices_ft (v : List Notice) : (s.setNotices v).ft = s.ft := rfl
@[simp] theorem setNotices_pau (v : List Notice) : (s.setNotices v).pau = s.pau := rfl
@[simp] theorem setNotices_cc (v : List Notice) : (s.setNotices v).cc = s.cc := rfl
@[simp] theorem setNotices_sd (v : List Notice) : (s.setNotices v).sd = s.sd := rfl
@[simp] theorem setNotices_wiu (v : List Notice) : (s.setNotices v).wiu = s.wiu := rfl
@[simp] theorem setNotices_bwu (v : List Notice) : (s.setNotices v).bwu = s.bwu := rfl
@[simp] theorem setNotices_mau (v : List Notice) : (s.setNotices v).mau = s.mau := rfl
@[simp] theorem setNotices_site (v : List Notice) : (s.setNotices v).site = s.site := rfl
@[simp] theorem setNotices_freeCount (v : List Notice) : (s.setNotices v).freeCount = s.freeCount := rfl
@[simp] theorem setNotices_pending (v : List Notice) : (s.setNotices v).pending = s.pending := rfl

@[simp] theorem setAlerts_pins (v : Alerts) : (s.setAlerts v).pins = s.pins := rfl
@[simp] theorem setAlerts_lc (v : Alerts) : (s.setAlerts v).lc = s.lc := rfl
@[simp] theorem setAlerts_yc (v : Alerts) : (s.setAlerts v).yc = s.yc := rfl
@[simp] theorem setAlerts_wfe (v : Alerts) : (s.setAlerts v).wfe = s.wfe := rfl
@[simp] theorem setAlerts_ft (v : Alerts) : (s.setAlerts v).ft = s.ft := rfl
@[simp] theorem setAlerts_pau (v : Alerts) : (s.setAlerts v).pau = s.pau := rfl
@[simp] theorem setAlerts_cc (v : Alerts) : (s.setAlerts v).cc = s.cc := rfl
@[simp] theorem setAlerts_sd (v : Alerts) : (s.setAlerts v).sd = s.sd := rfl
@[simp] theorem setAlerts_wiu (v : Alerts) : (s.setAlerts v).wiu = s.wiu := rfl
@[simp] theorem setAlerts_bwu (v : Alerts) : (s.setAlerts v).bwu = s.bwu := rfl
@[simp] theorem setAlerts_mau (v : Alerts) : (s.setAlerts v).mau = { s.mau with alerts := v } := rfl
@[simp] theorem setAlerts_site (v : Alerts) : (s.setAlerts v).site = s.site := rfl
@[simp] theorem setAlerts_freeCount (v : Alerts) : (s.setAlerts v).freeCount = s.freeCount := rfl
@[simp] theorem setAlerts_pending (v : Alerts) : (s.setAlerts v).pending = s.pending := rfl

@[simp] theorem setMode_pins (v : Mode) (w : Option Cause) : (s.setMode v w).pins = s.pins := rfl
@[simp] theorem setMode_lc (v : Mode) (w : Option Cause) : (s.setMode v w).lc = s.lc := rfl
@[simp] theorem setMode_yc (v : Mode) (w : Option Cause) : (s.setMode v w).yc = s.yc := rfl
@[simp] theorem setMode_wfe (v : Mode) (w : Option Cause) : (s.setMode v w).wfe = s.wfe := rfl
@[simp] theorem setMode_ft (v : Mode) (w : Option Cause) : (s.setMode v w).ft = s.ft := rfl
@[simp] theorem setMode_pau (v : Mode) (w : Option Cause) : (s.setMode v w).pau = s.pau := rfl
@[simp] theorem setMode_cc (v : Mode) (w : Option Cause) : (s.setMode v w).cc = s.cc := rfl
@[simp] theorem setMode_sd (v : Mode) (w : Option Cause) : (s.setMode v w).sd = s.sd := rfl
@[simp] theorem setMode_wiu (v : Mode) (w : Option Cause) : (s.setMode v w).wiu = s.wiu := rfl
@[simp] theorem setMode_bwu (v : Mode) (w : Option Cause) : (s.setMode v w).bwu = s.bwu := rfl
@[simp] theorem setMode_mau (v : Mode) (w : Option Cause) : (s.setMode v w).mau = { s.mau with mode := v, cause := w } := rfl
@[simp] theorem setMode_site (v : Mode) (w : Option Cause) : (s.setMode v w).site = s.site := rfl
@[simp] theorem setMode_freeCount (v : Mode) (w : Option Cause) : (s.setMode v w).freeCount = s.freeCount := rfl
@[simp] theorem setMode_pending (v : Mode) (w : Option Cause) : (s.setMode v w).pending = s.pending := rfl

@[simp] theorem setPins_pins (v : Pins) : (s.setPins v).pins = v := rfl
@[simp] theorem setPins_lc (v : Pins) : (s.setPins v).lc = s.lc := rfl
@[simp] theorem setPins_yc (v : Pins) : (s.setPins v).yc = s.yc := rfl
@[simp] theorem setPins_wfe (v : Pins) : (s.setPins v).wfe = s.wfe := rfl
@[simp] theorem setPins_ft (v : Pins) : (s.setPins v).ft = s.ft := rfl
@[simp] theorem setPins_pau (v : Pins) : (s.setPins v).pau = s.pau := rfl
@[simp] theorem setPins_cc (v : Pins) : (s.setPins v).cc = s.cc := rfl
@[simp] theorem setPins_sd (v : Pins) : (s.setPins v).sd = s.sd := rfl
@[simp] theorem setPins_wiu (v : Pins) : (s.setPins v).wiu = s.wiu := rfl
@[simp] theorem setPins_bwu (v : Pins) : (s.setPins v).bwu = s.bwu := rfl
@[simp] theorem setPins_mau (v : Pins) : (s.setPins v).mau = s.mau := rfl
@[simp] theorem setPins_site (v : Pins) : (s.setPins v).site = s.site := rfl
@[simp] theorem setPins_freeCount (v : Pins) : (s.setPins v).freeCount = s.freeCount := rfl
@[simp] theorem setPins_pending (v : Pins) : (s.setPins v).pending = s.pending := rfl

@[simp] theorem setYc_pins (v : Yc) : (s.setYc v).pins = s.pins := rfl
@[simp] theorem setYc_lc (v : Yc) : (s.setYc v).lc = s.lc := rfl
@[simp] theorem setYc_yc (v : Yc) : (s.setYc v).yc = v := rfl
@[simp] theorem setYc_wfe (v : Yc) : (s.setYc v).wfe = s.wfe := rfl
@[simp] theorem setYc_ft (v : Yc) : (s.setYc v).ft = s.ft := rfl
@[simp] theorem setYc_pau (v : Yc) : (s.setYc v).pau = s.pau := rfl
@[simp] theorem setYc_cc (v : Yc) : (s.setYc v).cc = s.cc := rfl
@[simp] theorem setYc_sd (v : Yc) : (s.setYc v).sd = s.sd := rfl
@[simp] theorem setYc_wiu (v : Yc) : (s.setYc v).wiu = s.wiu := rfl
@[simp] theorem setYc_bwu (v : Yc) : (s.setYc v).bwu = s.bwu := rfl
@[simp] theorem setYc_mau (v : Yc) : (s.setYc v).mau = s.mau := rfl
@[simp] theorem setYc_site (v : Yc) : (s.setYc v).site = s.site := rfl
@[simp] theorem setYc_freeCount (v : Yc) : (s.setYc v).freeCount = s.freeCount := rfl
@[simp] theorem setYc_pending (v : Yc) : (s.setYc v).pending = s.pending := rfl

@[simp] theorem setWfe_pins (v : Wfe) : (s.setWfe v).pins = s.pins := rfl
@[simp] theorem setWfe_lc (v : Wfe) : (s.setWfe v).lc = s.lc := rfl
@[simp] theorem setWfe_yc (v : Wfe) : (s.setWfe v).yc = s.yc := rfl
@[simp] theorem setWfe_wfe (v : Wfe) : (s.setWfe v).wfe = v := rfl
@[simp] theorem setWfe_ft (v : Wfe) : (s.setWfe v).ft = s.ft := rfl
@[simp] theorem setWfe_pau (v : Wfe) : (s.setWfe v).pau = s.pau := rfl
@[simp] theorem setWfe_cc (v : Wfe) : (s.setWfe v).cc = s.cc := rfl
@[simp] theorem setWfe_sd (v : Wfe) : (s.setWfe v).sd = s.sd := rfl
@[simp] theorem setWfe_wiu (v : Wfe) : (s.setWfe v).wiu = s.wiu := rfl
@[simp] theorem setWfe_bwu (v : Wfe) : (s.setWfe v).bwu = s.bwu := rfl
@[simp] theorem setWfe_mau (v : Wfe) : (s.setWfe v).mau = s.mau := rfl
@[simp] theorem setWfe_site (v : Wfe) : (s.setWfe v).site = s.site := rfl
@[simp] theorem setWfe_freeCount (v : Wfe) : (s.setWfe v).freeCount = s.freeCount := rfl
@[simp] theorem setWfe_pending (v : Wfe) : (s.setWfe v).pending = s.pending := rfl

@[simp] theorem setFt_pins (v : Ft) : (s.setFt v).pins = s.pins := rfl
@[simp] theorem setFt_lc (v : Ft) : (s.setFt v).lc = s.lc := rfl
@[simp] theorem setFt_yc (v : Ft) : (s.setFt v).yc = s.yc := rfl
@[simp] theorem setFt_wfe (v : Ft) : (s.setFt v).wfe = s.wfe := rfl
@[simp] theorem setFt_ft (v : Ft) : (s.setFt v).ft = v := rfl
@[simp] theorem setFt_pau (v : Ft) : (s.setFt v).pau = s.pau := rfl
@[simp] theorem setFt_cc (v : Ft) : (s.setFt v).cc = s.cc := rfl
@[simp] theorem setFt_sd (v : Ft) : (s.setFt v).sd = s.sd := rfl
@[simp] theorem setFt_wiu (v : Ft) : (s.setFt v).wiu = s.wiu := rfl
@[simp] theorem setFt_bwu (v : Ft) : (s.setFt v).bwu = s.bwu := rfl
@[simp] theorem setFt_mau (v : Ft) : (s.setFt v).mau = s.mau := rfl
@[simp] theorem setFt_site (v : Ft) : (s.setFt v).site = s.site := rfl
@[simp] theorem setFt_freeCount (v : Ft) : (s.setFt v).freeCount = s.freeCount := rfl
@[simp] theorem setFt_pending (v : Ft) : (s.setFt v).pending = s.pending := rfl

@[simp] theorem setPau_pins (v : Pau) : (s.setPau v).pins = s.pins := rfl
@[simp] theorem setPau_lc (v : Pau) : (s.setPau v).lc = s.lc := rfl
@[simp] theorem setPau_yc (v : Pau) : (s.setPau v).yc = s.yc := rfl
@[simp] theorem setPau_wfe (v : Pau) : (s.setPau v).wfe = s.wfe := rfl
@[simp] theorem setPau_ft (v : Pau) : (s.setPau v).ft = s.ft := rfl
@[simp] theorem setPau_pau (v : Pau) : (s.setPau v).pau = v := rfl
@[simp] theorem setPau_cc (v : Pau) : (s.setPau v).cc = s.cc := rfl
@[simp] theorem setPau_sd (v : Pau) : (s.setPau v).sd = s.sd := rfl
@[simp] theorem setPau_wiu (v : Pau) : (s.setPau v).wiu = s.wiu := rfl
@[simp] theorem setPau_bwu (v : Pau) : (s.setPau v).bwu = s.bwu := rfl
@[simp] theorem setPau_mau (v : Pau) : (s.setPau v).mau = s.mau := rfl
@[simp] theorem setPau_site (v : Pau) : (s.setPau v).site = s.site := rfl
@[simp] theorem setPau_freeCount (v : Pau) : (s.setPau v).freeCount = s.freeCount := rfl
@[simp] theorem setPau_pending (v : Pau) : (s.setPau v).pending = s.pending := rfl

@[simp] theorem setSite_pins (v : Site) : (s.setSite v).pins = s.pins := rfl
@[simp] theorem setSite_lc (v : Site) : (s.setSite v).lc = s.lc := rfl
@[simp] theorem setSite_yc (v : Site) : (s.setSite v).yc = s.yc := rfl
@[simp] theorem setSite_wfe (v : Site) : (s.setSite v).wfe = s.wfe := rfl
@[simp] theorem setSite_ft (v : Site) : (s.setSite v).ft = s.ft := rfl
@[simp] theorem setSite_pau (v : Site) : (s.setSite v).pau = s.pau := rfl
@[simp] theorem setSite_cc (v : Site) : (s.setSite v).cc = s.cc := rfl
@[simp] theorem setSite_sd (v : Site) : (s.setSite v).sd = s.sd := rfl
@[simp] theorem setSite_wiu (v : Site) : (s.setSite v).wiu = s.wiu := rfl
@[simp] theorem setSite_bwu (v : Site) : (s.setSite v).bwu = s.bwu := rfl
@[simp] theorem setSite_mau (v : Site) : (s.setSite v).mau = s.mau := rfl
@[simp] theorem setSite_site (v : Site) : (s.setSite v).site = v := rfl
@[simp] theorem setSite_freeCount (v : Site) : (s.setSite v).freeCount = s.freeCount := rfl
@[simp] theorem setSite_pending (v : Site) : (s.setSite v).pending = s.pending := rfl

@[simp] theorem setLc_pins (v : Lc) : (s.setLc v).pins = s.pins := rfl
@[simp] theorem setLc_lc (v : Lc) : (s.setLc v).lc = v := rfl
@[simp] theorem setLc_yc (v : Lc) : (s.setLc v).yc = s.yc := rfl
@[simp] theorem setLc_wfe (v : Lc) : (s.setLc v).wfe = s.wfe := rfl
@[simp] theorem setLc_ft (v : Lc) : (s.setLc v).ft = s.ft := rfl
@[simp] theorem setLc_pau (v : Lc) : (s.setLc v).pau = s.pau := rfl
@[simp] theorem setLc_cc (v : Lc) : (s.setLc v).cc = s.cc := rfl
@[simp] theorem setLc_sd (v : Lc) : (s.setLc v).sd = s.sd := rfl
@[simp] theorem setLc_wiu (v : Lc) : (s.setLc v).wiu = s.wiu := rfl
@[simp] theorem setLc_bwu (v : Lc) : (s.setLc v).bwu = s.bwu := rfl
@[simp] theorem setLc_mau (v : Lc) : (s.setLc v).mau = s.mau := rfl
@[simp] theorem setLc_site (v : Lc) : (s.setLc v).site = s.site := rfl
@[simp] theorem setLc_freeCount (v : Lc) : (s.setLc v).freeCount = s.freeCount := rfl
@[simp] theorem setLc_pending (v : Lc) : (s.setLc v).pending = s.pending := rfl

@[simp] theorem setPile_mast (p : Fin 24) (v : Pile) (i : Fin 2) : (s.setPile p v).mast i = s.mast i := rfl
@[simp] theorem setCannon_mast (c : Fin 32) (v : Cannon) (i : Fin 2) : (s.setCannon c v).mast i = s.mast i := rfl
@[simp] theorem setMachine_mast (m : Fin 4) (v : MachineRecord) (i : Fin 2) : (s.setMachine m v).mast i = s.mast i := rfl
@[simp] theorem setQueue_mast (v : List (Fin 32 × Movement)) (i : Fin 2) : (s.setQueue v).mast i = s.mast i := rfl
@[simp] theorem setSlot_mast (v : Option Nat) (i : Fin 2) : (s.setSlot v).mast i = s.mast i := rfl
@[simp] theorem setRun_mast (c : Fin 32) (v : Option Run) (i : Fin 2) : (s.setRun c v).mast i = s.mast i := rfl
@[simp] theorem setOrder_mast (k : Nat) (v : Option Order) (i : Fin 2) : (s.setOrder k v).mast i = s.mast i := rfl
@[simp] theorem setDemand_mast (p : Fin 24) (v : Demand) (i : Fin 2) : (s.setDemand p v).mast i = s.mast i := rfl
@[simp] theorem setSuspensions_mast (v : Nat) (i : Fin 2) : (s.setSuspensions v).mast i = s.mast i := rfl
@[simp] theorem setAcceptances_mast (v : Nat) (i : Fin 2) : (s.setAcceptances v).mast i = s.mast i := rfl
@[simp] theorem setPass_mast (v : Bool) (i : Fin 2) : (s.setPass v).mast i = s.mast i := rfl
@[simp] theorem setOrders_mast (v : List (Option Order)) (i : Fin 2) : (s.setOrders v).mast i = s.mast i := rfl
@[simp] theorem setPond_mast (p : Fin 4) (v : Pond) (i : Fin 2) : (s.setPond p v).mast i = s.mast i := rfl
@[simp] theorem setPump_mast (v : Pump) (i : Fin 2) : (s.setPump v).mast i = s.mast i := rfl
@[simp] theorem setToday_mast (v : DayRecord) (i : Fin 2) : (s.setToday v).mast i = s.mast i := rfl
@[simp] theorem setPrevious_mast (v : DayRecord) (i : Fin 2) : (s.setPrevious v).mast i = s.mast i := rfl
@[simp] theorem setMonitor_mast (m : Fin 8) (v : Monitor) (i : Fin 2) : (s.setMonitor m v).mast i = s.mast i := rfl
@[simp] theorem setEpisode_mast (k : Nat) (v : Option Episode) (i : Fin 2) : (s.setEpisode k v).mast i = s.mast i := rfl
@[simp] theorem setNotices_mast (v : List Notice) (i : Fin 2) : (s.setNotices v).mast i = s.mast i := rfl
@[simp] theorem setAlerts_mast (v : Alerts) (i : Fin 2) : (s.setAlerts v).mast i = s.mast i := rfl
@[simp] theorem setMode_mast (v : Mode) (w : Option Cause) (i : Fin 2) : (s.setMode v w).mast i = s.mast i := rfl
@[simp] theorem setPins_mast (v : Pins) (i : Fin 2) : (s.setPins v).mast i = s.mast i := rfl
@[simp] theorem setYc_mast (v : Yc) (i : Fin 2) : (s.setYc v).mast i = s.mast i := rfl
@[simp] theorem setFt_mast (v : Ft) (i : Fin 2) : (s.setFt v).mast i = s.mast i := rfl
@[simp] theorem setPau_mast (v : Pau) (i : Fin 2) : (s.setPau v).mast i = s.mast i := rfl
@[simp] theorem setSite_mast (v : Site) (i : Fin 2) : (s.setSite v).mast i = s.mast i := rfl
@[simp] theorem setLc_mast (v : Lc) (i : Fin 2) : (s.setLc v).mast i = s.mast i := rfl

@[simp] theorem setMast_pile (m : Fin 2) (v : Mast) (i : Fin 24) : (s.setMast m v).pile i = s.pile i := rfl
@[simp] theorem setCannon_pile (c : Fin 32) (v : Cannon) (i : Fin 24) : (s.setCannon c v).pile i = s.pile i := rfl
@[simp] theorem setMachine_pile (m : Fin 4) (v : MachineRecord) (i : Fin 24) : (s.setMachine m v).pile i = s.pile i := rfl
@[simp] theorem setQueue_pile (v : List (Fin 32 × Movement)) (i : Fin 24) : (s.setQueue v).pile i = s.pile i := rfl
@[simp] theorem setSlot_pile (v : Option Nat) (i : Fin 24) : (s.setSlot v).pile i = s.pile i := rfl
@[simp] theorem setRun_pile (c : Fin 32) (v : Option Run) (i : Fin 24) : (s.setRun c v).pile i = s.pile i := rfl
@[simp] theorem setOrder_pile (k : Nat) (v : Option Order) (i : Fin 24) : (s.setOrder k v).pile i = s.pile i := rfl
@[simp] theorem setDemand_pile (p : Fin 24) (v : Demand) (i : Fin 24) : (s.setDemand p v).pile i = s.pile i := rfl
@[simp] theorem setSuspensions_pile (v : Nat) (i : Fin 24) : (s.setSuspensions v).pile i = s.pile i := rfl
@[simp] theorem setAcceptances_pile (v : Nat) (i : Fin 24) : (s.setAcceptances v).pile i = s.pile i := rfl
@[simp] theorem setPass_pile (v : Bool) (i : Fin 24) : (s.setPass v).pile i = s.pile i := rfl
@[simp] theorem setOrders_pile (v : List (Option Order)) (i : Fin 24) : (s.setOrders v).pile i = s.pile i := rfl
@[simp] theorem setPond_pile (p : Fin 4) (v : Pond) (i : Fin 24) : (s.setPond p v).pile i = s.pile i := rfl
@[simp] theorem setPump_pile (v : Pump) (i : Fin 24) : (s.setPump v).pile i = s.pile i := rfl
@[simp] theorem setToday_pile (v : DayRecord) (i : Fin 24) : (s.setToday v).pile i = s.pile i := rfl
@[simp] theorem setPrevious_pile (v : DayRecord) (i : Fin 24) : (s.setPrevious v).pile i = s.pile i := rfl
@[simp] theorem setMonitor_pile (m : Fin 8) (v : Monitor) (i : Fin 24) : (s.setMonitor m v).pile i = s.pile i := rfl
@[simp] theorem setEpisode_pile (k : Nat) (v : Option Episode) (i : Fin 24) : (s.setEpisode k v).pile i = s.pile i := rfl
@[simp] theorem setNotices_pile (v : List Notice) (i : Fin 24) : (s.setNotices v).pile i = s.pile i := rfl
@[simp] theorem setAlerts_pile (v : Alerts) (i : Fin 24) : (s.setAlerts v).pile i = s.pile i := rfl
@[simp] theorem setMode_pile (v : Mode) (w : Option Cause) (i : Fin 24) : (s.setMode v w).pile i = s.pile i := rfl
@[simp] theorem setPins_pile (v : Pins) (i : Fin 24) : (s.setPins v).pile i = s.pile i := rfl
@[simp] theorem setYc_pile (v : Yc) (i : Fin 24) : (s.setYc v).pile i = s.pile i := rfl
@[simp] theorem setWfe_pile (v : Wfe) (i : Fin 24) : (s.setWfe v).pile i = s.pile i := rfl
@[simp] theorem setFt_pile (v : Ft) (i : Fin 24) : (s.setFt v).pile i = s.pile i := rfl
@[simp] theorem setSite_pile (v : Site) (i : Fin 24) : (s.setSite v).pile i = s.pile i := rfl
@[simp] theorem setLc_pile (v : Lc) (i : Fin 24) : (s.setLc v).pile i = s.pile i := rfl

@[simp] theorem setMast_cannon (m : Fin 2) (v : Mast) (i : Fin 32) : (s.setMast m v).cannon i = s.cannon i := rfl
@[simp] theorem setPile_cannon (p : Fin 24) (v : Pile) (i : Fin 32) : (s.setPile p v).cannon i = s.cannon i := rfl
@[simp] theorem setMachine_cannon (m : Fin 4) (v : MachineRecord) (i : Fin 32) : (s.setMachine m v).cannon i = s.cannon i := rfl
@[simp] theorem setQueue_cannon (v : List (Fin 32 × Movement)) (i : Fin 32) : (s.setQueue v).cannon i = s.cannon i := rfl
@[simp] theorem setSlot_cannon (v : Option Nat) (i : Fin 32) : (s.setSlot v).cannon i = s.cannon i := rfl
@[simp] theorem setRun_cannon (c : Fin 32) (v : Option Run) (i : Fin 32) : (s.setRun c v).cannon i = s.cannon i := rfl
@[simp] theorem setOrder_cannon (k : Nat) (v : Option Order) (i : Fin 32) : (s.setOrder k v).cannon i = s.cannon i := rfl
@[simp] theorem setDemand_cannon (p : Fin 24) (v : Demand) (i : Fin 32) : (s.setDemand p v).cannon i = s.cannon i := rfl
@[simp] theorem setSuspensions_cannon (v : Nat) (i : Fin 32) : (s.setSuspensions v).cannon i = s.cannon i := rfl
@[simp] theorem setAcceptances_cannon (v : Nat) (i : Fin 32) : (s.setAcceptances v).cannon i = s.cannon i := rfl
@[simp] theorem setPass_cannon (v : Bool) (i : Fin 32) : (s.setPass v).cannon i = s.cannon i := rfl
@[simp] theorem setOrders_cannon (v : List (Option Order)) (i : Fin 32) : (s.setOrders v).cannon i = s.cannon i := rfl
@[simp] theorem setPond_cannon (p : Fin 4) (v : Pond) (i : Fin 32) : (s.setPond p v).cannon i = s.cannon i := rfl
@[simp] theorem setPump_cannon (v : Pump) (i : Fin 32) : (s.setPump v).cannon i = s.cannon i := rfl
@[simp] theorem setToday_cannon (v : DayRecord) (i : Fin 32) : (s.setToday v).cannon i = s.cannon i := rfl
@[simp] theorem setPrevious_cannon (v : DayRecord) (i : Fin 32) : (s.setPrevious v).cannon i = s.cannon i := rfl
@[simp] theorem setMonitor_cannon (m : Fin 8) (v : Monitor) (i : Fin 32) : (s.setMonitor m v).cannon i = s.cannon i := rfl
@[simp] theorem setEpisode_cannon (k : Nat) (v : Option Episode) (i : Fin 32) : (s.setEpisode k v).cannon i = s.cannon i := rfl
@[simp] theorem setNotices_cannon (v : List Notice) (i : Fin 32) : (s.setNotices v).cannon i = s.cannon i := rfl
@[simp] theorem setAlerts_cannon (v : Alerts) (i : Fin 32) : (s.setAlerts v).cannon i = s.cannon i := rfl
@[simp] theorem setMode_cannon (v : Mode) (w : Option Cause) (i : Fin 32) : (s.setMode v w).cannon i = s.cannon i := rfl
@[simp] theorem setPins_cannon (v : Pins) (i : Fin 32) : (s.setPins v).cannon i = s.cannon i := rfl
@[simp] theorem setYc_cannon (v : Yc) (i : Fin 32) : (s.setYc v).cannon i = s.cannon i := rfl
@[simp] theorem setWfe_cannon (v : Wfe) (i : Fin 32) : (s.setWfe v).cannon i = s.cannon i := rfl
@[simp] theorem setFt_cannon (v : Ft) (i : Fin 32) : (s.setFt v).cannon i = s.cannon i := rfl
@[simp] theorem setPau_cannon (v : Pau) (i : Fin 32) : (s.setPau v).cannon i = s.cannon i := rfl
@[simp] theorem setSite_cannon (v : Site) (i : Fin 32) : (s.setSite v).cannon i = s.cannon i := rfl
@[simp] theorem setLc_cannon (v : Lc) (i : Fin 32) : (s.setLc v).cannon i = s.cannon i := rfl

@[simp] theorem setMast_machine (m : Fin 2) (v : Mast) (i : Fin 4) : (s.setMast m v).machine i = s.machine i := rfl
@[simp] theorem setPile_machine (p : Fin 24) (v : Pile) (i : Fin 4) : (s.setPile p v).machine i = s.machine i := rfl
@[simp] theorem setCannon_machine (c : Fin 32) (v : Cannon) (i : Fin 4) : (s.setCannon c v).machine i = s.machine i := rfl
@[simp] theorem setQueue_machine (v : List (Fin 32 × Movement)) (i : Fin 4) : (s.setQueue v).machine i = s.machine i := rfl
@[simp] theorem setSlot_machine (v : Option Nat) (i : Fin 4) : (s.setSlot v).machine i = s.machine i := rfl
@[simp] theorem setRun_machine (c : Fin 32) (v : Option Run) (i : Fin 4) : (s.setRun c v).machine i = s.machine i := rfl
@[simp] theorem setOrder_machine (k : Nat) (v : Option Order) (i : Fin 4) : (s.setOrder k v).machine i = s.machine i := rfl
@[simp] theorem setDemand_machine (p : Fin 24) (v : Demand) (i : Fin 4) : (s.setDemand p v).machine i = s.machine i := rfl
@[simp] theorem setSuspensions_machine (v : Nat) (i : Fin 4) : (s.setSuspensions v).machine i = s.machine i := rfl
@[simp] theorem setAcceptances_machine (v : Nat) (i : Fin 4) : (s.setAcceptances v).machine i = s.machine i := rfl
@[simp] theorem setPass_machine (v : Bool) (i : Fin 4) : (s.setPass v).machine i = s.machine i := rfl
@[simp] theorem setOrders_machine (v : List (Option Order)) (i : Fin 4) : (s.setOrders v).machine i = s.machine i := rfl
@[simp] theorem setPond_machine (p : Fin 4) (v : Pond) (i : Fin 4) : (s.setPond p v).machine i = s.machine i := rfl
@[simp] theorem setPump_machine (v : Pump) (i : Fin 4) : (s.setPump v).machine i = s.machine i := rfl
@[simp] theorem setToday_machine (v : DayRecord) (i : Fin 4) : (s.setToday v).machine i = s.machine i := rfl
@[simp] theorem setPrevious_machine (v : DayRecord) (i : Fin 4) : (s.setPrevious v).machine i = s.machine i := rfl
@[simp] theorem setMonitor_machine (m : Fin 8) (v : Monitor) (i : Fin 4) : (s.setMonitor m v).machine i = s.machine i := rfl
@[simp] theorem setEpisode_machine (k : Nat) (v : Option Episode) (i : Fin 4) : (s.setEpisode k v).machine i = s.machine i := rfl
@[simp] theorem setNotices_machine (v : List Notice) (i : Fin 4) : (s.setNotices v).machine i = s.machine i := rfl
@[simp] theorem setAlerts_machine (v : Alerts) (i : Fin 4) : (s.setAlerts v).machine i = s.machine i := rfl
@[simp] theorem setMode_machine (v : Mode) (w : Option Cause) (i : Fin 4) : (s.setMode v w).machine i = s.machine i := rfl
@[simp] theorem setPins_machine (v : Pins) (i : Fin 4) : (s.setPins v).machine i = s.machine i := rfl
@[simp] theorem setYc_machine (v : Yc) (i : Fin 4) : (s.setYc v).machine i = s.machine i := rfl
@[simp] theorem setWfe_machine (v : Wfe) (i : Fin 4) : (s.setWfe v).machine i = s.machine i := rfl
@[simp] theorem setFt_machine (v : Ft) (i : Fin 4) : (s.setFt v).machine i = s.machine i := rfl
@[simp] theorem setPau_machine (v : Pau) (i : Fin 4) : (s.setPau v).machine i = s.machine i := rfl
@[simp] theorem setSite_machine (v : Site) (i : Fin 4) : (s.setSite v).machine i = s.machine i := rfl
@[simp] theorem setLc_machine (v : Lc) (i : Fin 4) : (s.setLc v).machine i = s.machine i := rfl

@[simp] theorem setMast_run (m : Fin 2) (v : Mast) (i : Fin 32) : (s.setMast m v).run i = s.run i := rfl
@[simp] theorem setPile_run (p : Fin 24) (v : Pile) (i : Fin 32) : (s.setPile p v).run i = s.run i := rfl
@[simp] theorem setCannon_run (c : Fin 32) (v : Cannon) (i : Fin 32) : (s.setCannon c v).run i = s.run i := rfl
@[simp] theorem setMachine_run (m : Fin 4) (v : MachineRecord) (i : Fin 32) : (s.setMachine m v).run i = s.run i := rfl
@[simp] theorem setQueue_run (v : List (Fin 32 × Movement)) (i : Fin 32) : (s.setQueue v).run i = s.run i := rfl
@[simp] theorem setSlot_run (v : Option Nat) (i : Fin 32) : (s.setSlot v).run i = s.run i := rfl
@[simp] theorem setOrder_run (k : Nat) (v : Option Order) (i : Fin 32) : (s.setOrder k v).run i = s.run i := rfl
@[simp] theorem setDemand_run (p : Fin 24) (v : Demand) (i : Fin 32) : (s.setDemand p v).run i = s.run i := rfl
@[simp] theorem setSuspensions_run (v : Nat) (i : Fin 32) : (s.setSuspensions v).run i = s.run i := rfl
@[simp] theorem setAcceptances_run (v : Nat) (i : Fin 32) : (s.setAcceptances v).run i = s.run i := rfl
@[simp] theorem setPass_run (v : Bool) (i : Fin 32) : (s.setPass v).run i = s.run i := rfl
@[simp] theorem setOrders_run (v : List (Option Order)) (i : Fin 32) : (s.setOrders v).run i = s.run i := rfl
@[simp] theorem setPond_run (p : Fin 4) (v : Pond) (i : Fin 32) : (s.setPond p v).run i = s.run i := rfl
@[simp] theorem setPump_run (v : Pump) (i : Fin 32) : (s.setPump v).run i = s.run i := rfl
@[simp] theorem setToday_run (v : DayRecord) (i : Fin 32) : (s.setToday v).run i = s.run i := rfl
@[simp] theorem setPrevious_run (v : DayRecord) (i : Fin 32) : (s.setPrevious v).run i = s.run i := rfl
@[simp] theorem setMonitor_run (m : Fin 8) (v : Monitor) (i : Fin 32) : (s.setMonitor m v).run i = s.run i := rfl
@[simp] theorem setEpisode_run (k : Nat) (v : Option Episode) (i : Fin 32) : (s.setEpisode k v).run i = s.run i := rfl
@[simp] theorem setNotices_run (v : List Notice) (i : Fin 32) : (s.setNotices v).run i = s.run i := rfl
@[simp] theorem setAlerts_run (v : Alerts) (i : Fin 32) : (s.setAlerts v).run i = s.run i := rfl
@[simp] theorem setMode_run (v : Mode) (w : Option Cause) (i : Fin 32) : (s.setMode v w).run i = s.run i := rfl
@[simp] theorem setPins_run (v : Pins) (i : Fin 32) : (s.setPins v).run i = s.run i := rfl
@[simp] theorem setYc_run (v : Yc) (i : Fin 32) : (s.setYc v).run i = s.run i := rfl
@[simp] theorem setWfe_run (v : Wfe) (i : Fin 32) : (s.setWfe v).run i = s.run i := rfl
@[simp] theorem setFt_run (v : Ft) (i : Fin 32) : (s.setFt v).run i = s.run i := rfl
@[simp] theorem setPau_run (v : Pau) (i : Fin 32) : (s.setPau v).run i = s.run i := rfl
@[simp] theorem setSite_run (v : Site) (i : Fin 32) : (s.setSite v).run i = s.run i := rfl
@[simp] theorem setLc_run (v : Lc) (i : Fin 32) : (s.setLc v).run i = s.run i := rfl

@[simp] theorem setMast_demand (m : Fin 2) (v : Mast) (i : Fin 24) : (s.setMast m v).demand i = s.demand i := rfl
@[simp] theorem setPile_demand (p : Fin 24) (v : Pile) (i : Fin 24) : (s.setPile p v).demand i = s.demand i := rfl
@[simp] theorem setCannon_demand (c : Fin 32) (v : Cannon) (i : Fin 24) : (s.setCannon c v).demand i = s.demand i := rfl
@[simp] theorem setMachine_demand (m : Fin 4) (v : MachineRecord) (i : Fin 24) : (s.setMachine m v).demand i = s.demand i := rfl
@[simp] theorem setQueue_demand (v : List (Fin 32 × Movement)) (i : Fin 24) : (s.setQueue v).demand i = s.demand i := rfl
@[simp] theorem setSlot_demand (v : Option Nat) (i : Fin 24) : (s.setSlot v).demand i = s.demand i := rfl
@[simp] theorem setRun_demand (c : Fin 32) (v : Option Run) (i : Fin 24) : (s.setRun c v).demand i = s.demand i := rfl
@[simp] theorem setOrder_demand (k : Nat) (v : Option Order) (i : Fin 24) : (s.setOrder k v).demand i = s.demand i := rfl
@[simp] theorem setSuspensions_demand (v : Nat) (i : Fin 24) : (s.setSuspensions v).demand i = s.demand i := rfl
@[simp] theorem setAcceptances_demand (v : Nat) (i : Fin 24) : (s.setAcceptances v).demand i = s.demand i := rfl
@[simp] theorem setPass_demand (v : Bool) (i : Fin 24) : (s.setPass v).demand i = s.demand i := rfl
@[simp] theorem setOrders_demand (v : List (Option Order)) (i : Fin 24) : (s.setOrders v).demand i = s.demand i := rfl
@[simp] theorem setPond_demand (p : Fin 4) (v : Pond) (i : Fin 24) : (s.setPond p v).demand i = s.demand i := rfl
@[simp] theorem setPump_demand (v : Pump) (i : Fin 24) : (s.setPump v).demand i = s.demand i := rfl
@[simp] theorem setToday_demand (v : DayRecord) (i : Fin 24) : (s.setToday v).demand i = s.demand i := rfl
@[simp] theorem setPrevious_demand (v : DayRecord) (i : Fin 24) : (s.setPrevious v).demand i = s.demand i := rfl
@[simp] theorem setMonitor_demand (m : Fin 8) (v : Monitor) (i : Fin 24) : (s.setMonitor m v).demand i = s.demand i := rfl
@[simp] theorem setEpisode_demand (k : Nat) (v : Option Episode) (i : Fin 24) : (s.setEpisode k v).demand i = s.demand i := rfl
@[simp] theorem setNotices_demand (v : List Notice) (i : Fin 24) : (s.setNotices v).demand i = s.demand i := rfl
@[simp] theorem setAlerts_demand (v : Alerts) (i : Fin 24) : (s.setAlerts v).demand i = s.demand i := rfl
@[simp] theorem setMode_demand (v : Mode) (w : Option Cause) (i : Fin 24) : (s.setMode v w).demand i = s.demand i := rfl
@[simp] theorem setPins_demand (v : Pins) (i : Fin 24) : (s.setPins v).demand i = s.demand i := rfl
@[simp] theorem setYc_demand (v : Yc) (i : Fin 24) : (s.setYc v).demand i = s.demand i := rfl
@[simp] theorem setWfe_demand (v : Wfe) (i : Fin 24) : (s.setWfe v).demand i = s.demand i := rfl
@[simp] theorem setFt_demand (v : Ft) (i : Fin 24) : (s.setFt v).demand i = s.demand i := rfl
@[simp] theorem setPau_demand (v : Pau) (i : Fin 24) : (s.setPau v).demand i = s.demand i := rfl
@[simp] theorem setSite_demand (v : Site) (i : Fin 24) : (s.setSite v).demand i = s.demand i := rfl
@[simp] theorem setLc_demand (v : Lc) (i : Fin 24) : (s.setLc v).demand i = s.demand i := rfl

@[simp] theorem setMast_pond (m : Fin 2) (v : Mast) (i : Fin 4) : (s.setMast m v).pond i = s.pond i := rfl
@[simp] theorem setPile_pond (p : Fin 24) (v : Pile) (i : Fin 4) : (s.setPile p v).pond i = s.pond i := rfl
@[simp] theorem setCannon_pond (c : Fin 32) (v : Cannon) (i : Fin 4) : (s.setCannon c v).pond i = s.pond i := rfl
@[simp] theorem setMachine_pond (m : Fin 4) (v : MachineRecord) (i : Fin 4) : (s.setMachine m v).pond i = s.pond i := rfl
@[simp] theorem setQueue_pond (v : List (Fin 32 × Movement)) (i : Fin 4) : (s.setQueue v).pond i = s.pond i := rfl
@[simp] theorem setSlot_pond (v : Option Nat) (i : Fin 4) : (s.setSlot v).pond i = s.pond i := rfl
@[simp] theorem setRun_pond (c : Fin 32) (v : Option Run) (i : Fin 4) : (s.setRun c v).pond i = s.pond i := rfl
@[simp] theorem setOrder_pond (k : Nat) (v : Option Order) (i : Fin 4) : (s.setOrder k v).pond i = s.pond i := rfl
@[simp] theorem setDemand_pond (p : Fin 24) (v : Demand) (i : Fin 4) : (s.setDemand p v).pond i = s.pond i := rfl
@[simp] theorem setSuspensions_pond (v : Nat) (i : Fin 4) : (s.setSuspensions v).pond i = s.pond i := rfl
@[simp] theorem setAcceptances_pond (v : Nat) (i : Fin 4) : (s.setAcceptances v).pond i = s.pond i := rfl
@[simp] theorem setPass_pond (v : Bool) (i : Fin 4) : (s.setPass v).pond i = s.pond i := rfl
@[simp] theorem setOrders_pond (v : List (Option Order)) (i : Fin 4) : (s.setOrders v).pond i = s.pond i := rfl
@[simp] theorem setPump_pond (v : Pump) (i : Fin 4) : (s.setPump v).pond i = s.pond i := rfl
@[simp] theorem setToday_pond (v : DayRecord) (i : Fin 4) : (s.setToday v).pond i = s.pond i := rfl
@[simp] theorem setPrevious_pond (v : DayRecord) (i : Fin 4) : (s.setPrevious v).pond i = s.pond i := rfl
@[simp] theorem setMonitor_pond (m : Fin 8) (v : Monitor) (i : Fin 4) : (s.setMonitor m v).pond i = s.pond i := rfl
@[simp] theorem setEpisode_pond (k : Nat) (v : Option Episode) (i : Fin 4) : (s.setEpisode k v).pond i = s.pond i := rfl
@[simp] theorem setNotices_pond (v : List Notice) (i : Fin 4) : (s.setNotices v).pond i = s.pond i := rfl
@[simp] theorem setAlerts_pond (v : Alerts) (i : Fin 4) : (s.setAlerts v).pond i = s.pond i := rfl
@[simp] theorem setMode_pond (v : Mode) (w : Option Cause) (i : Fin 4) : (s.setMode v w).pond i = s.pond i := rfl
@[simp] theorem setPins_pond (v : Pins) (i : Fin 4) : (s.setPins v).pond i = s.pond i := rfl
@[simp] theorem setYc_pond (v : Yc) (i : Fin 4) : (s.setYc v).pond i = s.pond i := rfl
@[simp] theorem setWfe_pond (v : Wfe) (i : Fin 4) : (s.setWfe v).pond i = s.pond i := rfl
@[simp] theorem setFt_pond (v : Ft) (i : Fin 4) : (s.setFt v).pond i = s.pond i := rfl
@[simp] theorem setPau_pond (v : Pau) (i : Fin 4) : (s.setPau v).pond i = s.pond i := rfl
@[simp] theorem setSite_pond (v : Site) (i : Fin 4) : (s.setSite v).pond i = s.pond i := rfl
@[simp] theorem setLc_pond (v : Lc) (i : Fin 4) : (s.setLc v).pond i = s.pond i := rfl

@[simp] theorem setMast_monitor (m : Fin 2) (v : Mast) (i : Fin 8) : (s.setMast m v).monitor i = s.monitor i := rfl
@[simp] theorem setPile_monitor (p : Fin 24) (v : Pile) (i : Fin 8) : (s.setPile p v).monitor i = s.monitor i := rfl
@[simp] theorem setCannon_monitor (c : Fin 32) (v : Cannon) (i : Fin 8) : (s.setCannon c v).monitor i = s.monitor i := rfl
@[simp] theorem setMachine_monitor (m : Fin 4) (v : MachineRecord) (i : Fin 8) : (s.setMachine m v).monitor i = s.monitor i := rfl
@[simp] theorem setQueue_monitor (v : List (Fin 32 × Movement)) (i : Fin 8) : (s.setQueue v).monitor i = s.monitor i := rfl
@[simp] theorem setSlot_monitor (v : Option Nat) (i : Fin 8) : (s.setSlot v).monitor i = s.monitor i := rfl
@[simp] theorem setRun_monitor (c : Fin 32) (v : Option Run) (i : Fin 8) : (s.setRun c v).monitor i = s.monitor i := rfl
@[simp] theorem setOrder_monitor (k : Nat) (v : Option Order) (i : Fin 8) : (s.setOrder k v).monitor i = s.monitor i := rfl
@[simp] theorem setDemand_monitor (p : Fin 24) (v : Demand) (i : Fin 8) : (s.setDemand p v).monitor i = s.monitor i := rfl
@[simp] theorem setSuspensions_monitor (v : Nat) (i : Fin 8) : (s.setSuspensions v).monitor i = s.monitor i := rfl
@[simp] theorem setAcceptances_monitor (v : Nat) (i : Fin 8) : (s.setAcceptances v).monitor i = s.monitor i := rfl
@[simp] theorem setPass_monitor (v : Bool) (i : Fin 8) : (s.setPass v).monitor i = s.monitor i := rfl
@[simp] theorem setOrders_monitor (v : List (Option Order)) (i : Fin 8) : (s.setOrders v).monitor i = s.monitor i := rfl
@[simp] theorem setPond_monitor (p : Fin 4) (v : Pond) (i : Fin 8) : (s.setPond p v).monitor i = s.monitor i := rfl
@[simp] theorem setPump_monitor (v : Pump) (i : Fin 8) : (s.setPump v).monitor i = s.monitor i := rfl
@[simp] theorem setToday_monitor (v : DayRecord) (i : Fin 8) : (s.setToday v).monitor i = s.monitor i := rfl
@[simp] theorem setPrevious_monitor (v : DayRecord) (i : Fin 8) : (s.setPrevious v).monitor i = s.monitor i := rfl
@[simp] theorem setEpisode_monitor (k : Nat) (v : Option Episode) (i : Fin 8) : (s.setEpisode k v).monitor i = s.monitor i := rfl
@[simp] theorem setNotices_monitor (v : List Notice) (i : Fin 8) : (s.setNotices v).monitor i = s.monitor i := rfl
@[simp] theorem setAlerts_monitor (v : Alerts) (i : Fin 8) : (s.setAlerts v).monitor i = s.monitor i := rfl
@[simp] theorem setMode_monitor (v : Mode) (w : Option Cause) (i : Fin 8) : (s.setMode v w).monitor i = s.monitor i := rfl
@[simp] theorem setPins_monitor (v : Pins) (i : Fin 8) : (s.setPins v).monitor i = s.monitor i := rfl
@[simp] theorem setYc_monitor (v : Yc) (i : Fin 8) : (s.setYc v).monitor i = s.monitor i := rfl
@[simp] theorem setWfe_monitor (v : Wfe) (i : Fin 8) : (s.setWfe v).monitor i = s.monitor i := rfl
@[simp] theorem setFt_monitor (v : Ft) (i : Fin 8) : (s.setFt v).monitor i = s.monitor i := rfl
@[simp] theorem setPau_monitor (v : Pau) (i : Fin 8) : (s.setPau v).monitor i = s.monitor i := rfl
@[simp] theorem setSite_monitor (v : Site) (i : Fin 8) : (s.setSite v).monitor i = s.monitor i := rfl
@[simp] theorem setLc_monitor (v : Lc) (i : Fin 8) : (s.setLc v).monitor i = s.monitor i := rfl

@[simp] theorem setMast_order (m : Fin 2) (v : Mast) (i : Nat) : (s.setMast m v).order i = s.order i := rfl
@[simp] theorem setPile_order (p : Fin 24) (v : Pile) (i : Nat) : (s.setPile p v).order i = s.order i := rfl
@[simp] theorem setCannon_order (c : Fin 32) (v : Cannon) (i : Nat) : (s.setCannon c v).order i = s.order i := rfl
@[simp] theorem setMachine_order (m : Fin 4) (v : MachineRecord) (i : Nat) : (s.setMachine m v).order i = s.order i := rfl
@[simp] theorem setQueue_order (v : List (Fin 32 × Movement)) (i : Nat) : (s.setQueue v).order i = s.order i := rfl
@[simp] theorem setSlot_order (v : Option Nat) (i : Nat) : (s.setSlot v).order i = s.order i := rfl
@[simp] theorem setRun_order (c : Fin 32) (v : Option Run) (i : Nat) : (s.setRun c v).order i = s.order i := rfl
@[simp] theorem setDemand_order (p : Fin 24) (v : Demand) (i : Nat) : (s.setDemand p v).order i = s.order i := rfl
@[simp] theorem setSuspensions_order (v : Nat) (i : Nat) : (s.setSuspensions v).order i = s.order i := rfl
@[simp] theorem setAcceptances_order (v : Nat) (i : Nat) : (s.setAcceptances v).order i = s.order i := rfl
@[simp] theorem setPass_order (v : Bool) (i : Nat) : (s.setPass v).order i = s.order i := rfl
@[simp] theorem setOrders_order (v : List (Option Order)) (i : Nat) : (s.setOrders v).order i = (v[i]?).join := rfl
@[simp] theorem setPond_order (p : Fin 4) (v : Pond) (i : Nat) : (s.setPond p v).order i = s.order i := rfl
@[simp] theorem setPump_order (v : Pump) (i : Nat) : (s.setPump v).order i = s.order i := rfl
@[simp] theorem setToday_order (v : DayRecord) (i : Nat) : (s.setToday v).order i = s.order i := rfl
@[simp] theorem setPrevious_order (v : DayRecord) (i : Nat) : (s.setPrevious v).order i = s.order i := rfl
@[simp] theorem setMonitor_order (m : Fin 8) (v : Monitor) (i : Nat) : (s.setMonitor m v).order i = s.order i := rfl
@[simp] theorem setEpisode_order (k : Nat) (v : Option Episode) (i : Nat) : (s.setEpisode k v).order i = s.order i := rfl
@[simp] theorem setNotices_order (v : List Notice) (i : Nat) : (s.setNotices v).order i = s.order i := rfl
@[simp] theorem setAlerts_order (v : Alerts) (i : Nat) : (s.setAlerts v).order i = s.order i := rfl
@[simp] theorem setMode_order (v : Mode) (w : Option Cause) (i : Nat) : (s.setMode v w).order i = s.order i := rfl
@[simp] theorem setPins_order (v : Pins) (i : Nat) : (s.setPins v).order i = s.order i := rfl
@[simp] theorem setYc_order (v : Yc) (i : Nat) : (s.setYc v).order i = s.order i := rfl
@[simp] theorem setWfe_order (v : Wfe) (i : Nat) : (s.setWfe v).order i = s.order i := rfl
@[simp] theorem setFt_order (v : Ft) (i : Nat) : (s.setFt v).order i = s.order i := rfl
@[simp] theorem setPau_order (v : Pau) (i : Nat) : (s.setPau v).order i = s.order i := rfl
@[simp] theorem setSite_order (v : Site) (i : Nat) : (s.setSite v).order i = s.order i := rfl
@[simp] theorem setLc_order (v : Lc) (i : Nat) : (s.setLc v).order i = s.order i := rfl

@[simp] theorem setMast_episode (m : Fin 2) (v : Mast) (i : Nat) : (s.setMast m v).episode i = s.episode i := rfl
@[simp] theorem setPile_episode (p : Fin 24) (v : Pile) (i : Nat) : (s.setPile p v).episode i = s.episode i := rfl
@[simp] theorem setCannon_episode (c : Fin 32) (v : Cannon) (i : Nat) : (s.setCannon c v).episode i = s.episode i := rfl
@[simp] theorem setMachine_episode (m : Fin 4) (v : MachineRecord) (i : Nat) : (s.setMachine m v).episode i = s.episode i := rfl
@[simp] theorem setQueue_episode (v : List (Fin 32 × Movement)) (i : Nat) : (s.setQueue v).episode i = s.episode i := rfl
@[simp] theorem setSlot_episode (v : Option Nat) (i : Nat) : (s.setSlot v).episode i = s.episode i := rfl
@[simp] theorem setRun_episode (c : Fin 32) (v : Option Run) (i : Nat) : (s.setRun c v).episode i = s.episode i := rfl
@[simp] theorem setOrder_episode (k : Nat) (v : Option Order) (i : Nat) : (s.setOrder k v).episode i = s.episode i := rfl
@[simp] theorem setDemand_episode (p : Fin 24) (v : Demand) (i : Nat) : (s.setDemand p v).episode i = s.episode i := rfl
@[simp] theorem setSuspensions_episode (v : Nat) (i : Nat) : (s.setSuspensions v).episode i = s.episode i := rfl
@[simp] theorem setAcceptances_episode (v : Nat) (i : Nat) : (s.setAcceptances v).episode i = s.episode i := rfl
@[simp] theorem setPass_episode (v : Bool) (i : Nat) : (s.setPass v).episode i = s.episode i := rfl
@[simp] theorem setOrders_episode (v : List (Option Order)) (i : Nat) : (s.setOrders v).episode i = s.episode i := rfl
@[simp] theorem setPond_episode (p : Fin 4) (v : Pond) (i : Nat) : (s.setPond p v).episode i = s.episode i := rfl
@[simp] theorem setPump_episode (v : Pump) (i : Nat) : (s.setPump v).episode i = s.episode i := rfl
@[simp] theorem setToday_episode (v : DayRecord) (i : Nat) : (s.setToday v).episode i = s.episode i := rfl
@[simp] theorem setPrevious_episode (v : DayRecord) (i : Nat) : (s.setPrevious v).episode i = s.episode i := rfl
@[simp] theorem setMonitor_episode (m : Fin 8) (v : Monitor) (i : Nat) : (s.setMonitor m v).episode i = s.episode i := rfl
@[simp] theorem setNotices_episode (v : List Notice) (i : Nat) : (s.setNotices v).episode i = s.episode i := rfl
@[simp] theorem setAlerts_episode (v : Alerts) (i : Nat) : (s.setAlerts v).episode i = s.episode i := rfl
@[simp] theorem setMode_episode (v : Mode) (w : Option Cause) (i : Nat) : (s.setMode v w).episode i = s.episode i := rfl
@[simp] theorem setPins_episode (v : Pins) (i : Nat) : (s.setPins v).episode i = s.episode i := rfl
@[simp] theorem setYc_episode (v : Yc) (i : Nat) : (s.setYc v).episode i = s.episode i := rfl
@[simp] theorem setWfe_episode (v : Wfe) (i : Nat) : (s.setWfe v).episode i = s.episode i := rfl
@[simp] theorem setFt_episode (v : Ft) (i : Nat) : (s.setFt v).episode i = s.episode i := rfl
@[simp] theorem setPau_episode (v : Pau) (i : Nat) : (s.setPau v).episode i = s.episode i := rfl
@[simp] theorem setSite_episode (v : Site) (i : Nat) : (s.setSite v).episode i = s.episode i := rfl
@[simp] theorem setLc_episode (v : Lc) (i : Nat) : (s.setLc v).episode i = s.episode i := rfl


/-! ## A record read after it is written -/

theorem setMast_mast (m i : Fin 2) (v : Mast) : (s.setMast m v).mast i = if i = m then v else s.mast i :=
  Table.get_set _ _ _ _

theorem setPile_pile (m i : Fin 24) (v : Pile) : (s.setPile m v).pile i = if i = m then v else s.pile i :=
  Table.get_set _ _ _ _

theorem setCannon_cannon (m i : Fin 32) (v : Cannon) :
    (s.setCannon m v).cannon i = if i = m then v else s.cannon i := Table.get_set _ _ _ _

theorem setMachine_machine (m i : Fin 4) (v : MachineRecord) :
    (s.setMachine m v).machine i = if i = m then v else s.machine i := Table.get_set _ _ _ _

theorem setRun_run (m i : Fin 32) (v : Option Run) :
    (s.setRun m v).run i = if i = m then v else s.run i := Table.get_set _ _ _ _

theorem setDemand_demand (m i : Fin 24) (v : Demand) :
    (s.setDemand m v).demand i = if i = m then v else s.demand i := Table.get_set _ _ _ _

theorem setPond_pond (m i : Fin 4) (v : Pond) :
    (s.setPond m v).pond i = if i = m then v else s.pond i := Table.get_set _ _ _ _

theorem setMonitor_monitor (m i : Fin 8) (v : Monitor) :
    (s.setMonitor m v).monitor i = if i = m then v else s.monitor i := Table.get_set _ _ _ _

@[simp] theorem setMast_mast_same (m : Fin 2) (v : Mast) : (s.setMast m v).mast m = v :=
  Table.get_set_same _ _ _

@[simp] theorem setPile_pile_same (m : Fin 24) (v : Pile) : (s.setPile m v).pile m = v :=
  Table.get_set_same _ _ _

@[simp] theorem setCannon_cannon_same (m : Fin 32) (v : Cannon) : (s.setCannon m v).cannon m = v :=
  Table.get_set_same _ _ _

@[simp] theorem setMachine_machine_same (m : Fin 4) (v : MachineRecord) :
    (s.setMachine m v).machine m = v := Table.get_set_same _ _ _

@[simp] theorem setRun_run_same (m : Fin 32) (v : Option Run) : (s.setRun m v).run m = v :=
  Table.get_set_same _ _ _

@[simp] theorem setDemand_demand_same (m : Fin 24) (v : Demand) : (s.setDemand m v).demand m = v :=
  Table.get_set_same _ _ _

@[simp] theorem setPond_pond_same (m : Fin 4) (v : Pond) : (s.setPond m v).pond m = v :=
  Table.get_set_same _ _ _

@[simp] theorem setMonitor_monitor_same (m : Fin 8) (v : Monitor) : (s.setMonitor m v).monitor m = v :=
  Table.get_set_same _ _ _

/-- An order slot that exists reads as written; one that does not reads free. -/
theorem setOrder_order (k i : Nat) (v : Option Order) :
    (s.setOrder k v).order i =
      if i = k then (if k < s.sd.orders.length then v else none) else s.order i := by
  by_cases h : i = k
  · subst h
    by_cases l : i < s.sd.orders.length <;> simp [State.order, State.setOrder, l]
  · have h' : ¬ k = i := fun e => h e.symm
    simp [State.order, State.setOrder, h, h']

/-- An episode slot that exists reads as written; one that does not reads free. -/
theorem setEpisode_episode (k i : Nat) (v : Option Episode) :
    (s.setEpisode k v).episode i =
      if i = k then (if k < s.bwu.episodes.length then v else none) else s.episode i := by
  by_cases h : i = k
  · subst h
    by_cases l : i < s.bwu.episodes.length <;> simp [State.episode, State.setEpisode, l]
  · have h' : ¬ k = i := fun e => h e.symm
    simp [State.episode, State.setEpisode, h, h']

/-- An entry of the alert table reads as written; every other entry stays. -/
theorem alerts_get_set (t : Alerts) (a : Alert) (e f : AlertId) :
    (t.set a e).get f = if f = e then a else t.get f := by
  cases e <;> cases f <;> simp [Alerts.get, Alerts.set, Table.get_set]

end Sys2Proof.Machine
end

