-- ==== Sys2Proof/Laws/Notices.lean ====
section
/-! SUPPORT. All that posting a notice and writing an alert condition can do (R160, R172). -/

namespace Sys2Proof.Machine

/-- The list after an event that only posts: what was pending keeps its place, nothing enters twice. -/
structure Posts (s t : State) : Prop where
  keeps : s.lc.notices <+: t.lc.notices
  nodup : s.lc.notices.Nodup → t.lc.notices.Nodup

theorem Posts.refl (s : State) : Posts s s := ⟨List.prefix_refl _, id⟩

theorem Posts.trans {s t u : State} (h : Posts s t) (k : Posts t u) : Posts s u :=
  ⟨h.keeps.trans k.keeps, fun x => k.nodup (h.nodup x)⟩

theorem Posts.of_eq {s t : State} (h : t.lc.notices = s.lc.notices) : Posts s t :=
  ⟨by rw [h], fun x => by rw [h]; exact x⟩

/-- A posting leaves the list as it is, or adds the pair at its tail (R172). -/
theorem post_cases (n : Notice) (s : State) :
    (n ∈ s.lc.notices ∧ post n s = s) ∨
    (n ∉ s.lc.notices ∧ post n s = s.setNotices (s.lc.notices ++ [n])) := by
  unfold post
  by_cases h : n ∈ s.lc.notices <;> simp [h]

/-- A posting writes the notice list and nothing else. -/
theorem post_eq (n : Notice) (s : State) : post n s = s.setNotices (post n s).lc.notices := by
  rcases post_cases n s with ⟨_, h⟩ | ⟨_, h⟩ <;> rw [h] <;> rfl

theorem post_posts (n : Notice) (s : State) : Posts s (post n s) := by
  rcases post_cases n s with ⟨_, h⟩ | ⟨hn, h⟩
  · rw [h]; exact Posts.refl s
  · rw [h]
    refine ⟨by simp, fun x => ?_⟩
    simpa [List.nodup_append, x] using fun a ha (e : a = n) => hn (e ▸ ha)

theorem mem_post (n m : Notice) (s : State) :
    m ∈ (post n s).lc.notices ↔ m = n ∨ m ∈ s.lc.notices := by
  rcases post_cases n s with ⟨hn, h⟩ | ⟨_, h⟩
  · rw [h]; exact ⟨.inr, fun x => x.elim (fun e => e ▸ hn) id⟩
  · rw [h]; simp [or_comm]

/-- Writing a condition touches the entry named and the notice list, and nothing else. -/
theorem syncAlert_eq (e : AlertId) (s : State) :
    syncAlert e s =
      (s.setAlerts (s.mau.alerts.set ((s.mau.alerts.get e).after (conditionOf s e) (now s)) e)).setNotices
        (syncAlert e s).lc.notices := by
  by_cases h : (conditionOf s e && !(s.mau.alerts.get e).condition) = true
  · simp only [syncAlert, h, if_true]
    rw [post_eq]
    rfl
  · simp only [syncAlert, h]
    rfl

theorem syncAlert_posts (e : AlertId) (s : State) : Posts s (syncAlert e s) := by
  unfold syncAlert
  simp only
  split
  · refine Posts.trans ?_ (post_posts (.alert e) _)
    exact Posts.of_eq rfl
  · exact Posts.of_eq rfl

/-- The condition written is the owner's (R160). -/
theorem syncAlert_condition (e : AlertId) (s : State) :
    ((syncAlert e s).mau.alerts.get e).condition = conditionOf s e := by
  rw [syncAlert_eq]
  simp only [setNotices_mau, setAlerts_mau, alerts_get_set, if_true]
  unfold Alert.after
  split
  · rename_i h; simp only [Bool.and_eq_true] at h; simp [h.1]
  · rfl

/-- Only ACK_ALERT and the restarts clear a latch (R160, R161). -/
theorem syncAlert_latch (e f : AlertId) (s : State) (h : (s.mau.alerts.get f).latch = true) :
    ((syncAlert e s).mau.alerts.get f).latch = true := by
  rw [syncAlert_eq]
  simp only [setNotices_mau, setAlerts_mau, alerts_get_set]
  split
  · subst f
    unfold Alert.after
    split <;> simp [h]
  · exact h

/-- The entries after a condition is written: the one named follows its owner, every other stands (R160). -/
theorem syncAlert_get (e f : AlertId) (s : State) :
    (syncAlert e s).mau.alerts.get f =
      if f = e then (s.mau.alerts.get e).after (conditionOf s e) (now s) else s.mau.alerts.get f := by
  rw [syncAlert_eq]
  simp only [setNotices_mau, setAlerts_mau, alerts_get_set]

/-- All that a written condition does to its entry: a rise latches it, keeping an older first-latch time;
nothing else touches latch or time (R160). -/
theorem Alert.after_cases (a : Alert) (c : Bool) (time : Option Nat) :
    (a.after c time).condition = c ∧
    ((c = true ∧ a.condition = false ∧ (a.after c time).latch = true ∧
        (a.after c time).firstLatch = if a.latch then a.firstLatch else time) ∨
      ((c = false ∨ a.condition = true) ∧ (a.after c time).latch = a.latch ∧
        (a.after c time).firstLatch = a.firstLatch)) := by
  obtain ⟨x, l, n⟩ := a
  cases c <;> cases x <;> simp [Alert.after]

/-- A latch that is set stays set with its first-latch time through every written condition (R160). -/
theorem syncAlert_firstLatch (e f : AlertId) (s : State) (h : (s.mau.alerts.get f).latch = true) :
    ((syncAlert e s).mau.alerts.get f).firstLatch = (s.mau.alerts.get f).firstLatch := by
  rw [syncAlert_get]
  by_cases k : f = e
  · subst k
    rw [if_pos rfl]
    rcases (Alert.after_cases (s.mau.alerts.get f) (conditionOf s f) (now s)).2 with ⟨-, -, -, x⟩ | ⟨-, -, x⟩
    · rw [x, if_pos h]
    · exact x
  · rw [if_neg k]

end Sys2Proof.Machine
end

