-- ==== Sys2Proof/Laws/PerInstr.lean ====
section
/-! SUPPORT. What holds of every command as syntax, constructor by constructor: a well-formed request has
a kind and a frame tag of one byte each and a body that a frame can carry (R168, R179). -/

namespace Sys2Proof.Laws

@[simp] theorem length_le (k n : Nat) : (le k n).length = k := by
  induction k generalizing n with
  | zero => rfl
  | succ k ih => simp [le, ih]

@[simp] theorem length_flatMap_le (ns : List Nat) : (ns.flatMap (le 1)).length = ns.length := by
  simp [List.length_flatMap]

@[simp] theorem length_slotBytes (f : SlotFields) : f.bytes.length = 10 := by
  simp [SlotFields.bytes]

@[simp] theorem length_flatMap_slots (fs : List SlotFields) :
    (fs.flatMap SlotFields.bytes).length = 10 * fs.length := by
  induction fs with
  | nil => rfl
  | cons f fs ih => simp only [List.flatMap_cons, List.length_append, length_slotBytes, ih,
      List.length_cons]; omega

theorem length_pileBytes (f : PileFields) (h : f.exposure.length = 16) : f.bytes.length = 27 := by
  simp [PileFields.bytes, h]

@[simp] theorem length_cannonBytes (f : CannonFields) : f.bytes.length = 12 := by
  simp [CannonFields.bytes]

@[simp] theorem length_pondBytes (f : PondFields) : f.bytes.length = 27 := by
  simp [PondFields.bytes]

@[simp] theorem length_monitorBytes (f : MonitorFields) : f.bytes.length = 5 := by
  simp [MonitorFields.bytes]

@[simp] theorem length_siteBytes (f : SiteFields) : f.bytes.length = 57 := by
  unfold SiteFields.bytes
  simp only [List.length_append, length_le]

namespace Encoding

/-- A well-formed request fits a frame: one byte of kind, one of tag, and a body of at most 512. -/
def Statement (i : Instr) : Prop :=
  ∀ r, i.WellFormed → encodeRequest i = some r →
    r.kind < 256 ∧ r.frameTag < 256 ∧ r.body.length ≤ 512

theorem powerOnReset (rate1 rate0 : Bool) : Statement (.powerOnReset rate1 rate0) :=
  fun _ _ h => nomatch h

theorem pulseEdge (mast : Fin 2) : Statement (.pulseEdge mast) :=
  fun _ _ h => nomatch h

theorem gateExpiry (vane0 vane1 : BitVec 4) : Statement (.gateExpiry vane0 vane1) :=
  fun _ _ h => nomatch h

theorem rainTip : Statement .rainTip :=
  fun _ _ h => nomatch h

theorem bounceExpiry : Statement .bounceExpiry :=
  fun _ _ h => nomatch h

theorem secondEvent : Statement .secondEvent :=
  fun _ _ h => nomatch h

theorem assessment : Statement .assessment :=
  fun _ _ h => nomatch h

theorem primingExpiry : Statement .primingExpiry :=
  fun _ _ h => nomatch h

theorem rundownExpiry : Statement .rundownExpiry :=
  fun _ _ h => nomatch h

theorem changeoverExpiry : Statement .changeoverExpiry :=
  fun _ _ h => nomatch h

theorem settleExpiry (pond : Fin 4) : Statement (.settleExpiry pond) :=
  fun _ _ h => nomatch h

theorem deliverySecond (cannon : Fin 32) : Statement (.deliverySecond cannon) :=
  fun _ _ h => nomatch h

theorem lostWaterExpiry (cannon : Fin 32) : Statement (.lostWaterExpiry cannon) :=
  fun _ _ h => nomatch h

theorem slotExpiry : Statement .slotExpiry :=
  fun _ _ h => nomatch h

theorem feedbackChange (cannon : Fin 32) (isOpen : Bool) : Statement (.feedbackChange cannon isOpen) :=
  fun _ _ h => nomatch h

theorem travelExpiry (cannon : Fin 32) : Statement (.travelExpiry cannon) :=
  fun _ _ h => nomatch h

theorem machineStaleExpiry (machine : Fin 4) : Statement (.machineStaleExpiry machine) :=
  fun _ _ h => nomatch h

theorem resumeExpiry (cannon : Fin 32) : Statement (.resumeExpiry cannon) :=
  fun _ _ h => nomatch h

theorem orderExpiry (slot : Nat) : Statement (.orderExpiry slot) :=
  fun _ _ h => nomatch h

theorem holdExpiry (slot : Nat) : Statement (.holdExpiry slot) :=
  fun _ _ h => nomatch h

theorem monitorStaleExpiry (monitor : Fin 8) : Statement (.monitorStaleExpiry monitor) :=
  fun _ _ h => nomatch h

theorem stopLineChange (asserted : Bool) : Statement (.stopLineChange asserted) :=
  fun _ _ h => nomatch h

theorem receiveCharacter (char : Byte) (framingError : Bool) : Statement (.receiveCharacter char framingError) :=
  fun _ _ h => nomatch h

theorem gapExpiry : Statement .gapExpiry :=
  fun _ _ h => nomatch h

theorem replyStart : Statement .replyStart :=
  fun _ _ h => nomatch h

theorem replySent : Statement .replySent :=
  fun _ _ h => nomatch h

theorem unknownKind (kind frameTag : Nat) : Statement (.unknownKind kind frameTag) := by
  rintro _ h ⟨⟩
  exact ⟨h.1, h.2.2, Nat.zero_le _⟩

theorem ident (frameTag : Nat) : Statement (.ident frameTag) := by
  rintro _ h ⟨⟩
  exact ⟨by simp, h, Nat.zero_le _⟩

theorem siteSetup (frameTag : Nat) (site : SiteFields) : Statement (.siteSetup frameTag site) := by
  rintro _ h ⟨⟩
  exact ⟨by simp, h.1, by simp⟩

theorem poolSplit (frameTag forecast episodes orders : Nat) : Statement (.poolSplit frameTag forecast episodes orders) := by
  rintro _ h ⟨⟩
  exact ⟨by simp, h.1, by simp⟩

theorem pileSetup (frameTag pile action : Nat) (fields : PileFields) : Statement (.pileSetup frameTag pile action fields) := by
  rintro _ h ⟨⟩
  exact ⟨by simp, h.1, by simp [length_pileBytes _ h.2.2.2.2.2.2.2.2.2.1]⟩

theorem cannonSetup (frameTag cannon action : Nat) (fields : CannonFields) : Statement (.cannonSetup frameTag cannon action fields) := by
  rintro _ h ⟨⟩
  exact ⟨by simp, h.1, by simp⟩

theorem pondSetup (frameTag pond action : Nat) (fields : PondFields) : Statement (.pondSetup frameTag pond action fields) := by
  rintro _ h ⟨⟩
  exact ⟨by simp, h.1, by simp⟩

theorem monitorSetup (frameTag monitor action : Nat) (fields : MonitorFields) : Statement (.monitorSetup frameTag monitor action fields) := by
  rintro _ h ⟨⟩
  exact ⟨by simp, h.1, by simp⟩

theorem attrib (frameTag monitor sector count : Nat) (piles : List Nat) : Statement (.attrib frameTag monitor sector count piles) := by
  rintro _ h ⟨⟩
  exact ⟨by simp, h.1, by simp; omega⟩

theorem mode (frameTag target : Nat) : Statement (.mode frameTag target) := by
  rintro _ h ⟨⟩
  exact ⟨by simp, h.1, by simp⟩

theorem warmRestart (frameTag : Nat) : Statement (.warmRestart frameTag) := by
  rintro _ h ⟨⟩
  exact ⟨by simp, h, Nat.zero_le _⟩

theorem setTime (frameTag time : Nat) : Statement (.setTime frameTag time) := by
  rintro _ h ⟨⟩
  exact ⟨by simp, h.1, by simp⟩

theorem forecast (frameTag issue issueTime count : Nat) (slots : List SlotFields) : Statement (.forecast frameTag issue issueTime count slots) := by
  rintro _ h ⟨⟩
  exact ⟨by simp, h.1, by simp; omega⟩

theorem reading (frameTag monitor value : Nat) : Statement (.reading frameTag monitor value) := by
  rintro _ h ⟨⟩
  exact ⟨by simp, h.1, by simp⟩

theorem pondReport (frameTag pond level quality service : Nat) : Statement (.pondReport frameTag pond level quality service) := by
  rintro _ h ⟨⟩
  exact ⟨by simp, h.1, by simp⟩

theorem machinePos (frameTag machine rail chainage : Nat) : Statement (.machinePos frameTag machine rail chainage) := by
  rintro _ h ⟨⟩
  exact ⟨by simp, h.1, by simp⟩

theorem mastService (frameTag mast action : Nat) : Statement (.mastService frameTag mast action) := by
  rintro _ h ⟨⟩
  exact ⟨by simp, h.1, by simp⟩

theorem orderWet (frameTag orderTag pile volume expiry : Nat) : Statement (.orderWet frameTag orderTag pile volume expiry) := by
  rintro _ h ⟨⟩
  exact ⟨by simp, h.1, by simp⟩

theorem orderHold (frameTag orderTag pile duration : Nat) : Statement (.orderHold frameTag orderTag pile duration) := by
  rintro _ h ⟨⟩
  exact ⟨by simp, h.1, by simp⟩

theorem orderCancel (frameTag orderTag : Nat) : Statement (.orderCancel frameTag orderTag) := by
  rintro _ h ⟨⟩
  exact ⟨by simp, h.1, by simp⟩

theorem cannonService (frameTag cannon action : Nat) : Statement (.cannonService frameTag cannon action) := by
  rintro _ h ⟨⟩
  exact ⟨by simp, h.1, by simp⟩

theorem ackAlert (frameTag kind object : Nat) : Statement (.ackAlert frameTag kind object) := by
  rintro _ h ⟨⟩
  exact ⟨by simp, h.1, by simp⟩

theorem poll (frameTag max : Nat) : Statement (.poll frameTag max) := by
  rintro _ h ⟨⟩
  exact ⟨by simp, h.1, by simp⟩

theorem pileStatus (frameTag pile : Nat) : Statement (.pileStatus frameTag pile) := by
  rintro _ h ⟨⟩
  exact ⟨by simp, h.1, by simp⟩

theorem cannonStatus (frameTag cannon : Nat) : Statement (.cannonStatus frameTag cannon) := by
  rintro _ h ⟨⟩
  exact ⟨by simp, h.1, by simp⟩

theorem waterStatus (frameTag : Nat) : Statement (.waterStatus frameTag) := by
  rintro _ h ⟨⟩
  exact ⟨by simp, h, Nat.zero_le _⟩

theorem windStatus (frameTag : Nat) : Statement (.windStatus frameTag) := by
  rintro _ h ⟨⟩
  exact ⟨by simp, h, Nat.zero_le _⟩

theorem episodeRead (frameTag slot : Nat) : Statement (.episodeRead frameTag slot) := by
  rintro _ h ⟨⟩
  exact ⟨by simp, h.1, by simp⟩

theorem dayTotals (frameTag : Nat) : Statement (.dayTotals frameTag) := by
  rintro _ h ⟨⟩
  exact ⟨by simp, h, Nat.zero_le _⟩

theorem orderStatus (frameTag slot : Nat) : Statement (.orderStatus frameTag slot) := by
  rintro _ h ⟨⟩
  exact ⟨by simp, h.1, by simp⟩

end Encoding

end Sys2Proof.Laws
end

