-- ==== Sys2Proof/Laws/Spray.lean ====
section
/-! SUPPORT. All that the runs, the valves, the pump set and the grant pass can touch: one lemma per
operation, each saying that what it leaves behind differs from what it found in the cannons' movements,
the runs and orders, the pump set, the hold flags, the VALVE and other conditions and the notices, and in
nothing else. -/

namespace Sys2Proof.Machine

/-- What no operation of the dispatcher, the valves and the pump set changes. -/
structure Within (s t : State) : Prop where
  pins : t.pins = s.pins
  yc : t.yc = s.yc
  wfe : t.wfe = s.wfe
  ft : t.ft = s.ft
  bwu : t.bwu = s.bwu
  site : t.site = s.site
  freeCount : t.freeCount = s.freeCount
  pending : t.pending = s.pending
  lc : t.lc = { s.lc with notices := t.lc.notices }
  mau : t.mau = { s.mau with alerts := t.mau.alerts }
  machines : t.cc.machines = s.cc.machines
  ponds : t.wiu.ponds = s.wiu.ponds
  today : t.wiu.today = s.wiu.today
  previous : t.wiu.previous = s.wiu.previous
  assessment : t.pau.countdown = s.pau.countdown
  pile : ∀ p, t.pile p = { s.pile p with hold := (t.pile p).hold }
  cannon : ∀ c, t.cannon c = { s.cannon c with
    phase := (t.cannon c).phase, travel := (t.cannon c).travel, lostWater := (t.cannon c).lostWater }
  slots : t.sd.orders.length = s.sd.orders.length
  tier : ∀ p, (t.demand p).tier = (s.demand p).tier
  acceptances : t.sd.acceptances = s.sd.acceptances
  posts : Posts s t

theorem Within.refl (s : State) : Within s s where
  pins := rfl
  yc := rfl
  wfe := rfl
  ft := rfl
  bwu := rfl
  site := rfl
  freeCount := rfl
  pending := rfl
  lc := rfl
  mau := rfl
  machines := rfl
  ponds := rfl
  today := rfl
  previous := rfl
  assessment := rfl
  pile _ := rfl
  cannon _ := rfl
  slots := rfl
  tier _ := rfl
  acceptances := rfl
  posts := .refl s

theorem Within.trans {s t u : State} (h : Within s t) (k : Within t u) : Within s u where
  pins := k.pins.trans h.pins
  yc := k.yc.trans h.yc
  wfe := k.wfe.trans h.wfe
  ft := k.ft.trans h.ft
  bwu := k.bwu.trans h.bwu
  site := k.site.trans h.site
  freeCount := k.freeCount.trans h.freeCount
  pending := k.pending.trans h.pending
  lc := by rw [k.lc, h.lc]
  mau := by rw [k.mau, h.mau]
  machines := k.machines.trans h.machines
  ponds := k.ponds.trans h.ponds
  today := k.today.trans h.today
  previous := k.previous.trans h.previous
  assessment := k.assessment.trans h.assessment
  pile p := by rw [k.pile, h.pile]
  cannon c := by rw [k.cannon, h.cannon]
  slots := k.slots.trans h.slots
  tier p := (k.tier p).trans (h.tier p)
  acceptances := k.acceptances.trans h.acceptances
  posts := h.posts.trans k.posts

variable (s : State)

/-! ## Writing one record -/

theorem within_setRun (c : Fin 32) (r : Option Run) : Within s (s.setRun c r) :=
  { Within.refl s with posts := .of_eq rfl }

theorem within_setOrder (k : Nat) (o : Option Order) : Within s (s.setOrder k o) :=
  { Within.refl s with posts := .of_eq rfl, slots := by simp }

theorem within_setSuspensions (n : Nat) : Within s (s.setSuspensions n) :=
  { Within.refl s with posts := .of_eq rfl }

theorem within_setPass (b : Bool) : Within s (s.setPass b) :=
  { Within.refl s with posts := .of_eq rfl }

theorem within_setPump (v : Pump) : Within s (s.setPump v) :=
  { Within.refl s with posts := .of_eq rfl }

theorem within_setQueue (q : List (Fin 32 × Movement)) : Within s (s.setQueue q) :=
  { Within.refl s with posts := .of_eq rfl }

theorem within_setSlot (t : Option Nat) : Within s (s.setSlot t) :=
  { Within.refl s with posts := .of_eq rfl }

theorem within_setVolume (p : Fin 24) (v : Nat) :
    Within s (s.setDemand p { s.demand p with volume := v }) :=
  { Within.refl s with
    posts := .of_eq rfl
    tier := fun q => by rw [setDemand_demand]; split <;> simp_all }

theorem within_setHold (p : Fin 24) (b : Bool) :
    Within s (s.setPile p { s.pile p with hold := b }) :=
  { Within.refl s with
    posts := .of_eq rfl
    pile := fun q => by rw [setPile_pile]; split <;> simp_all }

theorem within_setPhase (c : Fin 32) (phase : CannonPhase) (travel lost : Option Nat) :
    Within s (s.setCannon c { s.cannon c with phase := phase, travel := travel, lostWater := lost }) :=
  { Within.refl s with
    posts := .of_eq rfl
    cannon := fun d => by rw [setCannon_cannon]; split <;> simp_all }

theorem within_setNotices (ns : List Notice) (h : Posts s (s.setNotices ns)) :
    Within s (s.setNotices ns) := { Within.refl s with posts := h, lc := rfl }

theorem within_setAlerts (a : Alerts) : Within s (s.setAlerts a) :=
  { Within.refl s with posts := .of_eq rfl, mau := rfl }

theorem within_post (n : Notice) : Within s (post n s) := by
  have h := post_posts n s
  rw [post_eq] at h ⊢
  exact within_setNotices s _ h

theorem within_syncAlert (e : AlertId) : Within s (syncAlert e s) := by
  unfold syncAlert
  simp only
  split
  · exact (within_setAlerts s _).trans (within_post _ _)
  · exact within_setAlerts s _

theorem within_syncAlerts (es : List AlertId) : Within s (syncAlerts es s) := by
  induction es generalizing s with
  | nil => exact .refl s
  | cons e es ih => exact (within_syncAlert s e).trans (ih _)

/-! ## Runs -/

theorem within_updateRun (c : Fin 32) (f : Run → Run) : Within s (updateRun c f s) := by
  unfold updateRun
  split
  · exact within_setRun s c _
  · exact .refl s

theorem within_setDisposition (c : Fin 32) (d : Disposition) : Within s (setDisposition c d s) :=
  within_updateRun s c _

theorem within_startDelivery (c : Fin 32) : Within s (startDelivery c s) := within_updateRun s c _

theorem within_stopDelivery (c : Fin 32) : Within s (stopDelivery c s) := within_updateRun s c _

theorem within_markPass : Within s (markPass s) := within_setPass s true

theorem within_recomputeHold (p : Fin 24) : Within s (recomputeHold p s) := within_setHold s p _

theorem within_announceClosure (k : Nat) (o : Order) : Within s (announceClosure k o s) := by
  unfold announceClosure
  simp only
  split
  · exact (within_recomputeHold s o.pile).trans (within_post _ _)
  · exact within_post s _

theorem within_writeClosure (k : Nat) (o : Order) (x : OrderOutcome) :
    Within s (writeClosure k o x s) := within_setOrder s k _

theorem within_completeIfDone (k : Nat) : Within s (completeIfDone k s) := by
  unfold completeIfDone
  split
  · split
    · exact (within_writeClosure s k _ _).trans (within_announceClosure _ k _)
    · exact .refl s
  · exact .refl s

theorem within_endRun (c : Fin 32) : Within s (endRun c s) := by
  unfold endRun
  split
  · exact .refl s
  · have h := (within_setRun s c none).trans (within_markPass _)
    simp only
    split
    · exact h.trans (within_completeIfDone _ _)
    · exact h
    · exact h

theorem within_suspendRun (c : Fin 32) (x : SuspendCause) : Within s (suspendRun c x s) := by
  unfold suspendRun
  have h := (within_setSuspensions s (Config.count48 (s.sd.suspensions + 1))).trans
    (within_updateRun _ c (fun r => { r with
      phase := .suspended x (Config.count48 (s.sd.suspensions + 1)) (Config.seconds s.site.resumeWindow) }))
  simp only
  split
  · exact h.trans (within_endRun _ c)
  · exact h

theorem within_applyDisposition (c : Fin 32) : Within s (applyDisposition c s) := by
  unfold applyDisposition
  split
  · exact .refl s
  · split
    · exact within_suspendRun s c _
    · exact within_endRun s c
    · exact within_endRun s c
    · exact .refl s

/-! ## The pump set -/

theorem within_pumpTo (x : PumpPhase) (y : Option Source) (t : Option Nat) :
    Within s (pumpTo x y t s) := (within_setPump s _).trans (within_post _ _)

theorem within_pumpOff : Within s (pumpOff s) := within_pumpTo s _ _ _

theorem within_startRequest : Within s (startRequest s) := by
  unfold startRequest
  split
  · split
    · exact within_pumpTo s _ _ _
    · exact .refl s
  · exact .refl s

theorem within_enterRundown : Within s (enterRundown s) := by
  unfold enterRundown
  split
  · split
    · exact within_pumpOff s
    · exact within_pumpTo s _ _ _
  · exact within_pumpOff s

theorem within_headerIdle : Within s (headerIdle s) := by
  unfold headerIdle
  split
  · exact within_enterRundown s
  · exact .refl s

theorem within_grantReport : Within s (grantReport s) := by
  unfold grantReport
  split
  · exact within_pumpTo s _ _ _
  · exact .refl s

/-! ## Valves -/

theorem within_enterPhase (c : Fin 32) (x : CannonPhase) (t l : Option Nat) :
    Within s (enterPhase c x t l s) := (within_setPhase s c x t l).trans (within_syncAlert _ _)

theorem within_removeEntry (c : Fin 32) : Within s (removeEntry c s) := within_setQueue s _

theorem within_releaseIdle (c : Fin 32) : Within s (releaseIdle c s) :=
  ((within_applyDisposition s c).trans (within_headerIdle _)).trans (within_markPass _)

theorem within_returnToIdle (c : Fin 32) : Within s (returnToIdle c s) :=
  (within_enterPhase s c _ _ _).trans (within_releaseIdle _ c)

theorem within_withdrawOpen (c : Fin 32) : Within s (withdrawOpen c s) :=
  (within_removeEntry s c).trans (within_returnToIdle _ c)

theorem within_commandClose (c : Fin 32) : Within s (commandClose c s) :=
  (within_stopDelivery s c).trans (within_enterPhase _ c _ _ _)

theorem within_beginClose (c : Fin 32) : Within s (beginClose c s) := by
  unfold beginClose
  split
  · exact within_commandClose s c
  · exact (within_stopDelivery s c).trans (within_returnToIdle _ c)

theorem within_issueEntry (c : Fin 32) (m : Movement) : Within s (issueEntry c m s) := by
  unfold issueEntry
  split
  · exact within_enterPhase s c _ _ _
  · exact within_beginClose s c
  · exact within_beginClose s c
  · exact .refl s

theorem within_enqueue (c : Fin 32) (m : Movement) : Within s (enqueue c m s) := by
  unfold enqueue
  split
  · exact (within_setSlot s _).trans (within_issueEntry _ c m)
  · exact within_setQueue s _

theorem within_slotStep : Within s (slotStep s) := by
  unfold slotStep
  split
  · exact within_setSlot s _
  · exact ((within_setQueue s _).trans (within_setSlot _ _)).trans (within_issueEntry _ _ _)

theorem within_openRequest (c : Fin 32) : Within s (openRequest c s) :=
  (within_enterPhase s c _ _ _).trans (within_enqueue _ c _)

theorem within_queuedClose (c : Fin 32) : Within s (queuedClose c s) := by
  unfold queuedClose
  split
  · exact within_withdrawOpen s c
  · split
    · exact within_enqueue s c _
    · exact .refl s
  · exact (within_enterPhase s c _ _ _).trans (within_enqueue _ c _)
  · exact .refl s

theorem within_immediateClose (c : Fin 32) : Within s (immediateClose c s) := by
  unfold immediateClose
  split
  · exact within_withdrawOpen s c
  · exact (within_removeEntry s c).trans (within_beginClose _ c)
  · exact (within_removeEntry s c).trans (within_beginClose _ c)
  · exact (within_removeEntry s c).trans (within_beginClose _ c)
  · exact .refl s

theorem within_closeToStop (c : Fin 32) : Within s (closeToStop c s) := by
  unfold closeToStop
  split
  · exact within_withdrawOpen s c
  · exact (within_removeEntry s c).trans (within_commandClose _ c)
  · exact (within_removeEntry s c).trans (within_commandClose _ c)
  · exact (within_removeEntry s c).trans (within_commandClose _ c)
  · exact .refl s

/-! ## The dispatcher -/

/-- A fold over operations that stay within stays within. -/
theorem within_foldl {α : Type} (f : State → α → State) (h : ∀ t a, Within t (f t a)) (l : List α) :
    Within s (l.foldl f s) := by
  induction l generalizing s with
  | nil => exact .refl s
  | cons a l ih => exact (h s a).trans (ih _)

theorem within_forCannons (f : Fin 32 → State → State) (h : ∀ c t, Within t (f c t)) :
    Within s (forCannons f s) := within_foldl s _ (fun t c => h c t) _

theorem within_decideEnd (c : Fin 32) : Within s (decideEnd c s) := by
  unfold decideEnd
  split
  · exact .refl s
  · split
    · exact within_endRun s c
    · exact (within_setDisposition s c _).trans (within_queuedClose _ c)

theorem within_decideEnds (test : Run → Bool) : Within s (decideEnds test s) := by
  refine within_forCannons s _ fun c t => ?_
  split
  · split
    · exact within_decideEnd t c
    · exact .refl t
  · exact .refl t

theorem within_loseCapacityAt (c : Fin 32) : Within s (loseCapacityAt c s) := by
  unfold loseCapacityAt
  split
  · exact .refl s
  · split
    · exact .refl s
    · split
      · exact (within_setDisposition s c _).trans (within_immediateClose _ c)
      · exact (within_setDisposition s c _).trans (within_immediateClose _ c)
      · exact (within_setDisposition s c _).trans (within_immediateClose _ c)
      · exact (within_setDisposition s c _).trans (within_immediateClose _ c)
      · exact .refl s

theorem within_capacityLoss : Within s (capacityLoss s) :=
  within_forCannons s _ fun c t => within_loseCapacityAt t c

theorem within_overloadTest : Within s (overloadTest s) := by
  unfold overloadTest
  split
  · exact .refl s
  · exact within_capacityLoss s

theorem within_detachAt (k : Nat) (c : Fin 32) : Within s (detachAt k c s) := by
  unfold detachAt
  split
  · exact .refl s
  · split
    · exact (within_setRun s c _).trans (within_decideEnd _ c)
    · exact .refl s

theorem within_closeOrder (k : Nat) (x : OrderOutcome) : Within s (closeOrder k x s) := by
  unfold closeOrder
  split
  · exact .refl s
  · split
    · exact .refl s
    · exact ((within_writeClosure s k _ x).trans
        (within_forCannons _ _ fun c t => within_detachAt t k c)).trans (within_announceClosure _ k _)

theorem within_closeOrders (test : Order → Bool) (x : OrderOutcome) :
    Within s (closeOrders test x s) := by
  refine within_foldl s _ (fun t k => ?_) _
  split
  · split
    · exact within_closeOrder t k x
    · exact .refl t
  · exact .refl t

/-! ## The grant pass -/

theorem within_attempt (p : Pass) (c : Fin 32) (f : State → State) (h : Within p.s (f p.s)) :
    Within p.s (p.attempt c f).s := by
  unfold Pass.attempt
  split
  · exact h
  · exact .refl p.s

theorem within_resumeRun (c : Fin 32) : Within s (resumeRun c s) :=
  (within_updateRun s c _).trans (within_openRequest _ c)

theorem within_newRun (c : Fin 32) (o : Origin) (t : Option (Fin 4)) (n : Nat) :
    Within s (newRun c o t n s) := (within_setRun s c _).trans (within_openRequest _ c)

/-- A fold of a pass over grants that stay within stays within. -/
theorem within_passFold {α : Type} (f : Pass → α → Pass) (h : ∀ p a, Within p.s (f p a).s) (l : List α)
    (p : Pass) : Within p.s (l.foldl f p).s := by
  induction l generalizing p with
  | nil => exact .refl p.s
  | cons a l ih => exact (h p a).trans (ih _)

theorem within_resumeOrderAt (k : Nat) (p : Pass) (c : Fin 32) :
    Within p.s (resumeOrderAt k p c).s := by
  unfold resumeOrderAt
  split
  · split
    · exact within_attempt p c _ (within_resumeRun p.s c)
    · exact .refl p.s
  · exact .refl p.s

theorem within_grantOrderAt (k : Nat) (q : Fin 24) (acc : Pass × Nat) (c : Fin 32) :
    Within acc.1.s (grantOrderAt k q acc c).1.s := by
  unfold grantOrderAt
  simp only
  split
  · exact within_attempt acc.1 c _ (within_newRun _ c _ _ _)
  · exact .refl acc.1.s

theorem within_grantOrderFold (k : Nat) (q : Fin 24) (l : List (Fin 32)) (acc : Pass × Nat) :
    Within acc.1.s (l.foldl (grantOrderAt k q) acc).1.s := by
  induction l generalizing acc with
  | nil => exact .refl acc.1.s
  | cons a l ih => exact (within_grantOrderAt k q acc a).trans (ih _)

theorem within_serveOrder (p : Pass) (k : Nat) : Within p.s (serveOrder p k).s := by
  unfold serveOrder
  split
  · exact .refl p.s
  · generalize List.finRange 32 = l
    have h := within_passFold _ (within_resumeOrderAt k) l p
    exact h.trans (within_grantOrderFold k _ l (_, _))

theorem within_resumeAutoAt (p : Pass) (c : Fin 32) : Within p.s (resumeAutoAt p c).s := by
  unfold resumeAutoAt
  split
  · split
    · exact within_attempt p c _ (within_resumeRun p.s c)
    · exact .refl p.s
  · exact .refl p.s

theorem within_grantAutoAt (i : Fin 24) (p : Pass) (c : Fin 32) :
    Within p.s (grantAutoAt i p c).s := by
  unfold grantAutoAt
  simp only
  split
  · refine within_attempt p c _ ?_
    have h := within_newRun p.s c .auto (some (p.s.demand i).tier)
      (min (p.s.demand i).volume (longestRun p.s c))
    refine h.trans ?_
    have e := h.tier i
    exact { Within.refl _ with
      posts := .of_eq rfl
      tier := fun q => by rw [setDemand_demand]; split <;> simp_all }
  · exact .refl p.s

theorem within_servePile (p : Pass) (i : Fin 24) : Within p.s (servePile p i).s := by
  unfold servePile
  split
  · exact .refl p.s
  · exact within_passFold _ (within_grantAutoAt i) _ p

theorem within_passSteps : Within s (passSteps s).s := by
  unfold passSteps
  have h := within_passFold _ within_serveOrder (openWetOrders s) ⟨s, false, false⟩
  have g := h.trans (within_passFold _ within_resumeAutoAt
    (resumableAuto ((openWetOrders s).foldl serveOrder ⟨s, false, false⟩).s) _)
  simp only
  split
  · exact g.trans (within_passFold _ within_servePile _ _)
  · exact g

theorem within_grantPass : Within s (grantPass s) := by
  unfold grantPass
  have h := within_passSteps s
  simp only
  refine Within.trans ?_ (within_headerIdle _)
  have g : Within s (if (passSteps s).granted then grantReport (passSteps s).s else (passSteps s).s) := by
    split
    · exact h.trans (within_grantReport _)
    · exact h
  split
  · exact g.trans (within_startRequest _)
  · exact g

/-- An event of operations that stay within, with the pass it may owe, stays within (R124). -/
theorem within_inEvent (f : State → State) (h : ∀ t, Within t (f t)) : Within s (inEvent f s) := by
  unfold inEvent
  have g := (within_setPass s false).trans (h _)
  simp only
  split
  · exact (g.trans (within_grantPass _)).trans (within_setPass _ _)
  · exact g

/-- All that the end of an event adds to what the event does: the grant pass, if it owes one (R124). -/
theorem inEvent_cases (f : State → State) :
    inEvent f s = f (s.setPass false) ∨
    inEvent f s = (grantPass (f (s.setPass false))).setPass false := by
  unfold inEvent
  simp only
  split
  · exact .inr rfl
  · exact .inl rfl

/-- After its own work an event only adds what stays within (R124). -/
theorem inEvent_within (f : State → State) : Within (f (s.setPass false)) (inEvent f s) := by
  rcases inEvent_cases s f with h | h
  · rw [h]; exact .refl _
  · rw [h]; exact (within_grantPass _).trans (within_setPass _ _)

end Sys2Proof.Machine
end

