-- ==== Sys2Proof/Laws/Quiet.lean ====
section
/-! SUPPORT. All the operations on water, cannons, machines, piles and orders leave the clock, the wind,
the forecast, the boundary, the site, the STOP line, the mode and the receiver as they find them, and only
add to the notice list. -/

namespace Sys2Proof.Machine

/-- What no operation on water, cannons, machines, piles and orders changes. -/
structure Quiet (s t : State) : Prop where
  yc : t.yc = s.yc
  wfe : t.wfe = s.wfe
  ft : t.ft = s.ft
  bwu : t.bwu = s.bwu
  site : t.site = s.site
  freeCount : t.freeCount = s.freeCount
  pending : t.pending = s.pending
  stop : t.pins.stop = s.pins.stop
  lc : t.lc = { s.lc with notices := t.lc.notices }
  mau : t.mau = { s.mau with alerts := t.mau.alerts }
  posts : Posts s t

theorem Quiet.refl (s : State) : Quiet s s := ⟨rfl, rfl, rfl, rfl, rfl, rfl, rfl, rfl, rfl, rfl, .refl s⟩

theorem Quiet.trans {s t u : State} (h : Quiet s t) (k : Quiet t u) : Quiet s u where
  yc := k.yc.trans h.yc
  wfe := k.wfe.trans h.wfe
  ft := k.ft.trans h.ft
  bwu := k.bwu.trans h.bwu
  site := k.site.trans h.site
  freeCount := k.freeCount.trans h.freeCount
  pending := k.pending.trans h.pending
  stop := k.stop.trans h.stop
  lc := by rw [k.lc, h.lc]
  mau := by rw [k.mau, h.mau]
  posts := h.posts.trans k.posts

theorem Within.quiet {s t : State} (h : Within s t) : Quiet s t :=
  ⟨h.yc, h.wfe, h.ft, h.bwu, h.site, h.freeCount, h.pending, by rw [h.pins], h.lc, h.mau, h.posts⟩

variable (s : State)

/-- A fold over quiet operations is quiet. -/
theorem quiet_foldl {α : Type} (f : State → α → State) (h : ∀ t a, Quiet t (f t a)) (l : List α) :
    Quiet s (l.foldl f s) := by
  induction l generalizing s with
  | nil => exact .refl s
  | cons a l ih => exact (h s a).trans (ih _)

theorem quiet_forCannons (f : Fin 32 → State → State) (h : ∀ c t, Quiet t (f c t)) :
    Quiet s (forCannons f s) := quiet_foldl s _ (fun t c => h c t) _

theorem quiet_forPiles (f : Fin 24 → State → State) (h : ∀ p t, Quiet t (f p t)) :
    Quiet s (forPiles f s) := quiet_foldl s _ (fun t p => h p t) _

/-- After its own work an event only adds what is quiet (R124). -/
theorem quiet_inEvent (f : State → State) (h : ∀ t, Quiet t (f t)) : Quiet s (inEvent f s) :=
  ((within_setPass s false).quiet.trans (h _)).trans (inEvent_within s f).quiet

/-! ## Writing one record -/

theorem quiet_setPile (p : Fin 24) (v : Pile) : Quiet s (s.setPile p v) :=
  { Quiet.refl s with posts := .of_eq rfl }

theorem quiet_setCannon (c : Fin 32) (v : Cannon) : Quiet s (s.setCannon c v) :=
  { Quiet.refl s with posts := .of_eq rfl }

theorem quiet_setMachine (m : Fin 4) (v : MachineRecord) : Quiet s (s.setMachine m v) :=
  { Quiet.refl s with posts := .of_eq rfl }

theorem quiet_setPond (p : Fin 4) (v : Pond) : Quiet s (s.setPond p v) :=
  { Quiet.refl s with posts := .of_eq rfl }

theorem quiet_setToday (d : DayRecord) : Quiet s (s.setToday d) :=
  { Quiet.refl s with posts := .of_eq rfl }

theorem quiet_setPrevious (d : DayRecord) : Quiet s (s.setPrevious d) :=
  { Quiet.refl s with posts := .of_eq rfl }

theorem quiet_setDemand (p : Fin 24) (d : Demand) : Quiet s (s.setDemand p d) :=
  { Quiet.refl s with posts := .of_eq rfl }

theorem quiet_setAcceptances (n : Nat) : Quiet s (s.setAcceptances n) :=
  { Quiet.refl s with posts := .of_eq rfl }

theorem quiet_setPau (v : Pau) : Quiet s (s.setPau v) :=
  { Quiet.refl s with posts := .of_eq rfl }

theorem quiet_setFeedback (c : Fin 32) (b : Bool) : Quiet s (setFeedback c b s) :=
  { Quiet.refl s with posts := .of_eq rfl }

theorem quiet_setRainLow : Quiet s (setRainLow s) := { Quiet.refl s with posts := .of_eq rfl }

theorem quiet_syncAlerts (es : List AlertId) : Quiet s (syncAlerts es s) :=
  (within_syncAlerts s es).quiet

/-! ## Water -/

theorem quiet_reportUsable (before : State) : Quiet s (reportUsable before s) := by
  unfold reportUsable
  split
  · exact (within_markPass s).quiet
  · exact .refl s

theorem quiet_waterEvent (f : State → State) (h : Quiet s (f s)) : Quiet s (waterEvent f s) :=
  (h.trans (quiet_syncAlerts _ _)).trans (quiet_reportUsable _ s)

theorem within_giveUpSource : Within s (giveUpSource s) := by
  unfold giveUpSource
  split
  · exact within_setPump s _
  · exact (within_setPump s _).trans (within_capacityLoss _)

theorem within_selectAnew : Within s (selectAnew s) := by
  unfold selectAnew
  split
  · exact .refl s
  · split
    · exact within_setPump s _
    · exact .refl s

theorem within_forcedSwitch : Within s (forcedSwitch s) :=
  (((within_giveUpSource s).trans (within_selectAnew _)).trans (within_syncAlert _ _)).trans
    (within_post _ _)

theorem quiet_testFitness (before : State) : Quiet s (testFitness before s) := by
  unfold testFitness
  split
  · split
    · exact (within_forcedSwitch s).quiet
    · exact .refl s
  · exact .refl s

theorem quiet_updatePondDay (p : Fin 4) (f : PondDay → PondDay) : Quiet s (updatePondDay p f s) :=
  quiet_setToday s _

theorem quiet_debit (q : Nat) (src : Source) : Quiet s (debit q src s) := by
  unfold debit
  split
  · exact (quiet_setPond s _ _).trans (quiet_updatePondDay _ _ _)
  · exact quiet_setToday s _

theorem quiet_countDrawn (lost : Bool) (q : Nat) : Quiet s (countDrawn lost q s) := by
  unfold countDrawn
  split <;> exact quiet_setToday s _

theorem quiet_draw (lost : Bool) (q : Nat) : Quiet s (draw lost q s) := by
  unfold draw
  split
  · exact quiet_waterEvent s _ (((quiet_debit s q _).trans (quiet_countDrawn _ lost q)).trans
      (quiet_testFitness _ s))
  · exact .refl s

theorem quiet_inflow (kind : InflowKind) (p : Fin 4) (v : Nat) : Quiet s (inflow kind p v s) := by
  unfold inflow
  simp only
  split
  · exact quiet_waterEvent s _ ((quiet_setPond s _ _).trans (quiet_updatePondDay _ _ _))
  · exact .refl s

theorem quiet_settle (p : Fin 4) : Quiet s (settle p s) := quiet_waterEvent s _ (quiet_setPond s _ _)

theorem quiet_restateVolume (p : Fin 4) (v : Nat) : Quiet s (restateVolume p v s) :=
  (quiet_setPond s _ _).trans (quiet_updatePondDay _ _ _)

theorem quiet_configurePond (p : Fin 4) (k : PondConfig) : Quiet s (configurePond p k s) :=
  quiet_waterEvent s _
    (((quiet_setPond s _ _).trans (quiet_restateVolume _ _ _)).trans (quiet_setPond _ _ _))

theorem quiet_releasePond (p : Fin 4) : Quiet s (releasePond p s) := by
  unfold releasePond
  split
  · exact quiet_waterEvent s _ ((quiet_restateVolume s _ _).trans (quiet_setPond _ _ _))
  · exact .refl s

theorem quiet_reportLevel (p : Fin 4) (level : Option Nat) : Quiet s (reportLevel p level s) := by
  unfold reportLevel
  split
  · exact quiet_restateVolume s _ _
  · exact .refl s

theorem quiet_reportQuality (p : Fin 4) (x y : Option Bool) : Quiet s (reportQuality p x y s) :=
  quiet_setPond s _ _

theorem quiet_reportPond (p : Fin 4) (level : Option Nat) (x y : Option Bool) :
    Quiet s (reportPond p level x y s) :=
  quiet_waterEvent s _ (((quiet_reportLevel s p level).trans (quiet_reportQuality _ p x y)).trans
    (quiet_testFitness _ s))

theorem quiet_capacityIncrease : Quiet s (capacityIncrease s) :=
  ((within_pumpTo s _ _ _).trans (within_markPass _)).quiet

theorem quiet_pumpStop : Quiet s (pumpStop s) :=
  ((within_pumpOff s).trans (within_capacityLoss _)).quiet

theorem quiet_pumpOnMode (m : Mode) : Quiet s (pumpOnMode m s) := by
  unfold pumpOnMode
  split
  · exact .refl s
  · exact quiet_pumpStop s
  · exact quiet_pumpStop s
  · exact quiet_pumpStop s
  · exact .refl s

theorem quiet_closeDay (day : Nat) : Quiet s (closeDay day s) :=
  quiet_waterEvent s _ ((quiet_setPrevious s _).trans (quiet_setToday _ _))

/-! ## Cannons and machines -/

theorem within_releaseEnded (c : Fin 32) : Within s (releaseEnded c s) :=
  ((within_endRun s c).trans (within_headerIdle _)).trans (within_markPass _)

theorem within_becomeStuck (c : Fin 32) : Within s (becomeStuck c s) := within_enterPhase s c _ _ _

theorem within_unbiddenFlow (c : Fin 32) : Within s (unbiddenFlow c s) :=
  ((within_becomeStuck s c).trans (within_endRun _ c)).trans (within_overloadTest _)

theorem within_feedbackOpened (c : Fin 32) : Within s (feedbackOpened c s) := by
  unfold feedbackOpened
  split
  · exact (within_enterPhase s c _ _ _).trans (within_startDelivery _ c)
  · exact ((within_removeEntry s c).trans (within_becomeStuck _ c)).trans (within_endRun _ c)
  · exact within_unbiddenFlow s c
  · exact within_unbiddenFlow s c
  · split
    · exact within_unbiddenFlow s c
    · exact .refl s
  · exact .refl s

theorem within_feedbackClosed (c : Fin 32) : Within s (feedbackClosed c s) := by
  unfold feedbackClosed
  split
  · exact (((within_stopDelivery s c).trans (within_removeEntry _ c)).trans
      (within_enterPhase _ c _ _ _)).trans (within_releaseEnded _ c)
  · exact (((within_stopDelivery s c).trans (within_removeEntry _ c)).trans
      (within_enterPhase _ c _ _ _)).trans (within_releaseEnded _ c)
  · exact within_returnToIdle s c
  · exact (within_enterPhase s c _ _ _).trans (within_markPass _)
  · exact within_enterPhase s c _ _ _
  · exact .refl s

theorem quiet_feedbackStep (c : Fin 32) (b : Bool) : Quiet s (feedbackStep c b s) := by
  unfold feedbackStep
  simp only
  split
  · exact (within_returnToIdle s c).quiet
  · split
    · exact quiet_setFeedback s c b
    · split
      · exact (quiet_setFeedback s c b).trans (within_feedbackOpened _ c).quiet
      · exact (quiet_setFeedback s c b).trans (within_feedbackClosed _ c).quiet

theorem within_travelStep (c : Fin 32) : Within s (travelStep c s) := by
  unfold travelStep
  split
  · exact .refl s
  · split
    · exact ((within_removeEntry s c).trans (within_enterPhase _ c _ _ _)).trans
        (within_releaseEnded _ c)
    · exact (within_becomeStuck s c).trans (within_endRun _ c)
    · exact within_unbiddenFlow s c
    · exact within_returnToIdle s c
    · exact within_enterPhase s c _ _ _

theorem quiet_lostWaterStep (c : Fin 32) : Quiet s (lostWaterStep c s) := by
  unfold lostWaterStep
  split
  · exact .refl s
  · simp only
    split
    · exact (quiet_setCannon s c _).trans (quiet_draw _ _ _)
    · exact quiet_setCannon s c _

theorem within_lockCannon (c : Fin 32) : Within s (lockCannon c s) := by
  unfold lockCannon
  simp only
  split
  · exact (within_enterPhase s c _ _ _).trans (within_endRun _ c)
  · exact within_enterPhase s c _ _ _
  · exact ((within_removeEntry s c).trans (within_enterPhase _ c _ _ _)).trans
      (within_releaseEnded _ c)
  · exact (((within_stopDelivery s c).trans (within_removeEntry _ c)).trans
      (within_enterPhase _ c _ _ _)).trans (within_releaseEnded _ c)
  · exact (((within_stopDelivery s c).trans (within_removeEntry _ c)).trans
      (within_enterPhase _ c _ _ _)).trans (within_releaseEnded _ c)
  · exact (((within_stopDelivery s c).trans (within_removeEntry _ c)).trans
      (within_enterPhase _ c _ _ _)).trans (within_releaseEnded _ c)
  · exact (within_enterPhase s c _ _ _).trans (within_releaseEnded _ c)
  · exact .refl s
  · exact .refl s

theorem within_unlockCannon (c : Fin 32) : Within s (unlockCannon c s) := by
  unfold unlockCannon
  split
  · exact within_unbiddenFlow s c
  · exact (within_enterPhase s c _ _ _).trans (within_markPass _)

theorem quiet_driftAt (c : Fin 32) : Quiet s (driftAt c s) := by
  unfold driftAt
  simp only
  split
  · exact .refl s
  · split
    · exact (quiet_setCannon s c _).trans
        ((within_setDisposition _ c _).trans (within_queuedClose _ c)).quiet
    · exact (quiet_setCannon s c _).trans (within_markPass _).quiet

theorem quiet_driftEvaluation : Quiet s (driftEvaluation s) :=
  quiet_forCannons s _ fun c t => quiet_driftAt t c

theorem quiet_excludeAt (c : Fin 32) : Quiet s (excludeAt c s) := by
  unfold excludeAt
  simp only
  split
  · exact .refl s
  · split
    · exact (quiet_setCannon s c _).trans
        ((within_setDisposition _ c _).trans (within_immediateClose _ c)).quiet
    · exact (quiet_setCannon s c _).trans (within_markPass _).quiet

theorem quiet_evaluateExclusion : Quiet s (evaluateExclusion s) :=
  quiet_forCannons s _ fun c t => quiet_excludeAt t c

theorem quiet_reportMachine (m : Fin 4) (r : Fin 2) (n : Nat) : Quiet s (reportMachine m r n s) :=
  ((quiet_setMachine s m _).trans (within_syncAlert _ _).quiet).trans (quiet_evaluateExclusion _)

theorem quiet_machineStaleStep (m : Fin 4) : Quiet s (machineStaleStep m s) := by
  unfold machineStaleStep
  split
  · exact .refl s
  · exact ((quiet_setMachine s m _).trans (within_syncAlert _ _).quiet).trans
      (quiet_evaluateExclusion _)

theorem within_discoverOpen (c : Fin 32) : Within s (discoverOpen c s) := by
  unfold discoverOpen
  split
  · exact within_unbiddenFlow s c
  · exact .refl s

theorem quiet_configureCannon (c : Fin 32) (k : CannonConfig) : Quiet s (configureCannon c k s) :=
  ((quiet_setCannon s c _).trans (quiet_setCannon _ c _)).trans (within_discoverOpen _ c).quiet

theorem quiet_releaseCannon (c : Fin 32) : Quiet s (releaseCannon c s) := by
  unfold releaseCannon
  simp only
  split
  · exact (quiet_setCannon s c _).trans (within_syncAlert _ _).quiet
  · exact .refl s

theorem within_closeAll : Within s (closeAll s) :=
  ((within_forCannons s _ fun c t => within_closeToStop t c).trans (within_setQueue _ _)).trans
    (within_setSlot _ _)

theorem within_withdrawPending (c : Fin 32) : Within s (withdrawPending c s) := by
  unfold withdrawPending
  split
  · exact within_withdrawOpen s c
  · exact .refl s

theorem within_cannonsOnMode (m : Mode) : Within s (cannonsOnMode m s) := by
  unfold cannonsOnMode
  split
  · exact within_closeAll s
  · exact within_forCannons s _ fun c t => within_withdrawPending t c
  · exact .refl s
  · exact .refl s

theorem within_dispatcherOnMode (x y : Mode) : Within s (dispatcherOnMode x y s) := by
  unfold dispatcherOnMode
  split
  · exact within_decideEnds s _
  · exact within_decideEnds s _
  · refine Within.trans ?_ (within_markPass _)
    split
    · exact within_decideEnds s _
    · exact .refl s
  · exact within_markPass s

theorem within_ordersOnMode (m : Mode) : Within s (ordersOnMode m s) := by
  cases m
  · exact within_closeOrders s _ _
  all_goals exact .refl s

/-- With the orders put aside, what f changes is what it changes of the rest, and no order changes. -/
theorem within_sparingOrders (f : State → State) (h : ∀ t, Within t (f t)) :
    Within s (sparingOrders f s) := by
  have k := h (s.setOrders [])
  exact ⟨k.pins, k.yc, k.wfe, k.ft, k.bwu, k.site, k.freeCount, k.pending, k.lc, k.mau, k.machines, k.ponds,
    k.today, k.previous, k.assessment, k.pile, k.cannon, rfl, k.tier, k.acceptances, ⟨k.posts.keeps, k.posts.nodup⟩⟩

@[simp] theorem sparingOrders_orders (f : State → State) : (sparingOrders f s).sd.orders = s.sd.orders := rfl

/-- A change of mode writes the mode and the cause and posts MODE; the rest of it is quiet (R154). -/
theorem enterMode_quiet (m : Mode) (x : Cause) :
    Quiet (post .mode (s.setMode m (some x))) (enterMode m x s) := by
  unfold enterMode
  generalize post .mode (s.setMode m (some x)) = t
  exact (((within_sparingOrders t _ fun u =>
    (within_cannonsOnMode u m).trans (within_dispatcherOnMode _ _ m)).trans
      (within_ordersOnMode _ m)).quiet.trans (quiet_pumpOnMode _ m)).trans (within_syncAlert _ _).quiet

/-- The mode and the cause a change of mode leaves (R154). -/
theorem enterMode_mode (m : Mode) (x : Cause) :
    (enterMode m x s).mau.mode = m ∧ (enterMode m x s).mau.cause = some x := by
  have h := (enterMode_quiet s m x).mau
  rw [post_eq] at h
  rw [h]
  exact ⟨rfl, rfl⟩

/-! ## Piles -/

theorem quiet_postRunoff (d : Option (Fin 4)) (v : Nat) : Quiet s (postRunoff d v s) := by
  unfold postRunoff
  split
  · split
    · exact quiet_inflow s _ _ _
    · exact .refl s
  · exact .refl s

theorem quiet_assessPile (i : Inputs) (p : Fin 24) : Quiet s (assessPile i p s) := by
  unfold assessPile
  simp only
  split
  · have h := ((quiet_setPile s p { s.pile p with
      moisture := newMoisture i (s.pile p), pendingSpray := 0, pendingRain := 0 }).trans
      (quiet_postRunoff _ (s.pile p).config.drain (runoffOf (s.pile p)))).trans (quiet_setPile _ p
        { (postRunoff (s.pile p).config.drain (runoffOf (s.pile p)) (s.setPile p { s.pile p with
            moisture := newMoisture i (s.pile p), pendingSpray := 0, pendingRain := 0 })).pile p with
          results := some (assessResults i (postRunoff (s.pile p).config.drain (runoffOf (s.pile p))
            (s.setPile p { s.pile p with
              moisture := newMoisture i (s.pile p), pendingSpray := 0, pendingRain := 0 })) p) })
    split
    · exact h
    · exact h.trans (within_post _ _).quiet
  · exact .refl s

theorem quiet_recordTier (p : Fin 24) : Quiet s (recordTier p s) := by
  unfold recordTier
  split
  · exact quiet_setDemand s p _
  · exact .refl s

theorem quiet_endSatisfied (p : Fin 24) : Quiet s (endSatisfied p s) := by
  unfold endSatisfied
  split
  · exact (within_decideEnds s _).quiet
  · exact .refl s

theorem quiet_completion : Quiet s (completion s) :=
  (((quiet_forPiles s _ fun p t => quiet_recordTier t p).trans
    (quiet_forPiles _ _ fun p t => quiet_endSatisfied t p)).trans
    (quiet_forPiles _ _ fun p t => quiet_setDemand t p _)).trans (within_markPass _).quiet

theorem quiet_assessmentStep : Quiet s (assessmentStep s) :=
  ((quiet_setPau s _).trans (quiet_forPiles _ _ fun p t => quiet_assessPile t _ p)).trans
    (quiet_completion _)

theorem quiet_wetPile (n : Nat) (p : Fin 24) : Quiet s (wetPile n p s) := by
  unfold wetPile
  simp only
  split
  · exact quiet_setPile s p _
  · exact .refl s

theorem quiet_rainOnPond (n : Nat) (p : Fin 4) : Quiet s (rainOnPond n p s) := by
  unfold rainOnPond
  simp only
  split
  · exact quiet_inflow s _ _ _
  · exact .refl s

theorem quiet_shareRain (n : Nat) : Quiet s (shareRain n s) :=
  (quiet_forPiles s _ fun p t => quiet_wetPile t n p).trans
    (quiet_foldl _ _ (fun t p => quiet_rainOnPond t n p) _)

/-! ## Deliveries and orders -/

theorem quiet_creditPile (p : Fin 24) (q : Nat) : Quiet s (creditPile p q s) := by
  unfold creditPile
  simp only
  split
  · exact quiet_setPile s p _
  · exact .refl s

theorem within_creditOrder (x : Origin) (q : Nat) : Within s (creditOrder x q s) := by
  unfold creditOrder
  split
  · split
    · split
      · exact within_setOrder s _ _
      · exact .refl s
    · exact .refl s
  · exact .refl s
  · exact .refl s

theorem within_targetTest (c : Fin 32) : Within s (targetTest c s) := by
  unfold targetTest
  split
  · exact .refl s
  · split
    · exact .refl s
    · split
      · exact (within_setDisposition s c _).trans (within_queuedClose _ c)
      · exact .refl s
    · exact .refl s

theorem within_endOthers (k : Nat) (c : Fin 32) : Within s (endOthers k c s) := by
  refine within_forCannons s _ fun x t => ?_
  split
  · split
    · exact within_decideEnd t x
    · exact .refl t
  · exact .refl t

theorem quiet_deliver (c : Fin 32) (r : Run) : Quiet s (deliver c r s) :=
  (((within_setRun s c _).quiet.trans (quiet_creditPile _ _ _)).trans
    (within_creditOrder _ _ _).quiet).trans (quiet_draw _ _ _)

theorem quiet_deliveryStep (c : Fin 32) : Quiet s (deliveryStep c s) := by
  unfold deliveryStep
  split
  · exact .refl s
  · split
    · have h := fun r => (quiet_deliver s c r).trans (within_targetTest _ c).quiet
      simp only
      split
      · split
        · exact (h _).trans (within_endOthers _ _ c).quiet
        · exact h _
      · exact h _
      · exact h _
    · exact .refl s
    · exact .refl s

theorem within_resumeStep (c : Fin 32) : Within s (resumeStep c s) := by
  unfold resumeStep
  split
  · split
    · exact within_endRun s c
    · exact .refl s
  · exact .refl s

theorem within_orderStep (x : OrderKind) (y : OrderOutcome) (k : Nat) :
    Within s (orderStep x y k s) := by
  unfold orderStep
  split
  · split
    · exact within_closeOrder s k y
    · exact .refl s
  · exact .refl s

theorem quiet_acceptOrder (k : Nat) (o : Order) : Quiet s (acceptOrder k o s) :=
  (quiet_setAcceptances s _).trans (within_setOrder _ _ _).quiet

theorem quiet_wetStep (k tag : Nat) (p : Fin 24) (v x : Nat) : Quiet s (wetStep k tag p v x s) :=
  (quiet_acceptOrder s k _).trans (within_markPass _).quiet

theorem quiet_holdStep (k tag : Nat) (p : Fin 24) (d : Nat) : Quiet s (holdStep k tag p d s) :=
  ((quiet_acceptOrder s k _).trans (within_setHold _ p true).quiet).trans
    ((within_decideEnds _ _).trans (within_closeOrders _ _ _)).quiet

end Sys2Proof.Machine
end

