-- ==== Sys2Proof/Laws/RunEnds.lean ====
section
/-! SUPPORT. What the end or the suspension of a run leaves behind it: the numbers of the runs that one event
suspends, which go up by one in ascending order of cannon (R115), and the test for DONE (R116, R131). -/

namespace Sys2Proof.Machine

/-! ## Suspension numbers -/

@[simp] theorem suspensionsAfter_zero (s : State) : suspensionsAfter s 0 = s.sd.suspensions := rfl

theorem suspensionsAfter_succ (s : State) (n : Nat) :
    suspensionsAfter s (n + 1) = Config.count48 (suspensionsAfter s n + 1) := rfl

/-- Within the range of the counter the numbers are consecutive. -/
theorem suspensionsAfter_eq (s : State) (n : Nat) (h : s.sd.suspensions + n < 2 ^ 48) :
    suspensionsAfter s n = s.sd.suspensions + n := by
  induction n with
  | zero => rfl
  | succ n ih =>
    rw [suspensionsAfter_succ, ih (by omega), Config.count48, if_pos (by omega)]
    omega

/-- One run has been suspended between s and t. -/
theorem suspensionsAfter_of_suspended {s t : State} (h : t.sd.suspensions = suspensionsAfter s 1) (n : Nat) :
    suspensionsAfter t n = suspensionsAfter s (n + 1) := by
  induction n with
  | zero => exact h
  | succ n ih => rw [suspensionsAfter_succ, ih, ← suspensionsAfter_succ]

/-- No run has been suspended between s and t. -/
theorem suspensionsAfter_of_unchanged {s t : State} (h : t.sd.suspensions = s.sd.suspensions) (n : Nat) :
    suspensionsAfter t n = suspensionsAfter s n := by
  induction n with
  | zero => exact h
  | succ n ih => rw [suspensionsAfter_succ, ih, suspensionsAfter_succ]

@[simp] theorem countBelow_zero (test : Fin 32 → Bool) : countBelow 0 test = 0 := by
  simp [countBelow]

/-- A count over two tests of which each element passes at most one. -/
theorem countP_of_split {α : Type} (l : List α) (p q r : α → Bool)
    (h : ∀ x ∈ l, (if p x then 1 else 0) = (if q x then 1 else 0) + (if r x then 1 else 0)) :
    l.countP p = l.countP q + l.countP r := by
  induction l with
  | nil => rfl
  | cons a l ih =>
    simp only [List.countP_cons]
    rw [ih fun x hx => h x (List.mem_cons_of_mem _ hx), h a (List.mem_cons_self ..)]
    omega

/-- One cannon is counted once. -/
theorem countP_one (c : Fin 32) (test : Fin 32 → Bool) :
    (List.finRange 32).countP (fun x => decide (x = c) && test x) = if test c then 1 else 0 := by
  cases h : test c with
  | false =>
    rw [List.countP_eq_zero.2]
    · rfl
    · intro x _ hx
      simp only [Bool.and_eq_true, decide_eq_true_eq] at hx
      rw [hx.1] at hx
      simp [h] at hx
  | true =>
    have e : (List.finRange 32).countP (fun x => decide (x = c) && test x) =
        (List.finRange 32).count c := by
      rw [List.count]
      refine List.countP_congr fun x _ => ⟨fun hx => ?_, fun hx => ?_⟩
      · simp only [Bool.and_eq_true, decide_eq_true_eq] at hx
        simpa using hx.1
      · have hc : x = c := by simpa using hx
        simp [hc, h]
    rw [e, List.count_eq_one_of_mem (List.nodup_finRange 32) (List.mem_finRange c)]
    rfl

/-- The cannons below the next of c are those below c, and c. -/
theorem countBelow_succ (c : Fin 32) (test : Fin 32 → Bool) :
    countBelow (c.val + 1) test = countBelow c.val test + if test c then 1 else 0 := by
  simp only [countBelow, ← List.countP_eq_length_filter]
  rw [countP_of_split _ _ (fun x => decide (x.val < c.val) && test x)
    (fun x => decide (x = c) && test x), countP_one]
  intro x _
  rcases lt_trichotomy x.val c.val with hl | he | hg
  · have hc : x ≠ c := fun e => by rw [e] at hl; omega
    simp [hl, hc, Nat.lt_succ_of_lt hl]
  · have hc : x = c := Fin.ext he
    subst hc
    simp
  · have hc : x ≠ c := fun e => by rw [e] at hg; omega
    simp [hc, Nat.not_lt.2 (Nat.le_of_lt hg), Nat.not_lt.2 (Nat.succ_le_of_lt hg)]

/-! ## The test for DONE -/

/-- No cannon carries a run of the order. -/
theorem orderRuns_eq_nil (s : State) (k : Nat) :
    orderRuns s k = [] ↔ ∀ c, ∀ r ∈ s.run c, r.origin ≠ .order k := by
  unfold orderRuns
  rw [List.filter_eq_nil_iff]
  refine ⟨fun h c r hr => ?_, fun h c _ => ?_⟩
  · have := h c (List.mem_finRange c)
    rw [Option.mem_def.1 hr] at this
    simpa using this
  · cases hr : s.run c with
    | none => simp
    | some r => simpa using h c r hr

/-- All that the test for DONE can do (R131): close an order that has its volume and no run, with its notice
pending, or nothing. -/
theorem completeIfDone_cases (k : Nat) (s : State) :
    (∃ o, s.order k = some o ∧ o.VolumeMet ∧ (∀ c, ∀ r ∈ s.run c, r.origin ≠ .order k) ∧
      completeIfDone k s = post (.order k) (s.setOrder k (some (o.done s)))) ∨
    (completeIfDone k s = s ∧
      ∀ o ∈ s.order k, ¬(o.VolumeMet ∧ ∀ c, ∀ r ∈ s.run c, r.origin ≠ .order k)) := by
  unfold completeIfDone
  cases h : s.order k with
  | none => exact .inr ⟨rfl, by simp⟩
  | some o =>
    simp only [Option.isNone_iff_eq_none, orderRuns_eq_nil]
    split
    · rename_i hd
      obtain ⟨hk, hc, hv, hr⟩ := hd
      refine .inl ⟨o, rfl, ⟨hk, hc, hv⟩, hr, ?_⟩
      simp [announceClosure, hk, writeClosure, Order.done]
    · rename_i hd
      refine .inr ⟨rfl, fun x hx => ?_⟩
      obtain rfl : o = x := by simpa using hx
      rintro ⟨⟨hk, hc, hv⟩, hr⟩
      exact hd ⟨hk, hc, hv, hr⟩

end Sys2Proof.Machine
end

