-- ==== Sys2Proof/Tests/Slice0.lean ====
section
/-! SUPPORT. Tests of the model: the checks of WellFormed, the worked examples of the manual,
and for every statement that has hypotheses a state and operands that meet them. -/

namespace Sys2Proof.Tests

open Sys2Proof.Machine

/-! ## A small yard

One cannon in each of the nine states, water from pond 0, an order of each kind, an open episode. -/

def phaseOf (k : Nat) : CannonPhase :=
  [.idle, .pendingOpen, .opening, .spraying, .closePending, .closing, .faulted, .stuck, .locked].getD k .idle

def cannonOf (c : Fin 32) : Cannon :=
  if c.val < 9 then
    ⟨true, ⟨0, 100, none, 0, 0, 600, BitVec.allOnes 16⟩, phaseOf c.val,
      if c.val = 2 ∨ c.val = 5 then some 9 else none, if c.val = 7 then some 9 else none, false, false⟩
  else .reset

def runOf (c : Fin 32) : Option Run :=
  match c.val with
  | 0 => some ⟨0, .auto, some 1, 900, 100, .suspended .flow 1 7⟩
  | 1 => some ⟨0, .auto, some 1, 900, 0, .active .none none⟩
  | 2 => some ⟨0, .order 0, none, 900, 0, .active .none none⟩
  | 3 => some ⟨0, .order 0, none, 900, 850, .active .none (some 3)⟩
  | 4 => some ⟨0, .detached, none, 900, 300, .active .ends (some 4)⟩
  | 5 => some ⟨0, .auto, some 1, 900, 200, .active (.suspend .drift) none⟩
  | _ => none

def orderA : Order := ⟨1, .wet, 0, 10000, 0, 850, some 9, 1, some 90000, none⟩
def orderB : Order := ⟨2, .hold, 1, 0, 600, 0, some 9, 2, some 90000, none⟩
def orderC : Order := ⟨3, .wet, 0, 500, 0, 500, none, 3, some 90000, some ⟨.done, some 95000⟩⟩
def episodeA : Episode := ⟨1, 0, some 90000, some 95000, 400, 2, .sector 3, 4, none, false⟩
def configA : PileConfig := ⟨20, 5, 700, 70, 8000, some 1, .fill 16 14, 500⟩
def pileOf (p : Fin 24) : Pile :=
  if p.val < 3 then ⟨true, configA, 700, 10, 0, 0, p.val = 2, p.val = 1, none⟩ else .reset

/-- The yard in AUTO, its clock valid. -/
def yard : State :=
  { State.reset with
    pins := { Pins.reset with feedback := .make fun c => .settled (c.val = 3 ∨ c.val = 4 ∨ c.val = 5 ∨ c.val = 7) }
    yc := ⟨100000, true, some 1, 9⟩
    ft := ⟨[⟨100800, 80, 100, some 3, 1, 5⟩, ⟨104400, 80, 100, none, 1, 5⟩], some 99000⟩
    pau := ⟨9, .make pileOf⟩
    cc := ⟨.make cannonOf, [(1, .opens), (4, .closes)], some 9,
      .make fun m => if m.val = 0 then ⟨true, 1, 10, some 9, false⟩ else .reset⟩
    sd := ⟨.make runOf, [some orderA, some orderB, some orderC] ++ List.replicate 5 none,
      .make fun p => if p.val < 3 then ⟨0, 3⟩ else ⟨0, 3⟩, 1, 3, false⟩
    wiu := { Wiu.reset with
      ponds := .make fun p =>
        if p.val = 0 then ⟨true, ⟨200000, 0, 700, 0, 0, 1, 0, 5000⟩, 5000, true, none, 0, true, true⟩
        else if p.val = 1 then
          ⟨true, ⟨200000, 0, 700, 300, 100, 500, 1, 5000⟩, 5000, false, some 9, 40, true, true⟩
        else .reset p
      pump := ⟨.running, some (.pond 0), none⟩
      today := .empty (some 1) }
    bwu := { Bwu.reset with
      monitors := .make fun m =>
        if m.val = 0 then ⟨true, 300, 2, 60, some 400, some 95000, 0, some 0, false, some 9⟩
        else if m.val = 1 then ⟨true, 300, 2, 60, none, none, 0, none, false, some 9⟩
        else .reset
      episodes := some episodeA :: List.replicate 15 none
      nextId := 2 }
    mau := { Mau.reset with
      mode := .auto, cause := some .request
      alerts := { Alerts.reset with
        timeInvalid := .quiet
        valve := .make fun c => if c.val = 6 ∨ c.val = 7 then .latched else .quiet } }
    lc := { Lc.reset .r19200 with notices := [.order 2, .episode 0, .mode] }
    site := { Site.reset with gaugeFitted := true, machines := 1 } }

/-- A yard about to take a command. -/
def sent (i : Instr) (s : State) : State := { s with pending := [i] }

def withMode (m : Mode) (s : State) : State := s.setMode m none

def withPump (phase : PumpPhase) (s : State) : State := s.setPump { s.wiu.pump with phase := phase }

def withReply (r : Reply) (s : State) : State := s.setLc { s.lc with reply := some r }

def withLine (rx : RxState) (bytes : List Byte) (s : State) : State :=
  s.setLc { s.lc with rx := rx, buffer := bytes, gap := some 50 }

def withFeedback (c : Fin 32) (b : Bool) (s : State) : State :=
  s.setPins { s.pins with feedback := s.pins.feedback.set c (.settled b) }

def withRoom (n : Nat) (s : State) : State :=
  { s with mau := { s.mau with split := { s.mau.split with forecast := n } } }

def fullOrders (s : State) : State := { s with sd := { s.sd with orders := [some orderA, some orderB] } }

def closedEpisode (reported : Bool) (number : Nat) : Option Episode :=
  some { episodeA with closure := some ⟨.clear, none, number⟩, reported := reported }

def withEpisodes (l : List (Option Episode)) (s : State) : State :=
  { s with bwu := { s.bwu with episodes := l } }

def waiting : Reply := ⟨[1], false, 9, false⟩
def restarting : Reply := ⟨[1], true, 0, true⟩

def pileF : PileFields := ⟨300, 1, 60000, 10, 20000, 0xFF, List.replicate 16 24, 20000⟩
def cannonF : CannonFields := ⟨23, 1000, 1, 4000, 4000, 600, 65535⟩
def pondF : PondFields := ⟨500000000, 499999999, 5000, 500000, 86400, 10000000, 3, 500000000⟩
/-- The part after reset, with one order, CLOSED. -/
def closedYard : State := { State.reset with sd := { State.reset.sd with orders := [some orderC] } }

theorem closed_orders : ∀ k, ∀ o ∈ closedYard.order k, o.closure.isSome = true := by
  intro k o h
  match k with
  | 0 =>
    have e : orderC = o := by simpa [closedYard, State.order] using h
    exact e ▸ rfl
  | n + 1 => simp [closedYard, State.order] at h

/-- The defaults of file 00, with the gauge fitted. -/
def siteF : SiteFields :=
  ⟨0, 75, 0, 75, 0, 100, 1, 200, 0, 21600, 3, 4, 2, 20, 15, 30, 5, 8, 1, 60, 20, 600, 300, 2000, 0, 0, 45,
    120, 20, 5000000, 1000000⟩
def siteV : Site := { Site.reset with gaugeFitted := true, machines := 1 }
def slotF (start : Nat) : SlotFields := ⟨start, 80, 100, 3, 1⟩
def slotG (start issue : Nat) : Slot := ⟨start, 80, 100, some 3, 1, issue⟩

/-! ## The statements' hypotheses are met

In each theorem, one state and operands for each clause of the statement. -/

/-- A step that the yard takes. -/
theorem yard_steps : ∃ t, step (sent .bounceExpiry yard) = .next t := ⟨_, rfl⟩

theorem yard_valves : ValvesSound (sent .bounceExpiry yard) := by
  refine ⟨fun c => ?_, by decide, by decide, by decide⟩
  fin_cases c <;> repeat' (first | decide | refine And.intro ?_ ?_)

theorem yard_runs : RunsSound (sent .bounceExpiry yard) := by
  intro c
  fin_cases c <;> repeat' (first | exact rfl | decide | refine And.intro ?_ ?_)

theorem yard_orderNotices : OrderNoticesSound (sent .bounceExpiry yard) := by
  refine ⟨by decide, ?_, by decide⟩
  rintro n hn k rfl
  have h : k = 2 := by simpa [yard, sent] using hn
  subst h
  decide

theorem witness_StepTakesTheFrontCommand : ∃ (i : Instr) (rest : List Instr) (s : State),
    s.pending = i :: rest :=
  ⟨.bounceExpiry, [], sent .bounceExpiry yard, rfl⟩

theorem witness_IdleStepFollowsTheCrystal :
    (∃ s : State, s.pending = [] ∧ dueEvents s = []) ∧
    (∃ (s : State) (i : Instr), s.pending = [] ∧ dueEvents s = [i]) ∧
    (∃ s : State, s.pending = [] ∧ 2 ≤ (dueEvents s).length) :=
  ⟨⟨yard, by decide⟩, ⟨yard.setYc { yard.yc with second := 0 }, .secondEvent, by decide⟩,
    ⟨(yard.setYc { yard.yc with second := 0 }).setSlot (some 0), by decide⟩⟩

theorem witness_NoticesStayDistinct : ∃ s t, NoticesDistinct s ∧ step s = .next t :=
  ⟨sent .bounceExpiry yard, _, by decide, rfl⟩

theorem witness_ForecastTableStaysOrdered : ∃ s t, ForecastSound s ∧ step s = .next t :=
  ⟨sent .bounceExpiry yard, _, by decide, rfl⟩

theorem witness_SectorSumsStayTheRingsSums : ∃ s t, WindSumsSound s ∧ step s = .next t :=
  ⟨sent .bounceExpiry yard, _, by decide, rfl⟩

theorem witness_CannonRecordsStayConsistent : ∃ s t, ValvesSound s ∧ step s = .next t :=
  ⟨sent .bounceExpiry yard, _, yard_valves, rfl⟩

theorem witness_RunsStayOnTheirCannons : ∃ s t, ValvesSound s ∧ RunsSound s ∧ step s = .next t :=
  ⟨sent .bounceExpiry yard, _, yard_valves, yard_runs, rfl⟩

theorem witness_ReservedFlowStaysWithinCapacity :
    ∃ s t, ValvesSound s ∧ RunsSound s ∧ HeaderSound s ∧ step s = .next t :=
  ⟨sent .bounceExpiry yard, _, yard_valves, yard_runs, by decide, rfl⟩

theorem witness_WaterDrawnStaysWaterCounted :
    ∃ s t, WaterSound s ∧
    (∀ c p, s.wiu.today.fresh + (s.cannon c).config.flow < 2 ^ 48 ∧
      (s.wiu.today.ponds.get p).drawn + (s.cannon c).config.flow < 2 ^ 48 ∧
      s.wiu.today.delivered + (s.cannon c).config.flow < 2 ^ 48 ∧
      s.wiu.today.lost + (s.cannon c).config.flow < 2 ^ 48) ∧ step s = .next t :=
  ⟨sent .bounceExpiry yard, _, by decide, by decide, rfl⟩

theorem witness_ClosedOrdersKeepTheirNotices :
    ∃ s t, OrderNoticesSound s ∧ HoldsSound s ∧ step s = .next t :=
  ⟨sent .bounceExpiry yard, _, yard_orderNotices, by decide, rfl⟩

theorem witness_EscalationStaysTheOpenEpisodesUnion : ∃ s t, EscalationSound s ∧ step s = .next t :=
  ⟨sent .bounceExpiry yard, _, by decide, rfl⟩

theorem witness_MonitorsStayLinkedToTheirEpisodes : ∃ s t, EpisodesSound s ∧ step s = .next t :=
  ⟨sent .bounceExpiry yard, _, by decide, rfl⟩

theorem witness_StopAndModeStayObeyed : ∃ s t, step s = .next t ∧ StopObeyed s ∧ ModeSound s ∧
    OrdersObeyMode s :=
  ⟨sent .bounceExpiry closedYard, _, rfl, by decide, fun c => by
    show (closedYard.cannon c).phase ≠ .pendingOpen
    revert c
    decide, fun _ => closed_orders⟩

theorem witness_PumpKeepsAFitSource : ∃ s t, LevelsSound s ∧ PumpSound s ∧ step s = .next t :=
  ⟨sent .bounceExpiry yard, _, by decide, And.intro (by decide) (by decide), rfl⟩

theorem witness_LevelsStayInRange : ∃ s t, LevelsSound s ∧ step s = .next t :=
  ⟨sent .bounceExpiry yard, _, by decide, rfl⟩

theorem witness_AlertConditionsStayTheirOwners :
    (∃ s t, AlertsSound s ∧ step s = .next t) ∧
    (∃ (i : Instr) (e : AlertId) (s t : State), (∀ a b, i ≠ .powerOnReset a b) ∧
      (∀ tag, i ≠ .ackAlert tag e.kindCode e.objectCode) ∧
      (∀ b x, i = .receiveCharacter b x → s.lc.rx ≠ .trailer) ∧ (∀ r ∈ s.lc.reply, r.restart = false) ∧
      exec i s = .next t ∧ (s.mau.alerts.get e).latch = true ∧ AlertsSound s ∧ e ≠ .noWater ∧
      e ≠ .waterShort ∧ conditionOf t e = conditionOf s e) ∧
    (∃ (i : Instr) (e : AlertId) (s t : State), (∀ a b, i ≠ .powerOnReset a b) ∧
      (∀ tag, i ≠ .ackAlert tag e.kindCode e.objectCode) ∧
      (∀ b x, i = .receiveCharacter b x → s.lc.rx ≠ .trailer) ∧ (∀ r ∈ s.lc.reply, r.restart = false) ∧
      exec i s = .next t ∧ (s.mau.alerts.get e).latch = false ∧ (t.mau.alerts.get e).latch = true ∧
      (s.mau.alerts.get e).condition = false ∧ (t.mau.alerts.get e).condition = true) :=
  ⟨⟨sent .bounceExpiry yard, _, by decide, rfl⟩,
    ⟨.bounceExpiry, .windDegraded, State.reset, _, by simp, by simp, by simp, by decide, rfl, by decide,
      by decide, by decide, by decide, rfl⟩,
    ⟨.machineStaleExpiry 0, .machineStale 0, yard, _, by simp, by simp, by simp, by decide, rfl, by decide,
      by decide +kernel, by decide, by decide +kernel⟩⟩

theorem witness_WindChangesOnlyAtAGateExpiry : ∃ (i : Instr) (s t : State),
    (∀ v w, i ≠ .gateExpiry v w) ∧ (∀ a b, i ≠ .powerOnReset a b) ∧ exec i s = .next t :=
  ⟨.bounceExpiry, yard, _, by simp, by simp, rfl⟩

theorem witness_RefusedRequestChangesNothing :
    ∃ (i : Instr) (r : Request) (s : State) (why : Reason), encodeRequest i = some r ∧
      s.lc.reply = none ∧ answerOf i s = .refused why :=
  ⟨.poll 0 9, ⟨0x30, 0, [9]⟩, yard, .outOfRange, by decide, rfl, rfl⟩

theorem witness_RequestsSurviveTheLine : ∃ (i : Instr) (r : Request),
    i.WellFormed ∧ countsAgree i = true ∧ encodeRequest i = some r :=
  ⟨.setTime 255 0xFFFFFFFF, ⟨0x10, 255, [255, 255, 255, 255]⟩, by decide, by decide, by decide⟩

theorem witness_FramesAreTakenAsTheirRequests : ∃ (i : Instr) (r : Request) (s : State),
    i.WellFormed ∧ countsAgree i = true ∧ encodeRequest i = some r ∧ s.lc.rx = .hunt ∧
      s.lc.reply = none :=
  ⟨.ident 0, ⟨0x01, 0, []⟩, yard, by decide, by decide, by decide, by decide, by decide⟩

/-- A frame of kind K whose body is one byte too long, or whose count is wrong, but for its last byte. -/
def cut (kind : Nat) (body : List Byte) : State := withLine .trailer (frame kind 7 body).dropLast yard

theorem witness_BodyLengthsFollowTheTable :
    (∃ kind n : Nat, requestLength kind = some n) ∧
    (∃ (kind tag : Nat) (body : List Byte) (b : Byte) (s : State),
      kind < 256 ∧ tag < 256 ∧ body.length ≤ 512 ∧ (∃ n ∈ requestLength kind, body.length ≠ n) ∧
      s.lc.rx = .trailer ∧ s.lc.reply = none ∧ s.lc.buffer ++ [b] = frame kind tag body) ∧
    (∃ (tag : Nat) (body : List Byte) (b : Byte) (s : State),
      tag < 256 ∧ body.length ≤ 512 ∧ (body.length < 3 ∨ body.length ≠ 3 + field body 2 1) ∧
      s.lc.rx = .trailer ∧ s.lc.reply = none ∧ s.lc.buffer ++ [b] = frame 0x08 tag body) ∧
    (∃ (tag : Nat) (body : List Byte) (b : Byte) (s : State),
      tag < 256 ∧ body.length ≤ 512 ∧ (body.length < 9 ∨ body.length ≠ 9 + 10 * field body 8 1) ∧
      s.lc.rx = .trailer ∧ s.lc.reply = none ∧ s.lc.buffer ++ [b] = frame 0x11 tag body) ∧
    (∃ (i : Instr) (r : Request) (s t : State) (body : List Byte) (n : Nat), encodeRequest i = some r ∧
      answerOf i s = .accepted t body ∧ replyLength r.kind = some n) ∧
    (∃ (k : Nat) (s t : State) (body : List Byte), answerOf (.orderStatus 0 k) s = .accepted t body) ∧
    (∃ (n : Nat) (s t : State) (body : List Byte), answerOf (.poll 0 n) s = .accepted t body) :=
  ⟨⟨0x02, 57, rfl⟩,
    ⟨0x31, 7, [0, 0], (frame 0x31 7 [0, 0]).getLastD 0, cut 0x31 [0, 0], by decide +kernel⟩,
    ⟨7, [0, 0, 1], (frame 0x08 7 [0, 0, 1]).getLastD 0, cut 0x08 [0, 0, 1], by decide +kernel⟩,
    ⟨7, [], (frame 0x11 7 []).getLastD 0, cut 0x11 [], by decide +kernel⟩,
    ⟨.warmRestart 0, ⟨0x0A, 0, []⟩, yard, _, _, 0, rfl, rfl, rfl⟩, ⟨0, yard, _, _, rfl⟩, ⟨8, yard, _, _, rfl⟩⟩

/-- The premises of the clauses on the forecast questions. -/
theorem witness_ForecastAnswers :
    (∃ (f : Slot) (s : State), currentSlot s = some f) ∧ (∃ s : State, currentSlot s = none) ∧
    (∃ (list : List Slot) (gap : Bool) (s : State), lookAhead s = some (list, gap)) :=
  ⟨⟨_, yard.setYc ⟨100800, true, some 1, 9⟩, rfl⟩, ⟨State.reset, rfl⟩, ⟨_, _, yard, rfl⟩⟩

/-- The premise of the clause on the slot of a new episode, in each of its three cases. -/
theorem witness_EpisodeSlots :
    (∃ (k : Nat) (s : State), episodeSlot s = some k ∧ ∃ e ∈ s.bwu.episodes, e = none) ∧
    (∃ (k : Nat) (s : State), episodeSlot s = some k ∧ (¬ ∃ e ∈ s.bwu.episodes, e = none) ∧
      ∃ e ∈ s.bwu.episodes, ∃ y ∈ e, y.closure.isSome = true ∧ y.reported = true) ∧
    (∃ (k : Nat) (s : State), episodeSlot s = some k ∧ (¬ ∃ e ∈ s.bwu.episodes, e = none) ∧
      ¬ ∃ e ∈ s.bwu.episodes, ∃ y ∈ e, y.closure.isSome = true ∧ y.reported = true) :=
  ⟨⟨1, yard, by decide⟩,
    ⟨1, withEpisodes [closedEpisode false 4, closedEpisode true 6] yard, by decide⟩,
    ⟨1, withEpisodes [closedEpisode false 6, closedEpisode false 4] yard, by decide⟩⟩

/-- The premise of the last two clauses of the statement on acknowledgements. -/
theorem witness_AcknowledgedEntries :
    AlertsSound yard ∧
    (∃ (e : AlertId) (s : State), s.mau.alerts.get e = ⟨false, false, none⟩ ∧ conditionOf s e = true) :=
  ⟨by decide, .timeInvalid, yard.setYc ⟨0, false, none, 9⟩, by decide⟩

theorem witness_PulseAndRainEdgesAreCounted :
    (∃ (s : State),
      s.site.gaugeFitted = true ∧
      s.wfe.bounce = none) ∧
    (∃ (s : State),
      (s.site.gaugeFitted = false ∨ s.wfe.bounce ≠ none)) :=
  ⟨⟨yard, by decide⟩,
    ⟨State.reset, by decide⟩⟩

theorem witness_SecondEventAdvancesTheClock :
    (∃ (s : State),
      s.yc.valid = false) ∧
    (∃ (s : State),
      s.yc.valid = true) :=
  ⟨⟨State.reset, by decide⟩,
    ⟨yard, by decide⟩⟩

theorem witness_PumpIntervalsEndAsStated :
    (∃ (s : State),
      s.wiu.pump.phase = .priming) ∧
    (∃ (s : State),
      s.wiu.pump.phase = .changeover) ∧
    (∃ (s : State),
      s.wiu.pump.phase = .rundown ∧
      headerBusy s = false) :=
  ⟨⟨withPump .priming yard, by decide⟩,
    ⟨withPump .changeover yard, by decide⟩,
    ⟨withPump .rundown State.reset, by decide⟩⟩

theorem witness_PondSettlesAndIsReported :
    (∃ (p : Fin 4) (s : State),
      (s.pond p).settleCountdown ≠ none) ∧
    (∃ (p : Fin 4) (q v : Nat) (s : State),
      s.lc.reply = none ∧
      (s.pond p).configured = true ∧
      (q = 0 ∨ q = 1 ∨ q = 0xFF) ∧
      (v = 0 ∨ v = 1 ∨ v = 0xFF)) ∧
    (∃ (i q v : Nat) (s : State),
      s.lc.reply = none ∧
      (4 ≤ i ∨ (2 ≤ q ∧ q ≠ 0xFF) ∨ (2 ≤ v ∧ v ≠ 0xFF))) ∧
    (∃ (p : Fin 4) (q v : Nat) (s : State),
      s.lc.reply = none ∧
      (s.pond p).configured = false ∧
      (q = 0 ∨ q = 1 ∨ q = 0xFF) ∧
      (v = 0 ∨ v = 1 ∨ v = 0xFF)) :=
  ⟨⟨1, yard, by decide⟩,
    ⟨0, 0xFF, 1, yard, by decide⟩,
    ⟨4, 0, 0, yard, by decide⟩,
    ⟨3, 0, 0xFF, yard, by decide⟩⟩

theorem witness_WaterSecondsAreCountedEverywhere :
    (∃ (c : Fin 32) (r : Run) (d : Disposition) (n : Nat) (s : State),
      s.run c = some r ∧
      r.phase = .active d (some n) ∧
      ((s.cannon c).phase = .spraying ∨ (s.cannon c).phase = .closePending) ∧
      feedbackOpen s c = true) ∧
    (∃ (c : Fin 32) (r : Run) (d : Disposition) (n k : Nat) (o : Order) (s : State),
      s.run c = some r ∧
      r.phase = .active d (some n) ∧
      ((s.cannon c).phase = .spraying ∨ (s.cannon c).phase = .closePending) ∧
      feedbackOpen s c = true ∧
      r.origin = .order k ∧
      s.order k = some o ∧
      o.kind = .wet ∧
      o.closure = none ∧
      o.delivered < o.volume ∧
      o.volume ≤ o.delivered + (s.cannon c).config.flow) ∧
    (∃ (c : Fin 32) (s : State),
      (s.cannon c).phase = .stuck ∧
      (s.cannon c).lostWater ≠ none ∧
      (s.wiu.pump.phase = .running ∨ s.wiu.pump.phase = .rundown)) ∧
    (∃ (c : Fin 32) (s : State),
      (s.cannon c).lostWater ≠ none ∧
      s.wiu.pump.phase ≠ .running ∧
      s.wiu.pump.phase ≠ .rundown) :=
  ⟨⟨3, ⟨0, .order 0, none, 900, 850, .active .none (some 3)⟩, .none, 3, yard, by decide⟩,
    ⟨3, ⟨0, .order 0, none, 900, 850, .active .none (some 3)⟩, .none, 3, 0, { orderA with volume := 950 }, yard.setOrder 0 (some { orderA with volume := 950 }), by decide⟩,
    ⟨7, yard, by decide⟩,
    ⟨7, withPump .off yard, by decide⟩⟩

theorem witness_SlotExpiryIssuesTheOldestEntry :
    (∃ (s : State),
      s.cc.slot ≠ none ∧
      s.cc.queue = []) ∧
    (∃ (c : Fin 32) (rest : List (Fin 32 × Movement)) (s : State),
      s.cc.slot ≠ none ∧
      s.cc.queue = (c, .opens) :: rest ∧
      (s.cannon c).phase = .pendingOpen) ∧
    (∃ (c : Fin 32) (rest : List (Fin 32 × Movement)) (s : State),
      s.cc.slot ≠ none ∧
      s.cc.queue = (c, .closes) :: rest ∧
      (s.cannon c).phase = .closePending ∧
      feedbackOpen s c = true) ∧
    (∃ (c : Fin 32) (rest : List (Fin 32 × Movement)) (s : State),
      s.cc.slot ≠ none ∧
      s.cc.queue = (c, .closes) :: rest ∧
      (s.cannon c).phase = .opening ∧
      feedbackOpen s c = true) ∧
    (∃ (c : Fin 32) (rest : List (Fin 32 × Movement)) (s : State),
      s.cc.slot ≠ none ∧
      s.cc.queue = (c, .closes) :: rest ∧
      (s.cannon c).phase = .opening ∧
      feedbackOpen s c = false) :=
  ⟨⟨yard.setQueue [], by decide⟩,
    ⟨1, [(4, .closes)], yard, by decide⟩,
    ⟨4, [], yard.setQueue [(4, .closes)], by decide⟩,
    ⟨2, [], withFeedback 2 true (yard.setQueue [(2, .closes)]), by decide⟩,
    ⟨2, [], yard.setQueue [(2, .closes)], by decide⟩⟩

theorem witness_FeedbackIsJudgedByTheState :
    (∃ (c : Fin 32) (s : State),
      (s.cannon c).configured = true ∧
      (s.cannon c).phase = .opening ∧
      feedbackOpen s c = false) ∧
    (∃ (c : Fin 32) (s : State),
      (s.cannon c).configured = true ∧
      ((s.cannon c).phase = .idle ∨ (s.cannon c).phase = .pendingOpen ∨
          (s.cannon c).phase = .faulted) ∧
      feedbackOpen s c = false) ∧
    (∃ (c : Fin 32) (s : State),
      (s.cannon c).configured = true ∧
      ((s.cannon c).phase = .spraying ∨ (s.cannon c).phase = .closePending) ∧
      feedbackOpen s c = true) ∧
    (∃ (c : Fin 32) (s : State),
      (s.cannon c).configured = true ∧
      (s.cannon c).phase = .closing ∧
      feedbackOpen s c = true) ∧
    (∃ (c : Fin 32) (s : State),
      (s.cannon c).configured = true ∧
      (s.cannon c).phase = .closing ∧
      feedbackOpen s c = false) ∧
    (∃ (c : Fin 32) (s : State),
      (s.cannon c).configured = true ∧
      (s.cannon c).phase = .closing ∧
      feedbackOpen s c = false) ∧
    (∃ (c : Fin 32) (s : State),
      (s.cannon c).configured = true ∧
      (s.cannon c).phase = .stuck ∧
      feedbackOpen s c = true) ∧
    (∃ (c : Fin 32) (s : State),
      (s.cannon c).configured = true ∧
      (s.cannon c).phase = .locked ∧
      (s.cannon c).travel = none ∧
      feedbackOpen s c = false) ∧
    (∃ (c : Fin 32) (s : State),
      (s.cannon c).configured = true ∧
      (s.cannon c).phase = .locked ∧
      (s.cannon c).travel ≠ none ∧
      feedbackOpen s c = false) ∧
    (∃ (c : Fin 32) (s : State),
      (s.cannon c).configured = true ∧
      (s.cannon c).phase = .locked ∧
      feedbackOpen s c = true) ∧
    (∃ (c : Fin 32) (b : Bool) (s : State),
      ((s.cannon c).configured = false ∨ (feedbackOpen s c = b ∧ (b = true ∨
          (s.cannon c).phase ≠ .closing)))) :=
  ⟨⟨2, yard, by decide⟩,
    ⟨6, yard, by decide⟩,
    ⟨4, yard, by decide⟩,
    ⟨5, yard, by decide⟩,
    ⟨5, withFeedback 5 false yard, by decide⟩,
    ⟨5, withFeedback 5 false yard, by decide⟩,
    ⟨7, yard, by decide⟩,
    ⟨8, yard, by decide⟩,
    ⟨8, yard.setCannon 8 { yard.cannon 8 with travel := some 9 }, by decide⟩,
    ⟨8, withFeedback 8 true yard, by decide⟩,
    ⟨9, true, yard, by decide⟩⟩

theorem witness_TravelSupervisionFindsFaults :
    (∃ (c : Fin 32) (s : State),
      (s.cannon c).travel ≠ none ∧
      (s.cannon c).configured = true ∧
      (s.cannon c).phase = .opening ∧
      feedbackOpen s c = false) ∧
    (∃ (c : Fin 32) (s : State),
      (s.cannon c).travel ≠ none ∧
      (s.cannon c).configured = true ∧
      ((s.cannon c).phase = .closing ∨ (s.cannon c).phase = .locked) ∧
      feedbackOpen s c = true) ∧
    (∃ (c : Fin 32) (s : State),
      (s.cannon c).travel ≠ none ∧
      (s.cannon c).configured = true ∧
      (s.cannon c).phase = .closing ∧
      feedbackOpen s c = false) ∧
    (∃ (c : Fin 32) (s : State),
      (s.cannon c).travel ≠ none ∧
      (s.cannon c).configured = true ∧
      (s.cannon c).phase = .locked ∧
      feedbackOpen s c = false) :=
  ⟨⟨2, yard, by decide⟩,
    ⟨5, yard, by decide⟩,
    ⟨5, withFeedback 5 false yard, by decide⟩,
    ⟨8, yard.setCannon 8 { yard.cannon 8 with travel := some 9 }, by decide⟩⟩

theorem witness_MachinesExcludeCannons :
    (∃ (m : Fin 4) (s : State),
      (s.machine m).countdown ≠ none) ∧
    (∃ (m : Fin 4) (x : Nat) (s : State),
      s.lc.reply = none ∧
      m.val < s.site.machines ∧
      x ≤ 4000) ∧
    (∃ (m rail x : Nat) (s : State),
      s.lc.reply = none ∧
      (4 ≤ m ∨ 2 ≤ rail ∨ 4000 < x)) ∧
    (∃ (m : Fin 4) (rail x : Nat) (s : State),
      s.lc.reply = none ∧
      s.site.machines ≤ m.val ∧
      rail < 2 ∧
      x ≤ 4000) :=
  ⟨⟨0, yard, by decide⟩,
    ⟨0, 4000, yard, by decide⟩,
    ⟨0, 0, 4001, yard, by decide⟩,
    ⟨1, 1, 4000, yard, by decide⟩⟩

theorem witness_ResumeExpiryEndsTheRun :
    (∃ (c : Fin 32) (r : Run) (s : State),
      s.run c = some r ∧
      r.isSuspended = true) :=
  ⟨0, ⟨0, .auto, some 1, 900, 100, .suspended .flow 1 7⟩, yard, by decide⟩

theorem witness_OrdersCloseWithTheirNotice :
    (∃ (k : Nat) (o : Order) (s : State),
      s.order k = some o ∧
      o.kind = .wet ∧
      o.closure = none ∧
      o.countdown ≠ none) ∧
    (∃ (k : Nat) (o : Order) (s : State),
      s.order k = some o ∧
      o.kind = .hold ∧
      o.closure = none ∧
      o.countdown ≠ none) ∧
    (∃ (k : Nat) (o : Order) (s : State),
      s.lc.reply = none ∧
      s.order k = some o ∧
      o.closure = none ∧
      (∀ j < k, ∀ y ∈ s.order j, y.closure = none → y.tag ≠ o.tag)) ∧
    (∃ (x : Nat) (s : State),
      s.lc.reply = none ∧
      (∀ y ∈ s.sd.orders, ∀ r ∈ y, r.closure = none → r.tag ≠ x)) :=
  ⟨⟨0, orderA, yard, by decide⟩,
    ⟨1, orderB, yard, by decide⟩,
    ⟨1, orderB, yard, by decide⟩,
    ⟨3, yard, by decide⟩⟩

theorem witness_MonitorsGoSilentAndAreSetUp :
    (∃ (m : Fin 8) (s : State),
      (s.monitor m).countdown ≠ none ∧
      (s.monitor m).openEpisode = none) ∧
    (∃ (m : Fin 8) (k : Nat) (e : Episode) (s : State),
      (s.monitor m).countdown ≠ none ∧
      (s.monitor m).openEpisode = some k ∧
      s.episode k = some e ∧
      e.monitor = m) ∧
    (∃ (f : MonitorFields) (s : State),
      s.lc.reply = none ∧
      (1 ≤ f.limit ∧ f.limit ≤ 5000) ∧
      (1 ≤ f.holdOff ∧ f.holdOff ≤ 8) ∧
      (60 ≤ f.interval ∧ f.interval ≤ 3600)) ∧
    (∃ (m : Fin 8) (s : State),
      s.lc.reply = none ∧
      (s.monitor m).configured = true ∧
      (s.monitor m).openEpisode = none) ∧
    (∃ (m : Fin 8) (k : Nat) (e : Episode) (s : State),
      s.lc.reply = none ∧
      (s.monitor m).configured = true ∧
      (s.monitor m).openEpisode = some k ∧
      s.episode k = some e ∧
      e.monitor = m) ∧
    (∃ (m : Fin 8) (s : State),
      s.lc.reply = none ∧
      (s.monitor m).configured = false) ∧
    (∃ (i a : Nat) (f : MonitorFields) (s : State),
      s.lc.reply = none ∧
      (8 ≤ i ∨ 2 ≤ a ∨ (a = 0 ∧ (f.limit = 0 ∨ 5000 < f.limit ∨ f.holdOff = 0 ∨ 8 < f.holdOff ∨
        f.interval < 60 ∨ 3600 < f.interval)))) :=
  ⟨⟨1, yard, by decide⟩,
    ⟨0, 0, episodeA, yard, by decide⟩,
    ⟨⟨5000, 8, 3600⟩, yard, by decide⟩,
    ⟨1, yard, by decide⟩,
    ⟨0, 0, episodeA, yard, by decide⟩,
    ⟨2, yard, by decide⟩,
    ⟨0, 0, ⟨5001, 1, 60⟩, yard, by decide⟩⟩

theorem witness_StopLineTakesThePartToLockdown :
    (∃ (s : State),
      stopAsserted s = false ∧
      s.mau.mode ≠ .lockdown) ∧
    (∃ (s : State),
      s.mau.mode = .lockdown) :=
  ⟨⟨yard, by decide⟩,
    ⟨withMode .lockdown yard, by decide⟩⟩

theorem witness_ReceiverKeepsDropsAndIgnores :
    (∃ (s : State),
      s.lc.rx = .hunt) ∧
    (∃ (b : Byte) (s : State),
      s.lc.rx = .hunt ∧
      b ≠ 0xA5) ∧
    (∃ (s : State),
      s.lc.rx = .hunt) ∧
    (∃ (s : State),
      s.lc.rx = .taking) ∧
    (∃ (s : State),
      (s.lc.rx = .header ∨ s.lc.rx = .body ∨ s.lc.rx = .trailer)) ∧
    (∃ (b : Byte) (s : State),
      s.lc.rx = .header ∧
      s.lc.buffer.length = 4 ∧
      512 < field (s.lc.buffer ++ [b]) 3 2) ∧
    (∃ (b : Byte) (s : State),
      s.lc.rx = .trailer ∧
      s.lc.buffer.length = field s.lc.buffer 3 2 + 6 ∧
      field (s.lc.buffer ++ [b]) (field s.lc.buffer 3 2 + 5) 2 ≠ field s.lc.buffer 3 2 + 5) ∧
    (∃ (b : Byte) (s : State),
      s.lc.rx = .trailer ∧
      s.lc.buffer.length = field s.lc.buffer 3 2 + 8 ∧
      crcField ((s.lc.buffer.drop 1).take (field s.lc.buffer 3 2 + 6)) ≠ (s.lc.buffer ++
          [b]).drop (field s.lc.buffer 3 2 + 7)) ∧
    (∃ (s : State),
      s.lc.rx = .header ∧
      s.lc.buffer.length < 4) ∧
    (∃ (b : Byte) (s : State),
      s.lc.rx = .header ∧
      s.lc.buffer.length = 4 ∧
      field (s.lc.buffer ++ [b]) 3 2 ≤ 512) ∧
    (∃ (s : State),
      s.lc.rx = .body) ∧
    (∃ (b : Byte) (s : State),
      s.lc.rx = .trailer ∧
      s.lc.buffer.length + 1 < field (s.lc.buffer ++ [b]) 3 2 + 9 ∧
      s.lc.buffer.length + 1 ≠ field (s.lc.buffer ++ [b]) 3 2 + 7) ∧
    (∃ (b : Byte) (s : State),
      s.lc.rx = .trailer ∧
      s.lc.buffer.length + 1 = field (s.lc.buffer ++ [b]) 3 2 + 7 ∧
      field (s.lc.buffer ++ [b]) (field (s.lc.buffer ++ [b]) 3 2 + 5) 2 = field (s.lc.buffer ++
          [b]) 3 2 + 5) :=
  ⟨⟨yard, by decide⟩,
    ⟨0xA4, yard, by decide⟩,
    ⟨yard, by decide⟩,
    ⟨withLine .taking [] yard, by decide⟩,
    ⟨withLine .body [0xA5, 0x31, 0, 1, 0] yard, by decide⟩,
    ⟨2, withLine .header [0xA5, 0x31, 0, 1] yard, by decide⟩,
    ⟨1, withLine .trailer [0xA5, 0x31, 0, 0, 0, 5] yard, by decide⟩,
    ⟨0, withLine .trailer [0xA5, 0x31, 0, 0, 0, 5, 0, 0] yard, by decide +kernel⟩,
    ⟨withLine .header [0xA5] yard, by decide⟩,
    ⟨2, withLine .header [0xA5, 0x31, 0, 0] yard, by decide⟩,
    ⟨withLine .body [0xA5, 0x31, 0, 1, 0] yard, by decide⟩,
    ⟨5, withLine .trailer [0xA5, 0x31, 0, 0, 0] yard, by decide⟩,
    ⟨0, withLine .trailer [0xA5, 0x31, 0, 0, 0, 5] yard, by decide⟩⟩

theorem witness_LineIntervalsAndPowerOn :
    (∃ (s : State),
      s.lc.gap ≠ none) ∧
    (∃ (r : Reply) (s : State),
      s.lc.reply = some r ∧
      r.sending = false) ∧
    (∃ (r : Reply) (s : State),
      s.lc.reply = some r ∧
      r.restart = false) :=
  ⟨⟨withLine .body [0xA5, 0x31, 0, 1, 0] yard, by decide⟩,
    ⟨waiting, withReply waiting yard, by decide⟩,
    ⟨waiting, withReply waiting yard, by decide⟩⟩

theorem witness_WarmRestartFollowsItsReply :
    (∃ (s : State),
      s.lc.reply = none) ∧
    (∃ (r : Reply) (s : State),
      s.lc.reply = some r ∧
      r.restart = true) :=
  ⟨⟨yard, by decide⟩,
    ⟨restarting, withReply restarting yard, by decide⟩⟩

theorem witness_StatusRequestsChangeNothing :
    (∃ (s : State),
      s.lc.reply = none) ∧
    (∃ (s : State),
      s.lc.reply = none) ∧
    (∃ (s : State),
      s.lc.reply = none) ∧
    (∃ (p : Fin 24) (s : State),
      s.lc.reply = none ∧
      (s.pile p).configured = true) ∧
    (∃ (c : Fin 32) (s : State),
      s.lc.reply = none ∧
      (s.cannon c).configured = true) ∧
    (∃ (k : Nat) (s : State),
      s.lc.reply = none ∧
      k < s.bwu.episodes.length) ∧
    (∃ (k : Nat) (s : State),
      s.lc.reply = none ∧
      k < s.sd.orders.length) ∧
    (∃ (n : Nat) (s : State),
      s.lc.reply = none ∧
      24 ≤ n) ∧
    (∃ (p : Fin 24) (s : State),
      s.lc.reply = none ∧
      (s.pile p).configured = false) ∧
    (∃ (n : Nat) (s : State),
      s.lc.reply = none ∧
      32 ≤ n) ∧
    (∃ (c : Fin 32) (s : State),
      s.lc.reply = none ∧
      (s.cannon c).configured = false) ∧
    (∃ (n : Nat) (s : State),
      s.lc.reply = none ∧
      s.bwu.episodes.length ≤ n) ∧
    (∃ (n : Nat) (s : State),
      s.lc.reply = none ∧
      s.sd.orders.length ≤ n) ∧
    (∃ (s : State),
      s.lc.reply = none) :=
  ⟨⟨yard, by decide⟩,
    ⟨yard, by decide⟩,
    ⟨yard, by decide⟩,
    ⟨2, yard, by decide⟩,
    ⟨8, yard, by decide⟩,
    ⟨15, yard, by decide⟩,
    ⟨7, yard, by decide⟩,
    ⟨24, yard, by decide⟩,
    ⟨3, yard, by decide⟩,
    ⟨32, yard, by decide⟩,
    ⟨9, yard, by decide⟩,
    ⟨16, yard, by decide⟩,
    ⟨8, yard, by decide⟩,
    ⟨yard, by decide⟩⟩

theorem witness_SetTimeSetsTestsAndPurges :
    (∃ (x : Nat) (s : State),
      s.lc.reply = none ∧
      x < 0xFFFFFFFF) ∧
    (∃ (s : State),
      s.lc.reply = none) :=
  ⟨⟨0xFFFFFFFE, yard, by decide⟩,
    ⟨yard, by decide⟩⟩

theorem witness_ForecastSlotsAreJudgedAndStored :
    (∃ (x : Nat) (fs : List SlotFields) (s : State),
      s.lc.reply = none ∧
      s.yc.valid = true ∧
      (1 ≤ fs.length ∧ fs.length ≤ 12) ∧
      x < 0xFFFFFFFF) ∧
    (∃ (issue x : Nat) (f : SlotFields) (g : Slot) (s : State),
      s.lc.reply = none ∧
      s.yc.valid = true ∧
      x < 0xFFFFFFFF ∧
      slot? issue f = some g ∧
      s.yc.time < g.start + 3600 ∧
      (∃ h ∈ s.ft.slots, h.start = g.start ∧ g.issue < h.issue) ∧
      (s.ft.slots.map Slot.start).Nodup) ∧
    (∃ (issue x : Nat) (f : SlotFields) (g : Slot) (s : State),
      s.lc.reply = none ∧
      s.yc.valid = true ∧
      x < 0xFFFFFFFF ∧
      slot? issue f = some g ∧
      s.yc.time < g.start + 3600 ∧
      (∀ h ∈ s.ft.slots, h.start = g.start → h.issue ≤ g.issue) ∧
      (s.ft.slots.length < s.mau.split.forecast ∨ ∃ h ∈ s.ft.slots, h.start = g.start)) ∧
    (∃ (issue x : Nat) (f : SlotFields) (g : Slot) (s : State),
      s.lc.reply = none ∧
      s.yc.valid = true ∧
      x < 0xFFFFFFFF ∧
      slot? issue f = some g ∧
      s.yc.time < g.start + 3600 ∧
      (∀ h ∈ s.ft.slots, h.start ≠ g.start) ∧
      s.mau.split.forecast ≤ s.ft.slots.length ∧
      (∃ h ∈ s.ft.slots, g.start < h.start)) ∧
    (∃ (issue x : Nat) (f : SlotFields) (g : Slot) (s : State),
      s.lc.reply = none ∧
      s.yc.valid = true ∧
      x < 0xFFFFFFFF ∧
      slot? issue f = some g ∧
      s.yc.time < g.start + 3600 ∧
      (∀ h ∈ s.ft.slots, h.start < g.start) ∧
      s.mau.split.forecast ≤ s.ft.slots.length) ∧
    (∃ (x : Nat) (f : SlotFields) (s : State),
      s.lc.reply = none ∧
      s.yc.valid = true ∧
      x < 0xFFFFFFFF ∧
      (f.start % 3600 ≠ 0 ∨ 600 < f.mean ∨ f.gust < f.mean ∨ 600 < f.gust ∨ 16 < f.sector ∨
          3 < f.dryingClass)) ∧
    (∃ (issue x : Nat) (f : SlotFields) (g : Slot) (s : State),
      s.lc.reply = none ∧
      s.yc.valid = true ∧
      x < 0xFFFFFFFF ∧
      slot? issue f = some g ∧
      g.start + 3600 ≤ s.yc.time) ∧
    (∃ (s : State),
      s.lc.reply = none ∧
      s.yc.valid = false) ∧
    (∃ (x : Nat) (fs : List SlotFields) (s : State),
      s.lc.reply = none ∧
      s.yc.valid = true ∧
      (fs.length = 0 ∨ 12 < fs.length ∨ x = 0xFFFFFFFF)) :=
  ⟨⟨0xFFFFFFFE, List.replicate 12 (slotF 100800), yard, by decide⟩,
    ⟨4, 99000, slotF 100800, slotG 100800 4, yard, by decide⟩,
    ⟨5, 99000, slotF 100800, slotG 100800 5, yard, by decide⟩,
    ⟨6, 99000, slotF 97200, slotG 97200 6, withRoom 2 yard, by decide⟩,
    ⟨6, 99000, slotF 108000, slotG 108000 6, withRoom 2 yard, by decide⟩,
    ⟨99000, { slotF 100800 with mean := 101 }, yard, by decide⟩,
    ⟨6, 99000, slotF 90000, slotG 90000 6, yard, by decide⟩,
    ⟨State.reset, by decide⟩,
    ⟨99000, List.replicate 13 (slotF 0), yard, by decide⟩⟩

theorem witness_ReadingsOpenUpdateAndCloseEpisodes :
    (∃ (m : Fin 8) (v : Nat) (s : State),
      s.lc.reply = none ∧
      (s.monitor m).configured = true ∧
      v ≤ 65535 ∧
      (s.monitor m).openEpisode = none ∧
      v ≤ (s.monitor m).limit) ∧
    (∃ (m : Fin 8) (v k : Nat) (s : State),
      s.lc.reply = none ∧
      (s.monitor m).configured = true ∧
      v ≤ 65535 ∧
      (s.monitor m).openEpisode = none ∧
      (s.monitor m).limit < v ∧
      episodeSlot s = some k) ∧
    (∃ (m : Fin 8) (v k : Nat) (e : Episode) (s : State),
      s.lc.reply = none ∧
      (s.monitor m).configured = true ∧
      v ≤ 65535 ∧
      (s.monitor m).openEpisode = some k ∧
      s.episode k = some e ∧
      e.monitor = m ∧
      (s.monitor m).limit < v) ∧
    (∃ (m : Fin 8) (v k : Nat) (e : Episode) (s : State),
      s.lc.reply = none ∧
      (s.monitor m).configured = true ∧
      v ≤ 65535 ∧
      (s.monitor m).openEpisode = some k ∧
      s.episode k = some e ∧
      e.monitor = m ∧
      v ≤ (s.monitor m).limit ∧
      (s.monitor m).belowRun + 1 < (s.monitor m).holdOff ∧
      (s.monitor m).holdOff ≤ 8) ∧
    (∃ (m : Fin 8) (v k : Nat) (e : Episode) (s : State),
      s.lc.reply = none ∧
      (s.monitor m).configured = true ∧
      v ≤ 65535 ∧
      (s.monitor m).openEpisode = some k ∧
      s.episode k = some e ∧
      e.monitor = m ∧
      v ≤ (s.monitor m).limit ∧
      (s.monitor m).holdOff ≤ (s.monitor m).belowRun + 1 ∧
      (s.monitor m).holdOff ≤ 8) ∧
    (∃ (n : Nat) (s : State),
      s.lc.reply = none ∧
      8 ≤ n) ∧
    (∃ (m : Fin 8) (v : Nat) (s : State),
      s.lc.reply = none ∧
      (s.monitor m).configured = false ∧
      v ≤ 65535) :=
  ⟨⟨1, 300, yard, by decide⟩,
    ⟨1, 65535, 1, yard, by decide⟩,
    ⟨0, 301, 0, episodeA, yard, by decide⟩,
    ⟨0, 300, 0, episodeA, yard, by decide⟩,
    ⟨0, 300, 0, episodeA, yard.setMonitor 0 { yard.monitor 0 with belowRun := 1 }, by decide⟩,
    ⟨8, yard, by decide⟩,
    ⟨2, 0, yard, by decide⟩⟩

theorem witness_IdentGivesTheIdentity :
    (∃ (s : State),
      s.lc.reply = none) :=
  ⟨yard, by decide⟩

theorem witness_MastServiceAndAttribActOnOneObject :
    (∃ (m : Fin 2) (s : State),
      s.lc.reply = none ∧
      fitted s m = true) ∧
    (∃ (m : Fin 2) (s : State),
      s.lc.reply = none ∧
      fitted s m = true) ∧
    (∃ (m a : Nat) (s : State),
      s.lc.reply = none ∧
      (2 ≤ m ∨ 2 ≤ a)) ∧
    (∃ (a : Nat) (s : State),
      s.lc.reply = none ∧
      s.site.mast1Fitted = false ∧
      a < 2) ∧
    (∃ (ps : List (Fin 24)) (s : State),
      s.lc.reply = none ∧
      ps.length ≤ 12) ∧
    (∃ (m n : Nat) (ps : List Nat) (s : State),
      s.lc.reply = none ∧
      (8 ≤ m ∨ 16 ≤ n ∨ 12 < ps.length ∨ ∃ p ∈ ps, 24 ≤ p)) ∧
    (∃ (k : Nat) (ps : List Nat) (s : State),
      s.lc.reply = none ∧
      k ≠ ps.length) :=
  ⟨⟨0, yard, by decide⟩,
    ⟨0, yard, by decide⟩,
    ⟨2, 0, yard, by decide⟩,
    ⟨1, yard, by decide⟩,
    ⟨List.replicate 12 23, yard, by decide⟩,
    ⟨0, 0, [24], yard, by decide⟩,
    ⟨1, [], yard, by decide⟩⟩

theorem witness_WetOrdersAreJudgedEnteredAndServed :
    (∃ (o : Nat) (p : Fin 24) (v x k : Nat) (s : State),
      s.lc.reply = none ∧
      (s.mau.mode = .auto ∨ s.mau.mode = .manual) ∧
      (1 ≤ v ∧ v ≤ 10000000) ∧
      x ≤ 86400 ∧
      (s.pile p).configured = true ∧
      (s.pile p).hold = false ∧
      (∀ y ∈ s.sd.orders, ∀ r ∈ y, r.tag ≠ o) ∧
      k < s.sd.orders.length ∧
      s.order k = none ∧
      (∀ j < k, (s.order j).isSome = true)) ∧
    (∃ (s : State),
      s.lc.reply = none ∧
      s.mau.mode = .standby) ∧
    (∃ (s : State),
      s.lc.reply = none ∧
      s.mau.mode = .lockdown) ∧
    (∃ (p v x : Nat) (s : State),
      s.lc.reply = none ∧
      (s.mau.mode = .auto ∨ s.mau.mode = .manual) ∧
      (24 ≤ p ∨ v = 0 ∨ 10000000 < v ∨ 86400 < x)) ∧
    (∃ (p : Fin 24) (v x : Nat) (s : State),
      s.lc.reply = none ∧
      (s.mau.mode = .auto ∨ s.mau.mode = .manual) ∧
      (1 ≤ v ∧ v ≤ 10000000) ∧
      x ≤ 86400 ∧
      (s.pile p).configured = false) ∧
    (∃ (p : Fin 24) (v x : Nat) (s : State),
      s.lc.reply = none ∧
      (s.mau.mode = .auto ∨ s.mau.mode = .manual) ∧
      (1 ≤ v ∧ v ≤ 10000000) ∧
      x ≤ 86400 ∧
      (s.pile p).configured = true ∧
      (s.pile p).hold = true) ∧
    (∃ (o : Nat) (p : Fin 24) (v x : Nat) (s : State),
      s.lc.reply = none ∧
      (s.mau.mode = .auto ∨ s.mau.mode = .manual) ∧
      (1 ≤ v ∧ v ≤ 10000000) ∧
      x ≤ 86400 ∧
      (s.pile p).configured = true ∧
      (s.pile p).hold = false ∧
      (∃ y ∈ s.sd.orders, ∃ r ∈ y, r.tag = o)) ∧
    (∃ (o : Nat) (p : Fin 24) (v x : Nat) (s : State),
      s.lc.reply = none ∧
      (s.mau.mode = .auto ∨ s.mau.mode = .manual) ∧
      (1 ≤ v ∧ v ≤ 10000000) ∧
      x ≤ 86400 ∧
      (s.pile p).configured = true ∧
      (s.pile p).hold = false ∧
      (∀ y ∈ s.sd.orders, ∀ r ∈ y, r.tag ≠ o) ∧
      (∀ y ∈ s.sd.orders, y.isSome = true)) :=
  ⟨⟨4, 0, 10000000, 86400, 3, yard, by decide⟩,
    ⟨State.reset, by decide⟩,
    ⟨withMode .lockdown yard, by decide⟩,
    ⟨0, 10000001, 0, yard, by decide⟩,
    ⟨3, 1, 0, yard, by decide⟩,
    ⟨1, 1, 0, yard, by decide⟩,
    ⟨3, 0, 1, 0, yard, by decide⟩,
    ⟨4, 0, 1, 0, fullOrders yard, by decide⟩⟩

theorem witness_HoldOrdersSupersedeAndEndAutoRuns :
    (∃ (o : Nat) (p : Fin 24) (d k : Nat) (s : State),
      s.lc.reply = none ∧
      s.mau.mode ≠ .standby ∧
      (1 ≤ d ∧ d ≤ 86400) ∧
      (s.pile p).configured = true ∧
      (∀ y ∈ s.sd.orders, ∀ r ∈ y, r.tag ≠ o) ∧
      k < s.sd.orders.length ∧
      s.order k = none ∧
      (∀ j < k, (s.order j).isSome = true)) ∧
    (∃ (s : State),
      s.lc.reply = none ∧
      s.mau.mode = .standby) ∧
    (∃ (p d : Nat) (s : State),
      s.lc.reply = none ∧
      s.mau.mode ≠ .standby ∧
      (24 ≤ p ∨ d = 0 ∨ 86400 < d)) ∧
    (∃ (p : Fin 24) (d : Nat) (s : State),
      s.lc.reply = none ∧
      s.mau.mode ≠ .standby ∧
      (1 ≤ d ∧ d ≤ 86400) ∧
      (s.pile p).configured = false) ∧
    (∃ (o : Nat) (p : Fin 24) (d : Nat) (s : State),
      s.lc.reply = none ∧
      s.mau.mode ≠ .standby ∧
      (1 ≤ d ∧ d ≤ 86400) ∧
      (s.pile p).configured = true ∧
      (∃ y ∈ s.sd.orders, ∃ r ∈ y, r.tag = o)) ∧
    (∃ (o : Nat) (p : Fin 24) (d : Nat) (s : State),
      s.lc.reply = none ∧
      s.mau.mode ≠ .standby ∧
      (1 ≤ d ∧ d ≤ 86400) ∧
      (s.pile p).configured = true ∧
      (∀ y ∈ s.sd.orders, ∀ r ∈ y, r.tag ≠ o) ∧
      (∀ y ∈ s.sd.orders, y.isSome = true)) :=
  ⟨⟨4, 0, 86400, 3, yard, by decide⟩,
    ⟨State.reset, by decide⟩,
    ⟨0, 86401, yard, by decide⟩,
    ⟨3, 1, yard, by decide⟩,
    ⟨3, 0, 1, yard, by decide⟩,
    ⟨4, 0, 1, fullOrders yard, by decide⟩⟩

theorem witness_CannonServiceLocksAndUnlocks :
    (∃ (c : Fin 32) (s : State),
      s.lc.reply = none ∧
      (s.cannon c).configured = true ∧
      (s.cannon c).phase ≠ .stuck ∧
      (s.cannon c).phase ≠ .locked) ∧
    (∃ (c : Fin 32) (s : State),
      s.lc.reply = none ∧
      (s.cannon c).configured = true ∧
      (s.cannon c).phase = .locked) ∧
    (∃ (c : Fin 32) (s : State),
      s.lc.reply = none ∧
      (s.cannon c).configured = true ∧
      ((s.cannon c).phase = .locked ∨ (s.cannon c).phase = .faulted) ∧
      feedbackOpen s c = false) ∧
    (∃ (c : Fin 32) (s : State),
      s.lc.reply = none ∧
      (s.cannon c).configured = true ∧
      ((s.cannon c).phase = .locked ∨ (s.cannon c).phase = .faulted) ∧
      feedbackOpen s c = true) ∧
    (∃ (c a : Nat) (s : State),
      s.lc.reply = none ∧
      (32 ≤ c ∨ 2 ≤ a)) ∧
    (∃ (c : Fin 32) (a : Nat) (s : State),
      s.lc.reply = none ∧
      (s.cannon c).configured = false ∧
      a < 2) ∧
    (∃ (c : Fin 32) (s : State),
      s.lc.reply = none ∧
      (s.cannon c).configured = true ∧
      (s.cannon c).phase = .stuck) ∧
    (∃ (c : Fin 32) (s : State),
      s.lc.reply = none ∧
      (s.cannon c).configured = true ∧
      (s.cannon c).phase ≠ .locked ∧
      (s.cannon c).phase ≠ .faulted) :=
  ⟨⟨5, yard, by decide⟩,
    ⟨8, yard, by decide⟩,
    ⟨8, yard, by decide⟩,
    ⟨6, withFeedback 6 true yard, by decide⟩,
    ⟨32, 0, yard, by decide⟩,
    ⟨9, 1, yard, by decide⟩,
    ⟨7, yard, by decide⟩,
    ⟨3, yard, by decide⟩⟩

theorem witness_AcknowledgementsClearLatchesNotConditions :
    (∃ (e : AlertId) (s : State),
      s.lc.reply = none ∧
      (s.mau.alerts.get e).condition = false) ∧
    (∃ (e : AlertId) (s : State),
      s.lc.reply = none ∧
      (s.mau.alerts.get e).condition = true) ∧
    (∃ (k x : Nat) (s : State),
      s.lc.reply = none ∧
      (k = 0 ∨ 9 < k ∨ (k = 1 ∧ 2 ≤ x) ∨ (2 ≤ k ∧ k ≤ 6 ∧ 1 ≤ x) ∨ (k = 7 ∧ 32 ≤ x) ∨
      (k = 8 ∧ 8 ≤ x) ∨ (k = 9 ∧ 4 ≤ x))) :=
  ⟨⟨.timeInvalid, yard, by decide⟩,
    ⟨.waterShort, yard, by decide⟩,
    ⟨9, 4, yard, by decide⟩⟩

theorem witness_PollDeliversTheOldestNotices :
    (∃ (n : Nat) (s : State),
      s.lc.reply = none ∧
      (1 ≤ n ∧ n ≤ 8) ∧
      NoticesDistinct s) ∧
    (∃ (n : Nat) (s : State),
      s.lc.reply = none ∧
      (n = 0 ∨ 8 < n)) :=
  ⟨⟨8, yard, by decide⟩,
    ⟨9, yard, by decide⟩⟩

theorem witness_PileSetupWritesOneRecord :
    (∃ (f : PileFields) (k : PileConfig) (s : State),
      s.lc.reply = none ∧
      s.mau.mode = .standby ∧
      pileConfig? f = some k) ∧
    (∃ (p : Fin 24) (s : State),
      s.lc.reply = none ∧
      s.mau.mode = .standby ∧
      (s.pile p).configured = true) ∧
    (∃ (p : Fin 24) (s : State),
      s.lc.reply = none ∧
      s.mau.mode = .standby ∧
      (s.pile p).configured = false) ∧
    (∃ (s : State),
      s.lc.reply = none ∧
      s.mau.mode ≠ .standby) ∧
    (∃ (i a : Nat) (f : PileFields) (s : State),
      s.lc.reply = none ∧
      s.mau.mode = .standby ∧
      (24 ≤ i ∨ 2 ≤ a ∨ (a = 0 ∧ pileConfig? f = none))) :=
  ⟨⟨pileF, ⟨300, 1, 60000, 10, 20000, none, .fill 16 24, 20000⟩, State.reset, by decide⟩,
    ⟨2, withMode .standby yard, by decide⟩,
    ⟨3, withMode .standby yard, by decide⟩,
    ⟨yard, by decide⟩,
    ⟨0, 0, { pileF with t0 := 301 }, State.reset, by decide⟩⟩

theorem witness_CannonSetupJudgesTheCannonAtOnce :
    (∃ (c : Fin 32) (f : CannonFields) (k : CannonConfig) (s : State),
      s.lc.reply = none ∧
      s.mau.mode = .standby ∧
      (s.cannon c).phase.reserves = false ∧
      cannonConfig? f = some k ∧
      (feedbackOpen s c = false ∨ ((s.cannon c).configured = true ∧ (s.cannon c).phase ≠ .idle))) ∧
    (∃ (c : Fin 32) (f : CannonFields) (k : CannonConfig) (s : State),
      s.lc.reply = none ∧
      s.mau.mode = .standby ∧
      (s.cannon c).phase.reserves = false ∧
      cannonConfig? f = some k ∧
      feedbackOpen s c = true ∧
      ((s.cannon c).configured = false ∨ (s.cannon c).phase = .idle)) ∧
    (∃ (c : Fin 32) (s : State),
      s.lc.reply = none ∧
      s.mau.mode = .standby ∧
      (s.cannon c).phase.reserves = false ∧
      (s.cannon c).configured = true) ∧
    (∃ (c : Fin 32) (s : State),
      s.lc.reply = none ∧
      s.mau.mode = .standby ∧
      (s.cannon c).phase.reserves = false ∧
      (s.cannon c).configured = false) ∧
    (∃ (s : State),
      s.lc.reply = none ∧
      s.mau.mode ≠ .standby) ∧
    (∃ (i a : Nat) (f : CannonFields) (s : State),
      s.lc.reply = none ∧
      s.mau.mode = .standby ∧
      (32 ≤ i ∨ 2 ≤ a ∨ (a = 0 ∧ cannonConfig? f = none))) ∧
    (∃ (c : Fin 32) (a : Nat) (f : CannonFields) (s : State),
      s.lc.reply = none ∧
      s.mau.mode = .standby ∧
      (s.cannon c).phase.reserves = true ∧
      (a = 1 ∨ (a = 0 ∧ cannonConfig? f ≠ none))) :=
  ⟨⟨31, cannonF, ⟨23, 1000, some 1, 4000, 4000, 600, 65535⟩, State.reset, by decide⟩,
    ⟨31, cannonF, ⟨23, 1000, some 1, 4000, 4000, 600, 65535⟩, withFeedback 31 true State.reset, by decide⟩,
    ⟨8, withMode .standby yard, by decide⟩,
    ⟨9, withMode .standby yard, by decide⟩,
    ⟨yard, by decide⟩,
    ⟨32, 0, cannonF, State.reset, by decide⟩,
    ⟨5, 1, cannonF, withMode .standby yard, by decide⟩⟩

theorem witness_PondSetupWritesOneRecord :
    (∃ (p : Fin 4) (f : PondFields) (k : PondConfig) (s : State),
      s.lc.reply = none ∧
      s.mau.mode = .standby ∧
      pondConfig? f = some k ∧
      (∀ q, q ≠ p → (s.pond q).configured = true → (s.pond q).config.priority ≠ k.priority) ∧
      (s.wiu.pump.source ≠ some (.pond p) ∨ s.wiu.pump.phase = .off)) ∧
    (∃ (p : Fin 4) (s : State),
      s.lc.reply = none ∧
      s.mau.mode = .standby ∧
      (s.wiu.pump.source ≠ some (.pond p) ∨ s.wiu.pump.phase = .off) ∧
      (s.pond p).configured = true) ∧
    (∃ (p : Fin 4) (s : State),
      s.lc.reply = none ∧
      s.mau.mode = .standby ∧
      (s.wiu.pump.source ≠ some (.pond p) ∨ s.wiu.pump.phase = .off) ∧
      (s.pond p).configured = false) ∧
    (∃ (s : State),
      s.lc.reply = none ∧
      s.mau.mode ≠ .standby) ∧
    (∃ (i a : Nat) (f : PondFields) (s : State),
      s.lc.reply = none ∧
      s.mau.mode = .standby ∧
      (4 ≤ i ∨ 2 ≤ a ∨ (a = 0 ∧ pondConfig? f = none))) ∧
    (∃ (p q : Fin 4) (f : PondFields) (s : State),
      s.lc.reply = none ∧
      s.mau.mode = .standby ∧
      q ≠ p ∧
      (s.pond q).configured = true ∧
      (s.pond q).config.priority = f.priority) ∧
    (∃ (p : Fin 4) (a : Nat) (f : PondFields) (s : State),
      s.lc.reply = none ∧
      s.mau.mode = .standby ∧
      s.wiu.pump.source = some (.pond p) ∧
      s.wiu.pump.phase ≠ .off ∧
      (a = 1 ∨ (a = 0 ∧ pondConfig? f ≠ none ∧ ∀ q, q ≠ p → (s.pond q).configured = true →
        (s.pond q).config.priority ≠ f.priority))) :=
  ⟨⟨3, pondF, ⟨500000000, 499999999, 5000, 500000, 86400, 10000000, 3, 500000000⟩, withMode .standby yard, by decide⟩,
    ⟨1, withMode .standby yard, by decide⟩,
    ⟨3, withMode .standby yard, by decide⟩,
    ⟨yard, by decide⟩,
    ⟨0, 0, { pondF with flow := 5001 }, State.reset, by decide⟩,
    ⟨3, 1, { pondF with priority := 1 }, withMode .standby yard, by decide⟩,
    ⟨0, 0, pondF, withMode .standby yard, by decide⟩⟩

theorem witness_SiteSetupIsAppliedByEachBlock :
    (∃ (f : SiteFields) (v : Site) (s : State),
      s.lc.reply = none ∧
      s.mau.mode = .standby ∧
      site? f = some v ∧
      s.wiu.today.fresh ≤ v.freshAllocation ∧
      (v.freshRate = s.site.freshRate ∨ s.wiu.pump.source ≠ some .fresh ∨ s.wiu.pump.phase = .off) ∧
      (∀ k, ∀ y ∈ s.order k, y.closure.isSome = true)) ∧
    (∃ (s : State),
      s.lc.reply = none ∧
      s.mau.mode ≠ .standby) ∧
    (∃ (f : SiteFields) (s : State),
      s.lc.reply = none ∧
      s.mau.mode = .standby ∧
      site? f = none) ∧
    (∃ (f : SiteFields) (v : Site) (s : State),
      s.lc.reply = none ∧
      s.mau.mode = .standby ∧
      site? f = some v ∧
      v.freshAllocation < s.wiu.today.fresh) ∧
    (∃ (f : SiteFields) (v : Site) (s : State),
      s.lc.reply = none ∧
      s.mau.mode = .standby ∧
      site? f = some v ∧
      s.wiu.today.fresh ≤ v.freshAllocation ∧
      v.freshRate ≠ s.site.freshRate ∧
      s.wiu.pump.source = some .fresh ∧
      s.wiu.pump.phase ≠ .off) :=
  ⟨⟨siteF, siteV, closedYard, by decide, by decide, by decide, by decide, by decide, closed_orders⟩,
    ⟨yard, by decide⟩,
    ⟨{ siteF with band := 101 }, State.reset, by decide⟩,
    ⟨siteF, siteV, State.reset.setToday { DayRecord.empty none with fresh := 1 }, by decide⟩,
    ⟨{ siteF with freshRate := 5000 }, { siteV with freshRate := 5000 }, State.reset.setPump ⟨.rundown, some .fresh, some 9⟩, by decide⟩⟩

theorem witness_PoolSplitEmptiesTheThreeLists :
    (∃ (f e o : Nat) (s : State),
      s.lc.reply = none ∧
      s.mau.mode = .standby ∧
      (24 ≤ f ∧ f ≤ 72) ∧
      (9 ≤ e ∧ e ≤ 40) ∧
      (4 ≤ o ∧ o ≤ 24) ∧
      f + e + o ≤ 96 ∧
      (∀ y ∈ s.sd.orders, y = none)) ∧
    (∃ (s : State),
      s.lc.reply = none ∧
      s.mau.mode ≠ .standby) ∧
    (∃ (x y z : Nat) (s : State),
      s.lc.reply = none ∧
      s.mau.mode = .standby ∧
      (x < 24 ∨ 72 < x ∨ y < 9 ∨ 40 < y ∨ z < 4 ∨ 24 < z ∨ 96 < x + y + z)) ∧
    (∃ (x y z : Nat) (s : State),
      s.lc.reply = none ∧
      s.mau.mode = .standby ∧
      (24 ≤ x ∧ x ≤ 72) ∧
      (9 ≤ y ∧ y ≤ 40) ∧
      (4 ≤ z ∧ z ≤ 24) ∧
      x + y + z ≤ 96 ∧
      (∃ y ∈ s.sd.orders, y.isSome = true)) :=
  ⟨⟨47, 40, 9, State.reset, by decide⟩,
    ⟨yard, by decide⟩,
    ⟨48, 40, 9, State.reset, by decide⟩,
    ⟨72, 9, 4, withMode .standby yard, by decide⟩⟩

theorem witness_ModeRequestsEnterTheirModes :
    (∃ (s : State),
      s.lc.reply = none) ∧
    (∃ (n : Nat) (s : State),
      s.lc.reply = none ∧
      4 ≤ n) ∧
    (∃ (n : Nat) (s : State),
      s.lc.reply = none ∧
      n < 3 ∧
      s.mau.mode = .lockdown ∧
      stopAsserted s = true) ∧
    (∃ (n : Nat) (x : LayoutFailure) (s : State),
      s.lc.reply = none ∧
      (n = 1 ∨ n = 2) ∧
      (s.mau.mode = .standby ∨ (s.mau.mode = .lockdown ∧ stopAsserted s = false)) ∧
      layoutCheck s = some x) ∧
    (∃ (m : Mode) (s : State),
      s.lc.reply = none ∧
      (m = .auto ∨ m = .manual) ∧
      m ≠ s.mau.mode ∧
      (s.mau.mode = .lockdown → stopAsserted s = false) ∧
      (s.mau.mode = .standby ∨ s.mau.mode = .lockdown → layoutCheck s = none)) ∧
    (∃ (s : State),
      s.lc.reply = none ∧
      s.mau.mode ≠ .standby ∧
      (s.mau.mode = .lockdown → stopAsserted s = false)) ∧
    (∃ (s : State),
      s.lc.reply = none ∧
      s.mau.mode ≠ .lockdown) :=
  ⟨⟨yard, by decide⟩,
    ⟨4, yard, by decide⟩,
    ⟨2, (withMode .lockdown yard).setPins { yard.pins with stop := .settled true }, by decide⟩,
    ⟨1, .piles, State.reset, by decide⟩,
    ⟨.auto, withMode .standby yard, by decide⟩,
    ⟨yard, by decide⟩,
    ⟨yard, by decide⟩⟩

/-! ## The premises inside a statement are met

What some clauses ask besides of a sound state, or of the state that follows. -/

def withPond (d : Pond) (s : State) : State := s.setPond 0 d

/-- A pond one second's water above its floor. -/
def lastWater : Pond := ⟨true, ⟨200000, 0, 650, 0, 0, 1, 0, 5000⟩, 100, true, none, 0, true, true⟩

/-- The yard with every cannon on rail 1, where machine 0 works. -/
def railYard : State :=
  { yard with cc := { yard.cc with
      cannons := .make fun c =>
        let d := cannonOf c
        { d with config := { d.config with rail := if d.configured then some 1 else none } } } }

theorem railYard_valves : ValvesSound railYard := by
  refine ⟨fun c => ?_, by decide, by decide, by decide⟩
  fin_cases c <;> repeat' (first | decide | refine And.intro ?_ ?_)

theorem railYard_runs : RunsSound railYard := by
  intro c
  fin_cases c <;> repeat' (first | exact rfl | decide | refine And.intro ?_ ?_)

theorem witness_GateExpiryPublishesTheWind_drift : ∃ s t, ValvesSound s ∧ RunsSound s ∧
    exec (.gateExpiry 0 0) s = .next t ∧
    ∀ c : Fin 32, c.val < 9 → (s.cannon c).configured = true ∧ (s.cannon c).driftBlocked = false ∧
      (t.cannon c).driftBlocked = true :=
  ⟨{ yard with site := { yard.site with designWind := 601 } }, _, yard_valves, yard_runs, rfl,
    by decide +kernel⟩

theorem witness_PondSettlesAndIsReported_start : ∃ s, ValvesSound s ∧ s.wiu.pump.phase = .off ∧
    (s.pond 1).settleCountdown ≠ none ∧ fit s (.pond 1) = true ∧ usable s (.pond 1) = false :=
  ⟨withPump .off yard, yard_valves, rfl, by decide, by decide, by decide⟩

theorem witness_PondSettlesAndIsReported_switch : ∃ s t, ValvesSound s ∧ RunsSound s ∧
    s.wiu.pump.source = some (.pond 0) ∧ s.wiu.pump.phase = .running ∧ fit s (.pond 0) = true ∧
    exec (.pondReport 0 0 0 1 0xFF) s = .next t ∧ fit t (.pond 0) = false :=
  ⟨yard, _, yard_valves, yard_runs, rfl, rfl, by decide, rfl, by decide +kernel⟩

theorem witness_PondSettlesAndIsReported_changeover : ∃ s t, ValvesSound s ∧
    s.wiu.pump.source = some (.pond 0) ∧ s.wiu.pump.phase = .changeover ∧ s.mau.mode ≠ .standby ∧
    fit s (.pond 0) = true ∧
    exec (.pondReport 0 0 0 1 0xFF) s = .next t ∧ fit t (.pond 0) = false :=
  ⟨withPump .changeover yard, _, yard_valves, rfl, rfl, by decide, by decide, rfl, by decide +kernel⟩

theorem witness_WaterSecondsAreCountedEverywhere_switch : ∃ s t u, ValvesSound s ∧ s.wiu.pump.source = some (.pond 0) ∧
    s.wiu.pump.phase = .running ∧ fit s (.pond 0) = true ∧
    exec (.deliverySecond 3) s = .next t ∧ fit t (.pond 0) = false ∧
    exec (.lostWaterExpiry 7) s = .next u ∧ fit u (.pond 0) = false :=
  ⟨withPond lastWater yard, _, _, yard_valves, rfl, rfl, by decide, rfl, by decide +kernel, rfl,
    by decide +kernel⟩

theorem witness_FeedbackIsJudgedByTheState_overload : ∃ s, ValvesSound s ∧ RunsSound s ∧
    (s.cannon 0).phase = .idle ∧ (s.cannon 8).phase = .locked ∧
    capacity s < reservedFlow s + (s.cannon 0).config.flow ∧
    capacity s < reservedFlow s + (s.cannon 8).config.flow :=
  ⟨withPond lastWater yard, yard_valves, yard_runs, by decide⟩

theorem witness_MachinesExcludeCannons_excluded : ∃ s t, ValvesSound s ∧ RunsSound s ∧
    exec (.machinePos 0 0 1 10) s = .next t ∧
    ∀ c : Fin 32, c.val < 9 → (s.cannon c).configured = true ∧ (s.cannon c).excluded = false ∧
      (t.cannon c).excluded = true :=
  ⟨railYard, _, railYard_valves, railYard_runs, rfl, by decide +kernel⟩

theorem witness_WetOrdersAreJudgedEnteredAndServed_start : ∃ s, ValvesSound s ∧
    s.wiu.pump.phase = .off ∧ s.mau.mode = .auto ∧ s.lc.reply = none ∧ s.order 3 = none :=
  ⟨withPump .off yard, yard_valves, rfl, by decide⟩

theorem witness_AssessmentHandsItsDemands_ends : ∃ s t, ValvesSound s ∧ RunsSound s ∧
    exec .assessment s = .next t ∧
    (s.run 0).map (fun r => (r.origin, r.pile)) = some (.auto, 0) ∧ (s.pile 0).configured = true ∧
    ∃ r ∈ (t.pile 0).results, r.demand = 0 :=
  ⟨{ yard with pau := ⟨9, .make fun p => { pileOf p with moisture := 20000 }⟩ }, _, yard_valves, yard_runs, rfl,
    rfl, rfl, by decide +kernel⟩

theorem witness_WaterSecondsAreCountedEverywhere_kept : ∃ s t u, ValvesSound s ∧ RunsSound s ∧
    exec (.deliverySecond 3) s = .next t ∧ exec (.deliverySecond 4) s = .next u ∧
    s.wiu.pump.source = some (.pond 0) ∧ fit t (.pond 0) = true ∧ fit u (.pond 0) = true ∧
    (s.run 3).map (fun r => decide (r.target ≤ r.delivered + 100)) = some true ∧
    (s.run 4).map (fun r => decide (r.delivered + 100 < r.target)) = some true :=
  ⟨yard, _, _, yard_valves, yard_runs, rfl, rfl, rfl, by decide +kernel⟩

theorem witness_OrdersCloseWithTheirNotice_ends : ∃ s, ValvesSound s ∧ RunsSound s ∧
    (s.order 0).map Order.closure = some none ∧ (s.run 3).map Run.origin = some (.order 0) :=
  ⟨yard, yard_valves, yard_runs, rfl, rfl⟩

theorem witness_HoldOrdersSupersedeAndEndAutoRuns_ends : ∃ s, ValvesSound s ∧ RunsSound s ∧
    (s.pile 0).configured = true ∧ (s.run 0).map (fun r => (r.origin, r.pile)) = some (.auto, 0) ∧
    (s.order 0).map (fun o => (o.kind, o.pile, o.closure)) = some (.wet, 0, none) ∧
    (s.run 2).map Run.origin = some (.order 0) :=
  ⟨yard, yard_valves, yard_runs, rfl, rfl, rfl, rfl⟩

theorem witness_ModeRequestsEnterTheirModes_ends : ∃ s, ValvesSound s ∧ RunsSound s ∧ HeaderSound s ∧
    s.mau.mode = .auto ∧ (s.run 1).map Run.origin = some .auto ∧ (s.run 3).map Run.origin = some (.order 0) :=
  ⟨yard, yard_valves, yard_runs, by decide, rfl, rfl, rfl⟩

theorem witness_ModeRequestsEnterTheirModes_start : ∃ s, ValvesSound s ∧ s.mau.mode = .manual ∧
    s.wiu.pump.phase = .off :=
  ⟨withPump .off (withMode .manual yard), yard_valves, rfl, rfl⟩

/-- The yard in STANDBY with little water, cannon 8 LOCKED with its valve still open, and an open valve on
cannon 9, which is not configured. -/
def openYard : State :=
  withMode .standby (withPond lastWater (withFeedback 8 true (withFeedback 9 true
    (yard.setCannon 8 { cannonOf 8 with travel := some 9 }))))

theorem openYard_valves : ValvesSound openYard := by
  refine ⟨fun c => ?_, by decide, by decide, by decide⟩
  fin_cases c <;> repeat' (first | decide | refine And.intro ?_ ?_)

theorem openYard_runs : RunsSound openYard := by
  intro c
  fin_cases c <;> repeat' (first | exact rfl | decide | refine And.intro ?_ ?_)

/-- TRAVEL_EXPIRY and UNLOCK at cannon 8 and CONFIGURE of cannon 9 find the header overloaded, with two runs
to suspend at once. -/
theorem witness_UnbiddenFlow_overload : ∃ s, ValvesSound s ∧ RunsSound s ∧ s.lc.reply = none ∧
    (s.cannon 8).configured = true ∧ (s.cannon 8).phase = .locked ∧ (s.cannon 8).travel ≠ none ∧
    feedbackOpen s 8 = true ∧ capacity s < reservedFlow s + (s.cannon 8).config.flow ∧
    s.mau.mode = .standby ∧ (s.cannon 9).configured = false ∧ feedbackOpen s 9 = true ∧
    (cannonConfig? cannonF).map CannonConfig.flow = some 1000 ∧ capacity s < reservedFlow s + 1000 ∧
    countBelow 32 (suspendedAtOnce s) = 2 :=
  ⟨openYard, openYard_valves, openYard_runs, by decide⟩

/-- The yard with the whole of order 0 delivered, by the run that ends on CLOSING cannon 5 and by it alone. -/
def doneRunOf (c : Fin 32) : Option Run :=
  if c.val = 5 then some ⟨0, .order 0, none, 900, 900, .active .ends none⟩
  else (runOf c).map fun r => { r with origin := if r.origin = .order 0 then .auto else r.origin }

def doneYard : State :=
  { yard with sd := { yard.sd with
      runs := .make doneRunOf
      orders := [some { orderA with delivered := 10000 }, some orderB, some orderC] ++ List.replicate 5 none } }

theorem witness_FeedbackIsJudgedByTheState_done : ∃ (s : State) (o : Order), s.order 0 = some o ∧ o.VolumeMet ∧
    (s.cannon 5).configured = true ∧ (s.cannon 5).phase = .closing ∧ feedbackOpen s 5 = true ∧
    (s.run 5).map Run.origin = some (.order 0) ∧ ∀ x, x ≠ 5 → ∀ y ∈ s.run x, y.origin ≠ .order 0 :=
  ⟨doneYard, _, rfl, by decide, by decide⟩

/-- R131: the last run of a delivered order ends, and the order closes DONE at the present time. -/
theorem test_last_run_completes_its_order : ∃ t, exec (.feedbackChange 5 false) doneYard = .next t ∧
    (t.order 0).map Order.closure = some (some ⟨.done, some 100000⟩) ∧ .order 0 ∈ t.lc.notices :=
  ⟨_, rfl, by decide +kernel⟩

/-- R115, R120: the two runs that a forced switch suspends at once take the next two numbers. -/
theorem test_suspension_numbers_ascend : ∃ t, exec (.pondReport 0 0 0 1 0xFF) yard = .next t ∧
    (t.run 1).map Run.suspensionNumber = some 2 ∧ (t.run 2).map Run.suspensionNumber = some 3 ∧
    t.sd.suspensions = 3 :=
  ⟨_, rfl, by decide +kernel⟩

/-- The second slot of a FORECAST is judged on the table that the first leaves: invalid, past, older,
replacing, inserted, displacing, without room. -/
theorem witness_ForecastSlotsAreJudgedAndStored_tally :
    (∃ (issue : Nat) (f : SlotFields), slot? issue f = none) ∧
    (∃ (issue : Nat) (f : SlotFields) (g : Slot) (s : State),
      slot? issue f = some g ∧
      g.start + 3600 ≤ s.yc.time) ∧
    (∃ (issue : Nat) (fs : List SlotFields) (f : SlotFields) (g h : Slot) (s : State),
      slot? issue f = some g ∧
      s.yc.time < g.start + 3600 ∧
      h ∈ (tallyForecast s issue fs).table ∧
      h.start = g.start ∧
      g.issue < h.issue ∧
      ((tallyForecast s issue fs).table.map Slot.start).Nodup) ∧
    (∃ (issue : Nat) (fs : List SlotFields) (f : SlotFields) (g h : Slot) (s : State),
      slot? issue f = some g ∧
      s.yc.time < g.start + 3600 ∧
      h ∈ (tallyForecast s issue fs).table ∧
      h.start = g.start ∧
      h.issue ≤ g.issue ∧
      ((tallyForecast s issue fs).table.map Slot.start).Nodup) ∧
    (∃ (issue : Nat) (fs : List SlotFields) (f : SlotFields) (g : Slot) (s : State),
      slot? issue f = some g ∧
      s.yc.time < g.start + 3600 ∧
      (∀ h ∈ (tallyForecast s issue fs).table, h.start ≠ g.start) ∧
      (tallyForecast s issue fs).table.length < s.mau.split.forecast ∧
      (tallyForecast s issue fs).table.Pairwise (fun x y => x.start < y.start)) ∧
    (∃ (issue : Nat) (fs : List SlotFields) (f : SlotFields) (g : Slot) (s : State),
      slot? issue f = some g ∧
      s.yc.time < g.start + 3600 ∧
      (∀ h ∈ (tallyForecast s issue fs).table, h.start ≠ g.start) ∧
      s.mau.split.forecast ≤ (tallyForecast s issue fs).table.length ∧
      (∃ h ∈ (tallyForecast s issue fs).table, g.start < h.start) ∧
      (tallyForecast s issue fs).table.Pairwise (fun x y => x.start < y.start)) ∧
    (∃ (issue : Nat) (fs : List SlotFields) (f : SlotFields) (g : Slot) (s : State),
      slot? issue f = some g ∧
      s.yc.time < g.start + 3600 ∧
      (∀ h ∈ (tallyForecast s issue fs).table, h.start < g.start) ∧
      s.mau.split.forecast ≤ (tallyForecast s issue fs).table.length) :=
  ⟨⟨0, { slotF 108000 with dryingClass := 4 }, by decide⟩,
    ⟨0, slotF 93600, slotG 93600 0, yard, by decide⟩,
    ⟨4, [slotF 108000], slotF 104400, slotG 104400 4, ⟨104400, 80, 100, none, 1, 5⟩, yard, by decide⟩,
    ⟨5, [slotF 108000], slotF 108000, slotG 108000 5, slotG 108000 5, yard, by decide⟩,
    ⟨5, [slotF 108000], slotF 97200, slotG 97200 5, yard, by decide⟩,
    ⟨5, [slotF 108000], slotF 97200, slotG 97200 5, withRoom 3 yard, by decide⟩,
    ⟨5, [slotF 108000], slotF 111600, slotG 111600 5, withRoom 3 yard, by decide⟩⟩

/-! ## WellFormed refuses what no line can carry: one ill-formed term for each check -/

def pileW : PileFields := ⟨0, 1, 100, 100, 0, 0xFF, List.replicate 16 0, 0⟩
def cannonW : CannonFields := ⟨0, 10, 0, 0, 0, 600, 0⟩
def pondW : PondFields := ⟨1, 0, 100, 0, 0, 1, 0, 0⟩

theorem test_wellFormed_accepts : (Instr.pileSetup 255 255 255 pileW).WellFormed ∧
    (Instr.cannonSetup 0 0 0 cannonW).WellFormed ∧ (Instr.pondSetup 0 0 0 pondW).WellFormed ∧
    (Instr.siteSetup 0 siteF).WellFormed := by
  repeat' apply And.intro
  all_goals decide

theorem test_pile_fields_refused :
    ¬ { pileW with t0 := 65536 }.WellFormed ∧ ¬ { pileW with s := 256 }.WellFormed ∧
    ¬ { pileW with area := 65536 }.WellFormed ∧ ¬ { pileW with retention := 256 }.WellFormed ∧
    ¬ { pileW with wcap := 65536 }.WellFormed ∧ ¬ { pileW with drain := 256 }.WellFormed ∧
    ¬ { pileW with exposure := List.replicate 15 0 }.WellFormed ∧
    ¬ { pileW with exposure := List.replicate 16 256 }.WellFormed ∧
    ¬ { pileW with w0 := 65536 }.WellFormed := by
  repeat' apply And.intro
  all_goals (try dsimp only [Instr.WellFormed])
  all_goals decide

theorem test_cannon_fields_refused :
    ¬ { cannonW with pile := 256 }.WellFormed ∧ ¬ { cannonW with flow := 65536 }.WellFormed ∧
    ¬ { cannonW with rail := 256 }.WellFormed ∧ ¬ { cannonW with zoneStart := 65536 }.WellFormed ∧
    ¬ { cannonW with zoneEnd := 65536 }.WellFormed ∧
    ¬ { cannonW with driftLimit := 65536 }.WellFormed ∧ ¬ { cannonW with mask := 65536 }.WellFormed := by
  repeat' apply And.intro
  all_goals (try dsimp only [Instr.WellFormed])
  all_goals decide

theorem test_pond_fields_refused :
    ¬ { pondW with capacity := 4294967296 }.WellFormed ∧ ¬ { pondW with floor := 4294967296 }.WellFormed ∧
    ¬ { pondW with flow := 65536 }.WellFormed ∧ ¬ { pondW with catchment := 4294967296 }.WellFormed ∧
    ¬ { pondW with settleTime := 4294967296 }.WellFormed ∧
    ¬ { pondW with stirVolume := 4294967296 }.WellFormed ∧ ¬ { pondW with priority := 256 }.WellFormed ∧
    ¬ { pondW with initial := 4294967296 }.WellFormed := by
  repeat' apply And.intro
  all_goals (try dsimp only [Instr.WellFormed])
  all_goals decide

theorem test_monitor_fields_refused :
    ¬ (⟨65536, 1, 60⟩ : MonitorFields).WellFormed ∧ ¬ (⟨1, 256, 60⟩ : MonitorFields).WellFormed ∧
    ¬ (⟨1, 1, 65536⟩ : MonitorFields).WellFormed := by
  repeat' apply And.intro
  all_goals decide

theorem test_slot_fields_refused :
    ¬ (⟨4294967296, 0, 0, 0, 0⟩ : SlotFields).WellFormed ∧ ¬ (⟨0, 65536, 0, 0, 0⟩ : SlotFields).WellFormed ∧
    ¬ (⟨0, 0, 65536, 0, 0⟩ : SlotFields).WellFormed ∧ ¬ (⟨0, 0, 0, 256, 0⟩ : SlotFields).WellFormed ∧
    ¬ (⟨0, 0, 0, 0, 256⟩ : SlotFields).WellFormed := by
  repeat' apply And.intro
  all_goals decide

theorem test_site_fields_refused :
    ¬ { siteF with mast1Fitted := 256 }.WellFormed ∧
    ¬ { siteF with kcal0 := 65536 }.WellFormed ∧
    ¬ { siteF with ocal0 := 256 }.WellFormed ∧
    ¬ { siteF with kcal1 := 65536 }.WellFormed ∧
    ¬ { siteF with ocal1 := 256 }.WellFormed ∧
    ¬ { siteF with designWind := 65536 }.WellFormed ∧
    ¬ { siteF with gaugeFitted := 256 }.WellFormed ∧
    ¬ { siteF with tipDepth := 65536 }.WellFormed ∧
    ¬ { siteF with dayOffset := 4294967296 }.WellFormed ∧
    ¬ { siteF with staleTime := 4294967296 }.WellFormed ∧
    ¬ { siteF with horizon := 256 }.WellFormed ∧
    ¬ { siteF with baseDrying := 256 }.WellFormed ∧
    ¬ { siteF with windDrying := 256 }.WellFormed ∧
    ¬ { siteF with band := 256 }.WellFormed ∧
    ¬ { siteF with escalationBand := 256 }.WellFormed ∧
    ¬ { siteF with severeMargin := 256 }.WellFormed ∧
    ¬ { siteF with stagger := 256 }.WellFormed ∧
    ¬ { siteF with travel := 256 }.WellFormed ∧
    ¬ { siteF with machines := 256 }.WellFormed ∧
    ¬ { siteF with machineStale := 65536 }.WellFormed ∧
    ¬ { siteF with guardZone := 256 }.WellFormed ∧
    ¬ { siteF with resumeWindow := 65536 }.WellFormed ∧
    ¬ { siteF with maxRun := 65536 }.WellFormed ∧
    ¬ { siteF with minRun := 65536 }.WellFormed ∧
    ¬ { siteF with freshRate := 65536 }.WellFormed ∧
    ¬ { siteF with freshAllocation := 4294967296 }.WellFormed ∧
    ¬ { siteF with priming := 65536 }.WellFormed ∧
    ¬ { siteF with rundown := 65536 }.WellFormed ∧
    ¬ { siteF with changeover := 256 }.WellFormed ∧
    ¬ { siteF with lean := 4294967296 }.WellFormed ∧
    ¬ { siteF with short := 4294967296 }.WellFormed := by
  repeat' apply And.intro
  all_goals (try dsimp only [Instr.WellFormed])
  all_goals decide

theorem test_events_refused :
    ¬ (Instr.orderExpiry 24).WellFormed ∧ ¬ (Instr.holdExpiry 24).WellFormed ∧
    ¬ (Instr.unknownKind 256 0).WellFormed ∧ ¬ (Instr.unknownKind 0x30 0).WellFormed ∧
    ¬ (Instr.unknownKind 0 256).WellFormed := by
  repeat' apply And.intro
  all_goals (try dsimp only [Instr.WellFormed])
  all_goals decide

theorem test_tags_refused :
    ¬ (Instr.ident 256).WellFormed ∧
    ¬ (Instr.siteSetup 256 siteF).WellFormed ∧
    ¬ (Instr.poolSplit 256 0 0 0).WellFormed ∧
    ¬ (Instr.pileSetup 256 0 0 pileW).WellFormed ∧
    ¬ (Instr.cannonSetup 256 0 0 cannonW).WellFormed ∧
    ¬ (Instr.pondSetup 256 0 0 pondW).WellFormed ∧
    ¬ (Instr.monitorSetup 256 0 0 ⟨1, 1, 60⟩).WellFormed ∧
    ¬ (Instr.attrib 256 0 0 0 []).WellFormed ∧
    ¬ (Instr.mode 256 0).WellFormed ∧
    ¬ (Instr.warmRestart 256).WellFormed ∧
    ¬ (Instr.setTime 256 0).WellFormed ∧
    ¬ (Instr.forecast 256 0 0 0 []).WellFormed ∧
    ¬ (Instr.reading 256 0 0).WellFormed ∧
    ¬ (Instr.pondReport 256 0 0 0 0).WellFormed ∧
    ¬ (Instr.machinePos 256 0 0 0).WellFormed ∧
    ¬ (Instr.mastService 256 0 0).WellFormed ∧
    ¬ (Instr.orderWet 256 0 0 0 0).WellFormed ∧
    ¬ (Instr.orderHold 256 0 0 0).WellFormed ∧
    ¬ (Instr.orderCancel 256 0).WellFormed ∧
    ¬ (Instr.cannonService 256 0 0).WellFormed ∧
    ¬ (Instr.ackAlert 256 0 0).WellFormed ∧
    ¬ (Instr.poll 256 0).WellFormed ∧
    ¬ (Instr.pileStatus 256 0).WellFormed ∧
    ¬ (Instr.cannonStatus 256 0).WellFormed ∧
    ¬ (Instr.waterStatus 256).WellFormed ∧
    ¬ (Instr.windStatus 256).WellFormed ∧
    ¬ (Instr.episodeRead 256 0).WellFormed ∧
    ¬ (Instr.dayTotals 256).WellFormed ∧
    ¬ (Instr.orderStatus 256 0).WellFormed := by
  repeat' apply And.intro
  all_goals (try dsimp only [Instr.WellFormed])
  all_goals decide

theorem test_operands_refused :
    ¬ (Instr.poolSplit 0 256 0 0).WellFormed ∧
    ¬ (Instr.poolSplit 0 0 256 0).WellFormed ∧
    ¬ (Instr.poolSplit 0 0 0 256).WellFormed ∧
    ¬ (Instr.pileSetup 0 256 0 pileW).WellFormed ∧
    ¬ (Instr.pileSetup 0 0 256 pileW).WellFormed ∧
    ¬ (Instr.cannonSetup 0 256 0 cannonW).WellFormed ∧
    ¬ (Instr.cannonSetup 0 0 256 cannonW).WellFormed ∧
    ¬ (Instr.pondSetup 0 256 0 pondW).WellFormed ∧
    ¬ (Instr.pondSetup 0 0 256 pondW).WellFormed ∧
    ¬ (Instr.monitorSetup 0 256 0 ⟨1, 1, 60⟩).WellFormed ∧
    ¬ (Instr.monitorSetup 0 0 256 ⟨1, 1, 60⟩).WellFormed ∧
    ¬ (Instr.attrib 0 256 0 0 []).WellFormed ∧
    ¬ (Instr.attrib 0 0 256 0 []).WellFormed ∧
    ¬ (Instr.attrib 0 0 0 256 []).WellFormed ∧
    ¬ (Instr.mode 0 256).WellFormed ∧
    ¬ (Instr.setTime 0 4294967296).WellFormed ∧
    ¬ (Instr.forecast 0 4294967296 0 0 []).WellFormed ∧
    ¬ (Instr.forecast 0 0 4294967296 0 []).WellFormed ∧
    ¬ (Instr.forecast 0 0 0 256 []).WellFormed ∧
    ¬ (Instr.reading 0 256 0).WellFormed ∧
    ¬ (Instr.reading 0 0 65536).WellFormed ∧
    ¬ (Instr.pondReport 0 256 0 0 0).WellFormed ∧
    ¬ (Instr.pondReport 0 0 4294967296 0 0).WellFormed ∧
    ¬ (Instr.pondReport 0 0 0 256 0).WellFormed ∧
    ¬ (Instr.pondReport 0 0 0 0 256).WellFormed ∧
    ¬ (Instr.machinePos 0 256 0 0).WellFormed ∧
    ¬ (Instr.machinePos 0 0 256 0).WellFormed ∧
    ¬ (Instr.machinePos 0 0 0 65536).WellFormed ∧
    ¬ (Instr.mastService 0 256 0).WellFormed ∧
    ¬ (Instr.mastService 0 0 256).WellFormed ∧
    ¬ (Instr.orderWet 0 65536 0 0 0).WellFormed ∧
    ¬ (Instr.orderWet 0 0 256 0 0).WellFormed ∧
    ¬ (Instr.orderWet 0 0 0 4294967296 0).WellFormed ∧
    ¬ (Instr.orderWet 0 0 0 0 4294967296).WellFormed ∧
    ¬ (Instr.orderHold 0 65536 0 0).WellFormed ∧
    ¬ (Instr.orderHold 0 0 256 0).WellFormed ∧
    ¬ (Instr.orderHold 0 0 0 4294967296).WellFormed ∧
    ¬ (Instr.orderCancel 0 65536).WellFormed ∧
    ¬ (Instr.cannonService 0 256 0).WellFormed ∧
    ¬ (Instr.cannonService 0 0 256).WellFormed ∧
    ¬ (Instr.ackAlert 0 256 0).WellFormed ∧
    ¬ (Instr.ackAlert 0 0 256).WellFormed ∧
    ¬ (Instr.poll 0 256).WellFormed ∧
    ¬ (Instr.pileStatus 0 256).WellFormed ∧
    ¬ (Instr.cannonStatus 0 256).WellFormed ∧
    ¬ (Instr.episodeRead 0 256).WellFormed ∧
    ¬ (Instr.orderStatus 0 256).WellFormed ∧
    ¬ (Instr.siteSetup 0 { siteF with band := 256 }).WellFormed ∧
    ¬ (Instr.pileSetup 0 0 0 { pileW with s := 256 }).WellFormed ∧
    ¬ (Instr.cannonSetup 0 0 0 { cannonW with rail := 256 }).WellFormed ∧
    ¬ (Instr.pondSetup 0 0 0 { pondW with priority := 256 }).WellFormed ∧
    ¬ (Instr.monitorSetup 0 0 0 ⟨1, 256, 60⟩).WellFormed ∧
    ¬ (Instr.attrib 0 0 0 0 [256]).WellFormed ∧
    ¬ (Instr.attrib 0 0 0 0 (List.replicate 510 0)).WellFormed ∧
    ¬ (Instr.forecast 0 0 0 0 [⟨0, 65536, 0, 0, 0⟩]).WellFormed ∧
    ¬ (Instr.forecast 0 0 0 0 (List.replicate 51 ⟨0, 0, 0, 0, 0⟩)).WellFormed := by
  repeat' apply And.intro
  all_goals (try dsimp only [Instr.WellFormed])
  all_goals decide +kernel

/-! ## The worked examples of the manual -/

/-- R169: the check of "123456789". -/
theorem test_crc : crc [0x31, 0x32, 0x33, 0x34, 0x35, 0x36, 0x37, 0x38, 0x39] = 0x29B1 := by decide +kernel

/-- The worked exchange of file 10, offsets 0 to 17. -/
theorem test_wet_order_frame :
    (encodeRequest (.orderWet 0x3C 17 8 5000 0)).map
        (fun r => (syncByte :: checkedPart r.kind r.frameTag r.body, (frame r.kind r.frameTag r.body).length)) =
      some ([0xA5, 0x20, 0x3C, 0x0B, 0x00, 0x11, 0x00, 0x08, 0x88, 0x13, 0x00, 0x00, 0x00, 0x00, 0x00, 0x00,
        0x10, 0x00], 20) := by decide +kernel

/-- The same exchange: ten body bytes are judged BAD_LENGTH before any field. -/
theorem test_wet_order_lengths :
    readRequest 0x20 0x3C [0x11, 0, 8, 0x88, 0x13, 0, 0, 0, 0, 0, 0] = some (.orderWet 0x3C 17 8 5000 0) ∧
    readRequest 0x20 0x3C [0x11, 0, 8, 0x88, 0x13, 0, 0, 0, 0, 0] = none ∧
    refusalBody 0x20 .outOfRange = [0x20, 0x03] ∧ refusalBody 0x20 .badLength = [0x20, 0x02] := by decide +kernel

/-- The worked sample of file 01: 40 and 250 pulses under Kcal 75 and Ocal 2. -/
theorem test_sample : formSample 40 75 2 0b1111 = ⟨102, 10, false⟩ ∧
    (formSample 250 75 2 0).speed = 600 ∧ (formSample 250 75 2 0).saturated = true ∧
    (formSample 0 75 2 0).speed = 0 := by decide

/-- The worked window of file 01, at t = 60 s and t = 63 s. -/
def window : List Sample :=
  List.replicate 8 ⟨80, 9, false⟩ ++ List.replicate 4 ⟨75, 11, false⟩ ++
    [104, 96, 88, 80, 72, 72, 64, 64].map fun v => ⟨v, 10, false⟩

def fillWindow (xs : List Sample) : Wfe := xs.foldl Wfe.enter Wfe.reset

theorem test_window : (fillWindow window).mean = 79 ∧ (fillWindow window).gust = 104 ∧
    (fillWindow window).prevailing = .sector 10 ∧
    (fillWindow (window ++ [⟨20, 11, false⟩])).mean = 76 ∧
    (fillWindow (window ++ [⟨20, 11, false⟩])).prevailing = .sector 9 := by decide

/-- The clock settings of file 02: day numbers under the offset 21600. -/
theorem test_days : dayNumber 864000 21600 = 9 ∧ dayNumber 885599 21600 = 9 ∧
    dayNumber 885600 21600 = 10 ∧ dayNumber 1100000 21600 = 12 ∧ dayNumber 900000 21600 = 10 := by decide

/-- The worked request of file 02, a revision arriving at a full table. -/
def fullTable : List Slot :=
  ((List.range 25).filter (· ≠ 5)).map fun k =>
    ⟨(305 + k) * 3600, 80, 100, some 10, 1, if k = 3 then 42 else 40⟩

def revised : State :=
  { yard with
    yc := ⟨1100000, true, some 12, 9⟩, ft := ⟨fullTable, some 1092000⟩
    mau := { yard.mau with split := ⟨24, 16, 8⟩ } }

theorem test_forecast : tallyForecast revised 41
      [slotF 1094400, ⟨1101600, 95, 140, 11, 2⟩, slotF 1102000, slotF 1188000, slotF 1116000,
        ⟨1105200, 90, 80, 3, 1⟩, slotF 1108800] =
    { tallyForecast revised 41
        [slotF 1094400, ⟨1101600, 95, 140, 11, 2⟩, slotF 1102000, slotF 1188000, slotF 1116000,
          ⟨1105200, 90, 80, 3, 1⟩, slotF 1108800] with
      stored := 2, older := 1, past := 1, invalid := 2, noRoom := 1, displaced := 1 } := by decide

theorem test_forecast_kept :
    ((tallyForecast revised 41 [slotF 1094400, slotF 1116000]).table.map Slot.start).getLast? =
      some 1180800 := by decide

/-- The worked case of file 03: pile 3, with the forecast fresh. -/
def config3 : PileConfig :=
  ⟨55, 6, 3500, 70, 8000, some 1, .make fun n => if n.val = 10 then 20 else if n.val = 11 then 18 else 0, 0⟩

def pile3 : Pile := ⟨true, config3, 1200, 10000, 0, 0, false, false, none⟩

def wind3 : WindState := ⟨72, 104, .sector 10, .live, false⟩

def look3 : List Slot :=
  [⟨0, 80, 120, some 10, 2, 1⟩, ⟨3600, 95, 140, some 11, 2, 1⟩, ⟨7200, 60, 90, some 10, 2, 1⟩]

def inputs3 : Inputs := ⟨wind3, look3.head?, some (look3, false), Site.reset⟩

theorem test_assessment_present : exposedNow wind3 config3 = 100 ∧ dryingLoss inputs3 100 = 9 ∧
    newMoisture inputs3 pile3 = 1391 ∧ runoffOf pile3 = 3000 ∧ threshold config3 1391 = 63 ∧
    classify 37 20 30 = .severe := by decide

theorem test_assessment_ahead : forecastPeak inputs3 config3 = 119 ∧ requiredFor config3 119 20 = 14000 ∧
    demandFor config3 6609 = 330450 ∧ tierFor false 330450 .severe = 1 ∧
    tierFor true 330450 .severe = 0 := by decide

/-- The variation of file 03 with a stale forecast. -/
theorem test_assessment_stale : newMoisture ⟨wind3, none, none, Site.reset⟩ pile3 = 1393 ∧
    requiredFor config3 100 20 = 10834 ∧ demandFor config3 6607 = 330350 := by decide

/-- The first pass of file 06: cannons 6, 7 and 10 are granted and cannon 14 is skipped. -/
def aimed (c : Fin 32) : Cannon :=
  let at_ (pile : Fin 24) (flow : Nat) : Cannon :=
    ⟨true, ⟨pile, flow, none, 0, 0, 600, BitVec.allOnes 16⟩, .idle, none, none, false, false⟩
  match c.val with
  | 6 => at_ 3 250
  | 7 => at_ 3 250
  | 10 => at_ 5 300
  | 14 => at_ 8 200
  | _ => .reset

def atT0 : State :=
  { State.reset with
    pau := ⟨9, .fill 24 { Pile.reset with configured := true }⟩
    cc := ⟨.make aimed, [], none, .fill 4 .reset⟩
    sd := { Sd.reset with demands := .make fun p =>
      if p.val = 3 then ⟨330450, 1⟩ else if p.val = 5 then ⟨40000, 2⟩ else if p.val = 8 then ⟨12000, 3⟩
      else ⟨0, 3⟩ }
    wiu := { Wiu.reset with
      ponds := .fill 4 ⟨true, ⟨20000000, 0, 900, 0, 0, 1, 0, 9000000⟩, 9000000, true, none, 0, true, true⟩
      pump := ⟨.running, some (.pond 1), none⟩ }
    mau := { Mau.reset with mode := .auto } }

theorem test_grant_pass :
    ([6, 7, 10, 14].map fun c => ((grantPass atT0).run c).map Run.target) =
      [some 75000, some 75000, some 40000, none] ∧
    ([3, 5, 8].map fun p => ((grantPass atT0).demand p).volume) = [180450, 0, 12000] ∧
    (grantPass atT0).cc.queue = [(7, .opens), (10, .opens)] := by decide +kernel

/-- The worked episode of file 07: the piles upwind join the set, and none leaves it. -/
theorem test_attribution : pileSetOf [3, 4] ||| pileSetOf [4, 7] = 0b10011000 := by decide

/-- R94: not-open for 99 of the 100 ticks of 20 ms and then open is held one tick, and is not taken; held
for all of them it is. -/
theorem test_feedback_filter :
    LineFilter.tick LineFilter.changes Config.valveFilter ⟨true, none, 99, false⟩ = ⟨true, none, 1, true⟩ ∧
    LineFilter.due LineFilter.changes Config.valveFilter ⟨true, none, 100, false⟩ = false ∧
    LineFilter.due LineFilter.changes Config.valveFilter ⟨true, none, 100, true⟩ = true := by decide

/-- R154: at the entry to LOCKDOWN every cannon that was moving or spraying is in CLOSING. Of those only the
one that was OPENING shows not-open already, and its close is due to be confirmed (R96). -/
theorem test_lockdown_closes : ∃ t, exec (.stopLineChange true) yard = .next t ∧
    ([1, 2, 3, 4, 5].map fun c => (t.cannon c).phase) = [.idle, .closing, .closing, .closing, .closing] ∧
    dueEvents t = [.feedbackChange 2 false] :=
  ⟨_, rfl, by decide +kernel⟩

/-- R167: 10 ms and one character of 520.83, 260.42, 173.61 or 86.81 microseconds (R166), in ticks of 200. -/
theorem test_gap : [LineRate.r19200, .r38400, .r57600, .r115200].map gapSpan = [53, 52, 51, 51] := by decide

/-- R167: a character that begins 9.9 ms after the last one's stop bit ends 10.42 ms after it, in the 53rd tick,
and the gap countdown has not run out. -/
theorem test_gap_keeps : (tick (keepCharacter .header [0xA5] yard)).lc.gap = some 52 ∧
    dueEvents (yard.setLc { yard.lc with gap := some 1 }) = [] := by
  decide +kernel

/-- R3: the Gray code. -/
theorem test_vane : (vaneSector 0b1000 = 15) ∧ (vaneSector 0b1100 = 8) ∧ (vaneSector 0b0110 = 4) := by decide

/-- R155: the part leaves reset by MODE only with a layout that passes the check. -/
theorem test_reset_layout : layoutCheck State.reset = some .piles := by decide

end Sys2Proof.Tests
end

