-- ==== Sys2Proof/Proofs/Commands.lean ====
section
/-! SUPPORT. All that a command can do, said once: the events of the part, the events that requests ask for,
the characters of a frame, and the line. A statement about every command is proved over these cases. -/

namespace Sys2Proof.Machine

/-- The line has moved and nothing else: the notices stand. -/
structure LineOnly (s t : State) : Prop where
  rest : t = { s with lc := t.lc, freeCount := t.freeCount }
  notices : t.lc.notices = s.lc.notices

theorem LineOnly.refl (s : State) : LineOnly s s := ⟨rfl, rfl⟩

theorem LineOnly.setLc (s : State) (l : Lc) (h : l.notices = s.lc.notices) : LineOnly s (s.setLc l) :=
  ⟨rfl, h⟩

theorem LineOnly.startReply (bytes : List Byte) (restart : Bool) (s : State) :
    LineOnly s (startReply bytes restart s) := ⟨rfl, rfl⟩

/-- The event that a request asks for in a state that accepts it. -/
inductive Asks : Instr → (State → State) → Prop
  | siteSetup {tag f v} : site? f = some v → Asks (.siteSetup tag f) (siteStep v)
  | poolSplit {tag f e o} : Asks (.poolSplit tag f e o) (splitStep f e o)
  | configurePile {tag i a f p k} : Asks (.pileSetup tag i a f) (configurePile p k)
  | releasePile {tag i a f p} : Asks (.pileSetup tag i a f) (releasePile p)
  | configureCannon {tag i a f c k} : Asks (.cannonSetup tag i a f) (configureCannon c k)
  | releaseCannon {tag i a f c} : Asks (.cannonSetup tag i a f) (releaseCannon c)
  | configurePond {tag i a f p k} : Asks (.pondSetup tag i a f) (configurePond p k)
  | releasePond {tag i a f p} : Asks (.pondSetup tag i a f) (releasePond p)
  | configureMonitor {tag i a f m} : Asks (.monitorSetup tag i a f) (configureMonitor m f)
  | releaseMonitor {tag i a f m} : Asks (.monitorSetup tag i a f) (releaseMonitor m)
  | attrib {tag i d n ps m k l} : Asks (.attrib tag i d n ps) (attribStep m k l)
  | mode {tag n m} : Asks (.mode tag n) (modeStep m)
  | setTime {tag t} : Asks (.setTime tag t) (setTimeStep t)
  | forecast {tag i t n fs} : Asks (.forecast tag i t n fs) (forecastStep i t fs)
  | reading {tag i m v} : Asks (.reading tag i v) (readingStep m v)
  | pondReport {tag i l q v p level x y} : Asks (.pondReport tag i l q v) (reportPond p level x y)
  | machinePos {tag i j n m r} : Asks (.machinePos tag i j n) (reportMachine m r n)
  | mastService {tag i a m out} : Asks (.mastService tag i a) (serviceMast m out)
  | orderWet {tag o i v x k p} : Asks (.orderWet tag o i v x) (wetStep k o p v x)
  | orderHold {tag o i d k p} : Asks (.orderHold tag o i d) (holdStep k o p d)
  | orderCancel {tag o k} : Asks (.orderCancel tag o) (closeOrder k .cancelled)
  | lock {tag i a c} : Asks (.cannonService tag i a) (lockCannon c)
  | unlock {tag i a c} : Asks (.cannonService tag i a) (unlockCannon c)
  | ackAlert {tag k o e} : alertId? k o = some e → Asks (.ackAlert tag k o) (ackStep e)

/-- What an accepted request leaves: the state it found, its event, or the state after a POLL. -/
inductive Answered (i : Instr) (s : State) : State → Prop
  | report : Answered i s s
  | event {f} : Asks i f → Answered i s (inEvent f s)
  | poll (tag n : Nat) : i = .poll tag n → Answered i s (pollEvent n s).1

theorem answerPoll_accepted {n : Nat} {s u : State} {body : List Byte}
    (h : answerPoll n s = .accepted u body) : u = (pollEvent n s).1 := by
  unfold answerPoll at h
  split at h
  · cases h
  · exact (Answer.accepted.inj h).1.symm

theorem answerOf_accepted {i : Instr} {s u : State} {body : List Byte}
    (h : answerOf i s = .accepted u body) : Answered i s u := by
  cases i
  case poll tag n => exact answerPoll_accepted h ▸ .poll tag n rfl
  case ident | warmRestart | waterStatus | windStatus | dayTotals => cases h; exact .report
  case pileStatus | cannonStatus | episodeRead | orderStatus =>
    simp only [answerOf, answerPileStatus, answerCannonStatus, answerEpisodeRead, answerOrderStatus,
      report] at h
    repeat' split at h
    all_goals simp only [Answer.accepted.injEq, reduceCtorEq] at h
    exact h.1 ▸ .report
  all_goals
    simp only [answerOf, answerSiteSetup, answerPoolSplit, answerPileSetup, answerCannonSetup,
      answerPondSetup, answerMonitorSetup, answerAttrib, answerMode, answerSetTime, answerForecast,
      answerReading, answerPondReport, answerMachinePos, answerMastService, answerOrderWet,
      answerOrderHold, answerOrderCancel, answerCannonService, answerAckAlert, accept, reduceCtorEq] at h
  all_goals repeat' split at h
  all_goals simp only [Answer.accepted.injEq, reduceCtorEq] at h
  all_goals exact h.1 ▸ .event (by constructor <;> assumption)

/-- What a request leaves of a state that has no reply in progress, refused or accepted, but for the line. -/
inductive Taken (i : Instr) (s : State) : State → Prop
  | refused : Taken i s s
  | answered {u} : Answered i s u → Taken i s u

/-- A request is taken on the state that its predecessor's reply has left (R170, R171). -/
theorem takeRequest_cases (kind tag : Nat) (i : Instr) (s : State) :
    ∃ u, Taken i (replySentStep s) u ∧ LineOnly u (takeRequest kind tag (answerOf i) s) := by
  simp only [takeRequest]
  cases h : answerOf i (replySentStep s) with
  | accepted u body => exact ⟨u, .answered (answerOf_accepted h), .startReply _ _ _⟩
  | refused r => exact ⟨_, .refused, .startReply _ _ _⟩

/-- A frame is taken as the request it spells, or refused (R171). -/
theorem takeFrame_cases (kind tag : Nat) (body : List Byte) (s : State) :
    ∃ i u, Taken i (replySentStep s) u ∧ LineOnly u (takeFrame kind tag body s) := by
  unfold takeFrame
  split
  · rename_i i _
    exact ⟨i, takeRequest_cases kind tag i s⟩
  · exact ⟨.replySent, _, .refused, .startReply _ _ _⟩

/-- The line when a reply has been sent (R170). -/
def lineFree (s : State) : State := s.setLc { s.lc with rx := .hunt, buffer := [], reply := none }

/-- The end of a reply moves the line; where it was WARM_RESTART's the restart follows (R164, R170). -/
theorem replySentStep_cases (s : State) :
    LineOnly s (replySentStep s) ∨
      ((∃ r ∈ s.lc.reply, r.restart = true) ∧ replySentStep s = warmRestart (lineFree s)) := by
  unfold replySentStep
  cases hr : s.lc.reply with
  | none => exact .inl (.refl s)
  | some r =>
    by_cases h : r.restart = true
    · exact .inr ⟨⟨r, rfl, h⟩, if_pos h⟩
    · simp only [h]
      exact .inl (.setLc s _ rfl)

theorem replySentStep_lineOnly {s : State} (h : ∀ r ∈ s.lc.reply, r.restart = false) :
    LineOnly s (replySentStep s) := by
  rcases replySentStep_cases s with k | ⟨⟨r, hr, hx⟩, -⟩
  · exact k
  · simp [h r hr] at hx

theorem keepCharacter_lineOnly (rx : RxState) (bytes : List Byte) (s : State) :
    LineOnly s (keepCharacter rx bytes s) := .setLc s _ rfl

theorem dropFrame_lineOnly (s : State) : LineOnly s (dropFrame s) := .setLc s _ rfl

theorem gapStep_lineOnly (s : State) : LineOnly s (gapStep s) := by
  unfold gapStep
  split
  · exact .refl s
  · exact dropFrame_lineOnly s

theorem replyStartStep_lineOnly (s : State) : LineOnly s (replyStartStep s) := by
  unfold replyStartStep
  split
  · exact .refl s
  · split
    · exact .refl s
    · exact .setLc s _ rfl

theorem takeHeader_lineOnly (bytes : List Byte) (s : State) : LineOnly s (takeHeader bytes s) := by
  unfold takeHeader
  repeat' split
  · exact keepCharacter_lineOnly _ _ s
  · exact dropFrame_lineOnly s
  · exact keepCharacter_lineOnly _ _ s
  · exact keepCharacter_lineOnly _ _ s

theorem takeBody_lineOnly (bytes : List Byte) (s : State) : LineOnly s (takeBody bytes s) := by
  unfold takeBody
  split <;> exact keepCharacter_lineOnly _ _ s

/-- The trailer keeps or drops the frame, or its last character takes it (R168 to R170). -/
theorem takeTrailer_cases (bytes : List Byte) (s : State) :
    LineOnly s (takeTrailer bytes s) ∨ ∃ kind tag body,
      takeTrailer bytes s = takeFrame kind tag body (s.setLc { s.lc with buffer := bytes }) := by
  unfold takeTrailer
  simp only
  repeat' split
  · exact .inl (keepCharacter_lineOnly _ _ s)
  · exact .inl (keepCharacter_lineOnly _ _ s)
  · exact .inl (dropFrame_lineOnly s)
  · exact .inl (keepCharacter_lineOnly _ _ s)
  · exact .inr ⟨_, _, _, rfl⟩
  · exact .inl (dropFrame_lineOnly s)

/-- A character moves the line, and where it ends a frame the request is taken (R167 to R170). -/
theorem receiveStep_cases (b : Byte) (x : Bool) (s : State) :
    LineOnly s (receiveStep b x s) ∨
      (s.lc.rx = .trailer ∧ ∃ t i u, LineOnly s t ∧ Taken i (replySentStep t) u ∧
        LineOnly u (receiveStep b x s)) := by
  unfold receiveStep
  split
  · split
    · exact .inl (keepCharacter_lineOnly _ _ s)
    · exact .inl (.refl s)
  · exact .inl (.refl s)
  · exact .inl (takeHeader_lineOnly _ s)
  · exact .inl (dropFrame_lineOnly s)
  · exact .inl (takeBody_lineOnly _ s)
  · exact .inl (dropFrame_lineOnly s)
  · rename_i hrx
    rcases takeTrailer_cases (s.lc.buffer ++ [b]) s with k | ⟨kind, tag, body, e⟩
    · exact .inl k
    · obtain ⟨i, u, hu, hl⟩ := takeFrame_cases kind tag body
        (s.setLc { s.lc with buffer := s.lc.buffer ++ [b] })
      exact .inr ⟨hrx, _, i, u, .setLc s { s.lc with buffer := s.lc.buffer ++ [b] } rfl, hu, e ▸ hl⟩
  · exact .inl (dropFrame_lineOnly s)
  · exact .inl (.refl s)

/-- The event of the part that a command makes, with the grant pass it may owe. -/
inductive Makes : Instr → (State → State) → Prop
  | gateExpiry {v w} : Makes (.gateExpiry v w) (gateStep v w)
  | rainTip : Makes .rainTip rainEdge
  | secondEvent : Makes .secondEvent secondStep
  | assessment : Makes .assessment assessmentStep
  | primingExpiry : Makes .primingExpiry capacityIncrease
  | rundownExpiry : Makes .rundownExpiry pumpStop
  | changeoverExpiry : Makes .changeoverExpiry capacityIncrease
  | settleExpiry {p} : Makes (.settleExpiry p) (settle p)
  | deliverySecond {c} : Makes (.deliverySecond c) (deliveryStep c)
  | lostWaterExpiry {c} : Makes (.lostWaterExpiry c) (lostWaterStep c)
  | slotExpiry : Makes .slotExpiry slotStep
  | feedbackChange {c b} : Makes (.feedbackChange c b) (feedbackStep c b)
  | travelExpiry {c} : Makes (.travelExpiry c) (travelStep c)
  | machineStaleExpiry {m} : Makes (.machineStaleExpiry m) (machineStaleStep m)
  | resumeExpiry {c} : Makes (.resumeExpiry c) (resumeStep c)
  | orderExpiry {k} : Makes (.orderExpiry k) (orderStep .wet .expired k)
  | holdExpiry {k} : Makes (.holdExpiry k) (orderStep .hold .done k)
  | stopLineChange {b} : Makes (.stopLineChange b) (stopStep b)

/-- All that a command does. -/
inductive Effect (i : Instr) (s : State) : State → Prop
  | line {t} : LineOnly s t → Effect i s t
  | powerOn {a b} : i = .powerOnReset a b → Effect i s (powerOn a b s)
  | pulse {m} : i = .pulseEdge m → Effect i s (pulseStep m s)
  | bounce : i = .bounceExpiry → Effect i s (s.setWfe { s.wfe with bounce := none })
  | monitorStale {m} : i = .monitorStaleExpiry m → Effect i s (monitorStaleStep m s)
  | event {f} : Makes i f → Effect i s (inEvent f s)
  | restart : i = .replySent → (∃ r ∈ s.lc.reply, r.restart = true) →
      Effect i s (warmRestart (lineFree s))
  | request {u t} : Taken i (replySentStep s) u → LineOnly u t → Effect i s t
  | frame {b x j t u v} : i = .receiveCharacter b x → s.lc.rx = .trailer → LineOnly s t →
      Taken j (replySentStep t) u → LineOnly u v → Effect i s v

theorem exec_effect {i : Instr} {s t : State} (h : exec i s = .next t) : Effect i s t := by
  cases i
  case powerOnReset a b => cases h; exact .powerOn rfl
  case pulseEdge m => cases h; exact .pulse rfl
  case bounceExpiry => cases h; exact .bounce rfl
  case monitorStaleExpiry m => cases h; exact .monitorStale rfl
  case gapExpiry => cases h; exact .line (gapStep_lineOnly s)
  case replyStart => cases h; exact .line (replyStartStep_lineOnly s)
  case replySent =>
    obtain rfl : replySentStep s = t := Host.Outcome.next.inj h
    rcases replySentStep_cases s with k | ⟨hr, e⟩
    · exact .line k
    · exact e ▸ .restart rfl hr
  case receiveCharacter b x =>
    obtain rfl : receiveStep b x s = t := Host.Outcome.next.inj h
    rcases receiveStep_cases b x s with k | ⟨hx, t, j, u, ht, hj, hu⟩
    · exact .line k
    · exact .frame rfl hx ht hj hu
  case primingExpiry | rundownExpiry | changeoverExpiry =>
    obtain rfl := Host.Outcome.next.inj h
    split
    · exact .event (by constructor)
    · exact .line (.refl s)
  case settleExpiry | slotExpiry =>
    obtain rfl := Host.Outcome.next.inj h
    split
    · exact .line (.refl s)
    · exact .event (by constructor)
  case gateExpiry | rainTip | secondEvent | assessment | deliverySecond | lostWaterExpiry |
      feedbackChange | travelExpiry | machineStaleExpiry | resumeExpiry | orderExpiry | holdExpiry |
      stopLineChange =>
    obtain rfl := Host.Outcome.next.inj h
    exact .event (by constructor)
  all_goals
    obtain rfl := Host.Outcome.next.inj h
    exact (takeRequest_cases _ _ _ s).elim fun u hu => .request hu.1 hu.2

/-- A step takes a command, its own or one that waits, on a state that differs in the queue and the count of
free values alone; or it is a tick. -/
theorem step_cases {s t : State} (h : step s = .next t) :
    (∃ i n q, exec i { s with freeCount := n, pending := q } = .next t) ∨ t = tick s := by
  unfold step at h
  split at h
  · exact .inl ⟨_, s.freeCount, _, h⟩
  · unfold idle chooseDue at h
    split at h
    · rename_i hc
      repeat' split at hc
      all_goals cases hc
      · exact .inl ⟨_, s.freeCount, s.pending, h⟩
      · exact .inl ⟨_, s.freeCount + 1, s.pending, h⟩
    · exact .inr (Host.Outcome.next.inj h).symm

/-- The command keeps the predicate, whatever event it makes or request it brings. -/
structure Keeps (i : Instr) (P : State → Prop) : Prop where
  line : ∀ s t, LineOnly s t → P s → P t
  powerOn : ∀ a b s, i = .powerOnReset a b → P s → P (powerOn a b s)
  pulse : ∀ m s, P s → P (pulseStep m s)
  bounce : ∀ s, P s → P (s.setWfe { s.wfe with bounce := none })
  monitorStale : ∀ m s, P s → P (monitorStaleStep m s)
  makes : ∀ f s, Makes i f → P s → P (inEvent f s)
  asks : ∀ j f s, Asks j f → P s → P (inEvent f s)
  poll : ∀ n s, P s → P (pollEvent n s).1
  restart : ∀ s, P s → P (warmRestart s)

theorem Keeps.replySent {i : Instr} {P : State → Prop} (h : Keeps i P) {s : State} (hs : P s) :
    P (replySentStep s) := by
  rcases replySentStep_cases s with k | ⟨-, e⟩
  · exact h.line _ _ k hs
  · exact e ▸ h.restart _ (h.line _ _ (.setLc s _ rfl) hs)

theorem Keeps.taken {i j : Instr} {P : State → Prop} (h : Keeps i P) {s u : State}
    (hu : Taken j s u) (hs : P s) : P u := by
  cases hu with
  | refused => exact hs
  | answered hu =>
    cases hu with
    | report => exact hs
    | event hf => exact h.asks _ _ _ hf hs
    | poll tag n _ => exact h.poll n s hs

theorem Keeps.exec {i : Instr} {P : State → Prop} (h : Keeps i P) {s t : State}
    (ht : exec i s = .next t) (hs : P s) : P t := by
  cases exec_effect ht with
  | line k => exact h.line _ _ k hs
  | powerOn e => exact h.powerOn _ _ s e hs
  | pulse _ => exact h.pulse _ s hs
  | bounce _ => exact h.bounce s hs
  | monitorStale _ => exact h.monitorStale _ s hs
  | event hf => exact h.makes _ s hf hs
  | restart _ _ => exact h.restart _ (h.line _ _ (.setLc s _ rfl) hs)
  | request hu k => exact h.line _ _ k (h.taken hu (h.replySent hs))
  | frame _ _ hl hu k => exact h.line _ _ k (h.taken hu (h.replySent (h.line _ _ hl hs)))

/-- An invariant: what every command and every tick keep, every step keeps. -/
theorem step_keeps {P : State → Prop} (h : ∀ i, Keeps i P)
    (queue : ∀ s n q, P s → P { s with freeCount := n, pending := q }) (clock : ∀ s, P s → P (tick s))
    {s t : State} (ht : step s = .next t) (hs : P s) : P t := by
  rcases step_cases ht with ⟨i, n, q, e⟩ | rfl
  · exact (h i).exec e (queue s n q hs)
  · exact clock s hs

/-- The events, but the gate's, that reach past the water, the cannons, the piles and the orders. -/
inductive Reaches : (State → State) → Prop
  | rain : Reaches rainEdge
  | second : Reaches secondStep
  | stop (b : Bool) : Reaches (stopStep b)
  | site (v : Site) : Reaches (siteStep v)
  | split (f e o : Nat) : Reaches (splitStep f e o)
  | configureMonitor (m : Fin 8) (f : MonitorFields) : Reaches (configureMonitor m f)
  | releaseMonitor (m : Fin 8) : Reaches (releaseMonitor m)
  | attrib (m : Fin 8) (n : Fin 16) (ps : List (Fin 24)) : Reaches (attribStep m n ps)
  | mode (m : Mode) : Reaches (modeStep m)
  | setTime (t : Nat) : Reaches (setTimeStep t)
  | forecast (i t : Nat) (fs : List SlotFields) : Reaches (forecastStep i t fs)
  | reading (m : Fin 8) (v : Nat) : Reaches (readingStep m v)
  | mastService (m : Fin 2) (b : Bool) : Reaches (serviceMast m b)
  | ack (e : AlertId) : Reaches (ackStep e)

theorem quiet_configurePile (p : Fin 24) (k : PileConfig) (s : State) : Quiet s (configurePile p k s) :=
  quiet_setPile s p _

theorem quiet_releasePile (p : Fin 24) (s : State) : Quiet s (releasePile p s) := by
  unfold releasePile
  split
  · exact quiet_setPile s p _
  · exact .refl s

theorem Makes.quiet_or_reaches {i : Instr} {f : State → State} (h : Makes i f) :
    (∃ v w, i = .gateExpiry v w ∧ f = gateStep v w) ∨ (∀ s, Quiet s (f s)) ∨ Reaches f := by
  cases h with
  | gateExpiry => exact .inl ⟨_, _, rfl, rfl⟩
  | rainTip => exact .inr <| .inr .rain
  | secondEvent => exact .inr <| .inr .second
  | assessment => exact .inr <| .inl quiet_assessmentStep
  | primingExpiry => exact .inr <| .inl quiet_capacityIncrease
  | rundownExpiry => exact .inr <| .inl quiet_pumpStop
  | changeoverExpiry => exact .inr <| .inl quiet_capacityIncrease
  | settleExpiry => exact .inr <| .inl fun s => quiet_settle s _
  | deliverySecond => exact .inr <| .inl fun s => quiet_deliveryStep s _
  | lostWaterExpiry => exact .inr <| .inl fun s => quiet_lostWaterStep s _
  | slotExpiry => exact .inr <| .inl fun s => (within_slotStep s).quiet
  | feedbackChange => exact .inr <| .inl fun s => quiet_feedbackStep s _ _
  | travelExpiry => exact .inr <| .inl fun s => (within_travelStep s _).quiet
  | machineStaleExpiry => exact .inr <| .inl fun s => quiet_machineStaleStep s _
  | resumeExpiry => exact .inr <| .inl fun s => (within_resumeStep s _).quiet
  | orderExpiry => exact .inr <| .inl fun s => (within_orderStep s _ _ _).quiet
  | holdExpiry => exact .inr <| .inl fun s => (within_orderStep s _ _ _).quiet
  | stopLineChange => exact .inr <| .inr (.stop _)

theorem Asks.quiet_or_reaches {i : Instr} {f : State → State} (h : Asks i f) :
    (∀ s, Quiet s (f s)) ∨ Reaches f := by
  cases h with
  | siteSetup => exact .inr (.site _)
  | poolSplit => exact .inr (.split _ _ _)
  | configurePile => exact .inl (quiet_configurePile _ _)
  | releasePile => exact .inl (quiet_releasePile _)
  | configureCannon => exact .inl fun s => quiet_configureCannon s _ _
  | releaseCannon => exact .inl fun s => quiet_releaseCannon s _
  | configurePond => exact .inl fun s => quiet_configurePond s _ _
  | releasePond => exact .inl fun s => quiet_releasePond s _
  | configureMonitor => exact .inr (.configureMonitor _ _)
  | releaseMonitor => exact .inr (.releaseMonitor _)
  | attrib => exact .inr (.attrib _ _ _)
  | mode => exact .inr (.mode _)
  | setTime => exact .inr (.setTime _)
  | forecast => exact .inr (.forecast _ _ _)
  | reading => exact .inr (.reading _ _)
  | pondReport => exact .inl fun s => quiet_reportPond s _ _ _ _
  | machinePos => exact .inl fun s => quiet_reportMachine s _ _ _
  | mastService => exact .inr (.mastService _ _)
  | orderWet => exact .inl fun s => quiet_wetStep s _ _ _ _ _
  | orderHold => exact .inl fun s => quiet_holdStep s _ _ _ _
  | orderCancel => exact .inl fun s => (within_closeOrder s _ _).quiet
  | lock => exact .inl fun s => (within_lockCannon s _).quiet
  | unlock => exact .inl fun s => (within_unlockCannon s _).quiet
  | ackAlert => exact .inr (.ack _)

end Sys2Proof.Machine
end

