-- ==== Sys2Proof/Proofs/Posting.lean ====
section
/-! SUPPORT. What a posting and a written condition leave of every field and record: all but the notice list
and the alert table (R160, R172). -/

namespace Sys2Proof.Machine

variable (s : State)

@[simp] theorem post_pins (n : Notice) : (post n s).pins = s.pins := by rw [post_eq]; rfl
@[simp] theorem post_yc (n : Notice) : (post n s).yc = s.yc := by rw [post_eq]; rfl
@[simp] theorem post_wfe (n : Notice) : (post n s).wfe = s.wfe := by rw [post_eq]; rfl
@[simp] theorem post_ft (n : Notice) : (post n s).ft = s.ft := by rw [post_eq]; rfl
@[simp] theorem post_pau (n : Notice) : (post n s).pau = s.pau := by rw [post_eq]; rfl
@[simp] theorem post_cc (n : Notice) : (post n s).cc = s.cc := by rw [post_eq]; rfl
@[simp] theorem post_sd (n : Notice) : (post n s).sd = s.sd := by rw [post_eq]; rfl
@[simp] theorem post_wiu (n : Notice) : (post n s).wiu = s.wiu := by rw [post_eq]; rfl
@[simp] theorem post_bwu (n : Notice) : (post n s).bwu = s.bwu := by rw [post_eq]; rfl
@[simp] theorem post_site (n : Notice) : (post n s).site = s.site := by rw [post_eq]; rfl
@[simp] theorem post_freeCount (n : Notice) : (post n s).freeCount = s.freeCount := by rw [post_eq]; rfl
@[simp] theorem post_pending (n : Notice) : (post n s).pending = s.pending := by rw [post_eq]; rfl
@[simp] theorem post_mau (n : Notice) : (post n s).mau = s.mau := by rw [post_eq]; rfl

@[simp] theorem post_mast (n : Notice) (m : Fin 2) : (post n s).mast m = s.mast m := by rw [post_eq]; rfl
@[simp] theorem post_pile (n : Notice) (p : Fin 24) : (post n s).pile p = s.pile p := by rw [post_eq]; rfl
@[simp] theorem post_cannon (n : Notice) (c : Fin 32) : (post n s).cannon c = s.cannon c := by rw [post_eq]; rfl
@[simp] theorem post_machine (n : Notice) (m : Fin 4) : (post n s).machine m = s.machine m := by rw [post_eq]; rfl
@[simp] theorem post_run (n : Notice) (c : Fin 32) : (post n s).run c = s.run c := by rw [post_eq]; rfl
@[simp] theorem post_demand (n : Notice) (p : Fin 24) : (post n s).demand p = s.demand p := by rw [post_eq]; rfl
@[simp] theorem post_pond (n : Notice) (p : Fin 4) : (post n s).pond p = s.pond p := by rw [post_eq]; rfl
@[simp] theorem post_monitor (n : Notice) (m : Fin 8) : (post n s).monitor m = s.monitor m := by rw [post_eq]; rfl
@[simp] theorem post_order (n : Notice) (k : Nat) : (post n s).order k = s.order k := by rw [post_eq]; rfl
@[simp] theorem post_episode (n : Notice) (k : Nat) : (post n s).episode k = s.episode k := by rw [post_eq]; rfl

@[simp] theorem syncAlert_pins (e : AlertId) : (syncAlert e s).pins = s.pins := by rw [syncAlert_eq]; rfl
@[simp] theorem syncAlert_yc (e : AlertId) : (syncAlert e s).yc = s.yc := by rw [syncAlert_eq]; rfl
@[simp] theorem syncAlert_wfe (e : AlertId) : (syncAlert e s).wfe = s.wfe := by rw [syncAlert_eq]; rfl
@[simp] theorem syncAlert_ft (e : AlertId) : (syncAlert e s).ft = s.ft := by rw [syncAlert_eq]; rfl
@[simp] theorem syncAlert_pau (e : AlertId) : (syncAlert e s).pau = s.pau := by rw [syncAlert_eq]; rfl
@[simp] theorem syncAlert_cc (e : AlertId) : (syncAlert e s).cc = s.cc := by rw [syncAlert_eq]; rfl
@[simp] theorem syncAlert_sd (e : AlertId) : (syncAlert e s).sd = s.sd := by rw [syncAlert_eq]; rfl
@[simp] theorem syncAlert_wiu (e : AlertId) : (syncAlert e s).wiu = s.wiu := by rw [syncAlert_eq]; rfl
@[simp] theorem syncAlert_bwu (e : AlertId) : (syncAlert e s).bwu = s.bwu := by rw [syncAlert_eq]; rfl
@[simp] theorem syncAlert_site (e : AlertId) : (syncAlert e s).site = s.site := by rw [syncAlert_eq]; rfl
@[simp] theorem syncAlert_freeCount (e : AlertId) : (syncAlert e s).freeCount = s.freeCount := by rw [syncAlert_eq]; rfl
@[simp] theorem syncAlert_pending (e : AlertId) : (syncAlert e s).pending = s.pending := by rw [syncAlert_eq]; rfl
@[simp] theorem syncAlert_mode (e : AlertId) : (syncAlert e s).mau.mode = s.mau.mode := by rw [syncAlert_eq]; rfl

@[simp] theorem syncAlert_mast (e : AlertId) (m : Fin 2) : (syncAlert e s).mast m = s.mast m := by rw [syncAlert_eq]; rfl
@[simp] theorem syncAlert_pile (e : AlertId) (p : Fin 24) : (syncAlert e s).pile p = s.pile p := by rw [syncAlert_eq]; rfl
@[simp] theorem syncAlert_cannon (e : AlertId) (c : Fin 32) : (syncAlert e s).cannon c = s.cannon c := by rw [syncAlert_eq]; rfl
@[simp] theorem syncAlert_machine (e : AlertId) (m : Fin 4) : (syncAlert e s).machine m = s.machine m := by rw [syncAlert_eq]; rfl
@[simp] theorem syncAlert_run (e : AlertId) (c : Fin 32) : (syncAlert e s).run c = s.run c := by rw [syncAlert_eq]; rfl
@[simp] theorem syncAlert_demand (e : AlertId) (p : Fin 24) : (syncAlert e s).demand p = s.demand p := by rw [syncAlert_eq]; rfl
@[simp] theorem syncAlert_pond (e : AlertId) (p : Fin 4) : (syncAlert e s).pond p = s.pond p := by rw [syncAlert_eq]; rfl
@[simp] theorem syncAlert_monitor (e : AlertId) (m : Fin 8) : (syncAlert e s).monitor m = s.monitor m := by rw [syncAlert_eq]; rfl
@[simp] theorem syncAlert_order (e : AlertId) (k : Nat) : (syncAlert e s).order k = s.order k := by rw [syncAlert_eq]; rfl
@[simp] theorem syncAlert_episode (e : AlertId) (k : Nat) : (syncAlert e s).episode k = s.episode k := by rw [syncAlert_eq]; rfl

@[simp] theorem syncAlerts_nil : syncAlerts [] s = s := rfl

@[simp] theorem syncAlerts_cons (e : AlertId) (es : List AlertId) :
    syncAlerts (e :: es) s = syncAlerts es (syncAlert e s) := rfl

end Sys2Proof.Machine
end

