-- ==== Sys2Proof/Proofs/Wind.lean ====
section
/-! SUPPORT. The wind front-end under every command: the window, the sums, the selected mast, the published
wind and the gate move at a gate expiry alone (R2, R9 to R13). -/

namespace Sys2Proof.Machine

/-! ## The operations that leave the wind front-end whole -/

section
variable (s : State)

@[simp] theorem reportUsable_wfe (before : State) : (reportUsable before s).wfe = s.wfe :=
  (quiet_reportUsable s before).wfe

@[simp] theorem forPiles_setPile_wfe (f : Fin 24 → State → Pile) :
    (forPiles (fun p t => t.setPile p (f p t)) s).wfe = s.wfe :=
  (quiet_forPiles s _ fun p t => quiet_setPile t p (f p t)).wfe

@[simp] theorem closeDay_wfe (d : Nat) : (closeDay d s).wfe = s.wfe := (quiet_closeDay s d).wfe

@[simp] theorem evaluateExclusion_wfe : (evaluateExclusion s).wfe = s.wfe := (quiet_evaluateExclusion s).wfe

@[simp] theorem testFitness_wfe (before : State) : (testFitness before s).wfe = s.wfe :=
  (quiet_testFitness s before).wfe

@[simp] theorem shareRain_wfe (n : Nat) : (shareRain n s).wfe = s.wfe := (quiet_shareRain s n).wfe

@[simp] theorem enterMode_wfe (m : Mode) (x : Cause) : (enterMode m x s).wfe = s.wfe := by
  rw [(enterMode_quiet s m x).wfe]; simp

@[simp] theorem recomputeEscalation_wfe : (recomputeEscalation s).wfe = s.wfe := forPiles_setPile_wfe s _

/-- A rollover records the day; all else of it is quiet (R24). -/
theorem quiet_rollover : Quiet (s.setYc { s.yc with recordedDay := some (currentDay s) }) (rollover s) :=
  ((quiet_closeDay _ _).trans (quiet_forPiles _ zeroDelivered fun p t => quiet_setPile t p _)).trans
    (within_post _ _).quiet

@[simp] theorem rollover_wfe : (rollover s).wfe = s.wfe := (quiet_rollover s).wfe

@[simp] theorem rolloverTest_wfe : (rolloverTest s).wfe = s.wfe := by
  unfold rolloverTest
  split
  · rfl
  · split <;> simp

@[simp] theorem purge_wfe : (purge s).wfe = s.wfe := rfl

@[simp] theorem secondStep_wfe : (secondStep s).wfe = s.wfe := by
  unfold secondStep
  simp only
  split
  · split <;> simp
  · simp

@[simp] theorem setTimeStep_wfe (n : Nat) : (setTimeStep n s).wfe = s.wfe := by simp [setTimeStep]

@[simp] theorem forecastStep_wfe (i t : Nat) (fs : List SlotFields) : (forecastStep i t fs s).wfe = s.wfe := by
  simp [forecastStep]

@[simp] theorem openEpisode_wfe (m : Fin 8) (v k : Nat) : (openEpisode m v k s).wfe = s.wfe := by
  simp [openEpisode]

@[simp] theorem updateEpisode_wfe (m : Fin 8) (v k : Nat) (e : Episode) :
    (updateEpisode m v k e s).wfe = s.wfe := by simp [updateEpisode]

@[simp] theorem closeEpisode_wfe (k : Nat) (r : CloseReason) : (closeEpisode k r s).wfe = s.wfe := by
  unfold closeEpisode
  split <;> simp

@[simp] theorem closeStale_wfe (m : Fin 8) : (closeStale m s).wfe = s.wfe := by
  unfold closeStale
  split <;> simp

@[simp] theorem holdOff_wfe (m : Fin 8) (k : Nat) : (holdOff m k s).wfe = s.wfe := by
  unfold holdOff
  simp only
  split <;> simp

@[simp] theorem recordReading_wfe (m : Fin 8) (v : Nat) : (recordReading m v s).wfe = s.wfe := by
  simp [recordReading]

@[simp] theorem readingStep_wfe (m : Fin 8) (v : Nat) : (readingStep m v s).wfe = s.wfe := by
  unfold readingStep
  simp only
  repeat' split
  all_goals simp

@[simp] theorem configureMonitor_wfe (m : Fin 8) (f : MonitorFields) :
    (configureMonitor m f s).wfe = s.wfe := by simp [configureMonitor]

@[simp] theorem releaseMonitor_wfe (m : Fin 8) : (releaseMonitor m s).wfe = s.wfe := by
  unfold releaseMonitor
  simp only
  split <;> simp

@[simp] theorem monitorStaleStep_wfe (m : Fin 8) : (monitorStaleStep m s).wfe = s.wfe := by
  unfold monitorStaleStep
  simp only
  split <;> simp

@[simp] theorem splitStep_wfe (f e o : Nat) : (splitStep f e o s).wfe = s.wfe := by
  simp [splitStep, emptyEpisodes]

@[simp] theorem stopStep_wfe (b : Bool) : (stopStep b s).wfe = s.wfe := by
  unfold stopStep
  simp only
  split
  · simp [setStop]
  · rfl

@[simp] theorem modeStep_wfe (m : Mode) : (modeStep m s).wfe = s.wfe := by
  unfold modeStep
  split <;> simp

@[simp] theorem ackStep_wfe (e : AlertId) : (ackStep e s).wfe = s.wfe := by
  unfold ackStep
  simp only
  split <;> rfl

@[simp] theorem relatchAll_wfe : (relatchAll s).wfe = s.wfe := by
  unfold relatchAll
  generalize alertOrder = es
  induction es generalizing s with
  | nil => rfl
  | cons e es ih =>
    rw [List.foldl_cons, ih]
    unfold relatch
    simp only
    split <;> simp

@[simp] theorem warmRestart_wfe : (warmRestart s).wfe = s.wfe := by
  unfold warmRestart obeyStop
  simp only
  split <;> simp [clearFlags, restartMonitors, emptyEpisodes, (within_closeAll _).wfe, discardWork]

theorem pollEvent_wfe (n : Nat) : (pollEvent n s).1.wfe = s.wfe := by
  unfold pollEvent
  generalize s.lc.notices.take n = l, ([] : List Byte) = b
  induction l generalizing s b with
  | nil => rfl
  | cons x l ih =>
    rw [List.foldl_cons, deliverNotice, ih]
    unfold delivered
    repeat' split
    all_goals rfl

end

/-! ## The window -/

/-- The masts and the bounce interval apart, the wind front-end is as it was. -/
structure WindSame (s t : State) : Prop where
  ring : t.wfe.ring = s.wfe.ring
  sums : t.wfe.sums = s.wfe.sums
  selected : t.wfe.selected = s.wfe.selected
  published : t.wfe.published = s.wfe.published
  gate : t.wfe.gate = s.wfe.gate

theorem WindSame.of_wfe {s t : State} (h : t.wfe = s.wfe) : WindSame s t := by
  constructor <;> rw [h]

theorem WindSame.trans {s t u : State} (h : WindSame s t) (k : WindSame t u) : WindSame s u :=
  ⟨k.ring.trans h.ring, k.sums.trans h.sums, k.selected.trans h.selected,
    k.published.trans h.published, k.gate.trans h.gate⟩

theorem windSame_setMast (m : Fin 2) (v : Mast) (s : State) : WindSame s (s.setMast m v) :=
  ⟨rfl, rfl, rfl, rfl, rfl⟩

theorem windSame_setSite (v : Site) (s : State) : WindSame s (s.setSite v) := .of_wfe rfl

theorem windSame_setBounce (n : Option Nat) (s : State) :
    WindSame s (s.setWfe { s.wfe with bounce := n }) := ⟨rfl, rfl, rfl, rfl, rfl⟩

theorem windSame_pulseStep (m : Fin 2) (s : State) : WindSame s (pulseStep m s) := by
  unfold pulseStep
  simp only
  split
  · exact ⟨rfl, rfl, rfl, rfl, rfl⟩
  · exact .of_wfe rfl

theorem windSame_rainEdge (s : State) : WindSame s (rainEdge s) := by
  unfold rainEdge
  simp only
  split
  · constructor <;> simp [setRainLow]
  · exact .of_wfe rfl

theorem windSame_serviceMast (m : Fin 2) (b : Bool) (s : State) : WindSame s (serviceMast m b s) :=
  (windSame_setMast m _ s).trans (.of_wfe (syncAlert_wfe _ _))

theorem undeclared_wfe (ms : List (Fin 4)) (s : State) :
    (ms.foldl (fun t m => undeclare m t) s).wfe = s.wfe := by
  induction ms generalizing s with
  | nil => rfl
  | cons m ms ih =>
    rw [List.foldl_cons, ih]
    unfold undeclare
    split <;> rfl

theorem redeclare_wfe (before : Site) (s : State) : (redeclare before s).wfe = s.wfe := by
  unfold redeclare
  simp only
  split <;> simp [(within_syncAlerts _ _).wfe, undeclared_wfe]

theorem windSame_refitMast (x y : Bool) (s : State) : WindSame s (refitMast x y s) := by
  unfold refitMast
  cases x <;> cases y <;> constructor <;> simp

theorem windSame_refitGauge (b : Bool) (s : State) : WindSame s (refitGauge b s) := by
  unfold refitGauge
  split
  · exact .of_wfe rfl
  · exact windSame_setBounce none s

@[simp] theorem retestDay_wfe (before : Site) (s : State) : (retestDay before s).wfe = s.wfe := by
  unfold retestDay
  split <;> simp

@[simp] theorem retestForecast_wfe (before : Site) (s : State) : (retestForecast before s).wfe = s.wfe := by
  unfold retestForecast
  split <;> simp

@[simp] theorem retestWater_wfe (before s : State) : (retestWater before s).wfe = s.wfe := by
  simp [retestWater]

/-- The wind front-end after a SITE_SETUP is as the refitting of mast and gauge leaves it (R5, R16). -/
theorem siteStep_wfe (v : Site) (s : State) : (siteStep v s).wfe =
    (refitGauge v.gaugeFitted (refitMast s.site.mast1Fitted v.mast1Fitted (s.setSite v))).wfe := by
  simp only [siteStep, redeclare_wfe, retestWater_wfe, retestForecast_wfe, retestDay_wfe]

theorem windSame_siteStep (v : Site) (s : State) : WindSame s (siteStep v s) :=
  (windSame_setSite v s).trans <| (windSame_refitMast _ _ _).trans <|
    (windSame_refitGauge _ _).trans (.of_wfe (siteStep_wfe v s))

/-- Whatever event reaches past the yard leaves the window, but for the gate's (R2). -/
theorem Reaches.windSame {f : State → State} (h : Reaches f) (s : State) :
    WindSame s (f s) := by
  cases h with
  | rain => exact (windSame_rainEdge s)
  | second => exact (.of_wfe (secondStep_wfe s))
  | stop b => exact (.of_wfe (stopStep_wfe s b))
  | site v => exact (windSame_siteStep v s)
  | split f e o => exact (.of_wfe (splitStep_wfe s f e o))
  | configureMonitor m f => exact (.of_wfe (configureMonitor_wfe s m f))
  | releaseMonitor m => exact (.of_wfe (releaseMonitor_wfe s m))
  | attrib m n ps => exact (.of_wfe rfl)
  | mode m => exact (.of_wfe (modeStep_wfe s m))
  | setTime t => exact (.of_wfe (setTimeStep_wfe s t))
  | forecast i t fs => exact (.of_wfe (forecastStep_wfe s i t fs))
  | reading m v => exact (.of_wfe (readingStep_wfe s m v))
  | mastService m b => exact (windSame_serviceMast m b s)
  | ack e => exact (.of_wfe (ackStep_wfe s e))

/-- A command but the gate expiry and the power-on reset keeps the window of any state as it is. -/
theorem keeps_windSame (i : Instr) (s : State) (hg : ∀ v w, i ≠ .gateExpiry v w)
    (hp : ∀ a b, i ≠ .powerOnReset a b) : Keeps i (WindSame s) where
  line t u h k := k.trans (.of_wfe (by rw [h.rest]))
  powerOn a b t e _ := absurd e (hp a b)
  pulse m t k := k.trans (windSame_pulseStep m t)
  bounce t k := k.trans (windSame_setBounce none t)
  monitorStale m t k := k.trans (.of_wfe (monitorStaleStep_wfe t m))
  makes f t h k := by
    refine k.trans <| .trans ?_ (.of_wfe (inEvent_within t f).wfe)
    refine .trans (.of_wfe (t := t.setPass false) rfl) ?_
    rcases h.quiet_or_reaches with ⟨v, w, e, -⟩ | q | r
    · exact absurd e (hg v w)
    · exact .of_wfe (q _).wfe
    · exact r.windSame _
  asks j f t h k := by
    refine k.trans <| .trans ?_ (.of_wfe (inEvent_within t f).wfe)
    refine .trans (.of_wfe (t := t.setPass false) rfl) ?_
    rcases h.quiet_or_reaches with q | r
    · exact .of_wfe (q _).wfe
    · exact r.windSame _
  poll n t k := k.trans (.of_wfe (pollEvent_wfe t n))
  restart t k := k.trans (.of_wfe (warmRestart_wfe t))

/-- Settles O19: no command but the two reaches the window. -/
theorem windChangesOnlyAtAGateExpiry : Obligations.WindChangesOnlyAtAGateExpiry := by
  intro i s t hg hp h
  obtain ⟨r, m, x, p, g⟩ := (keeps_windSame i s hg hp).exec h (.of_wfe rfl)
  exact ⟨r, m, x, p, g⟩

end Sys2Proof.Machine
end

