-- ==== Sys2Proof/Proofs/Gate.lean ====
section
/-! SUPPORT. The stages of a gate expiry (R2 to R12): the samples, the suspicion, the selected mast, the
window and its sums, the published wind. -/

namespace Sys2Proof.Machine

/-! ## The sums -/

theorem ringSum_append (ring : List Sample) (x : Sample) (n : Fin 16) :
    ringSum (ring ++ [x]) n = ringSum ring n + if x.sector = n then x.speed else 0 := by
  unfold ringSum
  by_cases h : x.sector = n <;> simp [h]

theorem ringSum_cons (x : Sample) (ring : List Sample) (n : Fin 16) :
    ringSum (x :: ring) n = (if x.sector = n then x.speed else 0) + ringSum ring n := by
  unfold ringSum
  by_cases h : x.sector = n <;> simp [h]

/-- What R9 and R10 hold of the ring and its sums. -/
structure Wfe.SumsSound (w : Wfe) : Prop where
  length : w.ring.length ≤ 200
  sums : ∀ n, w.sums.get n = ringSum w.ring n

theorem get_addSpeed (sums : Table 16 Nat) (x : Sample) (n : Fin 16) :
    (addSpeed sums x).get n = sums.get n + if x.sector = n then x.speed else 0 := by
  unfold addSpeed
  rw [Table.get_modify]
  by_cases h : n = x.sector
  · simp [h]
  · simp [h, Ne.symm h]

theorem get_dropSpeed (sums : Table 16 Nat) (x : Sample) (n : Fin 16) :
    (dropSpeed sums x).get n = sums.get n - if x.sector = n then x.speed else 0 := by
  unfold dropSpeed
  rw [Table.get_modify]
  by_cases h : n = x.sector
  · simp [h]
  · simp [h, Ne.symm h]

/-- A sample enters: the ring's length stays within 200, and its speed joins its sector's sum as the oldest
one's leaves its own (R9, R10). -/
theorem Wfe.SumsSound.enter {w : Wfe} (h : w.SumsSound) (x : Sample) : (w.enter x).SumsSound := by
  obtain ⟨hl, hs⟩ := h
  unfold Wfe.enter
  cases hr : w.ring with
  | nil =>
    refine ⟨by simp, fun n => ?_⟩
    rw [get_addSpeed, hs, hr]
    exact (ringSum_append [] x n).symm
  | cons old rest =>
    rw [hr] at hl
    simp only
    split
    · refine ⟨by simp at *; omega, fun n => ?_⟩
      rw [get_addSpeed, hs, hr, ringSum_append]
    · refine ⟨by simp at *; omega, fun n => ?_⟩
      rw [get_addSpeed, get_dropSpeed, hs, hr, ringSum_append, ringSum_cons, Nat.add_sub_cancel_left]

theorem sumsSound_of_windSame {s t : State} (h : WindSame s t) (k : s.wfe.SumsSound) : t.wfe.SumsSound :=
  ⟨h.ring ▸ k.length, by rw [h.sums, h.ring]; exact k.sums⟩


/-! ## The stages -/

/-- What stages 1 and 2 make of a fitted mast (R2, R4, R6). -/
def Mast.measured (d : Mast) (kcal ocal : Nat) (vane : BitVec 4) : Mast :=
  { d with
    pulses := 0
    sample := some (formSample d.pulses kcal ocal vane)
    zeroRun := if d.pulses = 0 then min (d.zeroRun + 1) 100 else 0
    suspect := if d.pulses = 0 then d.suspect else false }

theorem measureMast_mast (vane : BitVec 4) (m i : Fin 2) (s : State) :
    (measureMast vane m s).mast i =
      if i = m ∧ fitted s m = true then (s.mast m).measured (s.site.kcal m) (s.site.ocal m) vane
      else s.mast i := by
  unfold measureMast
  simp only
  split
  · rename_i h
    rw [setMast_mast]
    by_cases e : i = m
    · simp only [e, h, and_self, if_true]
      rfl
    · simp [e, setVane]
  · rename_i h
    simp [h, setVane]

/-- Stages 1 and 2 write the masts and the vane filters alone. -/
theorem measureMast_eq (vane : BitVec 4) (m : Fin 2) (s : State) :
    measureMast vane m s =
      { s with
        pins := (setVane m vane s).pins
        wfe := { s.wfe with masts := (measureMast vane m s).wfe.masts } } := by
  unfold measureMast
  simp only
  split <;> rfl

/-- Stage 3's mark on one mast (R6). -/
def markSuspect (b : Bool) (m : Fin 2) (s : State) : State :=
  if b then s.setMast m { s.mast m with suspect := true } else s

theorem testSuspicion_eq (s : State) :
    testSuspicion s = syncAlerts [.mastSuspect 0, .mastSuspect 1]
      (markSuspect (becomesSuspect s 1) 1 (markSuspect (becomesSuspect s 0) 0 s)) := rfl

theorem markSuspect_mast (b : Bool) (m i : Fin 2) (s : State) :
    (markSuspect b m s).mast i = if i = m ∧ b = true then { s.mast i with suspect := true } else s.mast i := by
  unfold markSuspect
  cases b
  · simp
  · by_cases h : i = m <;> simp [setMast_mast, h]

/-- A mark writes the masts alone. -/
theorem markSuspect_eq (b : Bool) (m : Fin 2) (s : State) :
    markSuspect b m s = { s with wfe := { s.wfe with masts := (markSuspect b m s).wfe.masts } } := by
  unfold markSuspect
  cases b <;> rfl

/-- Stage 3 marks the masts it finds suspect (R6). -/
theorem testSuspicion_mast (i : Fin 2) (s : State) :
    (testSuspicion s).mast i =
      if becomesSuspect s i then { s.mast i with suspect := true } else s.mast i := by
  simp only [testSuspicion_eq, syncAlerts_cons, syncAlerts_nil, syncAlert_mast, markSuspect_mast]
  match i with
  | 0 => simp
  | 1 => simp

theorem windSame_measureMast (vane : BitVec 4) (m : Fin 2) (s : State) :
    WindSame s (measureMast vane m s) := by
  rw [measureMast_eq]
  exact ⟨rfl, rfl, rfl, rfl, rfl⟩

theorem windSame_markSuspect (b : Bool) (m : Fin 2) (s : State) : WindSame s (markSuspect b m s) := by
  rw [markSuspect_eq]
  exact ⟨rfl, rfl, rfl, rfl, rfl⟩

theorem windSame_testSuspicion (s : State) : WindSame s (testSuspicion s) := by
  rw [testSuspicion_eq]
  exact (windSame_markSuspect _ 0 s).trans <| (windSame_markSuspect _ 1 _).trans <|
    .of_wfe (within_syncAlerts _ _).wfe

/-- The state in which the gate chooses its mast (R8): the samples formed, the suspects marked. -/
def gateMeasured (vane0 vane1 : BitVec 4) (s : State) : State :=
  testSuspicion (measureMast vane1 1 (measureMast vane0 0 (s.setWfe { s.wfe with gate := Config.gateTicks })))

theorem gateStages_eq (vane0 vane1 : BitVec 4) (s : State) :
    gateStages vane0 vane1 s = publish (enterWindow (gateMeasured vane0 vane1 s)) := rfl

/-- The window as the gate finds it, its countdown restarted. -/
theorem windSame_gateMeasured (vane0 vane1 : BitVec 4) (s : State) :
    WindSame (s.setWfe { s.wfe with gate := Config.gateTicks }) (gateMeasured vane0 vane1 s) :=
  (windSame_measureMast _ _ _).trans <| (windSame_measureMast _ _ _).trans (windSame_testSuspicion _)

theorem sumsSound_enterWindow {s : State} (h : s.wfe.SumsSound) : (enterWindow s).wfe.SumsSound := by
  unfold enterWindow
  have k : ({ s.wfe with selected := selectMast s } : Wfe).SumsSound := ⟨h.length, h.sums⟩
  simp only
  split
  · exact k
  · split
    · exact k.enter _
    · exact k

theorem sumsSound_gateStages {s : State} (v w : BitVec 4) (h : s.wfe.SumsSound) :
    (gateStages v w s).wfe.SumsSound := by
  have g : (gateMeasured v w s).wfe.SumsSound :=
    sumsSound_of_windSame (windSame_gateMeasured v w s) ⟨h.length, h.sums⟩
  have e := sumsSound_enterWindow g
  rw [gateStages_eq]
  unfold publish
  rw [syncAlert_wfe]
  exact ⟨e.length, e.sums⟩

theorem sumsSound_reset : Wfe.reset.SumsSound := ⟨by decide, by decide⟩

theorem keeps_sumsSound (i : Instr) : Keeps i fun s => s.wfe.SumsSound where
  line t u h k := sumsSound_of_windSame (.of_wfe (by rw [h.rest])) k
  powerOn a b t _ _ := sumsSound_reset
  pulse m t k := sumsSound_of_windSame (windSame_pulseStep m t) k
  bounce t k := sumsSound_of_windSame (windSame_setBounce none t) k
  monitorStale m t k := sumsSound_of_windSame (.of_wfe (monitorStaleStep_wfe t m)) k
  makes f t h k := by
    refine sumsSound_of_windSame (.of_wfe (inEvent_within t f).wfe) ?_
    rcases h.quiet_or_reaches with ⟨v, w, -, rfl⟩ | q | r
    · exact sumsSound_of_windSame (.of_wfe (quiet_driftEvaluation _).wfe) (sumsSound_gateStages v w k)
    · exact sumsSound_of_windSame (.of_wfe (q _).wfe) k
    · exact sumsSound_of_windSame (r.windSame _) k
  asks j f t h k := by
    refine sumsSound_of_windSame (.of_wfe (inEvent_within t f).wfe) ?_
    rcases h.quiet_or_reaches with q | r
    · exact sumsSound_of_windSame (.of_wfe (q _).wfe) k
    · exact sumsSound_of_windSame (r.windSame _) k
  poll n t k := sumsSound_of_windSame (.of_wfe (pollEvent_wfe t n)) k
  restart t k := sumsSound_of_windSame (.of_wfe (warmRestart_wfe t)) k


/-- Settles O7: the gate's entry keeps the sums, and nothing else reaches the window. -/
theorem sectorSumsStayTheRingsSums : Obligations.SectorSumsStayTheRingsSums := by
  intro s t hs h
  obtain ⟨hl, hn⟩ := step_keeps keeps_sumsSound (fun s n q k => ⟨k.length, k.sums⟩)
    (fun s k => ⟨k.length, k.sums⟩) h ⟨hs.1, hs.2⟩
  exact ⟨hl, hn⟩

end Sys2Proof.Machine
end

