-- ==== Sys2Proof/Proofs/Sweep.lean ====
section
/-! SUPPORT. A relation between the states before and after that the writing of one record has, every
operation of the dispatcher, the valves, the pump set and the grant pass has: one walk through those
operations, for every such relation. The state of a cannon is written only where FAULTED and STUCK are
neither entered nor left. -/

namespace Sys2Proof.Machine

/-- R99: the states in which a configured cannon's VALVE condition is true. -/
def CannonPhase.alarmed : CannonPhase → Bool
  | .faulted | .stuck => true
  | _ => false

/-- What a relation has to hold of, to hold of every operation of the dispatcher. -/
structure SprayRules (R : State → State → Prop) : Prop where
  refl : ∀ s, R s s
  trans : ∀ {s t u}, R s t → R t u → R s u
  run : ∀ s c r, R s (s.setRun c r)
  complete : ∀ s k, R s (completeIfDone k s)
  suspensions : ∀ s n, R s (s.setSuspensions n)
  pass : ∀ s b, R s (s.setPass b)
  pump : ∀ s v, R s (s.setPump v)
  queue : ∀ s q, R s (s.setQueue q)
  slot : ∀ s n, R s (s.setSlot n)
  demand : ∀ s p d, R s (s.setDemand p d)
  post : ∀ s n, R s (post n s)
  phase : ∀ s c x n l, (s.cannon c).phase.alarmed = x.alarmed → R s (enterPhase c x n l s)

theorem enterPhase_cannon (c i : Fin 32) (x : CannonPhase) (n l : Option Nat) (s : State) :
    (enterPhase c x n l s).cannon i =
      if i = c then { s.cannon c with phase := x, travel := n, lostWater := l } else s.cannon i := by
  rw [enterPhase, syncAlert_cannon, setCannon_cannon]

@[simp] theorem updateRun_cannon (c i : Fin 32) (f : Run → Run) (s : State) :
    (updateRun c f s).cannon i = s.cannon i := by
  unfold updateRun
  split <;> rfl

/-- An open request moves the cannon to PENDING_OPEN, or on to OPENING where the slot stood free (R91, R92). -/
theorem openRequest_cannon (c i : Fin 32) (s : State) :
    (openRequest c s).cannon i = s.cannon i ∨ (i = c ∧
      (((openRequest c s).cannon i).phase = .pendingOpen ∨ ((openRequest c s).cannon i).phase = .opening)) := by
  by_cases h : i = c
  · subst h
    refine .inr ⟨rfl, ?_⟩
    unfold openRequest enqueue
    split
    · right
      simp only [issueEntry, setSlot_cannon, enterPhase_cannon, if_true]
    · left
      simp only [setQueue_cannon, enterPhase_cannon, if_true]
  · left
    unfold openRequest enqueue
    split
    · simp only [issueEntry, setSlot_cannon, enterPhase_cannon, if_true]
      simp [h]
    · simp only [setQueue_cannon, enterPhase_cannon, h, if_false]

section
variable {R : State → State → Prop} (h : SprayRules R)
include h

/-! ## Runs and the pump set -/

theorem SprayRules.updateRun (s : State) (c : Fin 32) (f : Run → Run) : R s (updateRun c f s) := by
  unfold Machine.updateRun
  split
  · exact h.run s c _
  · exact h.refl s

theorem SprayRules.endRun (s : State) (c : Fin 32) : R s (endRun c s) := by
  unfold Machine.endRun
  split
  · exact h.refl s
  · have k := h.trans (h.run s c none) (h.pass _ true)
    simp only
    split
    · exact h.trans k (h.complete _ _)
    · exact k
    · exact k

theorem SprayRules.suspendRun (s : State) (c : Fin 32) (x : SuspendCause) : R s (suspendRun c x s) := by
  unfold Machine.suspendRun
  have k := fun n f => h.trans (h.suspensions s n) (h.updateRun _ c f)
  simp only
  split
  · exact h.trans (k _ _) (h.endRun _ c)
  · exact k _ _

theorem SprayRules.applyDisposition (s : State) (c : Fin 32) : R s (applyDisposition c s) := by
  unfold Machine.applyDisposition
  split
  · exact h.refl s
  · split
    · exact h.suspendRun s c _
    · exact h.endRun s c
    · exact h.endRun s c
    · exact h.refl s

theorem SprayRules.pumpTo (s : State) (x : PumpPhase) (y : Option Source) (n : Option Nat) :
    R s (pumpTo x y n s) := h.trans (h.pump s _) (h.post _ _)

theorem SprayRules.startRequest (s : State) : R s (startRequest s) := by
  unfold Machine.startRequest
  split
  · split
    · exact h.pumpTo s _ _ _
    · exact h.refl s
  · exact h.refl s

theorem SprayRules.headerIdle (s : State) : R s (headerIdle s) := by
  unfold Machine.headerIdle
  split
  · unfold enterRundown
    split
    · split
      · exact h.pumpTo s _ _ _
      · exact h.pumpTo s _ _ _
    · exact h.pumpTo s _ _ _
  · exact h.refl s

theorem SprayRules.grantReport (s : State) : R s (grantReport s) := by
  unfold Machine.grantReport
  split
  · exact h.pumpTo s _ _ _
  · exact h.refl s

/-! ## Valves -/

theorem SprayRules.returnToIdle (s : State) (c : Fin 32) (ha : (s.cannon c).phase.alarmed = false) :
    R s (returnToIdle c s) :=
  h.trans (h.phase s c .idle _ _ ha) (h.trans (h.applyDisposition _ c) (h.trans (h.headerIdle _) (h.pass _ true)))

theorem SprayRules.withdrawOpen (s : State) (c : Fin 32) (ha : (s.cannon c).phase.alarmed = false) :
    R s (withdrawOpen c s) := h.trans (h.queue s _) (h.returnToIdle _ c ha)

theorem SprayRules.commandClose (s : State) (c : Fin 32) (ha : (s.cannon c).phase.alarmed = false) :
    R s (commandClose c s) :=
  h.trans (h.updateRun s c _) (h.phase _ c .closing _ _ (by rw [updateRun_cannon]; exact ha))

theorem SprayRules.beginClose (s : State) (c : Fin 32) (ha : (s.cannon c).phase.alarmed = false) :
    R s (beginClose c s) := by
  unfold Machine.beginClose
  split
  · exact h.commandClose s c ha
  · exact h.trans (h.updateRun s c _) (h.returnToIdle _ c (by rw [updateRun_cannon]; exact ha))

theorem SprayRules.issueEntry (s : State) (c : Fin 32) (m : Movement) : R s (issueEntry c m s) := by
  unfold Machine.issueEntry
  split
  · rename_i hp; exact h.phase s c .opening _ _ (by rw [hp]; rfl)
  · rename_i hp; exact h.beginClose s c (by rw [hp]; rfl)
  · rename_i hp; exact h.beginClose s c (by rw [hp]; rfl)
  · exact h.refl s

theorem SprayRules.enqueue (s : State) (c : Fin 32) (m : Movement) : R s (enqueue c m s) := by
  unfold Machine.enqueue
  split
  · exact h.trans (h.slot s _) (h.issueEntry _ c m)
  · exact h.queue s _

theorem SprayRules.slotStep (s : State) : R s (slotStep s) := by
  unfold Machine.slotStep
  split
  · exact h.slot s _
  · exact h.trans (h.queue s _) (h.trans (h.slot _ _) (h.issueEntry _ _ _))

theorem SprayRules.openRequest (s : State) (c : Fin 32) (ha : (s.cannon c).phase.alarmed = false) :
    R s (openRequest c s) := h.trans (h.phase s c .pendingOpen _ _ ha) (h.enqueue _ c _)

theorem SprayRules.queuedClose (s : State) (c : Fin 32) : R s (queuedClose c s) := by
  unfold Machine.queuedClose
  split
  · rename_i hp; exact h.withdrawOpen s c (by rw [hp]; rfl)
  · split
    · exact h.enqueue s c _
    · exact h.refl s
  · rename_i hp; exact h.trans (h.phase s c .closePending _ _ (by rw [hp]; rfl)) (h.enqueue _ c _)
  · exact h.refl s

theorem SprayRules.immediateClose (s : State) (c : Fin 32) : R s (immediateClose c s) := by
  unfold Machine.immediateClose removeEntry
  split
  · rename_i hp; exact h.withdrawOpen s c (by rw [hp]; rfl)
  · rename_i hp; exact h.trans (h.queue s _) (h.beginClose _ c (by rw [setQueue_cannon, hp]; rfl))
  · rename_i hp; exact h.trans (h.queue s _) (h.beginClose _ c (by rw [setQueue_cannon, hp]; rfl))
  · rename_i hp; exact h.trans (h.queue s _) (h.beginClose _ c (by rw [setQueue_cannon, hp]; rfl))
  · exact h.refl s

theorem SprayRules.closeToStop (s : State) (c : Fin 32) : R s (closeToStop c s) := by
  unfold Machine.closeToStop removeEntry
  split
  · rename_i hp; exact h.withdrawOpen s c (by rw [hp]; rfl)
  · rename_i hp; exact h.trans (h.queue s _) (h.commandClose _ c (by rw [setQueue_cannon, hp]; rfl))
  · rename_i hp; exact h.trans (h.queue s _) (h.commandClose _ c (by rw [setQueue_cannon, hp]; rfl))
  · rename_i hp; exact h.trans (h.queue s _) (h.commandClose _ c (by rw [setQueue_cannon, hp]; rfl))
  · exact h.refl s

/-! ## The dispatcher -/

theorem SprayRules.foldl {α : Type} (s : State) (f : State → α → State) (hf : ∀ t a, R t (f t a))
    (l : List α) : R s (l.foldl f s) := by
  induction l generalizing s with
  | nil => exact h.refl s
  | cons a l ih => exact h.trans (hf s a) (ih _)

theorem SprayRules.forCannons (s : State) (f : Fin 32 → State → State) (hf : ∀ t c, R t (f c t)) :
    R s (forCannons f s) := h.foldl s _ hf _

theorem SprayRules.closeAll (s : State) : R s (closeAll s) :=
  h.trans (h.forCannons s _ h.closeToStop) (h.trans (h.queue _ _) (h.slot _ _))

theorem SprayRules.withdrawPending (s : State) (c : Fin 32) : R s (withdrawPending c s) := by
  unfold Machine.withdrawPending
  split
  · rename_i hp; exact h.withdrawOpen s c (by rw [hp]; rfl)
  · exact h.refl s

theorem SprayRules.cannonsOnMode (s : State) (m : Mode) : R s (cannonsOnMode m s) := by
  cases m
  · exact h.forCannons s _ h.withdrawPending
  · exact h.refl s
  · exact h.refl s
  · exact h.closeAll s

theorem SprayRules.decideEnd (s : State) (c : Fin 32) : R s (decideEnd c s) := by
  unfold Machine.decideEnd
  split
  · exact h.refl s
  · split
    · exact h.endRun s c
    · exact h.trans (h.updateRun s c _) (h.queuedClose _ c)

theorem SprayRules.decideEnds (s : State) (test : Run → Bool) : R s (decideEnds test s) := by
  refine h.forCannons s _ fun t c => ?_
  split
  · split
    · exact h.decideEnd t c
    · exact h.refl t
  · exact h.refl t

theorem SprayRules.dispatcherOnMode (s : State) (x y : Mode) : R s (dispatcherOnMode x y s) := by
  unfold Machine.dispatcherOnMode
  split
  · exact h.decideEnds s _
  · exact h.decideEnds s _
  · refine h.trans ?_ (h.pass _ true)
    split
    · exact h.decideEnds s _
    · exact h.refl s
  · exact h.pass s true

theorem SprayRules.loseCapacityAt (s : State) (c : Fin 32) : R s (loseCapacityAt c s) := by
  have k := fun d => h.trans (h.updateRun s c (fun r => { r with phase := r.phase.dispose d }))
    (h.immediateClose _ c)
  unfold Machine.loseCapacityAt
  split
  · exact h.refl s
  · split
    · exact h.refl s
    · split
      · exact k _
      · exact k _
      · exact k _
      · exact k _
      · exact h.refl s

theorem SprayRules.capacityLoss (s : State) : R s (capacityLoss s) := h.forCannons s _ h.loseCapacityAt

theorem SprayRules.overloadTest (s : State) : R s (overloadTest s) := by
  unfold Machine.overloadTest
  split
  · exact h.refl s
  · exact h.capacityLoss s

theorem SprayRules.pumpStop (s : State) : R s (pumpStop s) := h.trans (h.pumpTo s _ _ _) (h.capacityLoss _)

theorem SprayRules.pumpOnMode (s : State) (m : Mode) : R s (pumpOnMode m s) := by
  unfold Machine.pumpOnMode
  split
  · exact h.refl s
  · exact h.pumpStop s
  · exact h.pumpStop s
  · exact h.pumpStop s
  · exact h.refl s

theorem SprayRules.capacityIncrease (s : State) : R s (capacityIncrease s) :=
  h.trans (h.pumpTo s _ _ _) (h.pass _ true)

theorem SprayRules.resumeStep (s : State) (c : Fin 32) : R s (resumeStep c s) := by
  unfold Machine.resumeStep
  split
  · split
    · exact h.endRun s c
    · exact h.refl s
  · exact h.refl s

theorem SprayRules.targetTest (s : State) (c : Fin 32) : R s (targetTest c s) := by
  unfold Machine.targetTest
  split
  · exact h.refl s
  · split
    · exact h.refl s
    · split
      · exact h.trans (h.updateRun s c _) (h.queuedClose _ c)
      · exact h.refl s
    · exact h.refl s

theorem SprayRules.endOthers (s : State) (k : Nat) (c : Fin 32) : R s (endOthers k c s) := by
  refine h.forCannons s _ fun t x => ?_
  split
  · split
    · exact h.decideEnd t x
    · exact h.refl t
  · exact h.refl t

/-! ## Closing an order, for a relation that the writing of an order has too -/

theorem SprayRules.closeOrder (order : ∀ s k o, R s (s.setOrder k o))
    (hold : ∀ s p, R s (recomputeHold p s)) (s : State) (k : Nat) (x : OrderOutcome) :
    R s (closeOrder k x s) := by
  have detach : ∀ t c, R t (detachAt k c t) := by
    intro t c
    unfold detachAt
    split
    · exact h.refl t
    · split
      · exact h.trans (h.run t c _) (h.decideEnd _ c)
      · exact h.refl t
  have announce : ∀ t o, R t (announceClosure k o t) := by
    intro t o
    unfold announceClosure
    simp only
    split
    · exact h.trans (hold t _) (h.post _ _)
    · exact h.post t _
  unfold Machine.closeOrder
  split
  · exact h.refl s
  · split
    · exact h.refl s
    · exact h.trans (order s k _) (h.trans (h.forCannons _ _ detach) (announce _ _))

theorem SprayRules.closeOrders (order : ∀ s k o, R s (s.setOrder k o))
    (hold : ∀ s p, R s (recomputeHold p s)) (s : State) (test : Order → Bool) (x : OrderOutcome) :
    R s (closeOrders test x s) := by
  refine h.foldl s _ (fun t k => ?_) _
  split
  · split
    · exact h.closeOrder order hold t k x
    · exact h.refl t
  · exact h.refl t

/-! ## The grant pass -/

theorem SprayRules.attempt (p : Pass) (c : Fin 32) (f : State → State) (hf : R p.s (f p.s)) :
    R p.s (p.attempt c f).s := by
  unfold Pass.attempt
  split
  · exact hf
  · exact h.refl p.s

theorem SprayRules.passFold {α : Type} (f : Pass → α → Pass) (hf : ∀ p a, R p.s (f p a).s) (l : List α)
    (p : Pass) : R p.s (l.foldl f p).s := by
  induction l generalizing p with
  | nil => exact h.refl p.s
  | cons a l ih => exact h.trans (hf p a) (ih _)

theorem SprayRules.resumeRun (s : State) (c : Fin 32) (ha : (s.cannon c).phase.alarmed = false) :
    R s (resumeRun c s) :=
  h.trans (h.updateRun s c _) (h.openRequest _ c (by rw [updateRun_cannon]; exact ha))

theorem SprayRules.newRun (s : State) (c : Fin 32) (o : Origin) (t : Option (Fin 4)) (n : Nat)
    (ha : (s.cannon c).phase.alarmed = false) : R s (newRun c o t n s) :=
  h.trans (h.run s c _) (h.openRequest _ c ha)

end

/-- A cannon that could spray is IDLE (R108). -/
theorem phase_of_couldSpray {s : State} {c : Fin 32} (h : couldSpray s c = true) :
    (s.cannon c).phase = .idle := by
  simp only [couldSpray, Bool.and_eq_true, decide_eq_true_eq] at h
  obtain ⟨⟨⟨⟨⟨-, hp⟩, -⟩, -⟩, -⟩, -⟩ := h
  exact hp

theorem couldSpray_of_eligible {s : State} {c : Fin 32} (h : eligible s c = true) : couldSpray s c = true := by
  simp only [eligible, Bool.and_eq_true] at h
  exact h.1

theorem couldSpray_of_freeToResume {s : State} {c : Fin 32} (h : freeToResume s c = true) :
    couldSpray s c = true := by
  simp only [freeToResume, Bool.and_eq_true] at h
  exact h.1

theorem not_alarmed_of_couldSpray {s : State} {c : Fin 32} (h : couldSpray s c = true) :
    (s.cannon c).phase.alarmed = false := by rw [phase_of_couldSpray h]; rfl

theorem mem_insertBy {α : Type} (before : α → α → Bool) (a x : α) (l : List α) :
    x ∈ insertBy before a l ↔ x = a ∨ x ∈ l := by
  induction l with
  | nil => simp [insertBy]
  | cons b l ih =>
    unfold insertBy
    split
    · simp only [List.mem_cons, ih]
      tauto
    · simp

theorem mem_sortBy {α : Type} (before : α → α → Bool) (x : α) (l : List α) :
    x ∈ sortBy before l ↔ x ∈ l := by
  induction l with
  | nil => simp [sortBy]
  | cons a l ih => rw [sortBy, List.foldr_cons, mem_insertBy, ← sortBy, ih, List.mem_cons]

theorem freeToResume_of_mem_resumableAuto {s : State} {c : Fin 32} (h : c ∈ resumableAuto s) :
    freeToResume s c = true := by
  simp only [resumableAuto, mem_sortBy, List.mem_filter, Bool.and_eq_true] at h
  exact h.2.1

section
variable {R : State → State → Prop} (h : SprayRules R)
include h

theorem SprayRules.resumeOrderAt (k : Nat) (p : Pass) (c : Fin 32) : R p.s (resumeOrderAt k p c).s := by
  unfold Machine.resumeOrderAt
  split
  · split
    · rename_i hf
      simp only [Bool.and_eq_true] at hf
      exact h.attempt p c _ (h.resumeRun p.s c (not_alarmed_of_couldSpray (couldSpray_of_freeToResume hf.2)))
    · exact h.refl p.s
  · exact h.refl p.s

theorem SprayRules.grantOrderAt (k : Nat) (q : Fin 24) (acc : Pass × Nat) (c : Fin 32) :
    R acc.1.s (grantOrderAt k q acc c).1.s := by
  unfold Machine.grantOrderAt
  simp only
  split
  · rename_i hf
    simp only [Bool.and_eq_true] at hf
    exact h.attempt acc.1 c _ (h.newRun _ c _ _ _ (not_alarmed_of_couldSpray (couldSpray_of_eligible hf.1.2)))
  · exact h.refl acc.1.s

theorem SprayRules.serveOrder (p : Pass) (k : Nat) : R p.s (serveOrder p k).s := by
  have grants : ∀ (q : Fin 24) (l : List (Fin 32)) (acc : Pass × Nat),
      R acc.1.s (l.foldl (Machine.grantOrderAt k q) acc).1.s := by
    intro q l
    induction l with
    | nil => exact fun acc => h.refl acc.1.s
    | cons c l ih => exact fun acc => h.trans (h.grantOrderAt k q acc c) (ih _)
  unfold Machine.serveOrder
  split
  · exact h.refl p.s
  · generalize List.finRange 32 = l
    exact h.trans (h.passFold _ (h.resumeOrderAt k) l p) (grants _ l (_, _))

/-- Step 2 finds every candidate IDLE, or opened by a candidate before it (R126). -/
theorem SprayRules.resumeAutos (l : List (Fin 32)) (p : Pass)
    (hl : ∀ c ∈ l, (p.s.cannon c).phase.alarmed = false) : R p.s (l.foldl resumeAutoAt p).s := by
  induction l generalizing p with
  | nil => exact h.refl p.s
  | cons c l ih =>
    have hc := hl c (List.mem_cons_self ..)
    have step : R p.s (resumeAutoAt p c).s ∧
        ∀ x ∈ l, ((resumeAutoAt p c).s.cannon x).phase.alarmed = false := by
      have stays : ∀ x ∈ l, (p.s.cannon x).phase.alarmed = false := fun x hx =>
        hl x (List.mem_cons_of_mem _ hx)
      unfold resumeAutoAt
      split
      · split
        · unfold Pass.attempt
          split
          · refine ⟨h.resumeRun p.s c hc, fun x hx => ?_⟩
            rcases openRequest_cannon c x (Machine.updateRun c
              (fun r => { r with phase := .active .none none }) p.s) with e | ⟨-, e | e⟩
            · rw [Machine.resumeRun, e, updateRun_cannon]; exact stays x hx
            · rw [Machine.resumeRun, e]; rfl
            · rw [Machine.resumeRun, e]; rfl
          · exact ⟨h.refl p.s, stays⟩
        · exact ⟨h.refl p.s, stays⟩
      · exact ⟨h.refl p.s, stays⟩
    exact h.trans step.1 (ih _ step.2)

theorem SprayRules.servePile (p : Pass) (i : Fin 24) : R p.s (servePile p i).s := by
  have grant : ∀ q c, R q.s (grantAutoAt i q c).s := by
    intro q c
    unfold grantAutoAt
    simp only
    split
    · rename_i hf
      simp only [Bool.and_eq_true] at hf
      exact h.attempt q c _ (h.trans (h.newRun _ c _ _ _
        (not_alarmed_of_couldSpray (couldSpray_of_eligible hf.1.2))) (h.demand _ _ _))
    · exact h.refl q.s
  unfold Machine.servePile
  split
  · exact h.refl p.s
  · exact h.passFold _ grant _ p

theorem SprayRules.passSteps (s : State) : R s (passSteps s).s := by
  unfold Machine.passSteps
  have k := h.passFold _ h.serveOrder (openWetOrders s) ⟨s, false, false⟩
  have g := h.trans k (h.resumeAutos (resumableAuto ((openWetOrders s).foldl Machine.serveOrder ⟨s, false, false⟩).s) _
    fun c hc => not_alarmed_of_couldSpray (couldSpray_of_freeToResume (freeToResume_of_mem_resumableAuto hc)))
  simp only
  split
  · exact h.trans g (h.passFold _ h.servePile _ _)
  · exact g

theorem SprayRules.grantPass (s : State) : R s (grantPass s) := by
  unfold Machine.grantPass
  simp only
  refine h.trans ?_ (h.headerIdle _)
  have g : R s (if (Machine.passSteps s).granted then Machine.grantReport (Machine.passSteps s).s
      else (Machine.passSteps s).s) := by
    split
    · exact h.trans (h.passSteps s) (h.grantReport _)
    · exact h.passSteps s
  split
  · exact h.trans g (h.startRequest _)
  · exact g

/-- What an event adds to its own work is the grant pass it may owe (R124). -/
theorem SprayRules.inEvent (s : State) (f : State → State) : R (f (s.setPass false)) (inEvent f s) := by
  rcases inEvent_cases s f with e | e
  · rw [e]; exact h.refl _
  · rw [e]; exact h.trans (h.grantPass _) (h.pass _ _)

end

end Sys2Proof.Machine
end

