-- ==== Sys2Proof/Proofs/Alerts.lean ====
section
/-! SUPPORT. One entry of the alert table under the operations (R160): what latches it, what follows its
owner's condition, and what leaves it whole. -/

namespace Sys2Proof.Machine

/-- The entry of the table. -/
abbrev State.alert (s : State) (e : AlertId) : Alert := s.mau.alerts.get e

/-- The entry's condition is its owner's. -/
def InStep (e : AlertId) (s : State) : Prop := (s.alert e).condition = conditionOf s e

/-- What an operation does to an entry at one instant: a latch stands with its time, a new one has the
present time and its notice, and a risen condition has latched (R160). -/
structure Latching (e : AlertId) (s t : State) : Prop where
  now : now t = now s
  notices : ∀ n ∈ s.lc.notices, n ∈ t.lc.notices
  stands : (s.alert e).latch = true →
    (t.alert e).latch = true ∧ (t.alert e).firstLatch = (s.alert e).firstLatch
  latches : (s.alert e).latch = false → (t.alert e).latch = true →
    (t.alert e).firstLatch = Machine.now s ∧ .alert e ∈ t.lc.notices
  rises : (s.alert e).condition = false → (t.alert e).condition = true →
    (t.alert e).latch = true ∧ .alert e ∈ t.lc.notices

/-- The owner's condition is as it was, and so is an entry that was in step with it. -/
structure Calm (e : AlertId) (s t : State) : Prop extends Latching e s t where
  condition : conditionOf t e = conditionOf s e
  whole : InStep e s → t.alert e = s.alert e

/-- What an event at one instant does to an entry: the condition follows its owner, and an entry whose
owner's condition is as before is whole. The two entries of the water may rise and fall in one event. -/
structure Heeds (e : AlertId) (s t : State) : Prop extends Latching e s t where
  inStep : InStep e s → InStep e t
  whole : e ≠ .noWater → e ≠ .waterShort → InStep e s → conditionOf t e = conditionOf s e →
    t.alert e = s.alert e

/-- What a whole event does to an entry: latches stand, the condition follows its owner, and an entry whose
owner's condition is as before is whole. The two entries of the water may rise and fall in one event. -/
structure Follows (e : AlertId) (s t : State) : Prop where
  stands : (s.alert e).latch = true →
    (t.alert e).latch = true ∧ (t.alert e).firstLatch = (s.alert e).firstLatch
  latches : (s.alert e).latch = false → (t.alert e).latch = true →
    (t.alert e).firstLatch = now t ∧ .alert e ∈ t.lc.notices
  rises : (s.alert e).condition = false → (t.alert e).condition = true →
    (t.alert e).latch = true ∧ .alert e ∈ t.lc.notices
  inStep : InStep e s → InStep e t
  whole : e ≠ .noWater → e ≠ .waterShort → InStep e s → conditionOf t e = conditionOf s e →
    t.alert e = s.alert e

variable {e : AlertId} {s t u : State}

theorem Latching.trans (h : Latching e s t) (k : Latching e t u) : Latching e s u where
  now := k.now.trans h.now
  notices n hn := k.notices n (h.notices n hn)
  stands hl := by
    obtain ⟨a, b⟩ := h.stands hl
    obtain ⟨c, d⟩ := k.stands a
    exact ⟨c, d.trans b⟩
  latches hl hu := by
    cases ht : (t.alert e).latch with
    | false =>
      obtain ⟨a, b⟩ := k.latches ht hu
      exact ⟨a.trans h.now, b⟩
    | true =>
      obtain ⟨a, b⟩ := h.latches hl ht
      exact ⟨(k.stands ht).2.trans a, k.notices _ b⟩
  rises hc hu := by
    cases ht : (t.alert e).condition with
    | false => exact k.rises ht hu
    | true =>
      obtain ⟨a, b⟩ := h.rises hc ht
      exact ⟨(k.stands a).1, k.notices _ b⟩

/-- An operation that does not touch the entry. -/
theorem latching_of_alert (n : now t = now s) (p : ∀ n ∈ s.lc.notices, n ∈ t.lc.notices)
    (a : t.alert e = s.alert e) : Latching e s t where
  now := n
  notices := p
  stands hl := by rw [a]; exact ⟨hl, rfl⟩
  latches hl ht := by rw [a, hl] at ht; cases ht
  rises hl ht := by rw [a, hl] at ht; cases ht

theorem calm_of_alert (n : now t = now s) (p : ∀ n ∈ s.lc.notices, n ∈ t.lc.notices)
    (a : t.alert e = s.alert e) (c : conditionOf t e = conditionOf s e) : Calm e s t :=
  ⟨latching_of_alert n p a, c, fun _ => a⟩

theorem Calm.refl (e : AlertId) (s : State) : Calm e s s :=
  calm_of_alert rfl (fun _ h => h) rfl rfl

theorem Calm.inStep (h : Calm e s t) (k : InStep e s) : InStep e t := by
  unfold InStep
  rw [h.whole k, h.condition]
  exact k

theorem Calm.trans (h : Calm e s t) (k : Calm e t u) : Calm e s u :=
  ⟨h.toLatching.trans k.toLatching, k.condition.trans h.condition,
    fun x => (k.whole (h.inStep x)).trans (h.whole x)⟩

theorem Calm.heeds (h : Calm e s t) : Heeds e s t := ⟨h.toLatching, h.inStep, fun _ _ x _ => h.whole x⟩

theorem Heeds.follows (h : Heeds e s t) : Follows e s t :=
  ⟨h.stands, fun a b => by rw [h.now]; exact h.latches a b, h.rises, h.inStep, h.whole⟩

theorem Heeds.calm_trans (h : Heeds e s t) (k : Calm e t u) : Heeds e s u :=
  ⟨h.toLatching.trans k.toLatching, fun x => k.inStep (h.inStep x),
    fun a b x c => (k.whole (h.inStep x)).trans (h.whole a b x (k.condition.symm.trans c))⟩

theorem Calm.heeds_trans (h : Calm e s t) (k : Heeds e t u) : Heeds e s u :=
  ⟨h.toLatching.trans k.toLatching, fun x => k.inStep (h.inStep x),
    fun a b x c => (k.whole a b (h.inStep x) (c.trans h.condition.symm)).trans (h.whole x)⟩

/-- The entry and its owner's condition are as they were. -/
theorem follows_of_alert (a : t.alert e = s.alert e) (c : conditionOf t e = conditionOf s e) :
    Follows e s t where
  stands hl := by rw [a]; exact ⟨hl, rfl⟩
  latches hl ht := by rw [a, hl] at ht; cases ht
  rises hl ht := by rw [a, hl] at ht; cases ht
  inStep h := by unfold InStep; rw [a, c]; exact h
  whole _ _ _ _ := a

theorem Follows.of_alert_trans (a : t.alert e = s.alert e) (c : conditionOf t e = conditionOf s e)
    (h : Follows e t u) : Follows e s u where
  stands hl := by rw [← a] at hl ⊢; exact h.stands hl
  latches hl ht := h.latches (by rw [a]; exact hl) ht
  rises hl ht := h.rises (by rw [a]; exact hl) ht
  inStep k := h.inStep (by unfold InStep; rw [a, c]; exact k)
  whole x y k d := (h.whole x y (by unfold InStep; rw [a, c]; exact k) (d.trans c.symm)).trans a

theorem Follows.calm_trans (h : Follows e s t) (k : Calm e t u) : Follows e s u where
  stands hl := by
    obtain ⟨a, b⟩ := h.stands hl
    obtain ⟨c, d⟩ := k.stands a
    exact ⟨c, d.trans b⟩
  latches hl hu := by
    rw [k.now]
    cases ht : (t.alert e).latch with
    | false => exact k.latches ht hu
    | true =>
      obtain ⟨a, b⟩ := h.latches hl ht
      exact ⟨(k.stands ht).2.trans a, k.notices _ b⟩
  rises hc hu := by
    cases ht : (t.alert e).condition with
    | false => exact k.rises ht hu
    | true =>
      obtain ⟨a, b⟩ := h.rises hc ht
      exact ⟨(k.stands a).1, k.notices _ b⟩
  inStep x := k.inStep (h.inStep x)
  whole a b x c := (k.whole (h.inStep x)).trans (h.whole a b x (k.condition.symm.trans c))

/-! ## Writing the table -/

theorem Posts.mem (h : Posts s t) (n : Notice) (hn : n ∈ s.lc.notices) : n ∈ t.lc.notices :=
  h.keeps.subset hn

theorem conditionOf_mastSuspect (m : Fin 2) (s : State) :
    conditionOf s (.mastSuspect m) = (fitted s m && ((s.mast m).suspect || (s.mast m).declaredOut)) := rfl

theorem conditionOf_valve (c : Fin 32) (s : State) :
    conditionOf s (.valve c) = ((s.cannon c).configured && (s.cannon c).phase.alarmed) := by
  simp only [conditionOf]
  cases (s.cannon c).phase <;> rfl

@[simp] theorem conditionOf_setAlerts (a : Alerts) (e : AlertId) (s : State) :
    conditionOf (s.setAlerts a) e = conditionOf s e := by cases e <;> rfl

@[simp] theorem conditionOf_setNotices (n : List Notice) (e : AlertId) (s : State) :
    conditionOf (s.setNotices n) e = conditionOf s e := by cases e <;> rfl

@[simp] theorem conditionOf_post (n : Notice) (e : AlertId) (s : State) :
    conditionOf (post n s) e = conditionOf s e := by rw [post_eq, conditionOf_setNotices]

@[simp] theorem conditionOf_syncAlert (x e : AlertId) (s : State) :
    conditionOf (syncAlert x s) e = conditionOf s e := by
  rw [syncAlert_eq, conditionOf_setNotices, conditionOf_setAlerts]

@[simp] theorem now_post (n : Notice) (s : State) : now (post n s) = now s := by simp [now]

@[simp] theorem now_syncAlert (e : AlertId) (s : State) : now (syncAlert e s) = now s := by simp [now]

theorem syncAlert_alert_same (e : AlertId) (s : State) :
    (syncAlert e s).alert e = (s.alert e).after (conditionOf s e) (now s) := by
  rw [State.alert, syncAlert_get, if_pos rfl]

theorem syncAlert_alert_other {x : AlertId} (h : e ≠ x) (s : State) : (syncAlert x s).alert e = s.alert e := by
  rw [State.alert, syncAlert_get, if_neg h]

theorem inStep_syncAlert (e : AlertId) (s : State) : InStep e (syncAlert e s) := by
  unfold InStep
  rw [conditionOf_syncAlert]
  exact syncAlert_condition e s

/-- An entry written that was in step is whole. -/
theorem Alert.after_self (a : Alert) (time : Option Nat) : a.after a.condition time = a := by
  obtain ⟨c, l, f⟩ := a
  cases c <;> rfl

theorem mem_syncAlert_of_rise (e : AlertId) (s : State) (c : conditionOf s e = true)
    (a : (s.alert e).condition = false) : .alert e ∈ (syncAlert e s).lc.notices := by
  unfold syncAlert
  simp only [c, a, Bool.not_false, Bool.and_self, if_true]
  exact (mem_post _ _ _).2 (.inl rfl)

/-- Writing a condition latches a rise, and leaves an entry in step whole (R160). -/
theorem calm_syncAlert (x e : AlertId) (s : State) : Calm e s (syncAlert x s) := by
  by_cases h : e = x
  · subst h
    have cases := Alert.after_cases (s.alert e) (conditionOf s e) (now s)
    rw [← syncAlert_alert_same] at cases
    obtain ⟨hc, hcases⟩ := cases
    refine ⟨⟨now_syncAlert e s, (syncAlert_posts e s).mem, fun hl => ?_, fun hl ht => ?_, fun hl ht => ?_⟩,
      conditionOf_syncAlert e e s, fun k => ?_⟩
    · exact ⟨syncAlert_latch e e s hl, syncAlert_firstLatch e e s hl⟩
    · rcases hcases with ⟨c, a, -, f⟩ | ⟨-, l, -⟩
      · rw [hl] at f
        exact ⟨f, mem_syncAlert_of_rise e s c a⟩
      · rw [l, hl] at ht; cases ht
    · rw [hc] at ht
      rcases hcases with ⟨c, a, l, -⟩ | ⟨c | c, -⟩
      · exact ⟨l, mem_syncAlert_of_rise e s c a⟩
      · rw [c] at ht; cases ht
      · rw [hl] at c; cases c
    · rw [syncAlert_alert_same, ← k]
      exact Alert.after_self _ _
  · exact calm_of_alert (now_syncAlert x s) (syncAlert_posts x s).mem (syncAlert_alert_other h s)
      (conditionOf_syncAlert x e s)

theorem calm_post (n : Notice) (e : AlertId) (s : State) : Calm e s (post n s) :=
  calm_of_alert (now_post n s) (post_posts n s).mem (by rw [State.alert, post_mau]) (conditionOf_post n e s)

/-- The owner's state has changed and its entry been written, and nothing else of the entry. -/
theorem follows_syncAlert (a : t.alert e = s.alert e) : Follows e s (syncAlert e t) := by
  have k := calm_syncAlert e e t
  refine ⟨fun hl => ?_, fun hl ht => ?_, fun hl ht => ?_, fun _ => inStep_syncAlert e t,
    fun _ _ x c => ?_⟩
  · rw [← a] at hl ⊢; exact k.stands hl
  · rw [now_syncAlert]; exact k.latches (by rw [a]; exact hl) ht
  · exact k.rises (by rw [a]; exact hl) ht
  · rw [conditionOf_syncAlert] at c
    exact (k.whole (by unfold InStep; rw [a, c]; exact x)).trans a

theorem calm_syncAlerts (es : List AlertId) (e : AlertId) (s : State) : Calm e s (syncAlerts es s) := by
  induction es generalizing s with
  | nil => exact .refl e s
  | cons x es ih => exact (calm_syncAlert x e s).trans (ih _)

/-- The owner's state has changed at one instant, its entry untouched, and its entry is written. -/
theorem heeds_syncAlert (l : Latching e s t) (a : t.alert e = s.alert e) : Heeds e s (syncAlert e t) :=
  have k : Follows e s (syncAlert e t) := follows_syncAlert a
  ⟨l.trans (calm_syncAlert e e t).toLatching, k.inStep, k.whole⟩

/-- Owners' states are written and their entries follow; the other owners' conditions are as they were. -/
theorem heeds_writes (es : List AlertId) (l : Latching e s t) (a : t.alert e = s.alert e)
    (c : e ∉ es → conditionOf t e = conditionOf s e) : Heeds e s (syncAlerts es t) := by
  induction es generalizing t with
  | nil => exact (calm_of_alert l.now l.notices a (c List.not_mem_nil)).heeds
  | cons x es ih =>
    rw [syncAlerts_cons]
    by_cases h : e = x
    · subst h
      exact (heeds_syncAlert l a).calm_trans (calm_syncAlerts es _ _)
    · refine ih (l.trans (calm_syncAlert x e t).toLatching) ((syncAlert_alert_other h t).trans a) fun m => ?_
      rw [conditionOf_syncAlert]
      exact c (List.not_mem_cons_of_ne_of_not_mem h m)

/-- One owner's state is written and its entry follows. -/
theorem heeds_write (x : AlertId) (n : now t = now s) (p : t.lc.notices = s.lc.notices)
    (a : t.mau.alerts = s.mau.alerts) (c : e ≠ x → conditionOf t e = conditionOf s e) :
    Heeds e s (syncAlert x t) := by
  have a' : t.alert e = s.alert e := by rw [State.alert, a]
  exact heeds_writes [x] (latching_of_alert n (by rw [p]; exact fun _ h => h) a') a'
    fun h => c (List.ne_of_not_mem_cons h)

/-! ## The records no condition reads -/

theorem calm_setRun (c : Fin 32) (r : Option Run) (e : AlertId) (s : State) : Calm e s (s.setRun c r) :=
  calm_of_alert rfl (fun _ h => h) rfl (by cases e <;> rfl)

theorem calm_setOrder (k : Nat) (o : Option Order) (e : AlertId) (s : State) : Calm e s (s.setOrder k o) :=
  calm_of_alert rfl (fun _ h => h) rfl (by cases e <;> rfl)

theorem calm_setOrders (o : List (Option Order)) (e : AlertId) (s : State) : Calm e s (s.setOrders o) :=
  calm_of_alert rfl (fun _ h => h) rfl (by cases e <;> rfl)

theorem calm_setSuspensions (n : Nat) (e : AlertId) (s : State) : Calm e s (s.setSuspensions n) :=
  calm_of_alert rfl (fun _ h => h) rfl (by cases e <;> rfl)

theorem calm_setAcceptances (n : Nat) (e : AlertId) (s : State) : Calm e s (s.setAcceptances n) :=
  calm_of_alert rfl (fun _ h => h) rfl (by cases e <;> rfl)

theorem calm_setPass (b : Bool) (e : AlertId) (s : State) : Calm e s (s.setPass b) :=
  calm_of_alert rfl (fun _ h => h) rfl (by cases e <;> rfl)

theorem calm_setPump (v : Pump) (e : AlertId) (s : State) : Calm e s (s.setPump v) :=
  calm_of_alert rfl (fun _ h => h) rfl (by cases e <;> rfl)

theorem calm_setQueue (q : List (Fin 32 × Movement)) (e : AlertId) (s : State) : Calm e s (s.setQueue q) :=
  calm_of_alert rfl (fun _ h => h) rfl (by cases e <;> rfl)

theorem calm_setSlot (n : Option Nat) (e : AlertId) (s : State) : Calm e s (s.setSlot n) :=
  calm_of_alert rfl (fun _ h => h) rfl (by cases e <;> rfl)

theorem calm_setDemand (p : Fin 24) (d : Demand) (e : AlertId) (s : State) : Calm e s (s.setDemand p d) :=
  calm_of_alert rfl (fun _ h => h) rfl (by cases e <;> rfl)

theorem calm_setPile (p : Fin 24) (d : Pile) (e : AlertId) (s : State) : Calm e s (s.setPile p d) :=
  calm_of_alert rfl (fun _ h => h) rfl (by cases e <;> rfl)

theorem calm_setPau (p : Pau) (e : AlertId) (s : State) : Calm e s (s.setPau p) :=
  calm_of_alert rfl (fun _ h => h) rfl (by cases e <;> rfl)

theorem calm_setPins (p : Pins) (e : AlertId) (s : State) : Calm e s (s.setPins p) :=
  calm_of_alert rfl (fun _ h => h) rfl (by cases e <;> rfl)

theorem calm_setEpisode (k : Nat) (x : Option Episode) (e : AlertId) (s : State) : Calm e s (s.setEpisode k x) :=
  calm_of_alert rfl (fun _ h => h) rfl (by cases e <;> rfl)

theorem calm_forPiles (f : Fin 24 → State → State) (e : AlertId) (h : ∀ p t, Calm e t (f p t)) (s : State) :
    Calm e s (forPiles f s) := by
  unfold forPiles
  generalize List.finRange 24 = l
  induction l generalizing s with
  | nil => exact .refl e s
  | cons p l ih => exact (h p s).trans (ih _)

/-- A cannon whose VALVE condition is as it was. -/
theorem calm_setCannon (c : Fin 32) (d : Cannon) (e : AlertId) (s : State)
    (h : (d.configured && d.phase.alarmed) = conditionOf s (.valve c)) : Calm e s (s.setCannon c d) := by
  refine calm_of_alert rfl (fun _ h => h) rfl ?_
  cases e
  case valve x =>
    rw [conditionOf_valve, setCannon_cannon]
    split
    · rename_i hx; rw [h, hx]
    · rw [conditionOf_valve]
  all_goals rfl

/-- The dispatcher, the valves and the pump set leave every entry calm. -/
theorem sprayRules_calm (e : AlertId) : SprayRules (Calm e) where
  refl := Calm.refl e
  trans := Calm.trans
  run s c r := calm_setRun c r e s
  complete s k := by
    rcases completeIfDone_cases k s with ⟨o, -, -, -, h⟩ | ⟨h, -⟩
    · rw [h]; exact (calm_setOrder k _ e s).trans (calm_post _ e _)
    · rw [h]; exact .refl e s
  suspensions s n := calm_setSuspensions n e s
  pass s b := calm_setPass b e s
  pump s v := calm_setPump v e s
  queue s q := calm_setQueue q e s
  slot s n := calm_setSlot n e s
  demand s p d := calm_setDemand p d e s
  post s n := calm_post n e s
  phase s c x n l h := by
    refine .trans (calm_setCannon c _ e s ?_) (calm_syncAlert _ e _)
    rw [conditionOf_valve, h]

/-- The dispatcher, the valves and the pump set write no entry but the valves'. -/
theorem sprayRules_alert (h : ∀ c, e ≠ .valve c) : SprayRules fun s t => t.alert e = s.alert e where
  refl _ := rfl
  trans a b := b.trans a
  run _ _ _ := rfl
  complete s k := by
    rcases completeIfDone_cases k s with ⟨o, -, -, -, h⟩ | ⟨h, -⟩
    · rw [h, State.alert, post_mau]; rfl
    · rw [h]
  suspensions _ _ := rfl
  pass _ _ := rfl
  pump _ _ := rfl
  queue _ _ := rfl
  slot _ _ := rfl
  demand _ _ _ := rfl
  post s n := by rw [State.alert, post_mau]
  phase _ c _ _ _ _ := syncAlert_alert_other (h c) _

end Sys2Proof.Machine
end

