-- ==== Sys2Proof/Proofs/AlertEvents.lean ====
section
/-! SUPPORT. Every event of the part and every event a request asks for, on one entry of the alert table
(R14, R25, R33, R81, R99, R105, R139, R162). -/

namespace Sys2Proof.Machine

variable {e : AlertId} {s t u : State}

/-! ## Water -/

/-- The water has moved and its two entries may not have followed yet; every other entry is calm. -/
structure Flowing (e : AlertId) (s t : State) : Prop extends Latching e s t where
  calm : e ≠ .noWater → e ≠ .waterShort → Calm e s t

/-- The water has moved and its two entries have followed. -/
structure Flowed (e : AlertId) (s t : State) : Prop extends Flowing e s t where
  inStep : InStep e s → InStep e t

theorem Calm.flowing (h : Calm e s t) : Flowing e s t := ⟨h.toLatching, fun _ _ => h⟩

theorem Calm.flowed (h : Calm e s t) : Flowed e s t := ⟨h.flowing, h.inStep⟩

theorem Flowing.trans (h : Flowing e s t) (k : Flowing e t u) : Flowing e s u :=
  ⟨h.toLatching.trans k.toLatching, fun a b => (h.calm a b).trans (k.calm a b)⟩

theorem Flowed.trans (h : Flowed e s t) (k : Flowed e t u) : Flowed e s u :=
  ⟨h.toFlowing.trans k.toFlowing, fun x => k.inStep (h.inStep x)⟩

theorem Flowed.heeds (h : Flowed e s t) : Heeds e s t :=
  ⟨h.toLatching, h.inStep, fun a b x _ => (h.calm a b).whole x⟩

theorem flowing_setPond (p : Fin 4) (d : Pond) (e : AlertId) (s : State) : Flowing e s (s.setPond p d) :=
  ⟨latching_of_alert rfl (fun _ h => h) rfl,
    fun a b => calm_of_alert rfl (fun _ h => h) rfl (by cases e <;> first | rfl | contradiction)⟩

theorem flowing_setToday (d : DayRecord) (e : AlertId) (s : State) : Flowing e s (s.setToday d) :=
  ⟨latching_of_alert rfl (fun _ h => h) rfl,
    fun a b => calm_of_alert rfl (fun _ h => h) rfl (by cases e <;> first | rfl | contradiction)⟩

theorem calm_setPrevious (d : DayRecord) (e : AlertId) (s : State) : Calm e s (s.setPrevious d) :=
  calm_of_alert rfl (fun _ h => h) rfl (by cases e <;> rfl)

theorem calm_reportUsable (before : State) (e : AlertId) (s : State) : Calm e s (reportUsable before s) := by
  unfold reportUsable
  split
  · exact calm_setPass true e s
  · exact .refl e s

/-- Both entries of the water are written after the water has moved. -/
theorem Flowing.synced (h : Flowing e s t) (before : State) :
    Flowed e s (reportUsable before (syncAlerts [.noWater, .waterShort] t)) := by
  have k : Calm e t (reportUsable before (syncAlerts [.noWater, .waterShort] t)) :=
    (calm_syncAlerts _ e _).trans (calm_reportUsable before e _)
  refine ⟨h.trans k.flowing, fun x => ?_⟩
  by_cases a : e = .noWater
  · subst a
    exact ((calm_syncAlert .waterShort _ _).trans (calm_reportUsable before _ _)).inStep (inStep_syncAlert _ _)
  · by_cases b : e = .waterShort
    · subst b
      exact (calm_reportUsable before _ _).inStep (inStep_syncAlert _ _)
    · exact k.inStep ((h.calm a b).inStep x)

theorem flowed_waterEvent (f : State → State) (h : Flowing e s (f s)) : Flowed e s (waterEvent f s) := h.synced s

theorem calm_forcedSwitch (e : AlertId) (s : State) : Calm e s (forcedSwitch s) := by
  have give : Calm e s (giveUpSource s) := by
    unfold giveUpSource
    split
    · exact calm_setPump _ e s
    · exact (calm_setPump _ e s).trans ((sprayRules_calm e).capacityLoss _)
  have choose : ∀ t, Calm e t (selectAnew t) := by
    intro t
    unfold selectAnew
    repeat' split
    · exact .refl e t
    · exact calm_setPump _ e t
    · exact .refl e t
  exact (give.trans (choose _)).trans ((calm_syncAlert _ e _).trans (calm_post _ e _))

theorem calm_testFitness (before : State) (e : AlertId) (s : State) : Calm e s (testFitness before s) := by
  unfold testFitness
  split
  · split
    · exact calm_forcedSwitch e s
    · exact .refl e s
  · exact .refl e s

theorem flowing_updatePondDay (p : Fin 4) (f : PondDay → PondDay) (e : AlertId) (s : State) :
    Flowing e s (updatePondDay p f s) := flowing_setToday _ e s

theorem flowing_countDrawn (lost : Bool) (q : Nat) (e : AlertId) (s : State) :
    Flowing e s (countDrawn lost q s) := by
  unfold countDrawn
  split <;> exact flowing_setToday _ e s

theorem flowing_debit (q : Nat) (src : Source) (e : AlertId) (s : State) : Flowing e s (debit q src s) := by
  unfold debit
  split
  · exact (flowing_setPond _ _ e s).trans (flowing_updatePondDay _ _ e _)
  · exact flowing_setToday _ e s

theorem flowed_draw (lost : Bool) (q : Nat) (e : AlertId) (s : State) : Flowed e s (draw lost q s) := by
  unfold draw
  split
  · exact flowed_waterEvent _ (((flowing_debit q _ e s).trans (flowing_countDrawn lost q e _)).trans
      (calm_testFitness s e _).flowing)
  · exact (Calm.refl e s).flowed

theorem flowed_inflow (kind : InflowKind) (p : Fin 4) (v : Nat) (e : AlertId) (s : State) :
    Flowed e s (inflow kind p v s) := by
  unfold inflow
  simp only
  split
  · exact flowed_waterEvent _ ((flowing_setPond _ _ e s).trans (flowing_updatePondDay _ _ e _))
  · exact (Calm.refl e s).flowed

theorem flowed_settle (p : Fin 4) (e : AlertId) (s : State) : Flowed e s (settle p s) :=
  flowed_waterEvent _ (flowing_setPond _ _ e s)

theorem flowing_restateVolume (p : Fin 4) (v : Nat) (e : AlertId) (s : State) :
    Flowing e s (restateVolume p v s) := (flowing_setPond _ _ e s).trans (flowing_updatePondDay _ _ e _)

theorem flowed_configurePond (p : Fin 4) (k : PondConfig) (e : AlertId) (s : State) :
    Flowed e s (configurePond p k s) :=
  flowed_waterEvent _ (((flowing_setPond _ _ e s).trans (flowing_restateVolume _ _ e _)).trans
    (flowing_setPond _ _ e _))

theorem flowed_releasePond (p : Fin 4) (e : AlertId) (s : State) : Flowed e s (releasePond p s) := by
  unfold releasePond
  split
  · exact flowed_waterEvent _ ((flowing_restateVolume _ _ e s).trans (flowing_setPond _ _ e _))
  · exact (Calm.refl e s).flowed

theorem flowed_reportPond (p : Fin 4) (l : Option Nat) (x y : Option Bool) (e : AlertId) (s : State) :
    Flowed e s (reportPond p l x y s) := by
  have level : Flowing e s (reportLevel p l s) := by
    unfold reportLevel
    split
    · exact flowing_restateVolume _ _ e s
    · exact (Calm.refl e s).flowing
  exact flowed_waterEvent _ ((level.trans (flowing_setPond _ _ e _)).trans (calm_testFitness s e _).flowing)

theorem flowed_closeDay (d : Nat) (e : AlertId) (s : State) : Flowed e s (closeDay d s) :=
  flowed_waterEvent _ ((calm_setPrevious _ e s).flowing.trans (flowing_setToday _ e _))

theorem Flowed.foldl {α : Type} (f : State → α → State) (h : ∀ t a, Flowed e t (f t a)) (l : List α) (s : State) :
    Flowed e s (l.foldl f s) := by
  induction l generalizing s with
  | nil => exact (Calm.refl e s).flowed
  | cons a l ih => exact (h s a).trans (ih _)

/-! ## Rain, assessment and deliveries -/

theorem flowed_rainEdge (e : AlertId) (s : State) : Flowed e s (rainEdge s) := by
  have low : Calm e s (setRainLow s) := calm_setPins _ e s
  have bounce : ∀ t n, Calm e t (t.setWfe { t.wfe with bounce := n }) := fun t n =>
    calm_of_alert rfl (fun _ h => h) rfl (by cases e <;> rfl)
  have wet : ∀ n t, Calm e t (forPiles (wetPile n) t) := fun n t => by
    refine calm_forPiles _ e (fun p u => ?_) t
    unfold wetPile
    simp only
    split
    · exact calm_setPile _ _ e u
    · exact .refl e u
  have pond : ∀ n t p, Flowed e t (rainOnPond n p t) := by
    intro n t p
    unfold rainOnPond
    simp only
    split
    · exact flowed_inflow _ _ _ e t
    · exact (Calm.refl e t).flowed
  unfold rainEdge
  simp only
  split
  · exact (low.trans ((bounce _ _).trans (wet _ _))).flowed.trans (Flowed.foldl _ (fun t p => pond _ t p) _ _)
  · exact low.flowed

theorem flowed_assessPile (i : Inputs) (p : Fin 24) (e : AlertId) (s : State) :
    Flowed e s (assessPile i p s) := by
  have runoff : ∀ d v t, Flowed e t (postRunoff d v t) := by
    intro d v t
    unfold postRunoff
    repeat' split
    · exact flowed_inflow _ _ _ e t
    · exact (Calm.refl e t).flowed
    · exact (Calm.refl e t).flowed
  unfold assessPile
  simp only
  split
  · have k := fun d => (calm_setPile p { s.pile p with
      moisture := newMoisture i (s.pile p), pendingSpray := 0, pendingRain := 0 } e s).flowed.trans
        ((runoff (s.pile p).config.drain (runoffOf (s.pile p)) _).trans (calm_setPile p d e _).flowed)
    split
    · exact k _
    · exact (k _).trans (calm_post _ e _).flowed
  · exact (Calm.refl e s).flowed

theorem calm_completion (e : AlertId) (s : State) : Calm e s (completion s) := by
  have tier : ∀ p t, Calm e t (recordTier p t) := by
    intro p t
    unfold recordTier
    split
    · exact calm_setDemand _ _ e t
    · exact .refl e t
  have satisfied : ∀ p t, Calm e t (endSatisfied p t) := by
    intro p t
    unfold endSatisfied
    split
    · exact (sprayRules_calm e).decideEnds t _
    · exact .refl e t
  exact (calm_forPiles _ e tier s).trans <| (calm_forPiles _ e satisfied _).trans <|
    (calm_forPiles _ e (fun p t => calm_setDemand p _ e t) _).trans (calm_setPass true e _)

theorem flowed_assessmentStep (e : AlertId) (s : State) : Flowed e s (assessmentStep s) :=
  (calm_setPau _ e s).flowed.trans <|
    (Flowed.foldl _ (fun t p => flowed_assessPile (readInputs s) p e t) _ _).trans (calm_completion e _).flowed

theorem flowed_deliveryStep (c : Fin 32) (e : AlertId) (s : State) : Flowed e s (deliveryStep c s) := by
  have pile : ∀ p q t, Calm e t (creditPile p q t) := by
    intro p q t
    unfold creditPile
    simp only
    split
    · exact calm_setPile _ _ e t
    · exact .refl e t
  have order : ∀ o q t, Calm e t (creditOrder o q t) := by
    intro o q t
    unfold creditOrder
    repeat' split
    · exact calm_setOrder _ _ e t
    all_goals exact .refl e t
  have second : ∀ r, Flowed e s (targetTest c (deliver c r s)) := fun r =>
    (((calm_setRun c _ e s).trans ((pile _ _ _).trans (order _ _ _))).flowed.trans
      (flowed_draw _ _ e _)).trans ((sprayRules_calm e).targetTest _ c).flowed
  unfold deliveryStep
  split
  · exact (Calm.refl e s).flowed
  · split
    · simp only
      repeat' split
      · exact (second _).trans ((sprayRules_calm e).endOthers _ _ c).flowed
      all_goals exact second _
    · exact (Calm.refl e s).flowed
    · exact (Calm.refl e s).flowed

theorem flowed_lostWaterStep (c : Fin 32) (e : AlertId) (s : State) : Flowed e s (lostWaterStep c s) := by
  have count : Calm e s (s.setCannon c { s.cannon c with lostWater := some Config.ticksPerSecond }) :=
    calm_setCannon c _ e s (conditionOf_valve c s).symm
  unfold lostWaterStep
  split
  · exact (Calm.refl e s).flowed
  · simp only
    split
    · exact count.flowed.trans (flowed_draw _ _ e _)
    · exact count.flowed

/-! ## Valves -/

/-- A cannon's state is written with its entry; only that entry can move (R99). -/
theorem heeds_enterPhase (c : Fin 32) (x : CannonPhase) (n l : Option Nat) (e : AlertId) (s : State) :
    Heeds e s (enterPhase c x n l s) := by
  refine heeds_write (.valve c) rfl rfl rfl fun h => ?_
  cases e
  case valve d =>
    rw [conditionOf_valve, setCannon_cannon, if_neg (by simpa using h), conditionOf_valve]
  all_goals rfl

section
variable (c : Fin 32) (e : AlertId) (s : State)

theorem calm_removeEntry : Calm e s (removeEntry c s) := calm_setQueue _ e s

theorem calm_stopDelivery : Calm e s (stopDelivery c s) := (sprayRules_calm e).updateRun s c _

theorem calm_startDelivery : Calm e s (startDelivery c s) := (sprayRules_calm e).updateRun s c _

theorem calm_markPass : Calm e s (markPass s) := calm_setPass true e s

theorem calm_releaseEnded : Calm e s (releaseEnded c s) :=
  ((sprayRules_calm e).endRun s c).trans <| ((sprayRules_calm e).headerIdle _).trans (calm_markPass e _)

theorem heeds_becomeStuck : Heeds e s (becomeStuck c s) := heeds_enterPhase c _ _ _ e s

theorem heeds_unbiddenFlow : Heeds e s (unbiddenFlow c s) :=
  (heeds_becomeStuck c e s).calm_trans <|
    ((sprayRules_calm e).endRun _ c).trans ((sprayRules_calm e).overloadTest _)

theorem heeds_feedbackOpened : Heeds e s (feedbackOpened c s) := by
  unfold feedbackOpened
  split
  · exact (heeds_enterPhase c _ _ _ e s).calm_trans (calm_startDelivery c e _)
  · exact (calm_removeEntry c e s).heeds_trans <|
      (heeds_becomeStuck c e _).calm_trans ((sprayRules_calm e).endRun _ c)
  · exact heeds_unbiddenFlow c e s
  · exact heeds_unbiddenFlow c e s
  · split
    · exact heeds_unbiddenFlow c e s
    · exact (Calm.refl e s).heeds
  · exact (Calm.refl e s).heeds

/-- A cannon whose delivery stops and whose entry leaves the queue goes out of its reservation. -/
theorem heeds_leave (x : CannonPhase) (n l : Option Nat) :
    Heeds e s (releaseEnded c (enterPhase c x n l (removeEntry c (stopDelivery c s)))) :=
  ((calm_stopDelivery c e s).trans (calm_removeEntry c e _)).heeds_trans <|
    (heeds_enterPhase c _ _ _ e _).calm_trans (calm_releaseEnded c e _)

theorem heeds_feedbackClosed : Heeds e s (feedbackClosed c s) := by
  unfold feedbackClosed
  split
  · exact heeds_leave c e s _ _ _
  · exact heeds_leave c e s _ _ _
  · rename_i h
    exact ((sprayRules_calm e).returnToIdle s c (by rw [h]; rfl)).heeds
  · exact (heeds_enterPhase c _ _ _ e s).calm_trans (calm_markPass e _)
  · exact heeds_enterPhase c _ _ _ e s
  · exact (Calm.refl e s).heeds

theorem heeds_feedbackStep (b : Bool) : Heeds e s (feedbackStep c b s) := by
  have pins : Calm e s (setFeedback c b s) := calm_setPins _ e s
  unfold feedbackStep
  simp only
  split
  · rename_i h
    simp only [closeUnconfirmed, Bool.and_eq_true, decide_eq_true_eq] at h
    exact ((sprayRules_calm e).returnToIdle s c (by rw [h.1.1.2]; rfl)).heeds
  · repeat' split
    · exact pins.heeds
    · exact pins.heeds_trans (heeds_feedbackOpened c e _)
    · exact pins.heeds_trans (heeds_feedbackClosed c e _)

theorem heeds_travelStep : Heeds e s (travelStep c s) := by
  unfold travelStep
  split
  · exact (Calm.refl e s).heeds
  · split
    · exact (calm_removeEntry c e s).heeds_trans <|
        (heeds_enterPhase c _ _ _ e _).calm_trans (calm_releaseEnded c e _)
    · exact (heeds_becomeStuck c e s).calm_trans ((sprayRules_calm e).endRun _ c)
    · exact heeds_unbiddenFlow c e s
    · rename_i h _
      exact ((sprayRules_calm e).returnToIdle s c (by rw [h]; rfl)).heeds
    · exact heeds_enterPhase c _ _ _ e s

theorem heeds_lockCannon : Heeds e s (lockCannon c s) := by
  unfold lockCannon
  simp only
  split
  · exact (heeds_enterPhase c _ _ _ e s).calm_trans ((sprayRules_calm e).endRun _ c)
  · exact heeds_enterPhase c _ _ _ e s
  · exact (calm_removeEntry c e s).heeds_trans <|
      (heeds_enterPhase c _ _ _ e _).calm_trans (calm_releaseEnded c e _)
  · exact heeds_leave c e s _ _ _
  · exact heeds_leave c e s _ _ _
  · exact heeds_leave c e s _ _ _
  · exact (heeds_enterPhase c _ _ _ e s).calm_trans (calm_releaseEnded c e _)
  · exact (Calm.refl e s).heeds
  · exact (Calm.refl e s).heeds

theorem heeds_unlockCannon : Heeds e s (unlockCannon c s) := by
  unfold unlockCannon
  split
  · exact heeds_unbiddenFlow c e s
  · exact (heeds_enterPhase c _ _ _ e s).calm_trans (calm_markPass e _)

end

end Sys2Proof.Machine
end

