-- ==== Sys2Proof/Proofs/AlertSteps.lean ====
section
/-! SUPPORT. The rest of the events on one entry of the alert table: wind, machines, monitors, modes, orders,
site and clock (R14, R25, R33, R105, R139, R162). -/

namespace Sys2Proof.Machine

variable {e : AlertId} {s t u : State}

/-! ## Cannons, machines, and drift -/

section
variable (e : AlertId) (s : State)

theorem calm_excludeAt (c : Fin 32) : Calm e s (excludeAt c s) := by
  have flag := calm_setCannon c { s.cannon c with excluded := shouldExclude s c } e s (conditionOf_valve c s).symm
  unfold excludeAt
  simp only
  split
  · exact .refl e s
  · split
    · exact (flag.trans ((sprayRules_calm e).updateRun _ c _)).trans ((sprayRules_calm e).immediateClose _ c)
    · exact flag.trans (calm_markPass e _)

theorem calm_driftAt (c : Fin 32) : Calm e s (driftAt c s) := by
  have flag := calm_setCannon c
    { s.cannon c with driftBlocked := driftTest s c (s.cannon c).driftBlocked } e s (conditionOf_valve c s).symm
  unfold driftAt
  simp only
  split
  · exact .refl e s
  · split
    · exact (flag.trans ((sprayRules_calm e).updateRun _ c _)).trans ((sprayRules_calm e).queuedClose _ c)
    · exact flag.trans (calm_markPass e _)

theorem calm_evaluateExclusion : Calm e s (evaluateExclusion s) :=
  (sprayRules_calm e).forCannons s _ fun t c => calm_excludeAt e t c

theorem calm_driftEvaluation : Calm e s (driftEvaluation s) :=
  (sprayRules_calm e).forCannons s _ fun t c => calm_driftAt e t c

theorem conditionOf_setMachine (m : Fin 4) (v : MachineRecord) (h : e ≠ .machineStale m) :
    conditionOf (s.setMachine m v) e = conditionOf s e := by
  cases e
  case machineStale x =>
    simp only [conditionOf, setMachine_machine, if_neg (fun h' => h (congrArg AlertId.machineStale h'))]
    rfl
  all_goals rfl

theorem heeds_reportMachine (m : Fin 4) (r : Fin 2) (n : Nat) : Heeds e s (reportMachine m r n s) := by
  refine Heeds.calm_trans ?_ (calm_evaluateExclusion e _)
  exact heeds_write (.machineStale m) rfl rfl rfl (conditionOf_setMachine e s m _)

theorem heeds_machineStaleStep (m : Fin 4) : Heeds e s (machineStaleStep m s) := by
  unfold machineStaleStep
  split
  · exact (Calm.refl e s).heeds
  · refine Heeds.calm_trans ?_ (calm_evaluateExclusion e _)
    exact heeds_write (.machineStale m) rfl rfl rfl (conditionOf_setMachine e s m _)

theorem heeds_configureCannon (c : Fin 32) (k : CannonConfig) : Heeds e s (configureCannon c k s) := by
  have write : Calm e s (writeCannonConfig c k s) := by
    refine calm_setCannon c _ e s ?_
    rw [conditionOf_valve]
    cases (s.cannon c).configured <;> rfl
  have judge : ∀ t, Calm e t (judgeCannon c t) := fun t => calm_setCannon c _ e t (conditionOf_valve c t).symm
  refine (write.trans (judge _)).heeds_trans ?_
  unfold configureCannon discoverOpen
  split
  · exact heeds_unbiddenFlow c e _
  · exact (Calm.refl e _).heeds

theorem heeds_releaseCannon (c : Fin 32) : Heeds e s (releaseCannon c s) := by
  unfold releaseCannon
  simp only
  split
  · refine heeds_write (.valve c) rfl rfl rfl fun h => ?_
    cases e
    case valve d =>
      rw [conditionOf_valve, setCannon_cannon, if_neg (fun h' => h (congrArg AlertId.valve h')), conditionOf_valve]
    all_goals rfl
  · exact (Calm.refl e s).heeds

/-! ## Wind -/

theorem calm_pulseStep (m : Fin 2) : Calm e s (pulseStep m s) := by
  unfold pulseStep
  simp only
  refine .trans (calm_setPins (setPulseLow m s).pins e s) ?_
  split
  · refine calm_of_alert rfl (fun _ h => h) rfl ?_
    cases e
    case mastSuspect x =>
      by_cases h : x = m
      · subst h; simp [conditionOf_mastSuspect]; rfl
      · simp [conditionOf_mastSuspect, setMast_mast, h]; rfl
    all_goals rfl
  · exact .refl e _

theorem conditionOf_setMast (m : Fin 2) (v : Mast) (h : e ≠ .mastSuspect m) :
    conditionOf (s.setMast m v) e = conditionOf s e := by
  cases e
  case mastSuspect x =>
    simp only [conditionOf, setMast_mast, if_neg (fun h' => h (congrArg AlertId.mastSuspect h'))]
    rfl
  all_goals rfl

theorem heeds_serviceMast (m : Fin 2) (b : Bool) : Heeds e s (serviceMast m b s) :=
  heeds_write (.mastSuspect m) rfl rfl rfl (conditionOf_setMast e s m _)

/-- The masts written, and nothing an entry but theirs reads. -/
theorem heeds_masts (masts : Table 2 Mast) (p : Pins) :
    Heeds e s (syncAlerts [.mastSuspect 0, .mastSuspect 1]
      { s with pins := p, wfe := { s.wfe with masts := masts } }) := by
  refine heeds_writes _ (latching_of_alert rfl (fun _ h => h) rfl) rfl fun h => ?_
  cases e
  case mastSuspect m =>
    match m with
    | 0 => simp at h
    | 1 => simp at h
  all_goals rfl

theorem measureMast_writes (v : BitVec 4) (m : Fin 2) : ∃ masts p,
    measureMast v m s = { s with pins := p, wfe := { s.wfe with masts := masts } } :=
  ⟨_, _, measureMast_eq v m s⟩

/-- Stages 1 to 3 of a gate expiry write the masts, and their entries follow (R14). -/
theorem heeds_gateMeasured (v w : BitVec 4) : Heeds e s (gateMeasured v w s) := by
  unfold gateMeasured
  rw [testSuspicion_eq]
  have gate : Calm e s (s.setWfe { s.wfe with gate := Config.gateTicks }) :=
    calm_of_alert rfl (fun _ h => h) rfl (by cases e <;> rfl)
  refine gate.heeds_trans ?_
  generalize s.setWfe { s.wfe with gate := Config.gateTicks } = r
  obtain ⟨x, p, hx⟩ := measureMast_writes r v 0
  obtain ⟨y, q, hy⟩ := measureMast_writes (measureMast v 0 r) w 1
  generalize becomesSuspect _ 0 = a, becomesSuspect _ 1 = b
  rw [markSuspect_eq b, markSuspect_eq a, hy, hx]
  exact heeds_masts e r _ _

theorem calm_enterWindow : Calm e s (enterWindow s) := by
  have k : ∀ u : Wfe, u.masts = s.wfe.masts → u.published = s.wfe.published → Calm e s (s.setWfe u) := by
    intro u hm hp
    refine calm_of_alert rfl (fun _ h => h) rfl ?_
    cases e
    case mastSuspect m => simp only [conditionOf, State.mast, State.setWfe, hm]; rfl
    case windDegraded => simp only [conditionOf, State.setWfe, hp]
    all_goals rfl
  unfold enterWindow Wfe.enter
  simp only
  repeat' split
  all_goals exact k _ rfl rfl

/-- The published wind is written with its own entry (R14). -/
theorem calm_publish (h : e ≠ .windDegraded) : Calm e s (publish s) := by
  have write : Calm e s (s.setWfe { s.wfe with published := windToPublish s }) := by
    refine calm_of_alert rfl (fun _ h => h) rfl ?_
    cases e
    case windDegraded => contradiction
    all_goals rfl
  exact write.trans (calm_syncAlert _ e _)

theorem gateMeasured_alert (v w : BitVec 4) (h : ∀ m, e ≠ .mastSuspect m) :
    (gateMeasured v w s).alert e = s.alert e := by
  unfold gateMeasured
  rw [testSuspicion_eq, syncAlerts_cons, syncAlerts_cons, syncAlerts_nil, syncAlert_alert_other (h 1),
    syncAlert_alert_other (h 0), markSuspect_eq, markSuspect_eq, measureMast_eq, measureMast_eq]
  rfl

theorem enterWindow_alert : (enterWindow s).alert e = s.alert e := by
  unfold enterWindow
  simp only
  repeat' split
  all_goals rfl

/-- A gate expiry writes the masts' entries and the published wind's, each once (R14). -/
theorem heeds_gateStep (v w : BitVec 4) : Heeds e s (gateStep v w s) := by
  unfold gateStep
  rw [gateStages_eq]
  refine Heeds.calm_trans ?_ (calm_driftEvaluation e _)
  have measured := (heeds_gateMeasured e s v w).calm_trans (calm_enterWindow e _)
  by_cases h : e = .windDegraded
  · subst h
    have alert : (enterWindow (gateMeasured v w s)).alert .windDegraded = s.alert .windDegraded :=
      (enterWindow_alert _ _).trans (gateMeasured_alert _ s v w (by simp))
    exact heeds_syncAlert (measured.toLatching.trans (latching_of_alert rfl (fun _ h => h) rfl)) alert
  · exact measured.calm_trans (calm_publish e _ h)

/-! ## Monitors -/

theorem conditionOf_setMonitor (m : Fin 8) (v : Monitor) (h : e ≠ .monitorStale m) :
    conditionOf (s.setMonitor m v) e = conditionOf s e := by
  cases e
  case monitorStale x =>
    simp only [conditionOf, setMonitor_monitor, if_neg (fun h' => h (congrArg AlertId.monitorStale h'))]
  all_goals rfl

theorem calm_setMonitor (m : Fin 8) (v : Monitor)
    (h : (v.configured && v.stale) = ((s.monitor m).configured && (s.monitor m).stale)) :
    Calm e s (s.setMonitor m v) := by
  refine calm_of_alert rfl (fun _ h => h) rfl ?_
  by_cases he : e = .monitorStale m
  · subst he
    simp only [conditionOf, setMonitor_monitor, if_true, h]
  · exact conditionOf_setMonitor e s m v he

theorem calm_setOpenEpisode (m : Fin 8) (k : Option Nat) (n : Nat) :
    Calm e s (s.setMonitor m { s.monitor m with openEpisode := k, belowRun := n }) := calm_setMonitor e s m _ rfl

theorem calm_setBelowRun (m : Fin 8) (n : Nat) : Calm e s (s.setMonitor m { s.monitor m with belowRun := n }) :=
  calm_setMonitor e s m _ rfl

theorem calm_setNextId (n : Nat) : Calm e s { s with bwu := { s.bwu with nextId := n } } :=
  calm_of_alert rfl (fun _ h => h) rfl (by cases e <;> rfl)

theorem calm_setClosures (n : Nat) : Calm e s { s with bwu := { s.bwu with closures := n } } :=
  calm_of_alert rfl (fun _ h => h) rfl (by cases e <;> rfl)

theorem calm_attribStep (m : Fin 8) (n : Fin 16) (ps : List (Fin 24)) : Calm e s (attribStep m n ps s) :=
  calm_of_alert rfl (fun _ h => h) rfl (by cases e <;> rfl)

theorem calm_recomputeEscalation : Calm e s (recomputeEscalation s) :=
  calm_forPiles _ e (fun p t => calm_setPile p _ e t) s

theorem calm_openEpisode (m : Fin 8) (v k : Nat) : Calm e s (openEpisode m v k s) :=
  (calm_setEpisode k _ e s).trans <| (calm_setNextId e _ _).trans <|
    (calm_setOpenEpisode e _ m _ _).trans <| (calm_post _ e _).trans (calm_recomputeEscalation e _)

theorem calm_updateEpisode (m : Fin 8) (v k : Nat) (x : Episode) : Calm e s (updateEpisode m v k x s) :=
  (calm_setEpisode k _ e s).trans <| (calm_setBelowRun e _ m _).trans <|
    (calm_post _ e _).trans (calm_recomputeEscalation e _)

theorem calm_closeEpisode (k : Nat) (r : CloseReason) : Calm e s (closeEpisode k r s) := by
  unfold closeEpisode
  split
  · exact .refl e s
  · exact (calm_setEpisode k _ e s).trans <| (calm_setClosures e _ _).trans <|
      (calm_setOpenEpisode e _ _ _ _).trans <| (calm_post _ e _).trans (calm_recomputeEscalation e _)

theorem calm_closeStale (m : Fin 8) : Calm e s (closeStale m s) := by
  unfold closeStale
  split
  · exact calm_closeEpisode e s _ _
  · exact .refl e s

theorem calm_holdOff (m : Fin 8) (k : Nat) : Calm e s (holdOff m k s) := by
  have count := calm_setBelowRun e s m (min ((s.monitor m).belowRun + 1) 255)
  unfold holdOff
  simp only
  split
  · exact count.trans (calm_closeEpisode e _ _ _)
  · exact count

theorem heeds_readingStep (m : Fin 8) (v : Nat) : Heeds e s (readingStep m v s) := by
  have record : Heeds e s (recordReading m v s) :=
    heeds_write (.monitorStale m) rfl rfl rfl (conditionOf_setMonitor e s m _)
  refine record.calm_trans ?_
  unfold readingStep
  simp only
  generalize recordReading m v s = t
  split
  · split
    · split
      · exact calm_openEpisode e t _ _ _
      · exact .refl e t
    · exact .refl e t
  · split
    · exact calm_updateEpisode e t _ _ _ _
    · exact calm_holdOff e t _ _

theorem heeds_configureMonitor (m : Fin 8) (f : MonitorFields) : Heeds e s (configureMonitor m f s) :=
  heeds_write (.monitorStale m) rfl rfl rfl (conditionOf_setMonitor e s m _)

theorem heeds_releaseMonitor (m : Fin 8) : Heeds e s (releaseMonitor m s) := by
  unfold releaseMonitor
  simp only
  split
  · refine (calm_closeStale e s m).heeds_trans ?_
    exact heeds_write (.monitorStale m) rfl rfl rfl (conditionOf_setMonitor e _ m _)
  · exact (Calm.refl e s).heeds

theorem heeds_monitorStaleStep (m : Fin 8) : Heeds e s (monitorStaleStep m s) := by
  unfold monitorStaleStep
  simp only
  split
  · exact (Calm.refl e s).heeds
  · refine Heeds.calm_trans ?_ ((calm_closeStale e _ m).trans (calm_setBelowRun e _ m 0))
    exact heeds_write (.monitorStale m) rfl rfl rfl (conditionOf_setMonitor e s m _)

/-! ## Modes and orders -/

theorem calm_recomputeHold (p : Fin 24) : Calm e s (recomputeHold p s) := calm_setPile p _ e s

theorem calm_closeOrder (k : Nat) (x : OrderOutcome) : Calm e s (closeOrder k x s) :=
  (sprayRules_calm e).closeOrder (fun s k o => calm_setOrder k o e s) (fun s p => calm_recomputeHold e s p) s k x

theorem calm_closeOrders (f : Order → Bool) (x : OrderOutcome) : Calm e s (closeOrders f x s) :=
  (sprayRules_calm e).closeOrders (fun s k o => calm_setOrder k o e s) (fun s p => calm_recomputeHold e s p) s f x

theorem calm_orderStep (kind : OrderKind) (x : OrderOutcome) (k : Nat) : Calm e s (orderStep kind x k s) := by
  unfold orderStep
  split
  · split
    · exact calm_closeOrder e s k x
    · exact .refl e s
  · exact .refl e s

theorem calm_acceptOrder (k : Nat) (o : Order) : Calm e s (acceptOrder k o s) :=
  (calm_setAcceptances _ e s).trans (calm_setOrder k _ e _)

theorem calm_wetStep (k tag : Nat) (p : Fin 24) (v x : Nat) : Calm e s (wetStep k tag p v x s) :=
  (calm_acceptOrder e s k _).trans (calm_markPass e _)

theorem calm_holdStep (k tag : Nat) (p : Fin 24) (d : Nat) : Calm e s (holdStep k tag p d s) :=
  (calm_acceptOrder e s k _).trans <| (calm_setPile p _ e _).trans <|
    ((sprayRules_calm e).decideEnds _ _).trans (calm_closeOrders e _ _ _)

theorem calm_ordersOnMode (m : Mode) : Calm e s (ordersOnMode m s) := by
  unfold ordersOnMode
  split
  · exact calm_closeOrders e s _ _
  all_goals exact .refl e s

/-- What follows the writing of the mode moves no condition (R154). -/
theorem calm_afterMode (x m : Mode) : Calm e s (pumpOnMode m (ordersOnMode m
    (sparingOrders (fun t => dispatcherOnMode x m (cannonsOnMode m t)) (post .mode s)))) := by
  have r := sprayRules_calm e
  refine .trans ?_ (r.pumpOnMode _ m)
  refine .trans ?_ (calm_ordersOnMode e _ m)
  exact (calm_post .mode e s).trans <| (calm_setOrders [] e _).trans <|
    (r.cannonsOnMode _ m).trans <| (r.dispatcherOnMode _ x m).trans (calm_setOrders _ e _)

/-- A change of mode moves the condition of NO_WATER alone (R154, R162). -/
theorem heeds_enterMode (m : Mode) (x : Cause) : Heeds e s (enterMode m x s) := by
  have after := calm_afterMode e (s.setMode m (some x)) s.mau.mode m
  by_cases h : e = .noWater
  · subst h
    have l : Latching .noWater s (s.setMode m (some x)) := latching_of_alert rfl (fun _ h => h) rfl
    refine ⟨l.trans (after.toLatching.trans (calm_syncAlert .noWater _ _).toLatching), fun _ => ?_, fun h => ?_⟩
    · exact inStep_syncAlert _ _
    · contradiction
  · refine Calm.heeds (.trans ?_ (after.trans (calm_syncAlert .noWater e _)))
    refine calm_of_alert rfl (fun _ h => h) rfl ?_
    cases e
    case noWater => contradiction
    all_goals rfl

theorem heeds_stopStep (b : Bool) : Heeds e s (stopStep b s) := by
  have pins : Calm e s (setStop b s) := calm_setPins _ e s
  unfold stopStep
  simp only
  split
  · exact pins.heeds_trans (heeds_enterMode e _ _ _)
  · exact pins.heeds

theorem heeds_modeStep (m : Mode) : Heeds e s (modeStep m s) := by
  unfold modeStep
  split
  · exact (Calm.refl e s).heeds
  · exact heeds_enterMode e s _ _

theorem heeds_obeyStop : Heeds e s (obeyStop s) := by
  unfold obeyStop
  split
  · exact heeds_enterMode e s _ _
  · exact (Calm.refl e s).heeds

/-! ## Setup of piles and pools -/

theorem calm_configurePile (p : Fin 24) (k : PileConfig) : Calm e s (configurePile p k s) := calm_setPile p _ e s

theorem calm_releasePile (p : Fin 24) : Calm e s (releasePile p s) := by
  unfold releasePile
  split
  · exact calm_setPile p _ e s
  · exact .refl e s

theorem conditionOf_setFt (x : Ft) (h : e ≠ .forecastStale) : conditionOf (s.setFt x) e = conditionOf s e := by
  cases e
  case forecastStale => contradiction
  all_goals rfl

theorem heeds_forecastStep (i n : Nat) (fs : List SlotFields) : Heeds e s (forecastStep i n fs s) :=
  heeds_write .forecastStale rfl rfl rfl (conditionOf_setFt e s _)

theorem calm_emptyEpisodes (n : Nat) : Calm e s (emptyEpisodes n s) := by
  refine calm_of_alert rfl (fun _ h => h) rfl ?_
  cases e
  case monitorStale m => simp only [conditionOf, State.monitor, emptyEpisodes, Table.get_map]
  all_goals rfl

theorem heeds_splitStep (f n o : Nat) : Heeds e s (splitStep f n o s) := by
  refine Heeds.calm_trans ?_ ((calm_emptyEpisodes e _ n).trans <|
    (calm_recomputeEscalation e _).trans (calm_setOrders _ e _))
  refine heeds_write .forecastStale rfl rfl rfl fun h => ?_
  rw [conditionOf_setFt e _ _ h]
  cases e <;> rfl

end

end Sys2Proof.Machine
end

