-- ==== Sys2Proof/Proofs/AlertLaw.lean ====
section
/-! SUPPORT. The clock's events and SITE_SETUP on one entry of the alert table, then every command and every
step (R14, R25, R33, R81, R99, R105, R139, R160, R162). -/

namespace Sys2Proof.Machine

variable {e : AlertId} {s t u : State}

/-! ## The clock -/

section
variable (e : AlertId) (s : State)

theorem calm_setRecordedDay (d : Option Nat) : Calm e s (s.setYc { s.yc with recordedDay := d }) :=
  calm_of_alert rfl (fun _ h => h) rfl (by cases e <;> rfl)

theorem flowed_rollover : Flowed e s (rollover s) :=
  (calm_setRecordedDay e s _).flowed.trans <| (flowed_closeDay _ e _).trans <|
    ((calm_forPiles zeroDelivered e (fun p t => calm_setPile p _ e t) _).trans (calm_post .day e _)).flowed

/-- The day of the record is no figure of the water. -/
theorem calm_setDay (d : Option Nat) : Calm e s (s.setToday { s.wiu.today with day := d }) :=
  calm_of_alert rfl (fun _ h => h) rfl (by cases e <;> rfl)

theorem flowed_rolloverTest : Flowed e s (rolloverTest s) := by
  unfold rolloverTest
  split
  · exact ((calm_setRecordedDay e s _).trans (calm_setDay e _ _)).flowed
  · split
    · exact flowed_rollover e s
    · exact (Calm.refl e s).flowed

theorem forPiles_zeroDelivered_alert : (forPiles zeroDelivered s).alert e = s.alert e := by
  unfold forPiles
  generalize List.finRange 24 = l
  induction l generalizing s with
  | nil => rfl
  | cons p l ih => exact (ih _).trans rfl

theorem reportUsable_alert (before : State) : (reportUsable before s).alert e = s.alert e := by
  unfold reportUsable
  split <;> rfl

/-- The day's turn writes the entries of the water alone. -/
theorem rolloverTest_alert (h : e ≠ .noWater) (k : e ≠ .waterShort) :
    (rolloverTest s).alert e = s.alert e := by
  unfold rolloverTest
  split
  · rfl
  · split
    · unfold rollover closeDay waterEvent
      rw [State.alert, post_mau]
      refine (forPiles_zeroDelivered_alert e _).trans ((reportUsable_alert e _ _).trans ?_)
      rw [syncAlerts_cons, syncAlerts_cons, syncAlerts_nil, syncAlert_alert_other k, syncAlert_alert_other h]
      rfl
    · rfl

theorem calm_purge (h : e ≠ .forecastStale) : Calm e s (purge s) :=
  calm_of_alert rfl (fun _ h => h) rfl (conditionOf_setFt e s _ h)

theorem conditionOf_setYc (y : Yc) (h : e ≠ .forecastStale) (k : e ≠ .timeInvalid) :
    conditionOf (s.setYc y) e = conditionOf s e := by
  cases e
  case forecastStale | timeInvalid => contradiction
  all_goals rfl

/-- A new time: the clock's entry follows it, then the day's turn, the purge, and last the forecast's entry
(R20, R22, R25, R33). -/
theorem follows_newTime (y : Yc) (f : State → State) (hf : ∀ t, f t = t ∨ f t = purge t) :
    Follows e s (syncAlert .forecastStale (f (rolloverTest (syncAlert .timeInvalid (s.setYc y))))) := by
  have dated : ∀ t, Flowed e t (rolloverTest t) := flowed_rolloverTest e
  have purged : e ≠ .forecastStale → ∀ t, Calm e t (f t) := by
    intro h t
    rcases hf t with k | k
    · rw [k]; exact .refl e t
    · rw [k]; exact calm_purge e t h
  by_cases hs : e = .forecastStale
  · subst hs
    refine follows_syncAlert ?_
    have kept : ∀ t, (f t).alert .forecastStale = t.alert .forecastStale := by
      intro t
      rcases hf t with k | k <;> rw [k]
      rfl
    rw [kept, rolloverTest_alert _ _ (by simp) (by simp), syncAlert_alert_other (by simp)]
    rfl
  · by_cases ht : e = .timeInvalid
    · subst ht
      refine Follows.calm_trans (t := syncAlert .timeInvalid (s.setYc y)) (follows_syncAlert rfl) ?_
      exact ((dated _).calm (by simp) (by simp)).trans ((purged hs _).trans (calm_syncAlert _ _ _))
    · refine Follows.of_alert_trans (t := s.setYc y) rfl (conditionOf_setYc e s y hs ht) ?_
      refine Heeds.follows (Heeds.calm_trans ?_ ((purged hs _).trans (calm_syncAlert _ _ _)))
      exact (calm_syncAlert .timeInvalid e _).heeds_trans (dated _).heeds

theorem follows_setTimeStep (n : Nat) : Follows e s (setTimeStep n s) :=
  follows_newTime e s _ purge fun _ => .inr rfl

/-- The second's purge, at the hour (R20, R32). -/
def purgeAtHour (s : State) : State := if s.yc.time % 3600 = 0 then purge s else s

theorem secondStep_eq : secondStep s =
    if s.yc.valid then
      syncAlert .forecastStale (purgeAtHour (rolloverTest (syncAlert .timeInvalid (s.setYc
        { s.yc with second := Config.ticksPerSecond, time := (nextTime s.yc.time).1,
                    valid := (nextTime s.yc.time).2 }))))
    else syncAlert .forecastStale (s.setYc { s.yc with second := Config.ticksPerSecond }) := rfl

theorem follows_secondStep : Follows e s (secondStep s) := by
  rw [secondStep_eq]
  split
  · refine follows_newTime e s _ purgeAtHour fun t => ?_
    unfold purgeAtHour
    split
    · exact .inr rfl
    · exact .inl rfl
  · refine Heeds.follows (heeds_write .forecastStale rfl rfl rfl fun _ => ?_)
    cases e <;> rfl

/-! ## SITE_SETUP -/

theorem latching_setSite (v : Site) : Latching e s (s.setSite v) :=
  latching_of_alert rfl (fun _ h => h) rfl

/-- The masts a SITE_SETUP writes, and their entries (R5, R14). -/
theorem refitMast_writes (x y : Bool) : ∃ masts, refitMast x y s =
    syncAlerts [.mastSuspect 0, .mastSuspect 1] { s with wfe := { s.wfe with masts := masts } } := by
  cases x <;> cases y
  · exact ⟨s.wfe.masts, rfl⟩
  · exact ⟨_, rfl⟩
  · exact ⟨_, rfl⟩
  · exact ⟨s.wfe.masts, rfl⟩

theorem heeds_refitMast (x y : Bool) : Heeds e s (refitMast x y s) := by
  obtain ⟨masts, h⟩ := refitMast_writes s x y
  rw [h]
  exact heeds_masts e s masts s.pins

theorem refitMast_alert (x y : Bool) (h : ∀ m, e ≠ .mastSuspect m) : (refitMast x y s).alert e = s.alert e := by
  obtain ⟨masts, k⟩ := refitMast_writes s x y
  rw [k, syncAlerts_cons, syncAlerts_cons, syncAlerts_nil, syncAlert_alert_other (h 1), syncAlert_alert_other (h 0)]

theorem calm_refitMast (x y : Bool) (h : ∀ m, e ≠ .mastSuspect m) : Calm e s (refitMast x y s) := by
  obtain ⟨masts, k⟩ := refitMast_writes s x y
  have write : Calm e s { s with wfe := { s.wfe with masts := masts } } := by
    refine calm_of_alert rfl (fun _ h => h) rfl ?_
    cases e
    case mastSuspect m => exact absurd rfl (h m)
    all_goals rfl
  rw [k]
  exact write.trans (calm_syncAlerts _ e _)

theorem calm_refitGauge (b : Bool) : Calm e s (refitGauge b s) := by
  unfold refitGauge
  split
  · exact .refl e s
  · exact calm_of_alert rfl (fun _ h => h) rfl (by cases e <;> rfl)

theorem flowed_retestDay (v : Site) : Flowed e s (retestDay v s) := by
  unfold retestDay
  split
  · exact flowed_rolloverTest e s
  · exact (Calm.refl e s).flowed

theorem calm_retestForecast (v : Site) : Calm e s (retestForecast v s) := by
  unfold retestForecast
  split
  · exact calm_syncAlert _ e s
  · exact .refl e s

/-- The steps of SITE_SETUP up to the day test. -/
def siteDated (v : Site) (s : State) : State :=
  retestDay s.site (refitGauge v.gaugeFitted (refitMast s.site.mast1Fitted v.mast1Fitted (s.setSite v)))

theorem siteStep_eq (v : Site) :
    siteStep v s = redeclare s.site (retestWater s (retestForecast s.site (siteDated v s))) := rfl

theorem latching_siteDated (v : Site) : Latching e s (siteDated v s) :=
  (latching_setSite e s v).trans <| (heeds_refitMast e _ _ _).toLatching.trans <|
    (calm_refitGauge e _ _).toLatching.trans (flowed_retestDay e _ _).toLatching

theorem retestDay_alert (v : Site) (h : e ≠ .noWater) (k : e ≠ .waterShort) :
    (retestDay v s).alert e = s.alert e := by
  unfold retestDay
  split
  · exact rolloverTest_alert e s h k
  · rfl

theorem refitGauge_alert (b : Bool) : (refitGauge b s).alert e = s.alert e := by
  unfold refitGauge
  split <;> rfl

theorem siteDated_alert (v : Site) (hm : ∀ m, e ≠ .mastSuspect m) (h : e ≠ .noWater) (k : e ≠ .waterShort) :
    (siteDated v s).alert e = s.alert e := by
  unfold siteDated
  rw [retestDay_alert e _ _ h k, refitGauge_alert, refitMast_alert e _ _ _ hm]
  rfl

/-- An entry whose condition the parameters themselves leave is as the blocks leave it. -/
theorem calm_siteDated (v : Site) (c : conditionOf (s.setSite v) e = conditionOf s e)
    (hm : ∀ m, e ≠ .mastSuspect m) (h : e ≠ .noWater) (k : e ≠ .waterShort) : Calm e s (siteDated v s) :=
  (calm_of_alert (s := s) (t := s.setSite v) rfl (fun _ h => h) rfl c).trans <| (calm_refitMast e _ _ _ hm).trans <|
    (calm_refitGauge e _ _).trans ((flowed_retestDay e _ _).calm h k)

theorem flowed_retestWater (before : State) (h : Flowing e s t) : Flowed e s (retestWater before t) :=
  (h.trans (calm_testFitness before e t).flowing).synced before

theorem conditionOf_setSite (v : Site) (hm : ∀ m, e ≠ .mastSuspect m) (hf : e ≠ .forecastStale)
    (hn : e ≠ .noWater) (hw : e ≠ .waterShort) (hx : ∀ m, e ≠ .machineStale m) :
    conditionOf (s.setSite v) e = conditionOf s e := by
  cases e
  case mastSuspect m => exact absurd rfl (hm m)
  case machineStale m => exact absurd rfl (hx m)
  case forecastStale | noWater | waterShort => contradiction
  all_goals rfl

/-- Machines no longer declared are forgotten; only the machines are written (R105). -/
theorem undeclared_writes : ∃ machines, (List.finRange 4).foldl (fun t m => undeclare m t) s =
    { s with cc := { s.cc with machines := machines } } := by
  generalize List.finRange 4 = l
  suffices h : ∀ machines, ∃ machines', l.foldl (fun t m => undeclare m t)
      { s with cc := { s.cc with machines := machines } } = { s with cc := { s.cc with machines := machines' } } from
    h s.cc.machines
  induction l with
  | nil => exact fun machines => ⟨machines, rfl⟩
  | cons m l ih =>
    intro machines
    rw [List.foldl_cons, undeclare]
    split
    · exact ih machines
    · exact ih _

/-- The machines' entries follow a SITE_SETUP; no other condition reads what it undeclares (R105). -/
theorem heeds_redeclare (v : Site) (l : Latching e s t) (a : t.alert e = s.alert e)
    (c : (∀ m, e ≠ .machineStale m) → conditionOf t e = conditionOf s e) : Heeds e s (redeclare v t) := by
  obtain ⟨machines, h⟩ := undeclared_writes t
  have synced : Heeds e s (syncAlerts ((List.finRange 4).map .machineStale)
      ((List.finRange 4).foldl (fun t m => undeclare m t) t)) := by
    rw [h]
    refine heeds_writes _ (l.trans (latching_of_alert rfl (fun _ h => h) rfl)) a fun he => ?_
    have hm : ∀ m, e ≠ .machineStale m := fun m hm =>
      he (hm ▸ List.mem_map.2 ⟨m, List.mem_finRange m, rfl⟩)
    refine .trans ?_ (c hm)
    cases e
    case machineStale m => exact absurd rfl (hm m)
    all_goals rfl
  unfold redeclare
  simp only
  split
  · exact synced.calm_trans (calm_evaluateExclusion e _)
  · exact synced

theorem calm_redeclare (v : Site) (h : ∀ m, e ≠ .machineStale m) : Calm e s (redeclare v s) := by
  obtain ⟨machines, k⟩ := undeclared_writes s
  have write : Calm e s { s with cc := { s.cc with machines := machines } } := by
    refine calm_of_alert rfl (fun _ h => h) rfl ?_
    cases e
    case machineStale m => exact absurd rfl (h m)
    all_goals rfl
  have synced := write.trans (calm_syncAlerts ((List.finRange 4).map .machineStale) e _)
  unfold redeclare
  simp only
  rw [k]
  split
  · exact synced.trans (calm_evaluateExclusion e _)
  · exact synced

theorem forcedSwitch_alert (h : ∀ c, e ≠ .valve c) (hn : e ≠ .noWater) :
    (forcedSwitch s).alert e = s.alert e := by
  have chosen : ∀ t, (selectAnew t).alert e = t.alert e := by
    intro t
    unfold selectAnew
    repeat' split
    all_goals rfl
  unfold forcedSwitch
  rw [State.alert, post_mau]
  refine (syncAlert_alert_other hn _).trans ((chosen _).trans ?_)
  unfold giveUpSource
  split
  · rfl
  · exact (sprayRules_alert h).capacityLoss _

theorem retestWater_alert (before : State) (h : ∀ c, e ≠ .valve c) (hn : e ≠ .noWater) (hw : e ≠ .waterShort) :
    (retestWater before s).alert e = s.alert e := by
  unfold retestWater
  rw [reportUsable_alert, syncAlerts_cons, syncAlerts_cons, syncAlerts_nil, syncAlert_alert_other hw,
    syncAlert_alert_other hn]
  unfold testFitness
  split
  · split
    · exact forcedSwitch_alert e s h hn
    · rfl
  · rfl

theorem calm_retestWater (before : State) (hn : e ≠ .noWater) (hw : e ≠ .waterShort) :
    Calm e s (retestWater before s) := (flowed_retestWater e s before (Calm.refl e s).flowing).calm hn hw

theorem retestForecast_alert (v : Site) (h : e ≠ .forecastStale) : (retestForecast v s).alert e = s.alert e := by
  unfold retestForecast
  split
  · exact syncAlert_alert_other h s
  · rfl

@[simp] theorem rolloverTest_site : (rolloverTest s).site = s.site := by
  unfold rolloverTest
  split
  · rfl
  · split
    · exact (quiet_rollover s).site
    · rfl

@[simp] theorem siteDated_site (v : Site) : (siteDated v s).site = v := by
  have day : ∀ b t, (retestDay b t).site = t.site := by
    intro b t
    unfold retestDay
    split
    · exact rolloverTest_site t
    · rfl
  have gauge : ∀ b t, (refitGauge b t).site = t.site := by
    intro b t
    unfold refitGauge
    split <;> rfl
  obtain ⟨masts, k⟩ := refitMast_writes (s.setSite v) s.site.mast1Fitted v.mast1Fitted
  rw [siteDated, day, gauge, k]
  simp only [syncAlerts_cons, syncAlerts_nil, syncAlert_site]
  rfl

/-- SITE_SETUP writes each entry once after the block that owns it has applied the new figures (R158). -/
theorem heeds_siteStep (v : Site) : Heeds e s (siteStep v s) := by
  rw [siteStep_eq]
  by_cases hm : ∃ m, e = .mastSuspect m
  · obtain ⟨m, rfl⟩ := hm
    have masts : Heeds (.mastSuspect m) s (refitMast s.site.mast1Fitted v.mast1Fitted (s.setSite v)) := by
      obtain ⟨masts, h⟩ := refitMast_writes (s.setSite v) s.site.mast1Fitted v.mast1Fitted
      rw [h]
      refine heeds_writes _ (latching_of_alert rfl (fun _ h => h) rfl) rfl fun h => ?_
      match m with
      | 0 => simp at h
      | 1 => simp at h
    exact masts.calm_trans <| (calm_refitGauge _ _ _).trans <|
      ((flowed_retestDay _ _ _).calm (by simp) (by simp)).trans <| (calm_retestForecast _ _ _).trans <|
      (calm_retestWater _ _ _ (by simp) (by simp)).trans (calm_redeclare _ _ _ (by simp))
  have hm : ∀ m, e ≠ .mastSuspect m := fun m h => hm ⟨m, h⟩
  by_cases hw : e = .noWater ∨ e = .waterShort
  · have flowing : Flowing e s (siteDated v s) :=
      ⟨latching_siteDated e s v, fun a b => absurd hw (by simp [a, b])⟩
    refine (flowed_retestWater e s s (flowing.trans
      (calm_retestForecast e _ s.site).flowing)).heeds.calm_trans ?_
    exact calm_redeclare e _ _ fun m h => by rcases hw with rfl | rfl <;> cases h
  obtain ⟨hn, hw⟩ := not_or.1 hw
  have dated := latching_siteDated e s v
  have alert := siteDated_alert e s v hm hn hw
  by_cases hf : e = .forecastStale
  · subst hf
    have tail : ∀ t, Calm .forecastStale t (redeclare s.site (retestWater s t)) := fun t =>
      (calm_retestWater _ t s hn hw).trans (calm_redeclare _ _ _ (by simp))
    refine Heeds.calm_trans ?_ (tail _)
    unfold retestForecast
    split
    · exact heeds_syncAlert dated alert
    · rename_i h
      refine (calm_siteDated .forecastStale s v ?_ hm hn hw).heeds
      have same : s.site.staleTime = v.staleTime := by rw [siteDated_site] at h; exact not_not.1 h
      simp only [conditionOf, forecastIsStale, State.setSite, same]
      rfl
  by_cases hx : ∃ m, e = .machineStale m
  · obtain ⟨m, rfl⟩ := hx
    refine heeds_redeclare _ s _ (dated.trans <| (calm_retestForecast _ _ _).toLatching.trans
      (calm_retestWater _ _ s hn hw).toLatching) ?_ fun h => absurd rfl (h m)
    rw [retestWater_alert _ _ _ (by simp) hn hw, retestForecast_alert _ _ _ hf, alert]
  · have hx : ∀ m, e ≠ .machineStale m := fun m h => hx ⟨m, h⟩
    exact ((calm_siteDated e s v (conditionOf_setSite e s v hm hf hn hw hx) hm hn hw).trans <|
      (calm_retestForecast e _ _).trans <| (calm_retestWater e _ s hn hw).trans (calm_redeclare e _ _ hx)).heeds

end

/-! ## Every event -/

theorem Makes.follows {i : Instr} {f : State → State} (h : Makes i f) (e : AlertId) (s : State) :
    Follows e s (f s) := by
  have r := sprayRules_calm e
  cases h with
  | gateExpiry => exact (heeds_gateStep e s _ _).follows
  | rainTip => exact (flowed_rainEdge e s).heeds.follows
  | secondEvent => exact follows_secondStep e s
  | assessment => exact (flowed_assessmentStep e s).heeds.follows
  | primingExpiry => exact (r.capacityIncrease s).heeds.follows
  | rundownExpiry => exact (r.pumpStop s).heeds.follows
  | changeoverExpiry => exact (r.capacityIncrease s).heeds.follows
  | settleExpiry => exact (flowed_settle _ e s).heeds.follows
  | deliverySecond => exact (flowed_deliveryStep _ e s).heeds.follows
  | lostWaterExpiry => exact (flowed_lostWaterStep _ e s).heeds.follows
  | slotExpiry => exact (r.slotStep s).heeds.follows
  | feedbackChange => exact (heeds_feedbackStep _ e s _).follows
  | travelExpiry => exact (heeds_travelStep _ e s).follows
  | machineStaleExpiry => exact (heeds_machineStaleStep e s _).follows
  | resumeExpiry => exact (r.resumeStep s _).heeds.follows
  | orderExpiry => exact (calm_orderStep e s _ _ _).heeds.follows
  | holdExpiry => exact (calm_orderStep e s _ _ _).heeds.follows
  | stopLineChange => exact (heeds_stopStep e s _).follows

theorem of_map_index? {n o : Nat} {f : Fin n → AlertId} {x : AlertId} (h : (index? n o).map f = some x) :
    ∃ i : Fin n, x = f i ∧ o = i := by
  unfold index? at h
  split at h
  · exact ⟨_, (Option.some.inj h).symm, rfl⟩
  · cases h

theorem of_ite_zero {o : Nat} {y x : AlertId} (h : (if o = 0 then some y else none) = some x) :
    x = y ∧ o = 0 := by
  split at h
  · exact ⟨(Option.some.inj h).symm, by assumption⟩
  · cases h

theorem alertId_codes {k o : Nat} {x : AlertId} (h : alertId? k o = some x) :
    k = x.kindCode ∧ o = x.objectCode := by
  unfold alertId? at h
  split at h
  case h_10 => cases h
  case h_1 | h_7 | h_8 | h_9 =>
    obtain ⟨i, rfl, rfl⟩ := of_map_index? h
    exact ⟨rfl, rfl⟩
  all_goals
    obtain ⟨rfl, rfl⟩ := of_ite_zero h
    exact ⟨rfl, rfl⟩

theorem calm_ackStep {x : AlertId} (h : e ≠ x) (s : State) : Calm e s (ackStep x s) := by
  unfold ackStep
  simp only
  split
  · exact .refl e s
  · exact calm_of_alert rfl (fun _ h => h)
      (by rw [State.alert, setAlerts_mau, alerts_get_set, if_neg h]) (conditionOf_setAlerts _ e s)

/-- An acknowledgement clears the latch where the condition is false, which stays what it is (R161). -/
theorem inStep_ackStep (x : AlertId) (h : InStep e s) : InStep e (ackStep x s) := by
  by_cases k : e = x
  · subst k
    unfold ackStep
    simp only
    split
    · exact h
    · unfold InStep
      rw [conditionOf_setAlerts, ← h, State.alert, setAlerts_mau, alerts_get_set, if_pos rfl]
  · exact (calm_ackStep k s).inStep h

/-- What a request asks for, but for an acknowledgement of the entry itself. -/
theorem Asks.follows {i : Instr} {f : State → State} (h : Asks i f) (e : AlertId) (s : State)
    (ha : ∀ tag, i ≠ .ackAlert tag e.kindCode e.objectCode) : Follows e s (f s) := by
  cases h with
  | siteSetup => exact (heeds_siteStep e s _).follows
  | poolSplit => exact (heeds_splitStep e s _ _ _).follows
  | configurePile => exact (calm_configurePile e s _ _).heeds.follows
  | releasePile => exact (calm_releasePile e s _).heeds.follows
  | configureCannon => exact (heeds_configureCannon e s _ _).follows
  | releaseCannon => exact (heeds_releaseCannon e s _).follows
  | configurePond => exact (flowed_configurePond _ _ e s).heeds.follows
  | releasePond => exact (flowed_releasePond _ e s).heeds.follows
  | configureMonitor => exact (heeds_configureMonitor e s _ _).follows
  | releaseMonitor => exact (heeds_releaseMonitor e s _).follows
  | attrib => exact (calm_attribStep e s _ _ _).heeds.follows
  | mode => exact (heeds_modeStep e s _).follows
  | setTime => exact follows_setTimeStep e s _
  | forecast => exact (heeds_forecastStep e s _ _ _).follows
  | reading => exact (heeds_readingStep e s _ _).follows
  | pondReport => exact (flowed_reportPond _ _ _ _ e s).heeds.follows
  | machinePos => exact (heeds_reportMachine e s _ _ _).follows
  | mastService => exact (heeds_serviceMast e s _ _).follows
  | orderWet => exact (calm_wetStep e s _ _ _ _ _).heeds.follows
  | orderHold => exact (calm_holdStep e s _ _ _ _).heeds.follows
  | orderCancel => exact (calm_closeOrder e s _ _).heeds.follows
  | lock => exact (heeds_lockCannon _ e s).follows
  | unlock => exact (heeds_unlockCannon _ e s).follows
  | ackAlert h =>
    rename_i tag k o x
    obtain ⟨rfl, rfl⟩ := alertId_codes h
    exact (calm_ackStep (fun he => ha tag (by rw [he])) s).heeds.follows

/-- An event with the grant pass it may owe. -/
theorem Follows.inEvent {f : State → State} (h : ∀ s, Follows e s (f s)) (s : State) :
    Follows e s (inEvent f s) :=
  Follows.of_alert_trans (t := s.setPass false) rfl (calm_setPass false e s).condition
    ((h _).calm_trans ((sprayRules_calm e).inEvent s f))

/-! ## The restarts, the line and the tick -/

theorem mem_alertOrder (e : AlertId) : e ∈ alertOrder := by
  unfold alertOrder
  cases e <;> simp

/-- The restart's reading of one entry leaves the others and every condition (R163, R164). -/
theorem relatch_eq (x : AlertId) (s : State) : relatch x s =
    (s.setAlerts (s.mau.alerts.set ⟨conditionOf s x, conditionOf s x, if conditionOf s x then now s else none⟩
      x)).setNotices (relatch x s).lc.notices := by
  unfold relatch
  simp only
  split
  · rw [post_eq]; rfl
  · rfl

theorem conditionOf_relatch (x e : AlertId) (s : State) : conditionOf (relatch x s) e = conditionOf s e := by
  rw [relatch_eq, conditionOf_setNotices, conditionOf_setAlerts]

theorem now_relatch (x : AlertId) (s : State) : now (relatch x s) = now s := by rw [relatch_eq]; rfl

/-- The entry as a restart reads it anew (R163, R164). -/
def relatched (s : State) (e : AlertId) : Alert :=
  ⟨conditionOf s e, conditionOf s e, if conditionOf s e then now s else none⟩

theorem relatch_alert (x e : AlertId) (s : State) :
    (relatch x s).alert e = if e = x then relatched s x else s.alert e := by
  rw [relatch_eq, State.alert, setNotices_mau, setAlerts_mau, alerts_get_set]
  rfl

theorem relatched_relatch (x e : AlertId) (s : State) : relatched (relatch x s) e = relatched s e := by
  simp only [relatched, conditionOf_relatch, now_relatch]

theorem relatch_foldl (es : List AlertId) (e : AlertId) (s : State) :
    (es.foldl (fun t x => relatch x t) s).alert e = if e ∈ es then relatched s e else s.alert e := by
  induction es generalizing s with
  | nil => rfl
  | cons x es ih =>
    rw [List.foldl_cons, ih, relatched_relatch, relatch_alert]
    by_cases h : e ∈ es
    · simp [h]
    · by_cases k : e = x
      · simp [k]
      · simp [h, k]

theorem conditionOf_relatchAll (e : AlertId) (s : State) : conditionOf (relatchAll s) e = conditionOf s e := by
  unfold relatchAll
  generalize alertOrder = es
  induction es generalizing s with
  | nil => rfl
  | cons x es ih => rw [List.foldl_cons, ih, conditionOf_relatch]

theorem relatchAll_alert (e : AlertId) (s : State) : (relatchAll s).alert e = relatched s e := by
  unfold relatchAll
  rw [relatch_foldl, if_pos (mem_alertOrder e)]

theorem inStep_relatchAll (e : AlertId) (s : State) : InStep e (relatchAll s) := by
  unfold InStep
  rw [relatchAll_alert, conditionOf_relatchAll]
  rfl

theorem inStep_warmRestart (e : AlertId) (s : State) : InStep e (warmRestart s) :=
  (calm_setPass false e _).inStep ((heeds_obeyStop e _).inStep (inStep_relatchAll e _))

theorem inStep_reset (e : AlertId) : InStep e State.reset := by
  unfold InStep
  cases e
  case mastSuspect m => revert m; decide
  case valve c => revert c; decide
  case monitorStale m => revert m; decide
  case machineStale m => revert m; decide
  all_goals decide

theorem inStep_powerOn (a b : Bool) (e : AlertId) (s : State) : InStep e (powerOn a b s) := by
  have h := inStep_reset e
  cases e <;> exact h

theorem LineOnly.alert (h : LineOnly s t) (e : AlertId) : t.alert e = s.alert e := by rw [h.rest]

theorem LineOnly.conditionOf (h : LineOnly s t) (e : AlertId) : conditionOf t e = conditionOf s e := by
  rw [h.rest]
  cases e <;> rfl

theorem LineOnly.now (h : LineOnly s t) : now t = now s := by rw [h.rest]; rfl

theorem LineOnly.calm (h : LineOnly s t) (e : AlertId) : Calm e s t :=
  calm_of_alert h.now (fun n hn => by rw [h.notices]; exact hn) (h.alert e) (h.conditionOf e)

theorem calm_bounceExpiry (e : AlertId) (s : State) : Calm e s (s.setWfe { s.wfe with bounce := none }) :=
  calm_of_alert rfl (fun _ h => h) rfl (by cases e <;> rfl)

/-- A delivery moves orders, episodes and the list of notices alone (R174, R176). -/
theorem pollEvent_alert (n : Nat) (e : AlertId) (s : State) :
    (pollEvent n s).1.alert e = s.alert e ∧ conditionOf (pollEvent n s).1 e = conditionOf s e := by
  unfold pollEvent
  generalize s.lc.notices.take n = l, ([] : List Byte) = b
  induction l generalizing s b with
  | nil => exact ⟨rfl, rfl⟩
  | cons x l ih =>
    have one : (delivered x s).alert e = s.alert e ∧ conditionOf (delivered x s) e = conditionOf s e := by
      unfold delivered
      repeat' split
      all_goals exact ⟨rfl, by cases e <;> rfl⟩
    rw [List.foldl_cons, deliverNotice]
    obtain ⟨ha, hc⟩ := ih ((delivered x s).setNotices (s.lc.notices.erase x)) (b ++ noticeEntry s x)
    exact ⟨ha.trans one.1, hc.trans ((conditionOf_setNotices _ _ _).trans one.2)⟩

theorem follows_pollEvent (n : Nat) (e : AlertId) (s : State) : Follows e s (pollEvent n s).1 :=
  follows_of_alert (pollEvent_alert n e s).1 (pollEvent_alert n e s).2

@[simp] theorem tick_pond (p : Fin 4) (s : State) : (tick s).pond p = (s.pond p).tick := Table.get_map _ _ _

@[simp] theorem tick_cannon (c : Fin 32) (s : State) : (tick s).cannon c = (s.cannon c).tick := Table.get_map _ _ _

@[simp] theorem tick_monitor (m : Fin 8) (s : State) : (tick s).monitor m = (s.monitor m).tick := Table.get_map _ _ _

@[simp] theorem tick_machine (m : Fin 4) (s : State) : (tick s).machine m = (s.machine m).tick :=
  Table.get_map _ _ _

theorem usable_tick (x : Source) (s : State) : usable (tick s) x = usable s x := by
  cases x
  · simp only [usable, fit, tick_pond]; rfl
  · rfl

theorem selection_tick (s : State) : selection (tick s) = selection s := by
  have better : betterPond (tick s) = betterPond s := by
    funext best p
    unfold betterPond
    rw [usable_tick]
    cases best
    · rfl
    · simp only [tick_pond]; rfl
  unfold selection
  rw [better, usable_tick]

theorem usableWater_tick (s : State) : usableWater (tick s) = usableWater s := by
  have part : pondWater (tick s) = pondWater s := by
    funext p
    unfold pondWater
    rw [tick_pond]
    rfl
  unfold usableWater
  rw [part]
  rfl

/-- A tick moves countdowns and filters; no owner's condition reads one. -/
theorem conditionOf_tick (e : AlertId) (s : State) : conditionOf (tick s) e = conditionOf s e := by
  cases e
  case noWater => simp only [conditionOf, noUsableSource, selection_tick]; rfl
  case waterShort => simp only [conditionOf, waterState, usableWater_tick]; rfl
  case valve c => simp only [conditionOf, tick_cannon]; rfl
  case monitorStale m => simp only [conditionOf, tick_monitor]; rfl
  case machineStale m => simp only [conditionOf, tick_machine]; rfl
  all_goals rfl

/-! ## The law -/

theorem keeps_inStep (i : Instr) : Keeps i fun s => ∀ e, InStep e s where
  line _ _ h k e := (h.calm e).inStep (k e)
  powerOn a b s _ _ e := inStep_powerOn a b e s
  pulse m s k e := (calm_pulseStep e s m).inStep (k e)
  bounce s k e := (calm_bounceExpiry e s).inStep (k e)
  monitorStale m s k e := (heeds_monitorStaleStep e s m).inStep (k e)
  makes f s h k e := (Follows.inEvent (h.follows e) s).inStep (k e)
  asks j f s h k e := by
    have event : InStep e (f (s.setPass false)) := by
      have k' : InStep e (s.setPass false) := (calm_setPass false e s).inStep (k e)
      by_cases ha : ∃ tag, j = .ackAlert tag e.kindCode e.objectCode
      · obtain ⟨tag, rfl⟩ := ha
        cases h with
        | ackAlert h => exact inStep_ackStep _ k'
      · exact (h.follows e _ fun tag he => ha ⟨tag, he⟩).inStep k'
    exact ((sprayRules_calm e).inEvent s f).inStep event
  poll n s k e := (follows_pollEvent n e s).inStep (k e)
  restart s _ e := inStep_warmRestart e s

theorem inStep_of_queue (n : Nat) (q : List Instr) (h : InStep e s) :
    InStep e { s with freeCount := n, pending := q } := by
  cases e <;> exact h

theorem inStep_tick (h : InStep e s) : InStep e (tick s) := by
  unfold InStep
  rw [conditionOf_tick]
  exact h

/-- A command that is no power-on, no acknowledgement of the entry, no character that ends a frame and no
end of WARM_RESTART's reply. -/
theorem exec_follows {i : Instr} (hp : ∀ a b, i ≠ .powerOnReset a b)
    (ha : ∀ tag, i ≠ .ackAlert tag e.kindCode e.objectCode)
    (hx : ∀ b x, i = .receiveCharacter b x → s.lc.rx ≠ .trailer)
    (hr : ∀ r ∈ s.lc.reply, r.restart = false) (h : exec i s = .next t) : Follows e s t := by
  cases exec_effect h with
  | line k => exact (k.calm e).heeds.follows
  | powerOn k => exact absurd k (hp _ _)
  | pulse _ => exact (calm_pulseStep e s _).heeds.follows
  | bounce _ => exact (calm_bounceExpiry e s).heeds.follows
  | monitorStale _ => exact (heeds_monitorStaleStep e s _).follows
  | event k => exact .inEvent (k.follows e) s
  | restart _ k =>
    obtain ⟨r, hm, ht⟩ := k
    rw [hr r hm] at ht
    cases ht
  | frame k l => exact absurd l (hx _ _ k)
  | request k l =>
    have free := replySentStep_lineOnly hr
    refine Follows.of_alert_trans (free.alert e) (free.conditionOf e) (Follows.calm_trans ?_ (l.calm e))
    cases k with
    | refused => exact (Calm.refl e _).heeds.follows
    | answered k =>
      cases k with
      | report => exact (Calm.refl e _).heeds.follows
      | event k => exact .inEvent (fun s => k.follows e s ha) _
      | poll _ n _ => exact follows_pollEvent n e _

/-- Settles O18: each entry follows its owner within the event that moves the owner's state. -/
theorem alertConditionsStayTheirOwners : Obligations.AlertConditionsStayTheirOwners := by
  refine ⟨fun s t hs h => ?_, fun i e s t hp ha hx hr h => ?_⟩
  · have all : ∀ e, InStep e t := step_keeps keeps_inStep (fun s n q k e => inStep_of_queue n q (k e))
      (fun s k e => inStep_tick (k e)) h fun e => hs e (mem_alertOrder e)
    exact fun e _ => all e
  · obtain ⟨stands, latches, rises, -, whole⟩ := exec_follows hp ha hx hr h
    exact ⟨stands, latches, rises, fun hs a b c => whole a b (hs e (mem_alertOrder e)) c⟩

end Sys2Proof.Machine
end

