-- ==== Sys2Proof/Proofs/GateSamples.lean ====
section
/-! SUPPORT. The masts after a gate expiry: samples, zero runs and suspicion (R2 to R6). -/

namespace Sys2Proof.Machine

/-- The vane reading of a mast at a gate expiry. -/
def vaneOf (vane0 vane1 : BitVec 4) (m : Fin 2) : BitVec 4 := if m = 0 then vane0 else vane1

/-- The mast's record after stages 1 and 2 (R2, R4, R6). -/
def measuredMast (vane0 vane1 : BitVec 4) (s : State) (m : Fin 2) : Mast :=
  if fitted s m then (s.mast m).measured (s.site.kcal m) (s.site.ocal m) (vaneOf vane0 vane1 m) else s.mast m

/-- Stages 1 and 2 for both masts. -/
def measureMasts (vane0 vane1 : BitVec 4) (s : State) : State := measureMast vane1 1 (measureMast vane0 0 s)

section
variable (v w : BitVec 4) (s : State) (m : Fin 2)

theorem measureMast_site : (measureMast v m s).site = s.site := by rw [measureMast_eq]

theorem fitted_measureMast (i : Fin 2) : fitted (measureMast v m s) i = fitted s i := by
  rw [fitted, measureMast_site, fitted]

theorem measureMasts_mast : (measureMasts v w s).mast m = measuredMast v w s m := by
  unfold measureMasts measuredMast
  rw [measureMast_mast, measureMast_mast, measureMast_mast, measureMast_site, fitted_measureMast]
  match m with
  | 0 => by_cases h : fitted s 0 = true <;> simp [h, vaneOf]
  | 1 => by_cases h : fitted s 1 = true <;> simp [h, vaneOf]

theorem fitted_measureMasts : fitted (measureMasts v w s) m = fitted s m := by
  unfold measureMasts
  rw [fitted_measureMast, fitted_measureMast]

theorem enterWindow_mast : (enterWindow s).mast m = s.mast m := by
  unfold enterWindow Wfe.enter
  simp only
  repeat' split
  all_goals rfl

theorem publish_mast : (publish s).mast m = s.mast m := by
  unfold publish
  rw [syncAlert_mast]
  rfl

theorem mast_of_wfe {s t : State} (h : t.wfe = s.wfe) (m : Fin 2) : t.mast m = s.mast m := by
  rw [State.mast, h]
  rfl

/-- Nothing of a gate expiry touches a mast after stage 3 (R2). -/
theorem gateEvent_mast : (inEvent (gateStep v w) s).mast m =
    if becomesSuspect (measureMasts v w s) m then { measuredMast v w s m with suspect := true }
    else measuredMast v w s m := by
  rw [mast_of_wfe (inEvent_within s (gateStep v w)).wfe, gateStep, mast_of_wfe (quiet_driftEvaluation _).wfe,
    gateStages_eq, publish_mast, enterWindow_mast, gateMeasured, testSuspicion_mast]
  change (if becomesSuspect (measureMasts v w _) m then { (measureMasts v w _).mast m with suspect := true }
    else (measureMasts v w _).mast m) = _
  rw [measureMasts_mast]
  have suspect : becomesSuspect (measureMasts v w ((s.setPass false).setWfe
      { (s.setPass false).wfe with gate := Config.gateTicks })) m = becomesSuspect (measureMasts v w s) m := by
    simp only [becomesSuspect, measureMasts_mast, fitted_measureMasts]
    rfl
  rw [suspect]
  rfl

/-- The sector is the place of the vane lines in the Gray code (R3). -/
theorem vaneSector_gray : ([0, 1, 3, 2, 6, 7, 5, 4, 12, 13, 15, 14, 10, 11, 9, 8] : List (BitVec 4))[
    (vaneSector v).val]? = some v := by
  obtain ⟨n⟩ := v
  revert n
  decide

variable {v w s m}

theorem measuredMast_of_fitted (h : fitted s m = true) :
    measuredMast v w s m = (s.mast m).measured (s.site.kcal m) (s.site.ocal m) (vaneOf v w m) := if_pos h

/-- Suspicion as stages 2 and 3 leave it (R6). -/
theorem suspect_gateEvent (h : fitted s m = true) :
    ((inEvent (gateStep v w) s).mast m).suspect = true ↔
      ((s.mast m).suspect = true ∧ (s.mast m).pulses = 0) ∨ becomesSuspect (measureMasts v w s) m = true := by
  rw [gateEvent_mast, measuredMast_of_fitted h]
  by_cases k : becomesSuspect (measureMasts v w s) m = true
  · simp [k]
  · by_cases p : (s.mast m).pulses = 0 <;> simp [k, Mast.measured, p]

/-- Stage 3 marks only the suspect flag. -/
theorem gateEvent_mast_eq : ∃ b, (inEvent (gateStep v w) s).mast m = { measuredMast v w s m with suspect := b } := by
  rw [gateEvent_mast]
  split
  · exact ⟨_, rfl⟩
  · exact ⟨_, rfl⟩

theorem becomesSuspect_iff (h : fitted s m = true) : becomesSuspect (measureMasts v w s) m = true ↔
    (measuredMast v w s m).zeroRun = 100 ∧ fitted s (otherMast m) = true ∧
      ¬((s.mast (otherMast m)).suspect = true ∧ (s.mast (otherMast m)).pulses = 0) ∧
      ∃ y ∈ (measuredMast v w s (otherMast m)).sample, 20 ≤ y.speed := by
  simp only [becomesSuspect, fitted_measureMasts, measureMasts_mast, h, Bool.true_and, Bool.and_eq_true,
    decide_eq_true_eq, Bool.not_eq_true', and_assoc]
  by_cases o : fitted s (otherMast m) = true
  · rw [measuredMast_of_fitted o]
    by_cases p : (s.mast (otherMast m)).pulses = 0 <;> simp [o, Mast.measured, p]
  · simp [o]

end

/-- Settles O25: the record of each fitted mast is the measured one, marked where stage 3 finds it suspect. -/
theorem gateExpiryFormsTheSamples : Obligations.GateExpiryFormsTheSamples := by
  intro v0 v1 s
  refine ⟨_, rfl, fun m h => ?_, fun m h => ?_⟩
  · have suspect := (suspect_gateEvent (v := v0) (w := v1) h).trans (or_congr_right (becomesSuspect_iff h))
    obtain ⟨b, e⟩ := gateEvent_mast_eq (v := v0) (w := v1) (s := s) (m := m)
    obtain ⟨c, o⟩ := gateEvent_mast_eq (v := v0) (w := v1) (s := s) (m := otherMast m)
    rw [o, e]
    rw [e] at suspect
    refine ⟨?_, ?_, ?_, ?_, suspect⟩
    all_goals rw [measuredMast_of_fitted h]
    · exact ⟨_, rfl, vaneSector_gray _, rfl, rfl⟩
    all_goals rfl
  · have stays : becomesSuspect (measureMasts v0 v1 s) m = false := by
      simp [becomesSuspect, fitted_measureMasts, h]
    change (inEvent (gateStep v0 v1) s).mast m = _
    rw [gateEvent_mast, stays]
    simp [measuredMast, h]

end Sys2Proof.Machine
end

