-- ==== Sys2Proof/Proofs/Requests.lean ====
section
/-! SUPPORT. A request taken while no reply is in progress: its answer goes out over the state its event
leaves (R170, R171); and the operand forms, in range and out of it. -/

namespace Sys2Proof.Machine

section
variable {kind tag : Nat} {ask : State → Answer} {s : State}

theorem replySentStep_of_free (h : s.lc.reply = none) : replySentStep s = s := by
  unfold replySentStep
  rw [h]

theorem takeRequest_accepted (h : s.lc.reply = none) {u : State} {body : List Byte}
    (k : ask s = .accepted u body) :
    takeRequest kind tag ask s = startReply (acceptance kind tag body) (restartFollows kind) u := by
  simp only [takeRequest, replySentStep_of_free h, k]

theorem takeRequest_refused (h : s.lc.reply = none) {r : Reason} (k : ask s = .refused r) :
    takeRequest kind tag ask s = startReply (refusal kind tag r) false s := by
  simp only [takeRequest, replySentStep_of_free h, k]

end

theorem flagByte_true : flagByte true = [1] := rfl

theorem flagByte_false : flagByte false = [0] := rfl

theorem index?_val {n : Nat} (i : Fin n) : index? n i = some i := dif_pos i.isLt

theorem index?_of_le {n i : Nat} (h : n ≤ i) : index? n i = none := dif_neg (Nat.not_lt.2 h)

theorem inEvent_of_quietPass {f : State → State} {s : State} (h : (f (s.setPass false)).sd.passDue = false) :
    inEvent f s = f (s.setPass false) := by
  simp only [inEvent, h]
  rfl

theorem piles?_vals (ps : List (Fin 24)) : piles? (ps.map Fin.val) = some ps := by
  unfold piles?
  induction ps with
  | nil => rfl
  | cons p ps ih =>
    rw [List.map_cons, List.mapM_cons, index?_val, ih]
    rfl

theorem piles?_of_large {ps : List Nat} (h : ∃ p ∈ ps, 24 ≤ p) : piles? ps = none := by
  obtain ⟨p, hp, hl⟩ := h
  unfold piles?
  induction ps with
  | nil => cases hp
  | cons q ps ih =>
    rw [List.mapM_cons]
    rcases List.mem_cons.1 hp with rfl | hq
    · rw [index?_of_le hl]; rfl
    · rw [ih hq]
      cases index? 24 q <;> rfl

theorem serviceOut?_of_le {a : Nat} (h : 2 ≤ a) : serviceOut? a = none := by
  match a, h with
  | n + 2, _ => rfl

theorem serviceOut?_of_lt {a : Nat} (h : a < 2) : ∃ out, serviceOut? a = some out := by
  match a, h with
  | 0, _ => exact ⟨true, rfl⟩
  | 1, _ => exact ⟨false, rfl⟩

/-! ## MAST_SERVICE (R7) -/

theorem serviceMast_eq (m : Fin 2) (out : Bool) (s : State) : serviceMast m out s =
    { s with
      wfe := { s.wfe with masts := (serviceMast m out s).wfe.masts }
      mau := { s.mau with alerts := (serviceMast m out s).mau.alerts }
      lc := { s.lc with notices := (serviceMast m out s).lc.notices } } := by
  unfold serviceMast
  rw [syncAlert_eq]
  rfl

theorem serviceMast_mast (m x : Fin 2) (out : Bool) (s : State) :
    (serviceMast m out s).mast x = if x = m then { s.mast m with declaredOut := out } else s.mast x := by
  unfold serviceMast
  rw [syncAlert_mast, setMast_mast]

/-- The MAST_SUSPECT condition follows at once (R14). -/
theorem serviceMast_condition (m : Fin 2) (out : Bool) (s : State) (h : fitted s m = true) :
    ((serviceMast m out s).mau.alerts.get (.mastSuspect m)).condition = ((s.mast m).suspect || out) := by
  unfold serviceMast
  rw [syncAlert_condition, conditionOf_mastSuspect, setMast_mast_same]
  change (fitted s m && _) = _
  rw [h, Bool.true_and]

theorem inEvent_serviceMast (m : Fin 2) (out : Bool) (s : State) :
    inEvent (serviceMast m out) s = serviceMast m out (s.setPass false) := by
  apply inEvent_of_quietPass
  rw [serviceMast_eq]
  rfl

theorem exec_mastService {tag a : Nat} {m : Fin 2} {out : Bool} {s : State} (h : s.lc.reply = none)
    (k : fitted s m = true) (o : serviceOut? a = some out) : exec (.mastService tag m a) s =
      .next (startReply (acceptance 0x15 tag (le 1 m ++ [1] ++ flagByte (s.mast m).suspect ++ flagByte out))
        false (serviceMast m out (s.setPass false))) := by
  refine congrArg _ ((takeRequest_accepted h (u := serviceMast m out (s.setPass false))
    (body := mastBody m (serviceMast m out (s.setPass false))) ?_).trans ?_)
  · simp only [answerMastService, index?_val, o, k, accept, inEvent_serviceMast]
    rfl
  · have fit : fitted (serviceMast m out (s.setPass false)) m = true := by
      rw [serviceMast_eq]
      exact k
    rw [mastBody, fit, serviceMast_mast, if_pos rfl]
    rfl

/-- What an accepted MAST_SERVICE writes, and what it leaves as it was (R7, R14). -/
theorem serviceMast_frame {m : Fin 2} {out : Bool} {s t : State} (h : fitted s m = true)
    (ht : t = serviceMast m out (s.setPass false)) :
    t.mast m = { s.mast m with declaredOut := out } ∧ (∀ x, x ≠ m → t.mast x = s.mast x) ∧
      t.wfe = { s.wfe with masts := t.wfe.masts } ∧
      (t.mau.alerts.get (.mastSuspect m)).condition = ((s.mast m).suspect || out) ∧
      t.mau = { s.mau with alerts := t.mau.alerts } ∧
      t.sd = { s.sd with passDue := false } ∧ t.cc = s.cc ∧ t.wiu = s.wiu ∧ t.bwu = s.bwu ∧ t.yc = s.yc ∧
      t.ft = s.ft ∧ t.pau = s.pau ∧ t.site = s.site ∧ t.pins = s.pins := by
  have condition : (t.mau.alerts.get (.mastSuspect m)).condition = ((s.mast m).suspect || out) := by
    rw [ht]
    exact serviceMast_condition m out (s.setPass false) h
  have mast : ∀ x, t.mast x = if x = m then { s.mast m with declaredOut := out } else s.mast x := by
    intro x
    rw [ht]
    exact serviceMast_mast m x out _
  rw [serviceMast_eq] at ht
  refine ⟨by rw [mast, if_pos rfl], fun x hx => by rw [mast, if_neg hx], ?_, condition, ?_⟩
  · rw [ht]
    rfl
  · rw [ht]
    exact ⟨rfl, rfl, rfl, rfl, rfl, rfl, rfl, rfl, rfl, rfl⟩

theorem exec_mastService_refused {tag m a : Nat} {r : Reason} {s : State} (h : s.lc.reply = none)
    (k : answerMastService m a s = .refused r) :
    exec (.mastService tag m a) s = .next (startReply (refusal 0x15 tag r) false s) :=
  congrArg _ (takeRequest_refused h k)

theorem answerMastService_outOfRange {m a : Nat} (h : 2 ≤ m ∨ 2 ≤ a) (s : State) :
    answerMastService m a s = .refused .outOfRange := by
  unfold answerMastService
  rcases h with h | h
  · rw [index?_of_le h]
  · rw [serviceOut?_of_le h]
    cases index? 2 m <;> rfl

theorem answerMastService_unfitted {a : Nat} {s : State} (h : s.site.mast1Fitted = false) (k : a < 2) :
    answerMastService 1 a s = .refused .noSuchObject := by
  obtain ⟨out, ho⟩ := serviceOut?_of_lt k
  simp [answerMastService, index?, ho, fitted, h]

/-! ## ATTRIB (R150) -/

theorem getLsbD_pileSetOf_from (ps : List (Fin 24)) (acc : PileSet) (p : Fin 24) :
    (ps.foldl (fun acc p => acc ||| (1#24 <<< p.val)) acc).getLsbD p = (acc.getLsbD p || decide (p ∈ ps)) := by
  have bit : ∀ q : Fin 24, (1#24 <<< q.val).getLsbD p = decide (p = q) := by
    revert p
    decide
  induction ps generalizing acc with
  | nil => simp
  | cons q ps ih => rw [List.foldl_cons, ih, BitVec.getLsbD_or, bit, Bool.or_assoc, List.decide_mem_cons, Bool.beq_eq_decide_eq]

theorem getLsbD_pileSetOf (ps : List (Fin 24)) (p : Fin 24) : (pileSetOf ps).getLsbD p = decide (p ∈ ps) := by
  rw [pileSetOf, getLsbD_pileSetOf_from]
  simp

/-- The one set that an ATTRIB names is emptied or added to (R150). -/
theorem getLsbD_attribStep (m x : Fin 8) (n y : Fin 16) (ps : List (Fin 24)) (s : State) (p : Fin 24) :
    (((attribStep m n ps s).bwu.map.get x).get y).getLsbD p =
      if x = m ∧ y = n then !ps.isEmpty && (((s.bwu.map.get x).get y).getLsbD p || decide (p ∈ ps))
      else ((s.bwu.map.get x).get y).getLsbD p := by
  unfold attribStep
  simp only [Table.get_set]
  by_cases hx : x = m
  · subst hx
    simp only [if_true, Table.get_set, true_and]
    by_cases hy : y = n
    · subst hy
      simp only [if_true]
      cases ps with
      | nil => simp
      | cons q ps =>
        rw [← getLsbD_pileSetOf, ← BitVec.getLsbD_or]
        rfl
    · simp only [if_neg hy]
  · simp [hx]

theorem answerAttrib_accepted (m : Fin 8) (n : Fin 16) (ps : List (Fin 24)) (s : State) (h : ps.length ≤ 12) :
    answerAttrib m n ps.length (ps.map Fin.val) s =
      .accepted (attribStep m n ps (s.setPass false)) (attribBody m n (attribStep m n ps (s.setPass false))) := by
  have pass : inEvent (attribStep m n ps) s = attribStep m n ps (s.setPass false) := inEvent_of_quietPass rfl
  simp only [answerAttrib, List.length_map, ne_eq, not_true_eq_false, if_false, index?_val, piles?_vals,
    Nat.not_lt.2 h, accept, pass]

theorem answerAttrib_outOfRange {m n : Nat} {ps : List Nat} (s : State)
    (h : 8 ≤ m ∨ 16 ≤ n ∨ 12 < ps.length ∨ ∃ p ∈ ps, 24 ≤ p) :
    answerAttrib m n ps.length ps s = .refused .outOfRange := by
  simp only [answerAttrib, ne_eq, not_true_eq_false, if_false]
  rcases h with h | h | h | h
  · rw [index?_of_le h]
  · rw [index?_of_le h]
    cases index? 8 m <;> rfl
  · simp only [h, if_true]
    split <;> rfl
  · rw [piles?_of_large h]
    cases index? 8 m <;> cases index? 16 n <;> rfl

/-- Settles O49: both requests write one object, or are refused in the order of their ranges. -/
theorem mastServiceAndAttribActOnOneObject : Obligations.MastServiceAndAttribActOnOneObject := by
  refine ⟨fun tag m s h k => ?_, fun tag m s h k => ?_, fun tag m a s h k => ?_, fun tag a s h k l => ?_,
    fun tag m n ps s h k => ?_, fun tag m n ps s h k => ?_, fun tag m n k ps s h l => ?_⟩
  · have frame := serviceMast_frame (out := true) k rfl
    rw [Bool.or_true] at frame
    have answer := exec_mastService (tag := tag) (a := 0) h k rfl
    rw [flagByte_true] at answer
    exact ⟨_, answer, frame⟩
  · have frame := serviceMast_frame (out := false) k rfl
    rw [Bool.or_false] at frame
    have answer := exec_mastService (tag := tag) (a := 1) h k rfl
    rw [flagByte_false] at answer
    exact ⟨_, answer, frame⟩
  · exact exec_mastService_refused h (answerMastService_outOfRange k s)
  · exact exec_mastService_refused h (answerMastService_unfitted k l)
  · exact ⟨_, congrArg _ (takeRequest_accepted h (answerAttrib_accepted m n ps s k)),
      fun x y p => getLsbD_attribStep m x n y ps _ p, rfl⟩
  · exact congrArg _ (takeRequest_refused h (answerAttrib_outOfRange s k))
  · exact congrArg _ (takeRequest_refused h (if_pos l))

end Sys2Proof.Machine
end

