-- ==== Sys2Proof/Proofs/LineEvents.lean ====
section
/-! SUPPORT. The events of the line that are intervals, and the power-on reset (R163, R166, R167, R170). -/

namespace Sys2Proof.Machine

theorem gapStep_of_running {s : State} (h : s.lc.gap ≠ none) : gapStep s = dropFrame s := if_neg h

theorem replyStartStep_of_waiting {r : Reply} {s : State} (h : s.lc.reply = some r) (k : r.sending = false) :
    replyStartStep s = s.setLc { s.lc with
      reply := some { r with sending := true, left := sendingTicks s.lc.rate r.frame.length } } := by
  simp [replyStartStep, h, k]

theorem replySentStep_of_plain {r : Reply} {s : State} (h : s.lc.reply = some r) (k : r.restart = false) :
    replySentStep s = lineFree s := by
  simp [replySentStep, h, k, lineFree]

/-- The pins after a power-on reset: each at the outside's level, no filter with a level of its own (R18). -/
theorem restart_pins (p : Pins) (a b : Bool) :
    (∀ m, (p.restart a b).pulse.get m = .initial (p.pulse.get m).pin) ∧
      (∀ m i, ((p.restart a b).vane.get m).get i = .initial ((p.vane.get m).get i).pin) ∧
      (p.restart a b).rain = .initial p.rain.pin ∧
      (∀ c, (p.restart a b).feedback.get c = .initial (p.feedback.get c).pin) ∧
      (p.restart a b).stop = .initial p.stop.pin := by
  refine ⟨fun m => Table.get_map _ _ _, fun m i => ?_, rfl, fun c => Table.get_map _ _ _, rfl⟩
  rw [Pins.restart, Table.get_map, Table.get_map]
  rfl

theorem rateOf_bitsPerSecond (a b : Bool) : (rateOf a b).bitsPerSecond =
    if a then (if b then 115200 else 57600) else if b then 38400 else 19200 := by
  cases a <;> cases b <;> rfl

/-- Settles O42: each of the four events written out. -/
theorem lineIntervalsAndPowerOn : Obligations.LineIntervalsAndPowerOn := by
  refine ⟨fun s h => congrArg _ (gapStep_of_running h), fun r s h k => ?_, fun r s h k => ?_, fun a b s => ?_⟩
  · exact ⟨_, congrArg Host.Outcome.next (replyStartStep_of_waiting h k), rfl, rfl⟩
  · exact ⟨_, congrArg Host.Outcome.next (replySentStep_of_plain h k), rfl, rfl⟩
  · obtain ⟨pulse, vane, rain, feedback, stop⟩ := restart_pins s.pins a b
    refine ⟨powerOn a b s, rfl, rfl, rateOf_bitsPerSecond a b, fun c => ?_, rfl, fun m => ?_, pulse, vane, rain,
      feedback, stop, rfl, rfl⟩
    · change ((s.pins.restart a b).feedback.get c).level.getD false = false
      rw [feedback]
      rfl
    · change ((s.pins.restart a b).pulse.get m).level = none
      rw [pulse]
      rfl

end Sys2Proof.Machine
end

