-- ==== Sys2Proof/Proofs/Reset.lean ====
section
/-! SUPPORT. The state after the power-on reset, record by record (R163), and that it meets every invariant. -/

namespace Sys2Proof.Machine

/-! ## Its records -/

@[simp] theorem reset_mast (m : Fin 2) : State.reset.mast m = .reset := Table.get_fill _ _
@[simp] theorem reset_pile (p : Fin 24) : State.reset.pile p = .reset := Table.get_fill _ _
@[simp] theorem reset_pond (p : Fin 4) : State.reset.pond p = .reset p := Table.get_make _ _
@[simp] theorem reset_cannon (c : Fin 32) : State.reset.cannon c = .reset := Table.get_fill _ _
@[simp] theorem reset_machine (m : Fin 4) : State.reset.machine m = .reset := Table.get_fill _ _
@[simp] theorem reset_run (c : Fin 32) : State.reset.run c = none := Table.get_fill _ _
@[simp] theorem reset_demand (p : Fin 24) : State.reset.demand p = ⟨0, 3⟩ := Table.get_fill _ _
@[simp] theorem reset_monitor (m : Fin 8) : State.reset.monitor m = .reset := Table.get_fill _ _

@[simp] theorem reset_order (k : Nat) : State.reset.order k = none := by
  simp only [State.order, State.reset, Sd.reset, List.getElem?_replicate]
  split <;> rfl

@[simp] theorem reset_episode (k : Nat) : State.reset.episode k = none := by
  simp only [State.episode, State.reset, Bwu.reset, List.getElem?_replicate]
  split <;> rfl

@[simp] theorem reset_feedbackOpen (c : Fin 32) : feedbackOpen State.reset c = false := by
  unfold feedbackOpen
  change ((Table.fill 32 (LineFilter.initial false)).get c).level.getD false = false
  rw [Table.get_fill]
  rfl

@[simp] theorem reset_queuedMovement (c : Fin 32) : queuedMovement State.reset c = none := rfl

/-- No source can be drawn from, and there is no usable water (R85). -/
theorem reset_noUsableSource : noUsableSource State.reset = true := by decide

theorem reset_usableWater : usableWater State.reset = 0 := by decide

/-- The three latched entries (R163). -/
theorem reset_alert (e : AlertId) : State.reset.mau.alerts.get e =
    if e = .windDegraded ∨ e = .timeInvalid ∨ e = .waterShort then ⟨true, true, none⟩
    else ⟨false, false, none⟩ := by
  cases e
  case mastSuspect m => exact Table.get_fill _ _
  case valve c => exact Table.get_fill _ _
  case monitorStale m => exact Table.get_fill _ _
  case machineStale m => exact Table.get_fill _ _
  all_goals rfl

/-- Settles O3: the tables of the chapters, record by record. -/
theorem resetStateHoldsTheStatedValues : Obligations.ResetStateHoldsTheStatedValues := by
  refine ⟨⟨rfl, rfl, fun n => Table.get_fill _ _, rfl, rfl, rfl, reset_mast, fun m => ?_, rfl⟩, rfl, rfl,
    ⟨rfl, reset_pile⟩, ⟨reset_pond, rfl, rfl, reset_usableWater, ?_, reset_noUsableSource, fun src _ => rfl, rfl, rfl⟩,
    ⟨reset_cannon, reset_feedbackOpen, rfl, rfl, reset_machine⟩, ⟨reset_run, rfl, reset_demand, rfl, rfl⟩,
    ⟨reset_monitor, rfl, fun m n => ?_, rfl, rfl⟩, ⟨rfl, rfl, rfl, rfl, fun e _ => reset_alert e⟩,
    rfl, rfl, rfl, rfl, rfl, rfl, rfl⟩
  · change ((Table.fill 2 (LineFilter.initial true)).get m).level = none
    rw [Table.get_fill]
    rfl
  · unfold waterState
    rw [reset_usableWater]
    rfl
  · change ((Table.fill 8 (Table.fill 16 (0 : PileSet))).get m).get n = 0
    rw [Table.get_fill, Table.get_fill]

/-! ## Its invariants -/

theorem reset_valvesSound : ValvesSound State.reset := by
  refine ⟨fun c => ?_, fun c _ => ?_, fun c h => ?_, List.nodup_nil, fun _ => rfl⟩
  · simp [ValveSound, Cannon.reset]
  · rw [reset_cannon]; rfl
  · rw [reset_cannon] at h; cases h

theorem reset_runsSound : RunsSound State.reset := by
  intro c
  simp [RunSound, Cannon.reset]

theorem reset_headerSound : HeaderSound State.reset := by
  refine .inr fun c h => ?_
  rw [reset_cannon] at h
  cases h

theorem reset_orderNoticesSound : OrderNoticesSound State.reset := by
  refine ⟨fun k _ => ?_, fun n hn k hk => ?_, by decide⟩
  · have closed : closedOrder State.reset k = false := by simp [closedOrder]
    rw [closed]
    simp [State.reset, Lc.reset]
  · simp [State.reset, Lc.reset, hk] at hn

theorem reset_heldByOrder (p : Fin 24) : heldByOrder State.reset p = false := by
  simp [heldByOrder, State.reset, Sd.reset]

theorem reset_escalatedSet : escalatedSet State.reset = 0 := by decide

theorem reset_episodesSound : EpisodesSound State.reset := by
  refine ⟨fun m k _ => ?_, fun m k h => ?_, fun m _ => ?_, fun m _ => ?_, rfl, by decide⟩
  · simp [openAt, Monitor.reset]
  · rw [reset_monitor] at h; cases h
  · rw [reset_monitor]; rfl
  · rw [reset_monitor]; rfl

theorem reset_modeSound : StopObeyed State.reset ∧ ModeSound State.reset ∧ OrdersObeyMode State.reset := by
  refine ⟨fun h => (nomatch h), fun c => ?_, fun _ k o h => ?_⟩
  · rw [reset_cannon]; decide
  · rw [reset_order] at h; cases h

theorem reset_levelsSound : LevelsSound State.reset := by
  refine ⟨fun p => ?_, fun p => ?_⟩
  · rw [reset_pile]; decide
  · rw [reset_pond]; exact Nat.zero_le _

/-- Settles O4: each invariant of the record it speaks of. -/
theorem resetStateIsSound : Obligations.ResetStateIsSound :=
  ⟨by decide, ⟨List.Pairwise.nil, by decide, fun f h => (nomatch h)⟩, ⟨sumsSound_reset.length, sumsSound_reset.sums⟩,
    reset_valvesSound, reset_runsSound, reset_headerSound, ⟨rfl, rfl⟩, reset_orderNoticesSound,
    fun p => by rw [reset_pile, reset_heldByOrder]; rfl,
    fun p => by rw [reset_pile, reset_escalatedSet]; simp [Pile.reset],
    reset_episodesSound, reset_modeSound, ⟨rfl, rfl⟩, reset_levelsSound, fun e _ => inStep_reset e⟩

end Sys2Proof.Machine
end

