-- ==== Sys2Proof/Proofs/Rain.lean ====
section
/-! SUPPORT. Pulse edges, and what an accepted tip does to the piles and the ponds (R1, R16, R17, R64, R65). -/

namespace Sys2Proof.Machine

/-! ## One record after another -/

/-- An operation that writes its own pile alone, done to every pile, writes each once. -/
theorem forPiles_pile (g : Fin 24 → State → State) (f : Pile → Pile)
    (h : ∀ p t q, (g p t).pile q = if q = p then f (t.pile p) else t.pile q) (s : State) (q : Fin 24) :
    (forPiles g s).pile q = f (s.pile q) := by
  have fold : ∀ (l : List (Fin 24)) (t : State), l.Nodup →
      (l.foldl (fun t p => g p t) t).pile q = if q ∈ l then f (t.pile q) else t.pile q := by
    intro l
    induction l with
    | nil => exact fun t _ => rfl
    | cons p l ih =>
      intro t hl
      obtain ⟨hp, hl⟩ := List.nodup_cons.1 hl
      rw [List.foldl_cons, ih _ hl, h]
      by_cases hq : q = p
      · subst hq
        simp [hp]
      · simp [hq]
  exact (fold _ s (List.nodup_finRange 24)).trans (if_pos (List.mem_finRange q))

theorem forPiles_wiu (g : Fin 24 → State → State) (h : ∀ p t, (g p t).wiu = t.wiu) (s : State) :
    (forPiles g s).wiu = s.wiu := by
  unfold forPiles
  generalize List.finRange 24 = l
  induction l generalizing s with
  | nil => rfl
  | cons p l ih => rw [List.foldl_cons, ih, h]

/-! ## What follows the water touches no water -/

theorem within_reportUsable (before s : State) : Within s (reportUsable before s) := by
  unfold reportUsable
  split
  · exact within_markPass s
  · exact .refl s

theorem within_waterEvent (f : State → State) (s : State) : Within (f s) (waterEvent f s) :=
  (within_syncAlerts _ _).trans (within_reportUsable s _)

theorem reportUsable_pile (before s : State) (p : Fin 24) : (reportUsable before s).pile p = s.pile p := by
  unfold reportUsable
  split <;> rfl

theorem waterEvent_pile (f : State → State) (s : State) (p : Fin 24) : (waterEvent f s).pile p = (f s).pile p := by
  unfold waterEvent
  rw [reportUsable_pile, syncAlerts_cons, syncAlerts_cons, syncAlerts_nil, syncAlert_pile, syncAlert_pile]

theorem pond_of_ponds {s t : State} (h : t.wiu.ponds = s.wiu.ponds) (p : Fin 4) : t.pond p = s.pond p := by
  rw [State.pond, h]
  rfl

@[simp] theorem waterEvent_pond (f : State → State) (s : State) (p : Fin 4) :
    (waterEvent f s).pond p = (f s).pond p := pond_of_ponds (within_waterEvent f s).ponds p

@[simp] theorem waterEvent_today (f : State → State) (s : State) : (waterEvent f s).wiu.today = (f s).wiu.today :=
  (within_waterEvent f s).today

/-! ## Rain on a pond -/

/-- The rain of a tip on the pond, in dL (R17). -/
def Pond.rainVolume (d : Pond) (depth : Nat) : Nat := depth * d.config.catchment / 100

/-- The pond takes rain: it is configured and has a catchment (R17, R64). -/
def Pond.takesRain (d : Pond) : Bool := d.configured && decide (0 < d.config.catchment)

/-- The pond after a tip (R64, R65). -/
def Pond.rained (d : Pond) (depth : Nat) : Pond :=
  if d.takesRain then (d.fill (d.rainVolume depth)).stir .rain (d.rainVolume depth) else d

/-- The pond's figures of the day after a tip (R64). -/
def Pond.rainedDay (d : Pond) (depth : Nat) (r : PondDay) : PondDay :=
  if d.takesRain then { r with
    spill := Config.count48 (r.spill + (d.volume + d.rainVolume depth - d.config.capacity))
    rain := Config.count48 (r.rain + d.rainVolume depth) }
  else r

section
variable (n : Nat) (p q : Fin 4) (s : State)

theorem rainOnPond_of_takes (h : (s.pond p).takesRain = true) :
    rainOnPond n p s = inflow .rain p ((s.pond p).rainVolume n) s := by
  simp only [Pond.takesRain, Bool.and_eq_true, decide_eq_true_eq] at h
  exact if_pos h.2

theorem rainOnPond_of_not (h : (s.pond p).takesRain = false) : rainOnPond n p s = s := by
  simp only [Pond.takesRain, Bool.and_eq_false_iff, decide_eq_false_iff_not] at h
  unfold rainOnPond inflow
  simp only
  rcases h with h | h
  · rw [h]
    simp
  · rw [if_neg h]

theorem configured_of_takesRain {d : Pond} (h : d.takesRain = true) : d.configured = true := by
  simp only [Pond.takesRain, Bool.and_eq_true] at h
  exact h.1

theorem rainOnPond_pond : (rainOnPond n p s).pond q = if q = p then (s.pond p).rained n else s.pond q := by
  unfold Pond.rained
  cases h : (s.pond p).takesRain with
  | true =>
    rw [rainOnPond_of_takes n p s h]
    simp only [inflow, configured_of_takesRain h, if_true, waterEvent_pond]
    exact setPond_pond _ _ _ _
  | false =>
    rw [rainOnPond_of_not n p s h]
    by_cases hq : q = p <;> simp [hq]

theorem rainOnPond_day : (rainOnPond n p s).wiu.today.ponds.get q =
    if q = p then (s.pond p).rainedDay n (s.wiu.today.ponds.get p) else s.wiu.today.ponds.get q := by
  unfold Pond.rainedDay
  cases h : (s.pond p).takesRain with
  | true =>
    rw [rainOnPond_of_takes n p s h]
    simp only [inflow, configured_of_takesRain h, if_true, waterEvent_today]
    exact Table.get_modify _ _ _ _
  | false =>
    rw [rainOnPond_of_not n p s h]
    by_cases hq : q = p <;> simp [hq]

theorem rainOnPond_pile (i : Fin 24) : (rainOnPond n p s).pile i = s.pile i := by
  cases h : (s.pond p).takesRain with
  | true =>
    rw [rainOnPond_of_takes n p s h]
    simp only [inflow, configured_of_takesRain h, if_true, waterEvent_pile]
    rfl
  | false => rw [rainOnPond_of_not n p s h]

/-- The tip reaches each pond of the list once. -/
theorem foldl_rainOnPond (l : List (Fin 4)) (h : l.Nodup) :
    ((l.foldl (fun t p => rainOnPond n p t) s).pond q = if q ∈ l then (s.pond q).rained n else s.pond q) ∧
      (l.foldl (fun t p => rainOnPond n p t) s).wiu.today.ponds.get q =
        if q ∈ l then (s.pond q).rainedDay n (s.wiu.today.ponds.get q) else s.wiu.today.ponds.get q := by
  induction l generalizing s with
  | nil => exact ⟨rfl, rfl⟩
  | cons p l ih =>
    obtain ⟨hp, hl⟩ := List.nodup_cons.1 h
    obtain ⟨pond, day⟩ := ih (rainOnPond n p s) hl
    rw [List.foldl_cons, pond, day, rainOnPond_pond, rainOnPond_day]
    by_cases hq : q = p
    · subst hq
      simp [hp]
    · simp [hq]

theorem foldl_rainOnPond_pile (l : List (Fin 4)) (i : Fin 24) :
    (l.foldl (fun t p => rainOnPond n p t) s).pile i = s.pile i := by
  induction l generalizing s with
  | nil => rfl
  | cons p l ih => rw [List.foldl_cons, ih, rainOnPond_pile]

end

/-! ## The whole tip -/

/-- A pile after a tip (R17, R41). -/
def Pile.wetted (d : Pile) (depth : Nat) : Pile :=
  { d with pendingRain := d.pendingRain + if d.configured then depth else 0 }

theorem wetPile_pile (n : Nat) (p : Fin 24) (t : State) (q : Fin 24) :
    (wetPile n p t).pile q = if q = p then (t.pile p).wetted n else t.pile q := by
  unfold wetPile Pile.wetted
  by_cases h : (t.pile p).configured = true
  · simp only [h, if_true, setPile_pile]
  · simp only [Bool.not_eq_true] at h
    simp only [h, Bool.false_eq_true, if_false, Nat.add_zero]
    split
    · rename_i hq
      rw [hq, ← h]
    · rfl

theorem wetPile_wiu (n : Nat) (p : Fin 24) (t : State) : (wetPile n p t).wiu = t.wiu := by
  unfold wetPile
  simp only
  split <;> rfl

theorem shareRain_pile (n : Nat) (s : State) (p : Fin 24) : (shareRain n s).pile p = (s.pile p).wetted n := by
  unfold shareRain
  rw [foldl_rainOnPond_pile, forPiles_pile _ (Pile.wetted · n) (wetPile_pile n)]

theorem shareRain_pond (n : Nat) (s : State) (q : Fin 4) : (shareRain n s).pond q = (s.pond q).rained n := by
  have dry := forPiles_wiu (wetPile n) (wetPile_wiu n) s
  unfold shareRain
  rw [(foldl_rainOnPond n q _ _ (List.nodup_finRange 4)).1, if_pos (List.mem_finRange q),
    pond_of_ponds (s := s) (by rw [dry])]

theorem shareRain_day (n : Nat) (s : State) (q : Fin 4) :
    (shareRain n s).wiu.today.ponds.get q = (s.pond q).rainedDay n (s.wiu.today.ponds.get q) := by
  have dry := forPiles_wiu (wetPile n) (wetPile_wiu n) s
  unfold shareRain
  rw [(foldl_rainOnPond n q _ _ (List.nodup_finRange 4)).2, if_pos (List.mem_finRange q),
    pond_of_ponds (s := s) (by rw [dry]), dry]

theorem Pond.rained_volume {d : Pond} (n : Nat) (h : d.takesRain = true) :
    (d.rained n).volume = min (d.volume + d.rainVolume n) d.config.capacity := by
  unfold Pond.rained Pond.stir
  rw [if_pos h]
  simp only
  repeat' split
  all_goals rfl

/-- Rain unsettles a pond that makes the test (R65). -/
theorem Pond.rained_settle {d : Pond} (n : Nat) (h : d.takesRain = true) (k : 0 < d.config.settleTime) :
    (d.rained n).settled = false ∧ (d.rained n).settleCountdown = some (Config.seconds d.config.settleTime) := by
  have stirs : (d.fill (d.rainVolume n)).config.settleTime ≠ 0 := Nat.ne_of_gt k
  unfold Pond.rained Pond.stir
  simp only [h, if_true, stirs, if_false, decide_true, Bool.or_true, Bool.true_or, true_and]
  rfl

/-- An accepted tip (R16). -/
theorem rainEdge_accepted {s : State} (h : s.site.gaugeFitted = true) (k : s.wfe.bounce = none) :
    rainEdge s = shareRain s.site.tipDepth
      ((setRainLow s).setWfe { s.wfe with bounce := some Config.bounceTicks }) := by
  simp only [rainEdge, h, k, Option.isNone_none, Bool.and_self, if_true]
  rfl

/-- A tip that is not accepted takes the filtered level alone (R16). -/
theorem rainEdge_refused {s : State} (h : s.site.gaugeFitted = false ∨ s.wfe.bounce ≠ none) :
    rainEdge s = setRainLow s := by
  refine if_neg fun k => ?_
  simp only [Bool.and_eq_true, Option.isNone_iff_eq_none] at k
  rcases h with h | h
  · rw [h] at k; cases k.1
  · exact h k.2

/-- Settles O24: an edge counts, a tip is shared out, and the bounce interval alone ends with it. -/
theorem pulseAndRainEdgesAreCounted : Obligations.PulseAndRainEdgesAreCounted := by
  refine ⟨fun m s => rfl, fun s => rfl, fun s h k => ⟨inEvent rainEdge s, rfl, ?_⟩, fun s h => ?_⟩
  · have pass := inEvent_within s rainEdge
    rw [rainEdge_accepted (s := s.setPass false) h k] at pass
    generalize hr : (setRainLow (s.setPass false)).setWfe
      { (s.setPass false).wfe with bounce := some Config.bounceTicks } = r at pass
    have pond : ∀ q, (inEvent rainEdge s).pond q = (s.pond q).rained s.site.tipDepth := fun q => by
      rw [pond_of_ponds pass.ponds, shareRain_pond, ← hr]; rfl
    have day : ∀ q, (inEvent rainEdge s).wiu.today.ponds.get q =
        (s.pond q).rainedDay s.site.tipDepth (s.wiu.today.ponds.get q) := fun q => by
      rw [pass.today, shareRain_day, ← hr]; rfl
    have quiet := (quiet_shareRain r s.site.tipDepth).trans pass.quiet
    refine ⟨?_, fun p => ?_, fun q hc hx => ?_, fun q hx => ?_, ?_, ?_, ?_, ?_, ?_⟩
    · rw [quiet.wfe, ← hr]; rfl
    · rw [pass.pile p, shareRain_pile, ← hr]; rfl
    · have takes : (s.pond q).takesRain = true := by simp [Pond.takesRain, hc, hx]
      rw [pond, day, Pond.rainedDay, if_pos takes]
      exact ⟨Pond.rained_volume _ takes, rfl, rfl, Pond.rained_settle _ takes⟩
    · have dry : (s.pond q).takesRain = false := by
        rcases hx with hx | hx <;> simp [Pond.takesRain, hx]
      rw [pond, day, Pond.rained, Pond.rainedDay, dry]
      exact ⟨rfl, rfl⟩
    · rw [quiet.yc, ← hr]; rfl
    · rw [quiet.ft, ← hr]; rfl
    · rw [quiet.bwu, ← hr]; rfl
    · rw [quiet.site, ← hr]; rfl
    · rw [quiet.mau, ← hr]; rfl
  · have edge : rainEdge (s.setPass false) = setRainLow (s.setPass false) := rainEdge_refused h
    refine congrArg Host.Outcome.next ((inEvent_of_quietPass ?_).trans edge)
    rw [edge]
    rfl

end Sys2Proof.Machine
end

