-- ==== Sys2Proof/Proofs/Crystal.lean ====
section
/-! SUPPORT. The part's own crystal: what a tick does, which events are due, and which of them an empty queue
takes (R1, R16, R20, R42, R94, R115, R117, R157, R170). -/

namespace Sys2Proof.Machine

/-! ## A tick -/

theorem filterTicked_tick (e : LineFilter → Bool) (time : Nat) (f : LineFilter) :
    FilterTicked (e f) time f (f.tick e time) := by
  refine ⟨f.tick_pin e time, f.tick_last e time, ?_⟩
  unfold LineFilter.tick LineFilter.heldNow
  by_cases taken : f.level = some f.pin
  · simp only [if_pos taken, and_self]
  · simp only [if_neg taken, Bool.or_eq_true, decide_eq_true_eq]
    by_cases waits : e f = true ∨ (if f.last = f.pin then f.held + 1 else 1) < time
    · simp only [if_pos waits, and_self]
    · simp only [if_neg waits]
      exact ⟨rfl, rfl⟩

theorem changes_eq (f : LineFilter) : f.changes = (f.level.getD false != f.pin) := by
  unfold LineFilter.changes
  cases f.level.getD false <;> cases f.pin <;> rfl

theorem filterTicked_changes (time : Nat) (f : LineFilter) :
    FilterTicked (f.level.getD false != f.pin) time f (f.tick LineFilter.changes time) := by
  rw [← changes_eq]
  exact filterTicked_tick _ _ _

theorem tick_run (c : Fin 32) (s : State) : (tick s).run c = (s.run c).map Run.tick := Table.get_map _ _ _

/-- A tick is the tick of every filter and of every countdown that runs. -/
theorem ticked_tick (s : State) : Ticked s (tick s) := by
  refine ⟨fun m => ?_, fun m i => ?_, filterTicked_tick LineFilter.falls 50 s.pins.rain, fun c => ?_,
    filterTicked_changes 100 s.pins.stop, fun c => tick_cannon c s, fun m => tick_machine m s, fun c => ?_, rfl,
    fun p => tick_pond p s, fun m => tick_monitor m s, rfl⟩
  · have h : (tick s).pins.pulse.get m = (s.pins.pulse.get m).tick LineFilter.falls Config.mastFilter :=
      Table.get_map _ _ _
    rw [h]
    exact filterTicked_tick LineFilter.falls 1 _
  · have h : ((tick s).pins.vane.get m).get i =
        ((s.pins.vane.get m).get i).tick LineFilter.silent Config.mastFilter := by
      change ((s.pins.vane.map fun lines : Table 4 LineFilter =>
        lines.map (·.tick LineFilter.silent Config.mastFilter)).get m).get i = _
      rw [Table.get_map, Table.get_map]
    rw [h]
    exact filterTicked_tick LineFilter.silent 1 _
  · have h : (tick s).pins.feedback.get c = (s.pins.feedback.get c).tick LineFilter.changes Config.valveFilter :=
      Table.get_map _ _ _
    rw [h]
    exact filterTicked_changes 100 _
  · rw [tick_run]
    refine congrArg (Option.map · (s.run c)) (funext fun r => ?_)
    unfold Run.tick RunPhase.tick
    cases r.phase <;> rfl

/-! ## What is due -/

theorem mem_dueIf {b : Bool} {i j : Instr} : i ∈ dueIf b j ↔ b = true ∧ i = j := by
  unfold dueIf
  cases b <;> simp

theorem mem_dueIf_self {b : Bool} {i : Instr} (h : b = true) : i ∈ dueIf b i := mem_dueIf.2 ⟨h, rfl⟩

theorem falls_iff (f : LineFilter) : f.falls = true ↔ f.level = some true ∧ f.pin = false := by
  simp [LineFilter.falls]

theorem changes_iff (f : LineFilter) : f.changes = true ↔ f.level.getD false ≠ f.pin := decide_eq_true_iff

/-- A filter's event is due when the pin has held the new level for the filter's time. -/
theorem due_iff (e : LineFilter → Bool) (time : Nat) (f : LineFilter) :
    f.due e time = true ↔ e f = true ∧ HeldFor time f := by
  simp only [LineFilter.due, Bool.and_eq_true, decide_eq_true_eq, HeldFor]
  tauto

section
variable {s : State} {i : Instr}

theorem due_of_mem_duePump (h : i ∈ duePump s) : Due s i := by
  unfold duePump at h
  split at h
  · rename_i hi
    split at h
    case h_1 | h_2 | h_3 =>
      rename_i hp
      rw [List.mem_singleton] at h
      subst h
      exact ⟨hp, hi⟩
    all_goals cases h
  · cases h

theorem due_of_mem_dueRun {c : Fin 32} (h : i ∈ dueRun s c) : Due s i := by
  unfold dueRun at h
  split at h
  · cases h
  · rename_i r hr
    split at h
    case h_1 | h_2 =>
      rename_i hp
      rw [List.mem_singleton] at h
      subst h
      exact ⟨r, hr, by rw [hp]⟩
    · cases h

theorem mem_dueRun_delivery {c : Fin 32} (h : Due s (.deliverySecond c)) : .deliverySecond c ∈ dueRun s c := by
  obtain ⟨r, hr, hp⟩ := h
  unfold dueRun
  rw [Option.mem_def.1 hr]
  simp only
  cases k : r.phase with
  | active d n =>
    rw [k] at hp
    subst hp
    exact List.mem_singleton_self _
  | suspended x n t =>
    rw [k] at hp
    exact hp.elim

theorem mem_dueRun_resume {c : Fin 32} (h : Due s (.resumeExpiry c)) : .resumeExpiry c ∈ dueRun s c := by
  obtain ⟨r, hr, hp⟩ := h
  unfold dueRun
  rw [Option.mem_def.1 hr]
  simp only
  cases k : r.phase with
  | active d n =>
    rw [k] at hp
    exact hp.elim
  | suspended x n t =>
    rw [k] at hp
    subst hp
    exact List.mem_singleton_self _

theorem due_of_mem_dueOrder {k : Nat} (h : i ∈ dueOrder s k) : Due s i := by
  unfold dueOrder at h
  split at h
  · cases h
  · rename_i o ho
    split at h
    · rename_i hc
      obtain ⟨hc, ht⟩ := hc
      have hc := Option.isNone_iff_eq_none.1 hc
      split at h
      all_goals
        rename_i hk
        rw [List.mem_singleton] at h
        subst h
        exact ⟨o, ho, hk, hc, ht⟩
    · cases h

theorem mem_dueOrder_wet {k : Nat} (h : Due s (.orderExpiry k)) : .orderExpiry k ∈ dueOrder s k := by
  obtain ⟨o, ho, hk, hc, ht⟩ := h
  simp [dueOrder, Option.mem_def.1 ho, hk, hc, ht]

theorem mem_dueOrder_hold {k : Nat} (h : Due s (.holdExpiry k)) : .holdExpiry k ∈ dueOrder s k := by
  obtain ⟨o, ho, hk, hc, ht⟩ := h
  simp [dueOrder, Option.mem_def.1 ho, hk, hc, ht]

theorem order_lt_length {k : Nat} {o : Order} (h : o ∈ s.order k) : k < s.sd.orders.length := by
  by_contra hk
  simp [State.order, List.getElem?_eq_none (Nat.not_lt.1 hk)] at h

theorem due_of_mem_dueReply (h : i ∈ dueReply s) : Due s i := by
  unfold dueReply at h
  split at h
  · cases h
  · rename_i r hr
    split at h
    · rename_i hl
      split at h
      · rename_i hs
        rw [List.mem_singleton] at h
        subst h
        exact ⟨r, hr, hs, hl⟩
      · rename_i hs
        rw [List.mem_singleton] at h
        subst h
        exact ⟨r, hr, Bool.not_eq_true _ ▸ hs, hl⟩
    · cases h

theorem due_of_mem_dueCannon {c : Fin 32} (h : i ∈ dueCannon s c) : Due s i := by
  simp only [dueCannon, List.mem_append, mem_dueIf, decide_eq_true_eq, due_iff, changes_iff] at h
  rcases h with (((h | ⟨h, rfl⟩) | ⟨h, rfl⟩) | ⟨h, rfl⟩) | ⟨⟨h, held⟩, rfl⟩
  · exact due_of_mem_dueRun h
  · exact h
  · exact h
  · simp only [closeUnconfirmed, Bool.and_eq_true, decide_eq_true_eq, Bool.not_eq_true'] at h
    exact .inr ⟨h.1.1, h.1.2, h.2, rfl⟩
  · exact .inl ⟨h, held, rfl⟩

/-- Whatever the list names is due. -/
theorem due_of_mem (h : i ∈ dueEvents s) : Due s i := by
  simp only [dueEvents, List.mem_append, List.mem_flatMap, mem_dueIf, decide_eq_true_eq, due_iff, falls_iff,
    changes_iff, or_assoc] at h
  rcases h with ⟨h, rfl⟩ | ⟨h, rfl⟩ | ⟨h, rfl⟩ | ⟨h, rfl⟩ | h | ⟨p, -, h, rfl⟩ | ⟨c, -, h⟩ | ⟨h, rfl⟩ |
    ⟨m, -, h, rfl⟩ | ⟨k, -, h⟩ | ⟨m, -, h, rfl⟩ | ⟨h, rfl⟩ | h | ⟨m, -, ⟨h, held⟩, rfl⟩ | ⟨⟨h, held⟩, rfl⟩ |
    ⟨⟨h, held⟩, rfl⟩
  · exact ⟨h, rfl, rfl⟩
  · exact h
  · exact h
  · exact h
  · exact due_of_mem_duePump h
  · exact h
  · exact due_of_mem_dueCannon h
  · exact h
  · exact h
  · exact due_of_mem_dueOrder h
  · exact h
  · exact h
  · exact due_of_mem_dueReply h
  · exact ⟨h.1, h.2, held⟩
  · exact ⟨h.1, h.2, held⟩
  · exact ⟨h, held, rfl⟩

theorem mem_dueEvents_of_dueCannon {c : Fin 32} (h : i ∈ dueCannon s c) : i ∈ dueEvents s := by
  have k : i ∈ (List.finRange 32).flatMap (dueCannon s) := List.mem_flatMap.2 ⟨c, List.mem_finRange c, h⟩
  simp only [dueEvents, List.mem_append, k, true_or, or_true]

theorem mem_dueEvents_of_dueOrder {k : Nat} {o : Order} (ho : o ∈ s.order k) (h : i ∈ dueOrder s k) :
    i ∈ dueEvents s := by
  have k : i ∈ (List.range s.sd.orders.length).flatMap (dueOrder s) :=
    List.mem_flatMap.2 ⟨k, List.mem_range.2 (order_lt_length ho), h⟩
  simp only [dueEvents, List.mem_append, k, true_or, or_true]

theorem mem_duePump {x : PumpPhase} (hi : s.wiu.pump.interval = some 0) (hx : s.wiu.pump.phase = x)
    (h : i ∈ (match x with
      | .priming => [Instr.primingExpiry]
      | .rundown => [.rundownExpiry]
      | .changeover => [.changeoverExpiry]
      | .off => []
      | .running => [])) : i ∈ duePump s := by
  unfold duePump
  rw [if_pos hi, hx]
  exact h

theorem mem_dueReply_start (h : Due s .replyStart) : .replyStart ∈ dueReply s := by
  obtain ⟨r, hr, hs, hl⟩ := h
  simp [dueReply, Option.mem_def.1 hr, hs, hl]

theorem mem_dueReply_sent (h : Due s .replySent) : .replySent ∈ dueReply s := by
  obtain ⟨r, hr, hs, hl⟩ := h
  simp [dueReply, Option.mem_def.1 hr, hs, hl]

/-- A filter's event that is due. -/
theorem due_of_held {e : LineFilter → Bool} {time : Nat} {f : LineFilter} (h : e f = true) (k : HeldFor time f) :
    f.due e time = true := (due_iff e time f).2 ⟨h, k⟩

theorem mem_flatMap_dueIf {n : Nat} (test : Fin n → Prop) [DecidablePred test] (event : Fin n → Instr) (x : Fin n)
    (h : test x) : event x ∈ (List.finRange n).flatMap fun y => dueIf (test y) (event y) :=
  List.mem_flatMap.2 ⟨x, List.mem_finRange x, mem_dueIf_self (decide_eq_true h)⟩

/-- Whatever is due is in the list. -/
theorem mem_of_due (h : Due s i) : i ∈ dueEvents s := by
  cases i
  case gateExpiry v w =>
    obtain ⟨h, rfl, rfl⟩ := h
    simp only [dueEvents, List.mem_append, mem_dueIf_self (decide_eq_true h), true_or]
  case bounceExpiry =>
    have k := mem_dueIf_self (i := .bounceExpiry) (decide_eq_true (p := s.wfe.bounce = some 0) h)
    simp only [dueEvents, List.mem_append, k, true_or, or_true]
  case secondEvent =>
    have k := mem_dueIf_self (i := .secondEvent) (decide_eq_true (p := s.yc.second = 0) h)
    simp only [dueEvents, List.mem_append, k, true_or, or_true]
  case assessment =>
    have k := mem_dueIf_self (i := .assessment) (decide_eq_true (p := s.pau.countdown = 0) h)
    simp only [dueEvents, List.mem_append, k, true_or, or_true]
  case slotExpiry =>
    have k := mem_dueIf_self (i := .slotExpiry) (decide_eq_true (p := s.cc.slot = some 0) h)
    simp only [dueEvents, List.mem_append, k, true_or, or_true]
  case gapExpiry =>
    have k := mem_dueIf_self (i := .gapExpiry) (decide_eq_true (p := s.lc.gap = some 0) h)
    simp only [dueEvents, List.mem_append, k, true_or, or_true]
  case primingExpiry | rundownExpiry | changeoverExpiry =>
    have k := mem_duePump h.2 h.1 (List.mem_singleton_self _)
    simp only [dueEvents, List.mem_append, k, true_or, or_true]
  case settleExpiry p =>
    have k := mem_flatMap_dueIf (fun p => (s.pond p).settleCountdown = some 0) .settleExpiry p h
    simp only [dueEvents, List.mem_append, k, true_or, or_true]
  case machineStaleExpiry m =>
    have k := mem_flatMap_dueIf (fun m => (s.machine m).countdown = some 0) .machineStaleExpiry m h
    simp only [dueEvents, List.mem_append, k, true_or, or_true]
  case monitorStaleExpiry m =>
    have k := mem_flatMap_dueIf (fun m => (s.monitor m).countdown = some 0) .monitorStaleExpiry m h
    simp only [dueEvents, List.mem_append, k, true_or, or_true]
  case pulseEdge m =>
    obtain ⟨hl, hp, held⟩ := h
    have k : .pulseEdge m ∈ (List.finRange 2).flatMap fun m =>
        dueIf ((s.pins.pulse.get m).due LineFilter.falls Config.mastFilter) (.pulseEdge m) :=
      List.mem_flatMap.2 ⟨m, List.mem_finRange m, mem_dueIf_self (due_of_held ((falls_iff _).2 ⟨hl, hp⟩) held)⟩
    simp only [dueEvents, List.mem_append, k, true_or, or_true]
  case rainTip =>
    obtain ⟨hl, hp, held⟩ := h
    have k := mem_dueIf_self (i := .rainTip) (due_of_held ((falls_iff _).2 ⟨hl, hp⟩) held)
    simp only [dueEvents, List.mem_append, k, true_or, or_true]
  case stopLineChange b =>
    obtain ⟨hl, held, rfl⟩ := h
    have k := mem_dueIf_self (i := .stopLineChange s.pins.stop.pin) (due_of_held ((changes_iff _).2 hl) held)
    simp only [dueEvents, List.mem_append, k, or_true]
  case deliverySecond c =>
    refine mem_dueEvents_of_dueCannon (c := c) ?_
    simp only [dueCannon, List.mem_append, mem_dueRun_delivery h, true_or]
  case resumeExpiry c =>
    refine mem_dueEvents_of_dueCannon (c := c) ?_
    simp only [dueCannon, List.mem_append, mem_dueRun_resume h, true_or]
  case lostWaterExpiry c =>
    have k := mem_dueIf_self (i := .lostWaterExpiry c) (decide_eq_true (p := (s.cannon c).lostWater = some 0) h)
    refine mem_dueEvents_of_dueCannon (c := c) ?_
    simp only [dueCannon, List.mem_append, k, true_or, or_true]
  case travelExpiry c =>
    have k := mem_dueIf_self (i := .travelExpiry c) (decide_eq_true (p := (s.cannon c).travel = some 0) h)
    refine mem_dueEvents_of_dueCannon (c := c) ?_
    simp only [dueCannon, List.mem_append, k, true_or, or_true]
  case feedbackChange c b =>
    refine mem_dueEvents_of_dueCannon (c := c) ?_
    rcases h with ⟨hl, held, rfl⟩ | ⟨hc, hp, ho, rfl⟩
    · have k := mem_dueIf_self (i := .feedbackChange c (s.pins.feedback.get c).pin)
        (due_of_held ((changes_iff _).2 hl) held)
      simp only [dueCannon, List.mem_append, k, or_true]
    · have waits : closeUnconfirmed s c = true := by simp [closeUnconfirmed, hc, hp, ho]
      simp only [dueCannon, List.mem_append, mem_dueIf_self waits, true_or, or_true]
  case orderExpiry k =>
    obtain ⟨o, ho, -⟩ := id h
    exact mem_dueEvents_of_dueOrder ho (mem_dueOrder_wet h)
  case holdExpiry k =>
    obtain ⟨o, ho, -⟩ := id h
    exact mem_dueEvents_of_dueOrder ho (mem_dueOrder_hold h)
  case replyStart => simp only [dueEvents, List.mem_append, mem_dueReply_start h, true_or, or_true]
  case replySent => simp only [dueEvents, List.mem_append, mem_dueReply_sent h, true_or, or_true]
  all_goals exact h.elim

end

/-! ## What is taken -/

theorem step_of_idle {s : State} (h : s.pending = []) : step s = idle s := by
  unfold step
  rw [h]

/-- Of several events that are due, a free value says which is taken. -/
theorem chooseDue_several {s : State} (h : 2 ≤ (dueEvents s).length) :
    ∃ i ∈ dueEvents s, chooseDue s = some (i, { s with freeCount := s.freeCount + 1 }) := by
  unfold chooseDue
  match hl : dueEvents s, h with
  | i :: j :: rest, _ =>
    have bound : Config.tieBreak s.freeCount % ((j :: rest).length + 1) < (i :: j :: rest).length :=
      Nat.mod_lt _ (Nat.succ_pos _)
    refine ⟨_, ?_, rfl⟩
    rw [List.getD_eq_getElem _ _ bound]
    exact List.getElem_mem bound

/-- Settles O2: the idle step by the number of due events, the tick by its filters and countdowns, and the list
of due events by its parts. -/
theorem idleStepFollowsTheCrystal : Obligations.IdleStepFollowsTheCrystal := by
  refine ⟨fun s hs => ?_, ticked_tick, fun s i => ⟨due_of_mem, mem_of_due⟩⟩
  rw [step_of_idle hs]
  unfold idle
  refine ⟨fun h => ?_, fun i h => ?_, fun h => ?_⟩
  · simp only [chooseDue, h]
  · simp only [chooseDue, h]
  · obtain ⟨i, hi, e⟩ := chooseDue_several h
    exact ⟨i, hi, by rw [e]⟩

end Sys2Proof.Machine
end

