-- ==== Sys2Proof/Proofs/Layouts.lean ====
section
/-! SUPPORT. The fields and shared blocks of replies (R178, R183), and the bodies of the status replies
(R185, R186). -/

namespace Sys2Proof.Machine

/-! ## Fields -/

/-- A field's bytes are its digits to the base 256, least significant first. -/
theorem le_getElem? (k n j : Nat) (h : j < k) : (le k n)[j]? = some (BitVec.ofNat 8 (n / 256 ^ j)) := by
  induction k generalizing n j with
  | zero => exact absurd h (Nat.not_lt_zero j)
  | succ k ih =>
    cases j with
    | zero => simp [le]
    | succ j =>
      rw [le, List.getElem?_cons_succ, ih _ _ (Nat.lt_of_succ_lt_succ h), Nat.div_div_eq_div_mul,
        Nat.pow_succ, Nat.mul_comm]

theorem flagByte_eq (b : Bool) : flagByte b = if b then [1] else [0] := by cases b <;> rfl

theorem secondsLeft_eq (n : Nat) : secondsLeft n = (n + 4999) / 5000 := by
  unfold secondsLeft ceilDiv
  rfl

/-! ## Sets -/

/-- A table's rows are its records in order. -/
theorem Table.rows_eq_map {n : Nat} {α : Type} (t : Table n α) : t.rows = (List.finRange n).map t.get := by
  apply List.ext_getElem
  · simp [t.size]
  · intro i h _
    simp [Table.get_eq_getElem]

theorem bitSet_succ {n : Nat} (test : Fin (n + 1) → Bool) :
    bitSet test = (if test 0 then 1 else 0) + 2 * bitSet fun i : Fin n => test i.succ := by
  unfold bitSet
  rw [List.finRange_succ, List.map_cons, List.sum_cons, List.map_map, ← List.sum_map_mul_left]
  congr 2
  refine List.map_congr_left fun i _ => ?_
  simp only [Function.comp, Fin.val_succ, Nat.pow_succ]
  split
  · exact Nat.mul_comm _ _
  · rfl

/-- The bits of a set are its members (R178). -/
theorem bitSet_testBit {n : Nat} (test : Fin n → Bool) (i : Nat) :
    (bitSet test).testBit i = true ↔ ∃ h : i < n, test ⟨i, h⟩ = true := by
  induction n generalizing i with
  | zero => simp [bitSet]
  | succ n ih =>
    rw [bitSet_succ]
    cases i with
    | zero => cases h : test 0 <;> simp [h, Nat.testBit_zero, Nat.add_mod]
    | succ i =>
      have half : ((if test 0 then 1 else 0) + 2 * bitSet fun i : Fin n => test i.succ) / 2 =
          bitSet fun i : Fin n => test i.succ := by
        split <;> omega
      rw [Nat.testBit_succ, half, ih]
      simp [Fin.succ]

theorem Qualifiers.code_eq (q : Qualifiers) : q.code = bitSet fun i : Fin 8 =>
    [q.windForecast, q.windDesign, q.noForecast, q.forecastGap, q.speedSaturated, q.reqClamped, q.escalated,
      q.uncovered].getD i false := by
  simp [Qualifiers.code, bitSet, List.finRange_succ, Nat.add_assoc]

end Sys2Proof.Machine
end

