-- ==== Sys2Proof/Proofs/Status.lean ====
section
/-! SUPPORT. The status requests: what each body is of the state found, and the refusals (R15, R58, R84, R109,
R134, R149, R183 to R186). -/

namespace Sys2Proof.Machine

section
variable {tag : Nat} {s : State} (h : s.lc.reply = none)
include h

/-- A request that reports goes out over the state found. -/
theorem takeRequest_report {kind : Nat} {ask : State → Answer} {body : List Byte} (hk : restartFollows kind = false)
    (ha : ask s = report body s) :
    takeRequest kind tag ask s = startReply (acceptance kind tag body) false s := by
  rw [takeRequest_accepted h ha, hk]

theorem exec_waterStatus : exec (.waterStatus tag) s =
    .next (startReply (acceptance 0x33 tag (waterStatusBody s)) false s) :=
  congrArg Host.Outcome.next (takeRequest_report h rfl rfl)

theorem exec_windStatus : exec (.windStatus tag) s =
    .next (startReply (acceptance 0x34 tag (windStatusBody s)) false s) :=
  congrArg Host.Outcome.next (takeRequest_report h rfl rfl)

theorem exec_dayTotals : exec (.dayTotals tag) s =
    .next (startReply (acceptance 0x36 tag (dayTotalsBody s)) false s) :=
  congrArg Host.Outcome.next (takeRequest_report h rfl rfl)

theorem exec_pileStatus {p : Fin 24} (k : (s.pile p).configured = true) : exec (.pileStatus tag p) s =
    .next (startReply (acceptance 0x31 tag (pileStatusBody s p)) false s) :=
  congrArg Host.Outcome.next (takeRequest_report h rfl (by simp [answerPileStatus, index?_val, k]))

theorem exec_cannonStatus {c : Fin 32} (k : (s.cannon c).configured = true) : exec (.cannonStatus tag c) s =
    .next (startReply (acceptance 0x32 tag (cannonStatusBody s c)) false s) :=
  congrArg Host.Outcome.next (takeRequest_report h rfl (by simp [answerCannonStatus, index?_val, k]))

theorem exec_episodeRead {k : Nat} (l : k < s.bwu.episodes.length) : exec (.episodeRead tag k) s =
    .next (startReply (acceptance 0x35 tag (episodeReadBody s k)) false s) :=
  congrArg Host.Outcome.next (takeRequest_report h rfl (if_neg (Nat.not_le.2 l)))

theorem exec_orderStatus {k : Nat} (l : k < s.sd.orders.length) : exec (.orderStatus tag k) s =
    .next (startReply (acceptance 0x37 tag (orderStatusBody s k)) false s) :=
  congrArg Host.Outcome.next (takeRequest_report h rfl (if_neg (Nat.not_le.2 l)))

end

/-! ## Bodies -/

theorem windStatusBody_eq (s : State) : windStatusBody s =
    le 2 s.wfe.published.mean ++ le 2 s.wfe.published.gust ++ le 1 s.wfe.published.direction.code ++
      le 1 s.wfe.published.source.code ++ flagByte s.wfe.published.saturated ++ le 1 s.wfe.ring.length ++
      optional 1 (s.wfe.selected.map Fin.val) ++ ([0, 1] : List (Fin 2)).flatMap (mastStatus s) := by
  simp [windStatusBody]

theorem dayBytes_eq (r : DayRecord) : dayBytes r =
    optional 4 r.day ++ le 6 r.fresh ++ ((List.finRange 4).flatMap fun p => pondDayBytes (r.ponds.get p)) ++
      le 6 r.delivered ++ le 6 r.lost := by
  rw [dayBytes, Table.rows_eq_map, List.flatMap_map]

theorem dayTotalsBody_eq (s : State) : dayTotalsBody s =
    [s.wiu.today, s.wiu.previous].flatMap dayBytes ++ le 4 s.yc.time ++ flagByte s.yc.valid ++
      optional 4 s.yc.recordedDay := by
  simp [dayTotalsBody]

theorem pileBlock_eq (k : PileConfig) : pileBlock k = le 2 k.t0 ++ le 1 k.s ++ le 2 k.area ++ le 1 k.retention ++
    le 2 k.wcap ++ optional 1 (k.drain.map Fin.val) ++
    ((List.finRange 16).flatMap fun n => le 1 (k.exposure.get n)) ++ le 2 k.w0 := by
  rw [pileBlock, Table.rows_eq_map, List.flatMap_map]

/-- The run's bytes in the three shapes of a run (R185). -/
theorem runBytes_suspended (r : Run) (x : SuspendCause) (k n : Nat) (h : r.phase = .suspended x k n) :
    runBytes (some r) = le 1 r.origin.code ++ ([1] ++ le 1 x.code) ++ le 4 r.target ++ le 4 r.delivered ++
      le 2 (secondsLeft n) := by
  simp only [runBytes, runStateBytes, Run.resumeLeft, h]
  rfl

theorem runBytes_active (r : Run) (d : Disposition) (n : Option Nat) (h : r.phase = .active d n) :
    runBytes (some r) = le 1 r.origin.code ++
      (match d with
        | .suspend x => [0] ++ le 1 x.code
        | _ => [0, 0xFF]) ++ le 4 r.target ++ le 4 r.delivered ++ [0xFF, 0xFF] := by
  simp only [runBytes, runStateBytes, Run.resumeLeft, h]
  cases d <;> rfl

theorem flatMap_filter_eq {α β : Type} (p : α → Bool) (f : α → List β) (l : List α) :
    (l.filter p).flatMap f = l.flatMap fun a => if p a then f a else [] := by
  induction l with
  | nil => rfl
  | cons a l ih =>
    rw [List.filter_cons, List.flatMap_cons, ← ih]
    split <;> rfl

/-- The cannons of an order's runs. -/
theorem orderRuns_eq (s : State) (k : Nat) : orderRuns s k =
    (List.finRange 32).filter fun c => decide (∃ r ∈ s.run c, r.origin = .order k) := by
  unfold orderRuns
  refine List.filter_congr fun c _ => ?_
  cases s.run c <;> simp

theorem orderRunBytes_suspended (s : State) (c : Fin 32) (r : Run) (x : SuspendCause) (k n : Nat)
    (h : s.run c = some r) (hp : r.phase = .suspended x k n) :
    orderRunBytes s c = le 1 c ++ ([1] ++ le 4 (r.target - r.delivered)) := by
  simp only [orderRunBytes, h, Run.isSuspended, Run.outstanding, hp]
  rfl

theorem orderRunBytes_active (s : State) (c : Fin 32) (r : Run) (d : Disposition) (n : Option Nat)
    (h : s.run c = some r) (hp : r.phase = .active d n) :
    orderRunBytes s c = le 1 c ++
      (match d with
        | .ends => [0] ++ le 4 0
        | _ => [0] ++ le 4 (r.target - r.delivered)) := by
  simp only [orderRunBytes, h, Run.isSuspended, Run.outstanding, hp]
  cases d <;> rfl

/-! ## Refusals -/

section
variable {tag : Nat} {s : State} (h : s.lc.reply = none)
include h

theorem exec_pileStatus_refused {n : Nat} {r : Reason} (k : answerPileStatus n s = .refused r) :
    exec (.pileStatus tag n) s = .next (startReply (refusal 0x31 tag r) false s) :=
  congrArg Host.Outcome.next (takeRequest_refused h k)

theorem exec_cannonStatus_refused {n : Nat} {r : Reason} (k : answerCannonStatus n s = .refused r) :
    exec (.cannonStatus tag n) s = .next (startReply (refusal 0x32 tag r) false s) :=
  congrArg Host.Outcome.next (takeRequest_refused h k)

end

/-- Settles O44: each body over the state found, each refusal, each block, each code. -/
theorem statusRequestsChangeNothing : Obligations.StatusRequestsChangeNothing := by
  refine ⟨fun tag s h => exec_waterStatus h, fun tag s h => ?_, fun tag s h => ?_, fun tag p s h k => exec_pileStatus h k,
    fun tag c s h k => ?_, fun tag k s h l => ?_, fun tag k s h l => ?_, fun tag n s h k => ?_, fun tag p s h k => ?_,
    fun tag n s h k => ?_, fun tag c s h k => ?_, fun tag n s h k => ?_, fun tag n s h k => ?_, fun tag kind s h => ?_,
    pileBlock_eq, fun k => rfl, fun k => rfl, rfl, fun r => rfl, Qualifiers.code_eq, rfl, fun o => ?_, rfl, fun e => ?_,
    fun k n b z => ?_, fun n test i => bitSet_testBit test i, rfl, rfl, fun n => rfl, rfl, rfl, rfl, rfl, rfl, rfl,
    fun k => rfl, rfl, rfl, rfl, rfl, fun p => rfl, rfl, rfl, rfl, rfl, rfl⟩
  · rw [exec_windStatus h, windStatusBody_eq]
    rfl
  · rw [exec_dayTotals h, dayTotalsBody_eq, funext dayBytes_eq]
    rfl
  · rw [exec_cannonStatus h k]
    refine congrArg (fun body => Host.Outcome.next (startReply (acceptance 0x32 tag body) false s)) ?_
    refine congrArg₂ (· ++ ·) rfl ?_
    rcases hr : s.run c with _ | r
    · rfl
    · cases hp : r.phase with
      | suspended x n m =>
        rw [runBytes_suspended r x n m hp]
        simp only [hp]
      | active d n =>
        rw [runBytes_active r d n hp]
        cases d <;> simp only [hp]
  · rw [exec_episodeRead h l]
    unfold episodeReadBody
    cases he : s.episode k with
    | none => rfl
    | some e => cases hc : e.closure <;> simp [holdOffBytes, hc] <;> rfl
  · rw [exec_orderStatus h l]
    refine congrArg (fun body => Host.Outcome.next (startReply (acceptance 0x37 tag body) false s)) ?_
    rw [orderStatusBody, orderRuns_eq, flatMap_filter_eq]
    refine congrArg₂ (· ++ ·) (congrArg₂ (· ++ ·) (congrArg₂ (· ++ ·) rfl ?_) rfl) ?_
    · unfold undeliveredBytes
      rcases s.order k with _ | o
      · rfl
      · simp
        rfl
    · refine congrArg (List.flatMap · (List.finRange 32)) (funext fun c => ?_)
      rcases hr : s.run c with _ | r
      · simp
      · by_cases ho : r.origin = .order k
        · cases hp : r.phase with
          | suspended x n m => simp [ho, hp, orderRunBytes_suspended s c r x n m hr hp]
          | active d n =>
            rw [orderRunBytes_active s c r d n hr hp]
            cases d <;> simp [ho, hp]
        · simp [ho]
  · exact exec_pileStatus_refused h (by simp [answerPileStatus, index?_of_le k])
  · exact exec_pileStatus_refused h (by simp [answerPileStatus, index?_val, k])
  · exact exec_cannonStatus_refused h (by simp [answerCannonStatus, index?_of_le k])
  · exact exec_cannonStatus_refused h (by simp [answerCannonStatus, index?_val, k])
  · exact congrArg Host.Outcome.next (takeRequest_refused h (if_pos k))
  · exact congrArg Host.Outcome.next (takeRequest_refused h (if_pos k))
  · exact congrArg Host.Outcome.next (takeRequest_refused h rfl)
  · cases hc : o.closure <;> simp [orderBlock, hc] <;> rfl
  · cases hc : e.closure <;> simp [episodeBlock, hc] <;> rfl
  · exact ⟨Laws.length_le k n, fun j hj => le_getElem? k n j hj, flagByte_eq b, rfl, rfl, rfl,
      by rw [← secondsLeft_eq]; rfl, rfl, secondsLeft_eq n⟩

end Sys2Proof.Machine
end

