-- ==== Sys2Proof/Proofs/WarmRestart.lean ====
section
/-! SUPPORT. The warm restart (R164): the valves close over no run, the records are set back, the alerts are
read anew, and an asserted STOP line takes the stopped part on to LOCKDOWN. -/

namespace Sys2Proof.Machine

/-! ## Closing the valves over no run -/

/-- The cannon after its immediate close over no run (R110, R112). -/
def Cannon.stopped (d : Cannon) (v : Site) : Cannon :=
  match d.phase with
  | .pendingOpen => { d with phase := .idle, travel := none, lostWater := none }
  | .opening | .spraying | .closePending =>
    { d with phase := .closing, travel := some (Config.seconds v.travel), lostWater := none }
  | .idle | .closing | .stuck | .faulted | .locked => d

/-- The runs and orders stand, and the pass mark alone of the dispatcher has moved. -/
def SameWork (s t : State) : Prop := t.sd = { s.sd with passDue := t.sd.passDue }

theorem SameWork.trans {s t u : State} (h : SameWork s t) (k : SameWork t u) : SameWork s u := by
  unfold SameWork at *
  rw [k, h]

theorem SameWork.run {s t : State} (h : SameWork s t) (c : Fin 32) : t.run c = s.run c := by
  rw [State.run, h]
  rfl

theorem headerIdle_sd (s : State) : (headerIdle s).sd = s.sd := by
  unfold headerIdle enterRundown pumpOff pumpTo
  repeat' split
  all_goals simp

theorem headerIdle_cc (s : State) : (headerIdle s).cc = s.cc := by
  unfold headerIdle enterRundown pumpOff pumpTo
  repeat' split
  all_goals simp

theorem applyDisposition_of_noRun {c : Fin 32} {s : State} (h : s.run c = none) : applyDisposition c s = s := by
  unfold applyDisposition
  rw [h]

theorem updateRun_of_noRun {c : Fin 32} {s : State} (h : s.run c = none) (f : Run → Run) : updateRun c f s = s := by
  unfold updateRun
  rw [h]

theorem enterPhase_sd (c : Fin 32) (x : CannonPhase) (n l : Option Nat) (s : State) :
    (enterPhase c x n l s).sd = s.sd := syncAlert_sd _ _

/-- What one immediate close does where no run is on the cannon (R112). -/
theorem closeToStop_of_noRun {c : Fin 32} {s : State} (h : s.run c = none) :
    SameWork s (closeToStop c s) ∧
      ∀ i, (closeToStop c s).cannon i = if i = c then (s.cannon c).stopped s.site else s.cannon i := by
  have waits : (s.cannon c).phase = .pendingOpen → closeToStop c s =
      markPass (headerIdle (enterPhase c .idle none none (removeEntry c s))) := by
    intro hp
    have run : (enterPhase c .idle none none (removeEntry c s)).run c = none := by
      rw [enterPhase, syncAlert_run]
      exact h
    simp only [closeToStop, hp, withdrawOpen, returnToIdle, releaseIdle, applyDisposition_of_noRun run]
  have moves : ∀ t, t = enterPhase c .closing (some (Config.seconds s.site.travel)) none (removeEntry c s) →
      SameWork s t ∧ ∀ i, t.cannon i = if i = c then { s.cannon c with
        phase := .closing, travel := some (Config.seconds s.site.travel), lostWater := none } else s.cannon i := by
    rintro t rfl
    refine ⟨?_, fun i => enterPhase_cannon c i _ _ _ _⟩
    unfold SameWork
    rw [enterPhase_sd]
    rfl
  have command : commandClose c (removeEntry c s) =
      enterPhase c .closing (some (Config.seconds s.site.travel)) none (removeEntry c s) := by
    have run : (removeEntry c s).run c = none := h
    rw [commandClose, stopDelivery, updateRun_of_noRun run]
    rfl
  cases hp : (s.cannon c).phase with
  | pendingOpen =>
    rw [waits hp]
    refine ⟨?_, fun i => ?_⟩
    · unfold SameWork
      simp only [markPass, setPass_sd, headerIdle_sd, enterPhase_sd]
      rfl
    · have cc := headerIdle_cc (enterPhase c .idle none none (removeEntry c s))
      have cannon : (markPass (headerIdle (enterPhase c .idle none none (removeEntry c s)))).cannon i =
          (enterPhase c .idle none none (removeEntry c s)).cannon i := by
        simp only [State.cannon, markPass, setPass_cc, cc]
      rw [cannon, enterPhase_cannon, Cannon.stopped, hp]
      rfl
  | opening | spraying | closePending =>
    have close := moves (closeToStop c s) (by simp only [closeToStop, hp, command])
    simpa only [Cannon.stopped, hp] using close
  | idle | closing | stuck | faulted | locked =>
    have stays : closeToStop c s = s := by simp only [closeToStop, hp]
    rw [stays]
    refine ⟨rfl, fun i => ?_⟩
    simp only [Cannon.stopped, hp]
    split
    · rename_i hi; rw [hi]
    · rfl

/-- The closes of a list of cannons, each of them once. -/
theorem foldl_closeToStop (l : List (Fin 32)) (hl : l.Nodup) (s : State) (h : ∀ c, s.run c = none) :
    SameWork s (l.foldl (fun t c => closeToStop c t) s) ∧
      ∀ i, (l.foldl (fun t c => closeToStop c t) s).cannon i =
        if i ∈ l then (s.cannon i).stopped s.site else s.cannon i := by
  induction l generalizing s with
  | nil => exact ⟨rfl, fun i => rfl⟩
  | cons c l ih =>
    obtain ⟨hc, hl⟩ := List.nodup_cons.1 hl
    obtain ⟨work, cannon⟩ := closeToStop_of_noRun (h c)
    obtain ⟨work', cannon'⟩ := ih hl (closeToStop c s) fun x => (work.run x).trans (h x)
    refine ⟨work.trans work', fun i => ?_⟩
    rw [List.foldl_cons, cannon', cannon, (within_closeToStop s c).site]
    by_cases hi : i = c
    · subst hi
      simp [hc]
    · simp [hi]

theorem sameWork_stopQueue (s : State) : SameWork s ((s.setQueue []).setSlot none) := rfl

theorem closeAll_of_noRuns {s : State} (h : ∀ c, s.run c = none) :
    SameWork s (closeAll s) ∧ ∀ c, (closeAll s).cannon c = (s.cannon c).stopped s.site := by
  obtain ⟨work, cannon⟩ := foldl_closeToStop (List.finRange 32) (List.nodup_finRange 32) s h
  unfold closeAll forCannons
  refine ⟨work.trans (sameWork_stopQueue _), fun c => ?_⟩
  rw [setSlot_cannon, setQueue_cannon, cannon, if_pos (List.mem_finRange c)]

/-- A cannon that neither waits, moves nor sprays is stopped already. -/
theorem closeToStop_of_stopped {d : Cannon} {v : Site} {c : Fin 32} {s : State} (h : s.cannon c = d.stopped v) :
    closeToStop c s = s := by
  unfold closeToStop
  rw [h, Cannon.stopped]
  cases hp : d.phase <;> simp only [hp]

theorem forCannons_id {f : Fin 32 → State → State} {s : State} (h : ∀ c, f c s = s) : forCannons f s = s := by
  unfold forCannons
  generalize List.finRange 32 = l
  induction l with
  | nil => rfl
  | cons c l ih => rw [List.foldl_cons, h, ih]

theorem decideEnds_of_noRuns {s : State} (h : ∀ c, s.run c = none) (f : Run → Bool) : decideEnds f s = s :=
  forCannons_id fun c => by rw [h]

/-! ## The alerts and the notices -/

theorem nodup_map_finRange {n : Nat} {f : Fin n → AlertId} (h : Function.Injective f) :
    ((List.finRange n).map f).Nodup := (List.nodup_finRange n).map h

theorem alertOrder_nodup : alertOrder.Nodup := by
  unfold alertOrder
  refine List.nodup_append'.2 ⟨List.nodup_append'.2 ⟨List.nodup_append'.2 ⟨List.nodup_append'.2 ⟨?_, ?_, ?_⟩, ?_, ?_⟩,
    ?_, ?_⟩, ?_, ?_⟩
  · exact nodup_map_finRange fun _ _ => AlertId.mastSuspect.inj
  · decide
  · intro a h k
    obtain ⟨m, -, rfl⟩ := List.mem_map.1 h
    simp at k
  · exact nodup_map_finRange fun _ _ => AlertId.valve.inj
  · intro a h k
    obtain ⟨m, -, rfl⟩ := List.mem_map.1 k
    simp at h
  · exact nodup_map_finRange fun _ _ => AlertId.monitorStale.inj
  · intro a h k
    obtain ⟨m, -, rfl⟩ := List.mem_map.1 k
    simp at h
  · exact nodup_map_finRange fun _ _ => AlertId.machineStale.inj
  · intro a h k
    obtain ⟨m, -, rfl⟩ := List.mem_map.1 k
    simp at h

theorem relatch_notices (e : AlertId) (s : State) (h : .alert e ∉ s.lc.notices) :
    (relatch e s).lc.notices = s.lc.notices ++ if conditionOf s e then [.alert e] else [] := by
  unfold relatch
  simp only
  split
  · simp [post, h]
  · simp

/-- The entries that a restart finds true are posted in the order of the table (R164). -/
theorem foldl_relatch_notices (es : List AlertId) (hd : es.Nodup) (s : State)
    (h : ∀ e ∈ es, .alert e ∉ s.lc.notices) : (es.foldl (fun t e => relatch e t) s).lc.notices =
      s.lc.notices ++ (es.filter (conditionOf s)).map .alert := by
  induction es generalizing s with
  | nil => simp
  | cons e es ih =>
    obtain ⟨he, hd⟩ := List.nodup_cons.1 hd
    have own := relatch_notices e s (h e (List.mem_cons_self ..))
    have fresh : ∀ x ∈ es, .alert x ∉ (relatch e s).lc.notices := by
      intro x hx
      rw [own, List.mem_append, not_or]
      refine ⟨h x (List.mem_cons_of_mem _ hx), ?_⟩
      have ne : x ≠ e := fun k => he (k ▸ hx)
      split <;> simp [ne]
    rw [List.foldl_cons, ih hd _ fresh, own, funext fun x => conditionOf_relatch e x s, List.filter_cons,
      List.append_assoc]
    split <;> rfl

theorem relatchAll_notices (s : State) (h : ∀ e, .alert e ∉ s.lc.notices) :
    (relatchAll s).lc.notices = s.lc.notices ++ (alertOrder.filter (conditionOf s)).map .alert := by
  unfold relatchAll
  exact foldl_relatch_notices alertOrder alertOrder_nodup s fun e _ => h e

/-- The reading anew writes the alert table and the notice list alone. -/
theorem relatchAll_eq (s : State) : ∃ a n, relatchAll s = (s.setAlerts a).setNotices n := by
  unfold relatchAll
  generalize alertOrder = es
  induction es generalizing s with
  | nil => exact ⟨s.mau.alerts, s.lc.notices, rfl⟩
  | cons e es ih =>
    obtain ⟨a, n, h⟩ := ih (relatch e s)
    refine ⟨a, n, ?_⟩
    rw [List.foldl_cons, h, relatch_eq]
    rfl

/-! ## The restart -/

/-- The state in which the alerts are read anew: the valves closed over no run, the records set back. -/
def restarted (s : State) : State :=
  post .mode (((clearFlags (restartMonitors (emptyEpisodes s.mau.split.episodes
    ((closeAll (discardWork s)).setPump ⟨.off, none, none⟩)))).setNotices []).setMode .standby (some .restart))

theorem warmRestart_eq (s : State) :
    warmRestart s = (obeyStop (relatchAll (restarted s))).setPass false := rfl

/-- What the records are set back to, over the state that the closing of the valves has left (R60, R86, R112,
R152, R164). -/
def setBack (slots : Nat) (v : State) : State := { v with
  wiu := { v.wiu with pump := ⟨.off, none, none⟩ }
  bwu := { v.bwu with
    episodes := List.replicate slots none
    monitors := (v.bwu.monitors.map fun d => { d with openEpisode := none, belowRun := 0 }).map Monitor.restart }
  pau := { v.pau with piles := v.pau.piles.map fun d => { d with escalated := false, hold := false } }
  lc := { v.lc with notices := [.mode] }
  mau := { v.mau with mode := .standby, cause := some .restart } }

theorem setBack_run (n : Nat) (v : State) (c : Fin 32) : (setBack n v).run c = v.run c := rfl

theorem setBack_cannon (n : Nat) (v : State) (c : Fin 32) : (setBack n v).cannon c = v.cannon c := rfl

theorem restarted_eq (s : State) : restarted s = setBack s.mau.split.episodes (closeAll (discardWork s)) := by
  unfold restarted
  generalize closeAll (discardWork s) = v
  rfl

theorem discardWork_run (c : Fin 32) (s : State) : (discardWork s).run c = none := Table.get_fill _ _

/-- NO_WATER cannot rise where no mode sprays (R162). -/
theorem conditionOf_setMode_lockdown (s : State) (x : Option Cause) (h : s.mau.mode = .standby) (e : AlertId) :
    conditionOf (s.setMode .lockdown x) e = conditionOf s e := by
  cases e
  case noWater =>
    have standby : spraysMode s.mau.mode = false := by rw [h]; rfl
    change (noUsableSource s && spraysMode .lockdown) = (noUsableSource s && spraysMode s.mau.mode)
    rw [standby]
    rfl
  all_goals rfl

theorem Alerts.set_get_self (t : Alerts) (e : AlertId) : t.set (t.get e) e = t := by
  cases e <;> simp [Alerts.set, Alerts.get]

/-- An entry that is in step is written as it is. -/
theorem syncAlert_of_inStep {e : AlertId} {s : State} (h : InStep e s) : syncAlert e s = s := by
  have h : (s.mau.alerts.get e).condition = conditionOf s e := h
  unfold syncAlert
  simp only [← h, Alert.after_self, Alerts.set_get_self, Bool.and_not_self, Bool.false_eq_true, if_false]
  rfl

theorem pumpOnMode_lockdown_of_off {s : State} (h : s.wiu.pump.phase = .off) : pumpOnMode .lockdown s = s := by
  unfold pumpOnMode
  rw [h]

/-- A part that is stopped already has only its mode to change (R154, R157). -/
theorem enterMode_of_stopped {s : State} {x : Cause} (run : ∀ c, s.run c = none)
    (cannon : ∀ c, ∃ d v, s.cannon c = Cannon.stopped d v) (queue : s.cc.queue = []) (slot : s.cc.slot = none)
    (pump : s.wiu.pump.phase = .off) (notice : .mode ∈ s.lc.notices)
    (mode : s.mau.mode = .standby) (alert : InStep .noWater s) :
    enterMode .lockdown x s = s.setMode .lockdown (some x) := by
  have posted : post .mode (s.setMode .lockdown (some x)) = s.setMode .lockdown (some x) := if_pos notice
  have closed : ∀ o, closeAll ((s.setMode .lockdown (some x)).setOrders o) =
      (s.setMode .lockdown (some x)).setOrders o := by
    intro o
    have each : forCannons closeToStop ((s.setMode .lockdown (some x)).setOrders o) =
        (s.setMode .lockdown (some x)).setOrders o := forCannons_id fun c => by
      obtain ⟨d, v, h⟩ := cannon c
      exact closeToStop_of_stopped (d := d) (v := v) h
    rw [closeAll, each]
    simp only [State.setQueue, State.setSlot, State.setOrders, State.setMode, ← queue, ← slot]
  have ended : ∀ o, dispatcherOnMode .standby .lockdown ((s.setMode .lockdown (some x)).setOrders o) =
      (s.setMode .lockdown (some x)).setOrders o := by
    intro o
    have none : ∀ c, ((s.setMode .lockdown (some x)).setOrders o).run c = none := run
    simp only [dispatcherOnMode, decideEnds_of_noRuns none]
  have off : pumpOnMode .lockdown (s.setMode .lockdown (some x)) = s.setMode .lockdown (some x) :=
    pumpOnMode_lockdown_of_off pump
  have follows : InStep .noWater (s.setMode .lockdown (some x)) := by
    unfold InStep
    rw [conditionOf_setMode_lockdown s _ mode]
    exact alert
  unfold enterMode
  rw [posted, mode, sparingOrders, cannonsOnMode, closed, ended]
  change syncAlert .noWater (pumpOnMode .lockdown (s.setMode .lockdown (some x))) = _
  rw [off, syncAlert_of_inStep follows]

/-! ## What the restart leaves -/

theorem restarted_run (c : Fin 32) (s : State) : (restarted s).run c = none := by
  rw [restarted_eq]
  rw [setBack_run, (closeAll_of_noRuns fun c => discardWork_run c s).1.run, discardWork_run]

theorem restarted_cannon (c : Fin 32) (s : State) : (restarted s).cannon c = (s.cannon c).stopped s.site := by
  rw [restarted_eq]
  rw [setBack_cannon, (closeAll_of_noRuns fun c => discardWork_run c s).2]
  rfl

/-- The frame of the restarted records, from the closing of the valves. -/
theorem restarted_frame (s : State) :
    (restarted s).pins = s.pins ∧ (restarted s).yc = s.yc ∧ (restarted s).wfe = s.wfe ∧ (restarted s).ft = s.ft ∧
      (restarted s).site = s.site ∧ WaterFrame s (restarted s) ∧ (restarted s).cc.machines = s.cc.machines ∧
      (restarted s).pau.countdown = s.pau.countdown ∧ (restarted s).lc = { s.lc with notices := [.mode] } ∧
      (restarted s).mau.mode = .standby ∧ (restarted s).mau.split = s.mau.split := by
  have frame := within_closeAll (discardWork s)
  rw [restarted_eq]
  generalize closeAll (discardWork s) = v at frame
  refine ⟨frame.pins, frame.yc, frame.wfe, frame.ft, frame.site, ⟨frame.ponds, frame.today, frame.previous⟩,
    frame.machines, frame.assessment, ?_, rfl, ?_⟩
  · rw [setBack, frame.lc]; rfl
  · rw [setBack, frame.mau]; rfl

theorem restarted_pump (s : State) : (restarted s).wiu.pump = ⟨.off, none, none⟩ := by rw [restarted_eq]; rfl

theorem restarted_queue (s : State) : (restarted s).cc.queue = [] ∧ (restarted s).cc.slot = none := by
  rw [restarted_eq]
  exact ⟨rfl, rfl⟩

theorem restarted_work (s : State) : SameWork (discardWork s) (restarted s) := by
  have work := (closeAll_of_noRuns fun c => discardWork_run c s).1
  rw [restarted_eq]
  generalize closeAll (discardWork s) = v at work
  exact work

/-- The alerts read anew, and the notices posted after MODE (R164). -/
theorem relatchAll_of_fresh {r : State} (h : r.lc.notices = [.mode]) : ∃ a, relatchAll r = (r.setAlerts a).setNotices
      (.mode :: (alertOrder.filter (conditionOf r)).map .alert) ∧ ∀ e, a.get e = relatched r e := by
  obtain ⟨a, n, k⟩ := relatchAll_eq r
  have notices := relatchAll_notices r (by rw [h]; simp)
  have alert := fun e => relatchAll_alert e r
  rw [k] at notices alert
  rw [h] at notices
  have notices : n = .mode :: (alertOrder.filter (conditionOf r)).map .alert := notices
  exact ⟨a, notices ▸ k, alert⟩

/-- What the STOP line makes of a part that is stopped already (R157, R164). -/
theorem obeyStop_of_stopped {r : State} (run : ∀ c, r.run c = none)
    (cannon : ∀ c, ∃ d v, r.cannon c = Cannon.stopped d v) (queue : r.cc.queue = []) (slot : r.cc.slot = none)
    (pump : r.wiu.pump.phase = .off) (notice : .mode ∈ r.lc.notices) (mode : r.mau.mode = .standby)
    (cause : r.mau.cause = some .restart) (alert : InStep .noWater r) : obeyStop r =
      r.setMode (if stopAsserted r then .lockdown else .standby)
        (some (if stopAsserted r then .stopLine else .restart)) := by
  unfold obeyStop
  split
  · exact enterMode_of_stopped run cannon queue slot pump notice mode alert
  · simp only [State.setMode, ← mode, ← cause]

/-- The restart, with the mode that the STOP line leaves it in (R157, R164). -/
theorem warmRestart_cases (s : State) : ∃ a, warmRestart s = (((((restarted s).setAlerts a).setNotices
      (.mode :: (alertOrder.filter (conditionOf (restarted s))).map .alert)).setMode
        (if stopAsserted s then .lockdown else .standby)
        (some (if stopAsserted s then .stopLine else .restart)))).setPass false ∧
    ∀ e, a.get e = relatched (restarted s) e := by
  obtain ⟨pins, -, -, -, -, -, -, -, lc, mode, -⟩ := restarted_frame s
  obtain ⟨queue, slot⟩ := restarted_queue s
  have run := fun c => restarted_run c s
  have cannon := fun c => restarted_cannon c s
  have pump := restarted_pump s
  have cause : (restarted s).mau.cause = some .restart := by rw [restarted_eq]; rfl
  rw [warmRestart_eq]
  generalize restarted s = r at *
  obtain ⟨a, h, alert⟩ := relatchAll_of_fresh (r := r) (by rw [lc])
  have follows := inStep_relatchAll .noWater r
  have stop : stopAsserted r = stopAsserted s := by rw [stopAsserted, pins, stopAsserted]
  refine ⟨a, ?_, alert⟩
  rw [h] at follows ⊢
  rw [obeyStop_of_stopped (r := (r.setAlerts a).setNotices _) run (fun c => ⟨s.cannon c, s.site, cannon c⟩) queue slot
    (by rw [setNotices_wiu, setAlerts_wiu, pump]) (List.mem_cons_self ..) mode cause follows, ← stop]
  rfl

theorem stopped_cases (d : Cannon) (v : Site) :
    (d.stopped v).phase ≠ .pendingOpen ∧ (d.stopped v).phase ≠ .opening ∧ (d.stopped v).phase ≠ .spraying ∧
      (d.stopped v).phase ≠ .closePending := by
  unfold Cannon.stopped
  cases h : d.phase <;> simp [h]

theorem stopped_frame (d : Cannon) (v : Site) : d.stopped v = { d with
    phase := (d.stopped v).phase, travel := (d.stopped v).travel, lostWater := (d.stopped v).lostWater } := by
  unfold Cannon.stopped
  cases d.phase <;> rfl

theorem valveDriven_of_stopped {t : State} {c : Fin 32} {d : Cannon} {v : Site} (h : t.cannon c = d.stopped v) :
    valveDriven t c = false := by
  obtain ⟨-, opening, spraying, closing⟩ := stopped_cases d v
  unfold valveDriven
  rw [h]
  split
  · contradiction
  · contradiction
  · contradiction
  · rfl

theorem restarted_boundary (s : State) : (restarted s).bwu = { s.bwu with
    episodes := List.replicate s.mau.split.episodes none, monitors := (restarted s).bwu.monitors } ∧
    ∀ m, (restarted s).monitor m = ({ s.monitor m with openEpisode := none, belowRun := 0 } : Monitor).restart := by
  have frame := within_closeAll (discardWork s)
  rw [restarted_eq]
  generalize closeAll (discardWork s) = v at frame
  refine ⟨?_, fun m => ?_⟩
  · rw [setBack, frame.bwu]; rfl
  · change ((v.bwu.monitors.map fun d => { d with openEpisode := none, belowRun := 0 }).map Monitor.restart).get m = _
    rw [Table.get_map, Table.get_map, frame.bwu]
    rfl

theorem restarted_pile (s : State) (p : Fin 24) :
    (restarted s).pile p = { s.pile p with escalated := false, hold := false } := by
  have frame := within_closeAll (discardWork s)
  rw [restarted_eq]
  generalize closeAll (discardWork s) = v at frame
  change (v.pau.piles.map fun d => { d with escalated := false, hold := false }).get p = _
  rw [Table.get_map]
  change { v.pile p with escalated := false, hold := false } = _
  rw [frame.pile]
  rfl

/-- Outside the mode and the entry of NO_WATER no condition reads what the STOP line changes here. -/
theorem conditionOf_stoppedMode (r : State) (h : r.mau.mode = .standby) (b : Bool) (x : Option Cause) (e : AlertId) :
    conditionOf (r.setMode (if b then .lockdown else .standby) x) e = conditionOf r e := by
  cases b
  · rw [if_neg Bool.false_ne_true, ← h]
    cases e <;> rfl
  · exact conditionOf_setMode_lockdown r x h e

/-- The monitor's countdown after a restart (R152). -/
theorem Monitor.restart_eq (d : Monitor) : ({ d with openEpisode := none, belowRun := 0 } : Monitor).restart =
    { d with
      openEpisode := none, belowRun := 0
      countdown := if d.configured = true ∧ d.stale = false then some (Config.seconds (2 * d.interval))
        else d.countdown } := by
  unfold Monitor.restart
  split <;> rename_i h <;> simp_all

theorem exec_warmRestart {tag : Nat} {s : State} (h : s.lc.reply = none) : exec (.warmRestart tag) s =
    .next (startReply (acceptance 0x0A tag []) true s) :=
  congrArg Host.Outcome.next (takeRequest_accepted h rfl)

theorem exec_replySent_restart {r : Reply} {s : State} (h : s.lc.reply = some r) (k : r.restart = true) :
    exec .replySent s = .next (warmRestart (lineFree s)) := by
  refine congrArg Host.Outcome.next ?_
  simp only [replySentStep, h, k, if_true]
  rfl

/-- Settles O43: the restart's records over the state that its reply leaves. -/
theorem warmRestartFollowsItsReply : Obligations.WarmRestartFollowsItsReply := by
  refine ⟨fun tag s h => exec_warmRestart h, fun r s h k => ⟨_, exec_replySent_restart h k, ?_⟩⟩
  obtain ⟨a, restart, alert⟩ := warmRestart_cases (lineFree s)
  obtain ⟨pins, yc, wfe, ft, site, ⟨ponds, today, previous⟩, machines, assessment, lc, mode, split⟩ :=
    restarted_frame (lineFree s)
  obtain ⟨queue, slot⟩ := restarted_queue (lineFree s)
  obtain ⟨boundary, monitor⟩ := restarted_boundary (lineFree s)
  have run := fun c => restarted_run c (lineFree s)
  have cannon := fun c => restarted_cannon c (lineFree s)
  have pump := restarted_pump (lineFree s)
  have work := restarted_work (lineFree s)
  have pile := restarted_pile (lineFree s)
  rw [restart]
  generalize restarted (lineFree s) = u at *
  have conditions : ∀ e, conditionOf ((((u.setAlerts a).setNotices
      (.mode :: (alertOrder.filter (conditionOf u)).map .alert)).setMode
        (if stopAsserted (lineFree s) then .lockdown else .standby)
        (some (if stopAsserted (lineFree s) then .stopLine else .restart))).setPass false) e = conditionOf u e :=
    fun e => (calm_setPass false e _).condition.trans <|
      (conditionOf_stoppedMode ((u.setAlerts a).setNotices _) mode _ _ e).trans <|
        (conditionOf_setNotices _ e (u.setAlerts a)).trans (conditionOf_setAlerts a e u)
  have conditions := funext conditions
  have time : now u = now s := by rw [now, yc]; rfl
  have acceptances : u.sd.acceptances = s.sd.acceptances := by rw [work]; rfl
  have suspensions : u.sd.suspensions = s.sd.suspensions := by rw [work]; rfl
  have map : u.bwu.map = s.bwu.map := by rw [boundary]; rfl
  have nextId : u.bwu.nextId = s.bwu.nextId := by rw [boundary]; rfl
  have closures : u.bwu.closures = s.bwu.closures := by rw [boundary]; rfl
  have rx : u.lc.rx = .hunt := congrArg Lc.rx lc
  have buffer : u.lc.buffer = [] := congrArg Lc.buffer lc
  have reply : u.lc.reply = none := congrArg Lc.reply lc
  have rate : u.lc.rate = s.lc.rate := by rw [lc]; rfl
  refine ⟨rfl, rfl, split, fun c => ⟨run c, valveDriven_of_stopped (cannon c), ?_⟩, congrArg Sd.orders work,
    fun p => ?_, acceptances, suspensions, cannon, queue, slot, machines, fun c => ?_, pump,
    ⟨ponds, today, previous⟩, congrArg Bwu.episodes boundary, map, nextId, closures, fun m => ?_, pile, assessment,
    fun e _ => ?_, ?_, rx, buffer, reply, rate, yc, ft, wfe, site, pins⟩
  · have stopped := (stopped_cases (s.cannon c) s.site).1
    exact fun x => stopped ((congrArg Cannon.phase (cannon c)).symm.trans x)
  · exact (congrArg (fun d => d.demands.get p) work).trans (Table.get_fill _ _)
  · have kept := stopped_frame (s.cannon c) s.site
    have own : u.cannon c = (s.cannon c).stopped s.site := cannon c
    rw [← own] at kept
    exact kept
  · exact (monitor m).trans (Monitor.restart_eq (s.monitor m))
  · rw [conditions, ← time]
    exact alert e
  · rw [conditions]
    rfl

end Sys2Proof.Machine
end

