-- ==== Sys2Proof/Proofs/OwnCannon.lean ====
section
/-! SUPPORT. What a close does to its own cannon, to every other cannon and to the pump set: the other
cannons, their runs and their queue entries stand, a pump set that is OFF stays OFF, and a taken stagger slot
stays taken. -/

namespace Sys2Proof.Machine

/-- The cannons other than c, their runs and their queue entries stand, an OFF pump set stands, and a stagger
slot that is taken stays taken. -/
structure Apart (c : Fin 32) (s t : State) : Prop where
  cannon : ∀ i, i ≠ c → t.cannon i = s.cannon i
  run : ∀ i, i ≠ c → t.run i = s.run i
  queued : ∀ i, i ≠ c → queuedMovement t i = queuedMovement s i
  pump : s.wiu.pump.phase = .off → t.wiu.pump = s.wiu.pump
  slot : t.cc.slot = none → s.cc.slot = none

theorem Apart.refl (c : Fin 32) (s : State) : Apart c s s := ⟨fun _ _ => rfl, fun _ _ => rfl, fun _ _ => rfl, fun _ => rfl, id⟩

theorem Apart.trans {c : Fin 32} {s t u : State} (h : Apart c s t) (k : Apart c t u) : Apart c s u where
  cannon i hi := (k.cannon i hi).trans (h.cannon i hi)
  run i hi := (k.run i hi).trans (h.run i hi)
  queued i hi := (k.queued i hi).trans (h.queued i hi)
  pump off := (k.pump (by rw [h.pump off]; exact off)).trans (h.pump off)
  slot free := h.slot (k.slot free)

/-! ## The dispatcher's answer to a run's end -/

@[simp] theorem completeIfDone_cc (k : Nat) (s : State) : (completeIfDone k s).cc = s.cc := by
  rcases completeIfDone_cases k s with ⟨o, -, -, -, h⟩ | ⟨h, -⟩ <;> simp [h]

@[simp] theorem completeIfDone_wiu (k : Nat) (s : State) : (completeIfDone k s).wiu = s.wiu := by
  rcases completeIfDone_cases k s with ⟨o, -, -, -, h⟩ | ⟨h, -⟩ <;> simp [h]

@[simp] theorem completeIfDone_run (k : Nat) (c : Fin 32) (s : State) : (completeIfDone k s).run c = s.run c := by
  rcases completeIfDone_cases k s with ⟨o, -, -, -, h⟩ | ⟨h, -⟩ <;> simp [h]

@[simp] theorem completeIfDone_suspensions (k : Nat) (s : State) :
    (completeIfDone k s).sd.suspensions = s.sd.suspensions := by
  rcases completeIfDone_cases k s with ⟨o, -, -, -, h⟩ | ⟨h, -⟩ <;> simp [h]

/-- The end of a run, with the order that it tests (R116). -/
theorem endRun_cases (c : Fin 32) (s : State) :
    s.run c = none ∧ endRun c s = s ∨
    (∃ r k, s.run c = some r ∧ r.origin = .order k ∧ endRun c s = completeIfDone k (markPass (s.setRun c none))) ∨
    ∃ r, s.run c = some r ∧ (∀ k, r.origin ≠ .order k) ∧ endRun c s = markPass (s.setRun c none) := by
  unfold endRun
  cases h : s.run c with
  | none => exact .inl ⟨rfl, rfl⟩
  | some r =>
    cases origin : r.origin with
    | order k => exact .inr (.inl ⟨r, k, rfl, origin, by simp only [origin]⟩)
    | auto | detached => exact .inr (.inr ⟨r, rfl, by simp [origin], by simp only [origin]⟩)

@[simp] theorem endRun_cc (c : Fin 32) (s : State) : (endRun c s).cc = s.cc := by
  rcases endRun_cases c s with ⟨-, h⟩ | ⟨r, k, -, -, h⟩ | ⟨r, -, -, h⟩ <;> simp [h, markPass]

@[simp] theorem endRun_wiu (c : Fin 32) (s : State) : (endRun c s).wiu = s.wiu := by
  rcases endRun_cases c s with ⟨-, h⟩ | ⟨r, k, -, -, h⟩ | ⟨r, -, -, h⟩ <;> simp [h, markPass]

@[simp] theorem endRun_suspensions (c : Fin 32) (s : State) : (endRun c s).sd.suspensions = s.sd.suspensions := by
  rcases endRun_cases c s with ⟨-, h⟩ | ⟨r, k, -, -, h⟩ | ⟨r, -, -, h⟩ <;> simp [h, markPass]

@[simp] theorem endRun_run (c i : Fin 32) (s : State) :
    (endRun c s).run i = if i = c then none else s.run i := by
  rcases endRun_cases c s with ⟨none, h⟩ | ⟨r, k, -, -, h⟩ | ⟨r, -, -, h⟩
  · rw [h]
    split
    · rename_i hi; rw [hi, none]
    · rfl
  · simp [h, markPass, setRun_run]
  · simp [h, markPass, setRun_run]

@[simp] theorem updateRun_cc (c : Fin 32) (f : Run → Run) (s : State) : (updateRun c f s).cc = s.cc := by
  unfold updateRun
  split <;> rfl

@[simp] theorem updateRun_wiu (c : Fin 32) (f : Run → Run) (s : State) : (updateRun c f s).wiu = s.wiu := by
  unfold updateRun
  split <;> rfl

@[simp] theorem updateRun_suspensions (c : Fin 32) (f : Run → Run) (s : State) :
    (updateRun c f s).sd.suspensions = s.sd.suspensions := by
  unfold updateRun
  split <;> rfl

@[simp] theorem updateRun_orders (c : Fin 32) (f : Run → Run) (s : State) :
    (updateRun c f s).sd.orders = s.sd.orders := by
  unfold updateRun
  split <;> rfl

@[simp] theorem updateRun_run (c i : Fin 32) (f : Run → Run) (s : State) :
    (updateRun c f s).run i = if i = c then (s.run c).map f else s.run i := by
  unfold updateRun
  split
  · rename_i r h
    rw [setRun_run, h]
    rfl
  · rename_i h
    split
    · rename_i hi; rw [hi, h]; rfl
    · rfl

/-- A suspension, with the end that a resume window of 0 makes of it (R115). -/
theorem suspendRun_eq (c : Fin 32) (x : SuspendCause) (s : State) : suspendRun c x s =
    let n := Config.count48 (s.sd.suspensions + 1)
    let t := updateRun c (fun r => { r with phase := .suspended x n (Config.seconds s.site.resumeWindow) })
      (s.setSuspensions n)
    if s.site.resumeWindow = 0 then endRun c t else t := rfl

@[simp] theorem suspendRun_cc (c : Fin 32) (x : SuspendCause) (s : State) : (suspendRun c x s).cc = s.cc := by
  rw [suspendRun_eq]
  simp only
  split <;> simp

@[simp] theorem suspendRun_wiu (c : Fin 32) (x : SuspendCause) (s : State) : (suspendRun c x s).wiu = s.wiu := by
  rw [suspendRun_eq]
  simp only
  split <;> simp

@[simp] theorem suspendRun_suspensions (c : Fin 32) (x : SuspendCause) (s : State) :
    (suspendRun c x s).sd.suspensions = suspensionsAfter s 1 := by
  rw [suspendRun_eq]
  simp only
  split <;> simp [suspensionsAfter_succ]

@[simp] theorem suspendRun_run (c i : Fin 32) (x : SuspendCause) (s : State) : (suspendRun c x s).run i =
    if i = c then
      if s.site.resumeWindow = 0 then none
      else (s.run c).map fun r => { r with
        phase := .suspended x (suspensionsAfter s 1) (Config.seconds s.site.resumeWindow) }
    else s.run i := by
  rw [suspendRun_eq]
  simp only
  split
  · simp only [endRun_run, updateRun_run, setSuspensions_run]
    split <;> rfl
  · simp only [updateRun_run, setSuspensions_run]
    rfl

/-- The disposition of the cannon's run is applied (R114). -/
theorem applyDisposition_cases (c : Fin 32) (s : State) :
    applyDisposition c s = s ∧ (∀ r ∈ s.run c, r.isSuspended = true) ∨
    (∃ r x n, s.run c = some r ∧ r.phase = .active (.suspend x) n ∧ applyDisposition c s = suspendRun c x s) ∨
    ∃ r d n, s.run c = some r ∧ r.phase = .active d n ∧ (∀ x, d ≠ .suspend x) ∧ applyDisposition c s = endRun c s := by
  unfold applyDisposition
  cases h : s.run c with
  | none => exact .inl ⟨rfl, by simp⟩
  | some r =>
    cases hp : r.phase with
    | suspended x n w => exact .inl ⟨by simp only [hp], by simp [Run.isSuspended, hp]⟩
    | active d n =>
      cases d with
      | suspend x => exact .inr (.inl ⟨r, x, n, rfl, hp, by simp only [hp]⟩)
      | ends | none => exact .inr (.inr ⟨r, _, n, rfl, hp, by simp, by simp only [hp]⟩)

@[simp] theorem applyDisposition_cc (c : Fin 32) (s : State) : (applyDisposition c s).cc = s.cc := by
  rcases applyDisposition_cases c s with ⟨h, -⟩ | ⟨r, x, n, -, -, h⟩ | ⟨r, d, n, -, -, -, h⟩ <;> simp [h]

@[simp] theorem applyDisposition_wiu (c : Fin 32) (s : State) : (applyDisposition c s).wiu = s.wiu := by
  rcases applyDisposition_cases c s with ⟨h, -⟩ | ⟨r, x, n, -, -, h⟩ | ⟨r, d, n, -, -, -, h⟩ <;> simp [h]

theorem applyDisposition_run_other {c i : Fin 32} (hi : i ≠ c) (s : State) :
    (applyDisposition c s).run i = s.run i := by
  rcases applyDisposition_cases c s with ⟨h, -⟩ | ⟨r, x, n, -, -, h⟩ | ⟨r, d, n, -, -, -, h⟩ <;> simp [h, hi]

/-! ## The closes -/

theorem headerIdle_off {s : State} (off : s.wiu.pump.phase = .off) : headerIdle s = s := by
  unfold headerIdle
  rw [if_neg]
  rintro ⟨running, -⟩
  rw [off] at running
  cases running

theorem headerIdle_run (i : Fin 32) (s : State) : (headerIdle s).run i = s.run i := by
  rw [State.run, headerIdle_sd, State.run]

theorem queuedMovement_of_cc {s t : State} (h : t.cc.queue = s.cc.queue) (i : Fin 32) :
    queuedMovement t i = queuedMovement s i := by rw [queuedMovement, h, queuedMovement]

section
variable (c : Fin 32) (s : State)

theorem apart_setCannon (d : Cannon) : Apart c s (s.setCannon c d) where
  cannon i hi := by rw [setCannon_cannon, if_neg hi]
  run _ _ := rfl
  queued _ _ := rfl
  pump _ := rfl
  slot := id

theorem apart_updateRun (f : Run → Run) : Apart c s (updateRun c f s) where
  cannon i _ := updateRun_cannon c i f s
  run i hi := by rw [updateRun_run, if_neg hi]
  queued i _ := queuedMovement_of_cc (by rw [updateRun_cc]) i
  pump _ := by rw [updateRun_wiu]
  slot := by rw [updateRun_cc]; exact id

theorem apart_enterPhase (x : CannonPhase) (n l : Option Nat) : Apart c s (enterPhase c x n l s) where
  cannon i hi := by rw [enterPhase_cannon, if_neg hi]
  run i _ := by rw [enterPhase, syncAlert_run]; rfl
  queued i _ := queuedMovement_of_cc (by rw [enterPhase, syncAlert_cc]; rfl) i
  pump _ := by rw [enterPhase, syncAlert_wiu]; rfl
  slot := by rw [enterPhase, syncAlert_cc]; exact id

theorem apart_removeEntry : Apart c s (removeEntry c s) where
  cannon _ _ := rfl
  run _ _ := rfl
  queued i hi := by
    simp only [queuedMovement, removeEntry, setQueue_cc, List.find?_filter]
    congr 2
    funext e
    by_cases h : e.1 = i <;> simp [h, hi]
  pump _ := rfl
  slot := id

theorem apart_returnToIdle : Apart c s (returnToIdle c s) := by
  refine (apart_enterPhase c s .idle none none).trans ?_
  unfold returnToIdle releaseIdle
  generalize enterPhase c .idle none none s = u
  have idle : ∀ t : State, Apart c t (markPass (headerIdle t)) := fun t =>
    { cannon := fun i _ => by simp [markPass, State.cannon, headerIdle_cc]
      run := fun i _ => headerIdle_run i t
      queued := fun i _ => queuedMovement_of_cc (by simp [markPass, headerIdle_cc]) i
      pump := fun off => by rw [headerIdle_off off]; rfl
      slot := by simp [markPass, headerIdle_cc] }
  refine Apart.trans (t := applyDisposition c u) ?_ (idle (applyDisposition c u))
  exact {
    cannon := fun i _ => by simp [State.cannon]
    run := fun i hi => applyDisposition_run_other hi u
    queued := fun i _ => queuedMovement_of_cc (by simp) i
    pump := fun _ => by simp
    slot := by simp }

theorem apart_withdrawOpen : Apart c s (withdrawOpen c s) := (apart_removeEntry c s).trans (apart_returnToIdle c _)

theorem apart_commandClose : Apart c s (commandClose c s) := (apart_updateRun c s _).trans (apart_enterPhase c _ _ _ _)

theorem apart_beginClose : Apart c s (beginClose c s) := by
  unfold beginClose
  split
  · exact apart_commandClose c s
  · exact (apart_updateRun c s _).trans (apart_returnToIdle c _)

theorem apart_immediateClose : Apart c s (immediateClose c s) := by
  unfold immediateClose
  split
  · exact apart_withdrawOpen c s
  · exact (apart_removeEntry c s).trans (apart_beginClose c _)
  · exact (apart_removeEntry c s).trans (apart_beginClose c _)
  · exact (apart_removeEntry c s).trans (apart_beginClose c _)
  · exact .refl c s

theorem apart_setSlot (n : Nat) : Apart c s (s.setSlot (some n)) where
  cannon _ _ := rfl
  run _ _ := rfl
  queued _ _ := rfl
  pump _ := rfl
  slot h := by cases h

theorem apart_issueEntry (m : Movement) : Apart c s (issueEntry c m s) := by
  unfold issueEntry
  split
  · exact apart_enterPhase c s _ _ _
  · exact apart_beginClose c s
  · exact apart_beginClose c s
  · exact .refl c s

theorem apart_append (m : Movement) : Apart c s (s.setQueue (s.cc.queue ++ [(c, m)])) where
  cannon _ _ := rfl
  run _ _ := rfl
  queued i hi := by
    simp only [queuedMovement, setQueue_cc, List.find?_append]
    have other : ([(c, m)].find? fun e => decide (e.1 = i)) = none := by simp [Ne.symm hi]
    rw [other, Option.or_none]
  pump _ := rfl
  slot := id

theorem apart_enqueue (m : Movement) : Apart c s (enqueue c m s) := by
  unfold enqueue
  split
  · exact (apart_setSlot c s _).trans (apart_issueEntry c _ m)
  · exact apart_append c s m

theorem apart_queuedClose : Apart c s (queuedClose c s) := by
  unfold queuedClose
  split
  · exact apart_withdrawOpen c s
  · split
    · exact apart_enqueue c s _
    · exact .refl c s
  · exact (apart_enterPhase c s _ _ _).trans (apart_enqueue c _ _)
  · exact .refl c s

theorem apart_openRequest : Apart c s (openRequest c s) :=
  (apart_enterPhase c s _ _ _).trans (apart_enqueue c _ _)

end

end Sys2Proof.Machine
end

