-- ==== Sys2Proof/Proofs/Granted.lean ====
section
/-! SUPPORT. What the grant pass can do (R124 to R126): it opens cannons that stand ready and touches no
other, closes and suspends nothing, ends no run, and grants no run to an order that has its volume. -/

namespace Sys2Proof.Machine

/-- The cannon is IDLE, not excluded and not drift-blocked (R108). -/
def Cannon.Ready (d : Cannon) : Prop := d.phase = .idle ∧ d.excluded = false ∧ d.driftBlocked = false

/-- What the grants between s and t have left. -/
structure Granted (s t : State) : Prop where
  spared : ∀ c, ¬ (s.cannon c).Ready →
    t.cannon c = s.cannon c ∧ t.run c = s.run c ∧ queuedMovement t c = queuedMovement s c
  orders : t.sd.orders = s.sd.orders
  suspensions : t.sd.suspensions = s.sd.suspensions
  stays : ∀ c, ∀ r ∈ s.run c, ∃ x ∈ t.run c, x.origin = r.origin
  entered : ∀ c, ∀ x ∈ t.run c, (∃ r ∈ s.run c, r.origin = x.origin) ∨ x.origin = .auto ∨
    ∃ k, x.origin = .order k ∧ ∃ o ∈ s.order k, o.delivered < o.volume

theorem order_of_orders {s t : State} (h : t.sd.orders = s.sd.orders) (k : Nat) : t.order k = s.order k := by
  rw [State.order, h, State.order]

theorem Granted.refl (s : State) : Granted s s :=
  ⟨fun _ _ => ⟨rfl, rfl, rfl⟩, rfl, rfl, fun _ r hr => ⟨r, hr, rfl⟩, fun _ x hx => .inl ⟨x, hx, rfl⟩⟩

/-- One more cannon is opened that was ready at first. -/
theorem Granted.opens {s t u : State} {c : Fin 32} (h : Granted s t) (ready : (s.cannon c).Ready)
    (apart : Apart c t u) (orders : u.sd.orders = t.sd.orders) (suspensions : u.sd.suspensions = t.sd.suspensions)
    (stays : ∀ r ∈ t.run c, ∃ x ∈ u.run c, x.origin = r.origin)
    (entered : ∀ x ∈ u.run c, (∃ r ∈ t.run c, r.origin = x.origin) ∨ x.origin = .auto ∨
      ∃ k, x.origin = .order k ∧ ∃ o ∈ t.order k, o.delivered < o.volume) : Granted s u where
  spared i hi := by
    have other : i ≠ c := fun e => hi (e ▸ ready)
    obtain ⟨cannon, run, queued⟩ := h.spared i hi
    exact ⟨(apart.cannon i other).trans cannon, (apart.run i other).trans run, (apart.queued i other).trans queued⟩
  orders := orders.trans h.orders
  suspensions := suspensions.trans h.suspensions
  stays i r hr := by
    obtain ⟨x, hx, origin⟩ := h.stays i r hr
    by_cases hi : i = c
    · subst hi
      obtain ⟨y, hy, same⟩ := stays x hx
      exact ⟨y, hy, same.trans origin⟩
    · exact ⟨x, by rw [apart.run i hi]; exact hx, origin⟩
  entered i x hx := by
    by_cases hi : i = c
    · subst hi
      rcases entered x hx with ⟨r, hr, same⟩ | auto | ⟨k, order, o, ho, open_⟩
      · rw [← same]
        exact h.entered i r hr
      · exact .inr (.inl auto)
      · exact .inr (.inr ⟨k, order, o, by rw [← order_of_orders h.orders k]; exact ho, open_⟩)
    · rw [apart.run i hi] at hx
      exact h.entered i x hx

/-- What touches neither the cannons nor the work grants nothing. -/
theorem Granted.frame {s t u : State} (h : Granted s t) (cc : u.cc = t.cc) (runs : u.sd.runs = t.sd.runs)
    (orders : u.sd.orders = t.sd.orders) (suspensions : u.sd.suspensions = t.sd.suspensions) : Granted s u := by
  have run : ∀ c, u.run c = t.run c := fun c => by rw [State.run, runs, State.run]
  exact {
    spared := fun c hc => by
      have queued : queuedMovement u c = queuedMovement t c := queuedMovement_of_cc (by rw [cc]) c
      rw [State.cannon, cc, run, queued]
      exact h.spared c hc
    orders := orders.trans h.orders
    suspensions := suspensions.trans h.suspensions
    stays := fun c r hr => by rw [run]; exact h.stays c r hr
    entered := fun c x hx => h.entered c x (by rw [← run]; exact hx) }

theorem openRequest_sd (c : Fin 32) (s : State) : (openRequest c s).sd = s.sd := by
  unfold openRequest enqueue
  split
  · simp only [issueEntry, setSlot_cannon, enterPhase_cannon, if_true]
    rw [enterPhase_sd, setSlot_sd, enterPhase_sd]
  · rw [setQueue_sd, enterPhase_sd]

theorem openRequest_run (c i : Fin 32) (s : State) : (openRequest c s).run i = s.run i := by
  rw [State.run, openRequest_sd, State.run]

theorem ready_of_couldSpray {s : State} {c : Fin 32} (h : couldSpray s c = true) : (s.cannon c).Ready := by
  simp only [couldSpray, Bool.and_eq_true, decide_eq_true_eq, Bool.not_eq_true'] at h
  obtain ⟨⟨⟨⟨⟨-, phase⟩, excluded⟩, drift⟩, -⟩, -⟩ := h
  exact ⟨phase, excluded, drift⟩

theorem Granted.resumeRun {s t : State} {c : Fin 32} (h : Granted s t) (ready : (s.cannon c).Ready) :
    Granted s (resumeRun c t) := by
  unfold Machine.resumeRun
  refine h.opens ready ((apart_updateRun c t _).trans (apart_openRequest c _)) ?_ ?_ ?_ ?_
  · rw [openRequest_sd, updateRun_orders]
  · rw [openRequest_sd, updateRun_suspensions]
  · intro r hr
    rw [openRequest_run, updateRun_run, if_pos rfl, Option.mem_def.1 hr]
    exact ⟨_, rfl, rfl⟩
  · intro x hx
    rw [openRequest_run, updateRun_run, if_pos rfl, Option.mem_def, Option.map_eq_some_iff] at hx
    obtain ⟨r, hr, rfl⟩ := hx
    exact .inl ⟨r, hr, rfl⟩

theorem Granted.newRun {s t : State} {c : Fin 32} {o : Origin} (h : Granted s t) (ready : (s.cannon c).Ready)
    (free : t.run c = none)
    (origin : o = .auto ∨ ∃ k, o = .order k ∧ ∃ x ∈ t.order k, x.delivered < x.volume) (tier : Option (Fin 4))
    (n : Nat) : Granted s (newRun c o tier n t) := by
  have other : Apart c t (t.setRun c (some ⟨(t.cannon c).config.pile, o, tier, n, 0, .active .none none⟩)) :=
    { Apart.refl c t with run := fun i hi => by rw [setRun_run, if_neg hi] }
  unfold Machine.newRun
  refine h.opens ready (other.trans (apart_openRequest c _)) ?_ ?_ ?_ ?_
  · rw [openRequest_sd]; rfl
  · rw [openRequest_sd]; rfl
  · intro r hr
    rw [free] at hr
    cases hr
  · intro x hx
    rw [openRequest_run, setRun_run, if_pos rfl] at hx
    obtain rfl := Option.some.inj hx
    exact .inr origin

/-! ## The three steps -/

/-- Cannons open only from where they were ready before the pass. -/
theorem Granted.ready {s t : State} {c : Fin 32} (h : Granted s t) (ready : (t.cannon c).Ready) :
    (s.cannon c).Ready := by
  by_contra barred
  rw [(h.spared c barred).1] at ready
  exact barred ready

theorem Granted.foldl {α : Type} {s : State} {f : Pass → α → Pass}
    (step : ∀ q a, Granted s q.s → Granted s (f q a).s) (l : List α) (p : Pass) (h : Granted s p.s) :
    Granted s (l.foldl f p).s := by
  induction l generalizing p with
  | nil => exact h
  | cons a l ih => exact ih _ (step p a h)

theorem Granted.resumeOrderAt {s : State} {p : Pass} (h : Granted s p.s) (k : Nat) (c : Fin 32) :
    Granted s (resumeOrderAt k p c).s := by
  unfold Machine.resumeOrderAt Pass.attempt
  split
  · split
    · rename_i free
      simp only [Bool.and_eq_true] at free
      split
      · exact h.resumeRun (h.ready (ready_of_couldSpray (couldSpray_of_freeToResume free.2)))
      · exact h
    · exact h
  · exact h

theorem Granted.grantOrderAt {s : State} {k : Nat} {q : Fin 24} {acc : Pass × Nat} (h : Granted s acc.1.s)
    (left : 0 < acc.2 → ∃ o ∈ s.order k, o.delivered < o.volume) (c : Fin 32) :
    Granted s (grantOrderAt k q acc c).1.s ∧
      (0 < (grantOrderAt k q acc c).2 → ∃ o ∈ s.order k, o.delivered < o.volume) := by
  unfold Machine.grantOrderAt Pass.attempt
  simp only
  split
  · rename_i can
    simp only [Bool.and_eq_true, decide_eq_true_eq] at can
    obtain ⟨⟨some_left, eligible⟩, -⟩ := can
    have free : acc.1.s.run c = none := by
      simp only [Machine.eligible, Bool.and_eq_true, Option.isNone_iff_eq_none] at eligible
      exact eligible.2
    refine ⟨?_, fun _ => left some_left⟩
    split
    · refine h.newRun (h.ready (ready_of_couldSpray (couldSpray_of_eligible eligible))) free (.inr ⟨k, rfl, ?_⟩) _ _
      rw [order_of_orders h.orders]
      exact left some_left
    · exact h
  · exact ⟨h, left⟩

theorem Granted.serveOrder {s : State} {p : Pass} (h : Granted s p.s) (k : Nat) : Granted s (serveOrder p k).s := by
  have grants : ∀ (i : Fin 24) (l : List (Fin 32)) (acc : Pass × Nat), Granted s acc.1.s →
      (0 < acc.2 → ∃ o ∈ s.order k, o.delivered < o.volume) →
      Granted s (l.foldl (Machine.grantOrderAt k i) acc).1.s := by
    intro i l
    induction l with
    | nil => exact fun acc ha _ => ha
    | cons c l ih =>
      intro acc ha left
      obtain ⟨hb, left'⟩ := ha.grantOrderAt left c
      exact ih _ hb left'
  unfold Machine.serveOrder
  split
  · exact h
  · rename_i o ho
    refine grants _ _ _ (foldl (fun _ c hq => hq.resumeOrderAt k c) _ p h) fun left => ⟨o, ?_, ?_⟩
    · rw [← order_of_orders h.orders]
      exact ho
    · simp only [undelivered] at left
      omega

theorem Granted.resumeAutos {s : State} (l : List (Fin 32)) (ready : ∀ c ∈ l, (s.cannon c).Ready) (p : Pass)
    (h : Granted s p.s) : Granted s (l.foldl resumeAutoAt p).s := by
  induction l generalizing p with
  | nil => exact h
  | cons c l ih =>
    refine ih (fun i hi => ready i (List.mem_cons_of_mem _ hi)) _ ?_
    unfold resumeAutoAt Pass.attempt
    split
    · split
      · split
        · exact h.resumeRun (ready c (List.mem_cons_self ..))
        · exact h
      · exact h
    · exact h

theorem Granted.grantAutoAt {s : State} {p : Pass} (h : Granted s p.s) (i : Fin 24) (c : Fin 32) :
    Granted s (grantAutoAt i p c).s := by
  unfold Machine.grantAutoAt Pass.attempt
  simp only
  split
  · rename_i can
    simp only [Bool.and_eq_true] at can
    obtain ⟨⟨-, eligible⟩, -⟩ := can
    have free : p.s.run c = none := by
      simp only [Machine.eligible, Bool.and_eq_true, Option.isNone_iff_eq_none] at eligible
      exact eligible.2
    split
    · exact (h.newRun (h.ready (ready_of_couldSpray (couldSpray_of_eligible eligible))) free (.inl rfl) _ _).frame
        rfl rfl rfl rfl
    · exact h
  · exact h

theorem Granted.servePile {s : State} {p : Pass} (h : Granted s p.s) (i : Fin 24) : Granted s (servePile p i).s := by
  unfold Machine.servePile
  split
  · exact h
  · exact foldl (fun _ c hq => hq.grantAutoAt i c) _ p h

theorem Granted.grantReport {s t : State} (h : Granted s t) : Granted s (grantReport t) := by
  unfold Machine.grantReport pumpTo
  split
  · exact h.frame (by simp) (by simp) (by simp) (by simp)
  · exact h

theorem Granted.startRequest {s t : State} (h : Granted s t) : Granted s (startRequest t) := by
  unfold Machine.startRequest pumpTo
  split
  · split
    · exact h.frame (by simp) (by simp) (by simp) (by simp)
    · exact h
  · exact h

theorem Granted.headerIdle {s t : State} (h : Granted s t) : Granted s (headerIdle t) :=
  h.frame (headerIdle_cc t) (by rw [headerIdle_sd]) (by rw [headerIdle_sd]) (by rw [headerIdle_sd])

theorem granted_passSteps (s : State) : Granted s (passSteps s).s := by
  have served := Granted.foldl (fun _ k hq => hq.serveOrder k) (openWetOrders s) ⟨s, false, false⟩ (.refl s)
  have resumed := Granted.resumeAutos (resumableAuto ((openWetOrders s).foldl serveOrder ⟨s, false, false⟩).s)
    (fun c hc => served.ready (ready_of_couldSpray (couldSpray_of_freeToResume (freeToResume_of_mem_resumableAuto hc))))
    _ served
  unfold passSteps
  simp only
  split
  · exact Granted.foldl (fun _ i hq => hq.servePile i) _ _ resumed
  · exact resumed

theorem granted_grantPass (s : State) : Granted s (grantPass s) := by
  unfold grantPass
  simp only
  have reported : Granted s (if (passSteps s).granted then grantReport (passSteps s).s else (passSteps s).s) := by
    split
    · exact (granted_passSteps s).grantReport
    · exact granted_passSteps s
  split
  · exact reported.startRequest.headerIdle
  · exact reported.headerIdle

/-- What an event adds to its own work is the grant pass it may owe (R124). -/
theorem granted_inEvent (s : State) (f : State → State) : Granted (f (s.setPass false)) (inEvent f s) := by
  rcases inEvent_cases s f with e | e
  · rw [e]; exact .refl _
  · rw [e]; exact (granted_grantPass _).frame rfl rfl rfl rfl

end Sys2Proof.Machine
end

