-- ==== Sys2Proof/Proofs/FlagSweeps.lean ====
section
/-! SUPPORT. The two sweeps that judge every cannon's flag in ascending order: exclusion (R106, R107) and
drift (R103, R104). What both leave unchanged, and where they leave a cannon newly excluded. -/

namespace Sys2Proof.Machine

/-- What a judgement of the cannons' flags leaves unchanged. -/
structure Steady (s t : State) : Prop where
  pins : t.pins = s.pins
  yc : t.yc = s.yc
  wfe : t.wfe = s.wfe
  ft : t.ft = s.ft
  bwu : t.bwu = s.bwu
  site : t.site = s.site
  mau : t.mau = { s.mau with alerts := t.mau.alerts }
  machines : t.cc.machines = s.cc.machines
  ponds : t.wiu.ponds = s.wiu.ponds
  today : t.wiu.today = s.wiu.today
  previous : t.wiu.previous = s.wiu.previous
  pile : ∀ p, t.pile p = { s.pile p with hold := (t.pile p).hold }
  cannon : ∀ c, t.cannon c = { s.cannon c with
    phase := (t.cannon c).phase, travel := (t.cannon c).travel, lostWater := (t.cannon c).lostWater
    driftBlocked := (t.cannon c).driftBlocked, excluded := (t.cannon c).excluded }
  notices : s.lc.notices <+: t.lc.notices

theorem Within.steady {s t : State} (h : Within s t) : Steady s t where
  pins := h.pins
  yc := h.yc
  wfe := h.wfe
  ft := h.ft
  bwu := h.bwu
  site := h.site
  mau := h.mau
  machines := h.machines
  ponds := h.ponds
  today := h.today
  previous := h.previous
  pile := h.pile
  cannon c := by rw [h.cannon c]
  notices := h.posts.keeps

theorem Steady.refl (s : State) : Steady s s := (Within.refl s).steady

theorem Steady.trans {s t u : State} (h : Steady s t) (k : Steady t u) : Steady s u where
  pins := k.pins.trans h.pins
  yc := k.yc.trans h.yc
  wfe := k.wfe.trans h.wfe
  ft := k.ft.trans h.ft
  bwu := k.bwu.trans h.bwu
  site := k.site.trans h.site
  mau := by rw [k.mau, h.mau]
  machines := k.machines.trans h.machines
  ponds := k.ponds.trans h.ponds
  today := k.today.trans h.today
  previous := k.previous.trans h.previous
  pile p := by rw [k.pile, h.pile]
  cannon c := by rw [k.cannon, h.cannon]
  notices := h.notices.trans k.notices

theorem steady_setFlags (c : Fin 32) (x y : Bool) (s : State) :
    Steady s (s.setCannon c { s.cannon c with driftBlocked := x, excluded := y }) :=
  { Steady.refl s with
    cannon := fun i => by
      rw [setCannon_cannon]
      split
      · rename_i hi; rw [hi]
      · rfl }

/-! ## Sweeps in ascending order -/

theorem foldl_finRange_induct {n : Nat} {α : Type} {P : Nat → α → Prop} {f : α → Fin n → α} {a : α} (zero : P 0 a)
    (step : ∀ (i : Fin n) a, P i.val a → P (i.val + 1) (f a i)) : P n ((List.finRange n).foldl f a) := by
  have upTo : ∀ k (hk : k ≤ n), P k (((List.finRange n).take k).foldl f a) := by
    intro k
    induction k with
    | zero => exact fun _ => zero
    | succ k ih =>
      intro hk
      have next : (List.finRange n)[k]? = some ⟨k, hk⟩ := by
        rw [List.getElem?_eq_getElem (by simpa using hk), List.getElem_finRange]
        rfl
      rw [List.take_add_one, next, List.foldl_append]
      exact step ⟨k, hk⟩ _ (ih (Nat.le_of_succ_le hk))
  have whole := upTo n (Nat.le_refl n)
  rwa [List.take_of_length_le (by simp)] at whole

/-- A sweep over the cannons, by what it has done to those below the next. -/
theorem forCannons_induct {P : Nat → State → Prop} {f : Fin 32 → State → State} {s : State} (zero : P 0 s)
    (step : ∀ c t, P c.val t → P (c.val + 1) (f c t)) : P 32 (forCannons f s) :=
  foldl_finRange_induct zero step

/-! ## A closed cannon -/

/-- The cannon neither waits to open nor is driven (R91, R93). -/
def Cannon.Shut (d : Cannon) : Prop :=
  d.phase ≠ .pendingOpen ∧ d.phase ≠ .opening ∧ d.phase ≠ .spraying ∧ d.phase ≠ .closePending

theorem valveDriven_of_shut {s : State} {c : Fin 32} (h : (s.cannon c).Shut) : valveDriven s c = false := by
  obtain ⟨-, opening, spraying, closing⟩ := h
  unfold valveDriven
  split
  · contradiction
  · contradiction
  · contradiction
  · rfl

theorem returnToIdle_cannon (c : Fin 32) (s : State) :
    (returnToIdle c s).cannon c = { s.cannon c with phase := .idle, travel := none, lostWater := none } := by
  have cc : (returnToIdle c s).cc = (enterPhase c .idle none none s).cc := by
    rw [returnToIdle, releaseIdle, markPass, setPass_cc, headerIdle_cc, applyDisposition_cc]
  rw [State.cannon, cc]
  exact (enterPhase_cannon c c _ _ _ _).trans (if_pos rfl)

theorem commandClose_cannon (c : Fin 32) (s : State) : (commandClose c s).cannon c = { s.cannon c with
    phase := .closing, travel := some (Config.seconds s.site.travel), lostWater := none } := by
  rw [commandClose, enterPhase_cannon, if_pos rfl, stopDelivery, updateRun_cannon]

theorem beginClose_cannon (c : Fin 32) (s : State) : (beginClose c s).cannon c =
    if feedbackOpen s c then { s.cannon c with
      phase := .closing, travel := some (Config.seconds s.site.travel), lostWater := none }
    else { s.cannon c with phase := .idle, travel := none, lostWater := none } := by
  unfold beginClose
  split
  · exact commandClose_cannon c s
  · rw [returnToIdle_cannon, stopDelivery, updateRun_cannon]

theorem beginClose_shut (c : Fin 32) (s : State) : ((beginClose c s).cannon c).Shut := by
  rw [beginClose_cannon]
  split <;> simp [Cannon.Shut]

theorem immediateClose_shut (c : Fin 32) (s : State) : ((immediateClose c s).cannon c).Shut := by
  unfold immediateClose
  split
  · rw [withdrawOpen, returnToIdle_cannon]
    simp [Cannon.Shut]
  · exact beginClose_shut c _
  · exact beginClose_shut c _
  · exact beginClose_shut c _
  · rename_i pending opening spraying closing
    exact ⟨pending, opening, spraying, closing⟩

/-! ## Exclusion -/

theorem shouldExclude_of_steady {s t : State} (h : Steady s t) (c : Fin 32) : shouldExclude t c = shouldExclude s c := by
  have cannon := h.cannon c
  have configured : (t.cannon c).configured = (s.cannon c).configured := by rw [cannon]
  have config : (t.cannon c).config = (s.cannon c).config := by rw [cannon]
  unfold shouldExclude excludes declared State.machine
  rw [configured, config, h.site, h.machines]

/-- The answer to an exclusion of one cannon newly judged (R106, R107). -/
theorem excludeAt_cases (c : Fin 32) (s : State) :
    ((s.cannon c).configured = false ∨ shouldExclude s c = (s.cannon c).excluded) ∧ excludeAt c s = s ∨
    shouldExclude s c = true ∧ (∃ d, excludeAt c s =
      immediateClose c (setDisposition c d (s.setCannon c { s.cannon c with excluded := true }))) ∨
    shouldExclude s c = false ∧ excludeAt c s = markPass (s.setCannon c { s.cannon c with excluded := false }) := by
  unfold excludeAt
  simp only
  split
  · rename_i h
    exact .inl ⟨h, rfl⟩
  · cases h : shouldExclude s c with
    | true => exact .inr (.inl ⟨rfl, _, rfl⟩)
    | false => exact .inr (.inr ⟨rfl, rfl⟩)

theorem excludeAt_setCannon_steady (c : Fin 32) (x : Bool) (s : State) :
    Steady s (s.setCannon c { s.cannon c with excluded := x }) := steady_setFlags c (s.cannon c).driftBlocked x s

theorem steady_excludeAt (c : Fin 32) (s : State) : Steady s (excludeAt c s) := by
  rcases excludeAt_cases c s with ⟨-, h⟩ | ⟨-, d, h⟩ | ⟨-, h⟩
  · rw [h]; exact .refl s
  · rw [h]
    exact (excludeAt_setCannon_steady c true s).trans
      ((within_setDisposition _ c d).trans (within_immediateClose _ c)).steady
  · rw [h]
    exact (excludeAt_setCannon_steady c false s).trans (within_markPass _).steady

theorem apart_excludeAt (c : Fin 32) (s : State) : Apart c s (excludeAt c s) := by
  rcases excludeAt_cases c s with ⟨-, h⟩ | ⟨-, d, h⟩ | ⟨-, h⟩
  · rw [h]; exact .refl c s
  · rw [h]
    exact (apart_setCannon c s _).trans ((apart_updateRun c _ _).trans (apart_immediateClose c _))
  · rw [h]
    exact { apart_setCannon c s _ with }

/-- The cannon's flag follows the machines of s, and a cannon newly excluded is shut. -/
def ExcludedAs (s : State) (c : Fin 32) (d : Cannon) : Prop :=
  ((s.cannon c).configured = true → d.excluded = shouldExclude s c) ∧
    ((s.cannon c).excluded = false → d.excluded = true → d.Shut)

theorem excludeAt_excludedAs (c : Fin 32) (s : State) : ExcludedAs s c ((excludeAt c s).cannon c) := by
  rcases excludeAt_cases c s with ⟨h, e⟩ | ⟨h, d, e⟩ | ⟨h, e⟩
  · rw [e]
    refine ⟨fun configured => ?_, fun off on => absurd on (by simp [off])⟩
    rcases h with free | same
    · rw [configured] at free; cases free
    · exact same.symm
  · rw [e]
    refine ⟨fun _ => ?_, fun _ _ => immediateClose_shut c _⟩
    rw [((within_setDisposition _ c d).trans (within_immediateClose _ c)).cannon, setCannon_cannon_same, h]
  · rw [e]
    have flag : ((markPass (s.setCannon c { s.cannon c with excluded := false })).cannon c).excluded = false := by
      rw [markPass, setPass_cannon, setCannon_cannon_same]
    exact ⟨fun _ => by rw [flag, h], fun _ on => absurd on (by rw [flag]; exact Bool.false_ne_true)⟩

theorem evaluateExclusion_excludedAs (s : State) :
    Steady s (evaluateExclusion s) ∧ ∀ c, ExcludedAs s c ((evaluateExclusion s).cannon c) := by
  have sweep := forCannons_induct (P := fun n t => Steady s t ∧
    ∀ c, if c.val < n then ExcludedAs s c (t.cannon c) else t.cannon c = s.cannon c) (f := excludeAt) (s := s)
    ⟨.refl s, fun c => by simp⟩ fun c t ⟨steady, judged⟩ => by
      refine ⟨steady.trans (steady_excludeAt c t), fun i => ?_⟩
      by_cases hi : i = c
      · subst hi
        have found : t.cannon i = s.cannon i := by simpa using judged i
        have own := excludeAt_excludedAs i t
        rw [ExcludedAs, found, shouldExclude_of_steady steady] at own
        rw [if_pos (Nat.lt_succ_self _)]
        exact own
      · have ne : i.val ≠ c.val := fun e => hi (Fin.ext e)
        have before : i.val < c.val + 1 ↔ i.val < c.val := by omega
        simp only [(apart_excludeAt c t).cannon i hi, before]
        exact judged i
  obtain ⟨steady, judged⟩ := sweep
  exact ⟨steady, fun c => (if_pos c.isLt).mp (judged c)⟩

end Sys2Proof.Machine
end

