-- ==== Sys2Proof/Proofs/SiteSetup.lean ====
section
/-! SUPPORT. SITE_SETUP (R158): what each block makes of the new figures, and what all of them leave. -/

namespace Sys2Proof.Machine

/-! ## Closed orders stand -/

/-- A list without an OPEN order is unchanged. -/
def OrdersStand (s t : State) : Prop :=
  (∀ k, ∀ o ∈ s.order k, o.closure.isSome = true) → t.sd.orders = s.sd.orders

theorem OrdersStand.trans {s t u : State} (h : OrdersStand s t) (k : OrdersStand t u) : OrdersStand s u := by
  intro closed
  have same := h closed
  exact (k fun i o ho => closed i o (by rw [← order_of_orders same i]; exact ho)).trans same

theorem sprayRules_ordersStand : SprayRules OrdersStand where
  refl _ _ := rfl
  trans := OrdersStand.trans
  run _ _ _ _ := rfl
  complete s k closed := by
    rcases completeIfDone_cases k s with ⟨o, ho, ⟨-, open_, -⟩, -⟩ | ⟨h, -⟩
    · have is := closed k o ho
      rw [open_] at is
      cases is
    · rw [h]
  suspensions _ _ _ := rfl
  pass _ _ _ := rfl
  pump _ _ _ := rfl
  queue _ _ _ := rfl
  slot _ _ _ := rfl
  demand _ _ _ _ := rfl
  post s n _ := by rw [post_sd]
  phase s c x n l _ _ := by rw [enterPhase_sd]

theorem ordersStand_of_sd {s t : State} (h : t.sd.orders = s.sd.orders) : OrdersStand s t := fun _ => h

theorem ordersStand_syncAlerts (es : List AlertId) (s : State) : OrdersStand s (syncAlerts es s) := by
  refine ordersStand_of_sd ?_
  induction es generalizing s with
  | nil => rfl
  | cons e es ih => rw [syncAlerts_cons, ih, syncAlert_sd]

theorem ordersStand_testFitness (before s : State) : OrdersStand s (testFitness before s) := by
  have chosen : ∀ t, (selectAnew t).sd = t.sd := by
    intro t
    unfold selectAnew
    repeat' split
    all_goals rfl
  have given : OrdersStand s (giveUpSource s) := by
    unfold giveUpSource
    split
    · exact fun _ => rfl
    · exact OrdersStand.trans (t := s.setPump ⟨.off, none, none⟩) (fun _ => rfl) (sprayRules_ordersStand.capacityLoss _)
  unfold testFitness
  split
  · split
    · exact given.trans (ordersStand_of_sd (by rw [forcedSwitch, post_sd, syncAlert_sd, chosen]))
    · exact fun _ => rfl
  · exact fun _ => rfl

theorem ordersStand_excludeAt (c : Fin 32) (s : State) : OrdersStand s (excludeAt c s) := by
  rcases excludeAt_cases c s with ⟨-, h⟩ | ⟨-, d, h⟩ | ⟨-, h⟩
  · rw [h]; exact fun _ => rfl
  · rw [h]
    refine OrdersStand.trans (t := s.setCannon c { s.cannon c with excluded := true }) (fun _ => rfl) ?_
    exact (sprayRules_ordersStand.updateRun _ c _).trans (sprayRules_ordersStand.immediateClose _ c)
  · rw [h]; exact fun _ => rfl

theorem ordersStand_evaluateExclusion (s : State) : OrdersStand s (evaluateExclusion s) :=
  sprayRules_ordersStand.forCannons s _ fun t c => ordersStand_excludeAt c t

/-! ## The pump set that has given up its source -/

theorem pumpOff_forCannons {f : Fin 32 → State → State} (h : ∀ c t, Apart c t (f c t)) {s : State}
    (off : s.wiu.pump.phase = .off) : (forCannons f s).wiu.pump = s.wiu.pump :=
  forCannons_induct (P := fun _ t => t.wiu.pump = s.wiu.pump) rfl fun c t same =>
    ((h c t).pump (by rw [same]; exact off)).trans same

theorem apart_loseCapacityAt (c : Fin 32) (s : State) : Apart c s (loseCapacityAt c s) := by
  have closes := fun d => (apart_updateRun c s fun r => { r with phase := r.phase.dispose d }).trans
    (apart_immediateClose c _)
  unfold loseCapacityAt
  split
  · exact .refl c s
  · split
    · exact .refl c s
    · split
      · exact closes _
      · exact closes _
      · exact closes _
      · exact closes _
      · exact .refl c s

theorem capacityLoss_pump_of_off {s : State} (off : s.wiu.pump.phase = .off) :
    (capacityLoss s).wiu.pump = s.wiu.pump := by
  unfold capacityLoss
  exact pumpOff_forCannons (f := loseCapacityAt) apart_loseCapacityAt (s := s) off

/-- In STANDBY a forced switch leaves the pump set OFF (R75). -/
theorem forcedSwitch_pump_of_standby {s : State} (standby : s.mau.mode = .standby) :
    (forcedSwitch s).wiu.pump = ⟨.off, none, none⟩ := by
  have given : (giveUpSource s).wiu.pump = ⟨.off, none, none⟩ := by
    unfold giveUpSource
    split
    · rfl
    · rw [capacityLoss_pump_of_off rfl, setPump_wiu]
  have mode : (giveUpSource s).mau.mode = .standby := by
    rw [(within_giveUpSource s).mau]
    exact standby
  rw [forcedSwitch, post_wiu, syncAlert_wiu, selectAnew, if_pos mode, given]

/-! ## The pass in STANDBY -/

theorem openWetOrders_of_closed {s : State} (closed : ∀ k, ∀ o ∈ s.order k, o.closure.isSome = true) :
    openWetOrders s = [] := by
  refine List.eq_nil_iff_forall_not_mem.2 fun k hk => ?_
  simp only [openWetOrders, mem_sortBy, List.mem_filter] at hk
  obtain ⟨-, found⟩ := hk
  cases ho : s.order k with
  | none => simp [ho] at found
  | some o =>
    have is := closed k o ho
    simp [ho, Option.isSome_iff_ne_none.1 is] at found

/-- Without an OPEN order the pass in STANDBY grants nothing and asks for no start (R108, R126). -/
theorem grantPass_of_standby {s : State} (standby : s.mau.mode = .standby)
    (closed : ∀ k, ∀ o ∈ s.order k, o.closure.isSome = true) : grantPass s = headerIdle s := by
  have none_ready : resumableAuto s = [] := by
    refine List.eq_nil_iff_forall_not_mem.2 fun c hc => ?_
    have could := couldSpray_of_freeToResume (freeToResume_of_mem_resumableAuto hc)
    simp [couldSpray, standby, spraysMode] at could
  have steps : passSteps s = ⟨s, false, false⟩ := by
    simp only [passSteps, openWetOrders_of_closed closed, List.foldl_nil, none_ready, standby]
    rfl
  rw [grantPass, steps]
  rfl

theorem inEvent_pump_of_standby {f : State → State} {s : State} (standby : (f (s.setPass false)).mau.mode = .standby)
    (closed : ∀ k, ∀ o ∈ (f (s.setPass false)).order k, o.closure.isSome = true)
    (off : (f (s.setPass false)).wiu.pump.phase = .off) :
    (inEvent f s).wiu.pump = (f (s.setPass false)).wiu.pump := by
  rcases inEvent_cases s f with h | h
  · rw [h]
  · rw [h, grantPass_of_standby standby closed, headerIdle_off off]
    rfl

/-! ## The day test (R23, R24) -/

/-- What the day test leaves unchanged. -/
structure Undated (s t : State) : Prop where
  pins : t.pins = s.pins
  ft : t.ft = s.ft
  cc : t.cc = s.cc
  orders : t.sd.orders = s.sd.orders
  bwu : t.bwu = s.bwu
  mode : t.mau.mode = s.mau.mode
  ponds : t.wiu.ponds = s.wiu.ponds
  pump : t.wiu.pump = s.wiu.pump
  yc : t.yc = { s.yc with recordedDay := t.yc.recordedDay }

theorem Undated.refl (s : State) : Undated s s := ⟨rfl, rfl, rfl, rfl, rfl, rfl, rfl, rfl, rfl⟩

theorem Undated.trans {s t u : State} (h : Undated s t) (k : Undated t u) : Undated s u where
  pins := k.pins.trans h.pins
  ft := k.ft.trans h.ft
  cc := k.cc.trans h.cc
  orders := k.orders.trans h.orders
  bwu := k.bwu.trans h.bwu
  mode := k.mode.trans h.mode
  ponds := k.ponds.trans h.ponds
  pump := k.pump.trans h.pump
  yc := by rw [k.yc, h.yc]

theorem forPiles_zeroDelivered (s : State) : ∃ piles, forPiles zeroDelivered s = s.setPau { s.pau with piles := piles } := by
  unfold forPiles
  generalize List.finRange 24 = l
  suffices h : ∀ piles, ∃ piles', l.foldl (fun t p => zeroDelivered p t) (s.setPau { s.pau with piles := piles }) =
      s.setPau { s.pau with piles := piles' } from h s.pau.piles
  induction l with
  | nil => exact fun piles => ⟨piles, rfl⟩
  | cons p l ih => exact fun piles => ih _

theorem closeDay_wiu (d : Nat) (s : State) : (closeDay d s).wiu =
    { s.wiu with previous := s.wiu.today, today := .empty (some d) } := by
  unfold closeDay waterEvent reportUsable
  split <;> simp [markPass]

theorem closeDay_cc (d : Nat) (s : State) : (closeDay d s).cc = s.cc := by
  unfold closeDay waterEvent reportUsable
  split <;> simp [markPass]

theorem closeDay_orders (d : Nat) (s : State) : (closeDay d s).sd.orders = s.sd.orders := by
  unfold closeDay waterEvent reportUsable
  split <;> simp [markPass]

theorem within_closeDay (d : Nat) (s : State) :
    Within ((s.setPrevious s.wiu.today).setToday (.empty (some d))) (closeDay d s) :=
  within_waterEvent (fun t => (t.setPrevious t.wiu.today).setToday (.empty (some d))) s

/-- The day closed off (R24). -/
theorem rollover_undated (s : State) : Undated s (rollover s) ∧
    (rollover s).yc.recordedDay = some (currentDay s) ∧
    (rollover s).wiu = { s.wiu with previous := s.wiu.today, today := .empty (some (currentDay s)) } ∧
    (∀ p, ((rollover s).pile p).deliveredToday = 0) ∧ .day ∈ (rollover s).lc.notices := by
  unfold rollover
  simp only
  generalize he : s.setYc { s.yc with recordedDay := some (currentDay s) } = v
  have closed := within_closeDay (currentDay s) v
  have wiu := closeDay_wiu (currentDay s) v
  have cc := closeDay_cc (currentDay s) v
  have orders := closeDay_orders (currentDay s) v
  generalize closeDay (currentDay s) v = u at *
  have pile : ∀ p, ((forPiles zeroDelivered u).pile p).deliveredToday = 0 := fun p => by
    rw [forPiles_pile zeroDelivered (fun d => { d with deliveredToday := 0 })]
    intro p t q
    rw [zeroDelivered, setPile_pile]
  obtain ⟨piles, zeroed⟩ := forPiles_zeroDelivered u
  rw [zeroed] at pile ⊢
  subst he
  have mode : u.mau.mode = s.mau.mode := by rw [closed.mau]; rfl
  have ponds : u.wiu.ponds = s.wiu.ponds := by rw [wiu]; rfl
  have pump : u.wiu.pump = s.wiu.pump := by rw [wiu]; rfl
  refine ⟨⟨?_, ?_, ?_, ?_, ?_, ?_, ?_, ?_, ?_⟩, ?_, ?_, fun p => ?_, ?_⟩
  · rw [post_pins]; exact closed.pins
  · rw [post_ft]; exact closed.ft
  · rw [post_cc]; exact cc
  · rw [post_sd]; exact orders
  · rw [post_bwu]; exact closed.bwu
  · rw [post_mau]; exact mode
  · rw [post_wiu]; exact ponds
  · rw [post_wiu]; exact pump
  · rw [post_yc, setPau_yc, closed.yc]; rfl
  · rw [post_yc, setPau_yc, closed.yc]; rfl
  · rw [post_wiu]; exact wiu
  · rw [post_pile]; exact pile p
  · exact (mem_post _ _ _).2 (.inl rfl)

/-- The day test, by the recorded day that it finds (R23). -/
theorem rolloverTest_dated (s : State) :
    Undated s (rolloverTest s) ∧ DayTested (dayNumber s.yc.time s.site.dayOffset) s (rolloverTest s) := by
  unfold rolloverTest DayTested
  cases h : s.yc.recordedDay with
  | none => exact ⟨⟨rfl, rfl, rfl, rfl, rfl, rfl, rfl, rfl, rfl⟩, rfl, rfl, rfl⟩
  | some d =>
    simp only
    change _ ∧ if d < currentDay s then _ else _
    split
    · obtain ⟨undated, day, wiu, pile, notice⟩ := rollover_undated s
      exact ⟨undated, day, by rw [wiu]; rfl, by rw [wiu], pile, notice⟩
    · exact ⟨.refl s, h, rfl, rfl⟩

/-! ## The blocks, one after another -/

/-- The masts and the gauge after the request (R5, R16). -/
theorem refitted_wfe (x y g : Bool) (s : State) : (refitGauge g (refitMast x y s)).wfe =
    { s.wfe with masts := (refitMast x y s).wfe.masts, bounce := if g then s.wfe.bounce else none } := by
  obtain ⟨masts, h⟩ := refitMast_writes s x y
  unfold refitGauge
  rw [h]
  cases g <;> simp

theorem refitMast_mast (x y : Bool) (s : State) : (refitMast x y s).mast 1 = (match x, y with
      | true, false => { s.mast 1 with sample := none, zeroRun := 0, suspect := false, declaredOut := false }
      | false, true => ⟨0, none, 0, false, false⟩
      | _, _ => s.mast 1) ∧
    (refitMast x y s).mast 0 =
      if x = true ∧ y = false then { s.mast 0 with suspect := false } else s.mast 0 := by
  cases x <;> cases y <;> simp [refitMast, Mast.reset, setMast_mast]

theorem refitMast_frame (x y : Bool) (s : State) : Undated s (refitMast x y s) ∧ (refitMast x y s).yc = s.yc ∧
    (refitMast x y s).wiu = s.wiu ∧ (refitMast x y s).site = s.site := by
  obtain ⟨masts, h⟩ := refitMast_writes s x y
  rw [h]
  refine ⟨⟨?_, ?_, ?_, ?_, ?_, ?_, ?_, ?_, ?_⟩, ?_, ?_, ?_⟩ <;> simp

theorem refitGauge_frame (g : Bool) (s : State) : Undated s (refitGauge g s) ∧ (refitGauge g s).yc = s.yc ∧
    (refitGauge g s).wiu = s.wiu ∧ (refitGauge g s).site = s.site := by
  unfold refitGauge
  split
  · exact ⟨.refl s, rfl, rfl, rfl⟩
  · exact ⟨⟨rfl, rfl, rfl, rfl, rfl, rfl, rfl, rfl, rfl⟩, rfl, rfl, rfl⟩

theorem siteDated_wfe (v : Site) (s : State) : (siteDated v s).wfe = { s.wfe with
      masts := (refitMast s.site.mast1Fitted v.mast1Fitted (s.setSite v)).wfe.masts
      bounce := if v.gaugeFitted then s.wfe.bounce else none } := by
  rw [siteDated, retestDay_wfe, refitted_wfe]
  rfl

theorem siteDated_mast (m : Fin 2) (v : Site) (s : State) :
    (siteDated v s).mast m = (refitMast s.site.mast1Fitted v.mast1Fitted (s.setSite v)).mast m := by
  rw [State.mast, siteDated_wfe]
  rfl

/-- The clock and the day totals after the request (R23, R24, R82, R83). -/
theorem siteDated_dated (v : Site) (s : State) : Undated s (siteDated v s) ∧
    if v.dayOffset ≠ s.site.dayOffset ∧ s.yc.valid = true then
      DayTested (dayNumber s.yc.time v.dayOffset) s (siteDated v s)
    else (siteDated v s).yc = s.yc ∧ WaterFrame s (siteDated v s) := by
  obtain ⟨mastUndated, mastYc, mastWiu, mastSite⟩ := refitMast_frame s.site.mast1Fitted v.mast1Fitted (s.setSite v)
  unfold siteDated
  generalize refitMast s.site.mast1Fitted v.mast1Fitted (s.setSite v) = a at *
  obtain ⟨gaugeUndated, gaugeYc, gaugeWiu, gaugeSite⟩ := refitGauge_frame v.gaugeFitted a
  generalize refitGauge v.gaugeFitted a = b at *
  have yc : b.yc = s.yc := gaugeYc.trans mastYc
  have wiu : b.wiu = s.wiu := gaugeWiu.trans mastWiu
  have site : b.site = v := gaugeSite.trans mastSite
  have undated : Undated s b :=
    Undated.trans (t := s.setSite v) ⟨rfl, rfl, rfl, rfl, rfl, rfl, rfl, rfl, rfl⟩ (mastUndated.trans gaugeUndated)
  unfold retestDay
  rw [site, yc]
  by_cases changed : v.dayOffset ≠ s.site.dayOffset ∧ s.yc.valid = true
  · obtain ⟨day, tested⟩ := rolloverTest_dated b
    rw [if_pos changed, if_pos ⟨changed.1.symm, changed.2⟩]
    refine ⟨undated.trans day, ?_⟩
    simpa only [DayTested, yc, wiu, site] using tested
  · rw [if_neg changed, if_neg fun same => changed ⟨same.1.symm, same.2⟩]
    exact ⟨undated, yc, by rw [wiu], by rw [wiu], by rw [wiu]⟩

theorem within_testFitness (before s : State) : Within s (testFitness before s) := by
  unfold testFitness
  split
  · split
    · exact within_forcedSwitch s
    · exact .refl s
  · exact .refl s

theorem within_retested (before : State) (b : Site) (s : State) :
    Within s (retestWater before (retestForecast b s)) := by
  have forecast : Within s (retestForecast b s) := by
    unfold retestForecast
    split
    · exact within_syncAlert s _
    · exact .refl s
  exact forecast.trans ((within_testFitness before _).trans
    ((within_syncAlerts _ _).trans (within_reportUsable before _)))

theorem ordersStand_retested (before : State) (b : Site) (s : State) :
    OrdersStand s (retestWater before (retestForecast b s)) := by
  have forecast : OrdersStand s (retestForecast b s) := by
    unfold retestForecast
    split
    · exact ordersStand_of_sd (by rw [syncAlert_sd])
    · exact ordersStand_of_sd rfl
  have reported : ∀ t, OrdersStand t (reportUsable before t) := by
    intro t
    unfold reportUsable
    split <;> exact ordersStand_of_sd rfl
  exact forecast.trans ((ordersStand_testFitness before _).trans ((ordersStand_syncAlerts _ _).trans (reported _)))

/-- A main that feeds the header and is fit no more is given up (R67, R75). -/
theorem retested_pump {before s : State} (b : Site) (standby : s.mau.mode = .standby)
    (source : s.wiu.pump.source = some .fresh) (on : s.wiu.pump.phase ≠ .off) (was : fit before .fresh = true)
    (lost : fit s .fresh = false) : (retestWater before (retestForecast b s)).wiu.pump = ⟨.off, none, none⟩ := by
  have same : (retestForecast b s).wiu = s.wiu ∧ (retestForecast b s).mau.mode = s.mau.mode ∧
      fit (retestForecast b s) .fresh = fit s .fresh := by
    unfold retestForecast
    split
    · exact ⟨syncAlert_wiu _ _, syncAlert_mode _ _, by unfold fit freshUsed; rw [syncAlert_wiu, syncAlert_site]⟩
    · exact ⟨rfl, rfl, rfl⟩
  generalize retestForecast b s = t at *
  obtain ⟨wiu, mode, fresh⟩ := same
  have switched : testFitness before t = forcedSwitch t := by
    rw [testFitness, wiu, source]
    exact if_pos ⟨on, was, fresh.trans lost⟩
  have pump := forcedSwitch_pump_of_standby (mode.trans standby)
  unfold retestWater reportUsable
  rw [switched]
  split <;> simpa [markPass] using pump

/-! ## The machines (R105, R106) -/

/-- A machine no longer declared is as never reported (R105). -/
theorem undeclared_machine (s : State) : ∃ machines, (List.finRange 4).foldl (fun t m => undeclare m t) s =
    { s with cc := { s.cc with machines := machines } } ∧
    ∀ m, machines.get m = if m.val < s.site.machines then s.machine m else .reset := by
  have sweep := foldl_finRange_induct (n := 4) (f := fun t m => undeclare m t) (a := s)
    (P := fun n t => ∃ machines, t = { s with cc := { s.cc with machines := machines } } ∧
      ∀ m : Fin 4, machines.get m = if m.val < s.site.machines ∨ n ≤ m.val then s.machine m else .reset)
    ⟨s.cc.machines, rfl, fun m => by simp; rfl⟩ ?_
  · obtain ⟨machines, h, get⟩ := sweep
    refine ⟨machines, h, fun m => ?_⟩
    have last : ¬ 4 ≤ m.val := by omega
    rw [get]
    simp only [last, or_false]
  · rintro m t ⟨machines, rfl, get⟩
    unfold undeclare
    split
    · rename_i known
      have known : m.val < s.site.machines := of_decide_eq_true known
      refine ⟨machines, rfl, fun i => ?_⟩
      rw [get]
      by_cases hi : i = m
      · subst hi; simp [known]
      · have ne : i.val ≠ m.val := fun e => hi (Fin.ext e)
        have next : m.val ≤ i.val ↔ m.val + 1 ≤ i.val := by omega
        simp only [next]
    · rename_i unknown
      have unknown : ¬ m.val < s.site.machines := fun known => unknown (decide_eq_true known)
      refine ⟨machines.set m .reset, rfl, fun i => ?_⟩
      rw [Table.get_set, get]
      by_cases hi : i = m
      · subst hi; simp [unknown]
      · have ne : i.val ≠ m.val := fun e => hi (Fin.ext e)
        have next : m.val ≤ i.val ↔ m.val + 1 ≤ i.val := by omega
        simp only [next, hi, if_false]

theorem redeclare_cases (b : Site) (s : State) : ∃ machines,
    (∀ m, machines.get m = if m.val < s.site.machines then s.machine m else .reset) ∧
    redeclare b s = if b.machines ≠ s.site.machines ∨ b.guardZone ≠ s.site.guardZone then
        evaluateExclusion (syncAlerts ((List.finRange 4).map .machineStale)
          { s with cc := { s.cc with machines := machines } })
      else syncAlerts ((List.finRange 4).map .machineStale) { s with cc := { s.cc with machines := machines } } := by
  obtain ⟨machines, h, get⟩ := undeclared_machine s
  exact ⟨machines, get, by rw [redeclare, h]⟩

end Sys2Proof.Machine
end

