-- ==== Sys2Proof/Proofs/SiteLaw.lean ====
section
/-! SUPPORT. The obligation about SITE_SETUP. -/

namespace Sys2Proof.Machine

/-- The steps of SITE_SETUP up to the water. -/
def siteWatered (v : Site) (s : State) : State := retestWater s (retestForecast s.site (siteDated v s))

theorem within_siteWatered (v : Site) (s : State) : Within (siteDated v s) (siteWatered v s) := within_retested s _ _

theorem syncAlerts_wiu (es : List AlertId) (s : State) : (syncAlerts es s).wiu = s.wiu := by
  induction es generalizing s with
  | nil => rfl
  | cons e es ih => rw [syncAlerts_cons, ih, syncAlert_wiu]

theorem syncAlerts_cannon (es : List AlertId) (c : Fin 32) (s : State) : (syncAlerts es s).cannon c = s.cannon c := by
  induction es generalizing s with
  | nil => rfl
  | cons e es ih => rw [syncAlerts_cons, ih, syncAlert_cannon]

theorem evaluateExclusion_pump_of_off {s : State} (off : s.wiu.pump.phase = .off) :
    (evaluateExclusion s).wiu.pump = s.wiu.pump := by
  unfold evaluateExclusion
  exact pumpOff_forCannons (f := excludeAt) apart_excludeAt (s := s) off

/-- The last steps, over the machines that are still declared (R105, R106). -/
theorem siteStep_cases (v : Site) (s : State) : ∃ machines x, x = { siteWatered v s with
      cc := { (siteWatered v s).cc with machines := machines } } ∧
    (∀ m, machines.get m = if m.val < v.machines then s.machine m else .reset) ∧
    Steady x (siteStep v s) ∧ OrdersStand x (siteStep v s) ∧
    (x.wiu.pump.phase = .off → (siteStep v s).wiu.pump = x.wiu.pump) ∧
    (v.machines ≠ s.site.machines ∨ v.guardZone ≠ s.site.guardZone →
      ∀ c, ExcludedAs x c ((siteStep v s).cannon c)) := by
  obtain ⟨machines, get, h⟩ := redeclare_cases s.site (siteWatered v s)
  have site : (siteWatered v s).site = v := (within_siteWatered v s).site.trans (siteDated_site s v)
  have found : ∀ m, (siteWatered v s).machine m = s.machine m := fun m => by
    rw [State.machine, (within_siteWatered v s).machines, (siteDated_dated v s).1.cc, State.machine]
  rw [site] at get
  refine ⟨machines, _, rfl, fun m => by rw [get, found], ?_⟩
  change siteStep v s = _ at h
  rw [h]
  generalize hx : ({ siteWatered v s with cc := { (siteWatered v s).cc with machines := machines } } : State) = x
  have synced := within_syncAlerts x ((List.finRange 4).map .machineStale)
  have orders := ordersStand_syncAlerts ((List.finRange 4).map .machineStale) x
  have pump : (syncAlerts ((List.finRange 4).map .machineStale) x).wiu.pump = x.wiu.pump := by rw [syncAlerts_wiu]
  have cannon : ∀ c, (syncAlerts ((List.finRange 4).map .machineStale) x).cannon c = x.cannon c :=
    fun c => syncAlerts_cannon _ c x
  generalize syncAlerts ((List.finRange 4).map .machineStale) x = y at *
  by_cases moved : s.site.machines ≠ (siteWatered v s).site.machines ∨
      s.site.guardZone ≠ (siteWatered v s).site.guardZone
  · obtain ⟨steady, excluded⟩ := evaluateExclusion_excludedAs y
    rw [if_pos moved]
    refine ⟨synced.steady.trans steady, orders.trans (ordersStand_evaluateExclusion y), fun off => ?_, fun _ c => ?_⟩
    · exact (evaluateExclusion_pump_of_off (by rw [pump]; exact off)).trans pump
    · have own := excluded c
      rwa [ExcludedAs, cannon, shouldExclude_of_steady synced.steady] at own
  · rw [if_neg moved]
    exact ⟨synced.steady, orders, fun _ => pump, fun changed =>
      absurd (changed.imp Ne.symm Ne.symm) (by rwa [site] at moved)⟩

/-! ## The alert entries -/

theorem inStep_syncAlerts {e : AlertId} {es : List AlertId} (h : e ∈ es) (s : State) : InStep e (syncAlerts es s) := by
  induction es generalizing s with
  | nil => cases h
  | cons x es ih =>
    rw [syncAlerts_cons]
    rcases List.mem_cons.1 h with rfl | h
    · exact (calm_syncAlerts es e _).inStep (inStep_syncAlert e s)
    · exact ih h _

theorem inStep_siteStep_mast (m : Fin 2) (v : Site) (s : State) : InStep (.mastSuspect m) (siteStep v s) := by
  rw [siteStep_eq]
  have refitted : InStep (.mastSuspect m) (refitMast s.site.mast1Fitted v.mast1Fitted (s.setSite v)) := by
    obtain ⟨masts, h⟩ := refitMast_writes (s.setSite v) s.site.mast1Fitted v.mast1Fitted
    rw [h]
    exact inStep_syncAlerts (by fin_cases m <;> simp) _
  have dated : InStep (.mastSuspect m) (siteDated v s) :=
    ((flowed_retestDay _ _ _).calm (by simp) (by simp)).inStep ((calm_refitGauge _ _ _).inStep refitted)
  exact (calm_redeclare _ _ _ (by simp)).inStep
    ((calm_retestWater _ _ _ (by simp) (by simp)).inStep ((calm_retestForecast _ _ _).inStep dated))

theorem inStep_siteStep_water (v : Site) (s : State) : InStep .waterShort (siteStep v s) := by
  rw [siteStep_eq]
  refine (calm_redeclare _ _ _ (by simp)).inStep ?_
  unfold retestWater
  exact (calm_reportUsable _ _ _).inStep (inStep_syncAlerts (by simp) _)

theorem inStep_siteStep_forecast {v : Site} {s : State} (h : v.staleTime ≠ s.site.staleTime) :
    InStep .forecastStale (siteStep v s) := by
  rw [siteStep_eq]
  refine (calm_redeclare _ _ _ (by simp)).inStep ((calm_retestWater _ _ _ (by simp) (by simp)).inStep ?_)
  rw [retestForecast, siteDated_site, if_pos h.symm]
  exact inStep_syncAlert _ _

theorem inStep_siteStep_machine (m : Fin 4) (v : Site) (s : State) : InStep (.machineStale m) (siteStep v s) := by
  rw [siteStep_eq, redeclare]
  have synced := fun t => inStep_syncAlerts (List.mem_map.2 ⟨m, List.mem_finRange m, rfl⟩ :
    AlertId.machineStale m ∈ (List.finRange 4).map .machineStale) t
  split
  · exact (calm_evaluateExclusion _ _).inStep (synced _)
  · exact synced _

theorem InStep.inEvent {e : AlertId} {f : State → State} {s : State} (h : InStep e (f (s.setPass false))) :
    InStep e (inEvent f s) := ((sprayRules_calm e).inEvent s f).inStep h

/-! ## The parameters of the request -/

theorem flag?_eq_some {n : Nat} {b : Bool} (h : flag? n = some b) : b = decide (n = 1) ∧ n ≤ 1 := by
  unfold flag? at h
  split at h
  · cases h; simp
  · cases h; simp
  · cases h

theorem flag?_isSome (n : Nat) : (flag? n).isSome = true ↔ n ≤ 1 := by
  rcases n with _ | _ | n <;> simp [flag?]

/-- Each stored parameter is the field carried (R158). -/
theorem site?_fields {f : SiteFields} {v : Site} (h : site? f = some v) :
    ∃ x y, flag? f.mast1Fitted = some x ∧ flag? f.gaugeFitted = some y ∧ v = {
      mast1Fitted := x, kcal0 := f.kcal0, ocal0 := f.ocal0, kcal1 := f.kcal1, ocal1 := f.ocal1
      designWind := f.designWind, gaugeFitted := y, tipDepth := f.tipDepth, dayOffset := f.dayOffset
      staleTime := f.staleTime, horizon := f.horizon, baseDrying := f.baseDrying, windDrying := f.windDrying
      band := f.band, escalationBand := f.escalationBand, severeMargin := f.severeMargin, stagger := f.stagger
      travel := f.travel, machines := f.machines, machineStale := f.machineStale, guardZone := f.guardZone
      resumeWindow := f.resumeWindow, maxRun := f.maxRun, minRun := f.minRun, freshRate := f.freshRate
      freshAllocation := f.freshAllocation, priming := f.priming, rundown := f.rundown
      changeover := f.changeover, lean := f.lean, short := f.short } := by
  unfold site? at h
  split at h
  · rename_i x y hx hy
    split at h
    · exact ⟨x, y, hx, hy, (Option.some.inj h).symm⟩
    · cases h
  · cases h

/-- The ranges of the table of site parameters. -/
theorem site?_isSome (f : SiteFields) : (site? f).isSome = true ↔
    f.mast1Fitted ≤ 1 ∧ f.gaugeFitted ≤ 1 ∧
      (1 ≤ f.kcal0 ∧ f.kcal0 ≤ 1000) ∧ f.ocal0 ≤ 20 ∧ (1 ≤ f.kcal1 ∧ f.kcal1 ≤ 1000) ∧
      f.ocal1 ≤ 20 ∧ f.designWind ≤ 600 ∧ (50 ≤ f.tipDepth ∧ f.tipDepth ≤ 1000) ∧
      f.dayOffset ≤ 86399 ∧ (3600 ≤ f.staleTime ∧ f.staleTime ≤ 86400) ∧ f.horizon ≤ 12 ∧
      f.baseDrying ≤ 50 ∧ f.windDrying ≤ 16 ∧ (5 ≤ f.band ∧ f.band ≤ 100) ∧
      f.escalationBand ≤ 100 ∧ (5 ≤ f.severeMargin ∧ f.severeMargin ≤ 100) ∧
      (2 ≤ f.stagger ∧ f.stagger ≤ 30) ∧ (2 ≤ f.travel ∧ f.travel ≤ 30) ∧ f.machines ≤ 4 ∧
      (10 ≤ f.machineStale ∧ f.machineStale ≤ 600) ∧ f.guardZone ≤ 200 ∧ f.resumeWindow ≤ 3600 ∧
      (30 ≤ f.maxRun ∧ f.maxRun ≤ 1800) ∧ (100 ≤ f.minRun ∧ f.minRun ≤ 50000) ∧ f.freshRate ≤ 5000 ∧
      f.freshAllocation ≤ 1000000000 ∧ (10 ≤ f.priming ∧ f.priming ≤ 300) ∧ f.rundown ≤ 1800 ∧
      (5 ≤ f.changeover ∧ f.changeover ≤ 120) ∧ f.lean ≤ 1000000000 ∧ f.short ≤ 1000000000 ∧
      f.short ≤ f.lean := by
  rw [← flag?_isSome f.mast1Fitted, ← flag?_isSome f.gaugeFitted]
  unfold site?
  cases flag? f.mast1Fitted <;> cases flag? f.gaugeFitted
  case some.some x y =>
    simp only [Option.isSome_some, true_and]
    split
    · rename_i h
      simpa only [Option.isSome_some, true_iff, and_assoc] using h
    · rename_i h
      simpa only [Option.isSome_none, Bool.false_eq_true, false_iff, and_assoc] using h
  all_goals simp

/-! ## The request -/

section
variable {f : SiteFields} {v : Site} {s : State}

theorem movesActiveMain_eq (v : Site) (s : State) : movesActiveMain v s = true ↔
    v.freshRate ≠ s.site.freshRate ∧ s.wiu.pump.source = some .fresh ∧ s.wiu.pump.phase ≠ .off := by
  simp [movesActiveMain, and_assoc]

theorem answerSiteSetup_accepted (standby : s.mau.mode = .standby) (fields : site? f = some v)
    (allocated : s.wiu.today.fresh ≤ v.freshAllocation)
    (still : v.freshRate = s.site.freshRate ∨ s.wiu.pump.source ≠ some .fresh ∨ s.wiu.pump.phase = .off) :
    answerSiteSetup f s = .accepted (inEvent (siteStep v) s) (siteBody (inEvent (siteStep v) s).site) := by
  have moves : movesActiveMain v s ≠ true := by
    rw [Ne, movesActiveMain_eq]
    rintro ⟨rate, source, phase⟩
    rcases still with h | h | h <;> contradiction
  simp only [answerSiteSetup, standby, fields, freshUsed, Nat.not_lt.2 allocated, moves]
  rfl

theorem answerSiteSetup_wrongMode (h : s.mau.mode ≠ .standby) : answerSiteSetup f s = .refused .wrongMode :=
  if_pos h

theorem answerSiteSetup_outOfRange (standby : s.mau.mode = .standby) (fields : site? f = none) :
    answerSiteSetup f s = .refused .outOfRange := by
  simp only [answerSiteSetup, standby, fields]
  rfl

theorem answerSiteSetup_overdrawn (standby : s.mau.mode = .standby) (fields : site? f = some v)
    (h : v.freshAllocation < s.wiu.today.fresh) : answerSiteSetup f s = .refused .outOfRange := by
  simp only [answerSiteSetup, standby, fields, freshUsed, h]
  rfl

theorem answerSiteSetup_active (standby : s.mau.mode = .standby) (fields : site? f = some v)
    (allocated : s.wiu.today.fresh ≤ v.freshAllocation) (rate : v.freshRate ≠ s.site.freshRate)
    (source : s.wiu.pump.source = some .fresh) (on : s.wiu.pump.phase ≠ .off) :
    answerSiteSetup f s = .refused .wrongState := by
  have moves : movesActiveMain v s = true := (movesActiveMain_eq v s).2 ⟨rate, source, on⟩
  simp only [answerSiteSetup, standby, fields, freshUsed, Nat.not_lt.2 allocated, moves]
  rfl

end

/-! ## What the request leaves -/

section
variable (v : Site) (s : State)

/-- What follows a day test leaves it as tested. -/
theorem dayTested_of_eq {d : Nat} {s t u : State} (h : DayTested d s t) (yc : u.yc = t.yc)
    (today : u.wiu.today = t.wiu.today) (previous : u.wiu.previous = t.wiu.previous)
    (delivered : ∀ p, (u.pile p).deliveredToday = (t.pile p).deliveredToday)
    (notices : t.lc.notices ⊆ u.lc.notices) : DayTested d s u := by
  unfold DayTested at *
  cases recorded : s.yc.recordedDay with
  | none => simpa only [recorded, yc, today, previous] using h
  | some r =>
    simp only [recorded] at h ⊢
    split at h
    · obtain ⟨day, opened, kept, zero, notice⟩ := h
      rw [if_pos ‹_›, yc, today, previous]
      exact ⟨day, opened, kept, fun p => by rw [delivered, zero], notices notice⟩
    · rw [if_neg ‹_›, yc, today, previous]
      exact h

theorem steady_siteStep : ∃ machines x, x = { siteDated v s with
      cc := { (siteDated v s).cc with machines := machines } } ∧
    (∀ m, machines.get m = if m.val < v.machines then s.machine m else .reset) ∧ Steady x (siteStep v s) := by
  obtain ⟨machines, x, rfl, get, steady, -⟩ := siteStep_cases v s
  refine ⟨machines, _, rfl, get, .trans ?_ steady⟩
  have watered := (within_siteWatered v s).steady
  exact { watered with machines := rfl }

/-- The records that the blocks leave, and the day test (R5, R16, R23, R105). -/
theorem siteStep_frame : (siteStep v s).site = v ∧ (siteStep v s).wfe = (siteDated v s).wfe ∧
    (if v.dayOffset ≠ s.site.dayOffset ∧ s.yc.valid = true then
      DayTested (dayNumber s.yc.time v.dayOffset) s (siteStep v s)
    else (siteStep v s).yc = s.yc ∧ WaterFrame s (siteStep v s)) ∧
    Undated s { siteStep v s with cc := s.cc, sd := s.sd, wiu := { (siteStep v s).wiu with pump := s.wiu.pump } } ∧
    ∀ m, (siteStep v s).machine m = if m.val < v.machines then s.machine m else .reset := by
  obtain ⟨machines, x, rfl, get, steady⟩ := steady_siteStep v s
  obtain ⟨undated, dated⟩ := siteDated_dated v s
  have site : (siteStep v s).site = v := steady.site.trans (siteDated_site s v)
  have yc : (siteStep v s).yc = (siteDated v s).yc := steady.yc
  have today : (siteStep v s).wiu.today = (siteDated v s).wiu.today := steady.today
  have previous : (siteStep v s).wiu.previous = (siteDated v s).wiu.previous := steady.previous
  have delivered : ∀ p, ((siteStep v s).pile p).deliveredToday = ((siteDated v s).pile p).deliveredToday :=
    fun p => by rw [steady.pile p]; rfl
  have notices := steady.notices.subset
  refine ⟨site, steady.wfe, ?_, ?_, fun m => ?_⟩
  · split at dated
    · rw [if_pos ‹_›]
      exact dayTested_of_eq dated yc today previous delivered notices
    · rw [if_neg ‹_›, yc, WaterFrame, today, previous]
      exact ⟨dated.1, steady.ponds.trans dated.2.1, dated.2.2⟩
  · exact ⟨steady.pins.trans undated.pins, steady.ft.trans undated.ft, rfl, rfl, steady.bwu.trans undated.bwu,
      by rw [steady.mau]; exact undated.mode, steady.ponds.trans undated.ponds, rfl, by rw [yc]; exact undated.yc⟩
  · rw [State.machine, steady.machines]
    exact get m

variable {v s}

theorem siteStep_orders (closed : ∀ k, ∀ o ∈ s.order k, o.closure.isSome = true) :
    (siteStep v s).sd.orders = s.sd.orders := by
  obtain ⟨machines, x, rfl, -, -, orders, -⟩ := siteStep_cases v s
  have dated : OrdersStand s (siteDated v s) := ordersStand_of_sd (siteDated_dated v s).1.orders
  have watered : OrdersStand s (siteWatered v s) := dated.trans (ordersStand_retested s s.site (siteDated v s))
  refine OrdersStand.trans (t := siteWatered v s) watered ?_ closed
  exact orders

theorem fit_fresh_of_eq {s t : State} (site : t.site = s.site) (today : t.wiu.today = s.wiu.today) :
    fit t .fresh = fit s .fresh := by
  unfold fit freshUsed
  rw [site, today]

/-- A main that feeds the header and is fit no more is given up (R67, R75). -/
theorem siteStep_pump (standby : s.mau.mode = .standby) (source : s.wiu.pump.source = some .fresh)
    (on : s.wiu.pump.phase ≠ .off) (was : fit s .fresh = true) (lost : fit (siteStep v s) .fresh = false) :
    (siteStep v s).wiu.pump = ⟨.off, none, none⟩ := by
  obtain ⟨machines, x, rfl, -, steady, -, pump, -⟩ := siteStep_cases v s
  have undated := (siteDated_dated v s).1
  have watered := within_siteWatered v s
  have unfit : fit (siteDated v s) .fresh = false :=
    (fit_fresh_of_eq (steady.site.trans watered.site) (steady.today.trans watered.today)).symm.trans lost
  have given : (siteWatered v s).wiu.pump = ⟨.off, none, none⟩ := retested_pump s.site
    (undated.mode.trans standby) (by rw [undated.pump]; exact source) (by rw [undated.pump]; exact on) was unfit
  exact (pump (congrArg Pump.phase given)).trans given

/-- The flags of exclusion, and the cannons newly excluded (R106, R107). -/
theorem siteStep_excludedAs (changed : v.machines ≠ s.site.machines ∨ v.guardZone ≠ s.site.guardZone) (c : Fin 32) :
    ((s.cannon c).configured = true → ((siteStep v s).cannon c).excluded = shouldExclude (siteStep v s) c) ∧
    ((s.cannon c).excluded = false → ((siteStep v s).cannon c).excluded = true → ((siteStep v s).cannon c).Shut) := by
  obtain ⟨machines, x, rfl, -, steady, -, -, excluded⟩ := siteStep_cases v s
  obtain ⟨judged, shut⟩ := excluded changed c
  have found : (siteWatered v s).cannon c = { s.cannon c with
      phase := ((siteWatered v s).cannon c).phase, travel := ((siteWatered v s).cannon c).travel
      lostWater := ((siteWatered v s).cannon c).lostWater } := by
    have same : (siteDated v s).cannon c = s.cannon c := by rw [State.cannon, (siteDated_dated v s).1.cc, State.cannon]
    rw [← same]
    exact (within_siteWatered v s).cannon c
  refine ⟨fun configured => ?_, fun off => shut ?_⟩
  · rw [shouldExclude_of_steady steady]
    refine judged ?_
    change ((siteWatered v s).cannon c).configured = true
    rw [found]
    exact configured
  · change ((siteWatered v s).cannon c).excluded = false
    rw [found]
    exact off

end

section
variable {v : Site} {s : State}

/-- The event of the request: what its pass adds touches no cannon newly excluded. -/
theorem exclusionApplied_siteSetup (changed : v.machines ≠ s.site.machines ∨ v.guardZone ≠ s.site.guardZone) :
    ExclusionApplied s (inEvent (siteStep v) s) := by
  have within := inEvent_within s (siteStep v)
  have granted := granted_inEvent s (siteStep v)
  have excluded := siteStep_excludedAs (v := v) (s := s.setPass false) changed
  generalize inEvent (siteStep v) s = t at *
  generalize siteStep v (s.setPass false) = u at *
  have flag : ∀ c, (t.cannon c).excluded = (u.cannon c).excluded := fun c => by rw [within.cannon c]
  refine ⟨fun c configured => ?_, fun c off on => ?_⟩
  · rw [flag, shouldExclude_of_steady within.steady]
    exact (excluded c).1 configured
  · rw [flag] at on
    have shut := (excluded c).2 off on
    have barred : ¬ (u.cannon c).Ready := fun ready => by rw [ready.2.1] at on; cases on
    rw [← (granted.spared c barred).1] at shut
    exact ⟨valveDriven_of_shut shut, shut.1⟩

/-- A main that the request makes unfit feeds the header no more, whatever its pass adds (R67, R75). -/
theorem siteSetup_pump (standby : s.mau.mode = .standby) (closed : ∀ k, ∀ o ∈ s.order k, o.closure.isSome = true)
    (source : s.wiu.pump.source = some .fresh) (on : s.wiu.pump.phase ≠ .off) (was : fit s .fresh = true)
    (lost : fit (inEvent (siteStep v) s) .fresh = false) :
    (inEvent (siteStep v) s).wiu.pump.source ≠ some .fresh := by
  have within := inEvent_within s (siteStep v)
  have unfit : fit (siteStep v (s.setPass false)) .fresh = false :=
    (fit_fresh_of_eq within.site within.today).symm.trans lost
  have given := siteStep_pump (v := v) (s := s.setPass false) standby source on was unfit
  have mode : (siteStep v (s.setPass false)).mau.mode = .standby :=
    ((siteStep_frame v (s.setPass false)).2.2.2.1.mode).trans standby
  have orders : (siteStep v (s.setPass false)).sd.orders = s.sd.orders := siteStep_orders closed
  have still : ∀ k, ∀ o ∈ (siteStep v (s.setPass false)).order k, o.closure.isSome = true :=
    fun k o ho => closed k o (by rw [← order_of_orders orders k]; exact ho)
  have kept := inEvent_pump_of_standby (f := siteStep v) (s := s) mode still (congrArg Pump.phase given)
  rw [kept, given]
  exact fun h => nomatch h

end

/-- Settles O58: the refusals, the parameters, and each block's records over the state that the request found. -/
theorem siteSetupIsAppliedByEachBlock : Obligations.SiteSetupIsAppliedByEachBlock := by
  refine ⟨fun tag f v s h standby fields allocated still closed => ?_,
    fun tag f s h mode => congrArg _ (takeRequest_refused h (answerSiteSetup_wrongMode mode)),
    fun tag f s h standby fields => congrArg _ (takeRequest_refused h (answerSiteSetup_outOfRange standby fields)),
    fun tag f v s h standby fields drawn =>
      congrArg _ (takeRequest_refused h (answerSiteSetup_overdrawn standby fields drawn)),
    fun tag f v s h standby fields allocated rate source on =>
      congrArg _ (takeRequest_refused h (answerSiteSetup_active standby fields allocated rate source on)),
    fun f v fields => ?_, site?_isSome⟩
  · have answer := takeRequest_accepted (kind := 0x02) (tag := tag) h
      (answerSiteSetup_accepted standby fields allocated still)
    have within := inEvent_within s (siteStep v)
    obtain ⟨site, wfe, dated, undated, machine⟩ := siteStep_frame v (s.setPass false)
    have orders : (inEvent (siteStep v) s).sd.orders = s.sd.orders :=
      (granted_inEvent s (siteStep v)).orders.trans (siteStep_orders closed)
    have excluded := exclusionApplied_siteSetup (v := v) (s := s)
    have pump := siteSetup_pump (v := v) standby closed
    have mast := fun m => (inStep_siteStep_mast m v (s.setPass false)).inEvent
    have water := (inStep_siteStep_water v (s.setPass false)).inEvent
    have forecast := fun changed => (inStep_siteStep_forecast (v := v) (s := s.setPass false) changed).inEvent
    have stale := fun m => (inStep_siteStep_machine m v (s.setPass false)).inEvent
    have masts : ∀ m, (inEvent (siteStep v) s).mast m =
        (refitMast s.site.mast1Fitted v.mast1Fitted ((s.setPass false).setSite v)).mast m := fun m =>
      (mast_of_wfe (within.wfe.trans wfe) m).trans (siteDated_mast m v _)
    rw [within.site.trans site] at answer
    refine ⟨inEvent (siteStep v) s, congrArg _ answer, within.site.trans site, ?_, ?_, ?_, ?_, ?_,
      within.ft.trans undated.ft, within.bwu.trans undated.bwu, within.ponds.trans undated.ponds, ?_,
      within.pins.trans undated.pins, orders, fun m => ?_, excluded, pump, mast, water, forecast, stale⟩
    · exact (masts 1).trans (refitMast_mast s.site.mast1Fitted v.mast1Fitted ((s.setPass false).setSite v)).1
    · exact (masts 0).trans (refitMast_mast s.site.mast1Fitted v.mast1Fitted ((s.setPass false).setSite v)).2
    · rw [within.wfe, wfe, siteDated_wfe]
      rfl
    · split at dated
      · rw [if_pos ‹_›]
        exact dayTested_of_eq dated within.yc within.today within.previous
          (fun p => by rw [within.pile p]) within.posts.keeps.subset
      · rw [if_neg ‹_›]
        exact ⟨within.yc.trans dated.1, within.ponds.trans dated.2.1, within.today.trans dated.2.2.1,
          within.previous.trans dated.2.2.2⟩
    · rw [within.yc]
      exact undated.yc
    · rw [within.mau]
      exact undated.mode
    · rw [State.machine, within.machines]
      exact machine m
  · obtain ⟨x, y, hx, hy, rfl⟩ := site?_fields fields
    obtain ⟨mast1, -⟩ := flag?_eq_some hx
    obtain ⟨gauge, -⟩ := flag?_eq_some hy
    exact ⟨mast1, gauge, rfl, rfl, rfl, rfl, rfl, rfl, rfl, rfl, rfl, rfl, rfl, rfl, rfl, rfl, rfl, rfl, rfl, rfl,
      rfl, rfl, rfl, rfl, rfl, rfl, rfl, rfl, rfl, rfl, rfl⟩

end Sys2Proof.Machine
end

