-- ==== Sys2Proof/Proofs/Publication.lean ====
section
/-! SUPPORT. What a gate expiry publishes (R8 to R14): the selected mast, the entered sample, the published
wind; and the readings of the forecast, the masts and the sector masks that the publication and the drift
test use. -/

namespace Sys2Proof.Machine

/-! ## What the six stages leave -/

/-- What the stages of a gate expiry leave unchanged. -/
structure GateFrame (s t : State) : Prop where
  feedback : t.pins.feedback = s.pins.feedback
  yc : t.yc = s.yc
  ft : t.ft = s.ft
  bwu : t.bwu = s.bwu
  site : t.site = s.site
  cc : t.cc = s.cc
  runs : t.sd.runs = s.sd.runs
  orders : t.sd.orders = s.sd.orders
  suspensions : t.sd.suspensions = s.sd.suspensions
  wiu : t.wiu = s.wiu
  pau : t.pau = s.pau
  notices : s.lc.notices <+: t.lc.notices

theorem GateFrame.refl (s : State) : GateFrame s s :=
  ⟨rfl, rfl, rfl, rfl, rfl, rfl, rfl, rfl, rfl, rfl, rfl, List.prefix_refl _⟩

theorem GateFrame.trans {s t u : State} (h : GateFrame s t) (k : GateFrame t u) : GateFrame s u :=
  ⟨k.feedback.trans h.feedback, k.yc.trans h.yc, k.ft.trans h.ft, k.bwu.trans h.bwu, k.site.trans h.site,
    k.cc.trans h.cc, k.runs.trans h.runs, k.orders.trans h.orders, k.suspensions.trans h.suspensions, k.wiu.trans h.wiu,
    k.pau.trans h.pau, h.notices.trans k.notices⟩

section
variable (s : State)

theorem gateFrame_setWfe (w : Wfe) : GateFrame s (s.setWfe w) := { GateFrame.refl s with }

theorem gateFrame_syncAlert (e : AlertId) : GateFrame s (syncAlert e s) :=
  ⟨by rw [syncAlert_pins], syncAlert_yc s e, syncAlert_ft s e, syncAlert_bwu s e, syncAlert_site s e, syncAlert_cc s e,
    by rw [syncAlert_sd], by rw [syncAlert_sd], by rw [syncAlert_sd], syncAlert_wiu s e, syncAlert_pau s e, (syncAlert_posts e s).keeps⟩

theorem gateFrame_measureMast (v : BitVec 4) (m : Fin 2) : GateFrame s (measureMast v m s) := by
  rw [measureMast_eq]
  exact { GateFrame.refl s with }

theorem gateFrame_markSuspect (b : Bool) (m : Fin 2) : GateFrame s (markSuspect b m s) := by
  rw [markSuspect_eq]
  exact { GateFrame.refl s with }

theorem gateFrame_gateMeasured (v w : BitVec 4) : GateFrame s (gateMeasured v w s) := by
  unfold gateMeasured
  rw [testSuspicion_eq]
  exact (gateFrame_setWfe s _).trans <| (gateFrame_measureMast _ _ _).trans <| (gateFrame_measureMast _ _ _).trans <|
    (gateFrame_markSuspect _ _ _).trans <| (gateFrame_markSuspect _ _ _).trans <|
      (gateFrame_syncAlert _ _).trans (gateFrame_syncAlert _ _)

/-- Stages 4 and 5, as what they make of the window (R8, R9). -/
theorem enterWindow_eq : enterWindow s = s.setWfe (match selectMast s with
    | some m =>
      match (s.mast m).sample with
      | some x => ({ s.wfe with selected := some m } : Wfe).enter x
      | none => { s.wfe with selected := some m }
    | none => { s.wfe with selected := none }) := by
  unfold enterWindow
  cases selectMast s with
  | none => rfl
  | some m =>
    simp only
    cases (s.mast m).sample <;> rfl

theorem gateFrame_gateStages (v w : BitVec 4) : GateFrame s (gateStages v w s) := by
  rw [gateStages_eq]
  refine (gateFrame_gateMeasured s v w).trans ?_
  generalize gateMeasured v w s = t
  unfold publish
  rw [enterWindow_eq]
  exact (gateFrame_setWfe t _).trans ((gateFrame_setWfe _ _).trans (gateFrame_syncAlert _ _))

end

/-! ## The window -/

/-- The ring takes its newest entry, and a full one gives up its oldest (R9). -/
theorem Wfe.enter_ring (w : Wfe) (x : Sample) :
    (w.enter x).ring = (if w.ring.length < 200 then w.ring else w.ring.drop 1) ++ [x] := by
  unfold Wfe.enter
  cases h : w.ring with
  | nil => rfl
  | cons old rest =>
    simp only
    split <;> simp

theorem Wfe.enter_rest (w : Wfe) (x : Sample) : w.enter x = { w with ring := (w.enter x).ring, sums := (w.enter x).sums } := by
  unfold Wfe.enter
  split
  · split <;> rfl
  · rfl

theorem mastUsable_of_eq {s t : State} (site : t.site = s.site) (mast : ∀ m, t.mast m = s.mast m) (m : Fin 2) :
    mastUsable t m = mastUsable s m := by
  unfold mastUsable fitted
  rw [site, mast]

/-- Stages 4 and 5 on the selected mast, the window and the rest (R8, R9). -/
theorem enterWindow_window (s : State) : (enterWindow s).wfe.selected = selectMast s ∧
    (∀ m ∈ selectMast s, ∀ x ∈ (s.mast m).sample, (enterWindow s).wfe.ring =
      (if s.wfe.ring.length < 200 then s.wfe.ring else s.wfe.ring.drop 1) ++ [x]) ∧
    (selectMast s = none → (enterWindow s).wfe.ring = s.wfe.ring ∧ (enterWindow s).wfe.sums = s.wfe.sums) ∧
    (enterWindow s).wfe.gate = s.wfe.gate := by
  rw [enterWindow_eq]
  cases selectMast s with
  | none => exact ⟨rfl, by simp, fun _ => ⟨rfl, rfl⟩, rfl⟩
  | some m =>
    simp only [setWfe_wfe]
    cases hx : (s.mast m).sample with
    | none => exact ⟨rfl, by simp [hx], by simp, rfl⟩
    | some x =>
      simp only
      refine ⟨by rw [Wfe.enter_rest], ?_, by simp, by rw [Wfe.enter_rest]⟩
      intro i hi y hy
      obtain rfl := Option.some.inj hi
      obtain rfl := Option.some.inj (hx.symm.trans hy)
      exact Wfe.enter_ring _ x

theorem currentSlot_of_eq {s t : State} (yc : t.yc = s.yc) (ft : t.ft = s.ft) (site : t.site = s.site) :
    currentSlot t = currentSlot s := by
  unfold currentSlot forecastIsStale
  rw [yc, ft, site]

theorem windToPublish_of_eq {s t : State} (wfe : t.wfe = s.wfe) (yc : t.yc = s.yc) (ft : t.ft = s.ft)
    (site : t.site = s.site) : windToPublish t = windToPublish s := by
  have slot := currentSlot_of_eq yc ft site
  unfold windToPublish
  rw [slot, wfe, site]

/-- A live wind is the ring's mean, gust and prevailing sector (R12). -/
theorem windToPublish_live {s : State} (live : (windToPublish s).source = .live) : 20 ≤ s.wfe.ring.length ∧
    (windToPublish s).mean = s.wfe.mean ∧ (windToPublish s).direction = s.wfe.prevailing := by
  unfold windToPublish at *
  simp only at *
  split at live
  · rename_i h
    rw [if_pos h]
    exact ⟨h.2, rfl, rfl⟩
  · split at live <;> cases live

/-! ## The prevailing sector (R11) -/

theorem foldl_max_le (l : List Nat) (a b : Nat) : l.foldl max a ≤ b ↔ a ≤ b ∧ ∀ x ∈ l, x ≤ b := by
  induction l generalizing a with
  | nil => simp
  | cons x l ih => simp [ih, and_assoc]

theorem Wfe.mem_leading (w : Wfe) (n : Fin 16) : n ∈ w.leading ↔ ∀ m, w.sums.get m ≤ w.sums.get n := by
  have row : ∀ b, (∀ x ∈ w.sums.rows, x ≤ b) ↔ ∀ m, w.sums.get m ≤ b := by
    intro b
    rw [Table.rows_eq_map]
    simp
  have bound := fun b => (foldl_max_le w.sums.rows 0 b).trans (and_congr_right fun _ => row b)
  rw [Wfe.leading, List.mem_filter, decide_eq_true_eq]
  refine ⟨fun ⟨_, h⟩ => ?_, fun h => ⟨List.mem_finRange n, ?_⟩⟩
  · rw [h]
    exact ((bound _).1 (Nat.le_refl _)).2
  · exact Nat.le_antisymm (((bound _).1 (Nat.le_refl _)).2 n) ((bound _).2 ⟨Nat.zero_le _, h⟩)

theorem Wfe.leading_cons (w : Wfe) : ∃ lead rest, w.leading = lead :: rest ∧
    ∀ m, m < lead → w.sums.get m < w.sums.get lead := by
  obtain ⟨n, top⟩ := Finite.exists_max fun m => w.sums.get m
  cases h : w.leading with
  | nil => exact absurd ((w.mem_leading n).2 top) (by simp [h])
  | cons lead rest =>
    refine ⟨lead, rest, rfl, fun m hm => ?_⟩
    have max := (w.mem_leading lead).1 (by simp [h])
    refine Nat.lt_of_le_of_ne (max m) fun same => ?_
    have sorted : (lead :: rest).Pairwise (· < ·) := by
      rw [← h]
      exact (List.pairwise_lt_finRange 16).filter _
    have member : m ∈ lead :: rest := by
      rw [← h, w.mem_leading, same]
      exact max
    rcases List.mem_cons.1 member with rfl | later
    · exact lt_irrefl _ hm
    · exact lt_asymm hm ((List.pairwise_cons.1 sorted).1 m later)

theorem Wfe.prevailing_calm {w : Wfe} (h : w.mean < 5) : w.prevailing = .calm := if_pos h

/-- The prevailing sector has a largest sum: the newest entry's where that is one, else the lowest (R11). -/
theorem Wfe.prevailing_sector {w : Wfe} (entries : w.ring ≠ []) (windy : 5 ≤ w.mean) :
    ∃ n, w.prevailing = .sector n ∧ (∀ m, w.sums.get m ≤ w.sums.get n) ∧ ∀ x ∈ w.ring.getLast?,
      if ∀ m, w.sums.get m ≤ w.sums.get x.sector then n = x.sector
      else ∀ m, m < n → w.sums.get m < w.sums.get n := by
  obtain ⟨lead, rest, leading, lowest⟩ := w.leading_cons
  have newest := List.getLast?_eq_some_getLast entries
  generalize w.ring.getLast entries = x at newest
  have found : w.prevailing = if x.sector ∈ w.leading then .sector x.sector else .sector lead := by
    rw [Wfe.prevailing, if_neg (Nat.not_lt.2 windy), newest, leading]
  have top : ∀ m, w.sums.get m ≤ w.sums.get lead := (w.mem_leading lead).1 (by simp [leading])
  rw [found, newest]
  by_cases h : x.sector ∈ w.leading
  · have max := (w.mem_leading _).1 h
    refine ⟨x.sector, if_pos h, max, fun y hy => ?_⟩
    obtain rfl := Option.some.inj hy
    rw [if_pos max]
  · refine ⟨lead, if_neg h, top, fun y hy => ?_⟩
    obtain rfl := Option.some.inj hy
    rw [if_neg fun max => h ((w.mem_leading _).2 max)]
    exact lowest

/-! ## The readings -/

theorem forecastIsStale_iff (s : State) : forecastIsStale s = true ↔ s.yc.valid = true ∧ ¬ ForecastCurrent s := by
  unfold forecastIsStale ForecastCurrent
  cases s.ft.newestIssue with
  | none => simp
  | some i =>
    simp only [Bool.and_eq_true, decide_eq_true_eq, Option.mem_some_iff, exists_eq_left', not_and, not_le]
    exact and_congr_right fun valid => ⟨fun h _ => h, fun h => h valid⟩

theorem currentSlot_eq_some {f : Slot} {s : State} (h : currentSlot s = some f) :
    ForecastCurrent s ∧ f ∈ s.ft.slots ∧ f.start ≤ s.yc.time ∧ s.yc.time < f.start + 3600 := by
  unfold currentSlot at h
  split at h
  · rename_i current
    simp only [Bool.and_eq_true, Bool.not_eq_true'] at current
    have fresh : ForecastCurrent s := by
      by_contra stale
      have is := (forecastIsStale_iff s).2 ⟨current.1, stale⟩
      rw [current.2] at is
      cases is
    have covers := List.find?_some h
    simp only [Bool.and_eq_true, decide_eq_true_eq] at covers
    exact ⟨fresh, List.mem_of_find?_eq_some h, covers⟩
  · cases h

theorem currentSlot_eq_none {s : State} (h : currentSlot s = none) : ¬ ForecastCurrent s ∨
    ∀ f ∈ s.ft.slots, s.yc.time < f.start ∨ f.start + 3600 ≤ s.yc.time := by
  unfold currentSlot at h
  split at h
  · right
    intro f hf
    have outside := List.find?_eq_none.1 h f hf
    simp only [Bool.and_eq_true, decide_eq_true_eq] at outside
    omega
  · rename_i stale
    left
    intro current
    refine stale ?_
    simp only [Bool.and_eq_true, Bool.not_eq_true', current.1, true_and]
    by_contra is
    exact ((forecastIsStale_iff s).1 (by simpa using is)).2 current

theorem mastUsable_iff (m : Fin 2) (s : State) : mastUsable s m = true ↔
    (m = 0 ∨ s.site.mast1Fitted = true) ∧ (s.mast m).suspect = false ∧ (s.mast m).declaredOut = false := by
  simp [mastUsable, fitted, and_assoc]

theorem sectorPasses_iff (mask : BitVec 16) (d : Direction) : sectorPasses mask d = true ↔
    match d with
    | .sector n => mask.getLsbD n = true
    | .calm => True
    | .unknown => ∀ n < 16, mask.getLsbD n = true := by
  cases d with
  | sector n => rfl
  | calm => exact ⟨fun _ => trivial, fun _ => rfl⟩
  | unknown =>
    simp only [sectorPasses, decide_eq_true_eq]
    refine ⟨fun h n hn => ?_, fun h => BitVec.eq_of_getLsbD_eq fun n hn => ?_⟩
    · rw [h, BitVec.getLsbD_allOnes]
      exact decide_eq_true hn
    · rw [h n hn, BitVec.getLsbD_allOnes]
      exact (decide_eq_true hn).symm

/-! ## The published wind -/

section
variable (v w : BitVec 4) (s : State)

theorem publish_wfe : (publish s).wfe = { s.wfe with published := windToPublish s } := syncAlert_wfe _ _

theorem windToPublish_publish : windToPublish (publish s) = windToPublish s :=
  windToPublish_of_eq (s := s.setWfe { s.wfe with published := windToPublish s }) (publish_wfe s) (syncAlert_yc _ _)
    (syncAlert_ft _ _) (syncAlert_site _ _)

/-- The wind front-end after the six stages (R8 to R12). -/
theorem gateStages_wind : (gateStages v w s).wfe.gate = Config.gateTicks ∧
    (gateStages v w s).wfe.selected = selectMast (gateStages v w s) ∧
    (∀ i ∈ (gateStages v w s).wfe.selected, ∀ x ∈ ((gateStages v w s).mast i).sample, (gateStages v w s).wfe.ring =
      (if s.wfe.ring.length < 200 then s.wfe.ring else s.wfe.ring.drop 1) ++ [x]) ∧
    ((gateStages v w s).wfe.selected = none →
      (gateStages v w s).wfe.ring = s.wfe.ring ∧ (gateStages v w s).wfe.sums = s.wfe.sums) ∧
    (gateStages v w s).wfe.published = windToPublish (gateStages v w s) := by
  have measured := windSame_gateMeasured v w s
  rw [gateStages_eq, windToPublish_publish, publish_wfe]
  generalize gateMeasured v w s = m at *
  obtain ⟨selected, entered, kept, gate⟩ := enterWindow_window m
  have masts : ∀ i, (publish (enterWindow m)).mast i = m.mast i := fun i =>
    (publish_mast _ i).trans (enterWindow_mast m i)
  have site : (publish (enterWindow m)).site = m.site := by
    unfold publish
    rw [syncAlert_site, enterWindow_eq]
    rfl
  have select : selectMast (publish (enterWindow m)) = selectMast m := by
    simp only [selectMast, mastUsable_of_eq site masts]
  rw [measured.ring] at entered kept
  refine ⟨gate.trans measured.gate, selected.trans select.symm, fun i hi x hx => ?_, fun h => ?_, rfl⟩
  · rw [masts] at hx
    exact entered i (selected ▸ hi) x hx
  · obtain ⟨ring, sums⟩ := kept (selected.symm.trans h)
    exact ⟨ring, sums.trans measured.sums⟩

theorem inStep_gateStages : InStep .windDegraded (gateStages v w s) := by
  rw [gateStages_eq, publish]
  exact inStep_syncAlert _ _

end

end Sys2Proof.Machine
end

