-- ==== Sys2Proof/Proofs/OrderTests.lean ====
section
/-! SUPPORT. The tests for DONE at the run ends of an event (R116, R131, R133): an order that has its volume
closes when its last run ends, and every other order stands. -/

namespace Sys2Proof.Machine

/-- Some cannon carries a run of the order. -/
def HasRun (s : State) (k : Nat) : Prop := ∃ c, ∃ r ∈ s.run c, r.origin = .order k

/-- What run ends and grants between s and t have made of the orders. -/
structure OrdersTraced (s t : State) : Prop where
  now : now t = now s
  slots : t.sd.orders.length = s.sd.orders.length
  notices : s.lc.notices ⊆ t.lc.notices
  free : ∀ k, s.order k = none → t.order k = none
  rest : ∀ k o, s.order k = some o → ¬ o.VolumeMet → t.order k = some o
  tested : ∀ k o, s.order k = some o → o.VolumeMet → (t.order k = some o ∧ (HasRun s k → HasRun t k)) ∨
    (t.order k = some (o.done s) ∧ .order k ∈ t.lc.notices ∧ HasRun s k ∧ ¬ HasRun t k)
  entered : ∀ k, HasRun t k → HasRun s k ∨ ∃ o ∈ s.order k, o.delivered < o.volume

theorem not_volumeMet_done (o : Order) (s : State) : ¬ (o.done s).VolumeMet := by
  rintro ⟨-, closure, -⟩
  cases closure

theorem OrdersTraced.trans {s t u : State} (h : OrdersTraced s t) (k : OrdersTraced t u) : OrdersTraced s u where
  now := k.now.trans h.now
  slots := k.slots.trans h.slots
  notices := List.Subset.trans h.notices k.notices
  free i hi := k.free i (h.free i hi)
  rest i o ho met := k.rest i o (h.rest i o ho met) met
  tested i o ho met := by
    have full : ∀ x ∈ t.order i, x = o ∨ x = o.done s → ¬ x.delivered < x.volume := by
      rintro x - (rfl | rfl)
      · exact Nat.not_lt.2 met.2.2
      · exact Nat.not_lt.2 met.2.2
    rcases h.tested i o ho met with ⟨same, runs⟩ | ⟨done, notice, had, left⟩
    · rcases k.tested i o same met with ⟨same', runs'⟩ | ⟨done, notice, had, left⟩
      · exact .inl ⟨same', fun run => runs' (runs run)⟩
      · refine .inr ⟨?_, notice, ?_, left⟩
        · rw [done, Order.done, Order.done, h.now]
        · rcases h.entered i had with had | ⟨x, hx, open_⟩
          · exact had
          · obtain rfl := Option.some.inj (ho.symm.trans hx)
            exact absurd open_ (Nat.not_lt.2 met.2.2)
    · refine .inr ⟨k.rest i _ done (not_volumeMet_done o s), k.notices notice, had, fun run => ?_⟩
      rcases k.entered i run with run | ⟨x, hx, open_⟩
      · exact left run
      · obtain rfl := Option.some.inj (done.symm.trans hx)
        exact full _ hx (.inr rfl) open_
  entered i run := by
    rcases k.entered i run with run | ⟨x, hx, open_⟩
    · exact h.entered i run
    · refine .inr ?_
      cases ho : s.order i with
      | none =>
        rw [h.free i ho] at hx
        cases hx
      | some o =>
        by_cases met : o.VolumeMet
        · rcases h.tested i o ho met with ⟨same, -⟩ | ⟨done, -⟩
          · obtain rfl := Option.some.inj (same.symm.trans hx)
            exact ⟨_, rfl, open_⟩
          · obtain rfl := Option.some.inj (done.symm.trans hx)
            exact ⟨o, rfl, open_⟩
        · obtain rfl := Option.some.inj ((h.rest i o ho met).symm.trans hx)
          exact ⟨_, rfl, open_⟩

/-- What leaves the orders, and adds or ends no run, tests none. -/
theorem ordersTraced_of_runs {s t : State} (now : now t = now s) (orders : t.sd.orders = s.sd.orders)
    (notices : s.lc.notices ⊆ t.lc.notices) (stays : ∀ k, HasRun s k → HasRun t k)
    (entered : ∀ k, HasRun t k → HasRun s k ∨ ∃ o ∈ s.order k, o.delivered < o.volume) : OrdersTraced s t where
  now := now
  slots := by rw [orders]
  notices := notices
  free k hk := (order_of_orders orders k).trans hk
  rest k o ho _ := (order_of_orders orders k).trans ho
  tested k o ho _ := .inl ⟨(order_of_orders orders k).trans ho, stays k⟩
  entered := entered

theorem hasRun_of_origins {s t : State} (h : ∀ c, (t.run c).map Run.origin = (s.run c).map Run.origin) (k : Nat) :
    HasRun t k ↔ HasRun s k := by
  have each : ∀ (u : State) (c : Fin 32), (∃ r ∈ u.run c, r.origin = .order k) ↔
      (u.run c).map Run.origin = some (.order k) := by
    intro u c
    cases u.run c <;> simp
  unfold HasRun
  exact exists_congr fun c => by rw [each, each, h]

theorem ordersTraced_frame {s t : State} (now : now t = now s) (orders : t.sd.orders = s.sd.orders)
    (notices : s.lc.notices ⊆ t.lc.notices) (runs : ∀ c, (t.run c).map Run.origin = (s.run c).map Run.origin) :
    OrdersTraced s t :=
  ordersTraced_of_runs now orders notices (fun k => (hasRun_of_origins runs k).2)
    fun k h => .inl ((hasRun_of_origins runs k).1 h)

theorem OrdersTraced.refl (s : State) : OrdersTraced s s := ordersTraced_frame rfl rfl (fun _ h => h) fun _ => rfl

theorem now_of_within {s t : State} (h : Within s t) : now t = now s := by rw [now, h.yc, now]

theorem ordersTraced_within {s t : State} (h : Within s t) (orders : t.sd.orders = s.sd.orders)
    (runs : ∀ c, (t.run c).map Run.origin = (s.run c).map Run.origin) : OrdersTraced s t :=
  ordersTraced_frame (now_of_within h) orders h.posts.keeps.subset runs

/-- The grants of a pass test no order. -/
theorem ordersTraced_granted {s t : State} (h : Granted s t) (w : Within s t) : OrdersTraced s t := by
  refine ordersTraced_of_runs (now_of_within w) h.orders w.posts.keeps.subset ?_ ?_
  · rintro k ⟨c, r, hr, origin⟩
    obtain ⟨x, hx, same⟩ := h.stays c r hr
    exact ⟨c, x, hx, same.trans origin⟩
  · rintro k ⟨c, x, hx, origin⟩
    rcases h.entered c x hx with ⟨r, hr, same⟩ | auto | ⟨j, order, o, ho, open_⟩
    · exact .inl ⟨c, r, hr, same.trans origin⟩
    · rw [auto] at origin
      cases origin
    · rw [order] at origin
      obtain rfl := Origin.order.inj origin
      exact .inr ⟨o, ho, open_⟩

/-- One order that has its volume closes DONE as its last run ends (R131). -/
theorem ordersTraced_of_done {s t : State} {k : Nat} {o : Order} (ho : s.order k = some o) (met : o.VolumeMet)
    (now : now t = now s) (slots : t.sd.orders.length = s.sd.orders.length) (notices : s.lc.notices ⊆ t.lc.notices)
    (order : ∀ j, t.order j = if j = k then some (o.done s) else s.order j) (notice : .order k ∈ t.lc.notices)
    (had : HasRun s k) (left : ¬ HasRun t k) (others : ∀ j, j ≠ k → HasRun s j → HasRun t j)
    (fewer : ∀ j, HasRun t j → HasRun s j) : OrdersTraced s t where
  now := now
  slots := slots
  notices := notices
  free j hj := by
    have other : j ≠ k := fun same => by rw [same, ho] at hj; cases hj
    rw [order, if_neg other, hj]
  rest j x hx open_ := by
    have other : j ≠ k := fun same => by
      subst same
      obtain rfl := Option.some.inj (hx.symm.trans ho)
      exact open_ met
    rw [order, if_neg other, hx]
  tested j x hx _ := by
    by_cases hj : j = k
    · subst hj
      obtain rfl := Option.some.inj (hx.symm.trans ho)
      exact .inr ⟨by rw [order, if_pos rfl], notice, had, left⟩
    · exact .inl ⟨by rw [order, if_neg hj, hx], others j hj⟩
  entered j run := .inl (fewer j run)

theorem slot_of_order {s : State} {k : Nat} {o : Order} (h : s.order k = some o) : k < s.sd.orders.length := by
  by_contra beyond
  rw [State.order, List.getElem?_eq_none (Nat.not_lt.1 beyond)] at h
  cases h

section
variable (c : Fin 32) (s : State)

theorem hasRun_withoutRun (k : Nat) (h : HasRun (markPass (s.setRun c none)) k) : HasRun s k := by
  obtain ⟨i, r, hr, origin⟩ := h
  rw [markPass, setPass_run, setRun_run] at hr
  split at hr
  · cases hr
  · exact ⟨i, r, hr, origin⟩

theorem hasRun_withoutRun_other {k : Nat} (other : ∀ r ∈ s.run c, r.origin ≠ .order k) (h : HasRun s k) :
    HasRun (markPass (s.setRun c none)) k := by
  obtain ⟨i, r, hr, origin⟩ := h
  have hi : i ≠ c := fun same => other r (same ▸ hr) origin
  exact ⟨i, r, by rw [markPass, setPass_run, setRun_run, if_neg hi]; exact hr, origin⟩

/-- One run ends, and its order is tested (R116, R131). -/
theorem ordersTraced_endRun : OrdersTraced s (endRun c s) := by
  have fewer := hasRun_withoutRun c s
  rcases endRun_cases c s with ⟨-, h⟩ | ⟨r, k, run, origin, h⟩ | ⟨r, run, other, h⟩
  · rw [h]
    exact .refl s
  · have others : ∀ j, j ≠ k → HasRun s j → HasRun (markPass (s.setRun c none)) j := fun j hj =>
      hasRun_withoutRun_other c s fun x hx => by
        obtain rfl := Option.some.inj (run.symm.trans hx)
        rw [origin]
        exact fun same => hj (Origin.order.inj same).symm
    have runs : ∀ j, HasRun (endRun c s) j ↔ HasRun (markPass (s.setRun c none)) j := fun j =>
      hasRun_of_origins (fun i => by rw [h, completeIfDone_run]) j
    rcases completeIfDone_cases k (markPass (s.setRun c none)) with ⟨o, ho, met, idle, e⟩ | ⟨e, not_done⟩
    · have order : ∀ j, (endRun c s).order j = if j = k then some (o.done s) else s.order j := by
        intro j
        rw [h, e, post_order, setOrder_order]
        exact if_congr Iff.rfl (if_pos (slot_of_order (s := s) ho)) rfl
      refine ordersTraced_of_done (s := s) ho met ?_ ?_ ?_ order ?_ ⟨c, r, run, origin⟩
        (fun left => have ⟨i, x, hx, same⟩ := (runs k).1 left; idle i x hx same)
        (fun j hj had => (runs j).2 (others j hj had)) fun j left => fewer j ((runs j).1 left)
      · rw [h, e, now, post_yc]
        rfl
      · rw [h, e, post_sd, setOrder_sd, List.length_set]
        rfl
      · rw [h, e]
        exact fun n hn => (mem_post _ _ _).2 (.inr hn)
      · rw [h, e]
        exact (mem_post _ _ _).2 (.inl rfl)
    · rw [h, e]
      refine ⟨rfl, rfl, fun _ hn => hn, fun _ free => free, fun _ _ ho _ => ho, fun j o ho met => .inl ⟨ho, fun had => ?_⟩,
        fun j left => .inl (fewer j left)⟩
      by_cases hj : j = k
      · subst hj
        by_contra left
        exact not_done o ho ⟨met, fun i x hx same => left ⟨i, x, hx, same⟩⟩
      · exact others j hj had
  · rw [h]
    refine ordersTraced_of_runs rfl rfl (fun _ hn => hn) (fun k => hasRun_withoutRun_other c s fun x hx => ?_)
      fun k left => .inl (fewer k left)
    obtain rfl := Option.some.inj (run.symm.trans hx)
    exact other k

theorem ordersTraced_updateRun (f : Run → Run) (h : ∀ r, (f r).origin = r.origin) :
    OrdersTraced s (updateRun c f s) := by
  refine ordersTraced_within (within_updateRun s c f) (updateRun_orders c f s) fun i => ?_
  rw [updateRun_run]
  split
  · rename_i hi
    subst hi
    cases s.run i with
    | none => rfl
    | some r => exact congrArg some (h r)
  · rfl

theorem ordersTraced_suspendRun (x : SuspendCause) : OrdersTraced s (suspendRun c x s) := by
  have suspended : OrdersTraced s (updateRun c (fun r => { r with
      phase := .suspended x (Config.count48 (s.sd.suspensions + 1)) (Config.seconds s.site.resumeWindow) })
      (s.setSuspensions (Config.count48 (s.sd.suspensions + 1)))) :=
    OrdersTraced.trans (t := s.setSuspensions (Config.count48 (s.sd.suspensions + 1)))
      (ordersTraced_within (within_setSuspensions s _) rfl fun _ => rfl) (ordersTraced_updateRun c _ _ fun _ => rfl)
  rw [suspendRun_eq]
  simp only
  split
  · exact suspended.trans (ordersTraced_endRun c _)
  · exact suspended

theorem ordersTraced_applyDisposition : OrdersTraced s (applyDisposition c s) := by
  rcases applyDisposition_cases c s with ⟨h, -⟩ | ⟨r, x, n, -, -, h⟩ | ⟨r, d, n, -, -, -, h⟩ <;> rw [h]
  · exact .refl s
  · exact ordersTraced_suspendRun c s x
  · exact ordersTraced_endRun c s

theorem ordersTraced_enterPhase (x : CannonPhase) (n l : Option Nat) : OrdersTraced s (enterPhase c x n l s) := by
  refine ordersTraced_frame ?_ ?_ ?_ fun i => ?_
  · rw [enterPhase, now, syncAlert_yc]
    rfl
  · rw [enterPhase_sd]
  · exact (syncAlert_posts (.valve c) (s.setCannon c _)).keeps.subset
  · rw [State.run, enterPhase_sd, State.run]

theorem ordersTraced_returnToIdle : OrdersTraced s (returnToIdle c s) := by
  have idle : ∀ t, OrdersTraced t (markPass (headerIdle t)) := fun t =>
    ordersTraced_within ((within_headerIdle t).trans (within_markPass _))
      (by rw [markPass, setPass_sd, headerIdle_sd]) fun i => by rw [markPass, setPass_run, headerIdle_run]
  exact (ordersTraced_enterPhase c s _ _ _).trans ((ordersTraced_applyDisposition c _).trans (idle _))

theorem ordersTraced_setQueue (q : List (Fin 32 × Movement)) : OrdersTraced s (s.setQueue q) :=
  ordersTraced_within (within_setQueue s q) rfl fun _ => rfl

theorem ordersTraced_beginClose : OrdersTraced s (beginClose c s) := by
  have stopped := ordersTraced_updateRun c s (fun r => { r with phase := r.phase.withDelivery none }) fun _ => rfl
  unfold beginClose
  split
  · exact stopped.trans (ordersTraced_enterPhase c _ _ _ _)
  · exact stopped.trans (ordersTraced_returnToIdle c _)

theorem ordersTraced_enqueue (m : Movement) : OrdersTraced s (enqueue c m s) := by
  have issued : ∀ t, OrdersTraced t (issueEntry c m t) := by
    intro t
    unfold issueEntry
    split
    · exact ordersTraced_enterPhase c t _ _ _
    · exact ordersTraced_beginClose c t
    · exact ordersTraced_beginClose c t
    · exact .refl t
  unfold enqueue
  split
  · exact OrdersTraced.trans (t := s.setSlot (some (Config.seconds s.site.stagger)))
      (ordersTraced_within (within_setSlot s _) rfl fun _ => rfl) (issued _)
  · exact ordersTraced_setQueue s _

theorem ordersTraced_queuedClose : OrdersTraced s (queuedClose c s) := by
  unfold queuedClose
  split
  · exact (ordersTraced_setQueue s _).trans (ordersTraced_returnToIdle c _)
  · split
    · exact ordersTraced_enqueue c s _
    · exact .refl s
  · exact (ordersTraced_enterPhase c s _ _ _).trans (ordersTraced_enqueue c _ _)
  · exact .refl s

end

/-- Every order of the event is tested at the ends of its runs (R131). -/
theorem OrdersTraced.tests {s t : State} (h : OrdersTraced s t) : OrdersTested s t := by
  refine ⟨h.slots, fun k => ?_⟩
  cases ho : s.order k with
  | none => exact h.free k ho
  | some o =>
    simp only
    by_cases met : o.VolumeMet
    · rcases h.tested k o ho met with ⟨same, runs⟩ | ⟨done, notice, had, left⟩
      · rw [if_neg]
        · exact same
        · rintro ⟨-, had, left⟩
          obtain ⟨c, r, hr, origin⟩ := runs had
          exact left c r hr origin
      · rw [if_pos ⟨met, had, fun c r hr origin => left ⟨c, r, hr, origin⟩⟩]
        exact ⟨done, notice⟩
    · rw [if_neg fun all => met all.1]
      exact h.rest k o ho met

end Sys2Proof.Machine
end

