-- ==== Sys2Proof/Proofs/Drift.lean ====
section
/-! SUPPORT. The drift evaluation (R103, R104, R127): the flag that each cannon is given, the close of a
cannon newly blocked, and what becomes of its run. -/

namespace Sys2Proof.Machine

/-! ## A live run at its cannon's return to IDLE -/

section
variable {c : Fin 32} {s : State} {r : Run}

theorem enterPhase_run (c i : Fin 32) (x : CannonPhase) (n l : Option Nat) (s : State) :
    (enterPhase c x n l s).run i = s.run i := by rw [State.run, enterPhase_sd, State.run]

theorem returnToIdle_sd (c : Fin 32) (s : State) : (returnToIdle c s).sd =
    { (applyDisposition c (enterPhase c .idle none none s)).sd with passDue := true } := by
  rw [returnToIdle, releaseIdle, markPass, setPass_sd, headerIdle_sd]

theorem returnToIdle_suspends {x : SuspendCause} {n : Option Nat} (run : s.run c = some r)
    (phase : r.phase = .active (.suspend x) n) : (returnToIdle c s).sd.suspensions = suspensionsAfter s 1 ∧
    (returnToIdle c s).run c = if s.site.resumeWindow = 0 then none else some { r with
      phase := .suspended x (suspensionsAfter s 1) (Config.seconds s.site.resumeWindow) } := by
  have found : (enterPhase c .idle none none s).run c = some r := (enterPhase_run _ _ _ _ _ s).trans run
  have applied : applyDisposition c (enterPhase c .idle none none s) =
      suspendRun c x (enterPhase c .idle none none s) := by
    unfold applyDisposition
    rw [found]
    simp only [phase]
  have after : suspensionsAfter (enterPhase c .idle none none s) 1 = suspensionsAfter s 1 :=
    suspensionsAfter_of_unchanged (by rw [enterPhase_sd]) 1
  have site : (enterPhase c .idle none none s).site = s.site := syncAlert_site _ _
  have own : (returnToIdle c s).run c = (suspendRun c x (enterPhase c .idle none none s)).run c := by
    rw [State.run, returnToIdle_sd, applied, State.run]
  rw [own, returnToIdle_sd, applied, suspendRun_run, if_pos rfl, found, site, after]
  exact ⟨(suspendRun_suspensions c x _).trans after, rfl⟩

theorem returnToIdle_ends {n : Option Nat} (run : s.run c = some r) (phase : r.phase = .active .ends n) :
    (returnToIdle c s).sd.suspensions = s.sd.suspensions ∧ (returnToIdle c s).run c = none := by
  have found : (enterPhase c .idle none none s).run c = some r := (enterPhase_run _ _ _ _ _ s).trans run
  have applied : applyDisposition c (enterPhase c .idle none none s) = endRun c (enterPhase c .idle none none s) := by
    unfold applyDisposition
    rw [found]
    simp only [phase]
  have own : (returnToIdle c s).run c = (endRun c (enterPhase c .idle none none s)).run c := by
    rw [State.run, returnToIdle_sd, applied, State.run]
  rw [own, returnToIdle_sd, applied]
  exact ⟨(endRun_suspensions c _).trans (by rw [enterPhase_sd]), by rw [endRun_run, if_pos rfl]⟩

end

/-! ## The close of a cannon with a live run -/

/-- What a close does with the run r of the cannon, which has the disposition d: either it stands with d, or
the cannon is back in IDLE and d has been applied (R114, R115). -/
def Closes (c : Fin 32) (d : Disposition) (r : Run) (s t : State) : Prop :=
  ((t.cannon c).phase ≠ .idle ∧ t.sd.suspensions = s.sd.suspensions ∧
    ∃ n, t.run c = some { r with phase := .active d n }) ∨
  ((t.cannon c).phase = .idle ∧ match d with
    | .suspend x => t.sd.suspensions = suspensionsAfter s 1 ∧ t.run c =
        if s.site.resumeWindow = 0 then none else some { r with
          phase := .suspended x (suspensionsAfter s 1) (Config.seconds s.site.resumeWindow) }
    | .ends | .none => t.sd.suspensions = s.sd.suspensions ∧ t.run c = none)

section
variable {c : Fin 32} {s : State} {r : Run} {d : Disposition} {n : Option Nat}

theorem closes_returnToIdle (keeps : d ≠ .none) (run : s.run c = some r) (phase : r.phase = .active d n) :
    Closes c d r s (returnToIdle c s) := by
  refine .inr ⟨by rw [returnToIdle_cannon], ?_⟩
  cases d with
  | suspend x => exact returnToIdle_suspends run phase
  | ends => exact returnToIdle_ends run phase
  | none => exact absurd rfl keeps

theorem Closes.of_counts {t u : State} (h : Closes c d r u t) (count : u.sd.suspensions = s.sd.suspensions)
    (site : u.site = s.site) : Closes c d r s t := by
  unfold Closes at *
  rwa [count, suspensionsAfter_of_unchanged count, site] at h

/-- A close is commanded over a live run, or confirmed at once (R92, R96). -/
theorem closes_beginClose (keeps : d ≠ .none) (run : s.run c = some r) (phase : r.phase = .active d n) :
    Closes c d r s (beginClose c s) := by
  have stopped : (stopDelivery c s).run c = some { r with phase := .active d none } := by
    rw [stopDelivery, updateRun_run, if_pos rfl, run]
    simp only [Option.map_some, phase, RunPhase.withDelivery]
  have count : (stopDelivery c s).sd.suspensions = s.sd.suspensions := updateRun_suspensions _ _ _
  have site : (stopDelivery c s).site = s.site := (within_stopDelivery s c).site
  unfold beginClose
  split
  · refine .inl ⟨?_, ?_, none, ?_⟩
    · rw [commandClose_cannon]
      simp
    · rw [commandClose, enterPhase_sd, count]
    · rw [commandClose, enterPhase_run, stopped]
  · have closes := closes_returnToIdle keeps stopped rfl
    exact closes.of_counts count site

/-- Where a queued close leaves its cannon (R90, R91, R96). -/
def QueuedPhase (c : Fin 32) (s t : State) : Prop :=
  match (s.cannon c).phase with
  | .pendingOpen => (t.cannon c).phase = .idle
  | .opening =>
    ((t.cannon c).phase = .opening ∧ queuedMovement t c = some .closes) ∨
      (s.cc.slot = none ∧ (t.cannon c).phase = if feedbackOpen s c then .closing else .idle)
  | .spraying =>
    ((t.cannon c).phase = .closePending ∧ queuedMovement t c = some .closes) ∨
      (s.cc.slot = none ∧ (t.cannon c).phase = .closing)
  | x => (t.cannon c).phase = x

theorem queuedMovement_append (c : Fin 32) (m : Movement) (s : State) (h : queuedMovement s c = none) :
    queuedMovement (s.setQueue (s.cc.queue ++ [(c, m)])) c = some m := by
  unfold queuedMovement at *
  rw [Option.map_eq_none_iff] at h
  rw [setQueue_cc, List.find?_append, h]
  simp

/-- A close joins the queue, or is issued where the slot stands free (R90). -/
theorem closes_enqueue (keeps : d ≠ .none) (run : s.run c = some r) (phase : r.phase = .active d n)
    (waits : queuedMovement s c = none) (cannon : (s.cannon c).phase = .opening ∨ (s.cannon c).phase = .closePending) :
    Closes c d r s (enqueue c .closes s) ∧
      (((enqueue c .closes s).cannon c = s.cannon c ∧ queuedMovement (enqueue c .closes s) c = some .closes) ∨
        (s.cc.slot = none ∧
          ((enqueue c .closes s).cannon c).phase = if feedbackOpen s c then .closing else .idle)) := by
  unfold enqueue
  split
  · rename_i free
    generalize ht : s.setSlot (some (Config.seconds s.site.stagger)) = t
    have issued : issueEntry c .closes t = beginClose c t := by
      subst ht
      unfold issueEntry
      rcases cannon with h | h <;> simp only [setSlot_cannon, h]
    rw [issued]
    subst ht
    refine ⟨(closes_beginClose (s := s.setSlot (some (Config.seconds s.site.stagger))) keeps run phase).of_counts rfl rfl, .inr ⟨free.2, ?_⟩⟩
    rw [beginClose_cannon]
    change (if feedbackOpen s c then _ else _ : Cannon).phase = _
    split <;> rfl
  · refine ⟨.inl ⟨?_, rfl, n, ?_⟩, .inl ⟨rfl, queuedMovement_append c .closes s waits⟩⟩
    · rcases cannon with h | h <;> simp [h]
    · rw [setQueue_run, run, ← phase]

theorem closes_queuedClose (keeps : d ≠ .none) (run : s.run c = some r) (phase : r.phase = .active d n)
    (busy : (s.cannon c).phase ≠ .idle) (opens : (s.cannon c).phase = .opening → queuedMovement s c ≠ some .opens)
    (sprays : (s.cannon c).phase = .spraying → queuedMovement s c = none ∧ feedbackOpen s c = true) :
    Closes c d r s (queuedClose c s) ∧ QueuedPhase c s (queuedClose c s) := by
  have stands : (s.cannon c).phase ≠ .idle → Closes c d r s s := fun idle =>
    .inl ⟨idle, rfl, n, by rw [run, ← phase]⟩
  unfold QueuedPhase queuedClose
  cases hp : (s.cannon c).phase with
  | pendingOpen =>
    have closes := closes_returnToIdle (s := removeEntry c s) keeps run phase
    exact ⟨closes.of_counts rfl rfl, by simp only [withdrawOpen, returnToIdle_cannon]⟩
  | opening =>
    simp only
    split
    · rename_i waits
      obtain ⟨closes, cannon⟩ := closes_enqueue keeps run phase waits (.inl hp)
      exact ⟨closes, cannon.imp (fun ⟨same, queued⟩ => ⟨by rw [same, hp], queued⟩) id⟩
    · rename_i queued
      refine ⟨stands busy, .inl ⟨hp, ?_⟩⟩
      cases hq : queuedMovement s c with
      | none => exact absurd hq queued
      | some m =>
        cases m with
        | opens => exact absurd hq (opens hp)
        | closes => rfl
  | spraying =>
    obtain ⟨waits, open_⟩ := sprays hp
    generalize ht : enterPhase c .closePending none none s = t
    have found : t.run c = some r := by rw [← ht, enterPhase_run, run]
    have pending : (t.cannon c).phase = .closePending := by rw [← ht, enterPhase_cannon, if_pos rfl]
    have cc : t.cc.queue = s.cc.queue ∧ t.cc.slot = s.cc.slot := by
      rw [← ht, enterPhase, syncAlert_cc]
      exact ⟨rfl, rfl⟩
    have site : t.site = s.site := by rw [← ht, enterPhase, syncAlert_site]; rfl
    have count : t.sd.suspensions = s.sd.suspensions := by rw [← ht, enterPhase_sd]
    have feedback : feedbackOpen t c = true := by
      rw [← open_, feedbackOpen, ← ht, enterPhase, syncAlert_pins]
      rfl
    obtain ⟨closes, cannon⟩ := closes_enqueue keeps found phase ((queuedMovement_of_cc cc.1 c).trans waits) (.inr pending)
    refine ⟨closes.of_counts count site, cannon.imp (fun ⟨same, queued⟩ => ⟨by rw [same, pending], queued⟩)
      fun ⟨free, closing⟩ => ⟨cc.2.symm.trans free, by rw [closing, feedback]; rfl⟩⟩
  | idle => exact absurd hp busy
  | closePending | closing | stuck | faulted | locked => exact ⟨stands busy, hp⟩

end

/-! ## One cannon's judgement -/

theorem driftTest_of_steady {s t : State} (h : Steady s t) (c : Fin 32) (b : Bool) : driftTest t c b = driftTest s c b := by
  have config : (t.cannon c).config = (s.cannon c).config := by rw [h.cannon c]
  simp only [driftTest, config, h.wfe]

/-- The judgement finds a configured cannon newly blocked (R103). -/
def NewlyBlocked (g : State) (c : Fin 32) (d : Cannon) : Prop :=
  d.configured = true ∧ d.driftBlocked = false ∧ driftTest g c false = true

/-- The drift evaluation of one cannon, by what it finds (R103, R104). -/
theorem driftAt_cases (c : Fin 32) (s : State) :
    (((s.cannon c).configured = false ∨ driftTest s c (s.cannon c).driftBlocked = (s.cannon c).driftBlocked) ∧
      driftAt c s = s) ∨
    (NewlyBlocked s c (s.cannon c) ∧ driftAt c s = queuedClose c
      (setDisposition c (.suspend .drift) (s.setCannon c { s.cannon c with driftBlocked := true }))) ∨
    ((s.cannon c).driftBlocked = true ∧ driftTest s c true = false ∧
      driftAt c s = markPass (s.setCannon c { s.cannon c with driftBlocked := false })) := by
  unfold driftAt NewlyBlocked
  simp only
  split
  · rename_i h
    exact .inl ⟨h, rfl⟩
  · rename_i h
    have configured : (s.cannon c).configured = true := by
      cases hc : (s.cannon c).configured with
      | false => exact absurd (.inl hc) h
      | true => rfl
    cases hb : (s.cannon c).driftBlocked <;> cases ht : driftTest s c (s.cannon c).driftBlocked <;> rw [hb] at ht
    · exact absurd (.inr (by rw [hb, ht])) h
    · exact .inr (.inl ⟨⟨configured, rfl, ht⟩, by rw [ht]; rfl⟩)
    · exact .inr (.inr ⟨rfl, ht, by rw [ht]; rfl⟩)
    · exact absurd (.inr (by rw [hb, ht])) h

/-- The cannon that a drift close is requested of: its flag set, its run disposed (R104). -/
def driftMarked (c : Fin 32) (s : State) : State :=
  setDisposition c (.suspend .drift) (s.setCannon c { s.cannon c with driftBlocked := true })

theorem driftMarked_cannon (c : Fin 32) (s : State) :
    (driftMarked c s).cannon c = { s.cannon c with driftBlocked := true } := by
  rw [driftMarked, setDisposition, updateRun_cannon, setCannon_cannon_same]

theorem steady_driftMarked (c : Fin 32) (s : State) : Steady s (driftMarked c s) :=
  (steady_setFlags c true (s.cannon c).excluded s).trans (within_setDisposition _ c _).steady

theorem apart_driftMarked (c : Fin 32) (s : State) : Apart c s (driftMarked c s) :=
  (apart_setCannon c s _).trans (apart_updateRun c _ _)

theorem driftMarked_run (c : Fin 32) (s : State) : (driftMarked c s).run c =
    (s.run c).map fun r => { r with phase := r.phase.dispose (.suspend .drift) } := by
  rw [driftMarked, setDisposition, updateRun_run, if_pos rfl]
  rfl

theorem steady_driftAt (c : Fin 32) (s : State) : Steady s (driftAt c s) := by
  rcases driftAt_cases c s with ⟨-, h⟩ | ⟨-, h⟩ | ⟨-, -, h⟩ <;> rw [h]
  · exact .refl s
  · exact (steady_driftMarked c s).trans (within_queuedClose _ c).steady
  · exact (steady_setFlags c false (s.cannon c).excluded s).trans (within_markPass _).steady

theorem apart_driftAt (c : Fin 32) (s : State) : Apart c s (driftAt c s) := by
  rcases driftAt_cases c s with ⟨-, h⟩ | ⟨-, h⟩ | ⟨-, -, h⟩ <;> rw [h]
  · exact .refl c s
  · exact (apart_driftMarked c s).trans (apart_queuedClose c _)
  · exact { apart_setCannon c s _ with }

theorem driftAt_flag (c : Fin 32) (s : State) (configured : (s.cannon c).configured = true) :
    ((driftAt c s).cannon c).driftBlocked = driftTest s c (s.cannon c).driftBlocked := by
  rcases driftAt_cases c s with ⟨found, h⟩ | ⟨⟨-, clear, blocked⟩, h⟩ | ⟨set, clears, h⟩ <;> rw [h]
  · rcases found with free | same
    · rw [configured] at free
      cases free
    · exact same.symm
  · change ((queuedClose c (driftMarked c s)).cannon c).driftBlocked = _
    rw [(within_queuedClose (driftMarked c s) c).cannon, driftMarked_cannon, clear, blocked]
  · rw [markPass, setPass_cannon, setCannon_cannon_same, set, clears]

theorem ordersTraced_setCannon (c : Fin 32) (d : Cannon) (s : State) : OrdersTraced s (s.setCannon c d) :=
  ordersTraced_frame rfl rfl (fun _ hn => hn) fun _ => rfl

theorem ordersTraced_driftAt (c : Fin 32) (s : State) : OrdersTraced s (driftAt c s) := by
  have disposed := fun t => ordersTraced_updateRun c t
    (fun r => { r with phase := r.phase.dispose (.suspend .drift) }) fun _ => rfl
  rcases driftAt_cases c s with ⟨-, h⟩ | ⟨-, h⟩ | ⟨-, -, h⟩ <;> rw [h]
  · exact .refl s
  · exact (ordersTraced_setCannon c _ s).trans ((disposed _).trans (ordersTraced_queuedClose c _))
  · exact (ordersTraced_setCannon c _ s).trans
      (ordersTraced_within (within_markPass _) rfl fun _ => rfl)

/-- The disposition of a run with d at a drift close: END is kept (R114). -/
def driftDisposition : Disposition → Disposition
  | .ends => .ends
  | .none | .suspend _ => .suspend .drift

/-- What a drift close has made of its cannon and its run (R104, R114, R127). -/
def DriftClosed (c : Fin 32) (s t : State) : Prop :=
  QueuedPhase c s t ∧ match s.run c with
    | none => t.run c = none ∧ t.sd.suspensions = s.sd.suspensions
    | some r =>
      match r.phase with
      | .suspended _ _ _ => t.run c = some r ∧ t.sd.suspensions = s.sd.suspensions
      | .active d _ => Closes c (driftDisposition d) r s t

theorem QueuedPhase.of_eq {c : Fin 32} {s t u : State} (h : QueuedPhase c u t)
    (phase : (u.cannon c).phase = (s.cannon c).phase) (slot : u.cc.slot = none → s.cc.slot = none)
    (feedback : feedbackOpen u c = feedbackOpen s c) : QueuedPhase c s t := by
  unfold QueuedPhase at *
  rw [phase] at h
  split at h
  · exact h
  · exact h.imp id fun ⟨free, closing⟩ => ⟨slot free, by rw [closing, feedback]⟩
  · exact h.imp id fun ⟨free, closing⟩ => ⟨slot free, closing⟩
  · exact h

theorem queuedClose_of_shut {c : Fin 32} {s : State} (h : (s.cannon c).Shut) : queuedClose c s = s := by
  obtain ⟨pending, opening, spraying, -⟩ := h
  unfold queuedClose
  split
  · contradiction
  · contradiction
  · contradiction
  · rfl

theorem queuedPhase_of_shut {c : Fin 32} {s t : State} (h : (s.cannon c).Shut)
    (same : (t.cannon c).phase = (s.cannon c).phase) : QueuedPhase c s t := by
  obtain ⟨pending, opening, spraying, -⟩ := h
  unfold QueuedPhase
  split
  · contradiction
  · contradiction
  · contradiction
  · exact same

theorem driftMarked_suspensions (c : Fin 32) (s : State) :
    (driftMarked c s).sd.suspensions = s.sd.suspensions := updateRun_suspensions _ _ _

theorem driftMarked_feedback (c : Fin 32) (s : State) : feedbackOpen (driftMarked c s) c = feedbackOpen s c := by
  rw [feedbackOpen, (steady_driftMarked c s).pins, feedbackOpen]

theorem driftMarked_cc (c : Fin 32) (s : State) : (driftMarked c s).cc.queue = s.cc.queue ∧
    (driftMarked c s).cc.slot = s.cc.slot := by
  rw [driftMarked, setDisposition, updateRun_cc]
  exact ⟨rfl, rfl⟩

/-- A drift close over a live run (R104, R114). -/
theorem driftClosed_of_live {c : Fin 32} {s : State} {r : Run} {d : Disposition} {n : Option Nat}
    (run : s.run c = some r) (phase : r.phase = .active d n) (valve : ValveSound s c) (sound : RunSound s c) :
    QueuedPhase c s (queuedClose c (driftMarked c s)) ∧
      Closes c (driftDisposition d) r s (queuedClose c (driftMarked c s)) := by
  have disposed : (driftMarked c s).run c = some { r with phase := .active (driftDisposition d) n } := by
    rw [driftMarked_run, run, Option.map_some, phase]
    cases d <;> rfl
  have cannon : ((driftMarked c s).cannon c).phase = (s.cannon c).phase := by rw [driftMarked_cannon]
  have queued := queuedMovement_of_cc (driftMarked_cc c s).1 c
  have busy : (s.cannon c).phase.busy = true := by
    simp only [RunSound, run, phase] at sound
    exact sound.1
  have closes := closes_queuedClose (s := driftMarked c s) (d := driftDisposition d) (by cases d <;> simp [driftDisposition])
    disposed rfl (fun idle => ?_) (fun opening => ?_) (fun spraying => ?_)
  · exact ⟨closes.2.of_eq cannon (fun free => (driftMarked_cc c s).2.symm.trans free) (driftMarked_feedback c s),
      closes.1.of_counts (driftMarked_suspensions c s) (steady_driftMarked c s).site⟩
  · rw [cannon] at idle
    rw [idle] at busy
    cases busy
  · rw [cannon] at opening
    simp only [ValveSound, opening] at valve
    rw [queued]
    exact valve.1
  · rw [cannon] at spraying
    simp only [ValveSound, spraying] at valve
    rw [queued, driftMarked_feedback]
    exact ⟨valve.1, valve.2.2.2⟩

theorem driftClosed_of_sound {c : Fin 32} {s : State} (blocked : NewlyBlocked s c (s.cannon c))
    (valve : ValveSound s c) (sound : RunSound s c) : DriftClosed c s (driftAt c s) := by
  have event : driftAt c s = queuedClose c (driftMarked c s) := by
    rcases driftAt_cases c s with ⟨found, -⟩ | ⟨-, h⟩ | ⟨set, -⟩
    · rcases found with free | same
      · rw [blocked.1] at free
        cases free
      · rw [blocked.2.1, blocked.2.2] at same
        cases same
    · exact h
    · rw [blocked.2.1] at set
      cases set
  have cannon : ((driftMarked c s).cannon c).phase = (s.cannon c).phase := by rw [driftMarked_cannon]
  have still : (s.cannon c).Shut → queuedClose c (driftMarked c s) = driftMarked c s := fun shut =>
    queuedClose_of_shut (by unfold Cannon.Shut; rw [cannon]; exact shut)
  rw [event, DriftClosed]
  cases run : s.run c with
  | none =>
    have shut : (s.cannon c).Shut := by
      unfold Cannon.Shut
      simpa only [RunSound, run] using sound
    rw [still shut]
    exact ⟨queuedPhase_of_shut shut cannon, by rw [driftMarked_run, run]; rfl, driftMarked_suspensions c s⟩
  | some r =>
    cases phase : r.phase with
    | suspended x m w =>
      have idle : (s.cannon c).phase = .idle := by simpa only [RunSound, run, phase] using sound
      have shut : (s.cannon c).Shut := by simp [Cannon.Shut, idle]
      rw [still shut]
      refine ⟨queuedPhase_of_shut shut cannon, ?_⟩
      simp only [phase]
      refine ⟨?_, driftMarked_suspensions c s⟩
      rw [driftMarked_run, run, Option.map_some, phase]
      exact congrArg some (by rw [RunPhase.dispose, ← phase])
    | active d n =>
      simp only [phase]
      exact driftClosed_of_live run phase valve sound

end Sys2Proof.Machine
end

