-- ==== Sys2Proof/Proofs/DriftSweep.lean ====
section
/-! SUPPORT. The drift evaluation of every cannon in ascending order (R103, R104, R115): the numbers of the
runs that it suspends, and the obligation about a gate expiry's publication. -/

namespace Sys2Proof.Machine

theorem countBelow_congr {n : Nat} {p q : Fin 32 → Bool} (h : ∀ i : Fin 32, i.val < n → p i = q i) :
    countBelow n p = countBelow n q := by
  unfold countBelow
  refine congrArg List.length (List.filter_congr fun i _ => ?_)
  by_cases hi : i.val < n
  · rw [h i hi]
  · simp [hi]

theorem suspensionsAfter_add {s u : State} {n : Nat} (h : u.sd.suspensions = suspensionsAfter s n) :
    suspensionsAfter u 1 = suspensionsAfter s (n + 1) := by
  rw [suspensionsAfter_succ, suspensionsAfter_zero, h, suspensionsAfter_succ]

theorem carriesLiveRun_of_active {s : State} {c : Fin 32} {r : Run} {d : Disposition} {n : Option Nat}
    (run : s.run c = some r) (phase : r.phase = .active d n) : carriesLiveRun s c = decide (d ≠ .ends) := by
  unfold carriesLiveRun
  simp only [run, phase]

/-- A run that a SUSPEND would suspend stands on a busy cannon (R114). -/
theorem busy_of_carriesLiveRun {s : State} {c : Fin 32} (sound : RunSound s c) (h : carriesLiveRun s c = true) :
    (s.cannon c).phase ≠ .idle := by
  intro idle
  unfold carriesLiveRun at h
  cases run : s.run c with
  | none => simp [run] at h
  | some r =>
    cases phase : r.phase with
    | suspended x n w => simp [run, phase] at h
    | active d n =>
      simp only [RunSound, run, phase, idle] at sound
      exact absurd sound.1 (by decide)

section
variable {c : Fin 32} {g u t : State} {r : Run} {k : Nat}

theorem Closes.ends (h : Closes c .ends r u t) (count : u.sd.suspensions = suspensionsAfter g k) :
    (if (t.cannon c).phase = .idle then t.run c = none
      else ∃ n, t.run c = some { r with phase := .active .ends n }) ∧
    t.sd.suspensions = suspensionsAfter g (k +
      if decide (Disposition.ends ≠ .ends) && decide ((t.cannon c).phase = .idle) then 1 else 0) := by
  rcases h with ⟨moves, same, n, run⟩ | ⟨idle, same, run⟩
  · rw [if_neg moves]
    exact ⟨⟨n, run⟩, same.trans count⟩
  · rw [if_pos idle]
    exact ⟨run, same.trans count⟩

theorem Closes.suspended {d : Disposition} {x : SuspendCause} (h : Closes c (.suspend x) r u t)
    (live : d ≠ .ends) (site : u.site = g.site) (count : u.sd.suspensions = suspensionsAfter g k) :
    (if (t.cannon c).phase ≠ .idle then ∃ n, t.run c = some { r with phase := .active (.suspend x) n }
      else if g.site.resumeWindow = 0 then t.run c = none
      else t.run c = some { r with
        phase := .suspended x (suspensionsAfter g (k + 1)) (Config.seconds g.site.resumeWindow) }) ∧
    t.sd.suspensions = suspensionsAfter g (k +
      if decide (d ≠ .ends) && decide ((t.cannon c).phase = .idle) then 1 else 0) := by
  rcases h with ⟨moves, same, n, run⟩ | ⟨idle, next, run⟩
  · rw [if_pos moves]
    exact ⟨⟨n, run⟩, by simpa [moves] using same.trans count⟩
  · rw [suspensionsAfter_add count] at next run
    rw [site] at run
    refine ⟨?_, by simpa [idle, live] using next⟩
    rw [if_neg (not_not.2 idle)]
    by_cases closed : g.site.resumeWindow = 0
    · rw [if_pos closed] at run ⊢
      exact run
    · rw [if_neg closed] at run ⊢
      exact run

end

/-- What a drift close makes of the run, with the number that a suspension takes (R114, R115). -/
theorem DriftClosed.suspends {c : Fin 32} {g u t : State} {test : Fin 32 → Bool} (h : DriftClosed c u t)
    (run : u.run c = g.run c) (site : u.site = g.site)
    (count : u.sd.suspensions = suspensionsAfter g (countBelow c test)) : RunSuspends .drift test c g t ∧
      t.sd.suspensions = suspensionsAfter g
        (countBelow c test + if carriesLiveRun g c && decide ((t.cannon c).phase = .idle) then 1 else 0) := by
  obtain ⟨-, h⟩ := h
  rw [run] at h
  cases found : g.run c with
  | none =>
    rw [found] at h
    have dead : carriesLiveRun g c = false := by simp only [carriesLiveRun, found]
    rw [dead]
    exact ⟨fun r hr => absurd hr (by simp [found]), h.2.trans count⟩
  | some r =>
    rw [found] at h
    unfold RunSuspends
    simp only [found, Option.mem_def, Option.some.injEq, forall_eq']
    cases phase : r.phase with
    | suspended x n w =>
      have dead : carriesLiveRun g c = false := by simp only [carriesLiveRun, found, phase]
      simp only [phase] at h
      rw [dead]
      exact ⟨h.1, h.2.trans count⟩
    | active d n =>
      simp only [phase] at h
      rw [carriesLiveRun_of_active found phase]
      cases d with
      | ends => exact h.ends count
      | none | suspend y => exact h.suspended (by simp) site count

theorem newlyBlocked_of_steady {g u : State} {c : Fin 32} (h : Steady g u) (same : u.cannon c = g.cannon c) :
    NewlyBlocked u c (u.cannon c) ↔ NewlyBlocked g c (g.cannon c) := by
  unfold NewlyBlocked
  rw [same, driftTest_of_steady h]

/-- A cannon not newly blocked keeps its state, its run and the counter (R103). -/
theorem driftAt_of_not_blocked {c : Fin 32} {s : State} (h : ¬ NewlyBlocked s c (s.cannon c)) :
    ((driftAt c s).cannon c).phase = (s.cannon c).phase ∧ (driftAt c s).run c = s.run c ∧
      (driftAt c s).sd.suspensions = s.sd.suspensions := by
  rcases driftAt_cases c s with ⟨-, e⟩ | ⟨blocked, -⟩ | ⟨-, -, e⟩
  · rw [e]
    exact ⟨rfl, rfl, rfl⟩
  · exact absurd blocked h
  · rw [e, markPass, setPass_cannon, setCannon_cannon_same]
    exact ⟨rfl, rfl, rfl⟩

/-- The cannons below n have been judged, of the state g; those from n on are as g has them. -/
structure DriftSwept (g : State) (n : Nat) (t : State) : Prop where
  steady : Steady g t
  later : ∀ i : Fin 32, n ≤ i.val →
    t.cannon i = g.cannon i ∧ t.run i = g.run i ∧ queuedMovement t i = queuedMovement g i
  slot : t.cc.slot = none → g.cc.slot = none
  count : t.sd.suspensions = suspensionsAfter g (countBelow n (suspendedIn g t))
  blocked : ∀ i : Fin 32, i.val < n → NewlyBlocked g i (g.cannon i) →
    QueuedPhase i g t ∧ RunSuspends .drift (suspendedIn g t) i g t
  other : ∀ i : Fin 32, i.val < n → ¬ NewlyBlocked g i (g.cannon i) →
    (t.cannon i).phase = (g.cannon i).phase ∧ t.run i = g.run i

theorem suspendedIn_congr {g t u : State} {i : Fin 32} (h : t.cannon i = u.cannon i) :
    suspendedIn g t i = suspendedIn g u i := by
  unfold suspendedIn
  rw [h]

theorem QueuedPhase.of_target {c : Fin 32} {g t u : State} (h : QueuedPhase c g u) (cannon : t.cannon c = u.cannon c)
    (queued : queuedMovement t c = queuedMovement u c) : QueuedPhase c g t := by
  unfold QueuedPhase at *
  rwa [cannon, queued]

theorem runSuspends_of_target {c : Fin 32} {g t u : State} {x : SuspendCause} {p q : Fin 32 → Bool}
    (h : RunSuspends x q c g u) (cannon : t.cannon c = u.cannon c) (run : t.run c = u.run c)
    (count : countBelow c.val p = countBelow c.val q) : RunSuspends x p c g t := by
  unfold RunSuspends at *
  rwa [cannon, run, count]

/-- One more cannon is judged. -/
theorem DriftSwept.next {g u : State} (valves : ∀ c, ValveSound g c) (runs : RunsSound g) (c : Fin 32)
    (h : DriftSwept g c.val u) : DriftSwept g (c.val + 1) (driftAt c u) := by
  obtain ⟨cannon, run, queued⟩ := h.later c (Nat.le_refl _)
  have apart := apart_driftAt c u
  have feedback : feedbackOpen u c = feedbackOpen g c := by rw [feedbackOpen, h.steady.pins, feedbackOpen]
  have below : countBelow c.val (suspendedIn g (driftAt c u)) = countBelow c.val (suspendedIn g u) :=
    countBelow_congr fun i hi => suspendedIn_congr (apart.cannon i fun e => by rw [e] at hi; exact lt_irrefl _ hi)
  have found := h.count
  rw [← below] at found
  have valve : ValveSound u c := by
    unfold ValveSound
    rw [cannon, queued, feedback]
    exact valves c
  have sound : RunSound u c := by
    unfold RunSound
    rw [run, cannon]
    exact runs c
  have own : (NewlyBlocked g c (g.cannon c) → QueuedPhase c g (driftAt c u) ∧
      RunSuspends .drift (suspendedIn g (driftAt c u)) c g (driftAt c u)) ∧
      (¬ NewlyBlocked g c (g.cannon c) → ((driftAt c u).cannon c).phase = (g.cannon c).phase ∧
        (driftAt c u).run c = g.run c) ∧
      (driftAt c u).sd.suspensions = suspensionsAfter g (countBelow (c.val + 1) (suspendedIn g (driftAt c u))) := by
    rw [countBelow_succ]
    by_cases blocked : NewlyBlocked g c (g.cannon c)
    · have closed := driftClosed_of_sound ((newlyBlocked_of_steady h.steady cannon).2 blocked) valve sound
      obtain ⟨suspends, count⟩ := closed.suspends run h.steady.site found
      exact ⟨fun _ => ⟨closed.1.of_eq (by rw [cannon]) h.slot feedback, suspends⟩, fun other => absurd blocked other,
        count⟩
    · obtain ⟨phase, stays, count⟩ :=
        driftAt_of_not_blocked fun is => blocked ((newlyBlocked_of_steady h.steady cannon).1 is)
      have phase : ((driftAt c u).cannon c).phase = (g.cannon c).phase := by rw [phase, cannon]
      have dead : suspendedIn g (driftAt c u) c = false := by
        unfold suspendedIn
        cases live : carriesLiveRun g c with
        | false => rfl
        | true => rw [phase]; simpa using busy_of_carriesLiveRun (runs c) live
      rw [dead]
      exact ⟨fun is => absurd is blocked, fun _ => ⟨phase, stays.trans run⟩, count.trans found⟩
  obtain ⟨closed, other, count⟩ := own
  have earlier : ∀ i : Fin 32, i.val < c.val + 1 → i ≠ c → i.val < c.val := fun i hi ne =>
    Nat.lt_of_le_of_ne (Nat.le_of_lt_succ hi) fun e => ne (Fin.ext e)
  refine ⟨h.steady.trans (steady_driftAt c u), fun i hi => ?_, fun free => h.slot (apart.slot free), count,
    fun i hi blocked => ?_, fun i hi still => ?_⟩
  · have ne : i ≠ c := fun e => by rw [e] at hi; omega
    obtain ⟨cannon, run, queued⟩ := h.later i (Nat.le_of_succ_le hi)
    exact ⟨(apart.cannon i ne).trans cannon, (apart.run i ne).trans run, (apart.queued i ne).trans queued⟩
  · by_cases ne : i = c
    · subst ne
      exact closed blocked
    · obtain ⟨phase, suspends⟩ := h.blocked i (earlier i hi ne) blocked
      refine ⟨phase.of_target (apart.cannon i ne) (apart.queued i ne),
        runSuspends_of_target suspends (apart.cannon i ne) (apart.run i ne) (countBelow_congr fun j hj => ?_)⟩
      exact suspendedIn_congr (apart.cannon j fun e => by have := earlier i hi ne; rw [e] at hj; omega)
  · by_cases ne : i = c
    · subst ne
      exact other still
    · obtain ⟨phase, stays⟩ := h.other i (earlier i hi ne) still
      exact ⟨by rw [apart.cannon i ne]; exact phase, (apart.run i ne).trans stays⟩

theorem driftEvaluation_swept {g : State} (valves : ∀ c, ValveSound g c) (runs : RunsSound g) :
    DriftSwept g 32 (driftEvaluation g) := by
  unfold driftEvaluation
  refine forCannons_induct (P := DriftSwept g) ⟨.refl g, fun _ _ => ⟨rfl, rfl, rfl⟩, id, ?_, ?_, ?_⟩
    fun c t h => h.next valves runs c
  · rw [countBelow_zero]
    rfl
  · exact fun i hi => absurd hi (Nat.not_lt_zero _)
  · exact fun i hi => absurd hi (Nat.not_lt_zero _)

/-- What the sweep does in every state: the flags and the tests of the orders (R103, R131). -/
theorem driftEvaluation_judged (g : State) : Steady g (driftEvaluation g) ∧ OrdersTraced g (driftEvaluation g) ∧
    ∀ c, (g.cannon c).configured = true →
      ((driftEvaluation g).cannon c).driftBlocked = driftTest g c (g.cannon c).driftBlocked := by
  have sweep := forCannons_induct (P := fun n t => Steady g t ∧ OrdersTraced g t ∧ ∀ c : Fin 32,
    if c.val < n then (g.cannon c).configured = true → (t.cannon c).driftBlocked = driftTest g c (g.cannon c).driftBlocked
    else t.cannon c = g.cannon c) (f := driftAt) (s := g) ⟨.refl g, .refl g, fun c => by simp⟩
    fun c t ⟨steady, traced, judged⟩ => by
      refine ⟨steady.trans (steady_driftAt c t), traced.trans (ordersTraced_driftAt c t), fun i => ?_⟩
      by_cases hi : i = c
      · subst hi
        have found : t.cannon i = g.cannon i := by simpa using judged i
        rw [if_pos (Nat.lt_succ_self _)]
        intro configured
        rw [driftAt_flag i t (by rw [found]; exact configured), driftTest_of_steady steady, found]
      · have before : i.val < c.val + 1 ↔ i.val < c.val := by
          have ne : i.val ≠ c.val := fun e => hi (Fin.ext e)
          omega
        simp only [(apart_driftAt c t).cannon i hi, before]
        exact judged i
  obtain ⟨steady, traced, judged⟩ := sweep
  exact ⟨steady, traced, fun c => (if_pos c.isLt).mp (judged c)⟩

/-! ## The whole event -/

section
variable {s g e t : State}

theorem GateFrame.cannon (h : GateFrame s g) (c : Fin 32) : g.cannon c = s.cannon c := by
  rw [State.cannon, h.cc, State.cannon]

theorem GateFrame.run (h : GateFrame s g) (c : Fin 32) : g.run c = s.run c := by rw [State.run, h.runs, State.run]

theorem GateFrame.feedbackOpen (h : GateFrame s g) (c : Fin 32) : feedbackOpen g c = feedbackOpen s c := by
  rw [Machine.feedbackOpen, h.feedback, Machine.feedbackOpen]

theorem GateFrame.valveSound (h : GateFrame s g) (c : Fin 32) (valve : ValveSound s c) : ValveSound g c := by
  have queued : queuedMovement g c = queuedMovement s c := queuedMovement_of_cc (by rw [h.cc]) c
  unfold ValveSound
  rw [h.cannon, queued, h.feedbackOpen]
  exact valve

theorem GateFrame.runSound (h : GateFrame s g) (c : Fin 32) (run : RunSound s c) : RunSound g c := by
  unfold RunSound
  rw [h.cannon, h.run]
  exact run

theorem GateFrame.suspensionsAfter (h : GateFrame s g) (n : Nat) :
    suspensionsAfter g n = suspensionsAfter s n := suspensionsAfter_of_unchanged h.suspensions n

theorem GateFrame.carriesLiveRun (h : GateFrame s g) (c : Fin 32) : carriesLiveRun g c = carriesLiveRun s c := by
  unfold Machine.carriesLiveRun
  rw [h.run]

theorem GateFrame.ordersTraced (h : GateFrame s g) : OrdersTraced s g :=
  ordersTraced_frame (by rw [now, h.yc, now]) h.orders h.notices.subset fun c => by rw [h.run]

/-- A cannon whose live run the event found is not opened by its pass: it stands busy, or is blocked (R108). -/
theorem not_ready_of_live (runs : RunsSound g) (swept : DriftSwept g 32 (driftEvaluation g)) {c : Fin 32}
    (live : carriesLiveRun g c = true) : ¬ ((driftEvaluation g).cannon c).Ready := by
  rintro ⟨idle, -, clear⟩
  by_cases blocked : NewlyBlocked g c (g.cannon c)
  · rw [(driftEvaluation_judged g).2.2 c blocked.1, blocked.2.1, blocked.2.2] at clear
    cases clear
  · rw [(swept.other c c.isLt blocked).1] at idle
    exact busy_of_carriesLiveRun (runs c) live idle

/-- The runs that the event suspends are those that its drift closes suspend. -/
theorem suspendedIn_event (frame : GateFrame s g) (runs : RunsSound g)
    (swept : DriftSwept g 32 (driftEvaluation g)) (granted : Granted (driftEvaluation g) t) (c : Fin 32) :
    suspendedIn s t c = suspendedIn g (driftEvaluation g) c := by
  unfold suspendedIn
  rw [← frame.carriesLiveRun]
  cases live : carriesLiveRun g c with
  | false => rw [Bool.false_and, Bool.false_and]
  | true => rw [(granted.spared c (not_ready_of_live runs swept live)).1]

/-- A cannon newly blocked, after the event and its pass (R104, R127). -/
theorem driftAnswered_event (frame : GateFrame s g) (runs : RunsSound g)
    (swept : DriftSwept g 32 (driftEvaluation g)) (granted : Granted (driftEvaluation g) t) {c : Fin 32}
    (blocked : NewlyBlocked g c (g.cannon c)) : DriftAnswered c s t := by
  have barred : ¬ ((driftEvaluation g).cannon c).Ready := by
    rintro ⟨-, -, clear⟩
    rw [(driftEvaluation_judged g).2.2 c blocked.1, blocked.2.1, blocked.2.2] at clear
    cases clear
  obtain ⟨cannon, run, queued⟩ := granted.spared c barred
  obtain ⟨phase, suspends⟩ := swept.blocked c c.isLt blocked
  refine ⟨?_, (phase.of_eq (by rw [frame.cannon]) (fun free => by rwa [frame.cc] at free)
    (frame.feedbackOpen c)).of_target cannon queued⟩
  have final := runSuspends_of_target suspends cannon run
    (countBelow_congr fun i _ => suspendedIn_event frame runs swept granted i)
  unfold RunSuspends at *
  simpa only [frame.run, frame.site, frame.suspensionsAfter] using final

theorem suspensionsCounted_event (frame : GateFrame s g) (runs : RunsSound g)
    (swept : DriftSwept g 32 (driftEvaluation g)) (granted : Granted (driftEvaluation g) t) :
    SuspensionsCounted (suspendedIn s t) s t := by
  have same : countBelow 32 (suspendedIn s t) = countBelow 32 (suspendedIn g (driftEvaluation g)) :=
    countBelow_congr fun i _ => suspendedIn_event frame runs swept granted i
  unfold SuspensionsCounted
  rw [same, ← frame.suspensionsAfter]
  exact granted.suspensions.trans swept.count

end

/-- Settles O26: the stages' publication, the sweep over the cannons, and the pass that touches neither. -/
theorem gateExpiryPublishesTheWind : Obligations.GateExpiryPublishesTheWind := by
  refine ⟨fun v0 v1 s => ?_, fun f s => currentSlot_eq_some, fun s => currentSlot_eq_none, forecastIsStale_iff,
    mastUsable_iff, sectorPasses_iff⟩
  have frame : GateFrame s (gateStages v0 v1 (s.setPass false)) :=
    GateFrame.trans (t := s.setPass false) { GateFrame.refl s with } (gateFrame_gateStages (s.setPass false) v0 v1)
  obtain ⟨gate, selected, entered, kept, published⟩ := gateStages_wind v0 v1 (s.setPass false)
  have degraded := inStep_gateStages v0 v1 (s.setPass false)
  have within := inEvent_within s (gateStep v0 v1)
  have granted := granted_inEvent s (gateStep v0 v1)
  have pass := (sprayRules_calm .windDegraded).inEvent s (gateStep v0 v1)
  refine ⟨inEvent (gateStep v0 v1) s, rfl, ?_⟩
  change Within (driftEvaluation (gateStages v0 v1 (s.setPass false))) _ at within
  change Granted (driftEvaluation (gateStages v0 v1 (s.setPass false))) _ at granted
  change Calm .windDegraded (driftEvaluation (gateStages v0 v1 (s.setPass false))) _ at pass
  generalize inEvent (gateStep v0 v1) s = t at *
  generalize gateStages v0 v1 (s.setPass false) = g at *
  obtain ⟨steady, traced, flags⟩ := driftEvaluation_judged g
  have swept : ValvesSound s → RunsSound s → DriftSwept g 32 (driftEvaluation g) := fun valves runs =>
    driftEvaluation_swept (fun c => frame.valveSound c (valves.1 c)) fun c => frame.runSound c (runs c)
  have event : Steady g t := steady.trans within.steady
  have mast : ∀ m, t.mast m = g.mast m := mast_of_wfe event.wfe
  have wind : t.wfe.published = windToPublish t := by
    rw [windToPublish_of_eq event.wfe event.yc event.ft event.site, event.wfe, published]
  have slot : currentSlot t = currentSlot s :=
    currentSlot_of_eq (event.yc.trans frame.yc) (event.ft.trans frame.ft) (event.site.trans frame.site)
  have site : t.site = s.site := event.site.trans frame.site
  have flag : ∀ c, (s.cannon c).configured = true →
      (t.cannon c).driftBlocked = driftTest g c (s.cannon c).driftBlocked := fun c configured => by
    have same : (t.cannon c).driftBlocked = ((driftEvaluation g).cannon c).driftBlocked := by rw [within.cannon c]
    rw [same, flags c (by rw [frame.cannon]; exact configured), frame.cannon]
  refine ⟨?_, ?_, ?_, ?_, ?_, ?_, ?_, ?_, ?_, ?_, ?_, ?_, ?_, ?_, ?_, site, ?_, ?_⟩
  · rw [event.wfe, gate]
  · rw [event.wfe, selected]
    unfold selectMast
    rw [mastUsable_of_eq event.site mast, mastUsable_of_eq event.site mast]
  · intro m hm x hx
    rw [event.wfe] at hm ⊢
    rw [mast] at hx
    exact entered m hm x hx
  · rw [event.wfe]
    exact kept
  · rw [wind, windToPublish, slot, site]
    rfl
  · intro live calm
    rw [wind] at live calm ⊢
    obtain ⟨-, mean, direction⟩ := windToPublish_live live
    rw [direction]
    exact Wfe.prevailing_calm (mean ▸ calm)
  · intro live windy
    rw [wind] at live windy ⊢
    obtain ⟨entries, mean, direction⟩ := windToPublish_live live
    rw [direction]
    refine Wfe.prevailing_sector (fun none => ?_) (mean ▸ windy)
    rw [none] at entries
    cases entries
  · exact pass.inStep ((calm_driftEvaluation _ g).inStep degraded)
  · intro c configured
    rw [flag c configured, driftTest, frame.cannon, event.wfe]
  · intro valves runs c configured clear blocked
    refine driftAnswered_event frame (fun i => frame.runSound i (runs i)) (swept valves runs) granted ?_
    rw [flag c configured, clear] at blocked
    rw [frame.cannon]
    exact ⟨configured, clear, blocked⟩
  · exact fun valves runs =>
      suspensionsCounted_event frame (fun i => frame.runSound i (runs i)) (swept valves runs) granted
  · exact (frame.ordersTraced.trans (traced.trans (ordersTraced_granted granted within))).tests
  · exact event.yc.trans frame.yc
  · exact event.ft.trans frame.ft
  · exact event.bwu.trans frame.bwu
  · rw [WaterFrame, event.ponds, event.today, event.previous, frame.wiu]
    exact ⟨rfl, rfl, rfl⟩
  · intro p
    rw [event.pile p, State.pile, frame.pau]
    rfl

end Sys2Proof.Machine
end

