-- ==== Sys2Proof/Proofs/ForecastTable.lean ====
section
/-! SUPPORT. The forecast table as a list: insertion, replacement and displacement (R30), the judgement of one
listed slot (R29), and what each keeps of the table's order, size and hours (R27). -/

namespace Sys2Proof.Machine

/-- The starts are strictly ascending (R27). -/
abbrev StartsAscend (l : List Slot) : Prop := l.Pairwise fun f g => f.start < g.start

variable {f g : Slot} {l : List Slot} {time room : Nat}

/-! ## Insertion and replacement (R30) -/

theorem mem_insertSlot : g ∈ insertSlot f l ↔ g = f ∨ g ∈ l := by
  induction l with
  | nil => simp [insertSlot]
  | cons h l ih =>
    unfold insertSlot
    split
    · rw [List.mem_cons, ih, List.mem_cons]
      exact or_left_comm
    · exact List.mem_cons

theorem length_insertSlot : (insertSlot f l).length = l.length + 1 := by
  induction l with
  | nil => rfl
  | cons h l ih =>
    unfold insertSlot
    split
    · rw [List.length_cons, ih, List.length_cons]
    · rfl

/-- In an ordered table without its start the slot stands between the earlier ones and the later ones. -/
theorem insertSlot_eq (ordered : StartsAscend l) (fresh : ∀ h ∈ l, h.start ≠ f.start) :
    insertSlot f l = (l.filter fun x => decide (x.start < f.start)) ++
      f :: l.filter fun x => decide (f.start < x.start) := by
  induction l with
  | nil => rfl
  | cons h l ih =>
    obtain ⟨after, rest⟩ := List.pairwise_cons.1 ordered
    have own := fresh h (List.mem_cons_self ..)
    unfold insertSlot
    split
    · rename_i before
      have late : ¬ f.start < h.start := by omega
      rw [ih rest fun x hx => fresh x (List.mem_cons_of_mem _ hx)]
      simp [before, late]
    · rename_i before
      have later : ∀ x ∈ h :: l, f.start < x.start := by
        intro x hx
        rcases List.mem_cons.1 hx with rfl | hx
        · omega
        · have := after x hx
          omega
      have none_before : (h :: l).filter (fun x => decide (x.start < f.start)) = [] :=
        List.filter_eq_nil_iff.2 fun x hx => by simpa using (later x hx).le
      have all_after : (h :: l).filter (fun x => decide (f.start < x.start)) = h :: l :=
        List.filter_eq_self.2 fun x hx => by simpa using later x hx
      rw [none_before, all_after]
      rfl

theorem startsAscend_insertSlot (ordered : StartsAscend l) (fresh : ∀ h ∈ l, h.start ≠ f.start) :
    StartsAscend (insertSlot f l) := by
  have later : ∀ x ∈ l.filter (fun x => decide (f.start < x.start)), f.start < x.start := fun x hx => by
    simpa using List.of_mem_filter hx
  rw [insertSlot_eq ordered fresh]
  refine List.pairwise_append.2 ⟨ordered.filter _, List.pairwise_cons.2 ⟨later, ordered.filter _⟩, fun x hx y hy => ?_⟩
  have before : x.start < f.start := by simpa using List.of_mem_filter hx
  rcases List.mem_cons.1 hy with rfl | hy
  · exact before
  · exact before.trans (later y hy)

/-- The slot takes the place of the one of its start. -/
def replaceSlot (f : Slot) (l : List Slot) : List Slot := l.map fun g => if g.start = f.start then f else g

theorem replaceSlot_starts (f : Slot) (l : List Slot) : (replaceSlot f l).map Slot.start = l.map Slot.start := by
  rw [replaceSlot, List.map_map]
  refine List.map_congr_left fun g _ => ?_
  rw [Function.comp_apply]
  split
  · exact Eq.symm ‹_›
  · rfl

theorem mem_replaceSlot (held : ∃ h ∈ l, h.start = f.start) :
    g ∈ replaceSlot f l ↔ g = f ∨ g ∈ l ∧ g.start ≠ f.start := by
  rw [replaceSlot, List.mem_map]
  constructor
  · rintro ⟨x, hx, rfl⟩
    split
    · exact .inl rfl
    · exact .inr ⟨hx, ‹_›⟩
  · rintro (rfl | ⟨hg, ne⟩)
    · obtain ⟨h, hh, same⟩ := held
      exact ⟨h, hh, if_pos same⟩
    · exact ⟨g, hg, if_neg ne⟩

theorem startsAscend_replaceSlot (ordered : StartsAscend l) : StartsAscend (replaceSlot f l) := by
  have starts : (l.map Slot.start).Pairwise (· < ·) := List.pairwise_map.2 ordered
  rw [← replaceSlot_starts f l] at starts
  exact List.pairwise_map.1 starts

theorem any_start_iff : (l.any fun g => decide (g.start = f.start)) = true ↔ ∃ h ∈ l, h.start = f.start := by
  simp

theorem any_start_false (fresh : ∀ h ∈ l, h.start ≠ f.start) :
    (l.any fun g => decide (g.start = f.start)) = false := by simpa using fresh

theorem storeSlot_of_held (held : ∃ h ∈ l, h.start = f.start) : storeSlot room l f = replaceSlot f l :=
  if_pos (any_start_iff.2 held)

theorem storeSlot_of_room (fresh : ∀ h ∈ l, h.start ≠ f.start) (free : l.length < room) :
    storeSlot room l f = insertSlot f l := by
  rw [storeSlot, any_start_false fresh, if_pos free]
  rfl

theorem storeSlot_of_full (fresh : ∀ h ∈ l, h.start ≠ f.start) (full : room ≤ l.length) :
    storeSlot room l f = insertSlot f l.dropLast := by
  rw [storeSlot, any_start_false fresh, if_neg (Nat.not_lt.2 full)]
  rfl

theorem displaces_of_held (held : ∃ h ∈ l, h.start = f.start) : displaces room l f = false := by
  rw [displaces, any_start_iff.2 held]
  rfl

theorem displaces_of_room (free : l.length < room) : displaces room l f = false := by
  rw [displaces, decide_eq_false (Nat.not_le.2 free), Bool.and_false]

theorem displaces_of_full (fresh : ∀ h ∈ l, h.start ≠ f.start) (full : room ≤ l.length) :
    displaces room l f = true := by
  rw [displaces, any_start_false fresh, decide_eq_true full]
  rfl

/-! ## The judgement (R29) -/

/-- No two slots of one start: the table finds the one it holds. -/
theorem find?_start (distinct : (l.map Slot.start).Nodup) (held : g ∈ l) (same : g.start = f.start) :
    (l.find? fun x => decide (x.start = f.start)) = some g := by
  induction l with
  | nil => cases held
  | cons h l ih =>
    obtain ⟨out, rest⟩ := List.nodup_cons.1 (List.map_cons ▸ distinct)
    rcases List.mem_cons.1 held with rfl | held
    · exact List.find?_cons_of_pos (by simpa using same)
    · have other : h.start ≠ f.start := fun k =>
        out (List.mem_map.2 ⟨g, held, same.trans k.symm⟩)
      rw [List.find?_cons_of_neg (by simpa using other), ih rest held]

theorem find?_start_none (fresh : ∀ h ∈ l, h.start ≠ f.start) :
    (l.find? fun x => decide (x.start = f.start)) = none := List.find?_eq_none.2 fun h hh => by
  simpa using fresh h hh

theorem judgeSlot_past (ended : f.start + 3600 ≤ time) : judgeSlot time room l (some f) = .past := if_pos ended

section
variable (ahead : time < f.start + 3600)
include ahead

theorem judgeSlot_older (distinct : (l.map Slot.start).Nodup) (held : g ∈ l) (same : g.start = f.start)
    (newer : f.issue < g.issue) : judgeSlot time room l (some f) = .older := by
  simp only [judgeSlot, find?_start distinct held same, if_neg (Nat.not_le.2 ahead), if_pos newer]

/-- The slot of its start is no newer than it. -/
theorem judgeSlot_replaces (held : ∃ h ∈ l, h.start = f.start)
    (reissued : ∀ h ∈ l, h.start = f.start → h.issue ≤ f.issue) : judgeSlot time room l (some f) = .stored := by
  cases found : l.find? fun x => decide (x.start = f.start) with
  | none =>
    obtain ⟨h, hh, same⟩ := held
    exact absurd same (by simpa using List.find?_eq_none.1 found h hh)
  | some g =>
    have notOlder := reissued g (List.mem_of_find?_eq_some found) (by simpa using List.find?_some found)
    simp only [judgeSlot, found, if_neg (Nat.not_le.2 ahead), if_neg (Nat.not_lt.2 notOlder)]

theorem judgeSlot_inserts (fresh : ∀ h ∈ l, h.start ≠ f.start) (free : l.length < room) :
    judgeSlot time room l (some f) = .stored := by
  simp only [judgeSlot, find?_start_none fresh, if_neg (Nat.not_le.2 ahead), if_pos free]

theorem judgeSlot_displaces (fresh : ∀ h ∈ l, h.start ≠ f.start) (full : room ≤ l.length)
    (later : ∃ h ∈ l, f.start < h.start) : judgeSlot time room l (some f) = .stored := by
  have found : (l.any fun g => decide (f.start < g.start)) = true := by simpa using later
  simp only [judgeSlot, find?_start_none fresh, if_neg (Nat.not_le.2 ahead), if_neg (Nat.not_lt.2 full), found,
    if_true]

theorem judgeSlot_noRoom (earlier : ∀ h ∈ l, h.start < f.start) (full : room ≤ l.length) :
    judgeSlot time room l (some f) = .noRoom := by
  have found : (l.any fun g => decide (f.start < g.start)) = false := by
    simpa using fun h hh => (earlier h hh).le
  simp only [judgeSlot, find?_start_none fun h hh => (earlier h hh).ne, if_neg (Nat.not_le.2 ahead),
    if_neg (Nat.not_lt.2 full), found]
  rfl

end

/-- A slot counted stored has not ended, and the table holds its start, has room, or gives up a later slot
for it (R29, R30). -/
theorem judgeSlot_stored (h : judgeSlot time room l (some f) = .stored) : time < f.start + 3600 ∧
    ((∃ g ∈ l, g.start = f.start) ∨ (∀ g ∈ l, g.start ≠ f.start) ∧ (l.length < room ∨ l ≠ [])) := by
  simp only [judgeSlot] at h
  split at h
  · cases h
  · refine ⟨Nat.not_le.1 ‹_›, ?_⟩
    split at h
    · rename_i g found
      exact .inl ⟨g, List.mem_of_find?_eq_some found, by simpa using List.find?_some found⟩
    · rename_i found
      refine .inr ⟨fun g hg => by simpa using List.find?_eq_none.1 found g hg, ?_⟩
      split at h
      · exact .inl ‹_›
      · rename_i later
        refine .inr fun empty => ?_
        rw [empty] at h
        cases h

/-! ## The law of the table (R27) -/

/-- What R27 says of the table at a yard time, in a partition of its size. -/
structure TableSound (time room : Nat) (l : List Slot) : Prop where
  ordered : StartsAscend l
  length : l.length ≤ room
  hour : ∀ f ∈ l, f.start % 3600 = 0
  ahead : ∀ f ∈ l, time < f.start + 3600

theorem forecastSound_iff {s : State} : ForecastSound s ↔ TableSound s.yc.time s.mau.split.forecast s.ft.slots :=
  ⟨fun ⟨ordered, length, each⟩ => ⟨ordered, length, fun f hf => (each f hf).1, fun f hf => (each f hf).2⟩,
    fun ⟨ordered, length, hour, ahead⟩ => ⟨ordered, length, fun f hf => ⟨hour f hf, ahead f hf⟩⟩⟩

theorem TableSound.nil : TableSound time room [] where
  ordered := .nil
  length := Nat.zero_le _
  hour _ h := nomatch h
  ahead _ h := nomatch h

theorem TableSound.sublist {k : List Slot} (h : TableSound time room l) (sub : k.Sublist l) :
    TableSound time room k where
  ordered := h.ordered.sublist sub
  length := sub.length_le.trans h.length
  hour f hf := h.hour f (sub.subset hf)
  ahead f hf := h.ahead f (sub.subset hf)

/-- Whatever the time becomes, a purge at it leaves a sound table (R32). -/
theorem TableSound.purged {now : Nat} (h : TableSound time room l) :
    TableSound now room (l.filter fun f => decide (now < f.start + 3600)) where
  ordered := h.ordered.sublist List.filter_sublist
  length := List.filter_sublist.length_le.trans h.length
  hour f hf := h.hour f (List.mem_of_mem_filter hf)
  ahead f hf := by simpa using List.of_mem_filter hf

theorem TableSound.insert (h : TableSound time room l) (free : l.length < room)
    (fresh : ∀ g ∈ l, g.start ≠ f.start) (hour : f.start % 3600 = 0) (ahead : time < f.start + 3600) :
    TableSound time room (insertSlot f l) where
  ordered := startsAscend_insertSlot h.ordered fresh
  length := by rw [length_insertSlot]; exact free
  hour g hg := (mem_insertSlot.1 hg).elim (fun e => e ▸ hour) (h.hour g)
  ahead g hg := (mem_insertSlot.1 hg).elim (fun e => e ▸ ahead) (h.ahead g)

theorem TableSound.replace (h : TableSound time room l) (held : ∃ g ∈ l, g.start = f.start)
    (hour : f.start % 3600 = 0) (ahead : time < f.start + 3600) : TableSound time room (replaceSlot f l) where
  ordered := startsAscend_replaceSlot h.ordered
  length := by rw [replaceSlot, List.length_map]; exact h.length
  hour g hg := ((mem_replaceSlot held).1 hg).elim (fun e => e ▸ hour) fun k => h.hour g k.1
  ahead g hg := ((mem_replaceSlot held).1 hg).elim (fun e => e ▸ ahead) fun k => h.ahead g k.1

/-- A slot that is stored replaces, enters where there is room, or enters where the last has left (R30). -/
theorem TableSound.store (h : TableSound time room l) (hour : f.start % 3600 = 0)
    (stored : judgeSlot time room l (some f) = .stored) : TableSound time room (storeSlot room l f) := by
  obtain ⟨ahead, held | ⟨fresh, place⟩⟩ := judgeSlot_stored stored
  · rw [storeSlot_of_held held]
    exact h.replace held hour ahead
  · by_cases free : l.length < room
    · rw [storeSlot_of_room fresh free]
      exact h.insert free fresh hour ahead
    · have occupied : l ≠ [] := place.resolve_left free
      have shorter : l.dropLast.length < room := by
        have := List.length_pos_iff.2 occupied
        have := h.length
        rw [List.length_dropLast]
        omega
      rw [storeSlot_of_full fresh (Nat.not_lt.1 free)]
      exact (h.sublist (List.dropLast_sublist l)).insert shorter
        (fun g hg => fresh g ((List.dropLast_sublist l).subset hg)) hour ahead

/-- One listed slot leaves a sound table, whatever becomes of it. -/
theorem TableSound.take {t : Tally} (h : TableSound time room t.table) {slot : Option Slot}
    (hour : ∀ f ∈ slot, f.start % 3600 = 0) : TableSound time room (takeSlot time room t slot).table := by
  unfold takeSlot
  split
  · rename_i f judged
    exact h.store (hour f rfl) judged
  · exact h
  · exact h
  · exact h
  · exact h

/-- A slot whose fields are valid starts on a whole hour (R29). -/
theorem slot?_hour {issue : Nat} {x : SlotFields} (h : slot? issue x = some f) : f.start % 3600 = 0 := by
  unfold slot? at h
  split at h
  · rename_i valid
    cases h
    exact valid.1
  · cases h

theorem tableSound_tallyForecast {s : State} (h : TableSound s.yc.time s.mau.split.forecast s.ft.slots)
    (issue : Nat) (fs : List SlotFields) :
    TableSound s.yc.time s.mau.split.forecast (tallyForecast s issue fs).table := by
  unfold tallyForecast
  generalize ht : (⟨s.ft.slots, 0, 0, 0, 0, 0, 0⟩ : Tally) = t
  have start : TableSound s.yc.time s.mau.split.forecast t.table := by rw [← ht]; exact h
  clear ht
  induction fs generalizing t with
  | nil => exact start
  | cons x fs ih => exact ih _ (start.take fun f hf => slot?_hour hf)

end Sys2Proof.Machine
end

