-- ==== Sys2Proof/Proofs/ForecastLaw.lean ====
section
/-! SUPPORT. The forecast table under every command: the second, SET_TIME, FORECAST and POOL_SPLIT keep its law,
and nothing else reaches what the law is read from (R20, R27, R30, R32, R36). -/

namespace Sys2Proof.Machine

/-- What the law of the table is read from stands: the slots, the present time and the partition's size. -/
structure SameTable (s t : State) : Prop where
  slots : t.ft.slots = s.ft.slots
  time : t.yc.time = s.yc.time
  room : t.mau.split.forecast = s.mau.split.forecast

theorem SameTable.refl (s : State) : SameTable s s := ⟨rfl, rfl, rfl⟩

theorem SameTable.trans {s t u : State} (h : SameTable s t) (k : SameTable t u) : SameTable s u :=
  ⟨k.slots.trans h.slots, k.time.trans h.time, k.room.trans h.room⟩

theorem Quiet.sameTable {s t : State} (h : Quiet s t) : SameTable s t :=
  ⟨by rw [h.ft], by rw [h.yc], by rw [h.mau]⟩

theorem Within.sameTable {s t : State} (h : Within s t) : SameTable s t := h.quiet.sameTable

theorem LineOnly.sameTable {s t : State} (h : LineOnly s t) : SameTable s t := by
  rw [h.rest]
  exact ⟨rfl, rfl, rfl⟩

theorem SameTable.sound {s t : State} (h : SameTable s t) (k : ForecastSound s) : ForecastSound t := by
  rw [forecastSound_iff] at *
  rw [h.slots, h.time, h.room]
  exact k

section
variable (s : State)

theorem sameTable_syncAlert (e : AlertId) : SameTable s (syncAlert e s) := (within_syncAlert s e).sameTable

/-! ## The boundary -/

theorem sameTable_setMonitor (m : Fin 8) (v : Monitor) : SameTable s (s.setMonitor m v) := ⟨rfl, rfl, rfl⟩

/-- What an episode's opening, update and closure end with. -/
theorem sameTable_announced (n : Notice) : SameTable s (recomputeEscalation (post n s)) :=
  ((within_post s n).quiet.trans (quiet_forPiles _ escalate fun p t => quiet_setPile t p _)).sameTable

theorem sameTable_openEpisode (m : Fin 8) (v k : Nat) : SameTable s (openEpisode m v k s) := by
  unfold openEpisode
  refine SameTable.trans ?_ (sameTable_announced _ _)
  exact ⟨rfl, rfl, rfl⟩

theorem sameTable_updateEpisode (m : Fin 8) (v k : Nat) (e : Episode) :
    SameTable s (updateEpisode m v k e s) := by
  unfold updateEpisode
  refine SameTable.trans ?_ (sameTable_announced _ _)
  exact ⟨rfl, rfl, rfl⟩

theorem sameTable_closeEpisode (k : Nat) (r : CloseReason) : SameTable s (closeEpisode k r s) := by
  unfold closeEpisode
  split
  · exact .refl s
  · refine SameTable.trans ?_ (sameTable_announced _ _)
    exact ⟨rfl, rfl, rfl⟩

theorem sameTable_closeStale (m : Fin 8) : SameTable s (closeStale m s) := by
  unfold closeStale
  split
  · exact sameTable_closeEpisode s _ _
  · exact .refl s

theorem sameTable_holdOff (m : Fin 8) (k : Nat) : SameTable s (holdOff m k s) := by
  have counted := sameTable_setMonitor s m { s.monitor m with belowRun := min ((s.monitor m).belowRun + 1) 255 }
  unfold holdOff
  simp only
  split
  · exact counted.trans (sameTable_closeEpisode _ _ _)
  · exact counted

theorem sameTable_readingStep (m : Fin 8) (v : Nat) : SameTable s (readingStep m v s) := by
  have recorded : SameTable s (recordReading m v s) :=
    (sameTable_setMonitor s m _).trans (sameTable_syncAlert _ _)
  unfold readingStep
  simp only
  repeat' split
  · exact recorded.trans (sameTable_openEpisode _ _ _ _)
  · exact recorded
  · exact recorded
  · exact recorded.trans (sameTable_updateEpisode _ _ _ _ _)
  · exact recorded.trans (sameTable_holdOff _ _ _)

theorem sameTable_configureMonitor (m : Fin 8) (f : MonitorFields) : SameTable s (configureMonitor m f s) :=
  (sameTable_setMonitor s m _).trans (sameTable_syncAlert _ _)

theorem sameTable_releaseMonitor (m : Fin 8) : SameTable s (releaseMonitor m s) := by
  unfold releaseMonitor
  split
  · exact (sameTable_closeStale s m).trans ((sameTable_setMonitor _ m _).trans (sameTable_syncAlert _ _))
  · exact .refl s

theorem sameTable_monitorStaleStep (m : Fin 8) : SameTable s (monitorStaleStep m s) := by
  unfold monitorStaleStep
  split
  · exact .refl s
  · exact (sameTable_setMonitor s m _).trans <| (sameTable_syncAlert _ _).trans <|
      (sameTable_closeStale _ m).trans (sameTable_setMonitor _ m _)

/-! ## The wind, the modes and the alerts -/

theorem sameTable_pulseStep (m : Fin 2) : SameTable s (pulseStep m s) := by
  unfold pulseStep
  simp only
  split <;> exact ⟨rfl, rfl, rfl⟩

theorem sameTable_rainEdge : SameTable s (rainEdge s) := by
  unfold rainEdge
  simp only
  split
  · exact SameTable.trans (t := (setRainLow s).setWfe _) ⟨rfl, rfl, rfl⟩ (quiet_shareRain _ _).sameTable
  · exact ⟨rfl, rfl, rfl⟩

theorem sameTable_setWfe (w : Wfe) : SameTable s (s.setWfe w) := ⟨rfl, rfl, rfl⟩

theorem sameTable_gateMeasured (v w : BitVec 4) : SameTable s (gateMeasured v w s) := by
  have measured : ∀ x m t, SameTable t (measureMast x m t) := fun x m t => by
    rw [measureMast_eq]
    exact ⟨rfl, rfl, rfl⟩
  have marked : ∀ b m t, SameTable t (markSuspect b m t) := fun b m t => by
    rw [markSuspect_eq]
    exact ⟨rfl, rfl, rfl⟩
  unfold gateMeasured
  rw [testSuspicion_eq]
  exact (sameTable_setWfe s _).trans <| (measured _ _ _).trans <| (measured _ _ _).trans <|
    (marked _ _ _).trans <| (marked _ _ _).trans (within_syncAlerts _ _).sameTable

theorem sameTable_gateStages (v w : BitVec 4) : SameTable s (gateStages v w s) := by
  rw [gateStages_eq]
  refine (sameTable_gateMeasured s v w).trans ?_
  generalize gateMeasured v w s = t
  unfold publish
  rw [enterWindow_eq]
  exact (sameTable_setWfe t _).trans ((sameTable_setWfe _ _).trans (sameTable_syncAlert _ _))

theorem sameTable_gateStep (v w : BitVec 4) : SameTable s (gateStep v w s) :=
  (sameTable_gateStages s v w).trans (quiet_driftEvaluation _).sameTable

theorem sameTable_enterMode (m : Mode) (x : Cause) : SameTable s (enterMode m x s) :=
  SameTable.trans (t := s.setMode m (some x)) ⟨rfl, rfl, rfl⟩
    ((within_post _ _).quiet.trans (enterMode_quiet s m x)).sameTable

theorem sameTable_stopStep (b : Bool) : SameTable s (stopStep b s) := by
  have taken : SameTable s (setStop b s) := ⟨rfl, rfl, rfl⟩
  unfold stopStep
  simp only
  split
  · exact taken.trans (sameTable_enterMode _ _ _)
  · exact taken

theorem sameTable_modeStep (m : Mode) : SameTable s (modeStep m s) := by
  unfold modeStep
  split
  · exact .refl s
  · exact sameTable_enterMode s _ _

theorem sameTable_ackStep (e : AlertId) : SameTable s (ackStep e s) := by
  unfold ackStep
  simp only
  split <;> exact ⟨rfl, rfl, rfl⟩

/-! ## The day and SITE_SETUP -/

theorem sameTable_rolloverTest : SameTable s (rolloverTest s) := by
  unfold rolloverTest
  split
  · exact ⟨rfl, rfl, rfl⟩
  · split
    · exact SameTable.trans (t := s.setYc { s.yc with recordedDay := some (currentDay s) }) ⟨rfl, rfl, rfl⟩
        (quiet_rollover s).sameTable
    · exact .refl s

theorem sameTable_siteDated (v : Site) : SameTable s (siteDated v s) := by
  have dated : ∀ b t, SameTable t (retestDay b t) := fun b t => by
    unfold retestDay
    split
    · exact sameTable_rolloverTest t
    · exact .refl t
  have gauged : ∀ b t, SameTable t (refitGauge b t) := fun b t => by
    unfold refitGauge
    split <;> exact ⟨rfl, rfl, rfl⟩
  have refitted : ∀ x y t, SameTable t (refitMast x y t) := fun x y t => by
    obtain ⟨masts, h⟩ := refitMast_writes t x y
    rw [h]
    exact SameTable.trans (t := { t with wfe := { t.wfe with masts := masts } }) ⟨rfl, rfl, rfl⟩
      (within_syncAlerts _ _).sameTable
  exact SameTable.trans (t := s.setSite v) ⟨rfl, rfl, rfl⟩ <|
    (refitted _ _ _).trans ((gauged _ _).trans (dated _ _))

theorem sameTable_siteStep (v : Site) : SameTable s (siteStep v s) := by
  obtain ⟨machines, x, rfl, -, steady⟩ := steady_siteStep v s
  have ft : (siteStep v s).ft = (siteDated v s).ft := steady.ft
  have yc : (siteStep v s).yc = (siteDated v s).yc := steady.yc
  have split : (siteStep v s).mau.split = (siteDated v s).mau.split := by rw [steady.mau]
  exact (sameTable_siteDated s v).trans ⟨by rw [ft], by rw [yc], by rw [split]⟩

/-! ## The restart, POLL and the tick -/

theorem sameTable_warmRestart : SameTable s (warmRestart s) := by
  obtain ⟨-, yc, -, ft, -, -, -, -, -, -, split⟩ := restarted_frame s
  have restarts : SameTable s (restarted s) := ⟨by rw [ft], by rw [yc], by rw [split]⟩
  have latched : ∀ t, SameTable t (relatchAll t) := fun t => by
    obtain ⟨a, n, read⟩ := relatchAll_eq t
    rw [read]
    exact ⟨rfl, rfl, rfl⟩
  have obeyed : ∀ t, SameTable t (obeyStop t) := fun t => by
    unfold obeyStop
    split
    · exact sameTable_enterMode t _ _
    · exact .refl t
  rw [warmRestart_eq]
  exact restarts.trans ((latched _).trans ((obeyed _).trans (within_setPass _ _).sameTable))

theorem sameTable_pollEvent (n : Nat) : SameTable s (pollEvent n s).1 := by
  unfold pollEvent
  generalize s.lc.notices.take n = l, ([] : List Byte) = b
  induction l generalizing s b with
  | nil => exact .refl s
  | cons x l ih =>
    have taken : SameTable s (delivered x s) := by
      unfold delivered
      repeat' split
      all_goals exact ⟨rfl, rfl, rfl⟩
    have left : SameTable (delivered x s) ((delivered x s).setNotices (s.lc.notices.erase x)) := ⟨rfl, rfl, rfl⟩
    exact taken.trans (left.trans (ih _ _))

end

/-! ## The clock's events, FORECAST and POOL_SPLIT -/

section
variable {s : State}

/-- The table of a sound state, purged at the time that the clock has come to (R32). -/
theorem forecastSound_purge {time : Nat} (h : TableSound time s.mau.split.forecast s.ft.slots) :
    ForecastSound (purge s) := forecastSound_iff.2 h.purged

/-- A new time, and the day's turn that it may bring, leave the slots and the partition as they are. -/
theorem sameTable_newTime (y : Yc) (s : State) :
    SameTable (s.setYc y) (rolloverTest (syncAlert .timeInvalid (s.setYc y))) :=
  (sameTable_syncAlert _ _).trans (sameTable_rolloverTest _)

theorem forecastSound_setTimeStep (n : Nat) (h : ForecastSound s) : ForecastSound (setTimeStep n s) := by
  have dated := sameTable_newTime { s.yc with time := n, valid := true } s
  unfold setTimeStep
  refine (sameTable_syncAlert _ _).sound (forecastSound_purge (time := s.yc.time) ?_)
  rw [dated.slots, dated.room]
  exact forecastSound_iff.1 h

/-- Between two hours no slot ends: one that starts on an hour and lies ahead of a second lies ahead of the
next (R20, R32). -/
theorem ahead_of_nextTime {time start : Nat} (hour : start % 3600 = 0) (ahead : time < start + 3600)
    (between : (nextTime time).1 % 3600 ≠ 0) : (nextTime time).1 < start + 3600 := by
  unfold nextTime at *
  split
  · rw [if_pos ‹_›] at between
    omega
  · omega

theorem forecastSound_secondStep (h : ForecastSound s) : ForecastSound (secondStep s) := by
  rw [secondStep_eq]
  have sound := forecastSound_iff.1 h
  split
  · refine (sameTable_syncAlert _ _).sound ?_
    have dated := sameTable_newTime { s.yc with
      second := Config.ticksPerSecond, time := (nextTime s.yc.time).1, valid := (nextTime s.yc.time).2 } s
    generalize rolloverTest _ = t at dated
    have stands : TableSound s.yc.time t.mau.split.forecast t.ft.slots := by
      rw [dated.slots, dated.room]
      exact sound
    unfold purgeAtHour
    split
    · exact forecastSound_purge stands
    · rename_i between
      rw [dated.time] at between
      refine forecastSound_iff.2 { stands with ahead := fun f hf => ?_ }
      rw [dated.time]
      exact ahead_of_nextTime (stands.hour f hf) (stands.ahead f hf) between
  · exact (sameTable_syncAlert _ _).sound h

theorem forecastSound_forecastStep (issue time : Nat) (fs : List SlotFields) (h : ForecastSound s) :
    ForecastSound (forecastStep issue time fs s) :=
  (sameTable_syncAlert _ _).sound (forecastSound_iff.2 (tableSound_tallyForecast (forecastSound_iff.1 h) issue fs))

theorem forecastSound_splitStep (f e o : Nat) : ForecastSound (splitStep f e o s) := by
  have emptied : (splitStep f e o s).ft.slots = [] := by simp [splitStep, emptyEpisodes, recomputeEscalation,
    (quiet_forPiles _ escalate fun p t => quiet_setPile t p _).ft]
  rw [forecastSound_iff, emptied]
  exact .nil

end

/-! ## Every command -/

theorem Reaches.forecastSound {f : State → State} (h : Reaches f) {s : State} (k : ForecastSound s) :
    ForecastSound (f s) := by
  cases h with
  | rain => exact (sameTable_rainEdge s).sound k
  | second => exact forecastSound_secondStep k
  | stop b => exact (sameTable_stopStep s b).sound k
  | site v => exact (sameTable_siteStep s v).sound k
  | split f e o => exact forecastSound_splitStep f e o
  | configureMonitor m f => exact (sameTable_configureMonitor s m f).sound k
  | releaseMonitor m => exact (sameTable_releaseMonitor s m).sound k
  | attrib m n ps => exact k
  | mode m => exact (sameTable_modeStep s m).sound k
  | setTime t => exact forecastSound_setTimeStep t k
  | forecast i t fs => exact forecastSound_forecastStep i t fs k
  | reading m v => exact (sameTable_readingStep s m v).sound k
  | mastService m b => exact (SameTable.trans (t := s.setMast m _) ⟨rfl, rfl, rfl⟩ (sameTable_syncAlert _ _)).sound k
  | ack e => exact (sameTable_ackStep s e).sound k

theorem keeps_forecastSound (i : Instr) : Keeps i ForecastSound where
  line _ _ h k := h.sameTable.sound k
  powerOn _ _ _ _ _ := forecastSound_iff.2 .nil
  pulse m s k := (sameTable_pulseStep s m).sound k
  bounce _ k := k
  monitorStale m s k := (sameTable_monitorStaleStep s m).sound k
  makes f s h k := by
    refine (inEvent_within s f).sameTable.sound ?_
    rcases h.quiet_or_reaches with ⟨v, w, -, rfl⟩ | q | r
    · exact (sameTable_gateStep (s.setPass false) v w).sound k
    · exact (q _).sameTable.sound k
    · exact r.forecastSound k
  asks j f s h k := by
    refine (inEvent_within s f).sameTable.sound ?_
    rcases h.quiet_or_reaches with q | r
    · exact (q _).sameTable.sound k
    · exact r.forecastSound k
  poll n s k := (sameTable_pollEvent s n).sound k
  restart s k := (sameTable_warmRestart s).sound k

/-- Settles O6: four events keep the table's law, and nothing else reaches what it is read from. -/
theorem forecastTableStaysOrdered : Obligations.ForecastTableStaysOrdered := fun _ _ sound h =>
  step_keeps keeps_forecastSound (fun _ _ _ k => k) (fun _ k => k) h sound

end Sys2Proof.Machine
end

