-- ==== Sys2Proof/Proofs/Clock.lean ====
section
/-! SUPPORT. The clock takes a new reading, at a second or at a SET_TIME: the day is tested on it, the forecast
purged, and the two conditions that read the clock evaluated (R20 to R25, R32, R33). -/

namespace Sys2Proof.Machine

/-! ## The day test -/

section
variable (s : State)

theorem rollover_countdown : (rollover s).pau.countdown = s.pau.countdown := by
  unfold rollover
  simp only
  obtain ⟨piles, zeroed⟩ := forPiles_zeroDelivered
    (closeDay (currentDay s) (s.setYc { s.yc with recordedDay := some (currentDay s) }))
  rw [post_pau, zeroed, setPau_pau]
  exact (within_closeDay _ _).assessment

theorem rolloverTest_countdown : (rolloverTest s).pau.countdown = s.pau.countdown := by
  unfold rolloverTest
  split
  · rfl
  · split
    · exact rollover_countdown s
    · rfl

variable {s}

/-- A day number that does not pass the recorded one asks for no pass (R23). -/
theorem rolloverTest_sd (current : ∀ d ∈ s.yc.recordedDay, currentDay s ≤ d) : (rolloverTest s).sd = s.sd := by
  unfold rolloverTest
  cases recorded : s.yc.recordedDay with
  | none => rfl
  | some d =>
    simp only
    rw [if_neg (Nat.not_lt.2 (current d recorded))]

end

/-! ## A new reading -/

/-- The clock takes the reading y; the table is purged where it is asked for. -/
def takeTime (y : Yc) (purges : Bool) (s : State) : State :=
  let t := rolloverTest (syncAlert .timeInvalid (s.setYc y))
  syncAlert .forecastStale (if purges then purge t else t)

/-- What a new reading leaves of the clock, the table and the day records, and what it leaves alone. -/
structure TimeTaken (y : Yc) (purges : Bool) (s t : State) : Prop where
  yc : t.yc = { y with recordedDay := t.yc.recordedDay }
  ft : t.ft = { s.ft with slots := if purges then s.ft.slots.filter fun f => decide (y.time < f.start + 3600)
    else s.ft.slots }
  tested : DayTested (dayNumber y.time s.site.dayOffset) s t
  stale : InStep .forecastStale t
  invalid : InStep .timeInvalid t
  wfe : t.wfe = s.wfe
  bwu : t.bwu = s.bwu
  site : t.site = s.site
  machines : t.cc.machines = s.cc.machines
  orders : t.sd.orders = s.sd.orders
  ponds : t.wiu.ponds = s.wiu.ponds
  countdown : t.pau.countdown = s.pau.countdown

section
variable {y : Yc} {purges : Bool} {s : State}

/-- The day test under a new reading that has kept the recorded day. -/
theorem rolloverTest_newTime (recorded : y.recordedDay = s.yc.recordedDay) :
    Undated (s.setYc y) (rolloverTest (syncAlert .timeInvalid (s.setYc y))) ∧
      DayTested (dayNumber y.time s.site.dayOffset) s (rolloverTest (syncAlert .timeInvalid (s.setYc y))) := by
  obtain ⟨undated, tested⟩ := rolloverTest_dated (syncAlert .timeInvalid (s.setYc y))
  simp only [DayTested, syncAlert_yc, syncAlert_site, syncAlert_wiu, setYc_yc, setYc_site, setYc_wiu, recorded]
    at tested
  have written : Undated (s.setYc y) (syncAlert .timeInvalid (s.setYc y)) :=
    ⟨syncAlert_pins _ _, syncAlert_ft _ _, syncAlert_cc _ _, by rw [syncAlert_sd], syncAlert_bwu _ _, syncAlert_mode _ _,
      by rw [syncAlert_wiu], by rw [syncAlert_wiu], by rw [syncAlert_yc]⟩
  exact ⟨written.trans undated, tested⟩

theorem inStep_timeInvalid_takeTime (y : Yc) (purges : Bool) (s : State) :
    InStep .timeInvalid (takeTime y purges s) := by
  unfold takeTime
  refine (calm_syncAlert .forecastStale .timeInvalid _).inStep ?_
  have dated : InStep .timeInvalid (rolloverTest (syncAlert .timeInvalid (s.setYc y))) :=
    ((flowed_rolloverTest .timeInvalid _).calm (by simp) (by simp)).inStep (inStep_syncAlert _ _)
  split
  · exact (calm_purge .timeInvalid _ (by simp)).inStep dated
  · exact dated

theorem timeTaken_takeTime (purges : Bool) (recorded : y.recordedDay = s.yc.recordedDay) :
    TimeTaken y purges s (takeTime y purges s) := by
  have invalid := inStep_timeInvalid_takeTime y purges s
  obtain ⟨undated, tested⟩ := rolloverTest_newTime recorded
  have wfe : (rolloverTest (syncAlert .timeInvalid (s.setYc y))).wfe = s.wfe := by simp
  have site : (rolloverTest (syncAlert .timeInvalid (s.setYc y))).site = s.site := by simp
  have countdown : (rolloverTest (syncAlert .timeInvalid (s.setYc y))).pau.countdown = s.pau.countdown := by
    rw [rolloverTest_countdown, syncAlert_pau]
    rfl
  unfold takeTime at *
  generalize rolloverTest (syncAlert .timeInvalid (s.setYc y)) = d at *
  have table : d.ft = s.ft := undated.ft
  have time : d.yc.time = y.time := by rw [undated.yc]; rfl
  simp only at invalid ⊢
  have written : ∃ slots, (if purges then purge d else d) = d.setFt { d.ft with slots := slots } ∧
      slots = if purges then s.ft.slots.filter fun f => decide (y.time < f.start + 3600) else s.ft.slots := by
    cases purges
    · exact ⟨s.ft.slots, by rw [← table]; rfl, rfl⟩
    · refine ⟨_, rfl, ?_⟩
      rw [time, table]
      rfl
  obtain ⟨slots, purged, which⟩ := written
  rw [purged] at invalid ⊢
  have within := within_syncAlert (d.setFt { d.ft with slots := slots }) .forecastStale
  exact {
    yc := by rw [within.yc]; exact undated.yc
    ft := by rw [within.ft, setFt_ft, table, which]
    tested := dayTested_of_eq tested within.yc within.today within.previous (fun p => by rw [within.pile p]; rfl)
      within.posts.keeps.subset
    stale := inStep_syncAlert _ _
    invalid := invalid
    wfe := within.wfe.trans wfe
    bwu := within.bwu.trans undated.bwu
    site := within.site.trans site
    machines := within.machines.trans (congrArg Cc.machines undated.cc)
    orders := (congrArg Sd.orders (syncAlert_sd _ _)).trans undated.orders
    ponds := within.ponds.trans undated.ponds
    countdown := within.assessment.trans countdown }

/-- The pass that a rollover may owe touches none of it. -/
theorem TimeTaken.inEvent {f : State → State} (h : TimeTaken y purges (s.setPass false) (f (s.setPass false))) :
    TimeTaken y purges s (inEvent f s) where
  yc := by rw [(inEvent_within s f).yc]; exact h.yc
  ft := (inEvent_within s f).ft.trans h.ft
  tested := dayTested_of_eq h.tested (inEvent_within s f).yc (inEvent_within s f).today (inEvent_within s f).previous
    (fun p => by rw [(inEvent_within s f).pile p]) (inEvent_within s f).posts.keeps.subset
  stale := h.stale.inEvent
  invalid := h.invalid.inEvent
  wfe := (inEvent_within s f).wfe.trans h.wfe
  bwu := (inEvent_within s f).bwu.trans h.bwu
  site := (inEvent_within s f).site.trans h.site
  machines := (inEvent_within s f).machines.trans h.machines
  orders := (granted_inEvent s f).orders.trans h.orders
  ponds := (inEvent_within s f).ponds.trans h.ponds
  countdown := (inEvent_within s f).assessment.trans h.countdown

/-- A reading that does not pass the recorded day leaves the cannons, the dispatcher and the pump set. -/
theorem takeTime_current (recorded : y.recordedDay = s.yc.recordedDay)
    (current : ∀ d ∈ s.yc.recordedDay, dayNumber y.time s.site.dayOffset ≤ d) :
    (takeTime y purges s).cc = s.cc ∧ (takeTime y purges s).sd = s.sd ∧
      (takeTime y purges s).wiu.pump = s.wiu.pump := by
  obtain ⟨undated, -⟩ := rolloverTest_newTime recorded
  have work : (rolloverTest (syncAlert .timeInvalid (s.setYc y))).sd = s.sd := by
    rw [rolloverTest_sd, syncAlert_sd, setYc_sd]
    intro d hd
    rw [currentDay, syncAlert_yc, syncAlert_site]
    rw [syncAlert_yc, setYc_yc, recorded] at hd
    exact current d hd
  unfold takeTime
  simp only [syncAlert_cc, syncAlert_sd, syncAlert_wiu]
  generalize rolloverTest (syncAlert .timeInvalid (s.setYc y)) = d at *
  split
  · exact ⟨undated.cc, work, undated.pump⟩
  · exact ⟨undated.cc, work, undated.pump⟩

end

/-! ## SECOND_EVENT (R20) -/

/-- The clock's reading after a second that finds it valid. -/
def secondReading (y : Yc) : Yc :=
  { y with second := Config.ticksPerSecond, time := (nextTime y.time).1, valid := (nextTime y.time).2 }

theorem secondStep_valid {s : State} (valid : s.yc.valid = true) :
    secondStep s = takeTime (secondReading s.yc) (decide ((nextTime s.yc.time).1 % 3600 = 0)) s := by
  have dated := sameTable_newTime (secondReading s.yc) s
  have time : (rolloverTest (syncAlert .timeInvalid (s.setYc (secondReading s.yc)))).yc.time =
      (nextTime s.yc.time).1 := dated.time
  rw [secondStep_eq, if_pos valid, purgeAtHour, takeTime]
  change syncAlert _ (if (rolloverTest (syncAlert .timeInvalid (s.setYc (secondReading s.yc)))).yc.time % 3600 = 0
    then _ else _) = _
  simp only [time, decide_eq_true_eq]
  rfl

theorem secondStep_invalid {s : State} (invalid : s.yc.valid = false) :
    secondStep s = syncAlert .forecastStale (s.setYc { s.yc with second := Config.ticksPerSecond }) := by
  rw [secondStep_eq, if_neg (by rw [invalid]; exact Bool.false_ne_true)]

theorem nextTime_eq (n : Nat) :
    nextTime n = (if n < 0xFFFFFFFE then n + 1 else 0xFFFFFFFE, decide (n < 0xFFFFFFFD)) := by
  unfold nextTime
  split
  · rename_i early
    rw [if_pos (by omega), decide_eq_true early]
  · rename_i late
    rw [decide_eq_false late]
    split
    · rw [show n + 1 = 0xFFFFFFFE by omega]
    · rfl

/-- Settles O27: a valid clock takes its next reading, an invalid one its countdown alone. -/
theorem secondEventAdvancesTheClock : Obligations.SecondEventAdvancesTheClock := by
  refine ⟨fun s invalid => ?_, fun s valid => ?_, fun _ _ => rfl⟩
  · have step : secondStep (s.setPass false) = _ := secondStep_invalid invalid
    have event : inEvent secondStep s = _ := (inEvent_of_quietPass (by rw [step, syncAlert_sd]; rfl)).trans step
    refine ⟨inEvent secondStep s, rfl, ?_⟩
    rw [event, WaterFrame, syncAlert_yc, syncAlert_ft, syncAlert_wfe, syncAlert_bwu, syncAlert_site, syncAlert_wiu]
    refine ⟨rfl, rfl, ⟨rfl, rfl, rfl⟩, fun p => ?_, rfl, rfl, rfl⟩
    rw [syncAlert_pile]
    rfl
  · have step := secondStep_valid (s := s.setPass false) valid
    have taken : TimeTaken (secondReading s.yc) (decide ((nextTime s.yc.time).1 % 3600 = 0)) s
        (inEvent secondStep s) :=
      TimeTaken.inEvent (step ▸ timeTaken_takeTime _ rfl)
    have time : (inEvent secondStep s).yc.time = (nextTime s.yc.time).1 := by rw [taken.yc]; rfl
    have flag : (inEvent secondStep s).yc.valid = (nextTime s.yc.time).2 := by rw [taken.yc]; rfl
    refine ⟨inEvent secondStep s, rfl, ?_, ?_, ?_, ?_, ?_, ?_, taken.stale, taken.invalid, taken.ponds, taken.wfe,
      taken.bwu, taken.site⟩
    · rw [taken.yc]
      rfl
    · rw [time, nextTime_eq]
    · rw [flag, nextTime_eq]
    · rw [time]
      exact taken.tested
    · rw [taken.ft]
    · rw [time, taken.ft]
      simp only [decide_eq_true_eq]
      rfl

/-! ## SET_TIME (R22) -/

/-- The clock's reading after a SET_TIME. -/
def setReading (time : Nat) (y : Yc) : Yc := { y with time := time, valid := true }

theorem setTimeStep_eq (x : Nat) (s : State) : setTimeStep x s = takeTime (setReading x s.yc) true s := rfl

section
variable {x : Nat} {s : State}

theorem timeTaken_setTime (x : Nat) (s : State) :
    TimeTaken (setReading x s.yc) true s (inEvent (setTimeStep x) s) :=
  TimeTaken.inEvent (setTimeStep_eq x (s.setPass false) ▸ timeTaken_takeTime true rfl)

/-- The recorded day has changed where there was one and the new day has passed it: a rollover (R23). -/
theorem DayTested.rolledOver {d : Nat} {s t : State} (h : DayTested d s t) :
    (s.yc.recordedDay.isSome && decide (s.yc.recordedDay ≠ t.yc.recordedDay)) =
      decide (∃ r ∈ s.yc.recordedDay, r < d) := by
  unfold DayTested at h
  cases recorded : s.yc.recordedDay with
  | none => simp
  | some r =>
    simp only [recorded] at h
    split at h
    · rename_i passed
      simp [h.1, passed, passed.ne]
    · rename_i current
      simp [h.1, current]

theorem setTimeBody_eq (x : Nat) (s : State) : setTimeBody s (inEvent (setTimeStep x) s) =
    le 4 x ++ [1] ++ optional 4 (inEvent (setTimeStep x) s).yc.recordedDay ++
      flagByte (decide (∃ d ∈ s.yc.recordedDay, d < dayNumber x s.site.dayOffset)) ++
      le 1 (s.ft.slots.length - (inEvent (setTimeStep x) s).ft.slots.length) := by
  have taken := timeTaken_setTime x s
  have time : (inEvent (setTimeStep x) s).yc.time = x := by rw [taken.yc]; rfl
  have flag : (inEvent (setTimeStep x) s).yc.valid = true := by rw [taken.yc]; rfl
  rw [setTimeBody, time, flag, taken.tested.rolledOver]
  rfl

theorem answerSetTime_accepted (h : x < 0xFFFFFFFF) : answerSetTime x s =
    .accepted (inEvent (setTimeStep x) s) (setTimeBody s (inEvent (setTimeStep x) s)) :=
  if_neg (Nat.not_le.2 h)

/-- Short of a rollover the event owes no pass, and the machines' work stands. -/
theorem setTime_current (current : ∀ d ∈ s.yc.recordedDay, dayNumber x s.site.dayOffset ≤ d) :
    (inEvent (setTimeStep x) s).cc = s.cc ∧ (inEvent (setTimeStep x) s).sd = { s.sd with passDue := false } ∧
      (inEvent (setTimeStep x) s).wiu.pump = s.wiu.pump := by
  obtain ⟨cc, sd, pump⟩ := takeTime_current (y := setReading x s.yc) (purges := true) (s := s.setPass false) rfl current
  rw [inEvent_of_quietPass (by rw [setTimeStep_eq]; exact congrArg Sd.passDue sd), setTimeStep_eq]
  exact ⟨cc, sd, pump⟩

end

/-- Settles O45: the clock takes the value carried, or the request is refused. -/
theorem setTimeSetsTestsAndPurges : Obligations.SetTimeSetsTestsAndPurges := by
  refine ⟨fun tag x s free inRange => ?_, fun tag s free => congrArg _ (takeRequest_refused free (if_pos le_rfl))⟩
  have answer := takeRequest_accepted (kind := 0x10) (tag := tag) free (answerSetTime_accepted inRange)
  rw [setTimeBody_eq] at answer
  have taken := timeTaken_setTime x s
  refine ⟨inEvent (setTimeStep x) s, congrArg _ answer, ?_, ?_, ?_, taken.tested, taken.ft, taken.stale, ?_, taken.wfe,
    taken.bwu, taken.site, taken.countdown, taken.ponds, taken.machines, taken.orders, setTime_current⟩
  · rw [taken.yc]
    rfl
  · rw [taken.yc]
    rfl
  · rw [taken.yc]
    rfl
  · refine Eq.trans taken.invalid ?_
    change (!(inEvent (setTimeStep x) s).yc.valid) = false
    rw [taken.yc]
    rfl

end Sys2Proof.Machine
end

