-- ==== Sys2Proof/Proofs/Forecast.lean ====
section
/-! SUPPORT. FORECAST (R28 to R31): what one listed slot makes of the tally, by its judgement, and the request's
answer over the table that the slots leave. -/

namespace Sys2Proof.Machine

/-! ## One listed slot -/

section
variable {time room : Nat} {t : Tally} {f g : Slot}

theorem takeSlot_invalid : takeSlot time room t none = { t with invalid := t.invalid + 1 } := rfl

theorem takeSlot_past (ended : f.start + 3600 ≤ time) :
    takeSlot time room t (some f) = { t with past := t.past + 1 } := by
  simp only [takeSlot, judgeSlot_past ended]

section
variable (ahead : time < f.start + 3600)
include ahead

theorem takeSlot_older (distinct : (t.table.map Slot.start).Nodup) (held : g ∈ t.table) (same : g.start = f.start)
    (newer : f.issue < g.issue) : takeSlot time room t (some f) = { t with older := t.older + 1 } := by
  simp only [takeSlot, judgeSlot_older ahead distinct held same newer]

theorem takeSlot_replaces (held : ∃ h ∈ t.table, h.start = f.start)
    (reissued : ∀ h ∈ t.table, h.start = f.start → h.issue ≤ f.issue) : takeSlot time room t (some f) =
      { t with table := replaceSlot f t.table, stored := t.stored + 1 } := by
  simp only [takeSlot, judgeSlot_replaces ahead held reissued, storeSlot_of_held held, displaces_of_held held]
  rfl

theorem takeSlot_inserts (fresh : ∀ h ∈ t.table, h.start ≠ f.start) (free : t.table.length < room) :
    takeSlot time room t (some f) = { t with table := insertSlot f t.table, stored := t.stored + 1 } := by
  simp only [takeSlot, judgeSlot_inserts ahead fresh free, storeSlot_of_room fresh free, displaces_of_room free]
  rfl

theorem takeSlot_displaces (fresh : ∀ h ∈ t.table, h.start ≠ f.start) (full : room ≤ t.table.length)
    (later : ∃ h ∈ t.table, f.start < h.start) : takeSlot time room t (some f) =
      { t with
        table := insertSlot f t.table.dropLast, stored := t.stored + 1, displaced := t.displaced + 1 } := by
  simp only [takeSlot, judgeSlot_displaces ahead fresh full later, storeSlot_of_full fresh full,
    displaces_of_full fresh full, if_true]

theorem takeSlot_noRoom (earlier : ∀ h ∈ t.table, h.start < f.start) (full : room ≤ t.table.length) :
    takeSlot time room t (some f) = { t with noRoom := t.noRoom + 1 } := by
  simp only [takeSlot, judgeSlot_noRoom ahead earlier full]

end

/-- The slot held of a start is the only one, so that no newer issue of it is held. -/
theorem reissued_of_held {l : List Slot} (distinct : (l.map Slot.start).Nodup) (held : g ∈ l)
    (same : g.start = f.start) (notOlder : g.issue ≤ f.issue) : ∀ h ∈ l, h.start = f.start → h.issue ≤ f.issue := by
  intro h hh start
  obtain rfl : h = g := Option.some.inj ((find?_start distinct hh start).symm.trans (find?_start distinct held same))
  exact notOlder

/-- How many slots a tally has counted (R31). -/
def Tally.counted (t : Tally) : Nat := t.stored + t.older + t.past + t.invalid + t.noRoom

/-- Each slot counts once. -/
theorem counted_takeSlot (slot : Option Slot) : (takeSlot time room t slot).counted = t.counted + 1 := by
  unfold takeSlot Tally.counted
  split <;> simp only <;> omega

end

/-! ## The slots of a request -/

section
variable {issue : Nat} {fs : List SlotFields} {x : SlotFields} {g : Slot} {s : State}

theorem tallyForecast_append : tallyForecast s issue (fs ++ [x]) =
    takeSlot s.yc.time s.mau.split.forecast (tallyForecast s issue fs) (slot? issue x) := by
  rw [tallyForecast, List.foldl_append]
  rfl

theorem tallyForecast_invalid (fields : slot? issue x = none) : tallyForecast s issue (fs ++ [x]) =
    { tallyForecast s issue fs with invalid := (tallyForecast s issue fs).invalid + 1 } := by
  rw [tallyForecast_append, fields, takeSlot_invalid]

theorem tallyForecast_valid (fields : slot? issue x = some g) : tallyForecast s issue (fs ++ [x]) =
    takeSlot s.yc.time s.mau.split.forecast (tallyForecast s issue fs) (some g) := by
  rw [tallyForecast_append, fields]

theorem counted_tallyForecast (issue : Nat) (fs : List SlotFields) (s : State) :
    (tallyForecast s issue fs).counted = fs.length := by
  induction fs using List.reverseRecOn with
  | nil => rfl
  | append_singleton fs x ih => rw [tallyForecast_append, counted_takeSlot, ih, List.length_append]; rfl

theorem slot?_none : slot? issue x = none ↔ x.start % 3600 ≠ 0 ∨ 600 < x.mean ∨ x.gust < x.mean ∨
    600 < x.gust ∨ 16 < x.sector ∨ 3 < x.dryingClass := by
  unfold slot?
  split
  · rename_i valid
    simp only [reduceCtorEq, false_iff]
    omega
  · rename_i invalid
    simp only [true_iff]
    omega

theorem slot?_some (fields : slot? issue x = some g) : g.start = x.start ∧ g.mean = x.mean ∧ g.gust = x.gust ∧
    g.sector.map Fin.val = (if x.sector = 16 then none else some x.sector) ∧ g.dryingClass = x.dryingClass ∧
    g.issue = issue := by
  unfold slot? at fields
  split at fields
  · rename_i valid
    cases fields
    refine ⟨rfl, rfl, rfl, ?_, rfl, rfl⟩
    simp only [index?]
    split
    · rw [if_neg (by omega)]
      rfl
    · rw [if_pos (by omega)]
      rfl
  · cases fields

end

/-! ## The request -/

section
variable {tag issue x : Nat} {fs : List SlotFields} {s : State}

/-- The table and the newest issue time that the slots leave (R30, R31). -/
def forecastTable (issue x : Nat) (fs : List SlotFields) (s : State) : Ft where
  slots := (tallyForecast s issue fs).table
  newestIssue := if 0 < (tallyForecast s issue fs).stored then some (laterIssue s.ft.newestIssue x)
    else s.ft.newestIssue

/-- The event writes the table, and FORECAST_STALE follows it; it owes no pass. -/
theorem inEvent_forecastStep : inEvent (forecastStep issue x fs) s =
    syncAlert .forecastStale ((s.setPass false).setFt (forecastTable issue x fs s)) :=
  inEvent_of_quietPass (by rw [forecastStep, syncAlert_sd]; rfl)

theorem answerForecast_accepted (valid : s.yc.valid = true) (count : 1 ≤ fs.length ∧ fs.length ≤ 12)
    (inRange : x < 0xFFFFFFFF) : answerForecast issue x fs.length fs s =
      .accepted (inEvent (forecastStep issue x fs) s)
        (forecastBody (tallyForecast s issue fs) (inEvent (forecastStep issue x fs) s)) := by
  have taken : ¬ (fs.length = 0 ∨ 12 < fs.length ∨ 0xFFFFFFFF ≤ x) := by omega
  rw [answerForecast, if_neg (not_not_intro rfl), if_neg (by rw [valid]; exact Bool.true_eq_false_eq_False), if_neg taken]
  rfl

theorem exec_forecast (free : s.lc.reply = none) (valid : s.yc.valid = true)
    (count : 1 ≤ fs.length ∧ fs.length ≤ 12) (inRange : x < 0xFFFFFFFF) :
    exec (.forecast tag issue x fs.length fs) s = .next (startReply (acceptance 0x11 tag
      (forecastBody (tallyForecast s issue fs) (inEvent (forecastStep issue x fs) s))) false
        (inEvent (forecastStep issue x fs) s)) :=
  congrArg _ (takeRequest_accepted free (answerForecast_accepted valid count inRange))

theorem laterIssue_eq (before : Option Nat) (n : Nat) : laterIssue before n = max (before.getD 0) n := by
  cases before with
  | none => exact (Nat.zero_max n).symm
  | some _ => rfl

theorem mem_notices_syncAlert {e : AlertId} {n : Notice} {s : State} (h : n ∈ (syncAlert e s).lc.notices) :
    n ∈ s.lc.notices ∨ n = .alert e := by
  unfold syncAlert at h
  simp only at h
  split at h
  · exact ((mem_post _ _ _).1 h).symm
  · exact .inl h

/-- A request of one slot, by the tally that the slot leaves. -/
theorem forecast_one {f : SlotFields} {table : List Slot} {a b c d e k : Nat} (free : s.lc.reply = none)
    (valid : s.yc.valid = true) (inRange : x < 0xFFFFFFFF)
    (taken : tallyForecast s issue [f] = ⟨table, a, b, c, d, e, k⟩) :
    ∃ t, exec (.forecast tag issue x 1 [f]) s = .next (startReply (acceptance 0x11 tag
        (le 1 a ++ le 1 b ++ le 1 c ++ le 1 d ++ le 1 e ++ le 1 k ++ le 1 t.ft.slots.length ++
          optional 4 (t.ft.slots.head?.map Slot.start) ++ optional 4 (t.ft.slots.getLast?.map Slot.start) ++
          optional 4 t.ft.newestIssue)) false t) ∧
      t.ft = ⟨table, if 0 < a then some (laterIssue s.ft.newestIssue x) else s.ft.newestIssue⟩ := by
  have answer := exec_forecast (tag := tag) (issue := issue) (fs := [f]) free valid ⟨le_rfl, by simp⟩ inRange
  rw [taken] at answer
  refine ⟨_, answer, ?_⟩
  rw [inEvent_forecastStep, syncAlert_ft, setFt_ft, forecastTable, taken]

theorem answerForecast_timeInvalid (invalid : s.yc.valid = false) :
    answerForecast issue x fs.length fs s = .refused .timeInvalid := by
  rw [answerForecast, if_neg (not_not_intro rfl), if_pos invalid]

theorem answerForecast_outOfRange (valid : s.yc.valid = true)
    (h : fs.length = 0 ∨ 12 < fs.length ∨ x = 0xFFFFFFFF) :
    answerForecast issue x fs.length fs s = .refused .outOfRange := by
  have declined : fs.length = 0 ∨ 12 < fs.length ∨ 0xFFFFFFFF ≤ x := h.imp_right (Or.imp_right Eq.ge)
  rw [answerForecast, if_neg (not_not_intro rfl), if_neg (by rw [valid]; exact Bool.true_eq_false_eq_False),
    if_pos declined]

end

/-- The table after an insertion that displaces holds the new slot and all but the last of the others. -/
theorem insertSlot_dropLast_eq {g : Slot} {l : List Slot} (ordered : StartsAscend l)
    (fresh : ∀ h ∈ l, h.start ≠ g.start) : insertSlot g l.dropLast =
      (l.dropLast.filter fun x => decide (x.start < g.start)) ++
        g :: l.dropLast.filter fun x => decide (g.start < x.start) :=
  have sub := List.dropLast_sublist l
  insertSlot_eq (ordered.sublist sub) fun h hh => fresh h (sub.subset hh)

/-- Settles O46: the whole request, each judgement of a single slot, the refusals, and each judgement of one slot
more. -/
theorem forecastSlotsAreJudgedAndStored : Obligations.ForecastSlotsAreJudgedAndStored := by
  refine ⟨fun tag issue x fs s free valid count inRange => ?_,
    fun tag issue x f g s free valid inRange fields ahead held distinct => ?_,
    fun tag issue x f g s free valid inRange fields ahead reissued place => ?_,
    fun tag issue x f g s free valid inRange fields ahead fresh full later => ?_,
    fun tag issue x f g s free valid inRange fields ahead earlier full => ?_,
    fun tag issue x f s free valid inRange invalid => ?_,
    fun tag issue x f g s free valid inRange fields ended => ?_,
    fun tag issue x fs s free invalid => congrArg _ (takeRequest_refused free (answerForecast_timeInvalid invalid)),
    fun tag issue x fs s free valid h => congrArg _ (takeRequest_refused free (answerForecast_outOfRange valid h)),
    fun issue f => ⟨slot?_none, fun g => slot?_some⟩, fun _ _ => rfl,
    fun issue fs f s fields => tallyForecast_invalid fields,
    fun issue fs f g s fields ended => (tallyForecast_valid fields).trans (takeSlot_past ended),
    fun issue fs f g h s fields ahead held same newer distinct =>
      (tallyForecast_valid fields).trans (takeSlot_older ahead distinct held same newer),
    fun issue fs f g h s fields ahead held same notOlder distinct => (tallyForecast_valid fields).trans
      (takeSlot_replaces ahead ⟨h, held, same⟩ (reissued_of_held distinct held same notOlder)),
    fun issue fs f g s fields ahead fresh room ordered => ?_,
    fun issue fs f g s fields ahead fresh full later ordered => ?_,
    fun issue fs f g s fields ahead earlier full =>
      (tallyForecast_valid fields).trans (takeSlot_noRoom ahead earlier full)⟩
  · refine ⟨_, exec_forecast free valid count inRange, counted_tallyForecast issue fs s, ?_⟩
    rw [inEvent_forecastStep]
    have stale := inStep_syncAlert .forecastStale ((s.setPass false).setFt (forecastTable issue x fs s))
    have posted := fun n => mem_notices_syncAlert (e := .forecastStale) (n := n)
      (s := (s.setPass false).setFt (forecastTable issue x fs s))
    refine ⟨?_, ?_, stale, ?_, ?_, ?_, ?_, posted, ?_, ?_, ?_, ?_, ?_, ?_, ?_, ?_, ?_⟩
    · rw [syncAlert_ft, setFt_ft, forecastTable]
    · rw [syncAlert_ft, setFt_ft, forecastTable, laterIssue_eq]
      by_cases none_stored : (tallyForecast s issue fs).stored = 0
      · simp only [none_stored, Nat.lt_irrefl, if_false, if_true]
      · simp only [none_stored, Nat.pos_of_ne_zero none_stored, if_false, if_true]
    all_goals
      rw [syncAlert_eq]
      rfl
  · obtain ⟨h, held, same, newer⟩ := held
    obtain ⟨t, answer, table⟩ := forecast_one (tag := tag) free valid inRange
      ((tallyForecast_valid (fs := []) fields).trans (takeSlot_older ahead distinct held same newer))
    exact ⟨t, answer, table⟩
  · by_cases held : ∃ h ∈ s.ft.slots, h.start = g.start
    · obtain ⟨t, answer, table⟩ := forecast_one (tag := tag) free valid inRange
        ((tallyForecast_valid (fs := []) fields).trans (takeSlot_replaces ahead held reissued))
      refine ⟨t, answer, fun h => ?_⟩
      rw [table]
      exact mem_replaceSlot held
    · have fresh : ∀ h ∈ s.ft.slots, h.start ≠ g.start := fun h hh same => held ⟨h, hh, same⟩
      obtain ⟨t, answer, table⟩ := forecast_one (tag := tag) free valid inRange
        ((tallyForecast_valid (fs := []) fields).trans (takeSlot_inserts ahead fresh (place.resolve_right held)))
      refine ⟨t, answer, fun h => ?_⟩
      rw [table]
      exact mem_insertSlot.trans (or_congr_right ⟨fun hh => ⟨hh, fresh h hh⟩, And.left⟩)
  · obtain ⟨t, answer, table⟩ := forecast_one (tag := tag) free valid inRange
      ((tallyForecast_valid (fs := []) fields).trans (takeSlot_displaces ahead fresh full later))
    refine ⟨t, answer, fun h => ?_⟩
    rw [table]
    exact mem_insertSlot
  · obtain ⟨t, answer, table⟩ := forecast_one (tag := tag) free valid inRange
      ((tallyForecast_valid (fs := []) fields).trans (takeSlot_noRoom ahead earlier full))
    exact ⟨t, answer, table⟩
  · obtain ⟨t, answer, table⟩ := forecast_one (tag := tag) free valid inRange
      (tallyForecast_invalid (issue := issue) (fs := []) (slot?_none.2 invalid))
    exact ⟨t, answer, table⟩
  · obtain ⟨t, answer, table⟩ := forecast_one (tag := tag) free valid inRange
      ((tallyForecast_valid (fs := []) fields).trans (takeSlot_past ended))
    exact ⟨t, answer, table⟩
  · rw [tallyForecast_valid fields, takeSlot_inserts ahead fresh room, insertSlot_eq ordered fresh]
  · rw [tallyForecast_valid fields, takeSlot_displaces ahead fresh full later, insertSlot_dropLast_eq ordered fresh]

end Sys2Proof.Machine
end

