-- ==== Sys2Proof/Proofs/PoolSplit.lean ====
section
/-! SUPPORT. POOL_SPLIT (R36, R153, R159): the three lists at their new sizes, the flags and counts that go with the
episodes, and the request's refusals. -/

namespace Sys2Proof.Machine

/-! ## Escalation (R148) -/

section
variable (s : State)

/-- The recomputing writes the piles alone. -/
theorem recomputeEscalation_writes :
    ∃ piles, recomputeEscalation s = s.setPau { s.pau with piles := piles } := by
  unfold recomputeEscalation forPiles
  generalize List.finRange 24 = l
  suffices h : ∀ piles, ∃ piles', l.foldl (fun t p => escalate p t) (s.setPau { s.pau with piles := piles }) =
      s.setPau { s.pau with piles := piles' } from h s.pau.piles
  induction l with
  | nil => exact fun piles => ⟨piles, rfl⟩
  | cons p l ih => exact fun piles => ih _

theorem foldl_escalate_pile (l : List (Fin 24)) (distinct : l.Nodup) (q : Fin 24) :
    (l.foldl (fun t p => escalate p t) s).pile q =
      if q ∈ l then { s.pile q with escalated := (escalatedSet s).getLsbD q } else s.pile q := by
  induction l generalizing s with
  | nil => rfl
  | cons p l ih =>
    obtain ⟨out, rest⟩ := List.nodup_cons.1 distinct
    have same : escalatedSet (escalate p s) = escalatedSet s := rfl
    rw [List.foldl_cons, ih _ rest, same, escalate, setPile_pile]
    by_cases own : q = p
    · subst own
      simp [out]
    · simp [own]

/-- Each pile's flag is its membership of the OPEN episodes' sets. -/
theorem recomputeEscalation_pile (p : Fin 24) : (recomputeEscalation s).pile p =
    { s.pile p with escalated := (escalatedSet s).getLsbD p } :=
  (foldl_escalate_pile s _ (List.nodup_finRange 24) p).trans (if_pos (List.mem_finRange p))

variable {s}

/-- A list of free slots escalates no pile. -/
theorem escalatedSet_of_free (free : ∀ x ∈ s.bwu.episodes, x = none) : escalatedSet s = 0 := by
  unfold escalatedSet
  generalize s.bwu.episodes = l at free
  induction l with
  | nil => rfl
  | cons x l ih =>
    rw [List.foldl_cons, free x (List.mem_cons_self ..)]
    exact ih fun y hy => free y (List.mem_cons_of_mem _ hy)

end

/-! ## The event -/

section
variable {f e o tag : Nat} {s : State}

/-- The part with its new sizes and an empty forecast table, the staleness evaluated (R33, R36). -/
def forecastCleared (f e o : Nat) (s : State) : State :=
  syncAlert .forecastStale (State.setFt { s with mau := { s.mau with split := ⟨f, e, o⟩ } } ⟨[], none⟩)

theorem splitStep_eq (f e o : Nat) (s : State) : splitStep f e o s =
    (recomputeEscalation (emptyEpisodes e (forecastCleared f e o s))).setOrders (List.replicate o none) := rfl

/-- All that the event writes (R159). -/
theorem splitStep_writes (f e o : Nat) (s : State) : ∃ piles, splitStep f e o s = { s with
      ft := ⟨[], none⟩
      mau := { s.mau with split := ⟨f, e, o⟩, alerts := (forecastCleared f e o s).mau.alerts }
      lc := { s.lc with notices := (forecastCleared f e o s).lc.notices }
      bwu := { s.bwu with
        episodes := List.replicate e none
        monitors := s.bwu.monitors.map fun d => { d with openEpisode := none, belowRun := 0 } }
      pau := { s.pau with piles := piles }
      sd := { s.sd with orders := List.replicate o none } } ∧
    ∀ p, piles.get p = { s.pile p with escalated := false } := by
  have cleared : forecastCleared f e o s = { s with
      ft := ⟨[], none⟩
      mau := { s.mau with split := ⟨f, e, o⟩, alerts := (forecastCleared f e o s).mau.alerts }
      lc := { s.lc with notices := (forecastCleared f e o s).lc.notices } } := by
    unfold forecastCleared
    rw [syncAlert_eq]
    rfl
  have calm := fun p => recomputeEscalation_pile (emptyEpisodes e (forecastCleared f e o s)) p
  obtain ⟨piles, written⟩ := recomputeEscalation_writes (emptyEpisodes e (forecastCleared f e o s))
  have none_open : escalatedSet (emptyEpisodes e (forecastCleared f e o s)) = 0 :=
    escalatedSet_of_free fun x hx => List.eq_of_mem_replicate hx
  rw [splitStep_eq, written]
  rw [written, none_open] at calm
  rw [cleared] at calm ⊢
  refine ⟨piles, rfl, fun p => (calm p).trans ?_⟩
  rw [BitVec.ofNat_eq_ofNat, BitVec.getLsbD_zero]
  rfl

/-- The event owes no pass. -/
theorem inEvent_splitStep : inEvent (splitStep f e o) s = splitStep f e o (s.setPass false) := by
  obtain ⟨piles, written, -⟩ := splitStep_writes f e o (s.setPass false)
  exact inEvent_of_quietPass (by rw [written]; rfl)

/-- With no issue time the forecast is stale exactly while the clock is valid (R33). -/
theorem forecastCleared_condition :
    (forecastCleared f e o s).mau.alerts.forecastStale.condition = s.yc.valid :=
  (syncAlert_condition .forecastStale _).trans (Bool.and_true _)

theorem forecastCleared_notices : (forecastCleared f e o s).lc.notices = s.lc.notices ∨
    (forecastCleared f e o s).lc.notices = s.lc.notices ++ [.alert .forecastStale] := by
  unfold forecastCleared syncAlert
  simp only
  split
  · rcases post_cases (.alert .forecastStale) _ with ⟨-, stands⟩ | ⟨-, posted⟩
    · exact .inl (by rw [stands]; rfl)
    · exact .inr (by rw [posted]; rfl)
  · exact .inl rfl

/-! ## The request -/

theorem splitOk_iff : splitOk f e o = true ↔
    (24 ≤ f ∧ f ≤ 72) ∧ (9 ≤ e ∧ e ≤ 40) ∧ (4 ≤ o ∧ o ≤ 24) ∧ f + e + o ≤ 96 := by
  simp [splitOk, and_assoc]

theorem any_orders : s.sd.orders.any Option.isSome = true ↔ ∃ y ∈ s.sd.orders, y.isSome = true := List.any_eq_true

theorem answerPoolSplit_accepted (standby : s.mau.mode = .standby) (sizes : splitOk f e o = true)
    (free : ∀ y ∈ s.sd.orders, y = none) : answerPoolSplit f e o s =
      .accepted (inEvent (splitStep f e o) s) (splitBody (inEvent (splitStep f e o) s)) := by
  have none_held : ¬ s.sd.orders.any Option.isSome = true := fun h => by
    obtain ⟨y, hy, held⟩ := any_orders.1 h
    rw [free y hy] at held
    cases held
  rw [answerPoolSplit, if_neg (not_not_intro standby), if_neg (by rw [sizes]; exact Bool.true_eq_false_eq_False),
    if_neg none_held]
  rfl

theorem answerPoolSplit_outOfRange (standby : s.mau.mode = .standby) (sizes : splitOk f e o = false) :
    answerPoolSplit f e o s = .refused .outOfRange := by
  rw [answerPoolSplit, if_neg (not_not_intro standby), if_pos sizes]

theorem answerPoolSplit_ordersPending (standby : s.mau.mode = .standby) (sizes : splitOk f e o = true)
    (held : ∃ y ∈ s.sd.orders, y.isSome = true) : answerPoolSplit f e o s = .refused .ordersPending := by
  rw [answerPoolSplit, if_neg (not_not_intro standby), if_neg (by rw [sizes]; exact Bool.true_eq_false_eq_False),
    if_pos (any_orders.2 held)]

/-- A notice of an episode finds its slot free, or no slot (R159, R187). -/
theorem noticeContent_of_free {t : State} (free : ∀ x ∈ t.bwu.episodes, x = none) (k : Nat) :
    noticeContent t (.episode k) = le 1 2 ++ absent 29 := by
  have none_held : t.episode k = none := by
    unfold State.episode
    cases slot : t.bwu.episodes[k]? with
    | none => rfl
    | some x => exact free x (List.mem_of_getElem? slot)
  rw [noticeContent, none_held]
  rfl

end

/-- Settles O59: what the event writes, field by field, and the refusals in their order. -/
theorem poolSplitEmptiesTheThreeLists : Obligations.PoolSplitEmptiesTheThreeLists := by
  refine ⟨fun tag f e o s free standby hf he ho sum orders => ?_,
    fun tag x y z s free mode => congrArg _ (takeRequest_refused free (if_pos mode)),
    fun tag x y z s free standby out => ?_, fun tag x y z s free standby hx hy hz sum held => ?_⟩
  · have answer := takeRequest_accepted (kind := 0x03) (tag := tag) free
      (answerPoolSplit_accepted standby (splitOk_iff.2 ⟨hf, he, ho, sum⟩) orders)
    have stale := forecastCleared_condition (f := f) (e := e) (o := o) (s := s.setPass false)
    have notices := forecastCleared_notices (f := f) (e := e) (o := o) (s := s.setPass false)
    obtain ⟨piles, written, pile⟩ := splitStep_writes f e o (s.setPass false)
    rw [inEvent_splitStep, written] at answer
    generalize forecastCleared f e o (s.setPass false) = c at *
    refine ⟨_, congrArg _ answer, rfl, rfl, ?_, fun m => Table.get_map _ _ _, rfl, pile, rfl, rfl, notices,
      fun k _ => noticeContent_of_free (fun x hx => List.eq_of_mem_replicate hx) k, rfl, stale, rfl, rfl, rfl, rfl, rfl,
      rfl, rfl⟩
    exact he.1.trans List.length_replicate.ge
  · have sizes : splitOk x y z = false := by
      rw [← Bool.not_eq_true, splitOk_iff]
      omega
    exact congrArg _ (takeRequest_refused free (answerPoolSplit_outOfRange standby sizes))
  · exact congrArg _ (takeRequest_refused free
      (answerPoolSplit_ordersPending standby (splitOk_iff.2 ⟨hx, hy, hz, sum⟩) held))

end Sys2Proof.Machine
end

