-- ==== Sys2Proof/Proofs/AnswerKeeps.lean ====
section
/-! SUPPORT. An invariant that rests on what a request's fields were judged to be: every command keeps it where
every event of the part and every accepted answer keep it (R167 to R171). -/

namespace Sys2Proof.Machine

/-- The predicate is kept by every event of the part, by the line, and by every answer that accepts. -/
structure KeptByAnswers (P : State → Prop) : Prop where
  line : ∀ s t, LineOnly s t → P s → P t
  powerOn : ∀ a b s, P s → P (powerOn a b s)
  pulse : ∀ m s, P s → P (pulseStep m s)
  bounce : ∀ s, P s → P (s.setWfe { s.wfe with bounce := none })
  monitorStale : ∀ m s, P s → P (monitorStaleStep m s)
  makes : ∀ i f s, Makes i f → P s → P (inEvent f s)
  answer : ∀ i s u body, answerOf i s = .accepted u body → P s → P u
  restart : ∀ s, P s → P (warmRestart s)

section
variable {P : State → Prop} (h : KeptByAnswers P) {s : State}
include h

theorem KeptByAnswers.replySent (hs : P s) : P (replySentStep s) := by
  rcases replySentStep_cases s with line | ⟨-, restarts⟩
  · exact h.line _ _ line hs
  · exact restarts ▸ h.restart _ (h.line _ _ (.setLc s _ rfl) hs)

theorem KeptByAnswers.request (kind tag : Nat) (i : Instr) (hs : P s) : P (takeRequest kind tag (answerOf i) s) := by
  simp only [takeRequest]
  cases answer : answerOf i (replySentStep s) with
  | accepted u body => exact h.line _ _ (.startReply _ _ _) (h.answer i _ u body answer (h.replySent hs))
  | refused r => exact h.line _ _ (.startReply _ _ _) (h.replySent hs)

theorem KeptByAnswers.frame (kind tag : Nat) (body : List Byte) (hs : P s) : P (takeFrame kind tag body s) := by
  unfold takeFrame
  split
  · exact h.request kind tag _ hs
  · exact h.line _ _ (.startReply _ _ _) (h.replySent hs)

theorem KeptByAnswers.receive (b : Byte) (x : Bool) (hs : P s) : P (receiveStep b x s) := by
  unfold receiveStep
  split
  · split
    · exact h.line _ _ (keepCharacter_lineOnly _ _ s) hs
    · exact hs
  · exact hs
  · exact h.line _ _ (takeHeader_lineOnly _ s) hs
  · exact h.line _ _ (dropFrame_lineOnly s) hs
  · exact h.line _ _ (takeBody_lineOnly _ s) hs
  · exact h.line _ _ (dropFrame_lineOnly s) hs
  · rcases takeTrailer_cases (s.lc.buffer ++ [b]) s with line | ⟨kind, tag, body, taken⟩
    · exact h.line _ _ line hs
    · exact taken ▸ h.frame kind tag body (h.line _ _ (.setLc s _ rfl) hs)
  · exact h.line _ _ (dropFrame_lineOnly s) hs
  · exact hs

theorem KeptByAnswers.exec {i : Instr} {t : State} (ht : exec i s = .next t) (hs : P s) : P t := by
  have asked := fun kind tag => h.request kind tag i hs
  cases i
  case receiveCharacter b x =>
    obtain rfl := Host.Outcome.next.inj ht
    exact h.receive b x hs
  case powerOnReset | pulseEdge | gateExpiry | rainTip | bounceExpiry | secondEvent | assessment | primingExpiry |
      rundownExpiry | changeoverExpiry | settleExpiry | deliverySecond | lostWaterExpiry | slotExpiry |
      feedbackChange | travelExpiry | machineStaleExpiry | resumeExpiry | orderExpiry | holdExpiry |
      monitorStaleExpiry | stopLineChange | gapExpiry | replyStart | replySent =>
    cases exec_effect ht with
    | line k => exact h.line _ _ k hs
    | powerOn _ => exact h.powerOn _ _ s hs
    | pulse _ => exact h.pulse _ s hs
    | bounce _ => exact h.bounce s hs
    | monitorStale _ => exact h.monitorStale _ s hs
    | event hf => exact h.makes _ _ s hf hs
    | restart _ _ => exact h.restart _ (h.line _ _ (.setLc s _ rfl) hs)
    | frame own _ _ _ _ => cases own
    | request taken k =>
      refine h.line _ _ k ?_
      cases taken with
      | refused => exact h.replySent hs
      | answered answered =>
        cases answered with
        | report => exact h.replySent hs
        | event asks => cases asks
        | poll tag n own => cases own
  all_goals
    obtain rfl := Host.Outcome.next.inj ht
    exact asked _ _

/-- What every command and every tick keep, every step keeps. -/
theorem KeptByAnswers.step {t : State} (queue : ∀ s n q, P s → P { s with freeCount := n, pending := q })
    (clock : ∀ s, P s → P (tick s)) (ht : step s = .next t) (hs : P s) : P t := by
  rcases step_cases ht with ⟨i, n, q, taken⟩ | rfl
  · exact h.exec taken (queue s n q hs)
  · exact clock s hs

end

end Sys2Proof.Machine
end

