-- ==== Sys2Proof/Proofs/Levels.lean ====
section
/-! SUPPORT. The moisture of the piles and the volumes of the ponds under every command (R46, R64): what reaches
neither, and that each event that does holds the figure in its range. -/

namespace Sys2Proof.Machine

/-- Every pile's moisture and every pond stand. -/
structure SameLevels (s t : State) : Prop where
  moisture : ∀ p, (t.pile p).moisture = (s.pile p).moisture
  ponds : t.wiu.ponds = s.wiu.ponds

theorem SameLevels.refl (s : State) : SameLevels s s := ⟨fun _ => rfl, rfl⟩

theorem SameLevels.trans {s t u : State} (h : SameLevels s t) (k : SameLevels t u) : SameLevels s u :=
  ⟨fun p => (k.moisture p).trans (h.moisture p), k.ponds.trans h.ponds⟩

theorem SameLevels.sound {s t : State} (h : SameLevels s t) (k : LevelsSound s) : LevelsSound t := by
  refine ⟨fun p => by rw [h.moisture p]; exact k.1 p, fun p => ?_⟩
  rw [pond_of_ponds h.ponds p]
  exact k.2 p

theorem Steady.sameLevels {s t : State} (h : Steady s t) : SameLevels s t :=
  ⟨fun p => by rw [h.pile p], h.ponds⟩

theorem Within.sameLevels {s t : State} (h : Within s t) : SameLevels s t := h.steady.sameLevels

theorem LineOnly.sameLevels {s t : State} (h : LineOnly s t) : SameLevels s t := by
  rw [h.rest]
  exact ⟨fun _ => rfl, rfl⟩

theorem GateFrame.sameLevels {s t : State} (h : GateFrame s t) : SameLevels s t :=
  ⟨fun p => by rw [State.pile, h.pau, State.pile], by rw [h.wiu]⟩

/-- What writes neither the piles nor the ponds. -/
theorem sameLevels_of_eq {s t : State} (pau : t.pau.piles = s.pau.piles) (wiu : t.wiu.ponds = s.wiu.ponds) :
    SameLevels s t := ⟨fun p => by rw [State.pile, pau, State.pile], wiu⟩

/-- Such a write, and then what reaches no level. -/
theorem SameLevels.after {s t u : State} (h : SameLevels t u) (pau : t.pau.piles = s.pau.piles)
    (wiu : t.wiu.ponds = s.wiu.ponds) : SameLevels s u := (sameLevels_of_eq pau wiu).trans h

section
variable (s : State)

/-! ## What reaches no level -/

theorem sameLevels_setPile {p : Fin 24} {d : Pile} (h : d.moisture = (s.pile p).moisture) :
    SameLevels s (s.setPile p d) := by
  refine ⟨fun q => ?_, rfl⟩
  rw [setPile_pile]
  split
  · rename_i same; rw [same, h]
  · rfl

theorem sameLevels_foldl {α : Type} (f : State → α → State) (h : ∀ t a, SameLevels t (f t a)) (l : List α) :
    SameLevels s (l.foldl f s) := by
  induction l generalizing s with
  | nil => exact .refl s
  | cons a l ih => exact (h s a).trans (ih _)

theorem sameLevels_forPiles (f : Fin 24 → State → State) (h : ∀ p t, SameLevels t (f p t)) :
    SameLevels s (forPiles f s) := sameLevels_foldl s _ (fun t p => h p t) _

theorem sameLevels_recomputeEscalation : SameLevels s (recomputeEscalation s) :=
  sameLevels_forPiles s escalate fun _ t => sameLevels_setPile t rfl

/-- What an episode's opening, update and closure end with. -/
theorem sameLevels_announced (n : Notice) : SameLevels s (recomputeEscalation (post n s)) :=
  (within_post s n).sameLevels.trans (sameLevels_recomputeEscalation _)

theorem sameLevels_closeEpisode (k : Nat) (r : CloseReason) : SameLevels s (closeEpisode k r s) := by
  unfold closeEpisode
  split
  · exact .refl s
  · exact (sameLevels_announced _ _).after rfl rfl

theorem sameLevels_closeStale (m : Fin 8) : SameLevels s (closeStale m s) := by
  unfold closeStale
  split
  · exact sameLevels_closeEpisode s _ _
  · exact .refl s

theorem sameLevels_holdOff (m : Fin 8) (k : Nat) : SameLevels s (holdOff m k s) := by
  unfold holdOff
  simp only
  split
  · exact (sameLevels_closeEpisode _ _ _).after rfl rfl
  · exact sameLevels_of_eq rfl rfl

theorem sameLevels_syncAlert (e : AlertId) : SameLevels s (syncAlert e s) := (within_syncAlert s e).sameLevels

theorem sameLevels_readingStep (m : Fin 8) (v : Nat) : SameLevels s (readingStep m v s) := by
  have recorded : SameLevels s (recordReading m v s) :=
    (sameLevels_syncAlert _ _).after rfl rfl
  unfold readingStep
  simp only
  repeat' split
  · exact recorded.trans ((sameLevels_announced _ _).after rfl rfl)
  · exact recorded
  · exact recorded
  · exact recorded.trans ((sameLevels_announced _ _).after rfl rfl)
  · exact recorded.trans (sameLevels_holdOff _ _ _)

theorem sameLevels_configureMonitor (m : Fin 8) (f : MonitorFields) : SameLevels s (configureMonitor m f s) :=
  (sameLevels_syncAlert _ _).after rfl rfl

theorem sameLevels_releaseMonitor (m : Fin 8) : SameLevels s (releaseMonitor m s) := by
  unfold releaseMonitor
  split
  · exact (sameLevels_closeStale s m).trans ((sameLevels_syncAlert _ _).after rfl rfl)
  · exact .refl s

theorem sameLevels_monitorStaleStep (m : Fin 8) : SameLevels s (monitorStaleStep m s) := by
  unfold monitorStaleStep
  split
  · exact .refl s
  · refine SameLevels.trans (t := s.setMonitor m { s.monitor m with stale := true, countdown := none })
      (sameLevels_of_eq rfl rfl) ((sameLevels_syncAlert _ (.monitorStale m)).trans ((sameLevels_closeStale _ m).trans ?_))
    exact sameLevels_of_eq rfl rfl

theorem sameLevels_pulseStep (m : Fin 2) : SameLevels s (pulseStep m s) := by
  unfold pulseStep
  simp only
  split <;> exact sameLevels_of_eq rfl rfl

theorem sameLevels_gateStep (v w : BitVec 4) : SameLevels s (gateStep v w s) :=
  (gateFrame_gateStages s v w).sameLevels.trans (driftEvaluation_judged _).1.sameLevels

theorem within_pumpStop : Within s (pumpStop s) := (within_pumpOff s).trans (within_capacityLoss _)

theorem sameLevels_enterMode (m : Mode) (x : Cause) : SameLevels s (enterMode m x s) := by
  have pumped : ∀ t, SameLevels t (pumpOnMode m t) := fun t => by
    unfold pumpOnMode
    split
    case h_1 | h_5 => exact .refl t
    all_goals exact (within_pumpStop t).sameLevels
  unfold enterMode
  refine SameLevels.trans (t := s.setMode m (some x)) (sameLevels_of_eq rfl rfl) ?_
  exact ((within_post _ .mode).trans <| (within_sparingOrders _ _ fun u =>
      (within_cannonsOnMode u m).trans (within_dispatcherOnMode _ _ m)).trans
    (within_ordersOnMode _ m)).sameLevels.trans ((pumped _).trans (sameLevels_syncAlert _ _))

theorem sameLevels_stopStep (b : Bool) : SameLevels s (stopStep b s) := by
  unfold stopStep
  simp only
  split
  · exact SameLevels.trans (t := setStop b s) (sameLevels_of_eq rfl rfl) (sameLevels_enterMode _ _ _)
  · exact sameLevels_of_eq rfl rfl

theorem sameLevels_modeStep (m : Mode) : SameLevels s (modeStep m s) := by
  unfold modeStep
  split
  · exact .refl s
  · exact sameLevels_enterMode s _ _

theorem sameLevels_ackStep (e : AlertId) : SameLevels s (ackStep e s) := by
  unfold ackStep
  simp only
  split <;> exact sameLevels_of_eq rfl rfl

theorem sameLevels_rolloverTest : SameLevels s (rolloverTest s) := by
  unfold rolloverTest
  split
  · exact sameLevels_of_eq rfl rfl
  · split
    · unfold rollover
      simp only
      have closed := (within_closeDay (currentDay s) (s.setYc { s.yc with recordedDay := some (currentDay s) })).sameLevels
      exact SameLevels.trans (closed.after rfl rfl) <|
        (sameLevels_forPiles _ zeroDelivered fun _ t => sameLevels_setPile t rfl).trans (within_post _ _).sameLevels
    · exact .refl s

/-- A new time, and the day's turn that it may bring (R20, R22). -/
theorem sameLevels_newTime (y : Yc) : SameLevels s (rolloverTest (syncAlert .timeInvalid (s.setYc y))) :=
  SameLevels.trans (t := s.setYc y) (sameLevels_of_eq rfl rfl)
    ((sameLevels_syncAlert _ _).trans (sameLevels_rolloverTest _))

theorem sameLevels_purge : SameLevels s (purge s) := sameLevels_of_eq rfl rfl

theorem sameLevels_setTimeStep (n : Nat) : SameLevels s (setTimeStep n s) :=
  (sameLevels_newTime s _).trans ((sameLevels_purge _).trans (sameLevels_syncAlert _ _))

theorem sameLevels_secondStep : SameLevels s (secondStep s) := by
  rw [secondStep_eq]
  split
  · have purged : ∀ t, SameLevels t (purgeAtHour t) := fun t => by
      unfold purgeAtHour
      split
      · exact sameLevels_purge t
      · exact .refl t
    exact (sameLevels_newTime s _).trans ((purged _).trans (sameLevels_syncAlert _ _))
  · exact (sameLevels_syncAlert _ _).after rfl rfl

theorem sameLevels_siteStep (v : Site) : SameLevels s (siteStep v s) := by
  have dated : SameLevels s (siteDated v s) := by
    unfold siteDated retestDay
    obtain ⟨masts, refitted⟩ := refitMast_writes (s.setSite v) s.site.mast1Fitted v.mast1Fitted
    rw [refitted]
    have gauged : ∀ b t, SameLevels t (refitGauge b t) := fun b t => by
      unfold refitGauge
      split <;> exact sameLevels_of_eq rfl rfl
    have found : SameLevels s (refitGauge v.gaugeFitted (syncAlerts [.mastSuspect 0, .mastSuspect 1]
        { s.setSite v with wfe := { (s.setSite v).wfe with masts := masts } })) :=
      ((within_syncAlerts _ _).sameLevels.trans (gauged _ _)).after rfl rfl
    split
    · exact found.trans (sameLevels_rolloverTest _)
    · exact found
  obtain ⟨machines, x, rfl, -, steady⟩ := steady_siteStep v s
  exact dated.trans (steady.sameLevels.after rfl rfl)

theorem sameLevels_splitStep (f e o : Nat) : SameLevels s (splitStep f e o s) := by
  obtain ⟨piles, written, pile⟩ := splitStep_writes f e o s
  rw [written]
  refine ⟨fun p => ?_, rfl⟩
  change (piles.get p).moisture = _
  rw [pile]

theorem sameLevels_warmRestart : SameLevels s (warmRestart s) := by
  have restarts : SameLevels s (restarted s) :=
    ⟨fun p => by rw [restarted_pile], by obtain ⟨-, -, -, -, -, ⟨ponds, -, -⟩, -⟩ := restarted_frame s; exact ponds⟩
  have latched : ∀ t, SameLevels t (relatchAll t) := fun t => by
    obtain ⟨a, n, read⟩ := relatchAll_eq t
    rw [read]
    exact sameLevels_of_eq rfl rfl
  have obeyed : ∀ t, SameLevels t (obeyStop t) := fun t => by
    unfold obeyStop
    split
    · exact sameLevels_enterMode t _ _
    · exact .refl t
  rw [warmRestart_eq]
  exact restarts.trans ((latched _).trans ((obeyed _).trans (within_setPass _ _).sameLevels))

theorem sameLevels_pollEvent (n : Nat) : SameLevels s (pollEvent n s).1 := by
  unfold pollEvent
  generalize s.lc.notices.take n = l, ([] : List Byte) = b
  induction l generalizing s b with
  | nil => exact .refl s
  | cons x l ih =>
    have taken : SameLevels s (delivered x s) := by
      unfold delivered
      repeat' split
      all_goals exact sameLevels_of_eq rfl rfl
    have left : SameLevels (delivered x s) ((delivered x s).setNotices (s.lc.notices.erase x)) :=
      sameLevels_of_eq rfl rfl
    exact taken.trans (left.trans (ih _ _))

/-! ## What reaches the cannons, the machines and the orders alone -/

theorem sameLevels_feedbackStep (c : Fin 32) (b : Bool) : SameLevels s (feedbackStep c b s) := by
  unfold feedbackStep
  simp only
  repeat' split
  · exact (within_returnToIdle s c).sameLevels
  · exact sameLevels_of_eq rfl rfl
  · exact (within_feedbackOpened _ c).sameLevels.after rfl rfl
  · exact (within_feedbackClosed _ c).sameLevels.after rfl rfl

theorem sameLevels_evaluateExclusion : SameLevels s (evaluateExclusion s) :=
  sameLevels_foldl s _ (fun t c => (steady_excludeAt c t).sameLevels) _

theorem sameLevels_machineStaleStep (m : Fin 4) : SameLevels s (machineStaleStep m s) := by
  unfold machineStaleStep
  split
  · exact .refl s
  · exact ((sameLevels_syncAlert _ _).trans (sameLevels_evaluateExclusion _)).after rfl rfl

theorem sameLevels_reportMachine (m : Fin 4) (r : Fin 2) (n : Nat) : SameLevels s (reportMachine m r n s) :=
  ((sameLevels_syncAlert _ _).trans (sameLevels_evaluateExclusion _)).after rfl rfl

theorem sameLevels_configureCannon (c : Fin 32) (k : CannonConfig) : SameLevels s (configureCannon c k s) :=
  (within_discoverOpen _ c).sameLevels.after rfl rfl

theorem sameLevels_releaseCannon (c : Fin 32) : SameLevels s (releaseCannon c s) := by
  unfold releaseCannon
  simp only
  split
  · exact (sameLevels_syncAlert _ _).after rfl rfl
  · exact .refl s

theorem sameLevels_capacityIncrease : SameLevels s (capacityIncrease s) :=
  ((within_pumpTo s _ _ _).trans (within_markPass _)).sameLevels

theorem sameLevels_wetStep (k tag : Nat) (p : Fin 24) (v x : Nat) : SameLevels s (wetStep k tag p v x s) :=
  sameLevels_of_eq rfl rfl

theorem sameLevels_holdStep (k tag : Nat) (p : Fin 24) (d : Nat) : SameLevels s (holdStep k tag p d s) := by
  have held : ∀ t, SameLevels t (setHold p t) := fun t => sameLevels_setPile t rfl
  refine SameLevels.trans (SameLevels.after (held _) ?_ ?_)
    ((within_decideEnds _ _).trans (within_closeOrders _ _ _)).sameLevels <;> rfl

/-! ## Ponds -/

end

section
variable {s : State}

/-- The volumes in range of the ponds as they come to be; the piles stand. -/
theorem levelsSound_setPond {p : Fin 4} {d : Pond} (h : d.volume ≤ d.config.capacity) (sound : LevelsSound s) :
    LevelsSound (s.setPond p d) := by
  refine ⟨sound.1, fun q => ?_⟩
  rw [setPond_pond]
  split
  · exact h
  · exact sound.2 q

theorem levelsSound_waterEvent {f : State → State} (h : LevelsSound (f s)) : LevelsSound (waterEvent f s) :=
  (within_waterEvent f s).sameLevels.sound h

theorem levelsSound_testFitness {before : State} (sound : LevelsSound s) : LevelsSound (testFitness before s) :=
  (within_testFitness before s).sameLevels.sound sound

/-- The day's figures hold no level. -/
theorem levelsSound_setToday {d : DayRecord} (sound : LevelsSound s) : LevelsSound (s.setToday d) := sound

/-- A draw only lowers the volume (R78, R80). -/
theorem levelsSound_draw (lost : Bool) (q : Nat) (sound : LevelsSound s) : LevelsSound (draw lost q s) := by
  unfold draw
  split
  · rename_i src _
    refine levelsSound_waterEvent (levelsSound_testFitness ?_)
    have counted : ∀ t, LevelsSound t → LevelsSound (countDrawn lost q t) := fun t h => by
      unfold countDrawn
      split <;> exact levelsSound_setToday h
    refine counted _ ?_
    cases src with
    | pond p => exact levelsSound_setToday (levelsSound_setPond ((Nat.sub_le _ _).trans (sound.2 p)) sound)
    | fresh => exact levelsSound_setToday sound
  · exact sound

theorem Pond.stir_volume (d : Pond) (kind : InflowKind) (v : Nat) : (d.stir kind v).volume = d.volume := by
  unfold Pond.stir
  simp only
  repeat' split
  all_goals rfl

theorem Pond.stir_config (d : Pond) (kind : InflowKind) (v : Nat) : (d.stir kind v).config = d.config := by
  unfold Pond.stir
  simp only
  repeat' split
  all_goals rfl

/-- An inflow is held at the capacity (R64). -/
theorem levelsSound_inflow (kind : InflowKind) (p : Fin 4) (v : Nat) (sound : LevelsSound s) :
    LevelsSound (inflow kind p v s) := by
  unfold inflow
  simp only
  split
  · refine levelsSound_waterEvent (levelsSound_setToday (levelsSound_setPond ?_ sound))
    rw [Pond.stir_volume, Pond.stir_config]
    exact min_le_right _ _
  · exact sound

theorem levelsSound_settle (p : Fin 4) (sound : LevelsSound s) : LevelsSound (settle p s) :=
  levelsSound_waterEvent (levelsSound_setPond (d := { s.pond p with settled := true, settleCountdown := none, runoff := 0 })
    (sound.2 p) sound)

theorem levelsSound_restateVolume {p : Fin 4} {v : Nat} (h : v ≤ (s.pond p).config.capacity) (sound : LevelsSound s) :
    LevelsSound (restateVolume p v s) :=
  levelsSound_setToday (levelsSound_setPond (d := { s.pond p with volume := v }) h sound)

theorem restateVolume_pond (p q : Fin 4) (v : Nat) (s : State) :
    (restateVolume p v s).pond q = if q = p then { s.pond p with volume := v } else s.pond q := setPond_pond _ _ _ _

/-- The initial volume is at most the capacity (R61, R62). -/
theorem levelsSound_configurePond {p : Fin 4} {k : PondConfig} (h : k.initial ≤ k.capacity) (sound : LevelsSound s) :
    LevelsSound (configurePond p k s) := by
  refine levelsSound_waterEvent ⟨sound.1, fun q => ?_⟩
  rw [setPond_pond]
  split
  · simpa [restateVolume_pond] using h
  · rename_i other
    rw [restateVolume_pond, if_neg other, setPond_pond, if_neg other]
    exact sound.2 q

theorem levelsSound_releasePond (p : Fin 4) (sound : LevelsSound s) : LevelsSound (releasePond p s) := by
  unfold releasePond
  split
  · refine levelsSound_waterEvent (levelsSound_setPond ?_ (levelsSound_restateVolume (Nat.zero_le _) sound))
    simp [restateVolume_pond]
  · exact sound

theorem levelsSound_reportPond (p : Fin 4) (level : Option Nat) (x y : Option Bool) (sound : LevelsSound s) :
    LevelsSound (reportPond p level x y s) := by
  have levelled : LevelsSound (reportLevel p level s) := by
    unfold reportLevel
    split
    · exact levelsSound_restateVolume (min_le_right _ _) sound
    · exact sound
  exact levelsSound_waterEvent (levelsSound_testFitness (levelsSound_setPond (levelled.2 p) levelled))

theorem levelsSound_tick (sound : LevelsSound s) : LevelsSound (tick s) := by
  refine ⟨sound.1, fun p => ?_⟩
  change ((s.wiu.ponds.map Pond.tick).get p).volume ≤ ((s.wiu.ponds.map Pond.tick).get p).config.capacity
  rw [Table.get_map]
  exact sound.2 p

/-! ## Piles -/

theorem levelsSound_setPile {p : Fin 24} {d : Pile} (h : d.moisture ≤ 20000) (sound : LevelsSound s) :
    LevelsSound (s.setPile p d) := by
  refine ⟨fun q => ?_, sound.2⟩
  rw [setPile_pile]
  split
  · exact h
  · exact sound.1 q

theorem levelsSound_foldl {α : Type} {f : State → α → State} (h : ∀ t a, LevelsSound t → LevelsSound (f t a))
    (l : List α) (sound : LevelsSound s) : LevelsSound (l.foldl f s) := by
  induction l generalizing s with
  | nil => exact sound
  | cons a l ih => exact ih (h s a sound)

theorem levelsSound_forPiles {f : Fin 24 → State → State} (h : ∀ p t, LevelsSound t → LevelsSound (f p t))
    (sound : LevelsSound s) : LevelsSound (forPiles f s) := levelsSound_foldl (fun t p => h p t) _ sound

theorem levelsSound_postRunoff (drain : Option (Fin 4)) (v : Nat) (sound : LevelsSound s) :
    LevelsSound (postRunoff drain v s) := by
  unfold postRunoff
  split
  · split
    · exact levelsSound_inflow _ _ _ sound
    · exact sound
  · exact sound

/-- The new moisture is held at 20000 (R46). -/
theorem levelsSound_assessPile (i : Inputs) (p : Fin 24) (sound : LevelsSound s) : LevelsSound (assessPile i p s) := by
  unfold assessPile
  simp only
  split
  · have dried := levelsSound_postRunoff (s.pile p).config.drain (runoffOf (s.pile p)) <|
      levelsSound_setPile (p := p) (d := { s.pile p with
        moisture := newMoisture i (s.pile p), pendingSpray := 0, pendingRain := 0 }) (min_le_right _ _) sound
    generalize postRunoff _ _ _ = t at dried
    have judged := levelsSound_setPile (p := p) (d := { t.pile p with results := some (assessResults i t p) })
      (dried.1 p) dried
    split
    · exact judged
    · exact (within_post _ _).sameLevels.sound judged
  · exact sound

theorem sameLevels_completion (s : State) : SameLevels s (completion s) := by
  have tiers : ∀ p t, SameLevels t (recordTier p t) := fun p t => by
    unfold recordTier
    split <;> exact sameLevels_of_eq rfl rfl
  have ended : ∀ p t, SameLevels t (endSatisfied p t) := fun p t => by
    unfold endSatisfied
    split
    · exact (within_decideEnds t _).sameLevels
    · exact .refl t
  have opened : ∀ p t, SameLevels t (setOpenDemand p t) := fun p t => sameLevels_of_eq rfl rfl
  exact (sameLevels_forPiles s _ tiers).trans <| (sameLevels_forPiles _ _ ended).trans <|
    (sameLevels_forPiles _ _ opened).trans (within_markPass _).sameLevels

theorem levelsSound_assessmentStep (sound : LevelsSound s) : LevelsSound (assessmentStep s) := by
  unfold assessmentStep
  refine (sameLevels_completion _).sound ?_
  exact levelsSound_forPiles (fun p t => levelsSound_assessPile (readInputs s) p) ((sameLevels_of_eq rfl rfl).sound sound)

theorem levelsSound_rainEdge (sound : LevelsSound s) : LevelsSound (rainEdge s) := by
  have low : LevelsSound (setRainLow s) := (sameLevels_of_eq rfl rfl).sound sound
  have wetted : ∀ n p t, SameLevels t (wetPile n p t) := fun n p t => by
    unfold wetPile
    simp only
    split
    · exact sameLevels_setPile t rfl
    · exact .refl t
  have rained : ∀ n t p, LevelsSound t → LevelsSound (rainOnPond n p t) := fun n t p h => by
    unfold rainOnPond
    simp only
    split
    · exact levelsSound_inflow _ _ _ h
    · exact h
  unfold rainEdge shareRain
  simp only
  split
  · exact levelsSound_foldl (rained _) _ ((sameLevels_forPiles _ _ (wetted _)).sound
      ((sameLevels_of_eq rfl rfl).sound low))
  · exact low

theorem levelsSound_deliver (c : Fin 32) (r : Run) (sound : LevelsSound s) : LevelsSound (deliver c r s) := by
  have credited : ∀ p q t, SameLevels t (creditPile p q t) := fun p q t => by
    unfold creditPile
    simp only
    split
    · exact sameLevels_setPile t rfl
    · exact .refl t
  refine levelsSound_draw _ _ ?_
  exact ((credited _ _ _).trans (within_creditOrder _ _ _).sameLevels).sound sound

theorem levelsSound_deliveryStep (c : Fin 32) (sound : LevelsSound s) : LevelsSound (deliveryStep c s) := by
  have tested : ∀ r, LevelsSound (targetTest c (deliver c r s)) := fun r =>
    (within_targetTest _ c).sameLevels.sound (levelsSound_deliver c r sound)
  unfold deliveryStep
  split
  · exact sound
  · split
    · simp only
      split
      · split
        · exact (within_endOthers _ _ c).sameLevels.sound (tested _)
        · exact tested _
      · exact tested _
      · exact tested _
    · exact sound
    · exact sound

theorem levelsSound_lostWaterStep (c : Fin 32) (sound : LevelsSound s) : LevelsSound (lostWaterStep c s) := by
  unfold lostWaterStep
  simp only
  repeat' split
  · exact sound
  · exact levelsSound_draw _ _ sound
  · exact sound

theorem levelsSound_releasePile (p : Fin 24) (sound : LevelsSound s) : LevelsSound (releasePile p s) := by
  unfold releasePile
  split
  · exact levelsSound_setPile (Nat.zero_le _) sound
  · exact sound

theorem pileConfig?_w0 {f : PileFields} {k : PileConfig} (h : pileConfig? f = some k) : k.w0 ≤ 20000 := by
  unfold pileConfig? at h
  repeat' split at h
  all_goals simp only [Option.some.injEq, reduceCtorEq] at h
  rename_i range
  obtain ⟨-, -, -, -, -, -, initial⟩ := range
  exact h ▸ initial

theorem pondConfig?_initial {f : PondFields} {k : PondConfig} (h : pondConfig? f = some k) : k.initial ≤ k.capacity := by
  unfold pondConfig? at h
  split at h
  · rename_i range
    obtain ⟨-, -, -, -, -, -, -, initial⟩ := range
    exact Option.some.inj h ▸ initial
  · cases h

/-! ## Every command -/

theorem levelsSound_inEvent {f : State → State} (h : ∀ t, LevelsSound t → LevelsSound (f t)) (sound : LevelsSound s) :
    LevelsSound (inEvent f s) := (inEvent_within s f).sameLevels.sound (h _ sound)

theorem Makes.levelsSound {i : Instr} {f : State → State} (h : Makes i f) (sound : LevelsSound s) :
    LevelsSound (f s) := by
  cases h with
  | gateExpiry => exact (sameLevels_gateStep s _ _).sound sound
  | rainTip => exact levelsSound_rainEdge sound
  | secondEvent => exact (sameLevels_secondStep s).sound sound
  | assessment => exact levelsSound_assessmentStep sound
  | primingExpiry | changeoverExpiry => exact (sameLevels_capacityIncrease s).sound sound
  | rundownExpiry => exact (within_pumpStop s).sameLevels.sound sound
  | settleExpiry => exact levelsSound_settle _ sound
  | deliverySecond => exact levelsSound_deliveryStep _ sound
  | lostWaterExpiry => exact levelsSound_lostWaterStep _ sound
  | slotExpiry => exact (within_slotStep s).sameLevels.sound sound
  | feedbackChange => exact (sameLevels_feedbackStep s _ _).sound sound
  | travelExpiry => exact (within_travelStep s _).sameLevels.sound sound
  | machineStaleExpiry => exact (sameLevels_machineStaleStep s _).sound sound
  | resumeExpiry => exact (within_resumeStep s _).sameLevels.sound sound
  | orderExpiry | holdExpiry => exact (within_orderStep s _ _ _).sameLevels.sound sound
  | stopLineChange => exact (sameLevels_stopStep s _).sound sound

/-- What a request asks for, but for a CONFIGURE of a pile or a pond, keeps the levels in range whatever its fields. -/
theorem Asks.levelsSound {i : Instr} {f : State → State} (h : Asks i f) (pile : ∀ tag n a x, i ≠ .pileSetup tag n a x)
    (pond : ∀ tag n a x, i ≠ .pondSetup tag n a x) (sound : LevelsSound s) : LevelsSound (f s) := by
  cases h with
  | siteSetup => exact (sameLevels_siteStep s _).sound sound
  | poolSplit => exact (sameLevels_splitStep s _ _ _).sound sound
  | configurePile | releasePile => exact absurd rfl (pile _ _ _ _)
  | configureCannon => exact (sameLevels_configureCannon s _ _).sound sound
  | releaseCannon => exact (sameLevels_releaseCannon s _).sound sound
  | configurePond | releasePond => exact absurd rfl (pond _ _ _ _)
  | configureMonitor => exact (sameLevels_configureMonitor s _ _).sound sound
  | releaseMonitor => exact (sameLevels_releaseMonitor s _).sound sound
  | attrib => exact sound
  | mode => exact (sameLevels_modeStep s _).sound sound
  | setTime => exact (sameLevels_setTimeStep s _).sound sound
  | forecast => exact ((sameLevels_syncAlert _ _).after rfl rfl).sound sound
  | reading => exact (sameLevels_readingStep s _ _).sound sound
  | pondReport => exact levelsSound_reportPond _ _ _ _ sound
  | machinePos => exact (sameLevels_reportMachine s _ _ _).sound sound
  | mastService => exact ((sameLevels_syncAlert _ _).after rfl rfl).sound sound
  | orderWet => exact (sameLevels_wetStep s _ _ _ _ _).sound sound
  | orderHold => exact (sameLevels_holdStep s _ _ _ _).sound sound
  | orderCancel => exact (within_closeOrder s _ _).sameLevels.sound sound
  | lock => exact (within_lockCannon s _).sameLevels.sound sound
  | unlock => exact (within_unlockCannon s _).sameLevels.sound sound
  | ackAlert => exact (sameLevels_ackStep s _).sound sound

theorem levelsSound_answerPileSetup {n a : Nat} {x : PileFields} {u : State} {body : List Byte}
    (h : answerPileSetup n a x s = .accepted u body) (sound : LevelsSound s) : LevelsSound u := by
  unfold answerPileSetup accept at h
  repeat' split at h
  all_goals simp only [Answer.accepted.injEq, reduceCtorEq] at h
  · rename_i fields
    exact h.1 ▸ levelsSound_inEvent (fun t k => levelsSound_setPile (pileConfig?_w0 fields) k) sound
  · exact h.1 ▸ levelsSound_inEvent (fun t k => levelsSound_releasePile _ k) sound

theorem levelsSound_answerPondSetup {n a : Nat} {x : PondFields} {u : State} {body : List Byte}
    (h : answerPondSetup n a x s = .accepted u body) (sound : LevelsSound s) : LevelsSound u := by
  unfold answerPondSetup accept at h
  repeat' split at h
  all_goals simp only [Answer.accepted.injEq, reduceCtorEq] at h
  · rename_i fields _ _
    exact h.1 ▸ levelsSound_inEvent (fun t k => levelsSound_configurePond (pondConfig?_initial fields) k) sound
  · exact h.1 ▸ levelsSound_inEvent (fun t k => levelsSound_releasePond _ k) sound

theorem levelsSound_answer {i : Instr} {u : State} {body : List Byte} (h : answerOf i s = .accepted u body)
    (sound : LevelsSound s) : LevelsSound u := by
  by_cases pile : ∃ tag n a x, i = .pileSetup tag n a x
  · obtain ⟨tag, n, a, x, rfl⟩ := pile
    exact levelsSound_answerPileSetup h sound
  by_cases pond : ∃ tag n a x, i = .pondSetup tag n a x
  · obtain ⟨tag, n, a, x, rfl⟩ := pond
    exact levelsSound_answerPondSetup h sound
  cases answerOf_accepted h with
  | report => exact sound
  | event asks =>
    exact levelsSound_inEvent (fun t k => asks.levelsSound (fun tag n a x own => pile ⟨tag, n, a, x, own⟩)
      (fun tag n a x own => pond ⟨tag, n, a, x, own⟩) k) sound
  | poll tag n _ => exact (sameLevels_pollEvent s n).sound sound

end

theorem levelsSound_powerOn (a b : Bool) (s : State) : LevelsSound (powerOn a b s) := by
  refine ⟨fun p => ?_, fun p => ?_⟩
  · change (State.reset.pile p).moisture ≤ 20000
    rw [reset_pile]
    exact Nat.zero_le _
  · change (State.reset.pond p).volume ≤ (State.reset.pond p).config.capacity
    rw [reset_pond]
    exact Nat.zero_le _

theorem keptByAnswers_levelsSound : KeptByAnswers LevelsSound where
  line _ _ h k := h.sameLevels.sound k
  powerOn a b s _ := levelsSound_powerOn a b s
  pulse m s k := (sameLevels_pulseStep s m).sound k
  bounce _ k := k
  monitorStale m s k := (sameLevels_monitorStaleStep s m).sound k
  makes _ _ _ h k := levelsSound_inEvent (fun _ => h.levelsSound) k
  answer _ _ _ _ h k := levelsSound_answer h k
  restart s k := (sameLevels_warmRestart s).sound k

/-- Settles O17: each event that writes a moisture or a volume holds it, a CONFIGURE by the ranges its fields were
judged by, and nothing else reaches either. -/
theorem levelsStayInRange : Obligations.LevelsStayInRange := fun _ _ sound h =>
  keptByAnswers_levelsSound.step (fun _ _ _ k => k) (fun _ => levelsSound_tick) h sound

end Sys2Proof.Machine
end

