-- ==== Sys2Proof/Proofs/PileSetup.lean ====
section
/-! SUPPORT. PILE_SETUP (R37 to R39): the fields that make a configuration, and the one record written. -/

namespace Sys2Proof.Machine

/-! ## The fields -/

theorem indexOrNone?_isSome {n i : Nat} : (indexOrNone? n i).isSome = true ↔ i < n ∨ i = 255 := by
  unfold indexOrNone? index?
  by_cases none : i = 255
  · simp [none]
  · by_cases low : i < n <;> simp [none, low]

theorem indexOrNone?_eq_some {n i : Nat} {x : Option (Fin n)} (h : indexOrNone? n i = some x) :
    x.map Fin.val = if i = 255 then none else some i := by
  unfold indexOrNone? at h
  split at h
  · rename_i none
    rw [if_pos none, ← Option.some.inj h]
    rfl
  · rename_i named
    rw [if_neg named]
    unfold index? at h
    split at h
    · rw [← Option.some.inj h]
      rfl
    · cases h

/-- All that a configuration needs of its fields, and what it takes from them (R37). -/
theorem pileConfig?_cases (f : PileFields) :
    (∃ drain size, indexOrNone? 4 f.drain = some drain ∧
      (f.t0 ≤ 300 ∧ (1 ≤ f.s ∧ f.s ≤ 100) ∧ (100 ≤ f.area ∧ f.area ≤ 60000) ∧ (10 ≤ f.retention ∧ f.retention ≤ 100) ∧
        f.wcap ≤ 20000 ∧ (∀ x ∈ f.exposure, x ≤ 24) ∧ f.w0 ≤ 20000) ∧
      pileConfig? f = some ⟨f.t0, f.s, f.area, f.retention, f.wcap, drain, ⟨f.exposure, size⟩, f.w0⟩) ∨
    pileConfig? f = none ∧ ¬ ((indexOrNone? 4 f.drain).isSome = true ∧ f.exposure.length = 16 ∧
      f.t0 ≤ 300 ∧ (1 ≤ f.s ∧ f.s ≤ 100) ∧ (100 ≤ f.area ∧ f.area ≤ 60000) ∧ (10 ≤ f.retention ∧ f.retention ≤ 100) ∧
        f.wcap ≤ 20000 ∧ (∀ x ∈ f.exposure, x ≤ 24) ∧ f.w0 ≤ 20000) := by
  unfold pileConfig?
  cases drain : indexOrNone? 4 f.drain with
  | none => exact .inr ⟨rfl, fun h => by cases h.1⟩
  | some x =>
    simp only
    split
    · rename_i size
      split
      · rename_i range
        exact .inl ⟨x, size, rfl, range, rfl⟩
      · rename_i out
        exact .inr ⟨rfl, fun h => out h.2.2⟩
    · rename_i size
      exact .inr ⟨rfl, fun h => size h.2.1⟩

theorem pileConfig?_isSome (f : PileFields) : (pileConfig? f).isSome = true ↔
    f.t0 ≤ 300 ∧ (1 ≤ f.s ∧ f.s ≤ 100) ∧ (100 ≤ f.area ∧ f.area ≤ 60000) ∧ (10 ≤ f.retention ∧ f.retention ≤ 100) ∧
      f.wcap ≤ 20000 ∧ (f.drain ≤ 3 ∨ f.drain = 255) ∧ f.exposure.length = 16 ∧ (∀ x ∈ f.exposure, x ≤ 24) ∧
      f.w0 ≤ 20000 := by
  have below : f.drain ≤ 3 ↔ f.drain < 4 := Nat.lt_succ_iff.symm
  rcases pileConfig?_cases f with ⟨drain, size, named, range, h⟩ | ⟨h, out⟩
  · have named := indexOrNone?_isSome.1 (Option.isSome_of_mem named)
    obtain ⟨t0, s, area, retention, wcap, exposure, w0⟩ := range
    rw [h]
    exact iff_of_true rfl ⟨t0, s, area, retention, wcap, named.imp_left below.2, size, exposure, w0⟩
  · rw [h]
    refine iff_of_false Bool.false_ne_true fun ⟨t0, s, area, retention, wcap, drain, size, exposure, w0⟩ => out ?_
    exact ⟨indexOrNone?_isSome.2 (drain.imp_left below.1), size, t0, s, area, retention, wcap, exposure, w0⟩

theorem pileConfig?_fields {f : PileFields} {k : PileConfig} (h : pileConfig? f = some k) :
    k.t0 = f.t0 ∧ k.s = f.s ∧ k.area = f.area ∧ k.retention = f.retention ∧ k.wcap = f.wcap ∧
      k.drain.map Fin.val = (if f.drain = 255 then none else some f.drain) ∧ k.exposure.rows = f.exposure ∧
      k.w0 = f.w0 := by
  rcases pileConfig?_cases f with ⟨drain, size, named, -, made⟩ | ⟨none, -⟩
  · rw [made] at h
    obtain rfl := Option.some.inj h
    exact ⟨rfl, rfl, rfl, rfl, rfl, indexOrNone?_eq_some named, rfl, rfl⟩
  · rw [none] at h
    cases h

/-! ## The request -/

section
variable {p : Fin 24} {f : PileFields} {k : PileConfig} {s : State}

theorem inEvent_configurePile : inEvent (configurePile p k) s = (s.setPile p { s.pile p with
    configured := true, config := k, moisture := k.w0, results := none }).setPass false := rfl

theorem inEvent_releasePile (configured : (s.pile p).configured = true) : inEvent (releasePile p) s =
    (s.setPile p { s.pile p with
      configured := false, moisture := 0, pendingSpray := 0, pendingRain := 0, deliveredToday := 0
      results := none }).setPass false := by
  have released : releasePile p (s.setPass false) = (s.setPass false).setPile p { s.pile p with
      configured := false, moisture := 0, pendingSpray := 0, pendingRain := 0, deliveredToday := 0
      results := none } := if_pos configured
  rw [inEvent_of_quietPass (by rw [released]; rfl), released]
  rfl

theorem inEvent_releasePile_unconfigured (free : (s.pile p).configured = false) :
    inEvent (releasePile p) s = s.setPass false := by
  have released : releasePile p (s.setPass false) = s.setPass false :=
    if_neg fun configured => by rw [setPass_pile, free] at configured; cases configured
  rw [inEvent_of_quietPass (by rw [released]; rfl), released]

theorem pileSetupBody_setPile (v : Pile) : pileSetupBody p ((s.setPile p v).setPass false) =
    le 1 p ++ flagByte v.configured ++ pileBlock v.config := by
  unfold pileSetupBody
  rw [setPass_pile, setPile_pile_same]

theorem answerPileSetup_configure (standby : s.mau.mode = .standby) (fields : pileConfig? f = some k) :
    answerPileSetup p 0 f s = accept (configurePile p k) (pileSetupBody p) s := by
  unfold answerPileSetup
  rw [if_neg (not_not_intro standby), index?_val]
  simp only [setupAction?, fields]

theorem answerPileSetup_release (standby : s.mau.mode = .standby) :
    answerPileSetup p 1 f s = accept (releasePile p) (pileSetupBody p) s := by
  unfold answerPileSetup
  rw [if_neg (not_not_intro standby), index?_val]
  rfl

theorem setupAction?_of_le {a : Nat} (h : 2 ≤ a) : setupAction? a = none := by
  match a, h with
  | n + 2, _ => rfl

theorem answerPileSetup_outOfRange {i a : Nat} (standby : s.mau.mode = .standby)
    (out : 24 ≤ i ∨ 2 ≤ a ∨ (a = 0 ∧ pileConfig? f = none)) : answerPileSetup i a f s = .refused .outOfRange := by
  unfold answerPileSetup
  rw [if_neg (not_not_intro standby)]
  rcases out with pile | action | ⟨rfl, fields⟩
  · rw [index?_of_le pile]
  · rw [setupAction?_of_le action]
    cases index? 24 i <;> rfl
  · cases index? 24 i with
    | none => rfl
    | some p => simp only [setupAction?, fields]

end

/-- Settles O55: each answer writes its one record, and the configuration holds the fields carried. -/
theorem pileSetupWritesOneRecord : Obligations.PileSetupWritesOneRecord := by
  refine ⟨fun tag p f k s free standby fields => ?_, fun tag p f s free standby configured => ?_,
    fun tag p f s free standby unconfigured => ?_,
    fun tag i a f s free mode => congrArg _ (takeRequest_refused free (if_pos mode)),
    fun tag i a f s free standby out => congrArg _ (takeRequest_refused free (answerPileSetup_outOfRange standby out)),
    pileConfig?_isSome, fun f k => pileConfig?_fields⟩
  · have answer := takeRequest_accepted (kind := 0x04) (tag := tag) free (answerPileSetup_configure (p := p) standby fields)
    rw [inEvent_configurePile, pileSetupBody_setPile] at answer
    exact congrArg _ answer
  · have answer := takeRequest_accepted (kind := 0x04) (tag := tag) free (answerPileSetup_release (p := p) (f := f) standby)
    rw [inEvent_releasePile configured, pileSetupBody_setPile] at answer
    exact congrArg _ answer
  · have answer := takeRequest_accepted (kind := 0x04) (tag := tag) free (answerPileSetup_release (p := p) (f := f) standby)
    rw [inEvent_releasePile_unconfigured unconfigured, pileSetupBody, setPass_pile, unconfigured] at answer
    exact congrArg _ answer

end Sys2Proof.Machine
end

