-- ==== Sys2Proof/Proofs/Assessing.lean ====
section
/-! SUPPORT. The assessment of the piles, one after another (R42 to R56): each is judged by the state found, whatever
the piles before it have posted, and the sweep reaches the piles, the ponds and the notices alone. -/

namespace Sys2Proof.Machine

/-- What the assessment of the piles leaves unchanged. -/
structure Assessing (s t : State) : Prop where
  quiet : Quiet s t
  pins : t.pins = s.pins
  cc : t.cc = s.cc
  sd : t.sd = { s.sd with passDue := t.sd.passDue }
  wiu : t.wiu = { s.wiu with ponds := t.wiu.ponds, today := { s.wiu.today with ponds := t.wiu.today.ponds } }
  countdown : t.pau.countdown = s.pau.countdown

theorem Assessing.refl (s : State) : Assessing s s := ⟨.refl s, rfl, rfl, rfl, rfl, rfl⟩

theorem Assessing.trans {s t u : State} (h : Assessing s t) (k : Assessing t u) : Assessing s u where
  quiet := h.quiet.trans k.quiet
  pins := k.pins.trans h.pins
  cc := k.cc.trans h.cc
  sd := by rw [k.sd, h.sd]
  wiu := by rw [k.wiu, h.wiu]
  countdown := k.countdown.trans h.countdown

theorem Assessing.cannon {s t : State} (h : Assessing s t) (c : Fin 32) : t.cannon c = s.cannon c := by
  rw [State.cannon, h.cc, State.cannon]

theorem Assessing.run {s t : State} (h : Assessing s t) (c : Fin 32) : t.run c = s.run c := by
  rw [State.run, h.sd, State.run]

theorem Assessing.now {s t : State} (h : Assessing s t) : now t = now s := by
  rw [Machine.now, h.quiet.yc, Machine.now]

section
variable (s : State)

theorem assessing_setPile (p : Fin 24) (d : Pile) : Assessing s (s.setPile p d) :=
  ⟨quiet_setPile s p d, rfl, rfl, rfl, rfl, rfl⟩

theorem assessing_post (n : Notice) : Assessing s (post n s) :=
  ⟨(within_post s n).quiet, post_pins s n, post_cc s n, by rw [post_sd], by rw [post_wiu], by rw [post_pau]⟩

theorem assessing_syncAlert (e : AlertId) : Assessing s (syncAlert e s) :=
  ⟨(within_syncAlert s e).quiet, syncAlert_pins s e, syncAlert_cc s e, by rw [syncAlert_sd], by rw [syncAlert_wiu],
    by rw [syncAlert_pau]⟩

theorem assessing_reportUsable (before : State) : Assessing s (reportUsable before s) := by
  unfold reportUsable
  split
  · exact ⟨(within_markPass s).quiet, rfl, rfl, rfl, rfl, rfl⟩
  · exact .refl s

/-! ## The runoff posted (R46, R64) -/

theorem assessing_inflow (kind : InflowKind) (q : Fin 4) (v : Nat) : Assessing s (inflow kind q v s) := by
  unfold inflow waterEvent
  simp only
  split
  · refine Assessing.trans ?_ ((assessing_syncAlert _ _).trans ((assessing_syncAlert _ _).trans (assessing_reportUsable _ _)))
    exact ⟨(quiet_setPond s q _).trans (quiet_updatePondDay _ q _), rfl, rfl, rfl, rfl, rfl⟩
  · exact .refl s

theorem assessing_postRunoff (drain : Option (Fin 4)) (v : Nat) : Assessing s (postRunoff drain v s) := by
  unfold postRunoff
  split
  · split
    · exact assessing_inflow s _ _ _
    · exact .refl s
  · exact .refl s

theorem postRunoff_pile (drain : Option (Fin 4)) (v : Nat) (p : Fin 24) : (postRunoff drain v s).pile p = s.pile p := by
  unfold postRunoff inflow
  split
  · simp only
    split
    · split
      · rw [waterEvent_pile]
        rfl
      · rfl
    · rfl
  · rfl

/-- The water's conditions post ALERT alone (R160). -/
theorem mem_risk_waterEvent {f : State → State} {p : Fin 24} (h : .risk p ∈ (waterEvent f s).lc.notices) :
    .risk p ∈ (f s).lc.notices := by
  have alerts : ∀ e t, .risk p ∈ (syncAlert e t).lc.notices → .risk p ∈ t.lc.notices := fun e t k =>
    (mem_notices_syncAlert k).resolve_right (by simp)
  have reported : ∀ t : State, .risk p ∈ (reportUsable s t).lc.notices → .risk p ∈ t.lc.notices := fun t k => by
    unfold reportUsable at k
    split at k <;> exact k
  unfold waterEvent at h
  generalize f s = u at h ⊢
  exact alerts .noWater u (alerts .waterShort _ (reported _ h))

theorem mem_risk_postRunoff {drain : Option (Fin 4)} {v : Nat} {p : Fin 24} :
    .risk p ∈ (postRunoff drain v s).lc.notices ↔ .risk p ∈ s.lc.notices := by
  refine ⟨fun h => ?_, fun h => (assessing_postRunoff s drain v).quiet.posts.keeps.subset h⟩
  unfold postRunoff inflow at h
  split at h
  · simp only at h
    split at h
    · split at h
      · exact mem_risk_waterEvent s h
      · exact h
    · exact h
  · exact h

/-! ## One pile -/

end

/-- Stages 3 and 4 on the pile's record (R45, R46). -/
def Pile.moistened (i : Inputs) (d : Pile) : Pile :=
  { d with moisture := newMoisture i d, pendingSpray := 0, pendingRain := 0 }

/-- The results of stages 5 to 9 by the state found (R47 to R55). -/
def judged (i : Inputs) (s : State) (p : Fin 24) : Results :=
  assessResults i (s.setPile p ((s.pile p).moistened i)) p

/-- The record of the pile after its assessment; one that is not configured is not touched (R42). -/
def assessedPile (i : Inputs) (s : State) (p : Fin 24) : Pile :=
  if (s.pile p).configured then { (s.pile p).moistened i with results := some (judged i s p) } else s.pile p

section
variable {i : Inputs} {s t : State} {p : Fin 24}

theorem covered_congr (cc : t.cc = s.cc) (run : ∀ c, t.run c = s.run c) (mode : t.mau.mode = s.mau.mode)
    (piles : ∀ q, (t.pile q).configured = (s.pile q).configured) (p : Fin 24) : covered t p = covered s p := by
  have cannon : ∀ c, t.cannon c = s.cannon c := fun c => by rw [State.cannon, cc, State.cannon]
  have ready : ∀ c, eligible t c = eligible s c := fun c => by
    rw [eligible, couldSpray, cannon, piles, mode, run, eligible, couldSpray]
  unfold covered
  simp only [cannon, ready, run]

theorem assessResults_congr (pile : t.pile p = s.pile p) (covers : covered t p = covered s p) (time : now t = now s) :
    assessResults i t p = assessResults i s p := by
  unfold assessResults
  rw [pile, covers, time]

theorem moistened_configured (p q : Fin 24) :
    ((s.setPile p ((s.pile p).moistened i)).pile q).configured = (s.pile q).configured := by
  rw [setPile_pile]
  split
  · rename_i own; rw [own]; rfl
  · rfl

/-- The judgement reads the pile's own record, the cannons with their runs, the mode, which piles are configured, and
the time. -/
theorem judged_congr (h : Assessing s t) (piles : ∀ q, (t.pile q).configured = (s.pile q).configured)
    (own : t.pile p = s.pile p) : judged i t p = judged i s p := by
  refine assessResults_congr ?_ (covered_congr (s := s.setPile p _) (t := t.setPile p _) h.cc h.run ?_ (fun q => ?_) p)
    h.now
  · rw [setPile_pile_same, setPile_pile_same, own]
  · rw [setPile_mau, setPile_mau, h.quiet.mau]
  · rw [moistened_configured, moistened_configured, piles]

/-- The state in which a configured pile is judged: its record wetted and dried, and its runoff posted (R46). -/
def drained (i : Inputs) (p : Fin 24) (s : State) : State :=
  postRunoff (s.pile p).config.drain (runoffOf (s.pile p)) (s.setPile p ((s.pile p).moistened i))

theorem assessing_drained (i : Inputs) (p : Fin 24) (s : State) : Assessing s (drained i p s) :=
  (assessing_setPile s p _).trans (assessing_postRunoff _ _ _)

theorem drained_pile (i : Inputs) (p q : Fin 24) (s : State) :
    (drained i p s).pile q = (s.setPile p ((s.pile p).moistened i)).pile q := postRunoff_pile _ _ _ q

theorem judged_drained (i : Inputs) (p : Fin 24) (s : State) : assessResults i (drained i p s) p = judged i s p := by
  have found := assessing_postRunoff (s.setPile p ((s.pile p).moistened i)) (s.pile p).config.drain (runoffOf (s.pile p))
  exact assessResults_congr (drained_pile i p p s)
    (covered_congr found.cc found.run (by rw [found.quiet.mau]) (fun q => by rw [postRunoff_pile]) p) found.now

theorem assessPile_of_configured (h : (s.pile p).configured = true) : assessPile i p s =
    if (s.pile p).results.map Results.risk = some (judged i s p).risk then (drained i p s).setPile p (assessedPile i s p)
    else post (.risk p) ((drained i p s).setPile p (assessedPile i s p)) := by
  have unfolded : assessPile i p s =
      if (s.pile p).configured then
        if (s.pile p).results.map Results.risk = some (assessResults i (drained i p s) p).risk then
          (drained i p s).setPile p { (drained i p s).pile p with results := some (assessResults i (drained i p s) p) }
        else post (.risk p) ((drained i p s).setPile p
          { (drained i p s).pile p with results := some (assessResults i (drained i p s) p) })
      else s := rfl
  rw [unfolded, if_pos h, judged_drained, drained_pile, setPile_pile_same, assessedPile, if_pos h]

theorem assessPile_of_unconfigured (h : (s.pile p).configured = false) : assessPile i p s = s :=
  if_neg (by rw [h]; exact Bool.false_ne_true)

/-- The class has changed, or there was none (R48). -/
def classChanges (i : Inputs) (s : State) (p : Fin 24) : Prop :=
  (s.pile p).configured = true ∧ (s.pile p).results.map Results.risk ≠ some (judged i s p).risk

theorem assessing_assessPile (i : Inputs) (p : Fin 24) (s : State) : Assessing s (assessPile i p s) := by
  cases h : (s.pile p).configured with
  | false => rw [assessPile_of_unconfigured h]; exact .refl s
  | true =>
    have written := (assessing_drained i p s).trans (assessing_setPile _ p (assessedPile i s p))
    rw [assessPile_of_configured h]
    split
    · exact written
    · exact written.trans (assessing_post _ _)

theorem assessPile_pile (i : Inputs) (p q : Fin 24) (s : State) :
    (assessPile i p s).pile q = if q = p then assessedPile i s p else s.pile q := by
  cases h : (s.pile p).configured with
  | false =>
    rw [assessPile_of_unconfigured h, assessedPile, h]
    split
    · rename_i own; rw [own]; rfl
    · rfl
  | true =>
    have written : ((drained i p s).setPile p (assessedPile i s p)).pile q =
        if q = p then assessedPile i s p else s.pile q := by
      rw [setPile_pile, drained_pile, setPile_pile]
      split <;> rfl
    rw [assessPile_of_configured h]
    split
    · exact written
    · rw [post_pile, written]

theorem mem_risk_assessPile (i : Inputs) (p q : Fin 24) (s : State) : .risk q ∈ (assessPile i p s).lc.notices ↔
    .risk q ∈ s.lc.notices ∨ (q = p ∧ classChanges i s p) := by
  unfold classChanges
  cases h : (s.pile p).configured with
  | false => simp [assessPile_of_unconfigured h]
  | true =>
    have kept : .risk q ∈ (drained i p s).lc.notices ↔ .risk q ∈ s.lc.notices :=
      mem_risk_postRunoff (s.setPile p ((s.pile p).moistened i))
    rw [assessPile_of_configured h]
    split
    · rename_i same
      simpa [same] using kept
    · rename_i changed
      rw [mem_post, setPile_lc, kept]
      simp [changed, or_comm]

theorem assessedPile_configured (i : Inputs) (s : State) (p : Fin 24) :
    (assessedPile i s p).configured = (s.pile p).configured := by
  unfold assessedPile
  split <;> rfl

theorem assessPile_configured (i : Inputs) (p q : Fin 24) (s : State) :
    ((assessPile i p s).pile q).configured = (s.pile q).configured := by
  rw [assessPile_pile]
  split
  · rename_i own; rw [own, assessedPile_configured]
  · rfl

/-! ## Every pile -/

/-- A pile that is still to come is judged as at first. -/
theorem judged_assessPile {q : Fin 24} (other : q ≠ p) : judged i (assessPile i p s) q = judged i s q :=
  judged_congr (assessing_assessPile i p s) (fun r => assessPile_configured i p r s)
    (by rw [assessPile_pile, if_neg other])

theorem assessedPile_assessPile {q : Fin 24} (other : q ≠ p) : assessedPile i (assessPile i p s) q = assessedPile i s q := by
  rw [assessedPile, judged_assessPile other, assessPile_pile, if_neg other, assessedPile]

theorem classChanges_assessPile {q : Fin 24} (other : q ≠ p) :
    classChanges i (assessPile i p s) q ↔ classChanges i s q := by
  rw [classChanges, judged_assessPile other, assessPile_pile, if_neg other, classChanges]

/-- The piles of the list assessed one after another, each once. -/
theorem foldl_assessPile (i : Inputs) (l : List (Fin 24)) (distinct : l.Nodup) (s : State) :
    Assessing s (l.foldl (fun t p => assessPile i p t) s) ∧
    (∀ q, (l.foldl (fun t p => assessPile i p t) s).pile q = if q ∈ l then assessedPile i s q else s.pile q) ∧
    ∀ q, .risk q ∈ (l.foldl (fun t p => assessPile i p t) s).lc.notices ↔
      .risk q ∈ s.lc.notices ∨ (q ∈ l ∧ classChanges i s q) := by
  induction l generalizing s with
  | nil => exact ⟨.refl s, fun _ => rfl, fun _ => by simp⟩
  | cons p l ih =>
    obtain ⟨out, distinct⟩ := List.nodup_cons.1 distinct
    obtain ⟨frame, piles, risks⟩ := ih distinct (assessPile i p s)
    refine ⟨(assessing_assessPile i p s).trans frame, fun q => ?_, fun q => ?_⟩
    · rw [List.foldl_cons, piles, assessPile_pile]
      by_cases own : q = p
      · subst own
        simp [out]
      · simp [own, assessedPile_assessPile own]
    · rw [List.foldl_cons, risks, mem_risk_assessPile]
      by_cases own : q = p
      · subst own
        simp [out]
      · simp [own, classChanges_assessPile own]

/-- What stands once all the piles are assessed. -/
theorem forPiles_assessPile (i : Inputs) (s : State) : Assessing s (forPiles (assessPile i) s) ∧
    (∀ q, (forPiles (assessPile i) s).pile q = assessedPile i s q) ∧
    ∀ q, .risk q ∈ (forPiles (assessPile i) s).lc.notices ↔ .risk q ∈ s.lc.notices ∨ classChanges i s q := by
  obtain ⟨frame, piles, risks⟩ := foldl_assessPile i _ (List.nodup_finRange 24) s
  unfold forPiles
  exact ⟨frame, fun q => (piles q).trans (if_pos (List.mem_finRange q)),
    fun q => (risks q).trans (or_congr_right (and_iff_right (List.mem_finRange q)))⟩

end

end Sys2Proof.Machine
end

