-- ==== Sys2Proof/Proofs/AssessmentStages.lean ====
section
/-! SUPPORT. What an assessment leaves in the results of each pile, stage by stage (R43 to R55), and the look-ahead it
reads (R35). -/

namespace Sys2Proof.Machine

/-! ## The completion -/

/-- What the completion of an assessment leaves unchanged: it writes the demands and ends runs (R123). -/
structure Completing (s t : State) : Prop where
  pins : t.pins = s.pins
  ponds : t.wiu.ponds = s.wiu.ponds
  today : t.wiu.today = s.wiu.today
  previous : t.wiu.previous = s.wiu.previous
  countdown : t.pau.countdown = s.pau.countdown
  piles : PilesFrame s t

theorem Completing.refl (s : State) : Completing s s := ⟨rfl, rfl, rfl, rfl, rfl, fun _ => rfl⟩

theorem Completing.trans {s t u : State} (h : Completing s t) (k : Completing t u) : Completing s u where
  pins := k.pins.trans h.pins
  ponds := k.ponds.trans h.ponds
  today := k.today.trans h.today
  previous := k.previous.trans h.previous
  countdown := k.countdown.trans h.countdown
  piles p := by rw [k.piles, h.piles]

theorem Within.completing {s t : State} (h : Within s t) : Completing s t :=
  ⟨h.pins, h.ponds, h.today, h.previous, h.assessment, h.pile⟩

theorem completing_forPiles {f : Fin 24 → State → State} (step : ∀ p t, Completing t (f p t)) (s : State) :
    Completing s (forPiles f s) := by
  unfold forPiles
  generalize List.finRange 24 = l
  induction l generalizing s with
  | nil => exact .refl s
  | cons p l ih => exact (step p s).trans (ih _)

theorem completing_completion (s : State) : Completing s (completion s) := by
  have tiers : ∀ p t, Completing t (recordTier p t) := fun p t => by
    unfold recordTier
    split
    · exact ⟨rfl, rfl, rfl, rfl, rfl, fun _ => rfl⟩
    · exact .refl t
  have ended : ∀ p t, Completing t (endSatisfied p t) := fun p t => by
    unfold endSatisfied
    split
    · exact (within_decideEnds t _).completing
    · exact .refl t
  have opened : ∀ p t, Completing t (setOpenDemand p t) := fun p t => (within_setVolume t p _).completing
  unfold completion
  exact (completing_forPiles tiers s).trans <| (completing_forPiles ended _).trans <|
    (completing_forPiles opened _).trans (within_markPass _).completing

/-! ## The piles after the whole event -/

/-- The state whose piles are assessed: the countdown runs again (R42). -/
def assessmentBegun (s : State) : State :=
  (s.setPass false).setPau { s.pau with countdown := Config.assessmentTicks }

/-- All the piles assessed, before the completion. -/
def pilesAssessed (s : State) : State := forPiles (assessPile (readInputs s)) (assessmentBegun s)

theorem assessmentStep_setPass (s : State) : assessmentStep (s.setPass false) = completion (pilesAssessed s) := rfl

theorem judged_assessmentBegun (i : Inputs) (s : State) (p : Fin 24) : judged i (assessmentBegun s) p = judged i s p :=
  assessResults_congr rfl (covered_congr rfl (fun _ => rfl) rfl (fun _ => rfl) p) rfl

theorem assessedPile_assessmentBegun (i : Inputs) (s : State) (p : Fin 24) :
    assessedPile i (assessmentBegun s) p = assessedPile i s p := by
  rw [assessedPile, judged_assessmentBegun]
  rfl

theorem pilesAssessed_pile (s : State) (p : Fin 24) : (pilesAssessed s).pile p = assessedPile (readInputs s) s p :=
  ((forPiles_assessPile _ _).2.1 p).trans (assessedPile_assessmentBegun _ s p)

theorem completing_assessment (s : State) : Completing (pilesAssessed s) (inEvent assessmentStep s) :=
  (completing_completion (pilesAssessed s)).trans (inEvent_within s assessmentStep).completing

theorem assessment_pile (s : State) (p : Fin 24) : (inEvent assessmentStep s).pile p =
    { assessedPile (readInputs s) s p with hold := ((inEvent assessmentStep s).pile p).hold } := by
  rw [(completing_assessment s).piles p, pilesAssessed_pile]

theorem assessment_countdown (s : State) : (inEvent assessmentStep s).pau.countdown = Config.assessmentTicks := by
  rw [(completing_assessment s).countdown, pilesAssessed, (forPiles_assessPile _ (assessmentBegun s)).1.countdown]
  rfl

/-! ## The figures of the results -/

section
variable (i : Inputs) (s : State) (p : Fin 24)

/-- The band is widened for an escalated pile (R47). -/
theorem bandOf_eq (v : Site) (escalated : Bool) :
    bandOf v escalated = v.band + if escalated then v.escalationBand else 0 := by
  cases escalated <;> rfl

/-- The tier of a demand, by its pile's flag and its class (R52). -/
theorem tierFor_eq (escalated : Bool) (demand : Nat) (risk : RiskClass) : tierFor escalated demand risk =
    if escalated = true ∧ 0 < demand then 0
    else if risk = .lift ∨ risk = .severe then 1
    else if risk = .watch then 2 else 3 := by
  unfold tierFor
  cases risk <;> simp

/-- A pile is covered by a cannon of its own that is eligible or has an ACTIVE run (R54). -/
theorem covered_eq_false_iff : covered s p = false ↔
    ∀ c, (s.cannon c).configured = true → (s.cannon c).config.pile = p →
      eligible s c = false ∧ ∀ x ∈ s.run c, x.isSuspended = true := by
  unfold covered
  rw [List.any_eq_false]
  constructor
  · intro h c configured aimed
    have idle := h c (List.mem_finRange c)
    cases found : s.run c <;> simp_all
  · intro h c _
    cases configured : (s.cannon c).configured with
    | false => simp
    | true =>
      by_cases aimed : (s.cannon c).config.pile = p
      · obtain ⟨ineligible, suspended⟩ := h c configured aimed
        cases found : s.run c with
        | none => simp [ineligible]
        | some x => simp [ineligible, suspended x found]
      · simp [aimed]

theorem covered_moistened : covered (s.setPile p ((s.pile p).moistened i)) p = covered s p :=
  covered_congr (s := s) (t := s.setPile p _) rfl (fun _ => rfl) rfl (moistened_configured p) p

theorem judged_uncovered_iff : (judged i s p).qualifiers.uncovered = true ↔
    0 < (judged i s p).demand ∧ (judged i s p).tier.val ≤ 1 ∧
      ∀ c, (s.cannon c).configured = true → (s.cannon c).config.pile = p →
        eligible s c = false ∧ ∀ x ∈ s.run c, x.isSuspended = true := by
  have spelled : (judged i s p).qualifiers.uncovered = (decide (0 < (judged i s p).demand) &&
      decide ((judged i s p).tier ≤ 1) && !covered (s.setPile p ((s.pile p).moistened i)) p) := rfl
  rw [spelled, covered_moistened, ← covered_eq_false_iff]
  simp [and_assoc, Fin.le_def]

end

/-! ## The look-ahead (R35) -/

theorem lookAhead_eq_none_iff (s : State) : lookAhead s = none ↔ ¬ ForecastCurrent s := by
  have stale := forecastIsStale_iff s
  unfold lookAhead
  simp only
  split
  · rename_i fresh
    simp only [Bool.and_eq_true, Bool.not_eq_true'] at fresh
    rw [fresh.2] at stale
    exact iff_of_false (by simp) (not_not_intro (by_contra fun old => absurd (stale.2 ⟨fresh.1, old⟩) (by simp)))
  · rename_i old
    exact iff_of_true rfl fun current => old (by
      rw [current.1, Bool.eq_false_iff.2 fun is => (stale.1 is).2 current]
      rfl)

theorem lookAhead_eq_some {list : List Slot} {gap : Bool} {s : State} (h : lookAhead s = some (list, gap)) :
    (list = s.ft.slots.filter fun f => decide (s.yc.time - s.yc.time % 3600 ≤ f.start ∧
      f.start < s.yc.time - s.yc.time % 3600 + s.site.horizon * 3600)) ∧
    (gap = true ↔ ∃ k < s.site.horizon, ∀ f ∈ s.ft.slots,
      f.start ≠ s.yc.time - s.yc.time % 3600 + k * 3600) := by
  unfold lookAhead at h
  simp only at h
  split at h
  · simp only [Option.some.injEq, Prod.mk.injEq] at h
    obtain ⟨rfl, rfl⟩ := h
    exact ⟨by simp only [Bool.decide_and], by simp⟩
  · cases h

/-! ## The obligation -/

theorem judged_mem_results {s : State} {p : Fin 24} (configured : (s.pile p).configured = true) :
    judged (readInputs s) s p ∈ ((inEvent assessmentStep s).pile p).results := by
  rw [assessment_pile, assessedPile, if_pos configured]
  rfl

theorem assessment_moisture {s : State} {p : Fin 24} (configured : (s.pile p).configured = true) :
    ((inEvent assessmentStep s).pile p).moisture = newMoisture (readInputs s) (s.pile p) := by
  rw [assessment_pile, assessedPile, if_pos configured]
  rfl

/-- The stages of R43 to R55 that follow the moisture w, for a pile of configuration k. -/
structure StagesOf (s : State) (k : PileConfig) (w : Nat) (escalated : Bool) (r : Results) : Prop where
  exposed : r.exposed = exposedNow s.wfe.published k
  threshold : r.threshold = k.t0 + k.s * w / 1000
  margin : r.margin = (r.exposed : Int) - r.threshold
  risk : r.risk = classify r.margin (bandOf s.site escalated) s.site.severeMargin
  peak : r.peak = forecastPeak (readInputs s) k
  required : r.required = min (requiredFor k r.peak (bandOf s.site escalated)) k.wcap
  deficit : r.deficit = r.required - w
  demand : r.demand = demandFor k r.deficit
  tier : r.tier = tierFor escalated r.demand r.risk
  time : r.time = now s
  qualifiers : r.qualifiers = { r.qualifiers with
    windForecast := decide (s.wfe.published.source = .forecast)
    windDesign := decide (s.wfe.published.source = .design)
    noForecast := (match lookAhead s with
      | none => true
      | some (list, _) => list.isEmpty && decide (0 < s.site.horizon))
    forecastGap := (match lookAhead s with
      | none => false
      | some (_, gap) => gap)
    speedSaturated := s.wfe.published.saturated
    reqClamped := decide (k.wcap < requiredFor k r.peak (bandOf s.site escalated))
    escalated := escalated }

/-- The judgement is made of the pile's record with its new moisture. -/
theorem judged_stages (s : State) (p : Fin 24) : StagesOf s (s.pile p).config (newMoisture (readInputs s) (s.pile p))
    (s.pile p).escalated (judged (readInputs s) s p) := by
  unfold judged assessResults
  rw [setPile_pile_same]
  exact ⟨rfl, rfl, rfl, rfl, rfl, rfl, rfl, rfl, rfl, rfl, rfl⟩

/-- The peak over the slots of the look-ahead, where there is one (R49). -/
theorem forecastPeak_eq (s : State) (k : PileConfig) : forecastPeak (readInputs s) k =
    match lookAhead s with
    | none => exposedNow s.wfe.published k
    | some (list, _) => (list.map fun f => ((3 * f.mean + f.gust + 2) / 4 *
        (match f.sector with
          | some n => k.exposure.get n
          | none => 16) + 8) / 16).foldl max (exposedNow s.wfe.published k) := by
  unfold forecastPeak readInputs
  cases lookAhead s <;> rfl

/-- Settles O28: the results of each pile are those of the one judgement `judged`, read off stage by stage. -/
theorem assessmentComputesItsStages : Obligations.AssessmentComputesItsStages := by
  unfold Obligations.AssessmentComputesItsStages
  refine ⟨fun s => ⟨inEvent assessmentStep s, rfl, assessment_countdown s, fun p configured =>
    ⟨judged (readInputs s) s p, judged_mem_results configured, ?_⟩⟩, bandOf_eq, lookAhead_eq_none_iff,
    fun list gap s h => lookAhead_eq_some h⟩
  obtain ⟨exposed, threshold, margin, risk, peak, required, deficit, demand, tier, time, qualifiers⟩ := judged_stages s p
  have uncovered := judged_uncovered_iff (readInputs s) s p
  generalize judged (readInputs s) s p = r at *
  rw [forecastPeak_eq, ← exposed] at peak
  rw [assessment_moisture configured]
  refine ⟨exposed, ?_, threshold, margin, risk, peak, required, deficit, demand, tier.trans (tierFor_eq _ _ _), time,
    uncovered, qualifiers⟩
  rw [exposed]
  rfl

end Sys2Proof.Machine
end

