-- ==== Sys2Proof/Proofs/RunoffShares.lean ====
section
/-! SUPPORT. The runoff that the piles of an assessment post at one pond: several inflows, one after another, come to
one inflow of their sum (R46, R64, R65). -/

namespace Sys2Proof.Machine

/-! ## One inflow, and two -/

/-- The runoff counted since the pond settled, after v dL more; a pond with Tset 0 counts none (R65). -/
def Pond.runoffAfter (d : Pond) (v : Nat) : Nat :=
  if d.config.settleTime = 0 then d.runoff else min (d.runoff + v) 4294967295

/-- Runoff of v dL unsettles the pond, or restarts its settling (R65). -/
def Pond.stirredBy (d : Pond) (v : Nat) : Bool :=
  decide (d.config.settleTime ≠ 0) && (!d.settled || decide (d.config.stirVolume ≤ d.runoffAfter v))

/-- The pond after runoff of v dL, if any comes to it and it is configured (R64, R65). -/
def Pond.drainedInto (d : Pond) (v : Nat) : Pond :=
  if d.configured = true ∧ 0 < v then
    { d with
      volume := min (d.volume + v) d.config.capacity
      runoff := d.runoffAfter v
      settled := d.settled && !d.stirredBy v
      settleCountdown :=
        if d.stirredBy v then some (Config.seconds d.config.settleTime) else d.settleCountdown }
  else d

/-- The pond's figures of the day after that runoff (R64). -/
def PondDay.drainedInto (r : PondDay) (d : Pond) (v : Nat) : PondDay :=
  if d.configured = true ∧ 0 < v then { r with
    spill := Config.count48 (r.spill + (d.volume + v - d.config.capacity))
    runoff := Config.count48 (r.runoff + v) }
  else r

/-- The day's figures stay below 2^48 under that runoff, if any is taken. -/
def PondDay.holds (r : PondDay) (d : Pond) (v : Nat) : Prop :=
  d.configured = true → 0 < v → r.runoff + v < 2 ^ 48 ∧ r.spill + (d.volume + v) < 2 ^ 48

section
variable {d : Pond} {r : PondDay} {v w : Nat}

theorem Pond.fill_stir (configured : d.configured = true) (flows : 0 < v) :
    (d.fill v).stir .runoff v = d.drainedInto v := by
  unfold Pond.drainedInto
  rw [if_pos ⟨configured, flows⟩]
  unfold Pond.stir Pond.stirredBy Pond.runoffAfter Pond.fill
  by_cases test : d.config.settleTime = 0
  · simp [test]
  · cases settled : d.settled with
    | false => simp [test]
    | true =>
      by_cases stirred : d.config.stirVolume ≤ min (d.runoff + v) 4294967295
      · simp [test, stirred]
      · simp [test, stirred]

@[simp] theorem Pond.drainedInto_zero : d.drainedInto 0 = d := if_neg (by simp)

theorem Pond.drainedInto_unconfigured (h : d.configured = false) : d.drainedInto v = d := if_neg (by simp [h])

@[simp] theorem PondDay.drainedInto_zero : r.drainedInto d 0 = r := if_neg (by simp)

theorem PondDay.drainedInto_unconfigured (h : d.configured = false) : r.drainedInto d v = r := if_neg (by simp [h])

theorem Pond.drainedInto_configured : (d.drainedInto v).configured = d.configured := by
  unfold Pond.drainedInto
  split <;> rfl

theorem Pond.drainedInto_of_flows (configured : d.configured = true) (flows : 0 < v) : d.drainedInto v =
    { d with
      volume := min (d.volume + v) d.config.capacity
      runoff := d.runoffAfter v
      settled := d.settled && !d.stirredBy v
      settleCountdown :=
        if d.stirredBy v then some (Config.seconds d.config.settleTime) else d.settleCountdown } :=
  if_pos ⟨configured, flows⟩

/-- What the first inflow stirs, the two together stir. -/
theorem Pond.stirredBy_add (h : d.stirredBy v = true) : d.stirredBy (v + w) = true := by
  have counted : d.runoffAfter v ≤ d.runoffAfter (v + w) := by
    unfold runoffAfter
    split <;> omega
  simp only [stirredBy, Bool.and_eq_true, Bool.or_eq_true, decide_eq_true_eq] at h ⊢
  exact ⟨h.1, h.2.imp_right fun reached => reached.trans counted⟩

section
variable (configured : d.configured = true) (flows : 0 < v)
include configured flows

theorem Pond.drainedInto_runoffAfter : (d.drainedInto v).runoffAfter w = d.runoffAfter (v + w) := by
  rw [drainedInto_of_flows configured flows]
  unfold runoffAfter
  simp only
  split
  · rfl
  · omega

theorem Pond.drainedInto_stirredBy : (d.drainedInto v).stirredBy w = d.stirredBy (v + w) := by
  have more := d.stirredBy_add (v := v) (w := w)
  have counted := d.drainedInto_runoffAfter (w := w) configured flows
  rw [stirredBy, counted, drainedInto_of_flows configured flows]
  cases first : d.stirredBy v with
  | true =>
    have both := more first
    simp only [stirredBy, Bool.and_eq_true] at both
    simp [stirredBy, both.1, both.2]
  | false => simp [stirredBy]

end

/-- Two inflows of runoff come to one of their sum. -/
theorem Pond.drainedInto_drainedInto : (d.drainedInto v).drainedInto w = d.drainedInto (v + w) := by
  cases configured : d.configured with
  | false =>
    rw [drainedInto_unconfigured configured, drainedInto_unconfigured configured, drainedInto_unconfigured configured]
  | true =>
    rcases Nat.eq_zero_or_pos v with rfl | first
    · rw [drainedInto_zero, Nat.zero_add]
    rcases Nat.eq_zero_or_pos w with rfl | second
    · rw [drainedInto_zero, Nat.add_zero]
    have more := d.stirredBy_add (v := v) (w := w)
    rw [drainedInto_of_flows (Pond.drainedInto_configured.trans configured) second,
      drainedInto_runoffAfter configured first, drainedInto_stirredBy configured first,
      drainedInto_of_flows configured first, drainedInto_of_flows configured (Nat.add_pos_left first w)]
    congr 1
    · simp only; omega
    · cases stirs : d.stirredBy v
      · simp
      · simp [more stirs]
    · cases stirs : d.stirredBy v
      · simp
      · simp [more stirs]

theorem count48_eq {n : Nat} (h : n < 2 ^ 48) : Config.count48 n = n := if_pos h

/-- The first of two inflows leaves room in the day's figures for the second. -/
theorem PondDay.holds_drainedInto (h : r.holds d (v + w)) : (r.drainedInto d v).holds (d.drainedInto v) w := by
  intro configured second
  rw [Pond.drainedInto_configured] at configured
  obtain ⟨runoff, spill⟩ := h configured (Nat.add_pos_right v second)
  rcases Nat.eq_zero_or_pos v with rfl | first
  · rw [drainedInto_zero, Pond.drainedInto_zero]
    omega
  · rw [drainedInto, if_pos ⟨configured, first⟩, Pond.drainedInto_of_flows configured first]
    simp only
    rw [count48_eq (by omega), count48_eq (by omega)]
    omega

theorem PondDay.drainedInto_drainedInto (h : r.holds d (v + w)) :
    (r.drainedInto d v).drainedInto (d.drainedInto v) w = r.drainedInto d (v + w) := by
  cases configured : d.configured with
  | false =>
    rw [drainedInto_unconfigured configured, drainedInto_unconfigured configured,
      drainedInto_unconfigured (Pond.drainedInto_configured.trans configured)]
  | true =>
    rcases Nat.eq_zero_or_pos v with rfl | first
    · rw [drainedInto_zero, Pond.drainedInto_zero, Nat.zero_add]
    rcases Nat.eq_zero_or_pos w with rfl | second
    · rw [drainedInto_zero, Nat.add_zero]
    obtain ⟨runoff, spill⟩ := h configured (Nat.add_pos_left first w)
    rw [drainedInto, if_pos ⟨Pond.drainedInto_configured.trans configured, second⟩, drainedInto,
      if_pos ⟨configured, first⟩, drainedInto, if_pos ⟨configured, Nat.add_pos_left first w⟩,
      Pond.drainedInto_of_flows configured first, count48_eq (n := r.runoff + v) (by omega),
      count48_eq (n := r.spill + (d.volume + v - d.config.capacity)) (by omega)]
    simp only
    congr 2 <;> omega

end

/-! ## What one pile posts -/

/-- The runoff that pile p's assessment posts at pond q (R46). -/
def shareTo (s : State) (q : Fin 4) (p : Fin 24) : Nat :=
  if (s.pile p).configured && (s.pile p).config.drain = some q then runoffOf (s.pile p) else 0

theorem runoffTo_eq (s : State) (q : Fin 4) : runoffTo s q = ((List.finRange 24).map (shareTo s q)).sum := rfl

section
variable (s : State) (p : Fin 24) (q : Fin 4) (i : Inputs) (v : Nat)

theorem inflow_runoff_pond (flows : 0 < v) (x : Fin 4) : (inflow .runoff x v s).pond q =
    if q = x then (s.pond x).drainedInto v else s.pond q := by
  cases configured : (s.pond x).configured with
  | true =>
    simp only [inflow, configured, if_true, waterEvent_pond]
    rw [Pond.fill_stir configured flows]
    exact setPond_pond _ _ _ _
  | false =>
    simp only [inflow, configured, Bool.false_eq_true, if_false, Pond.drainedInto_unconfigured configured]
    split
    · rename_i own; rw [own]
    · rfl

theorem inflow_runoff_day (flows : 0 < v) (x : Fin 4) : (inflow .runoff x v s).wiu.today.ponds.get q =
    if q = x then (s.wiu.today.ponds.get x).drainedInto (s.pond x) v else s.wiu.today.ponds.get q := by
  unfold PondDay.drainedInto
  cases configured : (s.pond x).configured with
  | true =>
    simp only [inflow, configured, if_true, waterEvent_today, flows, and_self]
    exact Table.get_modify _ _ _ _
  | false =>
    simp only [inflow, configured, Bool.false_eq_true, if_false, false_and]
    split
    · rename_i own; rw [own]
    · rfl

theorem postRunoff_pond (drain : Option (Fin 4)) : (postRunoff drain v s).pond q =
    (s.pond q).drainedInto (if drain = some q then v else 0) := by
  unfold postRunoff
  cases drain with
  | none => simp
  | some x =>
    rcases Nat.eq_zero_or_pos v with rfl | flows
    · simp
    · simp only [flows, if_true, inflow_runoff_pond s q v flows, Option.some.injEq, eq_comm (a := q)]
      split
      · rename_i own; rw [own]
      · rw [Pond.drainedInto_zero]

theorem postRunoff_day (drain : Option (Fin 4)) : (postRunoff drain v s).wiu.today.ponds.get q =
    (s.wiu.today.ponds.get q).drainedInto (s.pond q) (if drain = some q then v else 0) := by
  unfold postRunoff
  cases drain with
  | none => simp
  | some x =>
    rcases Nat.eq_zero_or_pos v with rfl | flows
    · simp
    · simp only [flows, if_true, inflow_runoff_day s q v flows, Option.some.injEq, eq_comm (a := q)]
      split
      · rename_i own; rw [own]
      · rw [PondDay.drainedInto_zero]

theorem drained_pond : (drained i p s).pond q =
    (s.pond q).drainedInto (if (s.pile p).config.drain = some q then runoffOf (s.pile p) else 0) := postRunoff_pond _ _ _ _

theorem drained_day : (drained i p s).wiu.today.ponds.get q = (s.wiu.today.ponds.get q).drainedInto (s.pond q)
    (if (s.pile p).config.drain = some q then runoffOf (s.pile p) else 0) := postRunoff_day _ _ _ _

theorem assessPile_wiu (configured : (s.pile p).configured = true) : (assessPile i p s).wiu = (drained i p s).wiu := by
  rw [assessPile_of_configured configured]
  split
  · rfl
  · rw [post_wiu]; rfl

theorem assessPile_pond : (assessPile i p s).pond q = (s.pond q).drainedInto (shareTo s q p) := by
  unfold shareTo
  cases configured : (s.pile p).configured with
  | true =>
    rw [pond_of_ponds (s := drained i p s) (by rw [assessPile_wiu s p i configured]), drained_pond]
    simp
  | false => simp [assessPile_of_unconfigured configured]

theorem assessPile_day : (assessPile i p s).wiu.today.ponds.get q =
    (s.wiu.today.ponds.get q).drainedInto (s.pond q) (shareTo s q p) := by
  unfold shareTo
  cases configured : (s.pile p).configured with
  | true => simp [assessPile_wiu s p i configured, drained_day s p q i]
  | false => simp [assessPile_of_unconfigured configured]

/-- A pile still to come has its whole share left. -/
theorem shareTo_assessPile {x : Fin 24} (other : x ≠ p) : shareTo (assessPile i p s) q x = shareTo s q x := by
  unfold shareTo
  rw [assessPile_pile, if_neg other]

/-! ## What all the piles post -/

theorem foldl_assessPile_pond (l : List (Fin 24)) (distinct : l.Nodup) :
    (l.foldl (fun t p => assessPile i p t) s).pond q = (s.pond q).drainedInto (l.map (shareTo s q)).sum ∧
    ((s.wiu.today.ponds.get q).holds (s.pond q) (l.map (shareTo s q)).sum →
      (l.foldl (fun t p => assessPile i p t) s).wiu.today.ponds.get q =
        (s.wiu.today.ponds.get q).drainedInto (s.pond q) (l.map (shareTo s q)).sum) := by
  induction l generalizing s with
  | nil => exact ⟨by simp, fun _ => by simp⟩
  | cons p l ih =>
    obtain ⟨out, distinct⟩ := List.nodup_cons.1 distinct
    obtain ⟨pond, day⟩ := ih (assessPile i p s) distinct
    have rest : l.map (shareTo (assessPile i p s) q) = l.map (shareTo s q) :=
      List.map_congr_left fun x here => shareTo_assessPile s p q i fun own => out (own ▸ here)
    rw [rest, assessPile_pond, assessPile_day] at day
    rw [rest, assessPile_pond, Pond.drainedInto_drainedInto] at pond
    rw [List.map_cons, List.sum_cons, List.foldl_cons]
    exact ⟨pond, fun room => (day (PondDay.holds_drainedInto room)).trans (PondDay.drainedInto_drainedInto room)⟩

end

theorem assessment_pond (s : State) (q : Fin 4) :
    (inEvent assessmentStep s).pond q = (s.pond q).drainedInto (runoffTo s q) := by
  rw [pond_of_ponds (completing_assessment s).ponds, pilesAssessed, forPiles,
    (foldl_assessPile_pond _ q _ _ (List.nodup_finRange 24)).1]
  rfl

theorem assessment_day (s : State) (q : Fin 4) (room : (s.wiu.today.ponds.get q).holds (s.pond q) (runoffTo s q)) :
    (inEvent assessmentStep s).wiu.today.ponds.get q =
      (s.wiu.today.ponds.get q).drainedInto (s.pond q) (runoffTo s q) := by
  rw [(completing_assessment s).today, pilesAssessed, forPiles]
  exact (foldl_assessPile_pond (assessmentBegun s) q _ _ (List.nodup_finRange 24)).2 room

/-- The runoff taken at a pond, as R64 and R65 count it. -/
theorem runoffTaken_assessment {s : State} {q : Fin 4} (configured : (s.pond q).configured = true)
    (flows : 0 < runoffTo s q) : RunoffTaken q (runoffTo s q) s (inEvent assessmentStep s) := by
  have pond := (assessment_pond s q).trans (Pond.drainedInto_of_flows configured flows)
  refine ⟨?_, ?_, fun runoff spill => ?_⟩
  · rw [pond]
    rfl
  · rw [pond]
    have counted : (s.pond q).stirredBy (runoffTo s q) = true ↔ (s.pond q).config.settleTime ≠ 0 ∧
        ((s.pond q).settled = false ∨ (s.pond q).config.stirVolume ≤ (s.pond q).runoffAfter (runoffTo s q)) := by
      simp [Pond.stirredBy]
    simp only
    by_cases stirred : (s.pond q).stirredBy (runoffTo s q) = true
    · rw [if_pos (counted.1 stirred)]
      simp [stirred]
    · rw [if_neg fun meant => stirred (counted.2 meant)]
      simp [stirred]
  · rw [assessment_day s q fun _ _ => ⟨runoff, spill⟩, PondDay.drainedInto, if_pos ⟨configured, flows⟩]
    rw [count48_eq runoff, count48_eq (by omega)]

theorem assessment_undrained {s : State} {q : Fin 4} (h : ¬((s.pond q).configured = true ∧ 0 < runoffTo s q)) :
    (inEvent assessmentStep s).pond q = s.pond q ∧
      (inEvent assessmentStep s).wiu.today.ponds.get q = s.wiu.today.ponds.get q := by
  rw [assessment_pond, assessment_day s q fun configured flows => absurd ⟨configured, flows⟩ h, Pond.drainedInto,
    PondDay.drainedInto, if_neg h, if_neg h]
  exact ⟨rfl, rfl⟩

/-- No pile drains into the pond. -/
theorem runoffTo_eq_zero {s : State} {q : Fin 4}
    (h : ∀ p, (s.pile p).configured = true → (s.pile p).config.drain ≠ some q) : runoffTo s q = 0 := by
  rw [runoffTo_eq]
  refine List.sum_eq_zero fun v hv => ?_
  obtain ⟨p, -, rfl⟩ := List.mem_map.1 hv
  unfold shareTo
  rw [if_neg]
  simpa using h p

end Sys2Proof.Machine
end

