-- ==== Sys2Proof/Proofs/EndSweeps.lean ====
section
/-! SUPPORT. Ends decided for many runs, one cannon after another (R118, R123): what the sweep does at one cannon is
what its own step does there, and the run of that step has END or has left its cannon. -/

namespace Sys2Proof.Machine

/-! ## One cannon, beside what is done to the others -/

/-- Cannon c stands as it was, with its run, its waiting movement and the pins, and a stagger slot that was taken is
taken. -/
structure Beside (c : Fin 32) (s t : State) : Prop where
  cannon : t.cannon c = s.cannon c
  run : t.run c = s.run c
  queued : queuedMovement t c = queuedMovement s c
  slot : t.cc.slot = none → s.cc.slot = none
  pins : t.pins = s.pins

theorem Beside.refl (c : Fin 32) (s : State) : Beside c s s := ⟨rfl, rfl, rfl, id, rfl⟩

theorem Beside.trans {c : Fin 32} {s t u : State} (h : Beside c s t) (k : Beside c t u) : Beside c s u :=
  ⟨k.cannon.trans h.cannon, k.run.trans h.run, k.queued.trans h.queued, fun free => h.slot (k.slot free),
    k.pins.trans h.pins⟩

theorem Beside.feedback {c : Fin 32} {s t : State} (h : Beside c s t) : feedbackOpen t c = feedbackOpen s c := by
  rw [feedbackOpen, h.pins, feedbackOpen]

theorem Apart.beside {c i : Fin 32} {s t : State} (h : Apart c s t) (other : i ≠ c) (pins : t.pins = s.pins) :
    Beside i s t := ⟨h.cannon i other, h.run i other, h.queued i other, h.slot, pins⟩

theorem beside_foldl {α : Type} {f : State → α → State} {c : Fin 32} (l : List α)
    (step : ∀ a ∈ l, ∀ t, Beside c t (f t a)) (s : State) : Beside c s (l.foldl f s) := by
  induction l generalizing s with
  | nil => exact .refl c s
  | cons a l ih =>
    exact (step a (List.mem_cons_self ..) s).trans
      (ih (fun b hb => step b (List.mem_cons_of_mem _ hb)) (f s a))

/-- What a sweep in which each step keeps to its own cannon has done at one of them. -/
theorem forCannons_at {f : Fin 32 → State → State} (others : ∀ x i t, i ≠ x → Beside i t (f x t)) (c : Fin 32)
    (s : State) : ∃ u, Beside c s u ∧ Beside c (f c u) (forCannons f s) := by
  obtain ⟨before, after, split⟩ := List.append_of_mem (List.mem_finRange c)
  have distinct := List.nodup_finRange 32
  rw [split, List.nodup_append] at distinct
  obtain ⟨-, tail, apart⟩ := distinct
  refine ⟨before.foldl (fun t x => f x t) s, beside_foldl before (fun x hx t => others x c t ?_) s, ?_⟩
  · exact fun same => apart x hx c (List.mem_cons_self ..) same.symm
  · rw [forCannons, split, List.foldl_append, List.foldl_cons]
    refine beside_foldl after (fun x hx t => others x c t ?_) _
    rintro rfl
    exact (List.nodup_cons.1 tail).1 hx

/-! ## One end -/

section
variable {c : Fin 32} {s : State} {r : Run} {n : Option Nat}

theorem runLeft_of_idle {t : State} (idle : (t.cannon c).phase = .idle) (gone : t.run c = none) : RunLeft c t := by
  rw [RunLeft, gone]
  exact idle

/-- A run that has END leaves its cannon at the cannon's return to IDLE (R114, R116). -/
theorem gone_returnToIdle {x : Run} (run : s.run c = some x) (phase : x.phase = .active .ends n) :
    ((returnToIdle c s).cannon c).phase = .idle ∧ (returnToIdle c s).run c = none :=
  ⟨by rw [returnToIdle_cannon], (returnToIdle_ends run phase).2⟩

/-- A close commanded over a run that has END (R92, R96). -/
theorem ending_beginClose (run : RunEnding c r n s) :
    if feedbackOpen s c then ((beginClose c s).cannon c).phase = .closing ∧ RunEnding c r none (beginClose c s)
    else ((beginClose c s).cannon c).phase = .idle ∧ (beginClose c s).run c = none := by
  have stopped : RunEnding c r none (stopDelivery c s) := by
    rw [RunEnding, stopDelivery, updateRun_run, if_pos rfl, run]
    rfl
  unfold beginClose
  split
  · exact ⟨by rw [commandClose_cannon], by rw [RunEnding, commandClose, enterPhase_run]; exact stopped⟩
  · exact gone_returnToIdle stopped rfl

/-- A close queued over a run that has END: it waits, or has been issued where the slot stood free (R90). -/
theorem ending_enqueue (run : RunEnding c r n s)
    (cannon : (s.cannon c).phase = .opening ∨ (s.cannon c).phase = .closePending) :
    (((enqueue c .closes s).cannon c).phase = (s.cannon c).phase ∧ RunEnding c r n (enqueue c .closes s) ∧
      (queuedMovement s c = none → queuedMovement (enqueue c .closes s) c = some .closes)) ∨
    (s.cc.slot = none ∧
      if feedbackOpen s c then
        ((enqueue c .closes s).cannon c).phase = .closing ∧ RunEnding c r none (enqueue c .closes s)
      else ((enqueue c .closes s).cannon c).phase = .idle ∧ (enqueue c .closes s).run c = none) := by
  unfold enqueue
  split
  · rename_i free
    have issued : issueEntry c .closes (s.setSlot (some (Config.seconds s.site.stagger))) =
        beginClose c (s.setSlot (some (Config.seconds s.site.stagger))) := by
      unfold issueEntry
      rcases cannon with h | h <;> simp only [setSlot_cannon, h]
    rw [issued]
    exact .inr ⟨free.2, ending_beginClose (s := s.setSlot (some (Config.seconds s.site.stagger))) run⟩
  · exact .inl ⟨rfl, run, queuedMovement_append c .closes s⟩

/-- The cannon on whose spraying valve a close is requested, before the request joins the queue (R91). -/
theorem closePending_facts (c : Fin 32) (s : State) (t : State) (ht : enterPhase c .closePending none none s = t) :
    (t.cannon c).phase = .closePending ∧ t.run c = s.run c ∧ queuedMovement t c = queuedMovement s c ∧
      t.cc.slot = s.cc.slot ∧ feedbackOpen t c = feedbackOpen s c := by
  subst ht
  refine ⟨by rw [enterPhase_cannon, if_pos rfl], enterPhase_run _ _ _ _ _ s, queuedMovement_of_cc ?_ c, ?_, ?_⟩
  · rw [enterPhase, syncAlert_cc]; rfl
  · rw [enterPhase, syncAlert_cc]; rfl
  · rw [feedbackOpen, enterPhase, syncAlert_pins]; rfl

/-- A close requested of a spraying cannon whose run has END: it waits, or has been issued (R90, R91). -/
theorem ending_queuedClose_spraying (run : RunEnding c r n s) (spraying : (s.cannon c).phase = .spraying)
    (open_ : feedbackOpen s c = true) :
    (((queuedClose c s).cannon c).phase = .closePending ∧ RunEnding c r n (queuedClose c s) ∧
      (queuedMovement s c = none → queuedMovement (queuedClose c s) c = some .closes)) ∨
    (s.cc.slot = none ∧ ((queuedClose c s).cannon c).phase = .closing ∧ RunEnding c r none (queuedClose c s)) := by
  obtain ⟨pending, sameRun, sameQueue, sameSlot, sameFeedback⟩ := closePending_facts c s _ rfl
  have event : queuedClose c s = enqueue c .closes (enterPhase c .closePending none none s) := by
    unfold queuedClose
    rw [spraying]
  rw [event]
  rcases ending_enqueue (sameRun.trans run) (.inr pending) with ⟨same, stands, joins⟩ | ⟨free, closed⟩
  · exact .inl ⟨same.trans pending, stands, fun waits => joins (sameQueue.trans waits)⟩
  · rw [sameFeedback, open_, if_pos rfl] at closed
    exact .inr ⟨sameSlot.symm.trans free, closed⟩

/-- Whatever the queued close does, the run keeps END while it lasts. -/
theorem run_queuedClose (run : RunEnding c r n s) : ∀ y ∈ (queuedClose c s).run c, ∃ m, y = { r with phase := .active .ends m } := by
  have issued : ∀ t : State, RunEnding c r n t → ((t.cannon c).phase = .opening ∨ (t.cannon c).phase = .closePending) →
      ∀ y ∈ (enqueue c .closes t).run c, ∃ m, y = { r with phase := .active .ends m } := fun t found cannon y hy => by
    rcases ending_enqueue found cannon with ⟨-, stands, -⟩ | ⟨-, closed⟩
    · rw [stands] at hy
      exact ⟨n, (Option.some.inj hy).symm⟩
    · split at closed
      · rw [closed.2] at hy
        exact ⟨none, (Option.some.inj hy).symm⟩
      · rw [closed.2] at hy
        cases hy
  have stands : ∀ y ∈ s.run c, ∃ m, y = { r with phase := .active .ends m } := fun y hy => by
    rw [run] at hy
    exact ⟨n, (Option.some.inj hy).symm⟩
  unfold queuedClose
  split
  · intro y hy
    rw [withdrawOpen, (gone_returnToIdle (s := removeEntry c s) run rfl).2] at hy
    cases hy
  · rename_i opening
    split
    · exact issued s run (.inl opening)
    · exact stands
  · obtain ⟨pending, same, -⟩ := closePending_facts c s _ rfl
    exact issued _ (same.trans run) (.inr pending)
  · exact stands

theorem apart_endRun (c : Fin 32) (s : State) : Apart c s (endRun c s) where
  cannon i _ := by rw [State.cannon, endRun_cc, State.cannon]
  run i hi := by rw [endRun_run, if_neg hi]
  queued i _ := queuedMovement_of_cc (by rw [endRun_cc]) i
  pump _ := by rw [endRun_wiu]
  slot := by rw [endRun_cc]; exact id

theorem apart_decideEnd (c : Fin 32) (s : State) : Apart c s (decideEnd c s) := by
  unfold decideEnd
  split
  · exact .refl c s
  · split
    · exact apart_endRun c s
    · exact (apart_updateRun c s _).trans (apart_queuedClose c _)

/-- The run for which an end is decided takes END (R114). -/
theorem setDisposition_ends {d : Disposition} (run : s.run c = some r) (phase : r.phase = .active d n) :
    RunEnding c r n (setDisposition c .ends s) := by
  rw [RunEnding, setDisposition, updateRun_run, if_pos rfl, run, Option.map_some, phase]
  cases d <;> rfl

theorem decideEnd_of_suspended (run : s.run c = some r) (suspended : r.isSuspended = true) :
    decideEnd c s = endRun c s := by
  unfold decideEnd
  rw [run]
  exact if_pos suspended

theorem decideEnd_of_active {d : Disposition} (run : s.run c = some r) (phase : r.phase = .active d n) :
    decideEnd c s = queuedClose c (setDisposition c .ends s) := by
  unfold decideEnd
  rw [run]
  refine if_neg ?_
  simp [Run.isSuspended, phase]

theorem setDisposition_cannon (c i : Fin 32) (d : Disposition) (s : State) :
    (setDisposition c d s).cannon i = s.cannon i := updateRun_cannon _ _ _ _

/-- A run for which an end is decided has END, or has left its cannon (R115, R116). -/
theorem run_decideEnd (run : s.run c = some r) :
    ∀ y ∈ (decideEnd c s).run c, ∃ n, y = { r with phase := .active .ends n } := by
  intro y hy
  cases phase : r.phase with
  | suspended x m w =>
    rw [decideEnd_of_suspended run (by simp [Run.isSuspended, phase]), endRun_run, if_pos rfl] at hy
    cases hy
  | active d n =>
    rw [decideEnd_of_active run phase] at hy
    exact run_queuedClose (setDisposition_ends run phase) y hy

theorem endDecided_decideEnd (run : s.run c = some r) (valve : ValveSound s c) (sound : RunSound s c) :
    EndDecided c r s (decideEnd c s) := by
  rw [RunSound, run] at sound
  cases phase : r.phase with
  | suspended x m w =>
    simp only [phase] at sound
    rw [decideEnd_of_suspended run (by simp [Run.isSuspended, phase])]
    simp only [EndDecided, phase]
    exact runLeft_of_idle (by rw [State.cannon, endRun_cc]; exact sound) (by rw [endRun_run, if_pos rfl])
  | active d n =>
    simp only [phase] at sound
    have ending := setDisposition_ends run phase
    have cannon := setDisposition_cannon c c .ends s
    have cc : (setDisposition c .ends s).cc = s.cc := updateRun_cc _ _ _
    have pins : (setDisposition c .ends s).pins = s.pins := (within_setDisposition s c .ends).pins
    have queued : queuedMovement (setDisposition c .ends s) c = queuedMovement s c :=
      queuedMovement_of_cc (by rw [cc]) c
    have feedback : feedbackOpen (setDisposition c .ends s) c = feedbackOpen s c := by
      rw [feedbackOpen, pins, feedbackOpen]
    rw [decideEnd_of_active run phase]
    have slot : (setDisposition c .ends s).cc.slot = s.cc.slot := by rw [cc]
    generalize setDisposition c .ends s = u at *
    simp only [EndDecided, phase]
    unfold queuedClose
    rw [ValveSound] at valve
    rw [cannon]
    cases before : (s.cannon c).phase with
    | pendingOpen =>
      obtain ⟨idle, gone⟩ := gone_returnToIdle (s := removeEntry c u) ending rfl
      exact runLeft_of_idle idle gone
    | opening =>
      simp only [before] at valve
      simp only
      split
      · rename_i waits
        rcases ending_enqueue ending (.inl (by rw [cannon, before])) with ⟨same, stands, joins⟩ | ⟨free, closed⟩
        · exact .inl ⟨by rw [same, cannon, before], joins waits, stands⟩
        · rw [feedback, slot] at *
          refine .inr ⟨free, ?_⟩
          split
          · rename_i open_; rw [if_pos open_] at closed; exact closed
          · rename_i shut; rw [if_neg shut] at closed; exact runLeft_of_idle closed.1 closed.2
      · rename_i waiting
        refine .inl ⟨by rw [cannon, before], ?_, ending⟩
        rw [queued] at waiting ⊢
        cases movement : queuedMovement s c with
        | none => exact absurd movement waiting
        | some m =>
          cases m with
          | closes => rfl
          | opens => exact absurd movement valve.1
    | spraying =>
      simp only [before] at valve
      have close := ending_queuedClose_spraying ending (by rw [cannon, before]) (feedback.trans valve.2.2.2)
      rw [queuedClose, cannon, before] at close
      exact close.imp (fun ⟨pending, stands, joins⟩ => ⟨pending, joins (queued.trans valve.1), stands⟩)
        fun ⟨free, closed⟩ => ⟨slot.symm.trans free, closed⟩
    | closePending | closing => exact ⟨cannon, ending⟩
    | idle | stuck | faulted | locked => trivial

end

/-! ## The end as the cannon keeps it -/

theorem ValveSound.beside {c : Fin 32} {s t : State} (h : ValveSound s c) (k : Beside c s t) : ValveSound t c := by
  unfold ValveSound at *
  rw [k.cannon, k.queued, k.feedback]
  exact h

theorem RunSound.beside {c : Fin 32} {s t : State} (h : RunSound s c) (k : Beside c s t) : RunSound t c := by
  unfold RunSound at *
  rw [k.cannon, k.run]
  exact h

/-- What is done beside the cannon before its end is decided changes nothing of it. -/
theorem EndDecided.of_beside {c : Fin 32} {r : Run} {s u t : State} (h : EndDecided c r u t) (k : Beside c s u) :
    EndDecided c r s t := by
  have free : ∀ {p : Prop}, u.cc.slot = none ∧ p → s.cc.slot = none ∧ p := fun ⟨slot, rest⟩ => ⟨k.slot slot, rest⟩
  unfold EndDecided at *
  split
  · rename_i phase
    simp only [phase] at h
    exact h
  · rename_i phase
    simp only [phase, k.cannon, k.feedback] at h
    split
    · rename_i before; simp only [before] at h; exact h
    · rename_i before; simp only [before] at h; exact h.imp id free
    · rename_i before; simp only [before] at h; exact h.imp id free
    · rename_i before; simp only [before] at h; exact h
    · rename_i before; simp only [before] at h; exact h
    all_goals trivial

theorem RunLeft.beside {c : Fin 32} {t u : State} (h : RunLeft c t) (cannon : u.cannon c = t.cannon c)
    (run : u.run c = t.run c) : RunLeft c u := by
  unfold RunLeft at *
  rw [run, cannon]
  exact h

/-- What is done beside the cannon afterwards keeps the decision. -/
theorem EndDecided.beside {c : Fin 32} {r : Run} {s t u : State} (h : EndDecided c r s t) (cannon : u.cannon c = t.cannon c)
    (run : u.run c = t.run c) (queued : queuedMovement u c = queuedMovement t c) : EndDecided c r s u := by
  have left := fun k : RunLeft c t => k.beside cannon run
  unfold EndDecided at *
  split
  · rename_i phase
    simp only [phase] at h
    exact left h
  · rename_i phase
    simp only [phase] at h
    unfold RunEnding at *
    rw [cannon, run, queued]
    split
    · rename_i before; simp only [before] at h; exact left h
    · rename_i before
      simp only [before] at h
      refine h.imp id fun ⟨free, closed⟩ => ⟨free, ?_⟩
      split
      · rename_i open_; rw [if_pos open_] at closed; exact closed
      · rename_i shut; rw [if_neg shut] at closed; exact left closed
    · rename_i before; simp only [before] at h; exact h
    · rename_i before; simp only [before] at h; exact h
    · rename_i before; simp only [before] at h; exact h
    all_goals trivial

/-! ## The sweep -/

/-- An end decided for the run on cannon c, if it passes the test. -/
def endIf (test : Fin 32 → Run → Bool) (c : Fin 32) (s : State) : State :=
  match s.run c with
  | some r => if test c r then decideEnd c s else s
  | none => s

/-- An end decided for every run that passes the test at its cannon. -/
def endWhere (test : Fin 32 → Run → Bool) (s : State) : State := forCannons (endIf test) s

theorem endOthers_eq (k : Nat) (c : Fin 32) (s : State) :
    endOthers k c s = endWhere (fun x r => decide (x ≠ c ∧ r.origin = .order k)) s := by
  unfold endOthers endWhere
  congr 1
  funext x t
  unfold endIf
  cases t.run x with
  | none => rfl
  | some r => simp only [decide_eq_true_eq]

theorem endIf_of_passes {test : Fin 32 → Run → Bool} {c : Fin 32} {r : Run} {s : State} (run : s.run c = some r)
    (passes : test c r = true) : endIf test c s = decideEnd c s := by
  unfold endIf
  rw [run]
  exact if_pos passes

theorem endIf_of_fails {test : Fin 32 → Run → Bool} {c : Fin 32} {s : State}
    (fails : ∀ r ∈ s.run c, test c r = false) : endIf test c s = s := by
  unfold endIf
  split
  · rename_i r run
    rw [fails r run]
    rfl
  · rfl

theorem endIf_cases (test : Fin 32 → Run → Bool) (c : Fin 32) (s : State) :
    endIf test c s = decideEnd c s ∨ endIf test c s = s := by
  unfold endIf
  split
  · split
    · exact .inl rfl
    · exact .inr rfl
  · exact .inr rfl

theorem beside_endIf (test : Fin 32 → Run → Bool) {x i : Fin 32} (other : i ≠ x) (s : State) :
    Beside i s (endIf test x s) := by
  rcases endIf_cases test x s with h | h <;> rw [h]
  · exact (apart_decideEnd x s).beside other (within_decideEnd s x).pins
  · exact .refl i s

/-- The sweep's result at a cannon whose run has passed the test. -/
structure Ended (c : Fin 32) (r : Run) (s t : State) : Prop where
  ends : ∀ y ∈ t.run c, ∃ n, y = { r with phase := .active .ends n }
  decided : ValveSound s c → RunSound s c → EndDecided c r s t

theorem Ended.of_beside {c : Fin 32} {r : Run} {s u t : State} (h : Ended c r u t) (k : Beside c s u) : Ended c r s t :=
  ⟨h.ends, fun valve sound => (h.decided (valve.beside k) (sound.beside k)).of_beside k⟩

theorem Ended.beside {c : Fin 32} {r : Run} {s t u : State} (h : Ended c r s t) (k : Beside c t u) : Ended c r s u :=
  ⟨by rw [k.run]; exact h.ends, fun valve sound => (h.decided valve sound).beside k.cannon k.run k.queued⟩

theorem endWhere_at (test : Fin 32 → Run → Bool) (c : Fin 32) (s : State) :
    (∀ r ∈ s.run c, test c r = true → Ended c r s (endWhere test s)) ∧
    ((∀ r ∈ s.run c, test c r = false) → Beside c s (endWhere test s)) := by
  obtain ⟨u, before, after⟩ := forCannons_at (fun x i t other => beside_endIf test other t) c s
  refine ⟨fun r run passes => ?_, fun fails => ?_⟩
  · have found : u.run c = some r := before.run.trans run
    rw [endIf_of_passes found passes] at after
    exact (Ended.of_beside ⟨run_decideEnd found, endDecided_decideEnd found⟩ before).beside after
  · rw [endIf_of_fails fun r found => fails r (before.run.symm.trans found)] at after
    exact before.trans after

end Sys2Proof.Machine
end

