-- ==== Sys2Proof/Proofs/CloseKeeps.lean ====
section
/-! SUPPORT. What the closes and the ends of runs leave alone: the open demands and the pending RISK notices stand, and
so does a pump set that is not in RUNNING (R73, R91, R116). -/

namespace Sys2Proof.Machine

/-- What closes and ends of runs leave unchanged. -/
structure CloseKeeps (s t : State) : Prop where
  risks : ∀ p, .risk p ∈ t.lc.notices → .risk p ∈ s.lc.notices
  pump : s.wiu.pump.phase ≠ .running → t.wiu.pump = s.wiu.pump
  demands : t.sd.demands = s.sd.demands

theorem CloseKeeps.refl (s : State) : CloseKeeps s s := ⟨fun _ => id, fun _ => rfl, rfl⟩

theorem CloseKeeps.trans {s t u : State} (h : CloseKeeps s t) (k : CloseKeeps t u) : CloseKeeps s u where
  risks p new := h.risks p (k.risks p new)
  pump idle := (k.pump (by rw [h.pump idle]; exact idle)).trans (h.pump idle)
  demands := k.demands.trans h.demands

theorem closeKeeps_of_eq {s t : State} (lc : t.lc = s.lc) (wiu : t.wiu = s.wiu) (demands : t.sd.demands = s.sd.demands) :
    CloseKeeps s t := ⟨fun _ new => by rw [lc] at new; exact new, fun _ => by rw [wiu], demands⟩

/-- What is done before to the cannons, the runs and the queue alone. -/
theorem CloseKeeps.after {s t u : State} (k : CloseKeeps t u) (lc : t.lc = s.lc) (wiu : t.wiu = s.wiu)
    (demands : t.sd.demands = s.sd.demands) : CloseKeeps s u := (closeKeeps_of_eq lc wiu demands).trans k

section
variable (c : Fin 32) (s : State)

theorem closeKeeps_post {n : Notice} (other : ∀ p, n ≠ .risk p) : CloseKeeps s (post n s) where
  risks p new := ((mem_post _ _ _).1 new).resolve_left (fun same => other p same.symm)
  pump _ := by rw [post_wiu]
  demands := by rw [post_sd]

theorem closeKeeps_syncAlert (e : AlertId) : CloseKeeps s (syncAlert e s) where
  risks p new := (mem_notices_syncAlert new).resolve_right (by simp)
  pump _ := by rw [syncAlert_wiu]
  demands := by rw [syncAlert_sd]

theorem closeKeeps_enterPhase (x : CannonPhase) (n l : Option Nat) : CloseKeeps s (enterPhase c x n l s) :=
  (closeKeeps_syncAlert (s.setCannon c { s.cannon c with phase := x, travel := n, lostWater := l }) _).after rfl rfl rfl

theorem closeKeeps_updateRun (f : Run → Run) : CloseKeeps s (updateRun c f s) := by
  unfold updateRun
  split
  · exact closeKeeps_of_eq rfl rfl rfl
  · exact .refl s

theorem closeKeeps_completeIfDone (k : Nat) : CloseKeeps s (completeIfDone k s) := by
  unfold completeIfDone
  split
  · split
    · unfold announceClosure
      refine CloseKeeps.trans ?_ (closeKeeps_post _ (by simp))
      split <;> exact closeKeeps_of_eq rfl rfl rfl
    · exact .refl s
  · exact .refl s

theorem closeKeeps_endRun : CloseKeeps s (endRun c s) := by
  have left : CloseKeeps s (markPass (s.setRun c none)) := closeKeeps_of_eq rfl rfl rfl
  rcases endRun_cases c s with ⟨-, h⟩ | ⟨r, k, -, -, h⟩ | ⟨r, -, -, h⟩ <;> rw [h]
  · exact .refl s
  · exact left.trans (closeKeeps_completeIfDone _ k)
  · exact left

theorem closeKeeps_suspendRun (x : SuspendCause) : CloseKeeps s (suspendRun c x s) := by
  have counted : ∀ n, CloseKeeps s (s.setSuspensions n) := fun _ => closeKeeps_of_eq rfl rfl rfl
  rw [suspendRun_eq]
  simp only
  split
  · exact (counted _).trans ((closeKeeps_updateRun c _ _).trans (closeKeeps_endRun c _))
  · exact (counted _).trans (closeKeeps_updateRun c _ _)

theorem closeKeeps_applyDisposition : CloseKeeps s (applyDisposition c s) := by
  rcases applyDisposition_cases c s with ⟨h, -⟩ | ⟨r, x, n, -, -, h⟩ | ⟨r, d, n, -, -, -, h⟩ <;> rw [h]
  · exact .refl s
  · exact closeKeeps_suspendRun c s x
  · exact closeKeeps_endRun c s

theorem closeKeeps_headerIdle : CloseKeeps s (headerIdle s) where
  risks p new := by
    have posted : ∀ x y n, .risk p ∈ (pumpTo x y n s).lc.notices → .risk p ∈ s.lc.notices := fun x y n h =>
      ((mem_post _ _ _).1 h).resolve_left (by simp)
    unfold headerIdle at new
    split at new
    · unfold enterRundown pumpOff at new
      split at new
      · split at new <;> exact posted _ _ _ new
      · exact posted _ _ _ new
    · exact new
  pump idle := by
    unfold headerIdle
    rw [if_neg fun busy => idle busy.1]
  demands := by rw [headerIdle_sd]

theorem closeKeeps_returnToIdle : CloseKeeps s (returnToIdle c s) :=
  (closeKeeps_enterPhase c s _ _ _).trans <| (closeKeeps_applyDisposition c _).trans <|
    (closeKeeps_headerIdle _).trans (closeKeeps_of_eq rfl rfl rfl)

theorem closeKeeps_withdrawOpen : CloseKeeps s (withdrawOpen c s) :=
  (closeKeeps_returnToIdle c (removeEntry c s)).after rfl rfl rfl

theorem closeKeeps_beginClose : CloseKeeps s (beginClose c s) := by
  unfold beginClose commandClose stopDelivery
  split
  · exact (closeKeeps_updateRun c s _).trans (closeKeeps_enterPhase c _ _ _ _)
  · exact (closeKeeps_updateRun c s _).trans (closeKeeps_returnToIdle c _)

theorem closeKeeps_issueEntry (m : Movement) : CloseKeeps s (issueEntry c m s) := by
  unfold issueEntry
  split
  · exact closeKeeps_enterPhase c s _ _ _
  · exact closeKeeps_beginClose c s
  · exact closeKeeps_beginClose c s
  · exact .refl s

theorem closeKeeps_enqueue (m : Movement) : CloseKeeps s (enqueue c m s) := by
  unfold enqueue
  split
  · exact (closeKeeps_issueEntry c (s.setSlot (some (Config.seconds s.site.stagger))) m).after rfl rfl rfl
  · exact closeKeeps_of_eq rfl rfl rfl

theorem closeKeeps_queuedClose : CloseKeeps s (queuedClose c s) := by
  unfold queuedClose
  split
  · exact closeKeeps_withdrawOpen c s
  · split
    · exact closeKeeps_enqueue c s _
    · exact .refl s
  · exact (closeKeeps_enterPhase c s _ _ _).trans (closeKeeps_enqueue c _ _)
  · exact .refl s

theorem closeKeeps_decideEnd : CloseKeeps s (decideEnd c s) := by
  unfold decideEnd
  split
  · exact .refl s
  · split
    · exact closeKeeps_endRun c s
    · exact (closeKeeps_updateRun c s _).trans (closeKeeps_queuedClose c _)

theorem closeKeeps_endWhere (test : Fin 32 → Run → Bool) : CloseKeeps s (endWhere test s) := by
  refine forCannons_induct (P := fun _ t => CloseKeeps s t) (.refl s) fun x t kept => kept.trans ?_
  rcases endIf_cases test x t with h | h <;> rw [h]
  · exact closeKeeps_decideEnd x t
  · exact .refl t

end

end Sys2Proof.Machine
end

