-- ==== Sys2Proof/Proofs/PassOpens.lean ====
section
/-! SUPPORT. The grant pass cannon by cannon and pile by pile: a cannon that it opens takes a SUSPENDED run back up or
a new one, and what a new AUTO run is to deliver comes off its pile's open demand (R113, R115, R124, R126). -/

namespace Sys2Proof.Machine

/-- The run has no END (R114). -/
def Run.unending (r : Run) : Prop := ∀ n, r.phase ≠ .active .ends n

/-- The run as a pass takes it up again (R115). -/
def Run.resumed (r : Run) : Run := { r with phase := .active .none none }

/-- The cannon has been opened for the run x, resumed or new, and for a pile of D if it is a new AUTO run (R124). -/
structure OpenedAt (D : Fin 24 → Prop) (c : Fin 32) (s t : State) : Prop where
  waits : (t.cannon c).phase = .pendingOpen ∨ (t.cannon c).phase = .opening
  run : (∃ r ∈ s.run c, r.unending ∧ t.run c = some r.resumed) ∨
    (s.run c = none ∧ ∃ x, t.run c = some x ∧ x.delivered = 0 ∧ x.phase = .active .none none ∧
      (x.origin = .auto → D x.pile))

/-- AUTO runs of the pile (R126). -/
def autoOf (p : Fin 24) (r : Run) : Bool := r.origin = .auto && r.pile = p

/-- What the grants between s and t have done, with new AUTO runs for piles of D alone. -/
structure Opened (D : Fin 24 → Prop) (s t : State) : Prop where
  cannons : ∀ c, (t.cannon c = s.cannon c ∧ t.run c = s.run c ∧ queuedMovement t c = queuedMovement s c) ∨ OpenedAt D c s t
  volume : ∀ p, (t.demand p).volume ≤ (s.demand p).volume
  handed : ∀ p h, (s.demand p).volume = h - outstandingOf s (autoOf p) →
    (t.demand p).volume = h - outstandingOf t (autoOf p)
  risks : ∀ p, .risk p ∈ t.lc.notices → .risk p ∈ s.lc.notices

theorem Opened.refl {D : Fin 24 → Prop} (s : State) : Opened D s s :=
  ⟨fun _ => .inl ⟨rfl, rfl, rfl⟩, fun _ => le_rfl, fun _ _ => id, fun _ => id⟩

theorem OpenedAt.trans {D : Fin 24 → Prop} {c : Fin 32} {s t u : State} (h : OpenedAt D c s t) (k : OpenedAt D c t u) :
    OpenedAt D c s u := by
  refine ⟨k.waits, ?_⟩
  rcases k.run with ⟨x, hx, -, resumed⟩ | ⟨free, -⟩
  · rcases h.run with ⟨r, hr, unending, first⟩ | ⟨free, y, entered, delivered, -, demanded⟩
    · rw [first] at hx
      obtain rfl := Option.some.inj hx
      exact .inl ⟨r, hr, unending, resumed⟩
    · rw [entered] at hx
      obtain rfl := Option.some.inj hx
      exact .inr ⟨free, _, resumed, delivered, rfl, demanded⟩
  · rcases h.run with ⟨r, -, -, first⟩ | ⟨-, y, entered, -⟩
    · rw [first] at free; cases free
    · rw [entered] at free; cases free

theorem Opened.trans {D : Fin 24 → Prop} {s t u : State} (h : Opened D s t) (k : Opened D t u) : Opened D s u where
  cannons c := by
    rcases k.cannons c with ⟨cannon, run, queued⟩ | later
    · rw [cannon, run, queued]
      refine (h.cannons c).imp id fun ⟨waits, opened⟩ => ⟨by rw [cannon]; exact waits, by rw [run]; exact opened⟩
    · rcases h.cannons c with ⟨cannon, run, -⟩ | earlier
      · refine .inr ⟨later.waits, ?_⟩
        have opened := later.run
        rw [run] at opened
        exact opened
      · exact .inr (earlier.trans later)
  volume p := (k.volume p).trans (h.volume p)
  handed p n found := k.handed p n (h.handed p n found)
  risks p new := h.risks p (k.risks p new)

/-- The steps of a pass, before its reports: they leave a pump set alone that is not in RUNNING (R122). -/
structure Granting (D : Fin 24 → Prop) (s t : State) : Prop extends Opened D s t where
  pump : s.wiu.pump.phase ≠ .running → t.wiu.pump = s.wiu.pump

theorem Granting.refl {D : Fin 24 → Prop} (s : State) : Granting D s s := ⟨.refl s, fun _ => rfl⟩

theorem Granting.trans {D : Fin 24 → Prop} {s t u : State} (h : Granting D s t) (k : Granting D t u) : Granting D s u :=
  ⟨h.toOpened.trans k.toOpened, fun idle => (k.pump (by rw [h.pump idle]; exact idle)).trans (h.pump idle)⟩

/-! ## What the runs have outstanding (R113) -/

/-- What the run on the cannon counts among those that pass the test. -/
def outstandingAt (s : State) (test : Run → Bool) (c : Fin 32) : Nat :=
  match s.run c with
  | some r => if test r then r.outstanding else 0
  | none => 0

theorem outstandingOf_eq (s : State) (test : Run → Bool) :
    outstandingOf s test = ((List.finRange 32).map (outstandingAt s test)).sum := rfl

theorem outstandingOf_congr {s t : State} {test : Run → Bool} (h : ∀ c, outstandingAt t test c = outstandingAt s test c) :
    outstandingOf t test = outstandingOf s test := by
  rw [outstandingOf_eq, outstandingOf_eq, List.map_congr_left fun c _ => h c]

theorem outstandingAt_of_run {s t : State} {c : Fin 32} (h : t.run c = s.run c) (test : Run → Bool) :
    outstandingAt t test c = outstandingAt s test c := by
  unfold outstandingAt
  rw [h]

/-- A cannon that carried no run adds its own to the sum. -/
theorem outstandingOf_enter {s t : State} {c : Fin 32} {x : Run} {test : Run → Bool} (free : s.run c = none)
    (entered : t.run c = some x) (others : ∀ i, i ≠ c → t.run i = s.run i) :
    outstandingOf t test = outstandingOf s test + if test x then x.outstanding else 0 := by
  obtain ⟨before, after, split⟩ := List.append_of_mem (List.mem_finRange c)
  have distinct := List.nodup_finRange 32
  rw [split, List.nodup_append] at distinct
  obtain ⟨-, tail, apart⟩ := distinct
  have same : ∀ l : List (Fin 32), c ∉ l → l.map (outstandingAt t test) = l.map (outstandingAt s test) := fun l out =>
    List.map_congr_left fun i hi => outstandingAt_of_run (others i fun own => out (own ▸ hi)) test
  have own : outstandingAt s test c = 0 := by rw [outstandingAt, free]
  have new : outstandingAt t test c = if test x then x.outstanding else 0 := by rw [outstandingAt, entered]
  rw [outstandingOf_eq, outstandingOf_eq, split, List.map_append, List.map_append, List.map_cons, List.map_cons,
    same before fun hc => apart c hc c (List.mem_cons_self ..) rfl, same after (List.nodup_cons.1 tail).1, own, new]
  simp only [List.sum_append, List.sum_cons]
  omega

theorem resumed_outstanding {r : Run} (h : r.unending) : r.resumed.outstanding = r.outstanding := by
  unfold Run.outstanding Run.resumed
  split
  · rename_i n phase; cases phase
  · split
    · rename_i n phase; exact absurd phase (h n)
    · rfl

/-! ## One cannon opened -/

section
variable {D : Fin 24 → Prop} {s : State} {c : Fin 32}

theorem openRequest_waits (c : Fin 32) (s : State) : ((openRequest c s).cannon c).phase = .pendingOpen ∨
    ((openRequest c s).cannon c).phase = .opening := by
  unfold openRequest enqueue
  split
  · refine .inr ?_
    simp only [issueEntry, setSlot_cannon, enterPhase_cannon, if_true]
  · exact .inl (by rw [setQueue_cannon, enterPhase_cannon, if_pos rfl])

theorem closeKeeps_openRequest (c : Fin 32) (s : State) : CloseKeeps s (openRequest c s) :=
  (closeKeeps_enterPhase c s _ _ _).trans (closeKeeps_enqueue c _ _)

theorem demand_of_demands {s t : State} (h : t.sd.demands = s.sd.demands) (p : Fin 24) : t.demand p = s.demand p := by
  rw [State.demand, h, State.demand]

theorem granting_resumeRun {r : Run} (run : s.run c = some r) (unending : r.unending) : Granting D s (resumeRun c s) := by
  have kept : CloseKeeps s (resumeRun c s) := (closeKeeps_updateRun c s _).trans (closeKeeps_openRequest c _)
  have apart : Apart c s (resumeRun c s) := (apart_updateRun c s _).trans (apart_openRequest c _)
  have taken : (resumeRun c s).run c = some r.resumed := by
    rw [resumeRun, openRequest_run, updateRun_run, if_pos rfl, run]
    rfl
  refine ⟨⟨fun i => ?_, fun p => by rw [demand_of_demands kept.demands], fun p h found => ?_, kept.risks⟩, kept.pump⟩
  · by_cases own : i = c
    · subst own
      exact .inr ⟨openRequest_waits i _, .inl ⟨r, run, unending, taken⟩⟩
    · exact .inl ⟨apart.cannon i own, apart.run i own, apart.queued i own⟩
  · have same : outstandingOf (resumeRun c s) (autoOf p) = outstandingOf s (autoOf p) := outstandingOf_congr fun i => by
      by_cases own : i = c
      · subst own
        unfold outstandingAt
        rw [taken, run]
        simp only [resumed_outstanding unending]
        rfl
      · exact outstandingAt_of_run (apart.run i own) _
    rw [demand_of_demands kept.demands, found, same]

/-- The run that a pass enters (R124). -/
def entering (s : State) (c : Fin 32) (o : Origin) (tier : Option (Fin 4)) (n : Nat) : Run :=
  { pile := (s.cannon c).config.pile, origin := o, tier := tier, target := n, delivered := 0,
    phase := .active .none none }

section
variable (o : Origin) (tier : Option (Fin 4)) (n : Nat)

theorem newRun_run : (newRun c o tier n s).run c = some (entering s c o tier n) := by
  rw [newRun, openRequest_run, setRun_run, if_pos rfl]
  rfl

theorem apart_newRun (c : Fin 32) (s : State) : Apart c s (newRun c o tier n s) := by
  have entered : Apart c s (s.setRun c (some (entering s c o tier n))) :=
    { Apart.refl c s with run := fun i hi => by rw [setRun_run, if_neg hi] }
  exact entered.trans (apart_openRequest c _)

theorem closeKeeps_newRun (c : Fin 32) (s : State) : CloseKeeps s (newRun c o tier n s) :=
  (closeKeeps_openRequest c (s.setRun c (some (entering s c o tier n)))).after rfl rfl rfl

end

/-- A run for an order leaves the open demands alone (R125). -/
theorem granting_newRun_order {k : Nat} (free : s.run c = none) (n : Nat) : Granting D s (newRun c (.order k) none n s) := by
  have kept := closeKeeps_newRun (.order k) none n c s
  have apart := apart_newRun (.order k) none n c s
  have entered : (newRun c (.order k) none n s).run c = _ := newRun_run (.order k) none n
  refine ⟨⟨fun i => ?_, fun p => by rw [demand_of_demands kept.demands], fun p h found => ?_, kept.risks⟩, kept.pump⟩
  · by_cases own : i = c
    · subst own
      exact .inr ⟨openRequest_waits i _, .inr ⟨free, _, entered, rfl, rfl, fun auto => by cases auto⟩⟩
    · exact .inl ⟨apart.cannon i own, apart.run i own, apart.queued i own⟩
  · have other : autoOf p (entering s c (.order k) none n) = false := rfl
    rw [demand_of_demands kept.demands, found, outstandingOf_enter free entered apart.run, other]
    simp

/-- A new AUTO run of pile i takes what it is to deliver off the pile's open demand (R126). -/
theorem granting_newRun_auto {i : Fin 24} {v n : Nat} (free : s.run c = none) (aimed : (s.cannon c).config.pile = i)
    (demand : (s.demand i).volume = v) (allowed : D i) (tier : Fin 4) (tiers : Option (Fin 4)) :
    Granting D s ((newRun c .auto tiers n s).setDemand i ⟨v - n, tier⟩) := by
  have kept := closeKeeps_newRun .auto tiers n c s
  have apart := apart_newRun .auto tiers n c s
  have entered : ((newRun c .auto tiers n s).setDemand i ⟨v - n, tier⟩).run c = some (entering s c .auto tiers n) :=
    newRun_run .auto tiers n
  have volume : ∀ p, (((newRun c .auto tiers n s).setDemand i ⟨v - n, tier⟩).demand p).volume =
      (s.demand p).volume - if autoOf p (entering s c .auto tiers n) then n else 0 := fun p => by
    have test : autoOf p (entering s c .auto tiers n) = decide (i = p) := by
      rw [← aimed]
      rfl
    rw [setDemand_demand, test]
    by_cases own : p = i
    · subst own
      simp [demand]
    · rw [if_neg own, demand_of_demands kept.demands]
      simp [Ne.symm own]
  refine ⟨⟨fun x => ?_, fun p => ?_, fun p h found => ?_, kept.risks⟩, kept.pump⟩
  · by_cases own : x = c
    · subst own
      refine .inr ⟨openRequest_waits x _, .inr ⟨free, _, entered, rfl, rfl, fun _ => ?_⟩⟩
      have pile : (entering s x .auto tiers n).pile = i := aimed
      rw [pile]
      exact allowed
    · exact .inl ⟨apart.cannon x own, apart.run x own, apart.queued x own⟩
  · rw [volume]
    exact Nat.sub_le _ _
  · rw [volume, found, outstandingOf_enter free entered apart.run, Nat.sub_add_eq]
    rfl

/-! ## The steps of a pass -/

/-- Nothing but the notices, with no RISK among the new, and the pump set. -/
theorem opened_frame {t : State} (cc : t.cc = s.cc) (sd : t.sd = s.sd)
    (risks : ∀ p, .risk p ∈ t.lc.notices → .risk p ∈ s.lc.notices) : Opened D s t := by
  have run : ∀ c, t.run c = s.run c := fun c => by rw [State.run, sd, State.run]
  have demand : ∀ p, t.demand p = s.demand p := fun p => by rw [State.demand, sd, State.demand]
  refine ⟨fun c => .inl ⟨by rw [State.cannon, cc, State.cannon], run c, queuedMovement_of_cc (by rw [cc]) c⟩,
    fun p => by rw [demand], fun p h found => ?_, risks⟩
  rw [demand, found, outstandingOf_congr fun c => outstandingAt_of_run (run c) _]

theorem unending_of_suspended {r : Run} (h : r.isSuspended = true) : r.unending := by
  intro n phase
  simp [Run.isSuspended, phase] at h

theorem Granting.foldl {α : Type} {f : Pass → α → Pass} (step : ∀ p a, Granting D p.s (f p a).s) (l : List α) (p : Pass) :
    Granting D p.s (l.foldl f p).s := by
  induction l generalizing p with
  | nil => exact .refl p.s
  | cons a l ih => exact (step p a).trans (ih (f p a))

theorem granting_resumeOrderAt (k : Nat) (p : Pass) (c : Fin 32) : Granting D p.s (resumeOrderAt k p c).s := by
  unfold resumeOrderAt Pass.attempt
  split
  · rename_i r run
    split
    · rename_i free
      split
      · refine granting_resumeRun run (unending_of_suspended ?_)
        simp only [Bool.and_eq_true, freeToResume, run] at free
        exact free.2.2
      · exact .refl _
    · exact .refl _
  · exact .refl _

theorem run_of_eligible (h : eligible s c = true) : s.run c = none := by
  simp only [eligible, Bool.and_eq_true, Option.isNone_iff_eq_none] at h
  exact h.2

theorem granting_grantOrderAt (k : Nat) (q : Fin 24) (acc : Pass × Nat) (c : Fin 32) :
    Granting D acc.1.s (grantOrderAt k q acc c).1.s := by
  unfold grantOrderAt Pass.attempt
  simp only
  split
  · rename_i can
    simp only [Bool.and_eq_true] at can
    split
    · exact granting_newRun_order (run_of_eligible can.1.2) _
    · exact .refl _
  · exact .refl _

theorem granting_serveOrder (p : Pass) (k : Nat) : Granting D p.s (serveOrder p k).s := by
  have grants : ∀ (i : Fin 24) (l : List (Fin 32)) (acc : Pass × Nat),
      Granting D acc.1.s (l.foldl (grantOrderAt k i) acc).1.s := by
    intro i l
    induction l with
    | nil => exact fun acc => .refl _
    | cons c l ih => exact fun acc => (granting_grantOrderAt k i acc c).trans (ih _)
  unfold serveOrder
  split
  · exact .refl _
  · rename_i o ho
    have resumed : Granting D p.s ((List.finRange 32).foldl (resumeOrderAt k) p).s :=
      Granting.foldl (granting_resumeOrderAt k) _ p
    simp only
    generalize (List.finRange 32).foldl (resumeOrderAt k) p = q at resumed ⊢
    exact resumed.trans (grants o.pile (List.finRange 32) (q, undelivered q.s k o))

/-- The runs of the listed cannons have no END (R126). -/
def UnendingAt (l : List (Fin 32)) (s : State) : Prop := ∀ c ∈ l, ∀ r ∈ s.run c, r.unending

theorem Granting.unendingAt {t : State} {l : List (Fin 32)} (h : Granting D s t) (k : UnendingAt l s) : UnendingAt l t := by
  intro c hc r hr
  rcases h.cannons c with ⟨-, run, -⟩ | ⟨-, ⟨x, -, -, resumed⟩ | ⟨-, x, entered, -, phase, -⟩⟩
  · exact k c hc r (by rw [← run]; exact hr)
  · rw [resumed] at hr
    obtain rfl := Option.some.inj hr
    exact fun n same => by cases same
  · rw [entered] at hr
    obtain rfl := Option.some.inj hr
    exact fun n same => by rw [phase] at same; cases same

theorem granting_resumeAutoAt {p : Pass} (h : ∀ r ∈ p.s.run c, r.unending) : Granting D p.s (resumeAutoAt p c).s := by
  unfold resumeAutoAt Pass.attempt
  split
  · rename_i r run
    split
    · split
      · exact granting_resumeRun run (h r run)
      · exact .refl _
    · exact .refl _
  · exact .refl _

theorem granting_resumeAutos (l : List (Fin 32)) (p : Pass) (h : UnendingAt l p.s) :
    Granting D p.s (l.foldl resumeAutoAt p).s := by
  induction l generalizing p with
  | nil => exact .refl p.s
  | cons c l ih =>
    have first : Granting D p.s (resumeAutoAt p c).s := granting_resumeAutoAt (h c (List.mem_cons_self ..))
    exact first.trans (ih _ (first.unendingAt fun i hi => h i (List.mem_cons_of_mem _ hi)))

theorem granting_grantAutoAt {i : Fin 24} (allowed : D i) (p : Pass) (c : Fin 32) : Granting D p.s (grantAutoAt i p c).s := by
  unfold grantAutoAt Pass.attempt
  simp only
  split
  · rename_i can
    simp only [Bool.and_eq_true, decide_eq_true_eq] at can
    split
    · exact granting_newRun_auto (run_of_eligible can.1.2) can.2 rfl allowed _ _
    · exact .refl _
  · exact .refl _

theorem granting_servePile {i : Fin 24} (allowed : D i) (p : Pass) : Granting D p.s (servePile p i).s := by
  unfold servePile
  split
  · exact .refl _
  · exact Granting.foldl (granting_grantAutoAt allowed) _ p

theorem granting_servePiles (l : List (Fin 24)) (allowed : ∀ i ∈ l, D i) (p : Pass) :
    Granting D p.s (l.foldl servePile p).s := by
  induction l generalizing p with
  | nil => exact .refl p.s
  | cons i l ih =>
    exact (granting_servePile (allowed i (List.mem_cons_self ..)) p).trans
      (ih (fun j hj => allowed j (List.mem_cons_of_mem _ hj)) _)

theorem unendingAt_resumableAuto (s : State) : UnendingAt (resumableAuto s) s := fun c hc r hr => by
  have free := freeToResume_of_mem_resumableAuto hc
  simp only [freeToResume, Option.mem_def.1 hr, Bool.and_eq_true] at free
  exact unending_of_suspended free.2

end

/-- The piles with open demand at the pass (R126). -/
def Demanding (s : State) (p : Fin 24) : Prop := 0 < (s.demand p).volume

theorem granting_passSteps (s : State) : Granting (Demanding s) s (passSteps s).s := by
  have served : Granting (Demanding s) s ((openWetOrders s).foldl serveOrder ⟨s, false, false⟩).s :=
    Granting.foldl granting_serveOrder (openWetOrders s) ⟨s, false, false⟩
  have resumed := served.trans (granting_resumeAutos _ _ (unendingAt_resumableAuto _))
  unfold passSteps
  simp only
  split
  · refine resumed.trans (granting_servePiles _ (fun i hi => ?_) _)
    simp only [demandingPiles, mem_sortBy, List.mem_filter, decide_eq_true_eq] at hi
    exact hi.2.trans_le (resumed.volume i)
  · exact resumed

/-- The reports that end a pass change the pump set and post SOURCE (R122). -/
theorem opened_pumpTo {D : Fin 24 → Prop} (x : PumpPhase) (y : Option Source) (n : Option Nat) (s : State) :
    Opened D s (pumpTo x y n s) := by
  unfold pumpTo
  exact opened_frame (by rw [post_cc]; rfl) (by rw [post_sd]; rfl) fun p new =>
    ((mem_post _ _ _).1 new).resolve_left (by simp)

theorem opened_grantPass (s : State) : Opened (Demanding s) s (grantPass s) := by
  have reported : ∀ t, Opened (Demanding s) t (grantReport t) := fun t => by
    unfold grantReport
    split
    · exact opened_pumpTo _ _ _ t
    · exact .refl t
  have requested : ∀ t, Opened (Demanding s) t (startRequest t) := fun t => by
    unfold startRequest
    split
    · split
      · exact opened_pumpTo _ _ _ t
      · exact .refl t
    · exact .refl t
  have idle : ∀ t, Opened (Demanding s) t (headerIdle t) := fun t =>
    opened_frame (headerIdle_cc t) (headerIdle_sd t) (closeKeeps_headerIdle t).risks
  unfold grantPass
  simp only
  refine (granting_passSteps s).toOpened.trans (Opened.trans ?_ (idle _))
  split <;> split
  · exact (reported _).trans (requested _)
  · exact requested _
  · exact reported _
  · exact .refl _

/-- What an event adds to its own work is the pass it may owe (R124). -/
theorem opened_inEvent (f : State → State) (s : State) :
    Opened (Demanding (f (s.setPass false))) (f (s.setPass false)) (inEvent f s) := by
  rcases inEvent_cases s f with e | e
  · rw [e]; exact .refl _
  · rw [e]
    exact (opened_grantPass _).trans
      ⟨fun _ => .inl ⟨rfl, rfl, rfl⟩, fun _ => le_rfl, fun _ _ => id, fun _ => id⟩

/-! ## A decided end stands through a pass -/

theorem RunLeft.opened {D : Fin 24 → Prop} {c : Fin 32} {t u : State} (h : RunLeft c t) (k : Opened D t u)
    (idle : (t.cannon c).phase = .idle) : RunLeft c u := by
  rcases k.cannons c with ⟨cannon, run, -⟩ | ⟨waits, ⟨r, run, -⟩ | ⟨-, x, entered, delivered, phase, -⟩⟩
  · exact h.beside cannon run
  · rw [RunLeft, run, idle] at h
    simp at h
  · rw [RunLeft, entered]
    exact ⟨delivered, phase, waits⟩

theorem EndDecided.opened {D : Fin 24 → Prop} {c : Fin 32} {r : Run} {s t u : State} (h : EndDecided c r s t)
    (k : Opened D t u) (g : Granted t u) : EndDecided c r s u := by
  by_cases ready : (t.cannon c).Ready
  · have idle := ready.1
    have left : RunLeft c t → RunLeft c u := fun gone => gone.opened k idle
    unfold EndDecided at *
    rw [idle] at h
    split
    · rename_i phase
      simp only [phase] at h
      exact left h
    · rename_i phase
      simp only [phase] at h
      cases before : (s.cannon c).phase with
      | pendingOpen => simp only [before] at h; exact left h
      | opening =>
        simp only [before, reduceCtorEq, false_and, false_or] at h
        obtain ⟨free, closed⟩ := h
        refine .inr ⟨free, ?_⟩
        split
        · rename_i open_; simp [open_] at closed
        · rename_i shut; rw [if_neg shut] at closed; exact left closed
      | spraying => simp [before] at h
      | closePending | closing =>
        simp only [before] at h
        rw [← h.1, idle] at before
        cases before
      | idle | stuck | faulted | locked => trivial
  · obtain ⟨cannon, run, queued⟩ := g.spared c ready
    exact h.beside cannon run queued

end Sys2Proof.Machine
end

