-- ==== Sys2Proof/Proofs/HandedDemands.lean ====
section
/-! SUPPORT. The completion of an assessment step by step: the tiers recorded, the satisfied AUTO runs ended, the open
demands set, and the pass that follows (R56, R123). -/

namespace Sys2Proof.Machine

/-! ## What is handed -/

theorem handed_of_pile {s t : State} {p : Fin 24} (h : t.pile p = { s.pile p with hold := (t.pile p).hold }) :
    handed t p = handed s p := by
  unfold handed
  rw [h]

theorem handedDemand_of_pile {s t : State} {p : Fin 24} (h : t.pile p = { s.pile p with hold := (t.pile p).hold }) :
    handedDemand t p = handedDemand s p := by
  unfold handedDemand
  rw [handed_of_pile h]

theorem handed_pilesAssessed (s : State) (p : Fin 24) : handed (pilesAssessed s) p =
    if (s.pile p).configured then some ((judged (readInputs s) s p).demand, (judged (readInputs s) s p).tier)
    else none := by
  unfold handed
  rw [pilesAssessed_pile, assessedPile_configured, assessedPile]
  cases h : (s.pile p).configured with
  | true => rfl
  | false => rfl

/-! ## Steps 1 and 3: the demands written -/

/-- What writes the demands alone. -/
structure DemandsOnly (s t : State) : Prop where
  cc : t.cc = s.cc
  lc : t.lc = s.lc
  pins : t.pins = s.pins
  pau : t.pau = s.pau
  runs : t.sd.runs = s.sd.runs

theorem DemandsOnly.refl (s : State) : DemandsOnly s s := ⟨rfl, rfl, rfl, rfl, rfl⟩

theorem DemandsOnly.trans {s t u : State} (h : DemandsOnly s t) (k : DemandsOnly t u) : DemandsOnly s u :=
  ⟨k.cc.trans h.cc, k.lc.trans h.lc, k.pins.trans h.pins, k.pau.trans h.pau, k.runs.trans h.runs⟩

theorem demandsOnly_setDemand (s : State) (p : Fin 24) (d : Demand) : DemandsOnly s (s.setDemand p d) :=
  ⟨rfl, rfl, rfl, rfl, rfl⟩

section
variable {s t : State} (h : DemandsOnly s t)
include h

theorem DemandsOnly.run (c : Fin 32) : t.run c = s.run c := by rw [State.run, h.runs, State.run]

theorem DemandsOnly.pile (p : Fin 24) : t.pile p = s.pile p := by rw [State.pile, h.pau, State.pile]

theorem DemandsOnly.beside (c : Fin 32) : Beside c s t :=
  ⟨by rw [State.cannon, h.cc, State.cannon], h.run c, queuedMovement_of_cc (by rw [h.cc]) c, by rw [h.cc]; exact id,
    h.pins⟩

theorem DemandsOnly.handed (p : Fin 24) : Machine.handed t p = Machine.handed s p := handed_of_pile (by rw [h.pile])

theorem DemandsOnly.handedDemand (p : Fin 24) : Machine.handedDemand t p = Machine.handedDemand s p := by
  unfold Machine.handedDemand
  rw [h.handed]

theorem DemandsOnly.outstandingOf (test : Run → Bool) : Machine.outstandingOf t test = Machine.outstandingOf s test :=
  outstandingOf_congr fun c => outstandingAt_of_run (h.run c) test

end

/-- A step that writes each pile's demand by what stands outside the demands, and by that demand. -/
theorem forPiles_demand {f : Fin 24 → State → State} (g : State → Fin 24 → Demand → Demand)
    (frame : ∀ p t, DemandsOnly t (f p t)) (write : ∀ p t q, (f p t).demand q = if q = p then g t p (t.demand p) else t.demand q)
    (stable : ∀ p t u, DemandsOnly t u → g u p = g t p) (s : State) :
    DemandsOnly s (forPiles f s) ∧ ∀ q, (forPiles f s).demand q = g s q (s.demand q) := by
  have fold : ∀ (l : List (Fin 24)) (t : State), l.Nodup → DemandsOnly t (l.foldl (fun t p => f p t) t) ∧
      ∀ q, (l.foldl (fun t p => f p t) t).demand q = if q ∈ l then g t q (t.demand q) else t.demand q := by
    intro l
    induction l with
    | nil => exact fun t _ => ⟨.refl t, fun _ => rfl⟩
    | cons p l ih =>
      intro t distinct
      obtain ⟨out, distinct⟩ := List.nodup_cons.1 distinct
      obtain ⟨rest, demands⟩ := ih (f p t) distinct
      refine ⟨(frame p t).trans rest, fun q => ?_⟩
      rw [List.foldl_cons, demands, write, stable q t _ (frame p t)]
      by_cases own : q = p
      · subst own
        simp [out]
      · simp [own]
  obtain ⟨frame, demands⟩ := fold _ s (List.nodup_finRange 24)
  unfold forPiles
  exact ⟨frame, fun q => (demands q).trans (if_pos (List.mem_finRange q))⟩

/-- Step 1 on one demand: the tier handed, if one is (R123). -/
def tierHanded (s : State) (p : Fin 24) (d : Demand) : Demand :=
  match handed s p with
  | some h => { d with tier := h.2 }
  | none => d

theorem forPiles_recordTier (s : State) : DemandsOnly s (forPiles recordTier s) ∧
    ∀ p, (forPiles recordTier s).demand p = tierHanded s p (s.demand p) := by
  refine forPiles_demand tierHanded (fun p t => ?_) (fun p t q => ?_) (fun p t u h => ?_) s
  · unfold recordTier
    split
    · exact demandsOnly_setDemand t p _
    · exact .refl t
  · unfold recordTier tierHanded
    cases handed t p with
    | some h => exact setDemand_demand _ _ _ _
    | none =>
      simp only
      split
      · rename_i own; rw [own]
      · rfl
  · funext d
    unfold tierHanded
    rw [h.handed]

/-- Step 3 on one demand: what is handed less what is outstanding (R123). -/
def demandLeft (s : State) (p : Fin 24) (d : Demand) : Demand :=
  { d with volume := handedDemand s p - outstandingOf s (autoOf p) }

theorem forPiles_setOpenDemand (s : State) : DemandsOnly s (forPiles setOpenDemand s) ∧
    ∀ p, (forPiles setOpenDemand s).demand p = demandLeft s p (s.demand p) := by
  refine forPiles_demand demandLeft (fun p t => demandsOnly_setDemand t p _) (fun p t q => setDemand_demand _ _ _ _)
    (fun p t u h => ?_) s
  funext d
  unfold demandLeft
  rw [h.handedDemand, h.outstandingOf]

/-! ## Step 2: the satisfied runs ended -/

section
variable {c : Fin 32} {s : State}

theorem endSatisfied_eq (p : Fin 24) (s : State) : endSatisfied p s =
    if handedDemand s p = 0 then endWhere (fun _ => autoOf p) s else s := rfl

theorem within_endSatisfied (p : Fin 24) (s : State) : Within s (endSatisfied p s) := by
  unfold endSatisfied
  split
  · exact within_decideEnds s _
  · exact .refl s

theorem closeKeeps_endSatisfied (p : Fin 24) (s : State) : CloseKeeps s (endSatisfied p s) := by
  rw [endSatisfied_eq]
  split
  · exact closeKeeps_endWhere s _
  · exact .refl s

/-- The run, if any, is not one that the assessment ends for pile p. -/
def Unsatisfied (s : State) (c : Fin 32) (p : Fin 24) : Prop :=
  ∀ r ∈ s.run c, autoOf p r = true → handedDemand s p ≠ 0

theorem beside_endSatisfied {p : Fin 24} (h : Unsatisfied s c p) : Beside c s (endSatisfied p s) := by
  rw [endSatisfied_eq]
  split
  · rename_i none
    refine (endWhere_at _ c s).2 fun r hr => ?_
    cases test : autoOf p r with
    | false => rfl
    | true => exact absurd none (h r hr test)
  · exact .refl c s

theorem foldl_endSatisfied_beside (l : List (Fin 24)) (h : ∀ p ∈ l, Unsatisfied s c p) :
    Beside c s (l.foldl (fun t p => endSatisfied p t) s) := by
  induction l generalizing s with
  | nil => exact .refl c s
  | cons p l ih =>
    have first := beside_endSatisfied (h p (List.mem_cons_self ..))
    refine first.trans (ih fun q hq r hr test => ?_)
    rw [handedDemand_of_pile ((within_endSatisfied p s).pile q)]
    rw [first.run] at hr
    exact h q (List.mem_cons_of_mem _ hq) r hr test

theorem within_foldl_endSatisfied (l : List (Fin 24)) (s : State) : Within s (l.foldl (fun t p => endSatisfied p t) s) :=
  within_foldl s _ (fun t p => within_endSatisfied p t) l

theorem autoOf_iff {p : Fin 24} {r : Run} : autoOf p r = true ↔ r.origin = .auto ∧ r.pile = p := by
  unfold autoOf
  simp

/-- The AUTO run of a pile that is handed no demand has an end decided (R123). -/
theorem forPiles_endSatisfied_ended {r : Run} (run : s.run c = some r) (auto : r.origin = .auto)
    (none : handedDemand s r.pile = 0) : Ended c r s (forPiles endSatisfied s) := by
  obtain ⟨before, after, split⟩ := List.append_of_mem (List.mem_finRange r.pile)
  have distinct := List.nodup_finRange 24
  rw [split, List.nodup_append] at distinct
  obtain ⟨-, tail, apart⟩ := distinct
  have first : Beside c s (before.foldl (fun t p => endSatisfied p t) s) := by
    refine foldl_endSatisfied_beside before fun p hp x hx test => ?_
    rw [run] at hx
    obtain rfl := Option.some.inj hx
    exact absurd (autoOf_iff.1 test).2.symm (apart p hp r.pile (List.mem_cons_self ..))
  have same := handedDemand_of_pile ((within_foldl_endSatisfied before s).pile r.pile)
  unfold forPiles
  rw [split, List.foldl_append, List.foldl_cons]
  generalize before.foldl (fun t p => endSatisfied p t) s = u at *
  have own : Ended c r u (endSatisfied r.pile u) := by
    rw [endSatisfied_eq, if_pos (same.trans none)]
    exact (endWhere_at _ c u).1 r (first.run.trans run) (autoOf_iff.2 ⟨auto, rfl⟩)
  refine (own.of_beside first).beside (foldl_endSatisfied_beside after fun p hp x hx test => ?_)
  obtain ⟨n, rfl⟩ := own.ends x hx
  obtain rfl : r.pile = p := (autoOf_iff.1 test).2
  exact absurd hp (List.nodup_cons.1 tail).1

/-- Every other run stands (R123). -/
theorem forPiles_endSatisfied_beside (h : ∀ p, Unsatisfied s c p) : Beside c s (forPiles endSatisfied s) :=
  foldl_endSatisfied_beside _ fun p _ => h p

theorem within_forPiles_endSatisfied (s : State) : Within s (forPiles endSatisfied s) := within_foldl_endSatisfied _ s

theorem closeKeeps_forPiles_endSatisfied (s : State) : CloseKeeps s (forPiles endSatisfied s) := by
  unfold forPiles
  generalize List.finRange 24 = l
  induction l generalizing s with
  | nil => exact .refl s
  | cons p l ih => exact (closeKeeps_endSatisfied p s).trans (ih _)

/-- An AUTO run left by the step for a pile that is handed no demand has END (R114, R123). -/
theorem forPiles_endSatisfied_ends {y : Run} (hy : y ∈ (forPiles endSatisfied s).run c) (auto : y.origin = .auto)
    (none : handedDemand s y.pile = 0) : ∃ n, y.phase = .active .ends n := by
  by_cases all : ∀ p, Unsatisfied s c p
  · rw [(forPiles_endSatisfied_beside all).run] at hy
    exact absurd none (all y.pile y hy (autoOf_iff.2 ⟨auto, rfl⟩))
  · simp only [Unsatisfied, not_forall, not_not] at all
    obtain ⟨p, r, run, test, satisfied⟩ := all
    obtain ⟨origin, rfl⟩ := autoOf_iff.1 test
    obtain ⟨n, rfl⟩ := (forPiles_endSatisfied_ended run origin satisfied).ends y hy
    exact ⟨n, rfl⟩

end

end Sys2Proof.Machine
end

