-- ==== Sys2Proof/Proofs/AssessmentHands.lean ====
section
/-! SUPPORT. The whole assessment: the demands handed, the satisfied runs ended, and what the pass makes of both (R42,
R46, R55, R56, R123). -/

namespace Sys2Proof.Machine

/-! ## The completion -/

section
variable (s : State)

theorem demandsOnly_markPass (s : State) : DemandsOnly s (markPass s) := ⟨rfl, rfl, rfl, rfl, rfl⟩

theorem markPass_demand (s : State) (p : Fin 24) : (markPass s).demand p = s.demand p := rfl

/-- The completion as its three steps (R123). -/
theorem completion_parts : ∃ b, DemandsOnly s b ∧ (∀ p, b.demand p = tierHanded s p (s.demand p)) ∧
    DemandsOnly (forPiles endSatisfied b) (completion s) ∧
    ∀ p, (completion s).demand p =
      demandLeft (forPiles endSatisfied b) p ((forPiles endSatisfied b).demand p) := by
  obtain ⟨recorded, tiers⟩ := forPiles_recordTier s
  obtain ⟨opened, volumes⟩ := forPiles_setOpenDemand (forPiles endSatisfied (forPiles recordTier s))
  unfold completion
  exact ⟨_, recorded, tiers, opened.trans (demandsOnly_markPass _), fun p => (markPass_demand _ p).trans (volumes p)⟩

theorem completion_demand (p : Fin 24) : ((completion s).demand p).tier = (tierHanded s p (s.demand p)).tier ∧
    ((completion s).demand p).volume = handedDemand s p - outstandingOf (completion s) (autoOf p) := by
  obtain ⟨b, recorded, tiers, opened, volumes⟩ := completion_parts s
  have stands := demand_of_demands (closeKeeps_forPiles_endSatisfied b).demands p
  have same := (handedDemand_of_pile ((within_forPiles_endSatisfied b).pile p)).trans (recorded.handedDemand p)
  rw [volumes, demandLeft, stands, tiers, same, opened.outstandingOf]
  exact ⟨rfl, rfl⟩

theorem completion_risks (p : Fin 24) : .risk p ∈ (completion s).lc.notices ↔ .risk p ∈ s.lc.notices := by
  obtain ⟨b, recorded, -, opened, -⟩ := completion_parts s
  refine ⟨fun h => ?_, fun h => (quiet_completion s).posts.keeps.subset h⟩
  rw [opened.lc] at h
  rw [← recorded.lc]
  exact (closeKeeps_forPiles_endSatisfied b).risks p h

variable {s} {c : Fin 32}

theorem completion_ended {r : Run} (run : s.run c = some r) (auto : r.origin = .auto)
    (none : handedDemand s r.pile = 0) : Ended c r s (completion s) := by
  obtain ⟨b, recorded, -, opened, -⟩ := completion_parts s
  have own := forPiles_endSatisfied_ended ((recorded.run c).trans run) auto ((recorded.handedDemand _).trans none)
  exact (own.of_beside (recorded.beside c)).beside (opened.beside c)

theorem completion_ends {y : Run} (hy : y ∈ (completion s).run c) (auto : y.origin = .auto)
    (none : handedDemand s y.pile = 0) : ∃ n, y.phase = .active .ends n := by
  obtain ⟨b, recorded, -, opened, -⟩ := completion_parts s
  rw [opened.run] at hy
  exact forPiles_endSatisfied_ends hy auto ((recorded.handedDemand _).trans none)

end

/-! ## The event -/

section
variable (s : State)

theorem beside_pilesAssessed (c : Fin 32) : Beside c s (pilesAssessed s) := by
  have found := (forPiles_assessPile (readInputs s) (assessmentBegun s)).1
  exact ⟨found.cannon c, found.run c, queuedMovement_of_cc (by rw [pilesAssessed, found.cc]; rfl) c,
    by rw [pilesAssessed, found.cc]; exact id, found.pins⟩

theorem pilesAssessed_demand (p : Fin 24) : (pilesAssessed s).demand p = s.demand p := by
  rw [State.demand, pilesAssessed, (forPiles_assessPile (readInputs s) (assessmentBegun s)).1.sd]
  rfl

theorem classChanges_assessmentBegun (i : Inputs) (p : Fin 24) :
    classChanges i (assessmentBegun s) p ↔ classChanges i s p := by
  rw [classChanges, judged_assessmentBegun]
  rfl

theorem opened_assessment : Opened (Demanding (completion (pilesAssessed s))) (completion (pilesAssessed s))
    (inEvent assessmentStep s) := opened_inEvent assessmentStep s

theorem granted_assessment : Granted (completion (pilesAssessed s)) (inEvent assessmentStep s) :=
  granted_inEvent s assessmentStep

theorem within_assessment : Within (completion (pilesAssessed s)) (inEvent assessmentStep s) := by
  rw [← assessmentStep_setPass]
  exact inEvent_within s assessmentStep

/-- RISK is posted where the class has changed (R48). -/
theorem assessment_risks (p : Fin 24) : .risk p ∈ (inEvent assessmentStep s).lc.notices ↔
    .risk p ∈ s.lc.notices ∨ classChanges (readInputs s) s p := by
  have event : .risk p ∈ (inEvent assessmentStep s).lc.notices ↔ .risk p ∈ (completion (pilesAssessed s)).lc.notices :=
    ⟨(opened_assessment s).risks p, fun h => (within_assessment s).posts.keeps.subset h⟩
  rw [event, completion_risks, pilesAssessed, (forPiles_assessPile (readInputs s) (assessmentBegun s)).2.2 p,
    classChanges_assessmentBegun]
  rfl

/-- The demand handed for the pile (R56). -/
theorem handedDemand_pilesAssessed (p : Fin 24) : handedDemand (pilesAssessed s) p =
    if (s.pile p).configured then (judged (readInputs s) s p).demand else 0 := by
  unfold handedDemand
  rw [handed_pilesAssessed]
  cases (s.pile p).configured <;> rfl

theorem assessment_tier (p : Fin 24) : ((inEvent assessmentStep s).demand p).tier =
    if (s.pile p).configured then (judged (readInputs s) s p).tier else (s.demand p).tier := by
  have event : ((inEvent assessmentStep s).demand p).tier = ((completion (pilesAssessed s)).demand p).tier :=
    (within_assessment s).tier p
  rw [event, (completion_demand _ p).1, pilesAssessed_demand]
  unfold tierHanded
  rw [handed_pilesAssessed]
  cases (s.pile p).configured <;> rfl

theorem assessment_volume (p : Fin 24) : ((inEvent assessmentStep s).demand p).volume =
    handedDemand (pilesAssessed s) p - outstandingOf (inEvent assessmentStep s) (autoOf p) :=
  (opened_assessment s).handed p _ (completion_demand _ p).2

variable {s} {c : Fin 32}

/-- No pass takes up or enters an AUTO run for a pile that is handed no demand (R126). -/
theorem assessment_ends {x : Run} (hx : x ∈ (inEvent assessmentStep s).run c) (auto : x.origin = .auto)
    (none : handedDemand (pilesAssessed s) x.pile = 0) : ∃ n, x.phase = .active .ends n := by
  rcases (opened_assessment s).cannons c with ⟨-, run, -⟩ | ⟨-, ⟨r, run, unending, resumed⟩ | ⟨-, y, entered, -, -, demanded⟩⟩
  · rw [run] at hx
    exact completion_ends hx auto none
  · rw [resumed] at hx
    obtain rfl := Option.some.inj hx
    obtain ⟨n, phase⟩ := completion_ends run auto none
    exact absurd phase (unending n)
  · rw [entered] at hx
    obtain rfl := Option.some.inj hx
    have demands_left := demanded auto
    rw [Demanding, (completion_demand _ _).2, none, Nat.zero_sub] at demands_left
    exact absurd demands_left (Nat.lt_irrefl 0)

theorem assessment_endDecided {x : Run} (valves : ValvesSound s) (runs : RunsSound s) (run : s.run c = some x)
    (auto : x.origin = .auto) (none : handedDemand (pilesAssessed s) x.pile = 0) :
    EndDecided c x s (inEvent assessmentStep s) := by
  have before := beside_pilesAssessed s c
  have ended := (completion_ended (before.run.trans run) auto none).of_beside before
  exact (ended.decided (valves.1 c) (runs c)).opened (opened_assessment s) (granted_assessment s)

/-! ## The obligation -/

theorem assessedPile_of_configured {i : Inputs} {p : Fin 24} (h : (s.pile p).configured = true) :
    assessedPile i s p = { (s.pile p).moistened i with results := some (judged i s p) } := if_pos h

theorem handedDemand_of_results {x : Run} (h : (s.pile x.pile).configured = true →
    ∀ r ∈ ((inEvent assessmentStep s).pile x.pile).results, r.demand = 0) :
    handedDemand (pilesAssessed s) x.pile = 0 := by
  rw [handedDemand_pilesAssessed]
  split
  · rename_i configured
    exact h configured _ (judged_mem_results configured)
  · rfl

/-- A record of which moisture, pending water, results and hold flag are all that has changed. -/
theorem Pile.eq_of_results {d e : Pile} {m : Nat} {r : Option Results}
    (h : e = { { d with moisture := m, pendingSpray := 0, pendingRain := 0 } with results := r, hold := e.hold }) :
    e = { d with moisture := e.moisture, pendingSpray := 0, pendingRain := 0, results := r, hold := e.hold } := by
  rw [h]

theorem assessment_configured {p : Fin 24} (configured : (s.pile p).configured = true) :
    ∃ r ∈ ((inEvent assessmentStep s).pile p).results,
      (inEvent assessmentStep s).pile p = { s.pile p with
        moisture := ((inEvent assessmentStep s).pile p).moisture, pendingSpray := 0, pendingRain := 0,
        results := some r, hold := ((inEvent assessmentStep s).pile p).hold } ∧
      (.risk p ∈ (inEvent assessmentStep s).lc.notices ↔
        .risk p ∈ s.lc.notices ∨ (s.pile p).results.map Results.risk ≠ some r.risk) ∧
      ((inEvent assessmentStep s).demand p).tier = r.tier ∧ ((inEvent assessmentStep s).demand p).volume = r.demand -
        outstandingOf (inEvent assessmentStep s) (fun x => x.origin = .auto && x.pile = p) ∧
      (r.demand = 0 → ∀ c, ∀ x ∈ (inEvent assessmentStep s).run c, x.origin = .auto → x.pile = p →
        ∃ n, x.phase = .active .ends n) := by
  have handed : handedDemand (pilesAssessed s) p = (judged (readInputs s) s p).demand := by
    rw [handedDemand_pilesAssessed, if_pos configured]
  have pile := assessment_pile s p
  rw [assessedPile_of_configured configured] at pile
  refine ⟨judged (readInputs s) s p, judged_mem_results configured, Pile.eq_of_results pile, ?_, ?_, ?_,
    fun none c x hx auto own => ?_⟩
  · rw [assessment_risks, classChanges, configured]
    simp
  · rw [assessment_tier, if_pos configured]
  · rw [assessment_volume, handed]
    rfl
  · subst own
    exact assessment_ends hx auto (handed.trans none)

theorem assessment_unconfigured {p : Fin 24} (unconfigured : (s.pile p).configured = false) :
    (inEvent assessmentStep s).pile p = { s.pile p with hold := ((inEvent assessmentStep s).pile p).hold } ∧
      (inEvent assessmentStep s).demand p = ⟨0, (s.demand p).tier⟩ ∧
      (.risk p ∈ (inEvent assessmentStep s).lc.notices ↔ .risk p ∈ s.lc.notices) := by
  have pile := assessment_pile s p
  rw [assessedPile, if_neg (by rw [unconfigured]; exact Bool.false_ne_true)] at pile
  have tier := assessment_tier s p
  have volume := assessment_volume s p
  rw [handedDemand_pilesAssessed, unconfigured, if_neg Bool.false_ne_true, Nat.zero_sub] at volume
  rw [unconfigured, if_neg Bool.false_ne_true] at tier
  refine ⟨pile, ?_, ?_⟩
  · rw [← tier, ← volume]
  · rw [assessment_risks, classChanges, unconfigured]
    simp

theorem Assessing.today {t : State} (h : Assessing s t) :
    t.wiu.today = { s.wiu.today with ponds := t.wiu.today.ponds } := by rw [h.wiu]

theorem Assessing.previous {t : State} (h : Assessing s t) : t.wiu.previous = s.wiu.previous := by rw [h.wiu]

/-- Settles O29: the piles are judged and their runoff posted one after another, the completion hands the demands and
ends the satisfied runs, and the pass grants what is left of them. -/
theorem assessmentHandsItsDemands : Obligations.AssessmentHandsItsDemands := by
  unfold Obligations.AssessmentHandsItsDemands
  intro s
  have assessing : Assessing (assessmentBegun s) (pilesAssessed s) := (forPiles_assessPile _ _).1
  have completing := completing_assessment s
  have pass := within_assessment s
  have quiet := assessing.quiet.trans (quiet_completion (pilesAssessed s))
  refine ⟨inEvent assessmentStep s, rfl, fun p => assessment_configured, fun p => assessment_unconfigured,
    fun valves runs c x run auto none => assessment_endDecided valves runs run auto (handedDemand_of_results none),
    fun q undrained => ?_, fun q => ?_, ?_, ?_, ?_⟩
  · rw [assessment_pond, runoffTo_eq_zero undrained, Pond.drainedInto_zero]
  · split
    · rename_i taken
      exact runoffTaken_assessment taken.1 taken.2
    · rename_i dry
      exact assessment_undrained dry
  · rw [completing.today]
    exact assessing.today
  · rw [completing.previous]
    exact assessing.previous
  · exact ⟨pass.yc.trans quiet.yc, pass.wfe.trans quiet.wfe, pass.ft.trans quiet.ft, pass.bwu.trans quiet.bwu,
      pass.site.trans quiet.site, completing.pins.trans assessing.pins⟩

end

end Sys2Proof.Machine
end

