-- ==== Sys2Proof/Proofs/Draws.lean ====
section
/-! SUPPORT. A draw of water in its three parts: what is taken and counted, the forced switch of a source that it leaves
unfit, and the conditions that follow (R68, R75, R78 to R81). -/

namespace Sys2Proof.Machine

/-! ## The water asked of a state (R68) -/

section
variable {s t : State} (h : Within s t)
include h

theorem Within.pond (p : Fin 4) : t.pond p = s.pond p := pond_of_ponds h.ponds p

theorem Within.fit (x : Source) : Machine.fit t x = Machine.fit s x := by
  cases x with
  | pond p => rw [Machine.fit, h.pond, Machine.fit]
  | fresh => exact fit_fresh_of_eq h.site h.today

theorem Within.usable (x : Source) : Machine.usable t x = Machine.usable s x := by
  cases x with
  | pond p => rw [Machine.usable, h.fit, h.pond, Machine.usable]
  | fresh => exact h.fit .fresh

theorem Within.selection : Machine.selection t = Machine.selection s := by
  have better : betterPond t = betterPond s := by
    funext best p
    unfold betterPond
    rw [h.usable]
    simp only [h.pond]
  unfold Machine.selection
  rw [better, h.usable]

end

/-! ## What is taken and counted -/

/-- The water taken from the active source and counted, if one is active (R78 to R80). -/
def tapped (lost : Bool) (q : Nat) (s : State) : State :=
  match s.wiu.pump.source with
  | some src => countDrawn lost q (debit q src s)
  | none => s

section
variable (lost : Bool) (q : Nat) (s : State)

/-- Ponds and day record alone change. -/
theorem tapped_eq : ∃ ponds today, tapped lost q s = { s with wiu := { s.wiu with ponds := ponds, today := today } } := by
  have counted : ∀ t : State, ∃ today, countDrawn lost q t = t.setToday today := fun t => by
    unfold countDrawn
    split <;> exact ⟨_, rfl⟩
  unfold tapped
  split
  · rename_i src _
    obtain ⟨today, h⟩ := counted (debit q src s)
    rw [h]
    cases src with
    | pond p => exact ⟨_, _, rfl⟩
    | fresh => exact ⟨s.wiu.ponds, today, rfl⟩
  · exact ⟨s.wiu.ponds, s.wiu.today, rfl⟩

theorem countDrawn_pond (p : Fin 4) : (countDrawn lost q s).pond p = s.pond p := by
  unfold countDrawn
  split <;> rfl

theorem countDrawn_today : (countDrawn lost q s).wiu.today = { s.wiu.today with
    delivered := if lost = false then Config.count48 (s.wiu.today.delivered + q) else s.wiu.today.delivered
    lost := if lost = true then Config.count48 (s.wiu.today.lost + q) else s.wiu.today.lost } := by
  unfold countDrawn
  cases lost <;> rfl

theorem tapped_none (h : s.wiu.pump.source = none) : tapped lost q s = s := by
  unfold tapped
  rw [h]

theorem tapped_some {src : Source} (h : s.wiu.pump.source = some src) :
    tapped lost q s = countDrawn lost q (debit q src s) := by
  unfold tapped
  rw [h]

theorem drawn_tapped : Drawn lost q s (tapped lost q s) := by
  have previous : (tapped lost q s).wiu.previous = s.wiu.previous := by
    obtain ⟨ponds, today, h⟩ := tapped_eq lost q s
    rw [h]
  cases source : s.wiu.pump.source with
  | none =>
    rw [tapped_none lost q s source] at previous ⊢
    simp [Drawn, source]
  | some src =>
    rw [tapped_some lost q s source] at previous ⊢
    cases src with
    | pond x =>
      have pond : ∀ p, (debit q (.pond x) s).pond p = if p = x then { s.pond x with volume := (s.pond x).volume - q }
          else s.pond p := fun p => setPond_pond _ _ _ _
      have day : ∀ p, (debit q (.pond x) s).wiu.today.ponds.get p = if p = x then
          { s.wiu.today.ponds.get x with
            drawn := Config.count48 ((s.wiu.today.ponds.get x).drawn + q)
            corrections := if (s.pond x).volume < q then
                Config.signed48 ((s.wiu.today.ponds.get x).corrections + ((q - (s.pond x).volume : Nat) : Int))
              else (s.wiu.today.ponds.get x).corrections }
          else s.wiu.today.ponds.get p := fun p => Table.get_modify _ _ _ _
      refine ⟨fun p own => ?_, fun p other => ?_, ?_, ?_, ?_, ?_, previous⟩
      · obtain rfl : x = p := by simpa [source] using own
        rw [countDrawn_pond, countDrawn_today, pond, if_pos rfl, day, if_pos rfl]
        refine ⟨rfl, rfl, fun short => ?_, fun enough => if_neg (Nat.not_lt.2 enough)⟩
        rw [if_pos short, Nat.cast_sub (Nat.le_of_lt short)]
      · have away : p ≠ x := fun same => other (by rw [source, same])
        rw [countDrawn_pond, countDrawn_today, pond, if_neg away, day, if_neg away]
        exact ⟨rfl, rfl⟩
      · rw [countDrawn_today, source]; rfl
      · rw [countDrawn_today, source]
        simp only [ne_eq, reduceCtorEq, not_false_eq_true, true_and]
        rfl
      · rw [countDrawn_today, source]
        simp only [ne_eq, reduceCtorEq, not_false_eq_true, true_and]
        rfl
      · rw [countDrawn_today]; rfl
    | fresh =>
      refine ⟨fun p own => ?_, fun p other => ?_, ?_, ?_, ?_, ?_, previous⟩
      · simp [source] at own
      · rw [countDrawn_pond, countDrawn_today]
        exact ⟨rfl, rfl⟩
      · rw [countDrawn_today, source]; rfl
      · rw [countDrawn_today, source]
        simp only [ne_eq, reduceCtorEq, not_false_eq_true, true_and]
        rfl
      · rw [countDrawn_today, source]
        simp only [ne_eq, reduceCtorEq, not_false_eq_true, true_and]
        rfl
      · rw [countDrawn_today]; rfl

theorem Drawn.within {lost : Bool} {q : Nat} {s t u : State} (h : Drawn lost q s t) (k : Within t u) : Drawn lost q s u := by
  obtain ⟨own, other, fresh, delivered, lost_, day, previous⟩ := h
  simp only [Drawn, k.pond, k.today, k.previous]
  exact ⟨own, other, fresh, delivered, lost_, day, previous⟩

/-- A draw is read off the water alone. -/
theorem Drawn.of_wiu {lost : Bool} {q : Nat} {s g t : State} (h : Drawn lost q g t) (wiu : g.wiu = s.wiu) :
    Drawn lost q s t := by
  have pond : ∀ p, g.pond p = s.pond p := fun p => by rw [State.pond, wiu, State.pond]
  simp only [Drawn, wiu, pond] at h ⊢
  exact h

end

/-! ## What follows -/

/-- Alerts, notices and the owed pass alone. -/
structure Noted (s t : State) : Prop where
  cc : t.cc = s.cc
  sd : t.sd = { s.sd with passDue := t.sd.passDue }
  wiu : t.wiu = s.wiu
  pins : t.pins = s.pins
  within : Within s t

theorem Noted.refl (s : State) : Noted s s := ⟨rfl, rfl, rfl, rfl, .refl s⟩

theorem Noted.trans {s t u : State} (h : Noted s t) (k : Noted t u) : Noted s u where
  cc := k.cc.trans h.cc
  sd := by rw [k.sd, h.sd]
  wiu := k.wiu.trans h.wiu
  pins := k.pins.trans h.pins
  within := h.within.trans k.within

theorem noted_syncAlert (e : AlertId) (s : State) : Noted s (syncAlert e s) :=
  ⟨syncAlert_cc s e, by rw [syncAlert_sd], syncAlert_wiu s e, syncAlert_pins s e, within_syncAlert s e⟩

theorem noted_post (n : Notice) (s : State) : Noted s (post n s) :=
  ⟨post_cc s n, by rw [post_sd], post_wiu s n, post_pins s n, within_post s n⟩

theorem noted_reportUsable (before s : State) : Noted s (reportUsable before s) := by
  refine ⟨?_, ?_, ?_, ?_, within_reportUsable before s⟩ <;> unfold reportUsable <;> split <;> rfl

section
variable {s t : State} (h : Noted s t)
include h

theorem Noted.run (c : Fin 32) : t.run c = s.run c := by rw [State.run, h.sd, State.run]

theorem Noted.orders : t.sd.orders = s.sd.orders := by rw [h.sd]

theorem Noted.beside (c : Fin 32) : Beside c s t :=
  ⟨by rw [State.cannon, h.cc, State.cannon], h.run c, queuedMovement_of_cc (by rw [h.cc]) c, by rw [h.cc]; exact id,
    h.pins⟩

end

theorem noted_waterEvent (f : State → State) (s : State) : Noted (f s) (waterEvent f s) := by
  unfold waterEvent
  generalize f s = u
  exact (noted_syncAlert .noWater u).trans ((noted_syncAlert .waterShort _).trans (noted_reportUsable s _))

/-- The draw leaves the active source unfit: a forced switch follows (R75). -/
def SwitchForced (lost : Bool) (q : Nat) (s : State) : Prop :=
  s.wiu.pump.phase ≠ .off ∧ ∃ src ∈ s.wiu.pump.source, fit s src = true ∧ fit (tapped lost q s) src = false

theorem tapped_pump (lost : Bool) (q : Nat) (s : State) : (tapped lost q s).wiu.pump = s.wiu.pump := by
  obtain ⟨ponds, today, h⟩ := tapped_eq lost q s
  rw [h]

theorem draw_cases (lost : Bool) (q : Nat) (s : State) :
    (SwitchForced lost q s ∧ Noted (forcedSwitch (tapped lost q s)) (draw lost q s)) ∨
    (¬ SwitchForced lost q s ∧ Noted (tapped lost q s) (draw lost q s)) := by
  cases source : s.wiu.pump.source with
  | none =>
    have undrawn : draw lost q s = s := by
      unfold draw
      rw [source]
    rw [tapped_none lost q s source, undrawn]
    refine .inr ⟨fun ⟨_, src, active, _⟩ => ?_, .refl s⟩
    rw [source] at active
    cases active
  | some src =>
    have event : Noted (testFitness s (tapped lost q s)) (draw lost q s) := by
      have drawn : draw lost q s = waterEvent (fun t => testFitness t (countDrawn lost q (debit q src t))) s := by
        unfold draw
        rw [source]
      rw [drawn, tapped_some lost q s source]
      exact noted_waterEvent (fun t => testFitness t (countDrawn lost q (debit q src t))) s
    have pump := tapped_pump lost q s
    have forced : SwitchForced lost q s ↔ (tapped lost q s).wiu.pump.phase ≠ .off ∧ fit s src = true ∧
        fit (tapped lost q s) src = false := by
      simp [SwitchForced, source, pump]
    unfold testFitness at event
    rw [pump, source] at event
    simp only at event
    rw [← pump] at event
    by_cases switches : SwitchForced lost q s
    · rw [if_pos (forced.1 switches)] at event
      exact .inl ⟨switches, event⟩
    · rw [if_neg fun meant => switches (forced.2 meant)] at event
      exact .inr ⟨switches, event⟩

theorem within_draw (lost : Bool) (q : Nat) (s : State) : Within (tapped lost q s) (draw lost q s) := by
  rcases draw_cases lost q s with ⟨-, h⟩ | ⟨-, h⟩
  · exact (within_forcedSwitch _).trans h.within
  · exact h.within

/-! ## The forced switch (R75, R76) -/

/-- The state in which cannons lose the capacity, or do not where the pump set was changing over (R76). -/
theorem giveUpSource_pump (s : State) : (giveUpSource s).wiu.pump = ⟨.off, none, none⟩ := by
  unfold giveUpSource
  split
  · rfl
  · rw [capacityLoss_pump_of_off rfl, setPump_wiu]

theorem noted_forcedSwitch (s : State) : Noted (selectAnew (giveUpSource s)) (forcedSwitch s) :=
  (noted_syncAlert _ _).trans (noted_post _ _)

theorem forcedSwitch_pump {s t : State} (h : Within s t) : (forcedSwitch s).wiu.pump = pumpSwitched s t := by
  have given := within_giveUpSource s
  have mode : (giveUpSource s).mau.mode = s.mau.mode := by rw [given.mau]
  rw [(noted_forcedSwitch s).wiu, selectAnew, pumpSwitched, mode, given.selection, h.selection, given.site]
  split
  · exact giveUpSource_pump s
  · split
    · rfl
    · exact giveUpSource_pump s

theorem selectAnew_beside (c : Fin 32) (s : State) : Beside c s (selectAnew s) := by
  unfold selectAnew
  repeat' split
  all_goals exact ⟨rfl, rfl, rfl, id, rfl⟩

theorem beside_loseCapacityAt {x i : Fin 32} (other : i ≠ x) (s : State) : Beside i s (loseCapacityAt x s) :=
  (apart_loseCapacityAt x s).beside other (within_loseCapacityAt s x).pins

/-- What the switch does at one cannon is what the capacity loss does there, if one is taken (R75, R76, R120). -/
theorem forcedSwitch_at (c : Fin 32) (s : State) :
    (s.wiu.pump.phase = .changeover ∧ Beside c s (forcedSwitch s)) ∨
    (s.wiu.pump.phase ≠ .changeover ∧
      ∃ u, Beside c s u ∧ Beside c (loseCapacityAt c u) (forcedSwitch s)) := by
  have chosen := (selectAnew_beside c (giveUpSource s)).trans ((noted_forcedSwitch s).beside c)
  have off : Beside c s (s.setPump ⟨.off, none, none⟩) := ⟨rfl, rfl, rfl, id, rfl⟩
  unfold giveUpSource at chosen
  split at chosen
  · rename_i changing
    exact .inl ⟨changing, off.trans chosen⟩
  · rename_i steady
    obtain ⟨u, before, after⟩ := forCannons_at (fun x i t other => beside_loseCapacityAt other t) c
      (s.setPump ⟨.off, none, none⟩)
    exact .inr ⟨steady, u, off.trans before, after.trans chosen⟩

end Sys2Proof.Machine
end

