-- ==== Sys2Proof/Proofs/SecondFrames.lean ====
section
/-! SUPPORT. What a delivery second or a lost-water second leaves of the pump set, the orders and the rest of the part,
whatever it does to the valves and the runs (R75, R117, R122). -/

namespace Sys2Proof.Machine

/-! ## A pump set that has been switched stands through the pass -/

/-- The pump set is changing over, or it is OFF and no start request would move it (R71, R75). -/
def Switched (s : State) : Prop :=
  s.wiu.pump.phase = .changeover ∨
    (s.wiu.pump.phase = .off ∧ (s.mau.mode = .standby ∨ selection s = none))

theorem switched_of_pump {s t : State} (h : t.wiu.pump = pumpSwitched s t) (mode : t.mau.mode = s.mau.mode) :
    Switched t := by
  unfold Switched
  rw [h, mode]
  unfold pumpSwitched
  split
  · rename_i standby
    exact .inr ⟨rfl, .inl standby⟩
  · split
    · exact .inl rfl
    · rename_i none
      exact .inr ⟨rfl, .inr none⟩

section
variable {s : State} (h : Switched s)
include h

theorem Switched.not_running : s.wiu.pump.phase ≠ .running := by
  rcases h with h | ⟨h, -⟩ <;> rw [h] <;> simp

theorem Switched.within {t : State} (k : Within s t) (pump : t.wiu.pump = s.wiu.pump) : Switched t := by
  unfold Switched
  rw [pump, k.mau, k.selection]
  exact h

theorem Switched.grantReport : grantReport s = s := by
  unfold Machine.grantReport
  rw [if_neg]
  rcases h with h | ⟨h, -⟩ <;> rw [h] <;> simp

theorem Switched.startRequest : startRequest s = s := by
  unfold Machine.startRequest
  split
  · rename_i off
    rcases h with changing | ⟨-, standby | none⟩
    · rw [changing] at off; cases off.1
    · rw [standby] at off; cases off.2
    · rw [none]
  · rfl

theorem Switched.grantPass_pump : (grantPass s).wiu.pump = s.wiu.pump := by
  have steps : (passSteps s).s.wiu.pump = s.wiu.pump := (granting_passSteps s).pump h.not_running
  have still : Switched (passSteps s).s := h.within (within_passSteps s) steps
  have reports : grantPass s = headerIdle (passSteps s).s := by
    unfold grantPass
    simp only [still.grantReport, ite_self, still.startRequest]
  rw [reports, (closeKeeps_headerIdle _).pump still.not_running, steps]

end

theorem Switched.inEvent_pump {f : State → State} {s : State} (h : Switched (f (s.setPass false))) :
    (inEvent f s).wiu.pump = (f (s.setPass false)).wiu.pump := by
  rcases inEvent_cases s f with e | e
  · rw [e]
  · rw [e]
    exact h.grantPass_pump

/-! ## What orders have delivered -/

/-- No order has been given or taken water, nor emptied from its slot or put there. -/
def OrdersHeld (s t : State) : Prop :=
  ∀ k, (t.order k).map (fun o => (o.delivered, o.volume)) = (s.order k).map fun o => (o.delivered, o.volume)

theorem ordersHeld_of_orders {s t : State} (h : t.sd.orders = s.sd.orders) : OrdersHeld s t := fun k => by
  rw [order_of_orders h]

theorem sprayRules_ordersHeld : SprayRules OrdersHeld where
  refl _ _ := rfl
  trans h k i := (k i).trans (h i)
  run _ _ _ _ := rfl
  complete s k i := by
    rcases completeIfDone_cases k s with ⟨o, ho, -, -, h⟩ | ⟨h, -⟩
    · rw [h, post_order, setOrder_order]
      split
      · rename_i same
        rw [same, ho, if_pos (slot_of_order ho)]
        rfl
      · rfl
    · rw [h]
  suspensions _ _ _ := rfl
  pass _ _ _ := rfl
  pump _ _ _ := rfl
  queue _ _ _ := rfl
  slot _ _ _ := rfl
  demand _ _ _ _ := rfl
  post s n i := by rw [post_order]
  phase s c x n l _ i := by rw [State.order, enterPhase_sd, State.order]

theorem ordersHeld_forcedSwitch (s : State) : OrdersHeld s (forcedSwitch s) := by
  have given : OrdersHeld s (giveUpSource s) := by
    unfold giveUpSource
    split
    · exact fun _ => rfl
    · exact sprayRules_ordersHeld.trans (t := s.setPump ⟨.off, none, none⟩) (fun _ => rfl)
        (sprayRules_ordersHeld.capacityLoss _)
  have chosen : OrdersHeld (giveUpSource s) (selectAnew (giveUpSource s)) := by
    refine ordersHeld_of_orders ?_
    unfold selectAnew
    repeat' split
    all_goals rfl
  exact sprayRules_ordersHeld.trans given
    (sprayRules_ordersHeld.trans chosen (ordersHeld_of_orders (noted_forcedSwitch s).orders))

theorem tapped_sd (lost : Bool) (q : Nat) (s : State) : (tapped lost q s).sd = s.sd := by
  obtain ⟨ponds, today, h⟩ := tapped_eq lost q s
  rw [h]

theorem ordersHeld_draw (lost : Bool) (q : Nat) (s : State) : OrdersHeld s (draw lost q s) := by
  have taken : OrdersHeld s (tapped lost q s) := ordersHeld_of_orders (by rw [tapped_sd])
  rcases draw_cases lost q s with ⟨-, h⟩ | ⟨-, h⟩
  · exact sprayRules_ordersHeld.trans taken
      (sprayRules_ordersHeld.trans (ordersHeld_forcedSwitch _) (ordersHeld_of_orders h.orders))
  · exact sprayRules_ordersHeld.trans taken (ordersHeld_of_orders h.orders)

/-! ## Frames -/

theorem SprayFrame.trans {s t u : State} (h : SprayFrame s t) (k : SprayFrame t u) : SprayFrame s u := by
  obtain ⟨pins, yc, wfe, ft, bwu, site, machines, countdown, pending, free, lc, mau⟩ := h
  obtain ⟨pins', yc', wfe', ft', bwu', site', machines', countdown', pending', free', lc', mau'⟩ := k
  exact ⟨pins'.trans pins, yc'.trans yc, wfe'.trans wfe, ft'.trans ft, bwu'.trans bwu, site'.trans site,
    machines'.trans machines, countdown'.trans countdown, pending'.trans pending, free'.trans free,
    by rw [lc', lc], by rw [mau', mau]⟩

theorem Within.sprayFrame {s t : State} (h : Within s t) : SprayFrame s t :=
  ⟨h.pins, h.yc, h.wfe, h.ft, h.bwu, h.site, h.machines, h.assessment, h.pending, h.freeCount, h.lc, h.mau⟩

theorem sprayFrame_tapped (lost : Bool) (q : Nat) (s : State) : SprayFrame s (tapped lost q s) := by
  obtain ⟨ponds, today, h⟩ := tapped_eq lost q s
  rw [h]
  exact ⟨rfl, rfl, rfl, rfl, rfl, rfl, rfl, rfl, rfl, rfl, rfl, rfl⟩

theorem tapped_pile (lost : Bool) (q : Nat) (s : State) (p : Fin 24) : (tapped lost q s).pile p = s.pile p := by
  obtain ⟨ponds, today, h⟩ := tapped_eq lost q s
  rw [h]
  rfl

theorem tapped_cc (lost : Bool) (q : Nat) (s : State) : (tapped lost q s).cc = s.cc := by
  obtain ⟨ponds, today, h⟩ := tapped_eq lost q s
  rw [h]

theorem beside_tapped (c : Fin 32) (lost : Bool) (q : Nat) (s : State) : Beside c s (tapped lost q s) := by
  obtain ⟨ponds, today, h⟩ := tapped_eq lost q s
  rw [h]
  exact ⟨rfl, rfl, rfl, id, rfl⟩

/-- The pump set that a draw has switched (R75, R76). -/
theorem draw_pump {lost : Bool} {q : Nat} {s t : State} (forced : SwitchForced lost q s)
    (left : Within (tapped lost q s) t) : (draw lost q s).wiu.pump = pumpSwitched s t := by
  have same : pumpSwitched (tapped lost q s) t = pumpSwitched s t := by
    obtain ⟨-, -, -, -, -, site, -, -, -, -, -, mau⟩ := sprayFrame_tapped lost q s
    unfold pumpSwitched
    rw [site, mau]
  rcases draw_cases lost q s with ⟨-, noted⟩ | ⟨unforced, -⟩
  · rw [noted.wiu, forcedSwitch_pump left, same]
  · exact absurd forced unforced

theorem pumpSwitched_not_running (s t : State) : (pumpSwitched s t).phase ≠ .running := by
  unfold pumpSwitched
  split
  · simp
  · split <;> simp

/-! ## The credits of a delivery second (R40, R117) -/

/-- The run with a second's water added and its delivery countdown restarted. -/
def Run.served (r : Run) (q : Nat) : Run :=
  { r with delivered := r.delivered + q, phase := r.phase.withDelivery (some Config.ticksPerSecond) }

/-- Run, pile and order credited with q dL. -/
def credited (c : Fin 32) (r : Run) (q : Nat) (s : State) : State :=
  creditOrder r.origin q (creditPile r.pile q (s.setRun c (some (r.served q))))

/-- What one second delivers through the cannon. -/
abbrev secondOf (c : Fin 32) (s : State) : Nat := (s.cannon c).config.flow

theorem deliver_eq (c : Fin 32) (r : Run) (s : State) : deliver c r s =
    draw false (secondOf c s) (credited c r (secondOf c s) s) := rfl

section
variable (c : Fin 32) (r : Run) (q : Nat) (s : State)

/-- The runs, the orders and the piles alone change. -/
theorem credited_eq : ∃ orders piles, credited c r q s =
    { s with
      sd := { s.sd with runs := s.sd.runs.set c (some (r.served q)), orders := orders }
      pau := { s.pau with piles := piles } } := by
  have pile : ∀ t : State, ∃ piles, creditPile r.pile q t = { t with pau := { t.pau with piles := piles } } := fun t => by
    unfold creditPile
    simp only
    split
    · exact ⟨_, rfl⟩
    · exact ⟨t.pau.piles, rfl⟩
  have order : ∀ t : State, ∃ orders, creditOrder r.origin q t = { t with sd := { t.sd with orders := orders } } :=
    fun t => by
      unfold creditOrder
      split
      · split
        · split
          · exact ⟨_, rfl⟩
          · exact ⟨t.sd.orders, rfl⟩
        · exact ⟨t.sd.orders, rfl⟩
      · exact ⟨t.sd.orders, rfl⟩
      · exact ⟨t.sd.orders, rfl⟩
  obtain ⟨piles, hp⟩ := pile (s.setRun c (some (r.served q)))
  obtain ⟨orders, ho⟩ := order (creditPile r.pile q (s.setRun c (some (r.served q))))
  rw [credited, ho, hp]
  exact ⟨orders, piles, rfl⟩

theorem sprayFrame_credited : SprayFrame s (credited c r q s) := by
  obtain ⟨orders, piles, h⟩ := credited_eq c r q s
  rw [h]
  exact ⟨rfl, rfl, rfl, rfl, rfl, rfl, rfl, rfl, rfl, rfl, rfl, rfl⟩

theorem credited_cc : (credited c r q s).cc = s.cc := by
  obtain ⟨orders, piles, h⟩ := credited_eq c r q s
  rw [h]

theorem credited_wiu : (credited c r q s).wiu = s.wiu := by
  obtain ⟨orders, piles, h⟩ := credited_eq c r q s
  rw [h]

theorem credited_site : (credited c r q s).site = s.site := by
  obtain ⟨orders, piles, h⟩ := credited_eq c r q s
  rw [h]

theorem credited_run (i : Fin 32) : (credited c r q s).run i = if i = c then some (r.served q) else s.run i := by
  obtain ⟨orders, piles, h⟩ := credited_eq c r q s
  rw [h]
  exact Table.get_set _ _ _ _

theorem beside_credited {i : Fin 32} (other : i ≠ c) : Beside i s (credited c r q s) := by
  obtain ⟨orders, piles, h⟩ := credited_eq c r q s
  refine ⟨?_, by rw [credited_run, if_neg other], ?_, ?_, ?_⟩
  · rw [State.cannon, credited_cc, State.cannon]
  · exact queuedMovement_of_cc (by rw [credited_cc]) i
  · rw [credited_cc]; exact id
  · rw [h]

theorem creditOrder_pile (x : Origin) (p : Fin 24) : (creditOrder x q s).pile p = s.pile p := by
  unfold creditOrder
  repeat' split
  all_goals rfl

theorem creditPile_pile (x p : Fin 24) : (creditPile x q s).pile p =
    if p = x ∧ (s.pile p).configured = true then
      { s.pile p with
        pendingSpray := (s.pile p).pendingSpray + q
        deliveredToday := min ((s.pile p).deliveredToday + q) 4294967295 }
    else s.pile p := by
  unfold creditPile
  by_cases configured : (s.pile x).configured = true
  · rw [if_pos configured, setPile_pile]
    by_cases own : p = x
    · subst own
      rw [if_pos rfl, if_pos ⟨rfl, configured⟩]
    · rw [if_neg own, if_neg fun both => own both.1]
  · rw [if_neg configured, if_neg]
    rintro ⟨rfl, is⟩
    exact configured is

theorem credited_pile (p : Fin 24) : (credited c r q s).pile p =
    if p = r.pile ∧ (s.pile p).configured = true then
      { s.pile p with
        pendingSpray := (s.pile p).pendingSpray + q
        deliveredToday := min ((s.pile p).deliveredToday + q) 4294967295 }
    else s.pile p := by
  rw [credited, creditOrder_pile, creditPile_pile]
  rfl

theorem creditPile_order (p : Fin 24) (k : Nat) : (creditPile p q s).order k = s.order k := by
  unfold creditPile
  simp only
  split <;> rfl

/-- The order with a second's water added, while it is OPEN (R117). -/
def Order.served (o : Order) (q : Nat) : Order :=
  { o with delivered := o.delivered + if o.closure.isNone then q else 0 }

theorem Order.served_of_closed {o : Order} (h : o.closure.isNone = false) : o.served q = o := by
  unfold Order.served
  rw [h]
  rfl

theorem Order.served_of_open {o : Order} (h : o.closure.isNone = true) :
    o.served q = { o with delivered := o.delivered + q } := by
  unfold Order.served
  rw [h]
  rfl

theorem creditOrder_order (j k : Nat) : (creditOrder (.order j) q s).order k =
    if k = j then (s.order k).map (fun o => o.served q) else s.order k := by
  cases found : s.order j with
  | none =>
    simp only [creditOrder, found]
    split
    · rename_i own; rw [own, found]; rfl
    · rfl
  | some o =>
    cases open_ : o.closure.isNone with
    | true =>
      simp only [creditOrder, found, open_, if_true]
      rw [setOrder_order, if_pos (slot_of_order found)]
      split
      · rename_i own; rw [own, found, Option.map_some, Order.served_of_open q open_]
      · rfl
    | false =>
      simp only [creditOrder, found, open_, Bool.false_eq_true, if_false]
      split
      · rename_i own; rw [own, found, Option.map_some, Order.served_of_closed q open_]
      · rfl

theorem credited_order {j : Nat} (h : r.origin = .order j) (k : Nat) : (credited c r q s).order k =
    if k = j then (s.order k).map (fun o => o.served q) else s.order k := by
  rw [credited, h, creditOrder_order, creditPile_order]
  rfl

end

end Sys2Proof.Machine
end

