-- ==== Sys2Proof/Proofs/OpenValves.lean ====
section
/-! SUPPORT. Cannons whose valve stands open while the second is counted: what a capacity loss, an end and the target
test make of such a cannon and its run (R92, R114, R118, R120). -/

namespace Sys2Proof.Machine

/-- The valve stands open, by its feedback and its cannon's state. -/
structure ValveOpen (c : Fin 32) (s : State) : Prop where
  phase : (s.cannon c).phase = .spraying ∨ (s.cannon c).phase = .closePending ∨ (s.cannon c).phase = .closing
  feedback : feedbackOpen s c = true

theorem ValveOpen.beside {c : Fin 32} {s t : State} (h : ValveOpen c s) (k : Beside c s t) : ValveOpen c t :=
  ⟨by rw [k.cannon]; exact h.phase, k.feedback.trans h.feedback⟩

theorem ValveOpen.not_ready {c : Fin 32} {s : State} (h : ValveOpen c s) : ¬ (s.cannon c).Ready := fun ready => by
  rcases h.phase with phase | phase | phase <;> rw [ready.1] at phase <;> cases phase

section
variable {c : Fin 32} {s : State} {r : Run} {d : Disposition} {n : Option Nat}

theorem feedback_of_within {t : State} (h : Within s t) : feedbackOpen t c = feedbackOpen s c := by
  rw [feedbackOpen, h.pins, feedbackOpen]

/-- An immediate close over an open valve (R92, R93). -/
theorem immediateClose_open (run : s.run c = some r) (phase : r.phase = .active d n)
    (cannon : (s.cannon c).phase = .spraying ∨ (s.cannon c).phase = .closePending) (open_ : feedbackOpen s c = true) :
    ((immediateClose c s).cannon c).phase = .closing ∧
      (immediateClose c s).run c = some { r with phase := .active d none } := by
  have event : immediateClose c s = commandClose c (removeEntry c s) := by
    have shown : feedbackOpen (removeEntry c s) c = true := open_
    unfold immediateClose beginClose
    rcases cannon with h | h <;> simp only [h, shown, if_true]
  rw [event]
  refine ⟨by rw [commandClose_cannon], ?_⟩
  rw [commandClose, enterPhase_run, stopDelivery, updateRun_run, if_pos rfl]
  have found : (removeEntry c s).run c = some r := run
  rw [found, Option.map_some, phase]
  rfl

/-- The disposition that a capacity loss leaves an open valve's run with (R120). -/
def lossDisposition (x : CannonPhase) (d : Disposition) : Disposition :=
  if x = .closePending ∨ d = .ends then .ends else .suspend .flow

theorem loseCapacityAt_open (run : s.run c = some r) (phase : r.phase = .active d n)
    (cannon : (s.cannon c).phase = .spraying ∨ (s.cannon c).phase = .closePending) (open_ : feedbackOpen s c = true) :
    ((loseCapacityAt c s).cannon c).phase = .closing ∧ (loseCapacityAt c s).run c =
      some { r with phase := .active (lossDisposition (s.cannon c).phase d) none } := by
  have event : loseCapacityAt c s = immediateClose c (setDisposition c
      (if (s.cannon c).phase = .closePending then .ends else .suspend .flow) s) := by
    have active : r.isSuspended = false := by simp [Run.isSuspended, phase]
    unfold loseCapacityAt
    simp only [run, active, Bool.false_eq_true, if_false]
    rcases cannon with h | h <;> simp [h]
  have disposed : (setDisposition c (if (s.cannon c).phase = .closePending then .ends else .suspend .flow) s).run c =
      some { r with phase := .active (lossDisposition (s.cannon c).phase d) n } := by
    rw [setDisposition, updateRun_run, if_pos rfl, run, Option.map_some, phase]
    rcases cannon with h | h <;> rw [h] <;> cases d <;> rfl
  have close := immediateClose_open disposed rfl (by rw [setDisposition_cannon]; exact cannon)
    ((feedback_of_within (within_setDisposition s c _)).trans open_)
  rw [event]
  exact close

/-- A cannon in CLOSING is left to it (R120). -/
theorem loseCapacityAt_closing (closing : (s.cannon c).phase = .closing) : loseCapacityAt c s = s := by
  unfold loseCapacityAt
  split
  · rfl
  · split
    · rfl
    · rw [closing]

/-- The run that an open valve's cannon carries through a capacity loss. -/
theorem valveOpen_loseCapacityAt (h : ValveOpen c s) (run : s.run c = some r) (phase : r.phase = .active d n) :
    ValveOpen c (loseCapacityAt c s) ∧
      ∃ e m, (loseCapacityAt c s).run c = some { r with phase := .active e m } := by
  have feedback := (feedback_of_within (within_loseCapacityAt s c)).trans h.feedback
  rcases h.phase with spraying | pending | closing
  · obtain ⟨closed, kept⟩ := loseCapacityAt_open run phase (.inl spraying) h.feedback
    exact ⟨⟨.inr (.inr closed), feedback⟩, _, _, kept⟩
  · obtain ⟨closed, kept⟩ := loseCapacityAt_open run phase (.inr pending) h.feedback
    exact ⟨⟨.inr (.inr closed), feedback⟩, _, _, kept⟩
  · rw [loseCapacityAt_closing closing]
    exact ⟨h, d, n, by rw [run, ← phase]⟩

/-- A run has its forced switch behind it: it is still the run that it was, of an open valve. -/
theorem valveOpen_forcedSwitch (h : ValveOpen c s) (run : s.run c = some r) (phase : r.phase = .active d n) :
    ValveOpen c (forcedSwitch s) ∧ ∃ e m, (forcedSwitch s).run c = some { r with phase := .active e m } := by
  rcases forcedSwitch_at c s with ⟨-, same⟩ | ⟨-, u, before, after⟩
  · exact ⟨h.beside same, d, n, by rw [same.run, run, ← phase]⟩
  · obtain ⟨open_, e, m, kept⟩ := valveOpen_loseCapacityAt (h.beside before) (before.run.trans run) phase
    exact ⟨open_.beside after, e, m, after.run.trans kept⟩

/-- A close requested where the valve is on its way closed (R91). -/
theorem queuedClose_of_closing (h : (s.cannon c).phase = .closePending ∨ (s.cannon c).phase = .closing) :
    queuedClose c s = s := by
  unfold queuedClose
  rcases h with h | h <;> rw [h]

/-- An end decided for the run of an open valve: the run stays with END, and the valve is still open (R114). -/
theorem valveOpen_queuedClose (h : ValveOpen c s) (run : RunEnding c r n s) :
    ValveOpen c (queuedClose c s) ∧ ∃ m, RunEnding c r m (queuedClose c s) := by
  have feedback := (feedback_of_within (within_queuedClose s c)).trans h.feedback
  rcases h.phase with spraying | closing
  · rcases ending_queuedClose_spraying run spraying h.feedback with ⟨pending, kept, -⟩ | ⟨-, closed, kept⟩
    · exact ⟨⟨.inr (.inl pending), feedback⟩, n, kept⟩
    · exact ⟨⟨.inr (.inr closed), feedback⟩, none, kept⟩
  · rw [queuedClose_of_closing closing]
    exact ⟨h, n, run⟩

theorem valveOpen_decideEnd (h : ValveOpen c s) (run : s.run c = some r) (phase : r.phase = .active d n) :
    ValveOpen c (decideEnd c s) ∧ ∃ m, RunEnding c r m (decideEnd c s) := by
  rw [decideEnd_of_active run phase]
  refine valveOpen_queuedClose ⟨?_, ?_⟩ (setDisposition_ends run phase)
  · rw [setDisposition_cannon]; exact h.phase
  · exact (feedback_of_within (within_setDisposition s c .ends)).trans h.feedback

/-! ## The target test (R118) -/

theorem targetTest_of_short (run : s.run c = some r) (short : r.delivered < r.target) : targetTest c s = s := by
  unfold targetTest
  rw [run]
  simp only
  split
  · rfl
  · exact if_neg (Nat.not_le.2 short)
  · rfl

theorem targetTest_of_ends (run : s.run c = some r) (phase : r.phase = .active .ends n) : targetTest c s = s := by
  unfold targetTest
  rw [run]
  simp only [phase]

theorem targetTest_of_reached (run : s.run c = some r) (phase : r.phase = .active d n) (goes : d ≠ .ends)
    (reached : r.target ≤ r.delivered) : targetTest c s = queuedClose c (setDisposition c .ends s) := by
  unfold targetTest
  rw [run]
  simp only [phase]
  cases d with
  | ends => exact absurd rfl goes
  | none | suspend x => exact if_pos reached

theorem apart_targetTest (c : Fin 32) (s : State) : Apart c s (targetTest c s) := by
  have closes : Apart c s (queuedClose c (setDisposition c .ends s)) :=
    (apart_updateRun c s _).trans (apart_queuedClose c _)
  unfold targetTest
  repeat' split
  · exact .refl c s
  · exact .refl c s
  · exact closes
  · exact .refl c s
  · exact .refl c s

theorem closeKeeps_targetTest (c : Fin 32) (s : State) : CloseKeeps s (targetTest c s) := by
  have closes : CloseKeeps s (queuedClose c (setDisposition c .ends s)) :=
    (closeKeeps_updateRun c s _).trans (closeKeeps_queuedClose c _)
  unfold targetTest
  repeat' split
  · exact .refl s
  · exact .refl s
  · exact closes
  · exact .refl s
  · exact .refl s

end

end Sys2Proof.Machine
end

