-- ==== Sys2Proof/Proofs/DeliverySeconds.lean ====
section
/-! SUPPORT. One delivery second at its own cannon (R117, R118): the water added, the forced switch and the target test
that follow, and what the rest of the event leaves of it. -/

namespace Sys2Proof.Machine

/-- A run is served a second: its countdown has come to its end and its valve stands open (R117). -/
structure Serves (c : Fin 32) (r : Run) (d : Disposition) (s : State) : Prop where
  run : s.run c = some r
  phase : ∃ n, r.phase = .active d (some n)
  cannon : (s.cannon c).phase = .spraying ∨ (s.cannon c).phase = .closePending
  feedback : feedbackOpen s c = true

/-- The run with the second added and the given phase. -/
def Run.after (r : Run) (q : Nat) (p : RunPhase) : Run := { r with delivered := r.delivered + q, phase := p }

section
variable {c : Fin 32} {r : Run} {d : Disposition} {s : State} (h : Serves c r d s)
include h

theorem Serves.served (q : Nat) : r.served q = r.after q (.active d (some Config.ticksPerSecond)) := by
  obtain ⟨n, phase⟩ := h.phase
  unfold Run.served Run.after
  rw [phase]
  rfl

theorem Serves.valveOpen : ValveOpen c s := ⟨h.cannon.imp id .inl, h.feedback⟩

/-- The state after the credits, before the draw's tests. -/
theorem Serves.credited_own : (credited c r (secondOf c s) s).run c = some (r.served (secondOf c s)) ∧
    (credited c r (secondOf c s) s).cannon c = s.cannon c ∧
    queuedMovement (credited c r (secondOf c s) s) c = queuedMovement s c ∧
    feedbackOpen (credited c r (secondOf c s) s) c = true ∧ (credited c r (secondOf c s) s).cc.slot = s.cc.slot := by
  have cc := credited_cc c r (secondOf c s) s
  refine ⟨by rw [credited_run, if_pos rfl], by rw [State.cannon, cc, State.cannon],
    queuedMovement_of_cc (by rw [cc]) c, ?_, by rw [cc]⟩
  rw [feedbackOpen, (sprayFrame_credited c r _ s).1, ← h.feedback, feedbackOpen]

end

/-- The own cannon after the second and its two tests: as it was, with the run served; the run with END and its close
requested; or the valve closed at once by a forced switch. -/
inductive SecondOutcome (c : Fin 32) (r : Run) (d : Disposition) (s t : State) : Prop
  | stands (cannon : t.cannon c = s.cannon c) (goes : r.target ≤ r.delivered + secondOf c s → d = .ends)
      (run : t.run c = some (r.after (secondOf c s) (.active d (some Config.ticksPerSecond))))
  | pending (reached : r.target ≤ r.delivered + secondOf c s) (phase : (t.cannon c).phase = .closePending)
      (run : t.run c = some (r.after (secondOf c s) (.active .ends (some Config.ticksPerSecond))))
      (queued : (s.cannon c).phase = .spraying → queuedMovement s c = none → queuedMovement t c = some .closes)
  | issued (reached : r.target ≤ r.delivered + secondOf c s) (free : s.cc.slot = none)
      (phase : (t.cannon c).phase = .closing)
      (run : t.run c = some (r.after (secondOf c s) (.active .ends none)))
  | switched (forced : SwitchForced false (secondOf c s) (credited c r (secondOf c s) s))
      (phase : (t.cannon c).phase = .closing)
      (run : t.run c = some (r.after (secondOf c s) (.active
        (if r.target ≤ r.delivered + secondOf c s ∨ d = .ends ∨ (s.cannon c).phase = .closePending then .ends
          else .suspend .flow) none)))

theorem SecondOutcome.beside {c : Fin 32} {r : Run} {d : Disposition} {s t u : State} (h : SecondOutcome c r d s t)
    (cannon : u.cannon c = t.cannon c) (run : u.run c = t.run c) (queued : queuedMovement u c = queuedMovement t c) :
    SecondOutcome c r d s u := by
  cases h with
  | stands same goes kept => exact .stands (cannon.trans same) goes (run.trans kept)
  | pending reached phase kept joins =>
    exact .pending reached (by rw [cannon]; exact phase) (run.trans kept) fun spraying waits =>
      queued.trans (joins spraying waits)
  | issued reached free phase kept => exact .issued reached free (by rw [cannon]; exact phase) (run.trans kept)
  | switched forced phase kept => exact .switched forced (by rw [cannon]; exact phase) (run.trans kept)

/-- Where the forced switch has closed the valve, the target test still gives the run END. -/
theorem targetTest_switched {c : Fin 32} {r : Run} {d : Disposition} {q : Nat} {x : CannonPhase} {u : State}
    (closing : (u.cannon c).phase = .closing)
    (run : u.run c = some (r.after q (.active (lossDisposition x d) none))) :
    ((targetTest c u).cannon c).phase = .closing ∧ (targetTest c u).run c =
      some (r.after q (.active
        (if r.target ≤ r.delivered + q ∨ d = .ends ∨ x = .closePending then .ends else .suspend .flow) none)) := by
  by_cases short : r.delivered + q < r.target
  · rw [targetTest_of_short run short]
    refine ⟨closing, run.trans ?_⟩
    simp only [lossDisposition, Nat.not_le.2 short, false_or, or_comm]
  · have reached := Nat.not_lt.1 short
    rw [if_pos (.inl reached)]
    by_cases ends : lossDisposition x d = .ends
    · rw [ends] at run
      rw [targetTest_of_ends run rfl]
      exact ⟨closing, run⟩
    · rw [targetTest_of_reached run rfl ends reached]
      have going : ((setDisposition c .ends u).cannon c).phase = .closing := by rw [setDisposition_cannon, closing]
      rw [queuedClose_of_closing (.inr going)]
      exact ⟨going, setDisposition_ends run rfl⟩

section
variable {c : Fin 32} {r : Run} {d : Disposition} {s : State} (h : Serves c r d s)
include h

/-- Where no switch closes the valve, the draw leaves the cannon alone, and the target test may end the run. -/
theorem Serves.outcome_kept {u : State} (same : Beside c (credited c r (secondOf c s) s) u) :
    SecondOutcome c r d s (targetTest c u) := by
  obtain ⟨run, cannon, queued, feedback, slot⟩ := h.credited_own
  have served : u.run c = some (r.after (secondOf c s) (.active d (some Config.ticksPerSecond))) :=
    (same.run.trans run).trans (congrArg some (h.served _))
  have stood : u.cannon c = s.cannon c := same.cannon.trans cannon
  have shown : feedbackOpen u c = true := same.feedback.trans feedback
  by_cases short : r.delivered + secondOf c s < r.target
  · rw [targetTest_of_short served short]
    exact .stands stood (fun reached => absurd short (Nat.not_lt.2 reached)) served
  · by_cases ends : d = .ends
    · subst ends
      rw [targetTest_of_ends served rfl]
      exact .stands stood (fun _ => rfl) served
    · have reached := Nat.not_lt.1 short
      rw [targetTest_of_reached served rfl ends reached]
      have ending := setDisposition_ends served rfl
      have marked := setDisposition_cannon c c .ends u
      have cc : (setDisposition c .ends u).cc = u.cc := updateRun_cc _ _ _
      have waits : queuedMovement (setDisposition c .ends u) c = queuedMovement s c :=
        (queuedMovement_of_cc (by rw [cc]) c).trans (same.queued.trans queued)
      have free : (setDisposition c .ends u).cc.slot = none → s.cc.slot = none := fun none => by
        rw [cc] at none
        rw [← slot]
        exact same.slot none
      rcases h.cannon with spraying | pending
      · rcases ending_queuedClose_spraying ending (by rw [marked, stood, spraying])
          ((feedback_of_within (within_setDisposition u c .ends)).trans shown) with
          ⟨phase, kept, joins⟩ | ⟨none, phase, kept⟩
        · exact .pending reached phase kept fun _ idle => joins (waits.trans idle)
        · exact .issued reached (free none) phase kept
      · have going : ((setDisposition c .ends u).cannon c).phase = .closePending := by rw [marked, stood, pending]
        rw [queuedClose_of_closing (.inl going)]
        exact .pending reached going ending fun spraying => by rw [pending] at spraying; cases spraying

/-- A forced switch that takes the capacity closes the valve at once (R75, R120). -/
theorem Serves.switched (forced : SwitchForced false (secondOf c s) (credited c r (secondOf c s) s))
    (steady : s.wiu.pump.phase ≠ .changeover) :
    ((targetTest c (deliver c r s)).cannon c).phase = .closing ∧ (targetTest c (deliver c r s)).run c =
      some (r.after (secondOf c s) (.active
        (if r.target ≤ r.delivered + secondOf c s ∨ d = .ends ∨ (s.cannon c).phase = .closePending then .ends
          else .suspend .flow) none)) := by
  obtain ⟨run, cannon, -, feedback, -⟩ := h.credited_own
  have tap := beside_tapped c false (secondOf c s) (credited c r (secondOf c s) s)
  have pump : (tapped false (secondOf c s) (credited c r (secondOf c s) s)).wiu.pump = s.wiu.pump := by
    rw [tapped_pump, credited_wiu]
  rw [deliver_eq]
  rcases draw_cases false (secondOf c s) (credited c r (secondOf c s) s) with ⟨-, noted⟩ | ⟨unforced, -⟩
  · rcases forcedSwitch_at c (tapped false (secondOf c s) (credited c r (secondOf c s) s)) with
      ⟨changing, -⟩ | ⟨-, v, before, after⟩
    · rw [pump] at changing
      exact absurd changing steady
    · have reach := tap.trans before
      have found : v.run c = some (r.after (secondOf c s) (.active d (some Config.ticksPerSecond))) :=
        (reach.run.trans run).trans (congrArg some (h.served _))
      have stood : v.cannon c = s.cannon c := reach.cannon.trans cannon
      obtain ⟨closing, kept⟩ := loseCapacityAt_open found rfl (by rw [stood]; exact h.cannon)
        (reach.feedback.trans feedback)
      have rest := after.trans (noted.beside c)
      rw [stood] at kept
      exact targetTest_switched (by rw [rest.cannon]; exact closing) (rest.run.trans kept)
  · exact absurd forced unforced

theorem Serves.outcome : SecondOutcome c r d s (targetTest c (deliver c r s)) := by
  have tap := beside_tapped c false (secondOf c s) (credited c r (secondOf c s) s)
  have pump : (tapped false (secondOf c s) (credited c r (secondOf c s) s)).wiu.pump = s.wiu.pump := by
    rw [tapped_pump, credited_wiu]
  rcases draw_cases false (secondOf c s) (credited c r (secondOf c s) s) with ⟨forced, noted⟩ | ⟨-, noted⟩
  · rcases forcedSwitch_at c (tapped false (secondOf c s) (credited c r (secondOf c s) s)) with
      ⟨-, same⟩ | ⟨steady, -⟩
    · rw [deliver_eq]
      exact h.outcome_kept ((tap.trans same).trans (noted.beside c))
    · rw [pump] at steady
      obtain ⟨closing, run⟩ := h.switched forced steady
      exact .switched forced closing run
  · rw [deliver_eq]
    exact h.outcome_kept (tap.trans (noted.beside c))

/-! ## The rest of the event -/

end

/-- A delivery second: the additions, the target test, and the ends of a full order's other runs (R117, R118). -/
theorem deliveryStep_eq {c : Fin 32} {r : Run} {d : Disposition} {s : State} (h : Serves c r d s) :
    deliveryStep c s = targetTest c (deliver c r s) ∨
    ∃ k, r.origin = .order k ∧ deliveryStep c s = endOthers k c (targetTest c (deliver c r s)) := by
  obtain ⟨n, phase⟩ := h.phase
  unfold deliveryStep
  rw [h.run]
  simp only [phase]
  cases r.origin with
  | order k =>
    simp only
    split
    · exact .inr ⟨k, rfl, rfl⟩
    · exact .inl rfl
  | auto | detached => exact .inl rfl

end Sys2Proof.Machine
end

