-- ==== Sys2Proof/Proofs/SecondEvents.lean ====
section
/-! SUPPORT. The event of a delivery second as a whole: its frames, its cannon, its order and its pump set (R75, R117,
R118). -/

namespace Sys2Proof.Machine

section
variable {c : Fin 32} {r : Run} {d : Disposition} {s : State} (h : Serves c r d s)
include h

/-- Everything after the water is taken and counted is the valves' and the runs' work. -/
theorem Serves.within_step : Within (tapped false (secondOf c s) (credited c r (secondOf c s) s)) (deliveryStep c s) := by
  have tested : Within (tapped false (secondOf c s) (credited c r (secondOf c s) s)) (targetTest c (deliver c r s)) := by
    rw [deliver_eq]
    exact (within_draw _ _ _).trans (within_targetTest _ c)
  rcases deliveryStep_eq h with e | ⟨k, -, e⟩
  · rw [e]; exact tested
  · rw [e]; exact tested.trans (within_endOthers _ k c)

/-- The ends of the order's other runs are decided beside the own cannon. -/
theorem Serves.step_beside : Beside c (targetTest c (deliver c r s)) (deliveryStep c s) := by
  rcases deliveryStep_eq h with e | ⟨k, -, e⟩
  · rw [e]
    exact .refl c _
  · rw [e, endOthers_eq]
    exact (endWhere_at (fun x y => decide (x ≠ c ∧ y.origin = .order k)) c _).2 fun y _ => by simp

theorem Serves.outcome_step : SecondOutcome c r d s (deliveryStep c s) :=
  h.outcome.beside h.step_beside.cannon h.step_beside.run h.step_beside.queued

theorem SecondOutcome.not_ready {t : State} (k : SecondOutcome c r d s t) : ¬ (t.cannon c).Ready := by
  rintro ⟨idle, -⟩
  cases k with
  | stands cannon =>
    rw [cannon] at idle
    rcases h.cannon with phase | phase <;> rw [phase] at idle <;> cases idle
  | pending _ phase => rw [phase] at idle; cases idle
  | issued _ _ phase => rw [phase] at idle; cases idle
  | switched _ phase => rw [phase] at idle; cases idle

/-- The tests after the draw leave a pump set alone that is not in RUNNING. -/
theorem Serves.step_closeKeeps : CloseKeeps (deliver c r s) (deliveryStep c s) := by
  have tested := closeKeeps_targetTest c (deliver c r s)
  rcases deliveryStep_eq h with e | ⟨k, -, e⟩
  · rw [e]; exact tested
  · rw [e, endOthers_eq]; exact tested.trans (closeKeeps_endWhere _ _)

theorem Serves.ordersHeld_step : OrdersHeld (credited c r (secondOf c s) s) (deliveryStep c s) := by
  have tested : OrdersHeld (credited c r (secondOf c s) s) (targetTest c (deliver c r s)) := by
    rw [deliver_eq]
    exact sprayRules_ordersHeld.trans (ordersHeld_draw _ _ _) (sprayRules_ordersHeld.targetTest _ c)
  rcases deliveryStep_eq h with e | ⟨k, -, e⟩
  · rw [e]; exact tested
  · rw [e]; exact sprayRules_ordersHeld.trans tested (sprayRules_ordersHeld.endOthers _ k c)

end

/-! ## With the pass -/

/-- The event as a request-free expiry finds it: no pass is owed yet. -/
theorem Serves.setPass {c : Fin 32} {r : Run} {d : Disposition} {s : State} (h : Serves c r d s) :
    Serves c r d (s.setPass false) := ⟨h.run, h.phase, h.cannon, h.feedback⟩

section
variable {c : Fin 32} {r : Run} {d : Disposition} {s : State} (h : Serves c r d s)
include h

theorem Serves.within_event : Within (tapped false (secondOf c s) (credited c r (secondOf c s) (s.setPass false)))
    (inEvent (deliveryStep c) s) :=
  h.setPass.within_step.trans (inEvent_within s (deliveryStep c))

/-- The pass leaves the own cannon alone: it is not in IDLE (R108). -/
theorem Serves.own_event : (inEvent (deliveryStep c) s).cannon c = (deliveryStep c (s.setPass false)).cannon c ∧
    (inEvent (deliveryStep c) s).run c = (deliveryStep c (s.setPass false)).run c ∧
    queuedMovement (inEvent (deliveryStep c) s) c = queuedMovement (deliveryStep c (s.setPass false)) c :=
  (granted_inEvent s (deliveryStep c)).spared c (h.setPass.outcome_step.not_ready h.setPass)

theorem Serves.outcome_event : SecondOutcome c r d (s.setPass false) (inEvent (deliveryStep c) s) := by
  obtain ⟨cannon, run, queued⟩ := h.own_event
  exact h.setPass.outcome_step.beside cannon run queued

theorem Serves.pile_event (p : Fin 24) : (inEvent (deliveryStep c) s).pile p = { s.pile p with
    pendingSpray := if p = r.pile ∧ (s.pile p).configured = true
      then (s.pile p).pendingSpray + secondOf c s else (s.pile p).pendingSpray
    deliveredToday := if p = r.pile ∧ (s.pile p).configured = true
      then min ((s.pile p).deliveredToday + secondOf c s) 4294967295 else (s.pile p).deliveredToday
    hold := ((inEvent (deliveryStep c) s).pile p).hold } := by
  rw [h.within_event.pile, tapped_pile, credited_pile]
  change ({ (if p = r.pile ∧ (s.pile p).configured = true then _ else s.pile p : Pile) with hold := _ } : Pile) = _
  split <;> rfl

theorem Serves.sprayFrame_event : SprayFrame s (inEvent (deliveryStep c) s) :=
  (sprayFrame_credited c r (secondOf c s) (s.setPass false)).trans
    ((sprayFrame_tapped _ _ _).trans h.within_event.sprayFrame)

theorem Serves.cannonsFrame_event : CannonsFrame s (inEvent (deliveryStep c) s) := fun i => by
  rw [h.within_event.cannon i, State.cannon, tapped_cc, credited_cc]
  rfl

theorem Serves.drawn_event : Drawn false (secondOf c s) s (inEvent (deliveryStep c) s) :=
  ((drawn_tapped false (secondOf c s) (credited c r (secondOf c s) (s.setPass false))).within h.within_event).of_wiu
    (credited_wiu c r (secondOf c s) (s.setPass false))

/-- The order of the run counts the second while it is OPEN (R117). -/
theorem Serves.order_event (k : Nat) (origin : r.origin = .order k) :
    ((inEvent (deliveryStep c) s).order k).map Order.delivered =
      (s.order k).map fun o => (o.served (secondOf c s)).delivered := by
  have held := sprayRules_ordersHeld.trans h.setPass.ordersHeld_step (sprayRules_ordersHeld.inEvent s (deliveryStep c)) k
  rw [credited_order _ _ _ _ origin, if_pos rfl] at held
  have delivered := congrArg (Option.map Prod.fst) held
  rw [Option.map_map, Option.map_map, Option.map_map] at delivered
  exact delivered

end

/-! ## A forced switch (R75) -/

theorem fit_of_water {s t : State} (wiu : t.wiu = s.wiu) (site : t.site = s.site) (x : Source) : fit t x = fit s x := by
  cases x with
  | pond p =>
    have pond : t.pond p = s.pond p := by rw [State.pond, wiu, State.pond]
    rw [fit, pond, fit]
  | fresh => exact fit_fresh_of_eq site (by rw [wiu])

/-- The switch as the state found and the state left tell it. -/
theorem switchForced_credited_iff {c : Fin 32} {r : Run} {q : Nat} {s t : State}
    (left : Within (tapped false q (credited c r q s)) t) : SwitchForced false q (credited c r q s) ↔
      s.wiu.pump.phase ≠ .off ∧ ∃ src ∈ s.wiu.pump.source, fit s src = true ∧ fit t src = false := by
  have wiu := credited_wiu c r q s
  unfold SwitchForced
  simp only [wiu, fit_of_water wiu (credited_site c r q s), left.fit]

/-- The pump set once the second's draw has forced a switch, before the pass. -/
theorem Serves.pump_step {c : Fin 32} {r : Run} {d : Disposition} {s t : State} (h : Serves c r d s)
    (forced : SwitchForced false (secondOf c s) (credited c r (secondOf c s) s))
    (left : Within (tapped false (secondOf c s) (credited c r (secondOf c s) s)) t) :
    (deliveryStep c s).wiu.pump = pumpSwitched s t := by
  have same : pumpSwitched (credited c r (secondOf c s) s) t = pumpSwitched s t := by
    obtain ⟨-, -, -, -, -, site, -, -, -, -, -, mau⟩ := sprayFrame_credited c r (secondOf c s) s
    unfold pumpSwitched
    rw [site, mau]
  have drawn : (deliver c r s).wiu.pump = pumpSwitched s t := by
    rw [deliver_eq, draw_pump forced left, same]
  rw [h.step_closeKeeps.pump (by rw [drawn]; exact pumpSwitched_not_running s t), drawn]

theorem Serves.pump_event {c : Fin 32} {r : Run} {d : Disposition} {s : State} (h : Serves c r d s)
    (forced : SwitchForced false (secondOf c (s.setPass false)) (credited c r (secondOf c (s.setPass false)) (s.setPass false))) :
    (inEvent (deliveryStep c) s).wiu.pump = pumpSwitched s (inEvent (deliveryStep c) s) := by
  have step := h.setPass.pump_step forced h.setPass.within_step
  have mode : (deliveryStep c (s.setPass false)).mau.mode = (s.setPass false).mau.mode := by
    rw [(quiet_deliveryStep (s.setPass false) c).mau]
  have final := h.setPass.pump_step forced h.within_event
  rw [(switched_of_pump step mode).inEvent_pump, final]
  rfl

end Sys2Proof.Machine
end

