-- ==== Sys2Proof/Proofs/WaterSeconds.lean ====
section
/-! SUPPORT. The seconds of water as the statement has them: the run's own second, the ends of a full order's other
runs, and the seconds of water lost (R78 to R80, R98, R117, R118). -/

namespace Sys2Proof.Machine

/-! ## The run's own second -/

theorem oneSecond : Config.ticksPerSecond = Config.seconds 1 := by decide

section
variable {c : Fin 32} {r : Run} {d : Disposition} {s t : State}

/-- The run stays, with the second added, and at its target it has END (R117, R118). -/
theorem SecondOutcome.run_stays (h : SecondOutcome c r d s t) :
    ∃ x ∈ t.run c, x = { r with delivered := r.delivered + secondOf c s, phase := x.phase } ∧
      (r.target ≤ x.delivered → ∃ n, x.phase = .active .ends n) := by
  cases h with
  | stands cannon goes run =>
    exact ⟨_, run, rfl, fun reached => ⟨some Config.ticksPerSecond, by rw [goes reached]; rfl⟩⟩
  | pending reached phase run queued => exact ⟨_, run, rfl, fun _ => ⟨_, rfl⟩⟩
  | issued reached free phase run => exact ⟨_, run, rfl, fun _ => ⟨_, rfl⟩⟩
  | switched forced phase run =>
    exact ⟨_, run, rfl, fun reached => ⟨none, by rw [if_pos (.inl reached)]; rfl⟩⟩

/-- On a valve still open the delivery countdown runs again (R117). -/
theorem SecondOutcome.restarted (h : SecondOutcome c r d s t)
    (open_ : (t.cannon c).phase = .spraying ∨ (t.cannon c).phase = .closePending) : ∀ x ∈ t.run c,
    x.phase = .active (if r.target ≤ r.delivered + secondOf c s then .ends else d) (some (Config.seconds 1)) := by
  intro x hx
  rw [← oneSecond]
  cases h with
  | stands cannon goes run =>
    rw [run] at hx
    obtain rfl := Option.some.inj hx
    split
    · rename_i reached
      rw [goes reached]
      rfl
    · rfl
  | pending reached phase run queued =>
    rw [run] at hx
    obtain rfl := Option.some.inj hx
    rw [if_pos reached]
    rfl
  | issued reached free phase run => rcases open_ with other | other <;> rw [phase] at other <;> cases other
  | switched forced phase run => rcases open_ with other | other <;> rw [phase] at other <;> cases other

/-- Below the target, and with the source fit, nothing is asked of the valve. -/
theorem SecondOutcome.cannon_stands (h : SecondOutcome c r d s t)
    (unforced : ¬ SwitchForced false (secondOf c s) (credited c r (secondOf c s) s))
    (short : r.delivered + secondOf c s < r.target) : t.cannon c = s.cannon c := by
  cases h with
  | stands cannon => exact cannon
  | pending reached => exact absurd short (Nat.not_lt.2 reached)
  | issued reached => exact absurd short (Nat.not_lt.2 reached)
  | switched forced => exact absurd forced unforced

/-- At the target, with the source fit, a spraying cannon has its close queued or issued (R90, R91, R118). -/
theorem SecondOutcome.close_requested (h : SecondOutcome c r d s t)
    (unforced : ¬ SwitchForced false (secondOf c s) (credited c r (secondOf c s) s)) (waits : queuedMovement s c = none)
    (reached : r.target ≤ r.delivered + secondOf c s) (goes : d ≠ .ends) (spraying : (s.cannon c).phase = .spraying) :
    ((t.cannon c).phase = .closePending ∧ queuedMovement t c = some .closes) ∨
      (s.cc.slot = none ∧ (t.cannon c).phase = .closing ∧ ∀ x ∈ t.run c, x.phase = .active .ends none) := by
  cases h with
  | stands cannon ends => exact absurd (ends reached) goes
  | pending _ phase run queued => exact .inl ⟨phase, queued spraying waits⟩
  | issued _ free phase run =>
    refine .inr ⟨free, phase, fun x hx => ?_⟩
    rw [run] at hx
    obtain rfl := Option.some.inj hx
    rfl
  | switched forced => exact absurd forced unforced

theorem Serves.order_match (h : Serves c r d s) :
    match r.origin with
    | .order k =>
      match s.order k, (inEvent (deliveryStep c) s).order k with
      | some o, some x => x.delivered = o.delivered + if o.closure.isNone then secondOf c s else 0
      | none, none => True
      | _, _ => False
    | _ => True := by
  cases origin : r.origin with
  | order k =>
    have kept := h.order_event k origin
    simp only
    cases before : s.order k with
    | none =>
      rw [before] at kept
      cases after : (inEvent (deliveryStep c) s).order k with
      | none => trivial
      | some x => rw [after] at kept; cases kept
    | some o =>
      rw [before] at kept
      cases after : (inEvent (deliveryStep c) s).order k with
      | none => rw [after] at kept; cases kept
      | some x =>
        rw [after] at kept
        exact Option.some.inj kept
  | auto | detached => trivial

/-- A switch forced while the pump set ran has closed the valve and handed the run its disposition (R75, R120). -/
theorem Serves.switched_event (h : Serves c r d s) {src : Source} (active : s.wiu.pump.source = some src)
    (running : s.wiu.pump.phase = .running ∨ s.wiu.pump.phase = .rundown) (was : fit s src = true)
    (lost : fit (inEvent (deliveryStep c) s) src = false) :
    (inEvent (deliveryStep c) s).wiu.pump = pumpSwitched s (inEvent (deliveryStep c) s) ∧
      ((inEvent (deliveryStep c) s).cannon c).phase = .closing ∧
      ∀ x ∈ (inEvent (deliveryStep c) s).run c, x.phase = .active (if r.target ≤ r.delivered + secondOf c s ∨
          d = .ends ∨ (s.cannon c).phase = .closePending then .ends else .suspend .flow) none := by
  have forced := (switchForced_credited_iff (s := s.setPass false) h.within_event).2
    ⟨by rcases running with on | on <;> rw [setPass_wiu, on] <;> simp, src, active, was, lost⟩
  have steady : (s.setPass false).wiu.pump.phase ≠ .changeover := by
    rcases running with on | on <;> rw [setPass_wiu, on] <;> simp
  obtain ⟨closing, kept⟩ := h.setPass.switched forced steady
  obtain ⟨cannon, run, -⟩ := h.own_event
  have beside := h.setPass.step_beside
  refine ⟨h.pump_event forced, by rw [cannon, beside.cannon]; exact closing, fun x hx => ?_⟩
  rw [run, beside.run, kept] at hx
  obtain rfl := Option.some.inj hx
  rfl

end

/-! ## The ends of a full order's other runs (R118) -/

section
variable {c : Fin 32} {r : Run} {d : Disposition} {k : Nat} {o : Order} {s : State}

/-- The second brings its OPEN WET order to the volume. -/
structure Fills (k : Nat) (o : Order) (c : Fin 32) (r : Run) (s : State) : Prop where
  origin : r.origin = .order k
  order : s.order k = some o
  wet : o.kind = .wet
  open_ : o.closure = none
  short : o.delivered < o.volume
  full : o.volume ≤ o.delivered + secondOf c s

theorem Fills.setPass (h : Fills k o c r s) : Fills k o c r (s.setPass false) :=
  ⟨h.origin, h.order, h.wet, h.open_, h.short, h.full⟩

/-- The order once the second is added. -/
theorem Fills.order_credited (h : Fills k o c r s) : (credited c r (secondOf c s) s).order k =
    some { o with delivered := o.delivered + secondOf c s } := by
  rw [credited_order _ _ _ _ h.origin, if_pos rfl, h.order, Option.map_some,
    Order.served_of_open _ (by rw [h.open_]; rfl)]

theorem ordersTraced_immediateClose (c : Fin 32) (s : State) : OrdersTraced s (immediateClose c s) := by
  have removed := ordersTraced_setQueue s (s.cc.queue.filter fun e => e.1 ≠ c)
  unfold immediateClose
  split
  · exact removed.trans (ordersTraced_returnToIdle c _)
  · exact removed.trans (ordersTraced_beginClose c _)
  · exact removed.trans (ordersTraced_beginClose c _)
  · exact removed.trans (ordersTraced_beginClose c _)
  · exact .refl s

theorem ordersTraced_loseCapacityAt (c : Fin 32) (s : State) : OrdersTraced s (loseCapacityAt c s) := by
  have closes : ∀ e, OrdersTraced s (immediateClose c (setDisposition c e s)) := fun e =>
    (ordersTraced_updateRun c s (fun r => { r with phase := r.phase.dispose e }) fun _ => rfl).trans
      (ordersTraced_immediateClose c _)
  unfold loseCapacityAt
  split
  · exact .refl s
  · split
    · exact .refl s
    · split
      · exact closes _
      · exact closes _
      · exact closes _
      · exact closes _
      · exact .refl s

theorem ordersTraced_noted {s t : State} (h : Noted s t) : OrdersTraced s t :=
  ordersTraced_within h.within h.orders fun c => by rw [h.run]

theorem ordersTraced_forcedSwitch (s : State) : OrdersTraced s (forcedSwitch s) := by
  have off : OrdersTraced s (s.setPump ⟨.off, none, none⟩) :=
    ordersTraced_within (within_setPump s _) rfl fun _ => rfl
  have given : OrdersTraced s (giveUpSource s) := by
    unfold giveUpSource
    split
    · exact off
    · refine off.trans ?_
      exact forCannons_induct (P := fun _ t => OrdersTraced _ t) (.refl _) fun x t kept =>
        kept.trans (ordersTraced_loseCapacityAt x t)
  have chosen : OrdersTraced (giveUpSource s) (selectAnew (giveUpSource s)) := by
    have beside := fun c => selectAnew_beside c (giveUpSource s)
    refine ordersTraced_within (within_selectAnew _) ?_ fun c => by rw [(beside c).run]
    unfold selectAnew
    repeat' split
    all_goals rfl
  exact given.trans (chosen.trans (ordersTraced_noted (noted_forcedSwitch s)))

/-- The order is still OPEN once the water is drawn: its own run stands (R131). -/
theorem Fills.drawn (h : Fills k o c r s) (serves : Serves c r d s) : (deliver c r s).order k =
    some { o with delivered := o.delivered + secondOf c s } := by
  have credit := h.order_credited
  obtain ⟨run, cannon, -, feedback, -⟩ := serves.credited_own
  rw [deliver_eq]
  generalize credited c r (secondOf c s) s = g at *
  have tap := beside_tapped c false (secondOf c s) g
  have taken : (tapped false (secondOf c s) g).order k = some { o with delivered := o.delivered + secondOf c s } :=
    (order_of_orders (by rw [tapped_sd]) k).trans credit
  rcases draw_cases false (secondOf c s) g with ⟨-, noted⟩ | ⟨-, noted⟩
  · rcases (ordersTraced_forcedSwitch _).tested k _ taken ⟨h.wet, h.open_, h.full⟩ with ⟨same, -⟩ | ⟨-, -, -, left⟩
    · exact (order_of_orders noted.orders k).trans same
    · have valve : ValveOpen c g := ⟨by rw [cannon]; exact serves.valveOpen.phase, feedback⟩
      obtain ⟨-, e, m, kept⟩ := valveOpen_forcedSwitch (valve.beside tap)
        ((tap.run.trans run).trans (congrArg some (serves.served _))) rfl
      exact absurd ⟨c, _, kept, h.origin⟩ left
  · exact (order_of_orders noted.orders k).trans taken

theorem Fills.reaches (h : Fills k o c r s) (serves : Serves c r d s) :
    reachesVolume (deliver c r s) k (secondOf c s) = true := by
  unfold reachesVolume
  rw [h.drawn serves]
  have short := h.short
  have full := h.full
  simp [h.wet, h.open_, full, short]

theorem Fills.step_eq (h : Fills k o c r s) (serves : Serves c r d s) :
    deliveryStep c s = endOthers k c (targetTest c (deliver c r s)) := by
  obtain ⟨n, phase⟩ := serves.phase
  unfold deliveryStep
  rw [serves.run]
  simp only [phase, h.origin]
  exact if_pos (h.reaches serves)

/-! ## The order's other runs -/

/-- A capacity loss changes no more than the phase of a run, or ends it (R115, R120). -/
def OriginKept (c : Fin 32) (s t : State) : Prop := ∀ y ∈ t.run c, ∃ x ∈ s.run c, y.origin = x.origin

theorem originKept_of_run {s t : State} (h : t.run c = s.run c) : OriginKept c s t := fun y hy =>
  ⟨y, by rw [← h]; exact hy, rfl⟩

theorem OriginKept.trans {s t u : State} (h : OriginKept c s t) (k : OriginKept c t u) : OriginKept c s u := fun y hy => by
  obtain ⟨x, hx, same⟩ := k y hy
  obtain ⟨z, hz, first⟩ := h x hx
  exact ⟨z, hz, same.trans first⟩

theorem originKept_updateRun (f : Run → Run) (h : ∀ x, (f x).origin = x.origin) : OriginKept c s (updateRun c f s) := by
  intro y hy
  rw [updateRun_run, if_pos rfl, Option.mem_def, Option.map_eq_some_iff] at hy
  obtain ⟨x, hx, rfl⟩ := hy
  exact ⟨x, hx, h x⟩

theorem originKept_applyDisposition : OriginKept c s (applyDisposition c s) := by
  rcases applyDisposition_cases c s with ⟨h, -⟩ | ⟨r, x, n, -, -, h⟩ | ⟨r, e, n, -, -, -, h⟩ <;> rw [h]
  · exact originKept_of_run rfl
  · intro y hy
    rw [suspendRun_run, if_pos rfl] at hy
    split at hy
    · cases hy
    · rw [Option.mem_def, Option.map_eq_some_iff] at hy
      obtain ⟨z, hz, rfl⟩ := hy
      exact ⟨z, hz, rfl⟩
  · intro y hy
    rw [endRun_run, if_pos rfl] at hy
    cases hy

theorem originKept_returnToIdle : OriginKept c s (returnToIdle c s) := by
  have entered : OriginKept c s (enterPhase c .idle none none s) := originKept_of_run (enterPhase_run _ _ _ _ _ s)
  refine (entered.trans originKept_applyDisposition).trans (originKept_of_run ?_)
  rw [State.run, returnToIdle_sd, State.run]

theorem originKept_beginClose : OriginKept c s (beginClose c s) := by
  have stopped : OriginKept c s (stopDelivery c s) := originKept_updateRun _ fun _ => rfl
  unfold beginClose
  split
  · exact stopped.trans (originKept_of_run (enterPhase_run _ _ _ _ _ _))
  · exact stopped.trans originKept_returnToIdle

theorem originKept_immediateClose : OriginKept c s (immediateClose c s) := by
  have removed : OriginKept c s (removeEntry c s) := originKept_of_run rfl
  unfold immediateClose
  split
  · exact removed.trans originKept_returnToIdle
  · exact removed.trans originKept_beginClose
  · exact removed.trans originKept_beginClose
  · exact removed.trans originKept_beginClose
  · exact originKept_of_run rfl

theorem originKept_loseCapacityAt : OriginKept c s (loseCapacityAt c s) := by
  have closes : ∀ e, OriginKept c s (immediateClose c (setDisposition c e s)) := fun e =>
    OriginKept.trans (t := setDisposition c e s) (originKept_updateRun _ fun _ => rfl) originKept_immediateClose
  unfold loseCapacityAt
  split
  · exact originKept_of_run rfl
  · split
    · exact originKept_of_run rfl
    · split
      · exact closes _
      · exact closes _
      · exact closes _
      · exact closes _
      · exact originKept_of_run rfl

theorem originKept_forcedSwitch : OriginKept c s (forcedSwitch s) := by
  rcases forcedSwitch_at c s with ⟨-, same⟩ | ⟨-, u, before, after⟩
  · exact originKept_of_run same.run
  · exact ((originKept_of_run before.run).trans originKept_loseCapacityAt).trans (originKept_of_run after.run)

/-- What the draw and the target test of another cannon leave of a run of the order. -/
theorem other_tested {x : Fin 32} (other : x ≠ c) :
    OriginKept x s (targetTest c (deliver c r s)) ∧
    (¬ SwitchForced false (secondOf c s) (credited c r (secondOf c s) s) →
      Beside x s (targetTest c (deliver c r s))) ∧
    (ValveOpen x s → ∀ z ∈ s.run x, z.isSuspended = false → ValveOpen x (targetTest c (deliver c r s)) ∧
      ∃ e m, (targetTest c (deliver c r s)).run x = some { z with phase := .active e m }) := by
  have credit := beside_credited c r (secondOf c s) s other
  have tap := beside_tapped x false (secondOf c s) (credited c r (secondOf c s) s)
  have tested : Beside x (deliver c r s) (targetTest c (deliver c r s)) :=
    (apart_targetTest c _).beside other (within_targetTest _ c).pins
  rw [deliver_eq] at tested ⊢
  rcases draw_cases false (secondOf c s) (credited c r (secondOf c s) s) with ⟨forced, noted⟩ | ⟨-, noted⟩
  · have before := credit.trans tap
    have after := (noted.beside x).trans tested
    refine ⟨((originKept_of_run before.run).trans originKept_forcedSwitch).trans (originKept_of_run after.run),
      fun unforced => absurd forced unforced, fun valve z hz live => ?_⟩
    · cases phase : z.phase with
      | suspended a b w => simp [Run.isSuspended, phase] at live
      | active e m =>
        obtain ⟨open_, e', m', kept⟩ := valveOpen_forcedSwitch (valve.beside before) (before.run.trans hz) phase
        exact ⟨open_.beside after, e', m', after.run.trans kept⟩
  · have same := (credit.trans tap).trans ((noted.beside x).trans tested)
    refine ⟨originKept_of_run same.run, fun _ => same, fun valve z hz live => ?_⟩
    cases phase : z.phase with
    | suspended a b w => simp [Run.isSuspended, phase] at live
    | active e m => exact ⟨valve.beside same, e, m, by rw [same.run, hz, ← phase]⟩

end

end Sys2Proof.Machine
end

