-- ==== Sys2Proof/Proofs/WaterSecondsSettled.lean ====
section
/-! SUPPORT. The other runs of a full order through the whole event (R118), and the seconds of water lost (R79, R98). -/

namespace Sys2Proof.Machine

theorem beside_setPass (c : Fin 32) (s : State) : Beside c s (s.setPass false) := ⟨rfl, rfl, rfl, id, rfl⟩

section
variable {c : Fin 32} {r : Run} {d : Disposition} {k : Nat} {o : Order} {s : State} {x : Fin 32} {z : Run}

/-- Which runs have an end decided once order k has its volume (R118). -/
def otherOf (k : Nat) (c : Fin 32) (i : Fin 32) (y : Run) : Bool := decide (i ≠ c ∧ y.origin = .order k)

theorem otherOf_eq (other : x ≠ c) (origin : z.origin = .order k) : otherOf k c x z = true := decide_eq_true ⟨other, origin⟩

theorem Fills.step_endWhere (h : Fills k o c r s) (serves : Serves c r d s) :
    deliveryStep c s = endWhere (otherOf k c) (targetTest c (deliver c r s)) :=
  (h.step_eq serves).trans (endOthers_eq k c _)

/-- Every other run of the order has END once the ends are decided, or is gone (R114). -/
theorem Fills.step_ends (h : Fills k o c r s) (serves : Serves c r d s) (other : x ≠ c) (run : s.run x = some z)
    (origin : z.origin = .order k) : ∀ y ∈ (deliveryStep c s).run x, ∃ n, y.phase = .active .ends n := by
  intro y hy
  rw [h.step_endWhere serves] at hy
  obtain ⟨ends, stands⟩ := endWhere_at (otherOf k c) x (targetTest c (deliver c r s))
  cases found : (targetTest c (deliver c r s)).run x with
  | none =>
    rw [(stands fun w hw => by rw [found] at hw; cases hw).run, found] at hy
    cases hy
  | some w =>
    obtain ⟨z', hz, same⟩ := (other_tested (r := r) (s := s) other).1 w found
    rw [run] at hz
    obtain rfl := Option.some.inj hz
    obtain ⟨n, rfl⟩ := (ends w found (otherOf_eq other (same.trans origin))).ends y hy
    exact ⟨n, rfl⟩

/-- A pass gives such a cannon a run of another origin alone: the order has its volume (R124, R125). -/
theorem Fills.event_ends (h : Fills k o c r s) (serves : Serves c r d s) (other : x ≠ c) (run : s.run x = some z)
    (origin : z.origin = .order k) : ∀ y ∈ (inEvent (deliveryStep c) s).run x, (∃ n, y.phase = .active .ends n) ∨
      (y.origin ≠ .order k ∧ y.delivered = 0 ∧ y.phase = .active .none none) := by
  intro y hy
  have ends := h.setPass.step_ends serves.setPass other run origin
  rcases (opened_inEvent (deliveryStep c) s).cannons x with
    ⟨-, same, -⟩ | ⟨-, ⟨w, found, unending, -⟩ | ⟨free, v, entered, delivered, phase, -⟩⟩
  · rw [same] at hy
    exact .inl (ends y hy)
  · obtain ⟨n, phase⟩ := ends w found
    exact absurd phase (unending n)
  · have new := hy
    rw [entered] at hy
    obtain rfl := Option.some.inj hy
    refine .inr ⟨fun same => ?_, delivered, phase⟩
    rcases (granted_inEvent s (deliveryStep c)).entered x _ new with ⟨w, found, -⟩ | auto | ⟨j, order, o', ho, short⟩
    · rw [free] at found; cases found
    · rw [auto] at same; cases same
    · rw [order] at same
      obtain rfl := Origin.order.inj same
      have held := serves.setPass.ordersHeld_step j
      rw [h.setPass.order_credited, Option.mem_def.1 ho] at held
      simp only [Option.map_some, Option.some.injEq, Prod.mk.injEq] at held
      have full := h.setPass.full
      omega

/-- A run of the order whose valve stands open stays on it with END (R114, R118). -/
theorem Fills.event_stays (h : Fills k o c r s) (serves : Serves c r d s) (other : x ≠ c) (run : s.run x = some z)
    (origin : z.origin = .order k) (live : z.isSuspended = false) (valve : ValveOpen x s) :
    ∃ y ∈ (inEvent (deliveryStep c) s).run x, y.origin = .order k ∧ y.delivered = z.delivered ∧
      ∃ n, y.phase = .active .ends n := by
  obtain ⟨open_, e, m, tested⟩ := (other_tested (r := r) (s := s.setPass false) other).2.2
    (valve.beside (beside_setPass x s)) z run live
  obtain ⟨u, before, after⟩ := forCannons_at (fun i j t apart => beside_endIf (otherOf k c) apart t) x
    (targetTest c (deliver c r (s.setPass false)))
  have found := before.run.trans tested
  have step : deliveryStep c (s.setPass false) = forCannons (endIf (otherOf k c)) _ :=
    h.setPass.step_endWhere serves.setPass
  rw [endIf_of_passes found (otherOf_eq other origin), ← step] at after
  obtain ⟨still, n, ending⟩ := valveOpen_decideEnd (open_.beside before) found rfl
  obtain ⟨-, kept, -⟩ := (granted_inEvent s (deliveryStep c)).spared x (still.beside after).not_ready
  exact ⟨_, (kept.trans after.run).trans ending, origin, rfl, n, rfl⟩

/-- With the source fit, the other runs' ends are decided from the state found (R118). -/
theorem Fills.event_decided (h : Fills k o c r s) (serves : Serves c r d s) (other : x ≠ c) (run : s.run x = some z)
    (origin : z.origin = .order k)
    (unforced : ¬ SwitchForced false (secondOf c (s.setPass false)) (credited c r (secondOf c (s.setPass false)) (s.setPass false)))
    (valve : ValveSound s x) (sound : RunSound s x) : EndDecided x z s (inEvent (deliveryStep c) s) := by
  have before := (beside_setPass x s).trans ((other_tested (r := r) (s := s.setPass false) other).2.1 unforced)
  have ended := (endWhere_at (otherOf k c) x (targetTest c (deliver c r (s.setPass false)))).1 z (before.run.trans run)
    (otherOf_eq other origin)
  rw [← h.setPass.step_endWhere serves.setPass] at ended
  exact ((ended.of_beside before).decided valve sound).opened (opened_inEvent (deliveryStep c) s)
    (granted_inEvent s (deliveryStep c))

end

/-! ## Water lost (R79, R98) -/

/-- The countdown restarted, before the draw. -/
def lossCounted (c : Fin 32) (s : State) : State :=
  s.setCannon c { s.cannon c with lostWater := some Config.ticksPerSecond }

section
variable {c : Fin 32} {s : State}

theorem lostWaterStep_of_flows (runs : (s.cannon c).lostWater ≠ none)
    (flows : s.wiu.pump.phase = .running ∨ s.wiu.pump.phase = .rundown) :
    lostWaterStep c s = draw true (secondOf c s) (lossCounted c s) := by
  unfold lostWaterStep
  rw [if_neg runs]
  exact if_pos flows

theorem lostWaterStep_of_stands (runs : (s.cannon c).lostWater ≠ none)
    (stands : ¬(s.wiu.pump.phase = .running ∨ s.wiu.pump.phase = .rundown)) :
    lostWaterStep c s = lossCounted c s := by
  unfold lostWaterStep
  rw [if_neg runs]
  exact if_neg stands

/-- A capacity loss passes a STUCK cannon by (R120). -/
theorem loseCapacityAt_stuck (stuck : (s.cannon c).phase = .stuck) : loseCapacityAt c s = s := by
  unfold loseCapacityAt
  split
  · rfl
  · split
    · rfl
    · rw [stuck]

theorem beside_draw_of_stuck (lost : Bool) (q : Nat) (stuck : (s.cannon c).phase = .stuck) :
    Beside c s (draw lost q s) := by
  have tap := beside_tapped c lost q s
  rcases draw_cases lost q s with ⟨-, noted⟩ | ⟨-, noted⟩
  · refine Beside.trans ?_ (noted.beside c)
    rcases forcedSwitch_at c (tapped lost q s) with ⟨-, same⟩ | ⟨-, u, before, after⟩
    · exact tap.trans same
    · have reach := tap.trans before
      rw [loseCapacityAt_stuck (by rw [reach.cannon]; exact stuck)] at after
      exact reach.trans after
  · exact tap.trans (noted.beside c)

end

section
variable {c : Fin 32} {s : State} (runs : (s.cannon c).lostWater ≠ none)
  (flows : s.wiu.pump.phase = .running ∨ s.wiu.pump.phase = .rundown)
include runs flows

theorem within_lostWater : Within (tapped true (secondOf c s) (lossCounted c (s.setPass false)))
    (inEvent (lostWaterStep c) s) := by
  refine Within.trans ?_ (inEvent_within s (lostWaterStep c))
  rw [lostWaterStep_of_flows (s := s.setPass false) runs flows]
  exact within_draw true (secondOf c s) (lossCounted c (s.setPass false))

theorem lostWater_cannon (stuck : (s.cannon c).phase = .stuck) :
    (inEvent (lostWaterStep c) s).cannon c = { s.cannon c with lostWater := some (Config.seconds 1) } := by
  have counted : (lossCounted c (s.setPass false)).cannon c = { s.cannon c with lostWater := some (Config.seconds 1) } := by
    rw [lossCounted, setCannon_cannon_same, oneSecond]
    rfl
  have step : Beside c (lossCounted c (s.setPass false)) (lostWaterStep c (s.setPass false)) := by
    rw [lostWaterStep_of_flows (s := s.setPass false) runs flows]
    exact beside_draw_of_stuck _ _ (by rw [counted]; exact stuck)
  have stays : ¬ ((lostWaterStep c (s.setPass false)).cannon c).Ready := by
    rintro ⟨idle, -⟩
    rw [step.cannon, counted] at idle
    rw [stuck] at idle
    cases idle
  rw [((granted_inEvent s (lostWaterStep c)).spared c stays).1, step.cannon, counted]

theorem lostWater_pump {src : Source} (active : s.wiu.pump.source = some src) (was : fit s src = true)
    (lost : fit (inEvent (lostWaterStep c) s) src = false) :
    (inEvent (lostWaterStep c) s).wiu.pump = pumpSwitched s (inEvent (lostWaterStep c) s) := by
  have left := within_lostWater runs flows
  have forced : SwitchForced true (secondOf c s) (lossCounted c (s.setPass false)) :=
    ⟨by rcases flows with on | on <;> (rw [lossCounted, setCannon_wiu, setPass_wiu, on]; simp), src, active, was,
      (left.fit src).symm.trans lost⟩
  have step := lostWaterStep_of_flows (s := s.setPass false) runs flows
  have within : Within (tapped true (secondOf c s) (lossCounted c (s.setPass false))) (lostWaterStep c (s.setPass false)) := by
    rw [step]
    exact within_draw true (secondOf c s) (lossCounted c (s.setPass false))
  have drawn : ∀ t, Within (tapped true (secondOf c s) (lossCounted c (s.setPass false))) t →
      (lostWaterStep c (s.setPass false)).wiu.pump = pumpSwitched s t := fun t reached => by
    rw [step]
    exact draw_pump forced reached
  have mode : (lostWaterStep c (s.setPass false)).mau.mode = s.mau.mode := by
    rw [(quiet_lostWaterStep (s.setPass false) c).mau]
    rfl
  rw [(switched_of_pump (drawn _ within) mode).inEvent_pump, drawn _ left]

theorem lostWater_drawn : Drawn true (secondOf c s) s (inEvent (lostWaterStep c) s) :=
  ((drawn_tapped true (secondOf c s) (lossCounted c (s.setPass false))).within (within_lostWater runs flows)).of_wiu rfl

theorem lostWater_sprayFrame : SprayFrame s (inEvent (lostWaterStep c) s) := by
  have counted : SprayFrame s (lossCounted c (s.setPass false)) :=
    ⟨rfl, rfl, rfl, rfl, rfl, rfl, rfl, rfl, rfl, rfl, rfl, rfl⟩
  exact counted.trans ((sprayFrame_tapped _ _ _).trans (within_lostWater runs flows).sprayFrame)

theorem lostWater_pilesFrame : PilesFrame s (inEvent (lostWaterStep c) s) := fun p => by
  rw [(within_lostWater runs flows).pile, tapped_pile]
  rfl

theorem lostWater_cannonsFrame :
    CannonsFrame (s.setCannon c ((inEvent (lostWaterStep c) s).cannon c)) (inEvent (lostWaterStep c) s) := fun i => by
  by_cases own : i = c
  · subst own
    rw [setCannon_cannon_same]
  · have same : (tapped true (secondOf c s) (lossCounted c (s.setPass false))).cannon i = s.cannon i := by
      rw [State.cannon, tapped_cc]
      exact (setCannon_cannon _ _ _ _).trans (if_neg own)
    rw [setCannon_cannon, if_neg own, (within_lostWater runs flows).cannon, same]

end

/-- Out of RUNNING and RUNDOWN no water is lost (R79). -/
theorem lostWater_stands {c : Fin 32} {s : State} (runs : (s.cannon c).lostWater ≠ none)
    (running : s.wiu.pump.phase ≠ .running) (rundown : s.wiu.pump.phase ≠ .rundown) :
    inEvent (lostWaterStep c) s =
      (s.setCannon c { s.cannon c with lostWater := some (Config.seconds 1) }).setPass false := by
  have step := lostWaterStep_of_stands (s := s.setPass false) runs (not_or.2 ⟨running, rundown⟩)
  have unowed : (lostWaterStep c (s.setPass false)).sd.passDue = false := by rw [step]; rfl
  unfold inEvent
  simp only [unowed, Bool.false_eq_true, if_false]
  rw [step, ← oneSecond]
  rfl

/-! ## The obligation -/

theorem Serves.unforced {c : Fin 32} {r : Run} {d : Disposition} {s : State} (h : Serves c r d s)
    (stays : ∀ src ∈ s.wiu.pump.source, fit s src = true → fit (inEvent (deliveryStep c) s) src = true) :
    ¬ SwitchForced false (secondOf c (s.setPass false))
      (credited c r (secondOf c (s.setPass false)) (s.setPass false)) := fun forced => by
  obtain ⟨-, src, active, was, lost⟩ := (switchForced_credited_iff (s := s.setPass false) h.within_event).1 forced
  have still := stays src active was
  rw [lost] at still
  cases still

/-- Settles O32: a delivery second is the credits, the draw with its tests, the target test, the ends of a full order's
other runs, and the pass; a lost-water second is the draw alone. -/
theorem waterSecondsAreCountedEverywhere : Obligations.WaterSecondsAreCountedEverywhere := by
  unfold Obligations.WaterSecondsAreCountedEverywhere
  refine ⟨fun c r d n s run phase cannon feedback => ?_, fun c r d n k o s run phase cannon feedback origin order wet
    open_ short full => ?_, fun c s stuck runs flows => ?_, fun c s runs running rundown => ?_⟩
  · have serves : Serves c r d s := ⟨run, ⟨n, phase⟩, cannon, feedback⟩
    have outcome := serves.outcome_event
    refine ⟨inEvent (deliveryStep c) s, rfl, outcome.run_stays, outcome.restarted,
      fun stays below => outcome.cannon_stands (serves.unforced stays) below,
      fun valves stays reached goes spraying => ?_, serves.pile_event, serves.order_match, serves.drawn_event,
      fun _ src active running was lost => serves.switched_event active running was lost, serves.sprayFrame_event,
      serves.cannonsFrame_event⟩
    have valve : ValveSound s c := valves.1 c
    simp only [ValveSound, spraying] at valve
    exact outcome.close_requested (serves.unforced stays) valve.1 reached goes spraying
  · have serves : Serves c r d s := ⟨run, ⟨n, phase⟩, cannon, feedback⟩
    have fills : Fills k o c r s := ⟨origin, order, wet, open_, short, full⟩
    exact ⟨inEvent (deliveryStep c) s, rfl, fun x other z found of => fills.event_ends serves other found of,
      fun x other z found of live going shown => fills.event_stays serves other found of live ⟨going, shown⟩,
      fun valves sound stays x other z found of =>
        fills.event_decided serves other found of (serves.unforced stays) (valves.1 x) (sound x)⟩
  · exact ⟨inEvent (lostWaterStep c) s, rfl, lostWater_cannon runs flows stuck, lostWater_drawn runs flows,
      fun _ src active _ was lost => lostWater_pump runs flows active was lost, lostWater_sprayFrame runs flows,
      lostWater_pilesFrame runs flows, lostWater_cannonsFrame runs flows⟩
  · exact congrArg _ (lostWater_stands runs running rundown)

end Sys2Proof.Machine
end

