-- ==== Sys2Proof/Proofs/Sources.lean ====
section
/-! SUPPORT. The five sources: what makes one fit and usable, and which one a selection gives (R68). -/

namespace Sys2Proof.Machine

section
variable (s : State)

theorem fit_iff (src : Source) : fit s src = true ↔
    match src with
    | .pond p => (s.pond p).configured = true ∧ (s.pond p).clear = true ∧ (s.pond p).inService = true ∧
        (s.pond p).config.floor < (s.pond p).volume
    | .fresh => 0 < s.site.freshRate ∧ s.wiu.today.fresh < s.site.freshAllocation := by
  cases src with
  | pond p => simp [fit, and_assoc]
  | fresh => exact (Bool.and_eq_true_iff).trans (and_congr decide_eq_true_iff decide_eq_true_iff)

theorem usable_iff (src : Source) : usable s src = true ↔
    fit s src = true ∧ ∀ p, src = .pond p → (s.pond p).settled = true := by
  cases src <;> simp [usable]

/-- What the fold over the first n ponds has found: a usable one that none of them comes before, or that none of
them is usable. -/
def BestOf (n : Nat) : Option (Fin 4) → Prop
  | some p => usable s (.pond p) = true ∧ ∀ q : Fin 4, q.val < n → usable s (.pond q) = true →
      (s.pond p).config.priority ≤ (s.pond q).config.priority
  | none => ∀ q : Fin 4, q.val < n → usable s (.pond q) = false

theorem bestOf_betterPond (i : Fin 4) (best : Option (Fin 4)) (h : BestOf s i.val best) :
    BestOf s (i.val + 1) (betterPond s best i) := by
  have upTo : ∀ {q : Fin 4}, q.val < i.val + 1 → q.val < i.val ∨ q = i := fun h =>
    (Nat.lt_succ_iff_lt_or_eq.1 h).imp_right Fin.ext
  unfold betterPond
  split
  · rename_i good
    cases best with
    | none =>
      refine ⟨good, fun q lt other => ?_⟩
      rcases upTo lt with before | rfl
      · rw [h q before] at other
        cases other
      · exact le_rfl
    | some b =>
      obtain ⟨found, least⟩ := h
      simp only
      split
      · rename_i better
        refine ⟨good, fun q lt other => ?_⟩
        rcases upTo lt with before | rfl
        · exact better.le.trans (least q before other)
        · exact le_rfl
      · rename_i worse
        refine ⟨found, fun q lt other => ?_⟩
        rcases upTo lt with before | rfl
        · exact least q before other
        · exact not_lt.1 worse
  · rename_i bad
    have bad := Bool.eq_false_of_not_eq_true bad
    cases best with
    | none =>
      intro q lt
      rcases upTo lt with before | rfl
      · exact h q before
      · exact bad
    | some b =>
      refine ⟨h.1, fun q lt other => ?_⟩
      rcases upTo lt with before | rfl
      · exact h.2 q before other
      · rw [bad] at other
        cases other

theorem bestOf_ponds : BestOf s 4 ((List.finRange 4).foldl (betterPond s) none) :=
  foldl_finRange_induct (P := BestOf s) (fun _ lt => absurd lt (Nat.not_lt_zero _))
    fun i best h => bestOf_betterPond s i best h

/-- Selection: a usable pond of lowest priority number, else the usable main, else none (R68). -/
theorem selection_spec :
    match selection s with
    | some (.pond p) => usable s (.pond p) = true ∧ ∀ q, usable s (.pond q) = true →
        (s.pond p).config.priority ≤ (s.pond q).config.priority
    | some .fresh => usable s .fresh = true ∧ ∀ q, usable s (.pond q) = false
    | none => ∀ src, usable s src = false := by
  have best := bestOf_ponds s
  unfold selection
  cases found : (List.finRange 4).foldl (betterPond s) none with
  | some p =>
    rw [found] at best
    exact ⟨best.1, fun q => best.2 q q.isLt⟩
  | none =>
    rw [found] at best
    have dry : ∀ q, usable s (.pond q) = false := fun q => best q q.isLt
    by_cases main : usable s .fresh = true
    · simpa only [main, if_true] using And.intro main dry
    · simp only [main]
      intro src
      cases src with
      | pond q => exact dry q
      | fresh => exact Bool.eq_false_of_not_eq_true main

variable {s}

theorem usable_of_selection {src : Source} (h : selection s = some src) : usable s src = true := by
  have spec := selection_spec s
  rw [h] at spec
  cases src <;> exact spec.1

theorem fit_of_selection {src : Source} (h : selection s = some src) : fit s src = true :=
  ((usable_iff s src).1 (usable_of_selection h)).1

theorem noUsableSource_iff : noUsableSource s = true ↔ ∀ src, usable s src = false := by
  have spec := selection_spec s
  unfold noUsableSource
  cases found : selection s with
  | none =>
    rw [found] at spec
    simpa using spec
  | some src =>
    simp only [Option.isNone_some, Bool.false_eq_true, false_iff, not_forall]
    exact ⟨src, by rw [usable_of_selection found]; exact Bool.noConfusion⟩

end

end Sys2Proof.Machine
end

