-- ==== Sys2Proof/Proofs/PumpStands.lean ====
section
/-! SUPPORT. What reaches the water and the pump set: most of the part leaves the ponds and the day records alone and
keeps a pump set sound, each change of it handing on a source that is fit (R68 to R77). -/

namespace Sys2Proof.Machine

/-- Fitness reads the site, the pond and the fresh water used. -/
theorem fit_congr {s t : State} (site : t.site = s.site) (pond : ∀ p, t.pond p = s.pond p)
    (fresh : t.wiu.today.fresh = s.wiu.today.fresh) (x : Source) : fit t x = fit s x := by
  rw [Bool.eq_iff_iff, fit_iff, fit_iff]
  cases x with
  | pond p => simp only [pond p]
  | fresh => simp only [site, fresh]

/-- A pump set as R68, R69 and R75 have it, by what OFF and the other states ask of it. -/
structure PumpSettled (s : State) : Prop where
  off : s.wiu.pump.phase = .off → s.wiu.pump.source = none ∧ s.wiu.pump.interval = none
  source : s.wiu.pump.phase ≠ .off → ∃ x, s.wiu.pump.source = some x ∧ fit s x = true
  interval : s.wiu.pump.phase ≠ .off → (s.wiu.pump.interval.isSome = true ↔ s.wiu.pump.phase ≠ .running)

theorem pumpSound_iff (s : State) : PumpSound s ↔ PumpSettled s := by
  constructor
  · intro h
    unfold PumpSound at h
    split at h <;> rename_i now
    · exact ⟨fun _ => h, fun on => absurd now on, fun on => absurd now on⟩
    all_goals
      obtain ⟨⟨x, source, sound⟩, interval⟩ := h
      exact ⟨fun off => by simp [now] at off, fun _ => ⟨x, source, sound⟩, fun _ => by simp [now, interval]⟩
  · intro h
    unfold PumpSound
    split <;> rename_i now
    · exact h.off now
    all_goals
      have on : s.wiu.pump.phase ≠ .off := by simp [now]
      obtain ⟨x, source, sound⟩ := h.source on
      have interval := h.interval on
      exact ⟨⟨x, source, sound⟩, by simpa [now] using interval⟩

theorem pumpSettled_off {s : State} (h : s.wiu.pump = ⟨.off, none, none⟩) : PumpSettled s where
  off _ := by rw [h]; exact ⟨rfl, rfl⟩
  source on := absurd (congrArg Pump.phase h) on
  interval on := absurd (congrArg Pump.phase h) on

/-- A pump set with a fit source, its interval running in the three states that own one. -/
theorem pumpSettled_of_fit {s : State} {x : Source} (phase : s.wiu.pump.phase ≠ .off)
    (source : s.wiu.pump.source = some x) (sound : fit s x = true)
    (interval : s.wiu.pump.interval.isSome = true ↔ s.wiu.pump.phase ≠ .running) : PumpSettled s :=
  ⟨fun off => absurd off phase, fun _ => ⟨x, source, sound⟩, fun _ => interval⟩

/-- A pump set that stands stays settled where its source stays fit. -/
theorem PumpSettled.of_pump {s t : State} (h : PumpSettled s) (pump : t.wiu.pump = s.wiu.pump)
    (stays : ∀ x, s.wiu.pump.source = some x → fit s x = true → fit t x = true) : PumpSettled t where
  off now := by
    rw [pump] at now ⊢
    exact h.off now
  source on := by
    rw [pump] at on ⊢
    obtain ⟨x, source, sound⟩ := h.source on
    exact ⟨x, source, stays x source sound⟩
  interval on := by
    rw [pump] at on ⊢
    exact h.interval on

/-- The figures that fitness reads, and both day records, stand; a settled pump set stays settled. -/
structure WaterStands (s t : State) : Prop where
  site : t.site = s.site
  ponds : t.wiu.ponds = s.wiu.ponds
  today : t.wiu.today = s.wiu.today
  previous : t.wiu.previous = s.wiu.previous
  pump : PumpSettled s → PumpSettled t

theorem WaterStands.refl (s : State) : WaterStands s s := ⟨rfl, rfl, rfl, rfl, id⟩

theorem WaterStands.trans {s t u : State} (h : WaterStands s t) (k : WaterStands t u) : WaterStands s u :=
  ⟨k.site.trans h.site, k.ponds.trans h.ponds, k.today.trans h.today, k.previous.trans h.previous,
    fun settled => k.pump (h.pump settled)⟩

theorem waterStands_of_pump {s t : State} (site : t.site = s.site) (ponds : t.wiu.ponds = s.wiu.ponds)
    (today : t.wiu.today = s.wiu.today) (previous : t.wiu.previous = s.wiu.previous)
    (pump : t.wiu.pump = s.wiu.pump) : WaterStands s t :=
  ⟨site, ponds, today, previous, fun settled => settled.of_pump pump fun x _ sound =>
    (fit_congr site (pond_of_ponds ponds) (congrArg DayRecord.fresh today) x).trans sound⟩

theorem waterStands_of_eq {s t : State} (site : t.site = s.site) (wiu : t.wiu = s.wiu) : WaterStands s t :=
  waterStands_of_pump site (by rw [wiu]) (by rw [wiu]) (by rw [wiu]) (by rw [wiu])

/-- What the dispatcher does without the pump set. -/
theorem Within.waterStands {s t : State} (h : Within s t) (wiu : t.wiu = s.wiu) : WaterStands s t :=
  waterStands_of_eq h.site wiu

/-- What the dispatcher does to the pump set, where it leaves it settled. -/
theorem Within.waterStands_of_settled {s t : State} (h : Within s t) (pump : PumpSettled s → PumpSettled t) :
    WaterStands s t := ⟨h.site, h.ponds, h.today, h.previous, pump⟩

theorem WaterStands.after {s t u : State} (h : WaterStands t u) (site : t.site = s.site) (wiu : t.wiu = s.wiu) :
    WaterStands s u := (waterStands_of_eq site wiu).trans h

theorem LineOnly.waterStands {s t : State} (h : LineOnly s t) : WaterStands s t := by
  rw [h.rest]
  exact waterStands_of_eq rfl rfl

section
variable (s : State)

/-! ## The pump set (R70 to R74) -/

theorem pumpTo_fit (x : PumpPhase) (y : Option Source) (n : Option Nat) (z : Source) :
    fit (pumpTo x y n s) z = fit s z := (within_pumpTo s x y n).fit z

theorem pumpTo_pump (x : PumpPhase) (y : Option Source) (n : Option Nat) : (pumpTo x y n s).wiu.pump = ⟨x, y, n⟩ := by
  rw [pumpTo, post_wiu]
  rfl

theorem waterStands_pumpOff : WaterStands s (pumpOff s) :=
  (within_pumpOff s).waterStands_of_settled fun _ => pumpSettled_off (pumpTo_pump s _ _ _)

theorem waterStands_pumpTo {x : PumpPhase} {n : Option Nat} {z : Source} (phase : x ≠ .off) (sound : fit s z = true)
    (interval : n.isSome = true ↔ x ≠ .running) : WaterStands s (pumpTo x (some z) n s) := by
  refine (within_pumpTo s _ _ _).waterStands_of_settled fun _ =>
    pumpSettled_of_fit (x := z) ?_ ?_ ((pumpTo_fit s _ _ _ z).trans sound) ?_
  all_goals rw [pumpTo_pump]
  · exact phase
  · exact interval

theorem waterStands_startRequest : WaterStands s (startRequest s) := by
  unfold startRequest
  split
  · split
    · rename_i found
      exact waterStands_pumpTo s (by simp) (fit_of_selection found) (by simp)
    · exact .refl s
  · exact .refl s

theorem waterStands_grantReport : WaterStands s (grantReport s) := by
  refine (within_grantReport s).waterStands_of_settled fun settled => ?_
  unfold grantReport
  split
  · rename_i rundown
    obtain ⟨x, source, good⟩ := settled.source (by rw [rundown]; simp)
    rw [source]
    exact (waterStands_pumpTo s (by simp) good (by simp)).pump settled
  · exact settled

theorem waterStands_headerIdle : WaterStands s (headerIdle s) := by
  refine (within_headerIdle s).waterStands_of_settled fun settled => ?_
  unfold headerIdle
  split
  · rename_i idle
    obtain ⟨x, source, good⟩ := settled.source (by rw [idle.1]; simp)
    unfold enterRundown
    rw [source]
    repeat' split
    · exact (waterStands_pumpOff s).pump settled
    · exact (waterStands_pumpTo s (by simp) good (by simp)).pump settled
    · exact (waterStands_pumpOff s).pump settled
  · exact settled

/-! ## Valves -/

theorem waterStands_returnToIdle (c : Fin 32) : WaterStands s (returnToIdle c s) := by
  have idle : WaterStands s (applyDisposition c (enterPhase c .idle none none s)) :=
    ((within_enterPhase s c _ _ _).trans (within_applyDisposition _ c)).waterStands
      ((applyDisposition_wiu c _).trans (syncAlert_wiu _ _))
  exact idle.trans ((waterStands_headerIdle _).trans (waterStands_of_eq rfl rfl))

theorem waterStands_withdrawOpen (c : Fin 32) : WaterStands s (withdrawOpen c s) :=
  (waterStands_returnToIdle (removeEntry c s) c).after rfl rfl

theorem waterStands_updateRun (c : Fin 32) (f : Run → Run) : WaterStands s (updateRun c f s) :=
  (within_updateRun s c f).waterStands (updateRun_wiu c f s)

theorem waterStands_enterPhase (c : Fin 32) (x : CannonPhase) (n l : Option Nat) :
    WaterStands s (enterPhase c x n l s) := (within_enterPhase s c x n l).waterStands (syncAlert_wiu _ _)

theorem waterStands_post (n : Notice) : WaterStands s (post n s) := (within_post s n).waterStands (post_wiu s n)

theorem waterStands_syncAlert (e : AlertId) : WaterStands s (syncAlert e s) :=
  (within_syncAlert s e).waterStands (syncAlert_wiu s e)

theorem waterStands_endRun (c : Fin 32) : WaterStands s (endRun c s) :=
  (within_endRun s c).waterStands (endRun_wiu c s)

theorem waterStands_commandClose (c : Fin 32) : WaterStands s (commandClose c s) :=
  (waterStands_updateRun s c _).trans (waterStands_enterPhase _ c _ _ _)

theorem waterStands_beginClose (c : Fin 32) : WaterStands s (beginClose c s) := by
  unfold beginClose
  split
  · exact waterStands_commandClose s c
  · exact (waterStands_updateRun s c _).trans (waterStands_returnToIdle _ c)

theorem waterStands_issueEntry (c : Fin 32) (m : Movement) : WaterStands s (issueEntry c m s) := by
  unfold issueEntry
  split
  · exact waterStands_enterPhase s c _ _ _
  · exact waterStands_beginClose s c
  · exact waterStands_beginClose s c
  · exact .refl s

theorem waterStands_enqueue (c : Fin 32) (m : Movement) : WaterStands s (enqueue c m s) := by
  unfold enqueue
  split
  · exact (waterStands_issueEntry (s.setSlot (some (Config.seconds s.site.stagger))) c m).after rfl rfl
  · exact waterStands_of_eq rfl rfl

theorem waterStands_slotStep : WaterStands s (slotStep s) := by
  unfold slotStep
  split
  · exact waterStands_of_eq rfl rfl
  · exact (waterStands_issueEntry _ _ _).after rfl rfl

theorem waterStands_openRequest (c : Fin 32) : WaterStands s (openRequest c s) :=
  (waterStands_enterPhase s c _ _ _).trans (waterStands_enqueue _ c _)

theorem waterStands_queuedClose (c : Fin 32) : WaterStands s (queuedClose c s) := by
  unfold queuedClose
  split
  · exact waterStands_withdrawOpen s c
  · split
    · exact waterStands_enqueue s c _
    · exact .refl s
  · exact (waterStands_enterPhase s c _ _ _).trans (waterStands_enqueue _ c _)
  · exact .refl s

theorem waterStands_immediateClose (c : Fin 32) : WaterStands s (immediateClose c s) := by
  have closed : WaterStands s (beginClose c (removeEntry c s)) := (waterStands_beginClose _ c).after rfl rfl
  unfold immediateClose
  split
  · exact waterStands_withdrawOpen s c
  · exact closed
  · exact closed
  · exact closed
  · exact .refl s

theorem waterStands_closeToStop (c : Fin 32) : WaterStands s (closeToStop c s) := by
  have closed : WaterStands s (commandClose c (removeEntry c s)) := (waterStands_commandClose _ c).after rfl rfl
  unfold closeToStop
  split
  · exact waterStands_withdrawOpen s c
  · exact closed
  · exact closed
  · exact closed
  · exact .refl s

/-! ## The dispatcher -/

theorem waterStands_foldl {α : Type} (f : State → α → State) (h : ∀ t a, WaterStands t (f t a)) (l : List α) :
    WaterStands s (l.foldl f s) := by
  induction l generalizing s with
  | nil => exact .refl s
  | cons a l ih => exact (h s a).trans (ih _)

theorem waterStands_forCannons (f : Fin 32 → State → State) (h : ∀ c t, WaterStands t (f c t)) :
    WaterStands s (forCannons f s) := waterStands_foldl s _ (fun t c => h c t) _

theorem waterStands_decideEnd (c : Fin 32) : WaterStands s (decideEnd c s) := by
  unfold decideEnd
  split
  · exact .refl s
  · split
    · exact waterStands_endRun s c
    · exact (waterStands_updateRun s c _).trans (waterStands_queuedClose _ c)

theorem waterStands_decideEnds (test : Run → Bool) : WaterStands s (decideEnds test s) := by
  refine waterStands_forCannons s _ fun c t => ?_
  repeat' split
  · exact waterStands_decideEnd t c
  · exact .refl t
  · exact .refl t

theorem waterStands_loseCapacityAt (c : Fin 32) : WaterStands s (loseCapacityAt c s) := by
  have closed : ∀ d, WaterStands s (immediateClose c (setDisposition c d s)) := fun _ =>
    (waterStands_updateRun s c _).trans (waterStands_immediateClose _ c)
  unfold loseCapacityAt
  repeat' split
  · exact .refl s
  · exact .refl s
  · exact closed _
  · exact closed _
  · exact closed _
  · exact closed _
  · exact .refl s

theorem waterStands_capacityLoss : WaterStands s (capacityLoss s) :=
  waterStands_forCannons s _ fun c t => waterStands_loseCapacityAt t c

theorem waterStands_overloadTest : WaterStands s (overloadTest s) := by
  unfold overloadTest
  split
  · exact .refl s
  · exact waterStands_capacityLoss s

theorem waterStands_detachAt (k : Nat) (c : Fin 32) : WaterStands s (detachAt k c s) := by
  unfold detachAt
  repeat' split
  · exact .refl s
  · exact (waterStands_decideEnd _ c).after rfl rfl
  · exact .refl s

theorem waterStands_announceClosure (k : Nat) (o : Order) : WaterStands s (announceClosure k o s) := by
  refine (within_announceClosure s k o).waterStands ?_
  unfold announceClosure
  rw [post_wiu]
  split <;> rfl

theorem waterStands_closeOrder (k : Nat) (x : OrderOutcome) : WaterStands s (closeOrder k x s) := by
  have detached : ∀ o, WaterStands s (forCannons (detachAt k) (writeClosure k o x s)) := fun o =>
    (waterStands_forCannons (writeClosure k o x s) _ fun c t => waterStands_detachAt t k c).after rfl rfl
  unfold closeOrder
  repeat' split
  · exact .refl s
  · exact .refl s
  · exact (detached _).trans (waterStands_announceClosure _ k _)

theorem waterStands_closeOrders (test : Order → Bool) (x : OrderOutcome) : WaterStands s (closeOrders test x s) := by
  refine waterStands_foldl s _ (fun t k => ?_) _
  repeat' split
  · exact waterStands_closeOrder t k x
  · exact .refl t
  · exact .refl t

/-! ## The grant pass -/

theorem waterStands_attempt (p : Pass) (c : Fin 32) (f : State → State) (h : WaterStands p.s (f p.s)) :
    WaterStands p.s (p.attempt c f).s := by
  unfold Pass.attempt
  split
  · exact h
  · exact .refl p.s

theorem waterStands_resumeRun (c : Fin 32) : WaterStands s (resumeRun c s) :=
  (waterStands_updateRun s c _).trans (waterStands_openRequest _ c)

theorem waterStands_newRun (c : Fin 32) (o : Origin) (t : Option (Fin 4)) (n : Nat) :
    WaterStands s (newRun c o t n s) := (waterStands_openRequest _ c).after rfl rfl

theorem waterStands_passFold {α : Type} (f : Pass → α → Pass) (h : ∀ p a, WaterStands p.s (f p a).s) (l : List α)
    (p : Pass) : WaterStands p.s (l.foldl f p).s := by
  induction l generalizing p with
  | nil => exact .refl p.s
  | cons a l ih => exact (h p a).trans (ih _)

theorem waterStands_resumeOrderAt (k : Nat) (p : Pass) (c : Fin 32) : WaterStands p.s (resumeOrderAt k p c).s := by
  unfold resumeOrderAt
  repeat' split
  · exact waterStands_attempt p c _ (waterStands_resumeRun p.s c)
  · exact .refl p.s
  · exact .refl p.s

theorem waterStands_grantOrderAt (k : Nat) (q : Fin 24) (acc : Pass × Nat) (c : Fin 32) :
    WaterStands acc.1.s (grantOrderAt k q acc c).1.s := by
  unfold grantOrderAt
  simp only
  split
  · exact waterStands_attempt acc.1 c _ (waterStands_newRun _ c _ _ _)
  · exact .refl acc.1.s

theorem waterStands_grantOrderFold (k : Nat) (q : Fin 24) (l : List (Fin 32)) (acc : Pass × Nat) :
    WaterStands acc.1.s (l.foldl (grantOrderAt k q) acc).1.s := by
  induction l generalizing acc with
  | nil => exact .refl acc.1.s
  | cons a l ih => exact (waterStands_grantOrderAt k q acc a).trans (ih _)

theorem waterStands_serveOrder (p : Pass) (k : Nat) : WaterStands p.s (serveOrder p k).s := by
  unfold serveOrder
  split
  · exact .refl p.s
  · exact (waterStands_passFold _ (waterStands_resumeOrderAt k) _ p).trans (waterStands_grantOrderFold k _ _ (_, _))

theorem waterStands_resumeAutoAt (p : Pass) (c : Fin 32) : WaterStands p.s (resumeAutoAt p c).s := by
  unfold resumeAutoAt
  repeat' split
  · exact waterStands_attempt p c _ (waterStands_resumeRun p.s c)
  · exact .refl p.s
  · exact .refl p.s

theorem waterStands_grantAutoAt (i : Fin 24) (p : Pass) (c : Fin 32) : WaterStands p.s (grantAutoAt i p c).s := by
  unfold grantAutoAt
  simp only
  split
  · exact waterStands_attempt p c _ ((waterStands_newRun p.s c _ _ _).trans (waterStands_of_eq rfl rfl))
  · exact .refl p.s

theorem waterStands_servePile (p : Pass) (i : Fin 24) : WaterStands p.s (servePile p i).s := by
  unfold servePile
  split
  · exact .refl p.s
  · exact waterStands_passFold _ (waterStands_grantAutoAt i) _ p

theorem waterStands_passSteps : WaterStands s (passSteps s).s := by
  have stepped := (waterStands_passFold _ waterStands_serveOrder (openWetOrders s) ⟨s, false, false⟩).trans
    (waterStands_passFold _ waterStands_resumeAutoAt
      (resumableAuto ((openWetOrders s).foldl serveOrder ⟨s, false, false⟩).s) _)
  unfold passSteps
  simp only
  split
  · exact stepped.trans (waterStands_passFold _ waterStands_servePile _ _)
  · exact stepped

theorem waterStands_grantPass : WaterStands s (grantPass s) := by
  have granted : WaterStands s (if (passSteps s).granted then grantReport (passSteps s).s else (passSteps s).s) := by
    split
    · exact (waterStands_passSteps s).trans (waterStands_grantReport _)
    · exact waterStands_passSteps s
  unfold grantPass
  simp only
  refine WaterStands.trans ?_ (waterStands_headerIdle _)
  split
  · exact granted.trans (waterStands_startRequest _)
  · exact granted

/-- The pass that may end an event reaches no water. -/
theorem inEvent_waterStands (f : State → State) : WaterStands (f (s.setPass false)) (inEvent f s) := by
  rcases inEvent_cases s f with h | h <;> rw [h]
  · exact .refl _
  · exact (waterStands_grantPass _).trans (waterStands_of_eq rfl rfl)

theorem waterStands_waterEvent (f : State → State) : WaterStands (f s) (waterEvent f s) := by
  refine (within_waterEvent f s).waterStands ?_
  unfold waterEvent reportUsable
  split <;> exact syncAlerts_wiu _ _

/-! ## Forced switches (R75 to R77) -/

theorem waterStands_pumpStop : WaterStands s (pumpStop s) :=
  (waterStands_pumpOff s).trans (waterStands_capacityLoss _)

theorem waterStands_giveUpSource : WaterStands s (giveUpSource s) := by
  have off : WaterStands s (s.setPump ⟨.off, none, none⟩) :=
    (within_setPump s _).waterStands_of_settled fun _ => pumpSettled_off rfl
  unfold giveUpSource
  split
  · exact off
  · exact off.trans (waterStands_capacityLoss _)

theorem waterStands_selectAnew : WaterStands s (selectAnew s) := by
  refine (within_selectAnew s).waterStands_of_settled fun settled => ?_
  unfold selectAnew
  repeat' split
  · exact settled
  · rename_i found
    refine pumpSettled_of_fit (by simp) rfl ?_ (by simp)
    exact ((within_setPump s _).fit _).trans (fit_of_selection found)
  · exact settled

/-- A forced switch gives up the source: the set is OFF before the new selection. -/
theorem giveUpSource_settled : PumpSettled (giveUpSource s) := by
  have off : PumpSettled (s.setPump ⟨.off, none, none⟩) := pumpSettled_off rfl
  by_cases changing : s.wiu.pump.phase = .changeover
  · rw [giveUpSource, if_pos changing]
    exact off
  · rw [giveUpSource, if_neg changing]
    exact (waterStands_capacityLoss _).pump off

/-- A forced switch leaves a settled pump set whatever it finds. -/
theorem forcedSwitch_settled : PumpSettled (forcedSwitch s) :=
  ((waterStands_selectAnew _).trans ((waterStands_syncAlert _ _).trans (waterStands_post _ _))).pump
    (giveUpSource_settled s)

theorem waterStands_pumpOnMode (m : Mode) : WaterStands s (pumpOnMode m s) := by
  unfold pumpOnMode
  split
  case h_1 | h_5 => exact .refl s
  all_goals exact waterStands_pumpStop s

end

end Sys2Proof.Machine
end

