-- ==== Sys2Proof/Proofs/WaterKept.lean ====
section
/-! SUPPORT. What every event of the part does to the ponds, the day records and the pump set: most leave the water as it
stands, and the few that write it are the rules an invariant of the water has to keep (R62 to R84). -/

namespace Sys2Proof.Machine

/-! ## What leaves the water as it stands -/

section
variable (s : State)

theorem GateFrame.waterStands {s t : State} (h : GateFrame s t) : WaterStands s t := waterStands_of_eq h.site h.wiu

theorem waterStands_setPass (b : Bool) : WaterStands s (s.setPass b) := waterStands_of_eq rfl rfl

theorem waterStands_markPass : WaterStands s (markPass s) := waterStands_setPass s true

theorem waterStands_driftAt (c : Fin 32) : WaterStands s (driftAt c s) := by
  unfold driftAt
  simp only
  repeat' split
  · exact .refl s
  · exact ((waterStands_updateRun _ c _).trans (waterStands_queuedClose _ c)).after rfl rfl
  · exact waterStands_of_eq rfl rfl

theorem waterStands_driftEvaluation : WaterStands s (driftEvaluation s) :=
  waterStands_forCannons s _ fun c t => waterStands_driftAt t c

theorem waterStands_gateStep (v w : BitVec 4) : WaterStands s (gateStep v w s) :=
  (gateFrame_gateStages s v w).waterStands.trans (waterStands_driftEvaluation _)

theorem waterStands_releaseEnded (c : Fin 32) : WaterStands s (releaseEnded c s) :=
  (waterStands_endRun s c).trans ((waterStands_headerIdle _).trans (waterStands_markPass _))

theorem waterStands_unbiddenFlow (c : Fin 32) : WaterStands s (unbiddenFlow c s) :=
  (waterStands_enterPhase s c _ _ _).trans ((waterStands_endRun _ c).trans (waterStands_overloadTest _))

theorem waterStands_feedbackOpened (c : Fin 32) : WaterStands s (feedbackOpened c s) := by
  unfold feedbackOpened
  repeat' split
  · exact (waterStands_enterPhase s c _ _ _).trans (waterStands_updateRun _ c _)
  · exact (waterStands_enterPhase s c _ _ _).trans (waterStands_updateRun _ c _)
  · exact ((waterStands_enterPhase _ c _ _ _).trans (waterStands_endRun _ c)).after rfl rfl
  · exact waterStands_unbiddenFlow s c
  · exact waterStands_unbiddenFlow s c
  · exact waterStands_unbiddenFlow s c
  · exact .refl s
  · exact .refl s

/-- A cannon leaves its reservation for FAULTED or LOCKED, its delivery stopped and its entry removed. -/
theorem waterStands_putOut (c : Fin 32) (x : CannonPhase) (n l : Option Nat) :
    WaterStands s (releaseEnded c (enterPhase c x n l (removeEntry c (stopDelivery c s)))) :=
  (waterStands_updateRun s c _).trans
    (((waterStands_enterPhase _ c _ _ _).trans (waterStands_releaseEnded _ c)).after rfl rfl)

theorem waterStands_feedbackClosed (c : Fin 32) : WaterStands s (feedbackClosed c s) := by
  unfold feedbackClosed
  split
  · exact waterStands_putOut s c _ _ _
  · exact waterStands_putOut s c _ _ _
  · exact waterStands_returnToIdle s c
  · exact (waterStands_enterPhase s c _ _ _).trans (waterStands_of_eq rfl rfl)
  · exact waterStands_enterPhase s c _ _ _
  · exact .refl s

theorem waterStands_feedbackStep (c : Fin 32) (b : Bool) : WaterStands s (feedbackStep c b s) := by
  unfold feedbackStep
  simp only
  repeat' split
  · exact waterStands_returnToIdle s c
  · exact waterStands_of_eq rfl rfl
  · exact (waterStands_feedbackOpened _ c).after rfl rfl
  · exact (waterStands_feedbackClosed _ c).after rfl rfl

theorem waterStands_travelStep (c : Fin 32) : WaterStands s (travelStep c s) := by
  unfold travelStep
  repeat' split
  · exact .refl s
  · exact ((waterStands_enterPhase _ c _ _ _).trans (waterStands_releaseEnded _ c)).after rfl rfl
  · exact (waterStands_enterPhase s c _ _ _).trans (waterStands_endRun _ c)
  · exact waterStands_unbiddenFlow s c
  · exact waterStands_returnToIdle s c
  · exact waterStands_enterPhase s c _ _ _

theorem waterStands_lockCannon (c : Fin 32) : WaterStands s (lockCannon c s) := by
  have left : ∀ t x y z, WaterStands t (releaseEnded c (enterPhase c x y z t)) := fun t x y z =>
    (waterStands_enterPhase t c x y z).trans (waterStands_releaseEnded _ c)
  unfold lockCannon
  simp only
  split
  · exact (waterStands_enterPhase s c _ _ _).trans (waterStands_endRun _ c)
  · exact waterStands_enterPhase s c _ _ _
  · exact (left _ _ _ _).after rfl rfl
  · exact waterStands_putOut s c _ _ _
  · exact waterStands_putOut s c _ _ _
  · exact waterStands_putOut s c _ _ _
  · exact left s _ _ _
  · exact .refl s
  · exact .refl s

theorem waterStands_unlockCannon (c : Fin 32) : WaterStands s (unlockCannon c s) := by
  unfold unlockCannon
  split
  · exact waterStands_unbiddenFlow s c
  · exact (waterStands_enterPhase s c _ _ _).trans (waterStands_of_eq rfl rfl)

theorem waterStands_excludeAt (c : Fin 32) : WaterStands s (excludeAt c s) := by
  unfold excludeAt
  simp only
  repeat' split
  · exact .refl s
  · exact ((waterStands_updateRun _ c _).trans (waterStands_immediateClose _ c)).after rfl rfl
  · exact ((waterStands_updateRun _ c _).trans (waterStands_immediateClose _ c)).after rfl rfl
  · exact waterStands_of_eq rfl rfl

theorem waterStands_evaluateExclusion : WaterStands s (evaluateExclusion s) :=
  waterStands_forCannons s _ fun c t => waterStands_excludeAt t c

theorem waterStands_reportMachine (m : Fin 4) (r : Fin 2) (n : Nat) : WaterStands s (reportMachine m r n s) :=
  ((waterStands_syncAlert _ _).trans (waterStands_evaluateExclusion _)).after rfl rfl

theorem waterStands_machineStaleStep (m : Fin 4) : WaterStands s (machineStaleStep m s) := by
  unfold machineStaleStep
  split
  · exact .refl s
  · exact ((waterStands_syncAlert _ _).trans (waterStands_evaluateExclusion _)).after rfl rfl

theorem waterStands_configureCannon (c : Fin 32) (k : CannonConfig) : WaterStands s (configureCannon c k s) := by
  have found : ∀ t, WaterStands t (discoverOpen c t) := fun t => by
    unfold discoverOpen
    split
    · exact waterStands_unbiddenFlow t c
    · exact .refl t
  exact (found _).after rfl rfl

theorem waterStands_releaseCannon (c : Fin 32) : WaterStands s (releaseCannon c s) := by
  unfold releaseCannon
  simp only
  split
  · exact (waterStands_syncAlert _ _).after rfl rfl
  · exact .refl s

theorem waterStands_targetTest (c : Fin 32) : WaterStands s (targetTest c s) := by
  unfold targetTest
  repeat' split
  · exact .refl s
  · exact .refl s
  · exact (waterStands_updateRun s c _).trans (waterStands_queuedClose _ c)
  · exact .refl s
  · exact .refl s

theorem waterStands_endOthers (k : Nat) (c : Fin 32) : WaterStands s (endOthers k c s) := by
  refine waterStands_forCannons s _ fun x t => ?_
  repeat' split
  · exact waterStands_decideEnd t x
  · exact .refl t
  · exact .refl t

theorem waterStands_resumeStep (c : Fin 32) : WaterStands s (resumeStep c s) := by
  unfold resumeStep
  repeat' split
  · exact waterStands_endRun s c
  · exact .refl s
  · exact .refl s

theorem waterStands_orderStep (x : OrderKind) (y : OrderOutcome) (k : Nat) : WaterStands s (orderStep x y k s) := by
  unfold orderStep
  repeat' split
  · exact waterStands_closeOrder s k y
  · exact .refl s
  · exact .refl s

theorem waterStands_holdStep (k tag : Nat) (p : Fin 24) (d : Nat) : WaterStands s (holdStep k tag p d s) := by
  refine WaterStands.after ((waterStands_decideEnds _ _).trans (waterStands_closeOrders _ _ _)) ?_ ?_ <;> rfl

theorem waterStands_cannonsOnMode (m : Mode) : WaterStands s (cannonsOnMode m s) := by
  have emptied : ∀ t, WaterStands t ((t.setQueue []).setSlot none) := fun t => waterStands_of_eq rfl rfl
  unfold cannonsOnMode
  split
  · exact (waterStands_forCannons s _ fun c t => waterStands_closeToStop t c).trans (emptied _)
  · refine waterStands_forCannons s _ fun c t => ?_
    unfold withdrawPending
    split
    · exact waterStands_withdrawOpen t c
    · exact .refl t
  · exact .refl s
  · exact .refl s

theorem waterStands_dispatcherOnMode (x y : Mode) : WaterStands s (dispatcherOnMode x y s) := by
  unfold dispatcherOnMode
  repeat' split
  · exact waterStands_decideEnds s _
  · exact waterStands_decideEnds s _
  · exact (waterStands_decideEnds s _).trans (waterStands_markPass _)
  · exact waterStands_markPass s
  · exact waterStands_markPass s

theorem waterStands_sparingOrders (f : State → State) (h : ∀ t, WaterStands t (f t)) :
    WaterStands s (sparingOrders f s) := by
  have done := h (s.setOrders [])
  exact ⟨done.site, done.ponds, done.today, done.previous, fun settled =>
    (done.pump (settled.of_pump rfl fun _ _ => id)).of_pump rfl fun _ _ => id⟩

theorem waterStands_enterMode (m : Mode) (x : Cause) : WaterStands s (enterMode m x s) := by
  have entered : WaterStands s (post .mode (s.setMode m (some x))) := (waterStands_post _ _).after rfl rfl
  have ordered : ∀ t, WaterStands t (ordersOnMode m t) := fun t => by
    unfold ordersOnMode
    split
    · exact waterStands_closeOrders t _ _
    all_goals exact .refl t
  have answered := fun t => waterStands_sparingOrders t (fun u => dispatcherOnMode s.mau.mode m (cannonsOnMode m u))
    fun u => (waterStands_cannonsOnMode u m).trans (waterStands_dispatcherOnMode _ _ m)
  exact entered.trans <| (answered _).trans <| (ordered _).trans <|
    (waterStands_pumpOnMode _ m).trans (waterStands_syncAlert _ _)

theorem waterStands_stopStep (b : Bool) : WaterStands s (stopStep b s) := by
  unfold stopStep
  simp only
  split
  · exact (waterStands_enterMode _ _ _).after rfl rfl
  · exact waterStands_of_eq rfl rfl

theorem waterStands_modeStep (m : Mode) : WaterStands s (modeStep m s) := by
  unfold modeStep
  split
  · exact .refl s
  · exact waterStands_enterMode s _ _

theorem waterStands_ackStep (e : AlertId) : WaterStands s (ackStep e s) := by
  unfold ackStep
  simp only
  split <;> exact waterStands_of_eq rfl rfl

/-! ### Monitors and episodes -/

theorem waterStands_recomputeEscalation : WaterStands s (recomputeEscalation s) := by
  obtain ⟨piles, written⟩ := recomputeEscalation_writes s
  rw [written]
  exact waterStands_of_eq rfl rfl

/-- What an episode's opening, update and closure end with. -/
theorem waterStands_announced (n : Notice) : WaterStands s (recomputeEscalation (post n s)) :=
  (waterStands_post s n).trans (waterStands_recomputeEscalation _)

theorem waterStands_closeEpisode (k : Nat) (r : CloseReason) : WaterStands s (closeEpisode k r s) := by
  unfold closeEpisode
  split
  · exact .refl s
  · exact (waterStands_announced _ _).after rfl rfl

theorem waterStands_closeStale (m : Fin 8) : WaterStands s (closeStale m s) := by
  unfold closeStale
  split
  · exact waterStands_closeEpisode s _ _
  · exact .refl s

theorem waterStands_readingStep (m : Fin 8) (v : Nat) : WaterStands s (readingStep m v s) := by
  have recorded : WaterStands s (recordReading m v s) := (waterStands_syncAlert _ _).after rfl rfl
  have heldOff : ∀ k t, WaterStands t (holdOff m k t) := fun k t => by
    unfold holdOff
    simp only
    split
    · exact (waterStands_closeEpisode _ _ _).after rfl rfl
    · exact waterStands_of_eq rfl rfl
  unfold readingStep
  simp only
  repeat' split
  · exact recorded.trans ((waterStands_announced _ _).after rfl rfl)
  · exact recorded
  · exact recorded
  · exact recorded.trans ((waterStands_announced _ _).after rfl rfl)
  · exact recorded.trans (heldOff _ _)

theorem waterStands_releaseMonitor (m : Fin 8) : WaterStands s (releaseMonitor m s) := by
  unfold releaseMonitor
  split
  · exact (waterStands_closeStale s m).trans ((waterStands_syncAlert _ _).after rfl rfl)
  · exact .refl s

theorem waterStands_monitorStaleStep (m : Fin 8) : WaterStands s (monitorStaleStep m s) := by
  unfold monitorStaleStep
  split
  · exact .refl s
  · refine WaterStands.after (t := s.setMonitor m { s.monitor m with stale := true, countdown := none }) ?_ rfl rfl
    exact (waterStands_syncAlert _ (.monitorStale m)).trans
      ((waterStands_closeStale _ m).trans (waterStands_of_eq rfl rfl))

theorem waterStands_pulseStep (m : Fin 2) : WaterStands s (pulseStep m s) := by
  unfold pulseStep
  simp only
  split <;> exact waterStands_of_eq rfl rfl

theorem waterStands_splitStep (f e o : Nat) : WaterStands s (splitStep f e o s) := by
  obtain ⟨piles, written, -⟩ := splitStep_writes f e o s
  rw [written]
  exact waterStands_of_eq rfl rfl

theorem waterStands_pollEvent (n : Nat) : WaterStands s (pollEvent n s).1 := by
  unfold pollEvent
  generalize s.lc.notices.take n = l, ([] : List Byte) = b
  induction l generalizing s b with
  | nil => exact .refl s
  | cons x l ih =>
    have taken : WaterStands s (delivered x s) := by
      unfold delivered
      repeat' split
      all_goals exact waterStands_of_eq rfl rfl
    have left : WaterStands (delivered x s) ((delivered x s).setNotices (s.lc.notices.erase x)) :=
      waterStands_of_eq rfl rfl
    exact taken.trans (left.trans (ih _ _))

theorem waterStands_warmRestart : WaterStands s (warmRestart s) := by
  obtain ⟨ponds, today, previous⟩ : WaterFrame s (restarted s) := by
    obtain ⟨-, -, -, -, -, water, -⟩ := restarted_frame s
    exact water
  have site : (restarted s).site = s.site := by
    obtain ⟨-, -, -, -, site, -⟩ := restarted_frame s
    exact site
  have restarts : WaterStands s (restarted s) := ⟨site, ponds, today, previous, fun _ => pumpSettled_off (restarted_pump s)⟩
  have latched : ∀ t, WaterStands t (relatchAll t) := fun t => by
    obtain ⟨a, n, read⟩ := relatchAll_eq t
    rw [read]
    exact waterStands_of_eq rfl rfl
  have obeyed : ∀ t, WaterStands t (obeyStop t) := fun t => by
    unfold obeyStop
    split
    · exact waterStands_enterMode t _ _
    · exact .refl t
  rw [warmRestart_eq]
  exact restarts.trans ((latched _).trans ((obeyed _).trans (waterStands_setPass _ _)))

/-! ### Piles -/

theorem waterStands_forPiles (f : Fin 24 → State → State) (h : ∀ p t, WaterStands t (f p t)) :
    WaterStands s (forPiles f s) := waterStands_foldl s _ (fun t p => h p t) _

theorem waterStands_completion : WaterStands s (completion s) := by
  have tiers : ∀ p t, WaterStands t (recordTier p t) := fun p t => by
    unfold recordTier
    split <;> exact waterStands_of_eq rfl rfl
  have ended : ∀ p t, WaterStands t (endSatisfied p t) := fun p t => by
    unfold endSatisfied
    split
    · exact waterStands_decideEnds t _
    · exact .refl t
  have opened : ∀ p t, WaterStands t (setOpenDemand p t) := fun p t => waterStands_of_eq rfl rfl
  exact (waterStands_forPiles s _ tiers).trans <| (waterStands_forPiles _ _ ended).trans <|
    (waterStands_forPiles _ _ opened).trans (waterStands_markPass _)

theorem waterStands_releasePile (p : Fin 24) : WaterStands s (releasePile p s) := by
  unfold releasePile
  split <;> exact waterStands_of_eq rfl rfl

theorem waterStands_creditPile (p : Fin 24) (q : Nat) : WaterStands s (creditPile p q s) := by
  unfold creditPile
  simp only
  split <;> exact waterStands_of_eq rfl rfl

theorem waterStands_creditOrder (x : Origin) (q : Nat) : WaterStands s (creditOrder x q s) := by
  unfold creditOrder
  repeat' split
  all_goals exact waterStands_of_eq rfl rfl

end

/-! ## The day's turns (R23, R24, R83) -/

/-- The day's record stands but for the day it is of, or it has become the previous one and an empty one is open. -/
structure DayTurns (s t : State) : Prop where
  ponds : t.wiu.ponds = s.wiu.ponds
  pump : t.wiu.pump = s.wiu.pump
  days : ((∃ d, t.wiu.today = { s.wiu.today with day := d }) ∧ t.wiu.previous = s.wiu.previous) ∨
    ((∃ d, t.wiu.today = .empty d) ∧ t.wiu.previous = s.wiu.today)

theorem Undated.dayTurns {d : Nat} {s t : State} (h : Undated s t) (k : DayTested d s t) : DayTurns s t := by
  refine ⟨h.ponds, h.pump, ?_⟩
  unfold DayTested at k
  split at k
  · obtain ⟨-, today, previous⟩ := k
    exact .inl ⟨⟨_, today⟩, previous⟩
  · split at k
    · obtain ⟨-, today, previous, -⟩ := k
      exact .inr ⟨⟨_, today⟩, previous⟩
    · obtain ⟨-, today, previous⟩ := k
      exact .inl ⟨⟨_, today⟩, previous⟩

theorem dayTurns_rolloverTest (s : State) : DayTurns s (rolloverTest s) :=
  (rolloverTest_dated s).1.dayTurns (rolloverTest_dated s).2

theorem dayTurns_siteDated (v : Site) (s : State) : DayTurns s (siteDated v s) := by
  obtain ⟨undated, dated⟩ := siteDated_dated v s
  split at dated
  · exact undated.dayTurns dated
  · obtain ⟨-, -, today, previous⟩ := dated
    exact ⟨undated.ponds, undated.pump, .inl ⟨⟨_, today⟩, previous⟩⟩

/-! ## What writes the water -/

/-- An invariant of the water: it rests on what WaterStands keeps, and the day's turns, the inflows, the ends of
settling, SITE_SETUP, the reports of ponds and the reset keep it. The draws, the pump set's own intervals and the setup
of ponds are left to each. -/
structure WaterRules (P : State → Prop) : Prop where
  stands : ∀ {s t}, P s → WaterStands s t → P t
  turns : ∀ {s t}, P s → DayTurns s t → t.site = s.site → P t
  inflow : ∀ s kind p v, P s → P (inflow kind p v s)
  settle : ∀ s p, P s → P (settle p s)
  site : ∀ s v, P s → P (siteWatered v s)
  report : ∀ s p level x y, P s → P (reportPond p level x y s)
  powerOn : ∀ s a b, P (powerOn a b s)

theorem forPiles_keeps {P : State → Prop} {f : Fin 24 → State → State} (h : ∀ p t, P t → P (f p t)) {s : State}
    (k : P s) : P (forPiles f s) := List.foldlRecOn _ _ k fun t kept p _ => h p t kept

section
variable {P : State → Prop} (h : WaterRules P) {s : State}
include h

theorem WaterRules.inEvent {f : State → State} (k : P (f (s.setPass false))) : P (inEvent f s) :=
  h.stands k (inEvent_waterStands s f)

/-- A new time, and the day's turn that it may bring (R20, R22). -/
theorem WaterRules.newTime (y : Yc) (k : P s) : P (rolloverTest (syncAlert .timeInvalid (s.setYc y))) := by
  have timed : WaterStands s (syncAlert .timeInvalid (s.setYc y)) := (waterStands_syncAlert _ _).after rfl rfl
  exact h.turns (h.stands k timed) (dayTurns_rolloverTest _) (rolloverTest_site _)

theorem WaterRules.setTimeStep (n : Nat) (k : P s) : P (setTimeStep n s) :=
  h.stands (h.newTime _ k) ((waterStands_syncAlert _ _).after rfl rfl)

theorem WaterRules.secondStep (k : P s) : P (secondStep s) := by
  have purged : ∀ t, WaterStands t (purgeAtHour t) := fun t => by
    unfold purgeAtHour
    split <;> exact waterStands_of_eq rfl rfl
  rw [secondStep_eq]
  split
  · exact h.stands (h.newTime _ k) ((purged _).trans (waterStands_syncAlert _ _))
  · exact h.stands k ((waterStands_syncAlert _ _).after rfl rfl)

theorem WaterRules.siteStep (v : Site) (k : P s) : P (Machine.siteStep v s) := by
  obtain ⟨machines, declared, -⟩ := undeclared_machine (siteWatered v s)
  have redeclared : WaterStands (siteWatered v s) (Machine.siteStep v s) := by
    have alerted : ∀ t, WaterStands t (syncAlerts ((List.finRange 4).map .machineStale) t) := fun t =>
      (within_syncAlerts t _).waterStands (syncAlerts_wiu _ t)
    change WaterStands _ (redeclare _ (siteWatered v s))
    unfold redeclare
    rw [declared]
    simp only
    split
    · exact ((alerted _).trans (waterStands_evaluateExclusion _)).after rfl rfl
    · exact (alerted _).after rfl rfl
  exact h.stands (h.site s v k) redeclared

theorem WaterRules.rainEdge (k : P s) : P (rainEdge s) := by
  have low : P (setRainLow s) := h.stands k (waterStands_of_eq rfl rfl)
  have wetted : ∀ n t, WaterStands t (forPiles (wetPile n) t) := fun n t => waterStands_forPiles t _ fun p u => by
    unfold wetPile
    simp only
    split <;> exact waterStands_of_eq rfl rfl
  have rained : ∀ n t p, P t → P (rainOnPond n p t) := fun n t p k => by
    unfold rainOnPond
    simp only
    split
    · exact h.inflow _ _ _ _ k
    · exact k
  unfold Machine.rainEdge shareRain
  simp only
  split
  · exact List.foldlRecOn _ _ (h.stands low ((wetted _ _).after (s := setRainLow s) rfl rfl)) fun u k p _ => rained _ u p k
  · exact low

theorem WaterRules.assessmentStep (k : P s) : P (assessmentStep s) := by
  have run : ∀ drain v t, P t → P (postRunoff drain v t) := fun drain v t k => by
    unfold postRunoff
    repeat' split
    · exact h.inflow _ _ _ _ k
    · exact k
    · exact k
  have assessed : ∀ i t p, P t → P (assessPile i p t) := fun i t p k => by
    unfold assessPile
    simp only
    split
    · have judged := fun d x => h.stands (run (t.pile p).config.drain (runoffOf (t.pile p)) (t.setPile p d)
          (h.stands k (waterStands_of_eq rfl rfl)))
        (t := (postRunoff (t.pile p).config.drain (runoffOf (t.pile p)) (t.setPile p d)).setPile p x)
        (waterStands_of_eq rfl rfl)
      split
      · exact judged _ _
      · exact h.stands (judged _ _) (waterStands_post _ _)
    · exact k
  have restarted : P (s.setPau { s.pau with countdown := Config.assessmentTicks }) :=
    h.stands k (waterStands_of_eq rfl rfl)
  exact h.stands (forPiles_keeps (fun p t => assessed _ t p) restarted) (waterStands_completion _)

/-- A delivery second keeps the invariant where its draw does. -/
theorem WaterRules.deliveryStep (c : Fin 32) (k : P s)
    (draws : ∀ t, WaterStands s t → P t → P (draw false (s.cannon c).config.flow t)) : P (deliveryStep c s) := by
  have delivered : ∀ r, P (deliver c r s) := fun r => by
    have credited := fun t : State => (waterStands_creditPile t r.pile (s.cannon c).config.flow).trans
      (waterStands_creditOrder _ r.origin (s.cannon c).config.flow)
    exact draws _ ((credited _).after rfl rfl) (h.stands k ((credited _).after rfl rfl))
  have tested := fun r => h.stands (delivered r) (waterStands_targetTest _ c)
  unfold Machine.deliveryStep
  simp only
  repeat' split
  · exact k
  · exact h.stands (tested _) (waterStands_endOthers _ _ c)
  · exact tested _
  · exact tested _
  · exact tested _
  · exact k
  · exact k

/-- A lost-water second keeps the invariant where its draw does. -/
theorem WaterRules.lostWaterStep (c : Fin 32) (k : P s)
    (draws : ∀ t, WaterStands s t → P t → P (draw true (s.cannon c).config.flow t)) : P (lostWaterStep c s) := by
  unfold Machine.lostWaterStep
  simp only
  repeat' split
  · exact k
  · exact draws _ (waterStands_of_eq rfl rfl) (h.stands k (waterStands_of_eq rfl rfl))
  · exact h.stands k (waterStands_of_eq rfl rfl)

/-! ## Every command -/

/-- The events that neither draw nor end an interval of PRIMING or CHANGEOVER. -/
theorem WaterRules.makes {i : Instr} {f : State → State} (m : Makes i f) (priming : i ≠ .primingExpiry)
    (changeover : i ≠ .changeoverExpiry) (delivery : ∀ c, i ≠ .deliverySecond c) (lost : ∀ c, i ≠ .lostWaterExpiry c)
    (k : P s) : P (f s) := by
  cases m with
  | gateExpiry => exact h.stands k (waterStands_gateStep s _ _)
  | rainTip => exact h.rainEdge k
  | secondEvent => exact h.secondStep k
  | assessment => exact h.assessmentStep k
  | primingExpiry => exact absurd rfl priming
  | changeoverExpiry => exact absurd rfl changeover
  | rundownExpiry => exact h.stands k (waterStands_pumpStop s)
  | settleExpiry => exact h.settle s _ k
  | deliverySecond => exact absurd rfl (delivery _)
  | lostWaterExpiry => exact absurd rfl (lost _)
  | slotExpiry => exact h.stands k (waterStands_slotStep s)
  | feedbackChange => exact h.stands k (waterStands_feedbackStep s _ _)
  | travelExpiry => exact h.stands k (waterStands_travelStep s _)
  | machineStaleExpiry => exact h.stands k (waterStands_machineStaleStep s _)
  | resumeExpiry => exact h.stands k (waterStands_resumeStep s _)
  | orderExpiry | holdExpiry => exact h.stands k (waterStands_orderStep s _ _ _)
  | stopLineChange => exact h.stands k (waterStands_stopStep s _)

/-- What a request asks for, but for the setup of a pond. -/
theorem WaterRules.asks {i : Instr} {f : State → State} (m : Asks i f) (pond : ∀ tag n a x, i ≠ .pondSetup tag n a x)
    (k : P s) : P (f s) := by
  cases m with
  | siteSetup => exact h.siteStep _ k
  | poolSplit => exact h.stands k (waterStands_splitStep s _ _ _)
  | configurePile => exact h.stands k (waterStands_of_eq rfl rfl)
  | releasePile => exact h.stands k (waterStands_releasePile s _)
  | configureCannon => exact h.stands k (waterStands_configureCannon s _ _)
  | releaseCannon => exact h.stands k (waterStands_releaseCannon s _)
  | configurePond | releasePond => exact absurd rfl (pond _ _ _ _)
  | configureMonitor => exact h.stands k ((waterStands_syncAlert _ _).after rfl rfl)
  | releaseMonitor => exact h.stands k (waterStands_releaseMonitor s _)
  | attrib => exact h.stands k (waterStands_of_eq rfl rfl)
  | mode => exact h.stands k (waterStands_modeStep s _)
  | setTime => exact h.setTimeStep _ k
  | forecast => exact h.stands k ((waterStands_syncAlert _ _).after rfl rfl)
  | reading => exact h.stands k (waterStands_readingStep s _ _)
  | pondReport => exact h.report s _ _ _ _ k
  | machinePos => exact h.stands k (waterStands_reportMachine s _ _ _)
  | mastService => exact h.stands k ((waterStands_syncAlert _ _).after rfl rfl)
  | orderWet => exact h.stands k (waterStands_of_eq rfl rfl)
  | orderHold => exact h.stands k (waterStands_holdStep s _ _ _ _)
  | orderCancel => exact h.stands k (waterStands_closeOrder s _ _)
  | lock => exact h.stands k (waterStands_lockCannon s _)
  | unlock => exact h.stands k (waterStands_unlockCannon s _)
  | ackAlert => exact h.stands k (waterStands_ackStep s _)

end

end Sys2Proof.Machine
end

