-- ==== Sys2Proof/Proofs/WaterCount.lean ====
section
/-! SUPPORT. The obligation that the water drawn is the water delivered and lost (R78 to R84). -/

namespace Sys2Proof.Machine

/-- Two sums over an index that differ by x at one place. -/
theorem sum_finRange_add {n : Nat} {f g : Fin n → Nat} {i : Fin n} {x : Nat} (own : g i = f i + x)
    (other : ∀ j, j ≠ i → g j = f j) : ((List.finRange n).map g).sum = ((List.finRange n).map f).sum + x := by
  rw [← Fin.sum_univ_def, ← Fin.sum_univ_def, ← Finset.add_sum_erase _ g (Finset.mem_univ i),
    ← Finset.add_sum_erase _ f (Finset.mem_univ i), own]
  have rest : ∑ j ∈ Finset.univ.erase i, g j = ∑ j ∈ Finset.univ.erase i, f j :=
    Finset.sum_congr rfl fun j hj => other j (Finset.ne_of_mem_erase hj)
  rw [rest]
  omega

/-- What one record draws is what it delivers and loses (R84). -/
def DayRecord.Counted (r : DayRecord) : Prop := r.drawnTotal = r.delivered + r.lost

/-- The figures that the count reads stand. -/
theorem DayRecord.Counted.of_drawn {r x : DayRecord} (h : r.Counted) (fresh : x.fresh = r.fresh)
    (ponds : ∀ p, (x.ponds.get p).drawn = (r.ponds.get p).drawn) (delivered : x.delivered = r.delivered)
    (lost : x.lost = r.lost) : x.Counted := by
  unfold DayRecord.Counted DayRecord.drawnTotal at *
  simp only [fresh, ponds, delivered, lost]
  exact h

theorem DayRecord.counted_empty (d : Option Nat) : (DayRecord.empty d).Counted := by
  simp [DayRecord.Counted, DayRecord.drawnTotal, DayRecord.empty]

theorem waterSound_iff (s : State) : WaterSound s ↔ s.wiu.today.Counted ∧ s.wiu.previous.Counted := Iff.rfl

section
variable {s t : State}

theorem waterSound_of_days (h : WaterSound s) (today : t.wiu.today = s.wiu.today)
    (previous : t.wiu.previous = s.wiu.previous) : WaterSound t := by
  rw [waterSound_iff] at h ⊢
  rw [today, previous]
  exact h

theorem waterSound_stands (h : WaterSound s) (k : WaterStands s t) : WaterSound t :=
  waterSound_of_days h k.today k.previous

theorem waterSound_turns (h : WaterSound s) (k : DayTurns s t) : WaterSound t := by
  rw [waterSound_iff] at h ⊢
  rcases k.days with ⟨⟨d, today⟩, previous⟩ | ⟨⟨d, today⟩, previous⟩ <;> rw [today, previous]
  · exact ⟨h.1.of_drawn rfl (fun _ => rfl) rfl rfl, h.2⟩
  · exact ⟨DayRecord.counted_empty d, h.1⟩

/-- A pond's line of the day record, the water drawn from it apart, is free of the count. -/
theorem waterSound_updatePondDay {p : Fin 4} {f : PondDay → PondDay} (drawn : ∀ r, (f r).drawn = r.drawn)
    (h : WaterSound s) : WaterSound (updatePondDay p f s) := by
  rw [waterSound_iff] at h ⊢
  refine ⟨h.1.of_drawn rfl (fun q => ?_) rfl rfl, h.2⟩
  change ((s.wiu.today.ponds.modify p f).get q).drawn = _
  rw [Table.get_modify]
  split
  · rename_i same
    rw [drawn, same]
  · rfl

theorem waterSound_waterEvent {f : State → State} (h : WaterSound (f s)) : WaterSound (waterEvent f s) :=
  waterSound_stands h (waterStands_waterEvent s f)

theorem waterSound_testFitness {before : State} (h : WaterSound s) : WaterSound (testFitness before s) :=
  waterSound_of_days h (within_testFitness before s).today (within_testFitness before s).previous

theorem waterSound_restateVolume (p : Fin 4) (v : Nat) (h : WaterSound s) : WaterSound (restateVolume p v s) :=
  waterSound_updatePondDay (fun _ => rfl) h

theorem waterSound_inflow (kind : InflowKind) (p : Fin 4) (v : Nat) (h : WaterSound s) :
    WaterSound (inflow kind p v s) := by
  unfold inflow
  simp only
  split
  · exact waterSound_waterEvent (waterSound_updatePondDay (fun _ => rfl) h)
  · exact h

theorem waterSound_reportPond (p : Fin 4) (level : Option Nat) (x y : Option Bool) (h : WaterSound s) :
    WaterSound (reportPond p level x y s) := by
  have levelled : WaterSound (reportLevel p level s) := by
    unfold reportLevel
    split
    · exact waterSound_restateVolume _ _ h
    · exact h
  exact waterSound_waterEvent (waterSound_testFitness (before := s) (s := reportQuality p x y (reportLevel p level s)) levelled)

theorem waterSound_configurePond (p : Fin 4) (k : PondConfig) (h : WaterSound s) : WaterSound (configurePond p k s) :=
  waterSound_waterEvent (waterSound_of_days (waterSound_restateVolume p k.initial
    (waterSound_of_days (t := s.setPond p { s.pond p with volume := if (s.pond p).configured then (s.pond p).volume else 0 })
      h rfl rfl)) rfl rfl)

theorem waterSound_releasePond (p : Fin 4) (h : WaterSound s) : WaterSound (releasePond p s) := by
  unfold releasePond
  split
  · exact waterSound_waterEvent (waterSound_of_days (waterSound_restateVolume p 0 h) rfl rfl)
  · exact h

/-- The invariant is one of the water: no rule but a draw's reaches the figures it counts. -/
theorem waterRules_waterSound : WaterRules WaterSound where
  stands := waterSound_stands
  turns h k _ := waterSound_turns h k
  inflow _ kind p v h := waterSound_inflow kind p v h
  settle _ _ h := waterSound_waterEvent (waterSound_of_days h rfl rfl)
  site s v h := waterSound_of_days (waterSound_turns h (dayTurns_siteDated v s)) (within_siteWatered v s).today
    (within_siteWatered v s).previous
  report _ p level x y h := waterSound_reportPond p level x y h
  powerOn _ _ _ := ⟨DayRecord.counted_empty none, DayRecord.counted_empty none⟩

/-! ## Draws (R78, R79) -/

/-- No figure that a draw of q raises would leave its 48 bits. -/
structure Roomy (q : Nat) (s : State) : Prop where
  fresh : s.wiu.today.fresh + q < 2 ^ 48
  ponds : ∀ p, (s.wiu.today.ponds.get p).drawn + q < 2 ^ 48
  delivered : s.wiu.today.delivered + q < 2 ^ 48
  lost : s.wiu.today.lost + q < 2 ^ 48

theorem Roomy.stands {q : Nat} (h : Roomy q s) (k : WaterStands s t) : Roomy q t :=
  ⟨by rw [k.today]; exact h.fresh, fun p => by rw [k.today]; exact h.ponds p, by rw [k.today]; exact h.delivered,
    by rw [k.today]; exact h.lost⟩

/-- A draw raises the figure of its source, and with it the delivered or the lost figure. -/
theorem Drawn.drawnTotal {lost : Bool} {q : Nat} (h : Drawn lost q s t) (room : Roomy q s) :
    t.wiu.today.drawnTotal = s.wiu.today.drawnTotal + if s.wiu.pump.source = none then 0 else q := by
  obtain ⟨own, other, fresh, -⟩ := h
  unfold DayRecord.drawnTotal
  cases source : s.wiu.pump.source with
  | none =>
    have ponds : ∀ p, t.wiu.today.ponds.get p = s.wiu.today.ponds.get p := fun p => (other p (by simp [source])).2
    simp [ponds, fresh, source]
  | some src =>
    cases src with
    | fresh =>
      have ponds : ∀ p, t.wiu.today.ponds.get p = s.wiu.today.ponds.get p := fun p => (other p (by simp [source])).2
      simp only [ponds, fresh, source, if_true, count48_eq room.fresh]
      simp
      omega
    | pond p =>
      have drawn : (t.wiu.today.ponds.get p).drawn = (s.wiu.today.ponds.get p).drawn + q :=
        (own p source).2.1.trans (count48_eq (room.ponds p))
      have rest : ∀ r, r ≠ p → (t.wiu.today.ponds.get r).drawn = (s.wiu.today.ponds.get r).drawn := fun r ne => by
        rw [(other r (by simp [source, Ne.symm ne])).2]
      rw [fresh, source, if_neg (by simp), if_neg (by simp), sum_finRange_add drawn rest]
      omega

theorem Drawn.counted {lost : Bool} {q : Nat} (h : Drawn lost q s t) (room : Roomy q s)
    (k : s.wiu.today.Counted) : t.wiu.today.Counted := by
  have total := h.drawnTotal room
  obtain ⟨-, -, -, delivered, lost_, -⟩ := h
  unfold DayRecord.Counted at k ⊢
  rw [total, delivered, lost_, k]
  cases source : s.wiu.pump.source with
  | none => simp
  | some src => cases lost <;> simp [count48_eq room.delivered, count48_eq room.lost] <;> omega

theorem waterSound_draw (lost : Bool) (q : Nat) (room : Roomy q s) (h : WaterSound s) : WaterSound (draw lost q s) := by
  have drawn : Drawn lost q s (draw lost q s) := (drawn_tapped lost q s).within (within_draw lost q s)
  have previous : (draw lost q s).wiu.previous = s.wiu.previous := by
    obtain ⟨-, -, -, -, -, -, previous⟩ := drawn
    exact previous
  rw [waterSound_iff] at h ⊢
  exact ⟨drawn.counted room h.1, by rw [previous]; exact h.2⟩

/-! ## Every command -/

theorem Asks.waterSound {i : Instr} {f : State → State} (m : Asks i f) (h : WaterSound s) : WaterSound (f s) := by
  by_cases pond : ∃ tag n a x, i = .pondSetup tag n a x
  · obtain ⟨tag, n, a, x, rfl⟩ := pond
    cases m with
    | configurePond => exact waterSound_configurePond _ _ h
    | releasePond => exact waterSound_releasePond _ h
  · exact waterRules_waterSound.asks m (fun tag n a x own => pond ⟨tag, n, a, x, own⟩) h

end

/-- Every event of the part keeps the count where the figures leave room for one cannon's draw. -/
theorem keeps_waterSound {i : Instr} (still : ∀ c, i ≠ .deliverySecond c ∧ i ≠ .lostWaterExpiry c) :
    Keeps i WaterSound where
  line _ _ k h := waterSound_stands h k.waterStands
  powerOn a b s _ _ := waterRules_waterSound.powerOn s a b
  pulse m s h := waterSound_stands h (waterStands_pulseStep s m)
  bounce _ h := h
  monitorStale m s h := waterSound_stands h (waterStands_monitorStaleStep s m)
  makes f s m h := by
    refine waterRules_waterSound.inEvent ?_
    have h : WaterSound (s.setPass false) := h
    by_cases opens : i = .primingExpiry ∨ i = .changeoverExpiry
    · have increased : WaterSound (capacityIncrease (s.setPass false)) :=
        waterSound_of_days h (within_pumpTo _ _ _ _).today (within_pumpTo _ _ _ _).previous
      rcases opens with rfl | rfl <;> cases m <;> exact increased
    · simp only [not_or] at opens
      exact waterRules_waterSound.makes m opens.1 opens.2 (fun c => (still c).1) (fun c => (still c).2) h
  asks _ _ _ m h := waterRules_waterSound.inEvent (m.waterSound h)
  poll n s h := waterSound_stands h (waterStands_pollEvent s n)
  restart s h := waterSound_stands h (waterStands_warmRestart s)

/-- The two events that draw: one cannon's flow, once. -/
theorem waterSound_drawingEvent {c : Fin 32} {i : Instr} {s t : State}
    (draws : i = .deliverySecond c ∨ i = .lostWaterExpiry c) (room : Roomy (s.cannon c).config.flow s)
    (h : WaterSound s) (ht : exec i s = .next t) : WaterSound t := by
  have rules := waterRules_waterSound
  have drawn : ∀ lost u, WaterStands (s.setPass false) u → WaterSound u →
      WaterSound (draw lost (s.cannon c).config.flow u) := fun lost u k =>
    waterSound_draw lost _ (room.stands ((waterStands_setPass s false).trans k))
  rcases draws with rfl | rfl <;> obtain rfl := Host.Outcome.next.inj ht
  · exact rules.inEvent (rules.deliveryStep c h (drawn false))
  · exact rules.inEvent (rules.lostWaterStep c h (drawn true))

/-- Settles O11: a draw raises the figure of its source and the delivered or the lost figure alike, the day's turn takes
the record over whole, and nothing else reaches a figure that is counted. -/
theorem waterDrawnStaysWaterCounted : Obligations.WaterDrawnStaysWaterCounted := by
  intro s t sound room ht
  have roomy : ∀ c, Roomy (s.cannon c).config.flow s := fun c =>
    ⟨(room c 0).1, fun p => (room c p).2.1, (room c 0).2.2.1, (room c 0).2.2.2⟩
  rcases step_cases ht with ⟨i, n, q, taken⟩ | rfl
  · by_cases draws : ∃ c, i = .deliverySecond c ∨ i = .lostWaterExpiry c
    · obtain ⟨c, own⟩ := draws
      have room : Roomy (s.cannon c).config.flow { s with freeCount := n, pending := q } :=
        (roomy c).stands (waterStands_of_eq rfl rfl)
      exact waterSound_drawingEvent (s := { s with freeCount := n, pending := q }) own room sound taken
    · exact (keeps_waterSound fun c => ⟨fun own => draws ⟨c, .inl own⟩, fun own => draws ⟨c, .inr own⟩⟩).exec taken sound
  · exact sound

end Sys2Proof.Machine
end

