-- ==== Sys2Proof/Proofs/PumpSource.lean ====
section
/-! SUPPORT. The obligation that a pump set which is not OFF has a fit source and owns its interval (R68 to R77). -/

namespace Sys2Proof.Machine

/-! ## Fit ponds -/

/-- The pond's part of fitness (R68). -/
def Pond.Fit (d : Pond) : Prop :=
  d.configured = true ∧ d.clear = true ∧ d.inService = true ∧ d.config.floor < d.volume

theorem fit_pond_iff (s : State) (p : Fin 4) : fit s (.pond p) = true ↔ (s.pond p).Fit := fit_iff s (.pond p)

/-- A pond written to stays fit where what is written is. -/
theorem fit_setPond {s : State} {p : Fin 4} {d : Pond} (keeps : (s.pond p).Fit → d.Fit) {x : Source}
    (h : fit s x = true) : fit (s.setPond p d) x = true := by
  cases x with
  | fresh => exact h
  | pond q =>
    rw [fit_pond_iff] at h ⊢
    rw [setPond_pond]
    split
    · rename_i same
      exact keeps (same ▸ h)
    · exact h

theorem fit_updatePondDay (p : Fin 4) (f : PondDay → PondDay) (s : State) (x : Source) :
    fit (updatePondDay p f s) x = fit s x := fit_congr rfl (fun _ => rfl) rfl x

theorem Pond.stir_flags (d : Pond) (kind : InflowKind) (v : Nat) :
    (d.stir kind v).configured = d.configured ∧ (d.stir kind v).clear = d.clear ∧
      (d.stir kind v).inService = d.inService := by
  unfold Pond.stir
  simp only
  repeat' split
  all_goals exact ⟨rfl, rfl, rfl⟩

/-- An inflow never lowers a volume that is within its capacity (R64). -/
theorem Pond.Fit.fill {d : Pond} (h : d.Fit) (level : d.volume ≤ d.config.capacity) (kind : InflowKind) (v w : Nat) :
    ((d.fill v).stir kind w).Fit := by
  obtain ⟨configured, clear, inService, above⟩ := h
  obtain ⟨sameConfigured, sameClear, sameService⟩ := (d.fill v).stir_flags kind w
  refine ⟨sameConfigured.trans configured, sameClear.trans clear, sameService.trans inService, ?_⟩
  rw [Pond.stir_config, Pond.stir_volume]
  exact lt_min (above.trans_le (Nat.le_add_right _ _)) (above.trans_le level)

/-! ## The invariant -/

/-- Every pond's volume is within its capacity, and the pump set is settled. -/
structure PumpHeld (s : State) : Prop where
  level : ∀ p, (s.pond p).volume ≤ (s.pond p).config.capacity
  settled : PumpSettled s

section
variable {s t : State}

theorem PumpHeld.stands (h : PumpHeld s) (k : WaterStands s t) : PumpHeld t :=
  ⟨fun p => by rw [pond_of_ponds k.ponds p]; exact h.level p, k.pump h.settled⟩

theorem PumpHeld.turns (h : PumpHeld s) (k : DayTurns s t) (site : t.site = s.site) : PumpHeld t := by
  have ponds := pond_of_ponds k.ponds
  refine ⟨fun p => by rw [ponds p]; exact h.level p, h.settled.of_pump k.pump fun x _ good => ?_⟩
  rw [fit_iff] at good ⊢
  cases x with
  | pond p => simpa only [ponds p] using good
  | fresh =>
    rcases k.days with ⟨⟨d, today⟩, -⟩ | ⟨⟨d, today⟩, -⟩ <;> rw [site, today]
    · exact good
    · exact ⟨good.1, Nat.zero_lt_of_lt good.2⟩

/-- The water alone is written, and the source in use stays fit. -/
theorem PumpHeld.written (h : PumpHeld s) (level : ∀ p, (t.pond p).volume ≤ (t.pond p).config.capacity)
    (pump : t.wiu.pump = s.wiu.pump) (stays : ∀ x, s.wiu.pump.source = some x → fit s x = true → fit t x = true) :
    PumpHeld t := ⟨level, h.settled.of_pump pump stays⟩

theorem PumpHeld.waterEvent {f : State → State} (h : PumpHeld (f s)) : PumpHeld (waterEvent f s) :=
  h.stands (waterStands_waterEvent s f)

/-- The source in use is given up where it has ceased to be fit, so that what remains is settled (R68, R75). -/
theorem settled_testFitness {before after : State} (h : PumpSettled before)
    (pump : after.wiu.pump = before.wiu.pump) : PumpSettled (testFitness before after) := by
  unfold testFitness
  cases source : after.wiu.pump.source with
  | none =>
    refine h.of_pump pump fun x used => ?_
    rw [← pump, source] at used
    cases used
  | some src =>
    simp only
    split
    · exact forcedSwitch_settled after
    · rename_i kept
      refine h.of_pump pump fun x used good => ?_
      rw [← pump, source] at used
      obtain rfl := Option.some.inj used
      by_contra unfit
      have on : after.wiu.pump.phase ≠ .off := fun off => by
        rw [pump] at off source
        rw [(h.off off).1] at source
        cases source
      exact kept ⟨on, good, Bool.eq_false_of_not_eq_true unfit⟩

theorem PumpHeld.tested (h : PumpHeld s) (level : ∀ p, (t.pond p).volume ≤ (t.pond p).config.capacity)
    (pump : t.wiu.pump = s.wiu.pump) : PumpHeld (testFitness s t) := by
  refine ⟨fun p => ?_, settled_testFitness h.settled pump⟩
  rw [pond_of_ponds (within_testFitness s t).ponds p]
  exact level p

theorem level_setPond {p : Fin 4} {d : Pond} (h : ∀ p, (s.pond p).volume ≤ (s.pond p).config.capacity)
    (own : d.volume ≤ d.config.capacity) (q : Fin 4) :
    ((s.setPond p d).pond q).volume ≤ ((s.setPond p d).pond q).config.capacity := by
  rw [setPond_pond]
  split
  · exact own
  · exact h q

theorem PumpHeld.inflow (h : PumpHeld s) (kind : InflowKind) (p : Fin 4) (v : Nat) : PumpHeld (inflow kind p v s) := by
  unfold Machine.inflow
  simp only
  split
  · refine PumpHeld.waterEvent (h.written ?_ rfl fun x _ good => ?_)
    · refine level_setPond h.level ?_
      rw [Pond.stir_volume, Pond.stir_config]
      exact min_le_right _ _
    · rw [fit_updatePondDay]
      exact fit_setPond (fun fits => fits.fill (h.level p) kind v v) good
  · exact h

theorem PumpHeld.settle (h : PumpHeld s) (p : Fin 4) : PumpHeld (settle p s) :=
  PumpHeld.waterEvent <| h.written
    (level_setPond (d := { s.pond p with settled := true, settleCountdown := none, runoff := 0 }) h.level (h.level p))
    rfl fun _ _ good => fit_setPond
      (d := { s.pond p with settled := true, settleCountdown := none, runoff := 0 }) (fun fits => fits) good

theorem level_restateVolume (h : ∀ p, (s.pond p).volume ≤ (s.pond p).config.capacity) {p : Fin 4} {v : Nat}
    (own : v ≤ (s.pond p).config.capacity) (q : Fin 4) :
    ((restateVolume p v s).pond q).volume ≤ ((restateVolume p v s).pond q).config.capacity :=
  level_setPond (d := { s.pond p with volume := v }) h own q

theorem PumpHeld.reportPond (h : PumpHeld s) (p : Fin 4) (level : Option Nat) (x y : Option Bool) :
    PumpHeld (reportPond p level x y s) := by
  have levelled : (∀ q, ((reportLevel p level s).pond q).volume ≤ ((reportLevel p level s).pond q).config.capacity) ∧
      (reportLevel p level s).wiu.pump = s.wiu.pump := by
    unfold reportLevel
    split
    · exact ⟨level_restateVolume h.level (min_le_right _ _), rfl⟩
    · exact ⟨h.level, rfl⟩
  obtain ⟨held, pump⟩ := levelled
  exact PumpHeld.waterEvent (h.tested (t := reportQuality p x y (reportLevel p level s))
    (level_setPond held (held p)) pump)

theorem PumpHeld.siteWatered (h : PumpHeld s) (v : Site) : PumpHeld (siteWatered v s) := by
  have dated := dayTurns_siteDated v s
  have forecast : WaterStands (siteDated v s) (retestForecast s.site (siteDated v s)) := by
    unfold retestForecast
    split
    · exact waterStands_syncAlert _ _
    · exact .refl _
  have pump : (retestForecast s.site (siteDated v s)).wiu.pump = (siteDated v s).wiu.pump := by
    unfold retestForecast
    split
    · rw [syncAlert_wiu]
    · rfl
  have tested := h.tested (t := retestForecast s.site (siteDated v s))
    (fun p => by rw [pond_of_ponds (forecast.ponds.trans dated.ponds) p]; exact h.level p) (pump.trans dated.pump)
  have after : ∀ t, WaterStands t (reportUsable s (syncAlerts [.noWater, .waterShort] t)) := fun t =>
    ((within_syncAlerts t _).waterStands (syncAlerts_wiu _ t)).trans
      ((noted_reportUsable s _).within.waterStands (noted_reportUsable s _).wiu)
  exact tested.stands (after _)

theorem pumpHeld_powerOn (a b : Bool) (s : State) : PumpHeld (powerOn a b s) :=
  ⟨(levelsSound_powerOn a b s).2, pumpSettled_off rfl⟩

theorem waterRules_pumpHeld : WaterRules PumpHeld where
  stands := PumpHeld.stands
  turns := PumpHeld.turns
  inflow _ kind p v h := h.inflow kind p v
  settle _ p h := h.settle p
  site _ v h := h.siteWatered v
  report _ p level x y h := h.reportPond p level x y
  powerOn s a b := pumpHeld_powerOn a b s

/-! ## Draws, the pump set's own intervals, and the setup of ponds -/

theorem tapped_level (lost : Bool) (q : Nat) (h : ∀ p, (s.pond p).volume ≤ (s.pond p).config.capacity) (p : Fin 4) :
    ((tapped lost q s).pond p).volume ≤ ((tapped lost q s).pond p).config.capacity := by
  have counted : ∀ t : State, (countDrawn lost q t).pond p = t.pond p := fun t => by
    unfold countDrawn
    split <;> rfl
  unfold tapped
  split
  · rename_i src _
    rw [counted]
    cases src with
    | pond x => exact level_setPond h ((Nat.sub_le _ _).trans (h x)) p
    | fresh => exact h p
  · exact h p

/-- A draw that leaves its source unfit gives it up in the same event (R78, R75). -/
theorem PumpHeld.draw (h : PumpHeld s) (lost : Bool) (q : Nat) : PumpHeld (draw lost q s) := by
  cases source : s.wiu.pump.source with
  | none =>
    have undrawn : Machine.draw lost q s = s := by
      unfold Machine.draw
      rw [source]
    rw [undrawn]
    exact h
  | some src =>
    have event : Machine.draw lost q s =
        Machine.waterEvent (fun t => testFitness t (countDrawn lost q (debit q src t))) s := by
      unfold Machine.draw
      rw [source]
    have tested := h.tested (tapped_level lost q h.level) (tapped_pump lost q s)
    rw [tapped_some lost q s source] at tested
    rw [event]
    exact PumpHeld.waterEvent (f := fun t => testFitness t (countDrawn lost q (debit q src t))) tested

/-- The end of PRIMING or of CHANGEOVER: RUNNING on the source that the state had (R72, R76). -/
theorem PumpHeld.capacityIncrease (h : PumpHeld s) (on : s.wiu.pump.phase ≠ .off) : PumpHeld (capacityIncrease s) := by
  obtain ⟨x, source, good⟩ := h.settled.source on
  have running := h.stands (waterStands_pumpTo s (x := .running) (n := none) (by simp) good (by simp))
  rw [← source] at running
  exact running.stands (waterStands_markPass _)

/-- A pond that feeds no header is set up freely (R61). -/
theorem PumpHeld.setPondUnused {p : Fin 4} (h : PumpHeld s) (idle : s.wiu.pump.source ≠ some (.pond p))
    (level : ∀ q, (t.pond q).volume ≤ (t.pond q).config.capacity) (site : t.site = s.site)
    (pump : t.wiu.pump = s.wiu.pump) (fresh : t.wiu.today.fresh = s.wiu.today.fresh)
    (others : ∀ q, q ≠ p → t.pond q = s.pond q) : PumpHeld t := by
  refine h.written level pump fun x used good => ?_
  rw [fit_iff] at good ⊢
  cases x with
  | fresh => rw [site, fresh]; exact good
  | pond q =>
    have other : q ≠ p := fun same => idle (same ▸ used)
    simpa only [others q other] using good

theorem pump_source_of_unused {p : Fin 4} (h : PumpHeld s) (idle : pondInUse s p = false) :
    s.wiu.pump.source ≠ some (.pond p) := by
  intro used
  have on : s.wiu.pump.phase ≠ .off := fun off => by
    rw [(h.settled.off off).1] at used
    cases used
  simp [pondInUse, used, on] at idle

theorem PumpHeld.configurePond (h : PumpHeld s) {p : Fin 4} {k : PondConfig} (initial : k.initial ≤ k.capacity)
    (idle : pondInUse s p = false) : PumpHeld (configurePond p k s) := by
  refine PumpHeld.waterEvent (h.setPondUnused (p := p) (pump_source_of_unused h idle) (fun q => ?_) rfl rfl rfl
    fun q other => ?_)
  · rw [setPond_pond]
    split
    · simpa [restateVolume_pond] using initial
    · rename_i other
      rw [restateVolume_pond, if_neg other, setPond_pond, if_neg other]
      exact h.level q
  · rw [setPond_pond, if_neg other, restateVolume_pond, if_neg other, setPond_pond, if_neg other]

theorem PumpHeld.releasePond (h : PumpHeld s) {p : Fin 4} (idle : pondInUse s p = false) :
    PumpHeld (releasePond p s) := by
  unfold Machine.releasePond
  split
  · refine PumpHeld.waterEvent (h.setPondUnused (p := p) (pump_source_of_unused h idle) (fun q => ?_) rfl rfl rfl
      fun q other => ?_)
    · rw [setPond_pond]
      split
      · simp [restateVolume_pond]
      · rename_i other
        rw [restateVolume_pond, if_neg other]
        exact h.level q
    · rw [setPond_pond, if_neg other, restateVolume_pond, if_neg other]
  · exact h

theorem PumpHeld.tick (h : PumpHeld s) : PumpHeld (tick s) := by
  have pond : ∀ p, (Machine.tick s).pond p = (s.pond p).tick := fun p => Table.get_map _ _ _
  refine ⟨fun p => by rw [pond]; exact h.level p, ⟨fun off => ?_, fun on => ?_, fun on => ?_⟩⟩
  · obtain ⟨source, interval⟩ := h.settled.off off
    exact ⟨source, by change countDown s.wiu.pump.interval = none; rw [interval]; rfl⟩
  · obtain ⟨x, source, good⟩ := h.settled.source on
    refine ⟨x, source, ?_⟩
    rw [fit_iff] at good ⊢
    cases x with
    | fresh => exact good
    | pond p =>
      simp only [pond]
      exact good
  · have same : (countDown s.wiu.pump.interval).isSome = s.wiu.pump.interval.isSome := Option.isSome_map
    exact (Bool.eq_iff_iff.1 same).trans (h.settled.interval on)

end

/-! ## Every command -/

theorem pumpHeld_answerPondSetup {n a : Nat} {x : PondFields} {s u : State} {body : List Byte}
    (h : answerPondSetup n a x s = .accepted u body) (held : PumpHeld s) : PumpHeld u := by
  have event : ∀ {f : State → State}, PumpHeld (f (s.setPass false)) → PumpHeld (inEvent f s) :=
    waterRules_pumpHeld.inEvent
  have held : PumpHeld (s.setPass false) := held.stands (waterStands_setPass s false)
  unfold answerPondSetup accept at h
  repeat' split at h
  all_goals simp only [Answer.accepted.injEq, reduceCtorEq] at h
  · rename_i p _ k fields _ idle
    exact h.1 ▸ event (held.configurePond (pondConfig?_initial fields) (Bool.eq_false_of_not_eq_true idle))
  · rename_i p _ idle
    exact h.1 ▸ event (held.releasePond (Bool.eq_false_of_not_eq_true idle))

theorem pumpHeld_answer {i : Instr} {s u : State} {body : List Byte} (h : answerOf i s = .accepted u body)
    (held : PumpHeld s) : PumpHeld u := by
  by_cases pond : ∃ tag n a x, i = .pondSetup tag n a x
  · obtain ⟨tag, n, a, x, rfl⟩ := pond
    exact pumpHeld_answerPondSetup h held
  cases answerOf_accepted h with
  | report => exact held
  | event asks =>
    have held := held.stands (waterStands_setPass s false)
    have asked := waterRules_pumpHeld.asks asks (fun tag n a x own => pond ⟨tag, n, a, x, own⟩) held
    exact waterRules_pumpHeld.inEvent asked
  | poll tag n _ => exact held.stands (waterStands_pollEvent s n)

/-- The predicate is kept by the line, by the warm restart and by every answer that accepts. -/
structure KeptByRequests (P : State → Prop) : Prop where
  line : ∀ {s t}, P s → LineOnly s t → P t
  restart : ∀ {s}, P s → P (warmRestart s)
  answer : ∀ {i s u body}, answerOf i s = .accepted u body → P s → P u

section
variable {P : State → Prop} (h : KeptByRequests P) {s : State}
include h

theorem KeptByRequests.replySent (k : P s) : P (replySentStep s) := by
  rcases replySentStep_cases s with line | ⟨-, restarts⟩
  · exact h.line k line
  · exact restarts ▸ h.restart (h.line k (.setLc s _ rfl))

theorem KeptByRequests.request (kind tag : Nat) (i : Instr) (k : P s) : P (takeRequest kind tag (answerOf i) s) := by
  simp only [takeRequest]
  cases answer : answerOf i (replySentStep s) with
  | accepted u body => exact h.line (h.answer answer (h.replySent k)) (.startReply _ _ _)
  | refused r => exact h.line (h.replySent k) (.startReply _ _ _)

theorem KeptByRequests.frame (kind tag : Nat) (body : List Byte) (k : P s) : P (takeFrame kind tag body s) := by
  unfold takeFrame
  split
  · exact h.request kind tag _ k
  · exact h.line (h.replySent k) (.startReply _ _ _)

theorem KeptByRequests.trailer (bytes : List Byte) (k : P s) : P (takeTrailer bytes s) := by
  rcases takeTrailer_cases bytes s with line | ⟨kind, tag, body, taken⟩
  · exact h.line k line
  · exact taken ▸ h.frame kind tag body (h.line k (.setLc s _ rfl))

theorem KeptByRequests.receive (b : Byte) (x : Bool) (k : P s) : P (receiveStep b x s) := by
  unfold receiveStep
  split
  · split
    · exact h.line k (keepCharacter_lineOnly _ _ s)
    · exact k
  · exact k
  · exact h.line k (takeHeader_lineOnly _ s)
  · exact h.line k (dropFrame_lineOnly s)
  · exact h.line k (takeBody_lineOnly _ s)
  · exact h.line k (dropFrame_lineOnly s)
  · exact h.trailer _ k
  · exact h.line k (dropFrame_lineOnly s)
  · exact k

end

theorem keptByRequests_pumpHeld : KeptByRequests PumpHeld where
  line h k := h.stands k.waterStands
  restart h := h.stands (waterStands_warmRestart _)
  answer h k := pumpHeld_answer h k

section
variable {s t : State}

/-- PRIMING and CHANGEOVER alone end in RUNNING, and the draws test the source they drew from. -/
theorem Makes.pumpHeld {i : Instr} {f : State → State} (m : Makes i f)
    (on : i = .primingExpiry ∨ i = .changeoverExpiry → s.wiu.pump.phase ≠ .off) (h : PumpHeld s) : PumpHeld (f s) := by
  have rules := waterRules_pumpHeld
  by_cases opens : i = .primingExpiry ∨ i = .changeoverExpiry
  · have increased := h.capacityIncrease (on opens)
    rcases opens with rfl | rfl <;> cases m <;> exact increased
  by_cases delivery : ∃ c, i = .deliverySecond c
  · obtain ⟨c, rfl⟩ := delivery
    cases m
    exact rules.deliveryStep c h fun t _ k => k.draw _ _
  by_cases lost : ∃ c, i = .lostWaterExpiry c
  · obtain ⟨c, rfl⟩ := lost
    cases m
    exact rules.lostWaterStep c h fun t _ k => k.draw _ _
  exact rules.makes m (fun own => opens (.inl own)) (fun own => opens (.inr own)) (fun c own => delivery ⟨c, own⟩)
    (fun c own => lost ⟨c, own⟩) h

theorem pumpHeld_event {i : Instr} {f : State → State} (m : Makes i f)
    (on : i = .primingExpiry ∨ i = .changeoverExpiry → s.wiu.pump.phase ≠ .off) (h : PumpHeld s) :
    PumpHeld (inEvent f s) :=
  waterRules_pumpHeld.inEvent (m.pumpHeld on (h.stands (waterStands_setPass s false)))

theorem pumpHeld_exec {i : Instr} (ht : exec i s = .next t) (h : PumpHeld s) : PumpHeld t := by
  have asked := fun kind tag => keptByRequests_pumpHeld.request kind tag i h
  cases i
  case receiveCharacter b x =>
    obtain rfl := Host.Outcome.next.inj ht
    exact keptByRequests_pumpHeld.receive b x h
  case primingExpiry =>
    obtain rfl := Host.Outcome.next.inj ht
    split
    · rename_i now
      exact pumpHeld_event .primingExpiry (fun _ off => nomatch now.symm.trans off) h
    · exact h
  case changeoverExpiry =>
    obtain rfl := Host.Outcome.next.inj ht
    split
    · rename_i now
      exact pumpHeld_event .changeoverExpiry (fun _ off => nomatch now.symm.trans off) h
    · exact h
  case powerOnReset | pulseEdge | gateExpiry | rainTip | bounceExpiry | secondEvent | assessment | rundownExpiry |
      settleExpiry | deliverySecond | lostWaterExpiry | slotExpiry | feedbackChange | travelExpiry |
      machineStaleExpiry | resumeExpiry | orderExpiry | holdExpiry | monitorStaleExpiry | stopLineChange | gapExpiry |
      replyStart | replySent =>
    cases exec_effect ht with
    | line k => exact h.stands k.waterStands
    | powerOn _ => exact waterRules_pumpHeld.powerOn s _ _
    | pulse _ => exact h.stands (waterStands_pulseStep s _)
    | bounce _ => exact h.stands (waterStands_of_eq rfl rfl)
    | monitorStale _ => exact h.stands (waterStands_monitorStaleStep s _)
    | event m => exact pumpHeld_event m (by rintro (own | own) <;> cases own) h
    | restart _ _ => exact keptByRequests_pumpHeld.restart (keptByRequests_pumpHeld.line h (.setLc s _ rfl))
    | frame own _ _ _ _ => cases own
    | request taken k =>
      refine keptByRequests_pumpHeld.line ?_ k
      cases taken with
      | refused => exact keptByRequests_pumpHeld.replySent h
      | answered answered =>
        cases answered with
        | report => exact keptByRequests_pumpHeld.replySent h
        | event asks => cases asks
        | poll tag n own => cases own
  all_goals
    obtain rfl := Host.Outcome.next.inj ht
    exact asked _ _

end

/-- Settles O16: every change of the pump set hands on a source that is fit, and what may leave the active source
unfit tests it in the same event. -/
theorem pumpKeepsAFitSource : Obligations.PumpKeepsAFitSource := by
  intro s t levels sound ht
  have held : PumpHeld s := ⟨levels.2, (pumpSound_iff s).1 sound⟩
  refine (pumpSound_iff t).2 ?_
  rcases step_cases ht with ⟨i, n, q, taken⟩ | rfl
  · exact (pumpHeld_exec taken (held.stands (waterStands_of_eq rfl rfl))).settled
  · exact held.tick.settled

end Sys2Proof.Machine
end

