-- ==== Sys2Proof/Proofs/IdlePass.lean ====
section
/-! SUPPORT. The grant pass of a part in which no cannon could spray: it grants nothing and skips nothing, and its header
report is all it does (R108, R122, R124). -/

namespace Sys2Proof.Machine

section
variable {s : State}

/-- Only AUTO and MANUAL spray (R108). -/
theorem couldSpray_of_mode (mode : spraysMode s.mau.mode = false) (c : Fin 32) : couldSpray s c = false := by
  simp [couldSpray, mode]

section
variable (none : ∀ c, couldSpray s c = false)
include none

theorem eligible_of_none (c : Fin 32) : eligible s c = false := by simp [eligible, none c]

theorem freeToResume_of_none (c : Fin 32) : freeToResume s c = false := by simp [freeToResume, none c]

theorem serveOrder_of_none (k : Nat) : serveOrder ⟨s, false, false⟩ k = ⟨s, false, false⟩ := by
  have resumed : ∀ c, resumeOrderAt k ⟨s, false, false⟩ c = ⟨s, false, false⟩ := fun c => by
    unfold resumeOrderAt
    split
    · rw [if_neg (by simp [freeToResume_of_none none c])]
    · rfl
  have granted : ∀ p left c, grantOrderAt k p (⟨s, false, false⟩, left) c = (⟨s, false, false⟩, left) := fun p left c =>
    if_neg (by simp [eligible_of_none none c])
  unfold serveOrder
  split
  · rfl
  · simp only [List.foldl_fixed' resumed, List.foldl_fixed' (granted _ _)]

theorem servePile_of_none (i : Fin 24) : servePile ⟨s, false, false⟩ i = ⟨s, false, false⟩ := by
  have granted : ∀ c, grantAutoAt i ⟨s, false, false⟩ c = ⟨s, false, false⟩ := fun c =>
    if_neg (by simp [eligible_of_none none c])
  unfold servePile
  split
  · rfl
  · rw [List.foldl_fixed' granted]

theorem passSteps_of_none : passSteps s = ⟨s, false, false⟩ := by
  have waiting : resumableAuto s = [] := List.eq_nil_iff_forall_not_mem.2 fun c found => by
    have free := freeToResume_of_mem_resumableAuto found
    rw [freeToResume_of_none none c] at free
    cases free
  unfold passSteps
  simp only [List.foldl_fixed' (serveOrder_of_none none), waiting, List.foldl_nil,
    List.foldl_fixed' (servePile_of_none none), ite_self]

theorem grantPass_of_none : grantPass s = headerIdle s := by
  rw [grantPass, passSteps_of_none none]
  rfl

end

theorem headerIdle_pau (s : State) : (headerIdle s).pau = s.pau := by
  have pumped : ∀ x y n, (pumpTo x y n s).pau = s.pau := fun x y n => post_pau _ _
  unfold headerIdle enterRundown pumpOff
  repeat' split
  · exact pumped _ _ _
  · exact pumped _ _ _
  · exact pumped _ _ _
  · rfl

/-- An event that leaves no cannon to spray ends with the header's report alone. -/
theorem inEvent_of_none {f : State → State} (none : ∀ c, couldSpray (f (s.setPass false)) c = false) :
    (inEvent f s).cc = (f (s.setPass false)).cc ∧
    (inEvent f s).sd = { (f (s.setPass false)).sd with passDue := false } ∧
    (inEvent f s).pau = (f (s.setPass false)).pau := by
  unfold inEvent
  simp only
  generalize f (s.setPass false) = t at none
  split
  · rw [grantPass_of_none none, setPass_cc, setPass_sd, setPass_pau, headerIdle_cc, headerIdle_sd, headerIdle_pau]
    exact ⟨rfl, rfl, rfl⟩
  · rename_i owed
    refine ⟨rfl, ?_, rfl⟩
    rw [← Bool.eq_false_of_not_eq_true owed]

end

end Sys2Proof.Machine
end

