-- ==== Sys2Proof/Proofs/PondSetup.lean ====
section
/-! SUPPORT. POND_SETUP (R61 to R63): the fields that make a configuration, and the one record and figure written. -/

namespace Sys2Proof.Machine

/-! ## The fields -/

theorem pondConfig?_isSome (f : PondFields) : (pondConfig? f).isSome = true ↔
    (1 ≤ f.capacity ∧ f.capacity ≤ 500000000) ∧ f.floor < f.capacity ∧ (100 ≤ f.flow ∧ f.flow ≤ 5000) ∧
      f.catchment ≤ 500000 ∧ f.settleTime ≤ 86400 ∧ (1 ≤ f.stirVolume ∧ f.stirVolume ≤ 10000000) ∧
      f.priority ≤ 3 ∧ f.initial ≤ f.capacity := by
  unfold pondConfig?
  split
  · rename_i range
    exact iff_of_true rfl range
  · rename_i out
    exact iff_of_false Bool.false_ne_true out

theorem pondConfig?_fields {f : PondFields} {k : PondConfig} (h : pondConfig? f = some k) :
    k.capacity = f.capacity ∧ k.floor = f.floor ∧ k.flow = f.flow ∧ k.catchment = f.catchment ∧
      k.settleTime = f.settleTime ∧ k.stirVolume = f.stirVolume ∧ k.priority = f.priority ∧ k.initial = f.initial := by
  unfold pondConfig? at h
  split at h
  · obtain rfl := Option.some.inj h
    exact ⟨rfl, rfl, rfl, rfl, rfl, rfl, rfl, rfl⟩
  · cases h

/-! ## The event -/

/-- One pond's record and its corrections are written; what follows the water follows it (R62, R63, R81). -/
structure PondWritten (p : Fin 4) (d : Pond) (correction : Int) (s t : State) : Prop where
  pond : t.pond p = d
  today : t.wiu.today = { s.wiu.today with ponds := s.wiu.today.ponds.set p { s.wiu.today.ponds.get p with
    corrections := Config.signed48 ((s.wiu.today.ponds.get p).corrections + correction) } }
  others : ∀ q, q ≠ p → t.pond q = s.pond q
  previous : t.wiu.previous = s.wiu.previous
  short : (t.mau.alerts.get .waterShort).condition = decide (waterState t = .short)
  cc : t.cc = s.cc
  sd : t.sd = { s.sd with passDue := false }
  pau : t.pau = s.pau
  frame : SprayFrame s t

section
variable {p : Fin 4} {s : State}

/-- The day record with the correction at the pond (R62, R63). -/
def correctedDay (p : Fin 4) (x : Int) (r : DayRecord) : DayRecord :=
  { r with ponds := r.ponds.set p { r.ponds.get p with
    corrections := Config.signed48 ((r.ponds.get p).corrections + x) } }

theorem restateVolume_today (p : Fin 4) (v : Nat) (s : State) :
    (restateVolume p v s).wiu.today = correctedDay p ((v : Int) - (s.pond p).volume) s.wiu.today := rfl

theorem waterEvent_pau (f : State → State) (s : State) : (waterEvent f s).pau = (f s).pau := by
  unfold waterEvent reportUsable
  split <;> simp [syncAlerts, markPass]

theorem inStep_waterEvent (f : State → State) (s : State) : InStep .waterShort (waterEvent f s) :=
  (calm_reportUsable _ _ _).inStep (inStep_syncAlerts (by simp) _)

/-- Such an event of the WIU in STANDBY, where no pass can grant. -/
theorem PondWritten.of_event {f g : State → State} {d : Pond} {x : Int} {w : State}
    (event : f (s.setPass false) = waterEvent g (s.setPass false)) (written : g (s.setPass false) = w)
    (writes : w = { s.setPass false with wiu := { s.wiu with ponds := w.wiu.ponds, today := w.wiu.today } })
    (today : w.wiu.today = correctedDay p x s.wiu.today) (own : w.pond p = d)
    (others : ∀ q, q ≠ p → w.pond q = s.pond q) (standby : s.mau.mode = .standby) :
    PondWritten p d x s (inEvent f s) := by
  have noted := noted_waterEvent g (s.setPass false)
  have pau := waterEvent_pau g (s.setPass false)
  have short := inStep_waterEvent g (s.setPass false)
  rw [← event, written] at noted
  rw [← event, written, writes] at pau
  rw [← event] at short
  have within := noted.within
  have standing : w.mau = s.mau ∧ w.cc = s.cc ∧ w.sd = { s.sd with passDue := false } ∧
      w.wiu.previous = s.wiu.previous := by
    rw [writes]
    exact ⟨rfl, rfl, rfl, rfl⟩
  obtain ⟨mau, cannons, dispatcher, previous⟩ := standing
  have mode : (f (s.setPass false)).mau.mode = .standby := by rw [within.mau, mau]; exact standby
  obtain ⟨cc, sd, piles⟩ := inEvent_of_none (f := f) (couldSpray_of_mode (by rw [mode]; rfl))
  have short := short.inEvent
  have within := within.trans (inEvent_within s f)
  have frame : SprayFrame s w := by
    rw [writes]
    exact ⟨rfl, rfl, rfl, rfl, rfl, rfl, rfl, rfl, rfl, rfl, rfl, rfl⟩
  generalize inEvent f s = t at *
  refine ⟨?_, within.today.trans today, fun q other => ?_, within.previous.trans previous, short,
    (cc.trans noted.cc).trans cannons, ?_, piles.trans pau, frame.trans within.sprayFrame⟩
  · rw [pond_of_ponds within.ponds, own]
  · rw [pond_of_ponds within.ponds, others q other]
  · rw [sd, noted.sd, dispatcher]

/-- An accepted CONFIGURE (R62). -/
theorem configurePond_written (k : PondConfig) (standby : s.mau.mode = .standby) :
    PondWritten p ⟨true, k, k.initial, true, none, 0, !(s.pond p).configured || (s.pond p).clear,
        !(s.pond p).configured || (s.pond p).inService⟩
      ((k.initial : Int) - if (s.pond p).configured then ((s.pond p).volume : Int) else 0) s
      (inEvent (configurePond p k) s) := by
  refine PondWritten.of_event (f := configurePond p k) rfl rfl rfl ?_ ?_ (fun q other => ?_) standby
  · refine (restateVolume_today p k.initial _).trans ?_
    rw [setPond_pond_same, setPass_pond]
    cases (s.pond p).configured <;> rfl
  · rw [setPond_pond_same, restateVolume_pond, if_pos rfl, setPond_pond_same, setPass_pond]
    cases (s.pond p).configured <;> rfl
  · rw [setPond_pond, if_neg other, restateVolume_pond, if_neg other, setPond_pond, if_neg other, setPass_pond]

/-- An accepted RELEASE of a configured pond (R63). -/
theorem releasePond_written (standby : s.mau.mode = .standby) (configured : (s.pond p).configured = true) :
    PondWritten p ⟨false, (s.pond p).config, 0, true, none, 0, true, true⟩ (-((s.pond p).volume : Int)) s
      (inEvent (releasePond p) s) := by
  refine PondWritten.of_event (if_pos configured) rfl rfl ?_ ?_ (fun q other => ?_) standby
  · refine (restateVolume_today p 0 _).trans ?_
    rw [setPass_pond, setPass_wiu, Nat.cast_zero, zero_sub]
  · rw [setPond_pond_same, restateVolume_pond, if_pos rfl, setPass_pond]
  · rw [setPond_pond, if_neg other, restateVolume_pond, if_neg other, setPass_pond]

/-- Of an unconfigured pond nothing is released (R63). -/
theorem inEvent_releasePond_unconfigured (free : (s.pond p).configured = false) :
    inEvent (releasePond p) s = s.setPass false := by
  have released : releasePond p (s.setPass false) = s.setPass false :=
    if_neg fun configured => by rw [setPass_pond, free] at configured; cases configured
  rw [inEvent_of_quietPass (by rw [released]; rfl), released]

/-! ## The request (R61) -/

theorem priorityTaken_eq_true {n : Nat} : priorityTaken s p n = true ↔
    ∃ q, q ≠ p ∧ (s.pond q).configured = true ∧ (s.pond q).config.priority = n := by
  simp [priorityTaken, and_assoc]

theorem pondInUse_eq_true : pondInUse s p = true ↔
    s.wiu.pump.source = some (.pond p) ∧ s.wiu.pump.phase ≠ .off := by
  simp [pondInUse]

variable {f : PondFields} {k : PondConfig}

theorem answerPondSetup_configure (standby : s.mau.mode = .standby) (fields : pondConfig? f = some k) :
    answerPondSetup p 0 f s = if priorityTaken s p k.priority then .refused .outOfRange
      else if pondInUse s p then .refused .wrongState else accept (configurePond p k) (pondSetupBody p) s := by
  unfold answerPondSetup
  rw [if_neg (not_not_intro standby), index?_val]
  simp only [setupAction?, fields]

theorem answerPondSetup_release (standby : s.mau.mode = .standby) : answerPondSetup p 1 f s =
    if pondInUse s p then .refused .wrongState else accept (releasePond p) (pondSetupBody p) s := by
  unfold answerPondSetup
  rw [if_neg (not_not_intro standby), index?_val]
  rfl

theorem answerPondSetup_outOfRange {i a : Nat} (standby : s.mau.mode = .standby)
    (out : 4 ≤ i ∨ 2 ≤ a ∨ (a = 0 ∧ pondConfig? f = none)) : answerPondSetup i a f s = .refused .outOfRange := by
  unfold answerPondSetup
  rw [if_neg (not_not_intro standby)]
  rcases out with pond | action | ⟨rfl, fields⟩
  · rw [index?_of_le pond]
  · rw [setupAction?_of_le action]
    cases index? 4 i <;> rfl
  · cases index? 4 i with
    | none => rfl
    | some p => simp only [setupAction?, fields]

/-- A priority that another configured pond holds (R61). -/
theorem answerPondSetup_priority (standby : s.mau.mode = .standby) {q : Fin 4} (other : q ≠ p)
    (configured : (s.pond q).configured = true) (same : (s.pond q).config.priority = f.priority) :
    answerPondSetup p 0 f s = .refused .outOfRange := by
  cases fields : pondConfig? f with
  | none => exact answerPondSetup_outOfRange standby (.inr (.inr ⟨rfl, fields⟩))
  | some k =>
    obtain ⟨-, -, -, -, -, -, priority, -⟩ := pondConfig?_fields fields
    rw [answerPondSetup_configure standby fields,
      if_pos (priorityTaken_eq_true.2 ⟨q, other, configured, same.trans priority.symm⟩)]

/-- A pond that feeds the header (R61). -/
theorem answerPondSetup_inUse {a : Nat} (standby : s.mau.mode = .standby) (source : s.wiu.pump.source = some (.pond p))
    (on : s.wiu.pump.phase ≠ .off)
    (judged : a = 1 ∨ (a = 0 ∧ pondConfig? f ≠ none ∧ ∀ q, q ≠ p → (s.pond q).configured = true →
      (s.pond q).config.priority ≠ f.priority)) : answerPondSetup p a f s = .refused .wrongState := by
  have used := pondInUse_eq_true.2 ⟨source, on⟩
  rcases judged with rfl | ⟨rfl, fields, free⟩
  · rw [answerPondSetup_release standby, if_pos used]
  · obtain ⟨k, fields⟩ := Option.ne_none_iff_exists'.1 fields
    obtain ⟨-, -, -, -, -, -, priority, -⟩ := pondConfig?_fields fields
    rw [answerPondSetup_configure standby fields, if_neg, if_pos used]
    rw [priorityTaken_eq_true]
    rintro ⟨q, other, configured, same⟩
    exact free q other configured (same.trans priority)

theorem pondInUse_of_unused (unused : s.wiu.pump.source ≠ some (.pond p) ∨ s.wiu.pump.phase = .off) :
    ¬ pondInUse s p = true := by
  rw [pondInUse_eq_true]
  rintro ⟨source, on⟩
  exact unused.elim (fun other => other source) on

end

/-- Settles O57: the answer that accepts writes the one pond and its corrections, and the refusals stand in their order. -/
theorem pondSetupWritesOneRecord : Obligations.PondSetupWritesOneRecord := by
  refine ⟨fun tag p f k s free standby fields others unused => ?_,
    fun tag p f s free standby unused configured => ?_, fun tag p f s free standby unused unconfigured => ?_,
    fun tag i a f s free mode => congrArg _ (takeRequest_refused free (if_pos mode)),
    fun tag i a f s free standby out => congrArg _ (takeRequest_refused free (answerPondSetup_outOfRange standby out)),
    fun tag p q f s free standby other configured same =>
      congrArg _ (takeRequest_refused free (answerPondSetup_priority standby other configured same)),
    fun tag p a f s free standby source on judged =>
      congrArg _ (takeRequest_refused free (answerPondSetup_inUse standby source on judged)),
    pondConfig?_isSome, fun f k => pondConfig?_fields⟩
  · have accepted : answerPondSetup p 0 f s = accept (configurePond p k) (pondSetupBody p) s := by
      rw [answerPondSetup_configure standby fields, if_neg, if_neg (pondInUse_of_unused unused)]
      rw [priorityTaken_eq_true]
      rintro ⟨q, other, configured, same⟩
      exact others q other configured same
    obtain ⟨pond, today, rest, previous, short, cc, sd, pau, frame⟩ := configurePond_written (p := p) k standby
    have answer := takeRequest_accepted (kind := 0x06) (tag := tag) free accepted
    rw [pondSetupBody, pond, flagByte_true] at answer
    exact ⟨_, congrArg _ answer, pond, today, rest, previous, short, cc, sd, pau, frame⟩
  · have accepted : answerPondSetup p 1 f s = accept (releasePond p) (pondSetupBody p) s := by
      rw [answerPondSetup_release standby, if_neg (pondInUse_of_unused unused)]
    obtain ⟨pond, today, rest, previous, short, cc, sd, pau, frame⟩ := releasePond_written standby configured
    have answer := takeRequest_accepted (kind := 0x06) (tag := tag) free accepted
    rw [pondSetupBody, pond, flagByte_false] at answer
    exact ⟨_, congrArg _ answer, pond, today, rest, previous, short, cc, sd, pau, frame⟩
  · have accepted : answerPondSetup p 1 f s = accept (releasePond p) (pondSetupBody p) s := by
      rw [answerPondSetup_release standby, if_neg (pondInUse_of_unused unused)]
    have answer := takeRequest_accepted (kind := 0x06) (tag := tag) free accepted
    rw [inEvent_releasePond_unconfigured unconfigured, pondSetupBody, setPass_pond, unconfigured, flagByte_false] at answer
    exact congrArg _ answer

end Sys2Proof.Machine
end

