-- ==== Sys2Proof/Proofs/Lockdown.lean ====
section
/-! SUPPORT. The entry to LOCKDOWN (R77, R110, R135, R154): every valve closed over whatever run it carried, every run
with END, the pump set OFF. -/

namespace Sys2Proof.Machine

/-! ## Closing the valves -/

section
variable (c : Fin 32) (s : State)

theorem closeToStop_cannon : (closeToStop c s).cannon c = (s.cannon c).stopped s.site := by
  have commanded : (commandClose c (removeEntry c s)).cannon c = { s.cannon c with
      phase := .closing, travel := some (Config.seconds s.site.travel), lostWater := none } := commandClose_cannon c _
  have withdrawn : (withdrawOpen c s).cannon c = { s.cannon c with phase := .idle, travel := none, lostWater := none } :=
    returnToIdle_cannon c _
  unfold closeToStop Cannon.stopped
  cases (s.cannon c).phase
  case pendingOpen => exact withdrawn
  case opening | spraying | closePending => exact commanded
  all_goals rfl

theorem apart_closeToStop : Apart c s (closeToStop c s) := by
  have commanded := (apart_removeEntry c s).trans (apart_commandClose c _)
  unfold closeToStop
  split
  · exact apart_withdrawOpen c s
  · exact commanded
  · exact commanded
  · exact commanded
  · exact .refl c s

/-- The cannons below n have been closed. -/
def ClosedBelow (s : State) (n : Nat) (t : State) : Prop :=
  t.site = s.site ∧ ∀ i : Fin 32, t.cannon i = if i.val < n then (s.cannon i).stopped s.site else s.cannon i

theorem closedBelow_closeToStop (t : State) (h : ClosedBelow s c.val t) : ClosedBelow s (c.val + 1) (closeToStop c t) := by
  obtain ⟨site, cannon⟩ := h
  refine ⟨(within_closeToStop t c).site.trans site, fun i => ?_⟩
  by_cases own : i = c
  · subst own
    rw [closeToStop_cannon, cannon, site, if_neg (Nat.lt_irrefl _), if_pos (Nat.lt_succ_self _)]
  · have below : i.val < c.val + 1 ↔ i.val < c.val := by
      have := Fin.val_ne_of_ne own
      omega
    rw [(apart_closeToStop c t).cannon i own, cannon]
    simp only [below]

theorem closeAll_cannon : (closeAll s).cannon c = (s.cannon c).stopped s.site := by
  have closed : ClosedBelow s 32 (forCannons closeToStop s) :=
    forCannons_induct ⟨rfl, fun i => by rw [if_neg (Nat.not_lt_zero _)]⟩ fun c t => closedBelow_closeToStop c s t
  rw [closeAll, setSlot_cannon, setQueue_cannon, closed.2 c, if_pos c.isLt]

theorem Cannon.stopped_shut (d : Cannon) (v : Site) : (d.stopped v).Shut := by
  unfold Cannon.stopped Cannon.Shut
  split <;> simp_all

/-! ## Ends and the capacity loss over closed valves -/

variable {c s}

theorem decideEnd_of_shut (shut : (s.cannon c).Shut) : (decideEnd c s).cc = s.cc ∧ (decideEnd c s).wiu = s.wiu ∧
    ∀ r ∈ (decideEnd c s).run c, ∃ n, r.phase = .active .ends n := by
  cases run : s.run c with
  | none =>
    have same : decideEnd c s = s := by
      unfold decideEnd
      rw [run]
    rw [same, run]
    exact ⟨rfl, rfl, fun r found => nomatch found⟩
  | some r =>
    cases phase : r.phase with
    | suspended x n m =>
      rw [decideEnd_of_suspended run (by simp [Run.isSuspended, phase]), endRun_cc, endRun_wiu, endRun_run, if_pos rfl]
      exact ⟨rfl, rfl, fun r found => nomatch found⟩
    | active d n =>
      have ends : RunEnding c r n (setDisposition c .ends s) := setDisposition_ends run phase
      have quiet : queuedClose c (setDisposition c .ends s) = setDisposition c .ends s :=
        queuedClose_of_shut (by rw [setDisposition_cannon]; exact shut)
      rw [decideEnd_of_active run phase, quiet]
      refine ⟨updateRun_cc _ _ _, updateRun_wiu _ _ _, fun x found => ⟨n, ?_⟩⟩
      rw [ends] at found
      rw [← Option.some.inj found]

/-- Every run of a part whose valves are all shut ends where it stands. -/
theorem decideEnds_of_shut (shut : ∀ c, (s.cannon c).Shut) :
    (decideEnds (fun _ => true) s).cc = s.cc ∧ (decideEnds (fun _ => true) s).wiu = s.wiu ∧
    ∀ c, ∀ r ∈ (decideEnds (fun _ => true) s).run c, ∃ n, r.phase = .active .ends n := by
  have event : decideEnds (fun _ => true) s = forCannons decideEnd s := by
    unfold decideEnds
    congr 1
    funext c t
    cases run : t.run c with
    | none => simp [decideEnd, run]
    | some r => rfl
  have swept := forCannons_induct (f := decideEnd) (s := s) (P := fun n t => t.cc = s.cc ∧ t.wiu = s.wiu ∧
    ∀ i : Fin 32, i.val < n → ∀ r ∈ t.run i, ∃ m, r.phase = .active .ends m)
    ⟨rfl, rfl, fun i lt => absurd lt (Nat.not_lt_zero _)⟩ fun c t ⟨cc, wiu, ended⟩ => ?_
  · rw [event]
    exact ⟨swept.1, swept.2.1, fun c => swept.2.2 c c.isLt⟩
  · obtain ⟨sameCc, sameWiu, own⟩ := decideEnd_of_shut (c := c) (s := t) (by rw [State.cannon, cc]; exact shut c)
    refine ⟨sameCc.trans cc, sameWiu.trans wiu, fun i lt r found => ?_⟩
    by_cases here : i = c
    · subst here
      exact own r found
    · have below : i.val < c.val := by
        have := Fin.val_ne_of_ne here
        omega
      rw [(apart_decideEnd c t).run i here] at found
      exact ended i below r found

theorem loseCapacityAt_of_shut (shut : (s.cannon c).Shut) : loseCapacityAt c s = s := by
  obtain ⟨pending, opening, spraying, closePending⟩ := shut
  unfold loseCapacityAt
  split
  · rfl
  · split
    · rfl
    · split
      · exact absurd ‹_› pending
      · exact absurd ‹_› opening
      · exact absurd ‹_› spraying
      · exact absurd ‹_› closePending
      · rfl

theorem capacityLoss_of_shut (shut : ∀ c, (s.cannon c).Shut) : capacityLoss s = s :=
  forCannons_id fun c => loseCapacityAt_of_shut (shut c)

end

/-! ## The change of mode -/

section
variable (s : State)

/-- The mode written and MODE posted, before the blocks answer (R154). -/
def modeEntered (m : Mode) (x : Cause) : State := post .mode (s.setMode m (some x))

theorem enterMode_eq (m : Mode) (x : Cause) : enterMode m x s = syncAlert .noWater (pumpOnMode m (ordersOnMode m
    (sparingOrders (fun t => dispatcherOnMode s.mau.mode m (cannonsOnMode m t)) (modeEntered s m x)))) := rfl

theorem within_pumpOnMode (m : Mode) : Within s (pumpOnMode m s) := by
  unfold pumpOnMode
  split
  case h_1 | h_5 => exact .refl s
  all_goals exact within_pumpStop s

theorem within_enterMode (m : Mode) (x : Cause) : Within (modeEntered s m x) (enterMode m x s) := by
  rw [enterMode_eq]
  exact (within_sparingOrders _ _ fun u => (within_cannonsOnMode u m).trans (within_dispatcherOnMode _ _ m)).trans <|
    (within_ordersOnMode _ m).trans <| (within_pumpOnMode _ m).trans (within_syncAlert _ _)

theorem modeEntered_eq (m : Mode) (x : Cause) :
    modeEntered s m x = (s.setMode m (some x)).setNotices (modeEntered s m x).lc.notices := post_eq _ _

theorem mode_mem_modeEntered (m : Mode) (x : Cause) : .mode ∈ (modeEntered s m x).lc.notices :=
  (mem_post _ _ _).2 (.inl rfl)

/-- What every change of mode leaves as it was, and what it writes of the mode (R154). -/
structure ModeFrame (m : Mode) (x : Cause) (s t : State) : Prop where
  mode : t.mau.mode = m
  cause : t.mau.cause = some x
  split : t.mau.split = s.mau.split
  notice : .mode ∈ t.lc.notices
  noWater : (t.mau.alerts.get .noWater).condition = (noUsableSource t && spraysMode m)
  water : WaterFrame s t
  piles : PilesFrame s t
  cannons : CannonsFrame s t
  yc : t.yc = s.yc
  wfe : t.wfe = s.wfe
  ft : t.ft = s.ft
  bwu : t.bwu = s.bwu
  site : t.site = s.site
  pins : t.pins = s.pins

theorem modeFrame_of_within {m : Mode} {x : Cause} {t : State} (within : Within (modeEntered s m x) t)
    (noWater : InStep .noWater t) : ModeFrame m x s t := by
  have mau : t.mau.mode = m ∧ t.mau.cause = some x ∧ t.mau.split = s.mau.split := by
    rw [within.mau, modeEntered_eq]
    exact ⟨rfl, rfl, rfl⟩
  obtain ⟨mode, cause, split⟩ := mau
  have notice := within.posts.keeps.subset (mode_mem_modeEntered s m x)
  rw [modeEntered_eq] at within
  refine ⟨mode, cause, split, notice, noWater.trans ?_, ⟨within.ponds, within.today, within.previous⟩, within.pile,
    within.cannon, within.yc, within.wfe, within.ft, within.bwu, within.site, within.pins⟩
  rw [conditionOf, mode]

theorem modeFrame_enterMode (m : Mode) (x : Cause) : ModeFrame m x s (enterMode m x s) :=
  modeFrame_of_within s (within_enterMode s m x) (inStep_syncAlert .noWater _)

theorem modeFrame_inEvent {m : Mode} {x : Cause} {f : State → State} {u : State}
    (event : f (s.setPass false) = enterMode m x u) : ModeFrame m x u (inEvent f s) := by
  refine modeFrame_of_within u ?_ (InStep.inEvent (by rw [event]; exact inStep_syncAlert .noWater _))
  exact (within_enterMode u m x).trans (event ▸ inEvent_within s f)

end

/-! ## The piles (R130, R135) -/

/-- No run's end and no grant reaches a pile: an order closed DONE is a WET one, so that no hold flag moves. -/
theorem sprayRules_pau : SprayRules fun s t => t.pau = s.pau where
  refl _ := rfl
  trans h k := k.trans h
  run _ _ _ := rfl
  complete s k := by
    unfold completeIfDone
    split
    · split
      · rename_i o _ done
        unfold announceClosure
        rw [if_neg (by rw [done.1]; simp), post_pau]
        rfl
      · rfl
    · rfl
  suspensions _ _ := rfl
  pass _ _ := rfl
  pump _ _ := rfl
  queue _ _ := rfl
  slot _ _ := rfl
  demand _ _ _ := rfl
  post s n := post_pau s n
  phase s c x n l _ := syncAlert_pau _ _

/-! ## LOCKDOWN -/

/-- What the entry to LOCKDOWN leaves of the valves, the runs and the pump set (R77, R110, R135). -/
structure LockedDown (s t : State) : Prop where
  stopped : ∀ c, t.cannon c = (s.cannon c).stopped s.site
  queue : t.cc.queue = []
  slot : t.cc.slot = none
  runs : ∀ c, ∀ r ∈ t.run c, ∃ n, r.phase = .active .ends n
  pump : t.wiu.pump.phase = .off
  orders : t.sd.orders = s.sd.orders
  pau : t.pau = s.pau

section
variable {s t : State}

theorem pumpOnMode_lockdown_of_on (on : s.wiu.pump.phase ≠ .off) : pumpOnMode .lockdown s = pumpStop s := by
  unfold pumpOnMode
  cases phase : s.wiu.pump.phase with
  | off => exact absurd phase on
  | _ => rfl

/-- With its valves shut, a part gives up its source and nothing else (R70, R77, R120). -/
theorem pumpOnMode_lockdown_of_shut (shut : ∀ c, (s.cannon c).Shut) :
    (pumpOnMode .lockdown s).cc = s.cc ∧ (pumpOnMode .lockdown s).sd = s.sd ∧
    (pumpOnMode .lockdown s).wiu.pump.phase = .off := by
  by_cases off : s.wiu.pump.phase = .off
  · rw [pumpOnMode_lockdown_of_off off]
    exact ⟨rfl, rfl, off⟩
  · have stops : pumpOnMode .lockdown s = pumpOff s := by
      have cannon : ∀ c, (pumpOff s).cannon c = s.cannon c := fun c => post_cannon _ _ _
      have stop : pumpStop s = pumpOff s := capacityLoss_of_shut fun c => by rw [cannon]; exact shut c
      exact (pumpOnMode_lockdown_of_on off).trans stop
    rw [stops]
    exact ⟨post_cc _ _, post_sd _ _, congrArg Pump.phase (pumpTo_pump s _ _ _)⟩

theorem lockedDown_enterMode (x : Cause) (s : State) : LockedDown s (enterMode .lockdown x s) := by
  rw [enterMode_eq]
  have entered : (modeEntered s .lockdown x).cc = s.cc ∧ (modeEntered s .lockdown x).sd = s.sd ∧
      (modeEntered s .lockdown x).site = s.site ∧ (modeEntered s .lockdown x).pau = s.pau := by
    rw [modeEntered_eq]
    exact ⟨rfl, rfl, rfl, rfl⟩
  generalize modeEntered s .lockdown x = u at entered
  obtain ⟨cc, sd, site, pau⟩ := entered
  have closed : ∀ c, (closeAll (u.setOrders [])).cannon c = (s.cannon c).stopped s.site := fun c => by
    rw [closeAll_cannon, setOrders_cannon, setOrders_site, State.cannon, cc, site]
    rfl
  have emptied : (closeAll (u.setOrders [])).cc.queue = [] ∧ (closeAll (u.setOrders [])).cc.slot = none := ⟨rfl, rfl⟩
  have piles : (closeAll (u.setOrders [])).pau = s.pau := (sprayRules_pau.closeAll (u.setOrders [])).trans pau
  obtain ⟨endsCc, -, runs⟩ := decideEnds_of_shut fun c => by rw [closed c]; exact Cannon.stopped_shut _ _
  have endsPau := (sprayRules_pau.decideEnds (closeAll (u.setOrders [])) fun _ => true).trans piles
  have spared : sparingOrders (fun t => dispatcherOnMode s.mau.mode .lockdown (cannonsOnMode .lockdown t)) u =
      (decideEnds (fun _ => true) (closeAll (u.setOrders []))).setOrders u.sd.orders := rfl
  rw [spared]
  generalize decideEnds (fun _ => true) (closeAll (u.setOrders [])) = v at *
  have shut : ∀ c, ((v.setOrders u.sd.orders).cannon c).Shut := fun c => by
    have found : (v.setOrders u.sd.orders).cannon c = (s.cannon c).stopped s.site := by
      rw [setOrders_cannon, State.cannon, endsCc]
      exact closed c
    rw [found]
    exact Cannon.stopped_shut _ _
  obtain ⟨lostCc, lostSd, off⟩ := pumpOnMode_lockdown_of_shut shut
  have kept : ordersOnMode .lockdown (v.setOrders u.sd.orders) = v.setOrders u.sd.orders := rfl
  have pumpPau := sprayRules_pau.pumpOnMode (v.setOrders u.sd.orders) .lockdown
  rw [kept]
  generalize pumpOnMode .lockdown (v.setOrders u.sd.orders) = w at *
  have found : (syncAlert .noWater w).cc = (closeAll (u.setOrders [])).cc :=
    (syncAlert_cc _ _).trans (lostCc.trans endsCc)
  exact {
    stopped := fun c => by
      rw [State.cannon, found]
      exact closed c
    queue := by rw [found]; exact emptied.1
    slot := by rw [found]; exact emptied.2
    runs := fun c r carries => by
      rw [State.run, syncAlert_sd, lostSd] at carries
      exact runs c r carries
    pump := by rw [syncAlert_wiu]; exact off
    orders := by
      rw [syncAlert_sd, lostSd]
      change u.sd.orders = s.sd.orders
      rw [sd]
    pau := (syncAlert_pau _ _).trans (pumpPau.trans endsPau) }

/-- An event that ends with no cannon able to spray and the pump set OFF owes nothing more. -/
theorem inEvent_of_none_off {f : State → State} (none : ∀ c, couldSpray (f (s.setPass false)) c = false)
    (off : (f (s.setPass false)).wiu.pump.phase = .off) : inEvent f s = (f (s.setPass false)).setPass false := by
  unfold inEvent
  simp only
  generalize f (s.setPass false) = t at *
  split
  · rw [grantPass_of_none none, headerIdle_off off]
  · rename_i owed
    have quiet : t.sd = { t.sd with passDue := false } := by rw [← Bool.eq_false_of_not_eq_true owed]
    rw [State.setPass, ← quiet]

/-- The event that is an entry to LOCKDOWN. -/
theorem lockedDown_inEvent {x : Cause} {f : State → State} {u : State} (event : f (s.setPass false) = enterMode .lockdown x u) :
    LockedDown u (inEvent f s) := by
  have locked := lockedDown_enterMode x u
  have mode := (enterMode_mode u .lockdown x).1
  rw [← event] at locked mode
  rw [inEvent_of_none_off (couldSpray_of_mode (by rw [mode]; rfl)) locked.pump]
  exact ⟨locked.stopped, locked.queue, locked.slot, locked.runs, locked.pump, locked.orders, locked.pau⟩

theorem LockedDown.released (h : LockedDown s t) (c : Fin 32) :
    valveDriven t c = false ∧ (t.cannon c).phase ≠ .pendingOpen := by
  have shut : (t.cannon c).Shut := h.stopped c ▸ Cannon.stopped_shut _ _
  exact ⟨valveDriven_of_shut shut, shut.1⟩

theorem LockedDown.valvesStopped (h : LockedDown s t) : ValvesStopped s t := fun c => by
  rw [h.stopped c, Cannon.stopped]

end

/-! ## The STOP line (R157) -/

theorem stopStep_enters {s : State} (released : stopAsserted s = false) (mode : s.mau.mode ≠ .lockdown) :
    stopStep true s = enterMode .lockdown .stopLine (setStop true s) := by
  unfold stopStep
  exact if_pos ⟨by rw [released]; simp, rfl, mode⟩

theorem stopStep_filters {b : Bool} {s : State} (quiet : b = false ∨ s.mau.mode = .lockdown) :
    stopStep b s = setStop b s := by
  unfold stopStep
  refine if_neg fun ⟨_, asserted, outside⟩ => ?_
  rcases quiet with rfl | locked
  · cases asserted
  · exact outside locked

theorem exec_stopLine_filters {b : Bool} {s : State} (quiet : b = false ∨ s.mau.mode = .lockdown) :
    exec (.stopLineChange b) s = .next ((setStop b s).setPass false) := by
  have filters : stopStep b (s.setPass false) = setStop b (s.setPass false) := stopStep_filters quiet
  have event : inEvent (stopStep b) s = (setStop b s).setPass false := by
    rw [inEvent_of_quietPass (by rw [filters]; rfl), filters]
    rfl
  exact congrArg Host.Outcome.next event

/-- Settles O40: STOP asserted makes the entry to LOCKDOWN, after which no cannon can spray, and any other change of the
line moves its filter alone. -/
theorem stopLineTakesThePartToLockdown : Obligations.StopLineTakesThePartToLockdown := by
  refine ⟨fun s released mode => ?_, fun s => exec_stopLine_filters (.inl rfl), fun s locked =>
    exec_stopLine_filters (.inr locked)⟩
  have event : stopStep true (s.setPass false) = enterMode .lockdown .stopLine (setStop true (s.setPass false)) :=
    stopStep_enters released mode
  have frame := modeFrame_inEvent s event
  have locked := lockedDown_inEvent event
  have asserted : stopAsserted (inEvent (stopStep true) s) = true := by
    rw [stopAsserted, frame.pins]
    exact congrArg (Option.getD · false) (LineFilter.take_level _ true)
  have noWater : (inEvent (stopStep true) s).mau.alerts.noWater.condition = false :=
    frame.noWater.trans (Bool.and_false _)
  exact ⟨_, rfl, asserted, frame.mode, frame.cause, frame.split, frame.notice, locked.released, locked.valvesStopped,
    locked.queue, locked.slot, locked.runs, locked.pump, locked.orders, noWater, frame.water, frame.piles, frame.cannons,
    frame.yc, frame.wfe, frame.ft, frame.bwu, frame.site⟩

end Sys2Proof.Machine
end

