-- ==== Sys2Proof/Proofs/Candidates.lean ====
section
/-! SUPPORT. The grant pass as one sequence of candidates, each taken up, skipped for the flow test, or passed over
(R119, R122, R124 to R126). -/

namespace Sys2Proof.Machine

/-! ## What a pass reads -/

/-- What a pass reads and no grant changes. -/
structure Ground (s t : State) : Prop where
  site : t.site = s.site
  mode : t.mau.mode = s.mau.mode
  pile : ∀ p, t.pile p = s.pile p
  orders : t.sd.orders = s.sd.orders
  water : waterState t = waterState s
  config : ∀ c, (t.cannon c).config = (s.cannon c).config
  tier : ∀ p, (t.demand p).tier = (s.demand p).tier

theorem Ground.refl (s : State) : Ground s s := ⟨rfl, rfl, fun _ => rfl, rfl, rfl, fun _ => rfl, fun _ => rfl⟩

theorem Ground.trans {s t u : State} (h : Ground s t) (k : Ground t u) : Ground s u :=
  ⟨k.site.trans h.site, k.mode.trans h.mode, fun p => (k.pile p).trans (h.pile p), k.orders.trans h.orders,
    k.water.trans h.water, fun c => (k.config c).trans (h.config c), fun p => (k.tier p).trans (h.tier p)⟩

theorem waterState_congr {s t : State} (site : t.site = s.site) (ponds : t.wiu.ponds = s.wiu.ponds)
    (today : t.wiu.today = s.wiu.today) : waterState t = waterState s := by
  have pond : pondWater t = pondWater s := funext fun p => by rw [pondWater, State.pond, ponds]; rfl
  have water : usableWater t = usableWater s := by
    rw [usableWater, pond, freshUsed, today, site]
    rfl
  rw [waterState, water, site]
  rfl

theorem Within.ground {s t : State} (h : Within s t) (pau : t.pau = s.pau) (orders : t.sd.orders = s.sd.orders) :
    Ground s t :=
  ⟨h.site, by rw [h.mau], fun p => by rw [State.pile, pau, State.pile], orders,
    waterState_congr h.site h.ponds h.today, fun c => by rw [h.cannon c], h.tier⟩

section
variable {s t : State} (h : Ground s t)
include h

theorem Ground.order (k : Nat) : t.order k = s.order k := order_of_orders h.orders k

theorem Ground.couldSpray {c : Fin 32} (cannon : t.cannon c = s.cannon c) : couldSpray t c = couldSpray s c := by
  simp only [Machine.couldSpray, cannon, h.pile, h.mode]

theorem Ground.eligible {c : Fin 32} (cannon : t.cannon c = s.cannon c) (run : t.run c = s.run c) :
    eligible t c = eligible s c := by
  rw [Machine.eligible, h.couldSpray cannon, run, Machine.eligible]

theorem Ground.freeToResume {c : Fin 32} (cannon : t.cannon c = s.cannon c) (run : t.run c = s.run c) :
    freeToResume t c = freeToResume s c := by
  simp only [Machine.freeToResume, h.couldSpray cannon, run]

theorem Ground.servesTier (n : Nat) : ServesTier t n ↔ ServesTier s n := by
  rw [ServesTier, h.water]

theorem Ground.openWetAt (k : Nat) : OpenWetAt t k ↔ OpenWetAt s k := by
  rw [OpenWetAt, h.order]

theorem Ground.runServed (r : Run) : RunServed t r ↔ RunServed s r := by
  unfold RunServed
  cases r.origin with
  | order k => exact h.openWetAt k
  | auto => exact h.servesTier _
  | detached => exact Iff.rfl

theorem Ground.longestRun (c : Fin 32) : longestRun t c = longestRun s c := by
  rw [Machine.longestRun, h.config, h.site, Machine.longestRun]

end

theorem tierServed_iff (s : State) (n : Nat) : tierServed (waterState s) n = true ↔ ServesTier s n := by
  unfold ServesTier tierServed
  cases waterState s <;> simp
  omega

/-! ## One cannon taken up -/

/-- One cannon has been opened between s and t, and no other touched (R91). -/
structure TakenUp (c : Fin 32) (s t : State) : Prop extends Ground s t where
  wiu : t.wiu = s.wiu
  cannon : ∀ i, i ≠ c → t.cannon i = s.cannon i
  run : ∀ i, i ≠ c → t.run i = s.run i
  waits : (t.cannon c).phase = .pendingOpen ∨ (t.cannon c).phase = .opening

section
variable {s : State} {c : Fin 32}

theorem enterPhase_wiu (x : CannonPhase) (n l : Option Nat) : (enterPhase c x n l s).wiu = s.wiu := by
  simp [enterPhase]

theorem enterPhase_pau (x : CannonPhase) (n l : Option Nat) : (enterPhase c x n l s).pau = s.pau := by
  simp [enterPhase]

theorem openRequest_pau (c : Fin 32) (s : State) : (openRequest c s).pau = s.pau := by
  unfold openRequest enqueue
  split
  · simp [issueEntry, enterPhase_cannon, enterPhase_pau]
  · simp [enterPhase_pau]

theorem openRequest_wiu (c : Fin 32) (s : State) : (openRequest c s).wiu = s.wiu := by
  unfold openRequest enqueue
  split
  · simp [issueEntry, enterPhase_cannon, enterPhase_wiu]
  · simp [enterPhase_wiu]

theorem takenUp_openRequest (c : Fin 32) (s : State) : TakenUp c s (openRequest c s) :=
  ⟨(within_openRequest s c).ground (openRequest_pau c s) (by rw [openRequest_sd]), openRequest_wiu c s,
    (apart_openRequest c s).cannon, (apart_openRequest c s).run, openRequest_waits c s⟩

/-- The cannon's run is written before its open request (R124). -/
theorem TakenUp.from {t u : State} (h : TakenUp c t u) (ground : Ground s t) (wiu : t.wiu = s.wiu) (cc : t.cc = s.cc)
    (run : ∀ i, i ≠ c → t.run i = s.run i) : TakenUp c s u :=
  ⟨ground.trans h.toGround, h.wiu.trans wiu,
    fun i hi => (h.cannon i hi).trans (by rw [State.cannon, cc, State.cannon]),
    fun i hi => (h.run i hi).trans (run i hi), h.waits⟩

/-- The open demands are written after it (R126). -/
theorem TakenUp.on {t u : State} (h : TakenUp c s t) (ground : Ground t u) (wiu : u.wiu = t.wiu) (cc : u.cc = t.cc)
    (run : ∀ i, u.run i = t.run i) : TakenUp c s u := by
  have same : ∀ i, u.cannon i = t.cannon i := fun i => by rw [State.cannon, cc, State.cannon]
  exact ⟨h.toGround.trans ground, wiu.trans h.wiu, fun i hi => (same i).trans (h.cannon i hi),
    fun i hi => (run i).trans (h.run i hi), by rw [same]; exact h.waits⟩

theorem takenUp_resumeRun (c : Fin 32) (s : State) : TakenUp c s (resumeRun c s) :=
  (takenUp_openRequest c _).from ((within_updateRun s c _).ground (by unfold updateRun; split <;> rfl) (by simp))
    (by simp) (by simp) fun i hi => by rw [updateRun_run, if_neg hi]

theorem resumeRun_run (c : Fin 32) (s : State) : (resumeRun c s).run c = (s.run c).map Run.resumed := by
  rw [resumeRun, openRequest_run, updateRun_run, if_pos rfl]
  rfl

theorem resumeRun_demand (c : Fin 32) (s : State) (p : Fin 24) : (resumeRun c s).demand p = s.demand p :=
  demand_of_demands ((closeKeeps_updateRun c s _).trans (closeKeeps_openRequest c _)).demands p

theorem takenUp_newRun (c : Fin 32) (o : Origin) (tier : Option (Fin 4)) (n : Nat) (s : State) :
    TakenUp c s (newRun c o tier n s) := by
  have entered : Within s (s.setRun c (some (entering s c o tier n))) := within_setRun s c _
  exact (takenUp_openRequest c _).from (entered.ground rfl rfl) rfl rfl fun i hi => by rw [setRun_run, if_neg hi]

end

/-! ## Candidates -/

/-- A cannon that a pass comes to for a run of the origin: one to resume, or a new one. -/
inductive Candidate
  | resumes (o : Origin) (c : Fin 32)
  | enters (o : Origin) (c : Fin 32)

def Candidate.cannon : Candidate → Fin 32
  | .resumes _ c => c
  | .enters _ c => c

/-- The candidate's place in the order of a pass from s (R125, R126). -/
def Candidate.turn (s : State) : Candidate → List Int
  | .resumes (.order k) c => orderTurn s k true c
  | .resumes _ c => ((s.run c).map fun r => resumeTurn r c).getD []
  | .enters (.order k) c => orderTurn s k false c
  | .enters _ c => pileTurn s c

/-- What is left for a new run of the origin on the cannon (R125, R126). -/
def volumeFor (s : State) (o : Origin) (c : Fin 32) : Nat :=
  match o with
  | .order k => ((s.order k).map (undelivered s k)).getD 0
  | .auto => (s.demand (s.cannon c).config.pile).volume
  | .detached => 0

/-- The origin is one that the pass serves on the cannon, its volume apart (R125, R126). -/
def OriginServed (s : State) (o : Origin) (c : Fin 32) : Prop :=
  match o with
  | .order k => ∃ x ∈ s.order k, x.kind = .wet ∧ x.closure = none ∧ x.pile = (s.cannon c).config.pile
  | .auto => s.mau.mode = .auto ∧ (s.pile (s.cannon c).config.pile).hold = false ∧
      ServesTier s (s.demand (s.cannon c).config.pile).tier
  | .detached => False

/-- The volume left is enough for a run of the origin (R125, R126). -/
def EnoughFor (s : State) (o : Origin) (left : Nat) : Prop :=
  match o with
  | .order _ => 0 < left
  | .auto => s.site.minRun ≤ left
  | .detached => False

/-- The pass would take the candidate up if its flow fitted the header (R125, R126). -/
def Candidate.asks (s : State) : Candidate → Prop
  | .resumes o c => freeToResume s c = true ∧ ∃ r ∈ s.run c, r.origin = o ∧ RunServed s r
  | .enters o c => eligible s c = true ∧ OriginServed s o c ∧ EnoughFor s o (volumeFor s o c)

/-- The tier that a new run of the origin stands in (R113). -/
def tierOf (s : State) (o : Origin) (c : Fin 32) : Option (Fin 4) :=
  match o with
  | .auto => some (s.demand (s.cannon c).config.pile).tier
  | _ => none

/-- The new run of the origin on the cannon, where so much is left (R113, R125, R126). -/
def enteredRun (s : State) (o : Origin) (left : Nat) (c : Fin 32) : Run :=
  entering s c o (tierOf s o c) (min left (longestRun s c))

/-- The candidate is taken up (R124 to R126). -/
def Candidate.admits (s : State) : Candidate → State
  | .resumes _ c => resumeRun c s
  | .enters .auto c =>
    (newRun c .auto (tierOf s .auto c) (min (volumeFor s .auto c) (longestRun s c)) s).setDemand
      (s.cannon c).config.pile { s.demand (s.cannon c).config.pile with
        volume := volumeFor s .auto c - min (volumeFor s .auto c) (longestRun s c) }
  | .enters o c => newRun c o (tierOf s o c) (min (volumeFor s o c) (longestRun s c)) s

theorem orderWants_iff (s : State) (k : Nat) (c : Fin 32) : OrderWants s k c ↔
    OriginServed s (.order k) c ∧ EnoughFor s (.order k) (volumeFor s (.order k) c) := by
  unfold OrderWants OriginServed EnoughFor volumeFor
  cases order : s.order k with
  | none => simp [order]
  | some x => simp [order, and_assoc]

theorem pileWants_iff (s : State) (c : Fin 32) : PileWants s c ↔
    OriginServed s .auto c ∧ EnoughFor s .auto (volumeFor s .auto c) ∧ 0 < volumeFor s .auto c := by
  unfold PileWants OriginServed EnoughFor volumeFor
  simp only [and_assoc, and_comm (a := 0 < _)]

section
variable {s t : State}

theorem Ground.originServed (h : Ground s t) (o : Origin) (c : Fin 32) : OriginServed t o c ↔ OriginServed s o c := by
  cases o <;> simp only [OriginServed, h.order, h.config, h.mode, h.pile, h.tier, h.servesTier]

theorem Ground.enoughFor (h : Ground s t) (o : Origin) (left : Nat) : EnoughFor t o left ↔ EnoughFor s o left := by
  cases o <;> simp only [EnoughFor, h.site]

theorem EnoughFor.mono {o : Origin} {a b : Nat} (h : EnoughFor s o a) (le : a ≤ b) : EnoughFor s o b := by
  cases o with
  | order k => exact Nat.lt_of_lt_of_le h le
  | auto => exact Nat.le_trans h le
  | detached => exact h

theorem takenUp_admits (x : Candidate) (s : State) (h : x.asks s) : TakenUp x.cannon s (x.admits s) := by
  cases x with
  | resumes o c => exact takenUp_resumeRun c s
  | enters o c =>
    cases o with
    | order k => exact takenUp_newRun c _ _ _ s
    | detached => exact absurd h.2.1 id
    | auto =>
      have taken := takenUp_newRun c .auto (tierOf s .auto c) (min (volumeFor s .auto c) (longestRun s c)) s
      unfold Candidate.admits
      simp only
      generalize newRun c .auto (tierOf s .auto c) _ s = t at taken ⊢
      refine taken.on ⟨rfl, rfl, fun _ => rfl, rfl, rfl, fun _ => rfl, fun p => ?_⟩ rfl rfl fun _ => rfl
      rw [setDemand_demand]
      split
      · rename_i own
        rw [own, taken.tier]
      · rfl

theorem resumes_run (o : Origin) (c : Fin 32) (s : State) :
    ((Candidate.resumes o c).admits s).run c = (s.run c).map Run.resumed := resumeRun_run c s

theorem enters_run {o : Origin} {c : Fin 32} (h : (Candidate.enters o c).asks s) :
    ((Candidate.enters o c).admits s).run c = some (enteredRun s o (volumeFor s o c) c) := by
  cases o with
  | order k => exact newRun_run _ _ _
  | auto => exact newRun_run _ _ _
  | detached => exact absurd h.2.1 id

theorem resumes_demand (o : Origin) (c : Fin 32) (s : State) (p : Fin 24) :
    ((Candidate.resumes o c).admits s).demand p = s.demand p := resumeRun_demand c s p

/-- Only a new AUTO run takes from an open demand, that of its pile (R126). -/
theorem enters_demand (o : Origin) (c : Fin 32) (s : State) (p : Fin 24) :
    (((Candidate.enters o c).admits s).demand p).volume = (s.demand p).volume -
      if o = .auto ∧ (s.cannon c).config.pile = p then min (volumeFor s o c) (longestRun s c) else 0 := by
  have kept : ∀ n, (newRun c o (tierOf s o c) n s).demand p = s.demand p := fun n =>
    demand_of_demands (closeKeeps_newRun o (tierOf s o c) n c s).demands p
  cases o with
  | order k => simpa [Candidate.admits] using congrArg Demand.volume (kept _)
  | detached => simpa [Candidate.admits] using congrArg Demand.volume (kept _)
  | auto =>
    unfold Candidate.admits
    simp only [setDemand_demand, kept, true_and]
    by_cases own : p = (s.cannon c).config.pile
    · subst own
      simp [volumeFor]
    · simp [own, Ne.symm own]

/-! ## The sequence -/

/-- What becomes of one candidate in a pass (R119, R124). -/
def Candidate.Meets (x : Candidate) (p q : Pass) : Prop :=
  (x.asks p.s ∧ q = p.attempt x.cannon fun _ => x.admits p.s) ∨ (¬ x.asks p.s ∧ q = p)

/-- The candidates of the list, one after another, lead from p to q. -/
inductive Steps : List Candidate → Pass → Pass → Prop
  | nil (p : Pass) : Steps [] p p
  | cons {x : Candidate} {l : List Candidate} {p q r : Pass} : x.Meets p q → Steps l q r → Steps (x :: l) p r

theorem Steps.one {x : Candidate} {p q : Pass} (h : x.Meets p q) : Steps [x] p q := .cons h (.nil q)

theorem Steps.append {l m : List Candidate} {p q r : Pass} (h : Steps l p q) (k : Steps m q r) : Steps (l ++ m) p r := by
  induction h with
  | nil p => exact k
  | cons first _ ih => exact .cons first (ih k)

/-- The steps of a fold, which keep what they need of each other. -/
theorem Steps.foldl {α β : Type} {pass : β → Pass} {f : β → α → β} {g : α → List Candidate} {I : β → Prop}
    (l : List α) (step : ∀ b, ∀ a ∈ l, I b → Steps (g a) (pass b) (pass (f b a)) ∧ I (f b a)) {b : β} (h : I b) :
    Steps (l.flatMap g) (pass b) (pass (l.foldl f b)) ∧ I (l.foldl f b) := by
  induction l generalizing b with
  | nil => exact ⟨.nil _, h⟩
  | cons a l ih =>
    obtain ⟨first, kept⟩ := step b a (List.mem_cons_self ..) h
    obtain ⟨rest, last⟩ := ih (fun c x hx => step c x (List.mem_cons_of_mem _ hx)) kept
    exact ⟨first.append rest, last⟩

theorem Candidate.Meets.ground {x : Candidate} {p q : Pass} (h : x.Meets p q) : Ground p.s q.s := by
  rcases h with ⟨asks, rfl⟩ | ⟨-, rfl⟩
  · unfold Pass.attempt
    split
    · exact (takenUp_admits x p.s asks).toGround
    · exact .refl _
  · exact .refl _

theorem Steps.ground {l : List Candidate} {p q : Pass} (h : Steps l p q) : Ground p.s q.s := by
  induction h with
  | nil p => exact .refl _
  | cons first _ ih => exact first.ground.trans ih

/-- An attempt goes by the state that it finds. -/
theorem attempt_congr {p : Pass} {c : Fin 32} {f g : State → State} (h : f p.s = g p.s) : p.attempt c f = p.attempt c g := by
  unfold Pass.attempt
  rw [h]

/-- Both branches of a step that tests the candidate. -/
theorem Candidate.meets_if {x : Candidate} {p q : Pass} {b : Bool} (test : b = true ↔ x.asks p.s)
    (taken : x.asks p.s → q = p.attempt x.cannon fun _ => x.admits p.s) :
    x.Meets p (if b then q else p) := by
  split
  · rename_i yes
    exact .inl ⟨test.1 yes, taken (test.1 yes)⟩
  · rename_i no
    exact .inr ⟨fun asks => no (test.2 asks), rfl⟩

end

end Sys2Proof.Machine
end

