-- ==== Sys2Proof/Proofs/TurnOrder.lean ====
section
/-! SUPPORT. The order in which a pass comes to its candidates: each list that it goes through is strictly ascending in
turns (R125, R126). -/

namespace Sys2Proof.Machine

/-! ## Sorting -/

section
variable {α : Type} {before : α → α → Bool} {lt : α → α → Prop}

theorem pairwise_insertBy (trans : ∀ a b c, lt a b → lt b c → lt a c) {a : α} {l : List α} (sorted : l.Pairwise lt)
    (later : ∀ b ∈ l, before b a = true → lt b a) (first : ∀ b ∈ l, before b a = false → lt a b) :
    (insertBy before a l).Pairwise lt := by
  induction l with
  | nil => exact List.pairwise_singleton _ _
  | cons b l ih =>
    obtain ⟨head, tail⟩ := List.pairwise_cons.1 sorted
    unfold insertBy
    split
    · rename_i goes
      refine List.pairwise_cons.2 ⟨fun x hx => ?_, ih tail (fun y hy => later y (List.mem_cons_of_mem _ hy))
        fun y hy => first y (List.mem_cons_of_mem _ hy)⟩
      rcases (mem_insertBy before a x l).1 hx with rfl | mem
      · exact later b (List.mem_cons_self ..) goes
      · exact head x mem
    · rename_i stays
      have ahead : lt a b := first b (List.mem_cons_self ..) (Bool.eq_false_of_not_eq_true stays)
      refine List.pairwise_cons.2 ⟨fun x hx => ?_, sorted⟩
      rcases List.mem_cons.1 hx with rfl | mem
      · exact ahead
      · exact trans a b x ahead (head x mem)

/-- A sort by a key whose ties keep the list's order. -/
theorem pairwise_sortBy (trans : ∀ a b c, lt a b → lt b c → lt a c) {l : List α}
    (strict : ∀ a ∈ l, ∀ b ∈ l, before a b = true → lt a b)
    (ties : l.Pairwise fun a b => before b a = false → lt a b) : (sortBy before l).Pairwise lt := by
  induction l with
  | nil => exact List.Pairwise.nil
  | cons a l ih =>
    obtain ⟨head, tail⟩ := List.pairwise_cons.1 ties
    refine pairwise_insertBy trans (ih (fun x hx y hy => strict x (List.mem_cons_of_mem _ hx) y (List.mem_cons_of_mem _ hy))
      tail) (fun b hb goes => ?_) fun b hb => ?_
    · exact strict b (List.mem_cons_of_mem _ ((mem_sortBy _ _ _).1 hb)) a (List.mem_cons_self ..) goes
    · exact head b ((mem_sortBy _ _ _).1 hb)

end

/-! ## Turns -/

theorem orderTurn_lt_of_resumes (s : State) (k : Nat) {c d : Fin 32} (b : Bool) (h : c < d) :
    orderTurn s k b c < orderTurn s k b d := by
  simp [orderTurn, List.cons_lt_cons_iff, h]

theorem orderTurn_lt_enters (s : State) (k : Nat) (c d : Fin 32) : orderTurn s k true c < orderTurn s k false d := by
  simp [orderTurn, List.cons_lt_cons_iff]

/-- The orders go by acceptance, and those of one acceptance by slot (R125). -/
theorem orderTurn_lt_orders {s : State} {j k : Nat} (a b : Bool) (c d : Fin 32)
    (h : ((s.order j).map Order.acceptance).getD 0 < ((s.order k).map Order.acceptance).getD 0 ∨
      ((s.order j).map Order.acceptance).getD 0 = ((s.order k).map Order.acceptance).getD 0 ∧ j < k) :
    orderTurn s j a c < orderTurn s k b d := by
  unfold orderTurn
  rcases h with less | ⟨same, slot⟩
  · simp [List.cons_lt_cons_iff, less]
  · simp [List.cons_lt_cons_iff, same, slot]

/-- The turns of one kind of candidate ascend with the cannon. -/
theorem pairwise_cannons {f : Fin 32 → List Int} (ascends : ∀ c d, c < d → f c < f d) (test : Fin 32 → Bool) :
    ((List.finRange 32).filter test).Pairwise fun c d => f c < f d :=
  ((List.pairwise_lt_finRange 32).filter _).imp fun {c d} h => ascends c d h

/-! ## The lists of a pass -/

/-- Step 1's candidates for one order (R125). -/
def orderCandidates (k : Nat) : List Candidate :=
  (List.finRange 32).map (.resumes (.order k)) ++ (List.finRange 32).map (.enters (.order k))

/-- Step 3's candidates for one pile (R126). -/
def pileCandidates (s : State) (i : Fin 24) : List Candidate :=
  ((List.finRange 32).filter fun c => (s.cannon c).config.pile = i).map (.enters .auto)

/-- One candidate comes before another in a pass from s. -/
def Sooner (s : State) (x y : Candidate) : Prop := x.turn s < y.turn s

theorem mem_orderCandidates {k : Nat} {x : Candidate} :
    x ∈ orderCandidates k ↔ (∃ c, x = .resumes (.order k) c) ∨ ∃ c, x = .enters (.order k) c := by
  simp [orderCandidates, eq_comm]

theorem mem_pileCandidates {s : State} {i : Fin 24} {x : Candidate} :
    x ∈ pileCandidates s i ↔ ∃ c, (s.cannon c).config.pile = i ∧ x = .enters .auto c := by
  simp [pileCandidates, eq_comm]

theorem turn_of_mem_orderCandidates {s : State} {k : Nat} {x : Candidate} (h : x ∈ orderCandidates k) :
    ∃ b, x.turn s = orderTurn s k b x.cannon := by
  rcases mem_orderCandidates.1 h with ⟨c, rfl⟩ | ⟨c, rfl⟩
  · exact ⟨true, rfl⟩
  · exact ⟨false, rfl⟩

theorem pairwise_orderCandidates (s : State) (k : Nat) : (orderCandidates k).Pairwise (Sooner s) := by
  unfold orderCandidates Sooner
  rw [List.pairwise_append, List.pairwise_map, List.pairwise_map]
  refine ⟨(List.pairwise_lt_finRange 32).imp fun h => orderTurn_lt_of_resumes s k true h,
    (List.pairwise_lt_finRange 32).imp fun h => orderTurn_lt_of_resumes s k false h, ?_⟩
  simp only [List.mem_map, List.mem_finRange, true_and]
  rintro _ ⟨c, rfl⟩ _ ⟨d, rfl⟩
  exact orderTurn_lt_enters s k c d

theorem pairwise_openWetOrders (s : State) : (openWetOrders s).Pairwise fun j k =>
    ((s.order j).map Order.acceptance).getD 0 < ((s.order k).map Order.acceptance).getD 0 ∨
      ((s.order j).map Order.acceptance).getD 0 = ((s.order k).map Order.acceptance).getD 0 ∧ j < k := by
  have same : ∀ k, (match s.order k with | some o => o.acceptance | none => 0) =
      ((s.order k).map Order.acceptance).getD 0 := fun k => by cases s.order k <;> rfl
  unfold openWetOrders
  simp only [← same]
  exact pairwise_sortBy (fun a b c => by omega) (fun a _ b _ h => .inl (of_decide_eq_true h))
    ((List.pairwise_lt_range.filter _).imp fun less tie =>
      (Nat.lt_or_eq_of_le (Nat.le_of_not_lt (of_decide_eq_false tie))).imp_right fun same => ⟨same, less⟩)

/-- Step 1 goes through its candidates in the order of their turns (R125). -/
theorem pairwise_orders (s : State) : ((openWetOrders s).flatMap orderCandidates).Pairwise (Sooner s) := by
  rw [List.pairwise_flatMap]
  refine ⟨fun k _ => pairwise_orderCandidates s k, (pairwise_openWetOrders s).imp fun {j k} less x hx y hy => ?_⟩
  obtain ⟨a, hx⟩ := turn_of_mem_orderCandidates (s := s) hx
  obtain ⟨b, hy⟩ := turn_of_mem_orderCandidates (s := s) hy
  rw [Sooner, hx, hy]
  exact orderTurn_lt_orders a b _ _ less

theorem resumeTurn_lt {q r : Run} (c d : Fin 32) (h : q.tierNumber < r.tierNumber ∨ q.tierNumber = r.tierNumber ∧
    (q.suspensionNumber < r.suspensionNumber ∨ q.suspensionNumber = r.suspensionNumber ∧ c < d)) :
    resumeTurn q c < resumeTurn r d := by
  unfold resumeTurn
  rcases h with tier | ⟨tier, number | ⟨number, cannon⟩⟩
  · simp [List.cons_lt_cons_iff, tier]
  · simp [List.cons_lt_cons_iff, tier, number]
  · simp [List.cons_lt_cons_iff, tier, number, cannon]

theorem pairwise_resumableAuto (s : State) : ((resumableAuto s).map (.resumes .auto)).Pairwise (Sooner s) := by
  rw [List.pairwise_map]
  unfold resumableAuto
  have waits : ∀ c, c ∈ (List.finRange 32).filter (fun c => freeToResume s c &&
      match s.run c with | some r => r.origin = .auto | none => false) → ∃ r, s.run c = some r := fun c hc => by
    have free := (List.mem_filter.1 hc).2
    cases run : s.run c with
    | none => simp [run] at free
    | some r => exact ⟨r, rfl⟩
  refine pairwise_sortBy (lt := fun a b => Sooner s (.resumes .auto a) (.resumes .auto b))
    (fun a b c => lt_trans (α := List Int)) (fun a ha b hb h => ?_) ?_
  · obtain ⟨q, hq⟩ := waits a ha
    obtain ⟨r, hr⟩ := waits b hb
    simp only [hq, hr, Bool.or_eq_true, Bool.and_eq_true, decide_eq_true_eq] at h
    simp only [Sooner, Candidate.turn, hq, hr, Option.map_some, Option.getD_some]
    exact resumeTurn_lt a b (h.imp_right fun ⟨tier, number⟩ => ⟨tier, .inl number⟩)
  · refine List.Pairwise.imp_of_mem (fun {a b} ha hb less tie => ?_) ((List.pairwise_lt_finRange 32).filter _)
    obtain ⟨q, hq⟩ := waits a ha
    obtain ⟨r, hr⟩ := waits b hb
    simp only [hq, hr, Bool.or_eq_false_iff, Bool.and_eq_false_iff, decide_eq_false_iff_not] at tie
    simp only [Sooner, Candidate.turn, hq, hr, Option.map_some, Option.getD_some]
    exact resumeTurn_lt a b (by omega)

theorem turn_of_mem_pileCandidates {s : State} {i : Fin 24} {x : Candidate} (h : x ∈ pileCandidates s i) :
    x.turn s = [2, ((s.demand i).tier.val : Int), -((s.demand i).volume : Int), (i.val : Int), (x.cannon.val : Int)] := by
  obtain ⟨c, rfl, rfl⟩ := mem_pileCandidates.1 h
  rfl

theorem pairwise_pileCandidates (s : State) (i : Fin 24) : (pileCandidates s i).Pairwise (Sooner s) := by
  unfold pileCandidates
  rw [List.pairwise_map]
  refine List.Pairwise.imp_of_mem (fun {c d} hc hd less => ?_) ((List.pairwise_lt_finRange 32).filter _)
  have mine : ∀ {x}, x ∈ (List.finRange 32).filter (fun c => (s.cannon c).config.pile = i) →
      Candidate.enters .auto x ∈ pileCandidates s i := fun hx => List.mem_map_of_mem hx
  rw [Sooner, turn_of_mem_pileCandidates (mine hc), turn_of_mem_pileCandidates (mine hd)]
  simpa [List.cons_lt_cons_iff, Candidate.cannon] using less

theorem pairwise_demandingPiles (s : State) : (demandingPiles s).Pairwise fun i j =>
    (s.demand i).tier < (s.demand j).tier ∨ (s.demand i).tier = (s.demand j).tier ∧
      ((s.demand j).volume < (s.demand i).volume ∨ (s.demand i).volume = (s.demand j).volume ∧ i < j) := by
  unfold demandingPiles
  refine pairwise_sortBy (fun a b c => by omega) (fun a _ b _ h => ?_) ?_
  · simp only [Bool.or_eq_true, Bool.and_eq_true, decide_eq_true_eq] at h
    omega
  · refine ((List.pairwise_lt_finRange 24).filter _).imp fun {a b} less tie => ?_
    simp only [Bool.or_eq_false_iff, Bool.and_eq_false_iff, decide_eq_false_iff_not] at tie
    omega

/-- Step 3 goes through its candidates in the order of their turns (R126). -/
theorem pairwise_piles (s : State) : ((demandingPiles s).flatMap (pileCandidates s)).Pairwise (Sooner s) := by
  rw [List.pairwise_flatMap]
  refine ⟨fun i _ => pairwise_pileCandidates s i, (pairwise_demandingPiles s).imp fun {i j} less x hx y hy => ?_⟩
  rw [Sooner, turn_of_mem_pileCandidates hx, turn_of_mem_pileCandidates hy]
  rcases less with tier | ⟨tier, volume | ⟨volume, pile⟩⟩
  · simp [List.cons_lt_cons_iff, tier]
  · simp [List.cons_lt_cons_iff, tier, volume]
  · simp [List.cons_lt_cons_iff, tier, volume, pile]

end Sys2Proof.Machine
end

