-- ==== Sys2Proof/Proofs/PassSequence.lean ====
section
/-! SUPPORT. The three steps of a grant pass go through their candidates one after another (R125, R126). -/

namespace Sys2Proof.Machine

section
variable {s : State}

theorem flatMap_singletons {α β : Type} (f : α → β) (l : List α) : l.flatMap (fun a => [f a]) = l.map f :=
  (List.map_eq_flatMap ..).symm

/-- Candidates that do not ask leave the pass as it is. -/
theorem Steps.passed {p : Pass} (l : List Candidate) (h : ∀ x ∈ l, ¬ x.asks p.s) : Steps l p p := by
  induction l with
  | nil => exact .nil p
  | cons x l ih =>
    exact .cons (.inr ⟨h x (List.mem_cons_self ..), rfl⟩) (ih fun y hy => h y (List.mem_cons_of_mem _ hy))

/-! ## Step 1 -/

theorem openWetAt_of_mem {k : Nat} (h : k ∈ openWetOrders s) : OpenWetAt s k := by
  simp only [openWetOrders, mem_sortBy, List.mem_filter] at h
  obtain ⟨-, h⟩ := h
  cases order : s.order k with
  | none => simp [order] at h
  | some o =>
    simp only [order, Bool.and_eq_true, decide_eq_true_eq, Option.isNone_iff_eq_none] at h
    exact ⟨o, order, h⟩

theorem mem_openWetOrders_of_openWetAt {k : Nat} (h : OpenWetAt s k) : k ∈ openWetOrders s := by
  obtain ⟨o, order, wet, opened⟩ := h
  simp only [openWetOrders, mem_sortBy, List.mem_filter, List.mem_range]
  refine ⟨?_, by simp [Option.mem_def.1 order, wet, opened]⟩
  by_contra out
  rw [State.order, List.getElem?_eq_none (Nat.le_of_not_lt out)] at order
  cases order

theorem meets_resumeOrderAt {k : Nat} {p : Pass} (wet : OpenWetAt p.s k) (c : Fin 32) :
    (Candidate.resumes (.order k) c).Meets p (resumeOrderAt k p c) := by
  unfold resumeOrderAt
  cases run : p.s.run c with
  | none => exact .inr ⟨fun asks => by simp [Candidate.asks, run] at asks, rfl⟩
  | some r =>
    refine Candidate.meets_if ?_ fun _ => attempt_congr rfl
    constructor
    · intro h
      simp only [Bool.and_eq_true, decide_eq_true_eq] at h
      exact ⟨h.2, r, run, h.1, by rw [RunServed, h.1]; exact wet⟩
    · rintro ⟨free, x, hx, origin, -⟩
      rw [run] at hx
      obtain rfl := Option.some.inj hx
      simp [origin, free]

/-- What the order wants is what its runs leave undelivered (R125). -/
theorem volumeFor_order {k : Nat} {o : Order} (order : s.order k = some o) (c : Fin 32) :
    volumeFor s (.order k) c = undelivered s k o := by
  simp [volumeFor, order]

/-- A new run for the order takes its target from what is undelivered (R125). -/
theorem undelivered_newRun {k n : Nat} {c : Fin 32} (o : Order) (free : s.run c = none) :
    undelivered (newRun c (.order k) none n s) k o = undelivered s k o - n := by
  have entered : (newRun c (.order k) none n s).run c = some (entering s c (.order k) none n) := newRun_run _ _ _
  have own : (if (decide ((entering s c (.order k) none n).origin = .order k)) = true then
      (entering s c (.order k) none n).outstanding else 0) = n := by
    simp [entering, Run.outstanding]
  rw [undelivered, outstandingOf_enter free entered (apart_newRun (.order k) none n c s).run, own, Nat.sub_add_eq]
  rfl

/-- What is left for an order's cannons to come is what its runs leave undelivered (R125). -/
def LeftCounted (k : Nat) (o : Order) (acc : Pass × Nat) : Prop :=
  acc.1.s.order k = some o ∧ acc.2 = undelivered acc.1.s k o

theorem steps_grantOrderAt {k : Nat} {o : Order} (wet : o.kind = .wet) (opened : o.closure = none) (c : Fin 32) {p : Pass}
    (order : p.s.order k = some o) :
    Steps [.enters (.order k) c] p (grantOrderAt k o.pile (p, undelivered p.s k o) c).1 ∧
      LeftCounted k o (grantOrderAt k o.pile (p, undelivered p.s k o) c) := by
  have test : (decide (0 < undelivered p.s k o) && eligible p.s c && decide ((p.s.cannon c).config.pile = o.pile)) = true ↔
      (Candidate.enters (.order k) c).asks p.s := by
    simp only [Candidate.asks, OriginServed, EnoughFor, volumeFor_order order, order, Bool.and_eq_true, decide_eq_true_eq,
      Option.mem_def, Option.some.injEq, exists_eq_left', wet, opened, true_and]
    exact ⟨fun ⟨⟨a, b⟩, c⟩ => ⟨b, c.symm, a⟩, fun ⟨b, c, a⟩ => ⟨⟨a, b⟩, c.symm⟩⟩
  have met : (Candidate.enters (.order k) c).Meets p (grantOrderAt k o.pile (p, undelivered p.s k o) c).1 := by
    unfold grantOrderAt
    rw [apply_ite Prod.fst]
    refine Candidate.meets_if test fun _ => attempt_congr ?_
    simp only [Candidate.admits, volumeFor_order order]
    rfl
  refine ⟨.one met, (met.ground.order k).trans order, ?_⟩
  unfold grantOrderAt
  simp only
  split
  · rename_i asks
    unfold Pass.attempt
    split
    · exact (undelivered_newRun o (run_of_eligible (test.1 asks).1)).symm
    · rfl
  · rfl

theorem steps_serveOrder {k : Nat} {p : Pass} (wet : OpenWetAt p.s k) : Steps (orderCandidates k) p (serveOrder p k) := by
  obtain ⟨o, order, kind, opened⟩ := wet
  have resumed := Steps.foldl (pass := id) (f := resumeOrderAt k) (g := fun c => [.resumes (.order k) c])
    (I := fun q : Pass => OpenWetAt q.s k) (List.finRange 32) (fun q c _ wet =>
      ⟨.one (meets_resumeOrderAt wet c), ((meets_resumeOrderAt wet c).ground.openWetAt k).2 wet⟩) (b := p)
      ⟨o, order, kind, opened⟩
  obtain ⟨first, -⟩ := resumed
  unfold serveOrder orderCandidates
  rw [Option.mem_def.1 order]
  simp only
  rw [flatMap_singletons] at first
  simp only [id] at first
  refine first.append ?_
  have kept : ((List.finRange 32).foldl (resumeOrderAt k) p).s.order k = some o := (first.ground.order k).trans order
  generalize (List.finRange 32).foldl (resumeOrderAt k) p = q at kept ⊢
  have granted := Steps.foldl (pass := Prod.fst) (f := grantOrderAt k o.pile) (g := fun c => [.enters (.order k) c])
    (I := LeftCounted k o) (List.finRange 32) (fun acc c _ h => by
      rw [show acc = (acc.1, undelivered acc.1.s k o) from Prod.ext rfl h.2]
      exact steps_grantOrderAt kind opened c h.1) (b := (q, undelivered q.s k o)) ⟨kept, rfl⟩
  rw [flatMap_singletons] at granted
  exact granted.1

theorem steps_orders (s : State) : Steps ((openWetOrders s).flatMap orderCandidates) ⟨s, false, false⟩
    ((openWetOrders s).foldl serveOrder ⟨s, false, false⟩) :=
  (Steps.foldl (pass := id) (I := fun p : Pass => Ground s p.s) (openWetOrders s) (fun _ _ hk ground =>
    have served := steps_serveOrder ((ground.openWetAt _).2 (openWetAt_of_mem hk))
    ⟨served, ground.trans served.ground⟩) (Ground.refl s)).1

/-! ## Step 2 -/

/-- A suspended AUTO run whose cannon is free to resume it (R126). -/
def AutoWaits (s : State) (c : Fin 32) : Prop := freeToResume s c = true ∧ ∃ r ∈ s.run c, r.origin = .auto

theorem mem_resumableAuto {c : Fin 32} : c ∈ resumableAuto s ↔ AutoWaits s c := by
  simp only [resumableAuto, mem_sortBy, List.mem_filter, List.mem_finRange, true_and, Bool.and_eq_true, AutoWaits]
  cases s.run c <;> simp

theorem meets_resumeAutoAt {p : Pass} {c : Fin 32} (h : AutoWaits p.s c) :
    (Candidate.resumes .auto c).Meets p (resumeAutoAt p c) := by
  obtain ⟨free, r, run, origin⟩ := h
  unfold resumeAutoAt
  rw [Option.mem_def.1 run]
  refine Candidate.meets_if ?_ fun _ => attempt_congr rfl
  rw [tierServed_iff]
  constructor
  · exact fun served => ⟨free, r, run, origin, by rw [RunServed, origin]; exact served⟩
  · rintro ⟨-, x, hx, -, served⟩
    rw [Option.mem_def, Option.mem_def.1 run] at hx
    obtain rfl := Option.some.inj hx
    rw [RunServed, origin] at served
    exact served

/-- What a candidate is taken up for leaves the other cannons waiting. -/
theorem Candidate.Meets.autoWaits {x : Candidate} {p q : Pass} (h : x.Meets p q) {c : Fin 32} (other : c ≠ x.cannon)
    (waits : AutoWaits p.s c) : AutoWaits q.s c := by
  rcases h with ⟨asks, rfl⟩ | ⟨-, rfl⟩
  · unfold Pass.attempt
    split
    · have taken := takenUp_admits x p.s asks
      obtain ⟨free, auto⟩ := waits
      exact ⟨by rw [taken.freeToResume (taken.cannon c other) (taken.run c other)]; exact free,
        by rw [taken.run c other]; exact auto⟩
    · exact waits
  · exact waits

theorem steps_resumeAutos (l : List (Fin 32)) (distinct : l.Nodup) (p : Pass) (waits : ∀ c ∈ l, AutoWaits p.s c) :
    Steps (l.map (.resumes .auto)) p (l.foldl resumeAutoAt p) := by
  induction l generalizing p with
  | nil => exact .nil p
  | cons c l ih =>
    obtain ⟨out, distinct⟩ := List.nodup_cons.1 distinct
    have met := meets_resumeAutoAt (waits c (List.mem_cons_self ..))
    exact .cons met (ih distinct _ fun d hd => met.autoWaits (by rintro rfl; exact out hd) (waits d (List.mem_cons_of_mem _ hd)))

theorem nodup_resumableAuto (s : State) : (resumableAuto s).Nodup :=
  (List.pairwise_map.1 (pairwise_resumableAuto s)).imp fun {c d} less => by
    rintro rfl
    exact lt_irrefl (α := List Int) _ less

/-! ## Step 3 -/

theorem mem_demandingPiles {i : Fin 24} : i ∈ demandingPiles s ↔ 0 < (s.demand i).volume := by
  simp [demandingPiles, mem_sortBy]

theorem steps_grantAutoAt {i : Fin 24} {p : Pass} {c : Fin 32} (ground : Ground s p.s)
    (served : s.mau.mode = .auto ∧ (s.pile i).hold = false ∧ ServesTier s (s.demand i).tier) :
    Steps (if (s.cannon c).config.pile = i then [.enters .auto c] else []) p (grantAutoAt i p c) := by
  have pile : (p.s.cannon c).config.pile = (s.cannon c).config.pile := by rw [ground.config]
  unfold grantAutoAt
  simp only
  split
  · rename_i aimed
    subst aimed
    refine .one (Candidate.meets_if ?_ fun _ => ?_)
    · have allowed : OriginServed p.s .auto c := (ground.originServed .auto c).2 served
      simp only [Candidate.asks, allowed, EnoughFor, volumeFor, pile, Bool.and_eq_true, decide_eq_true_eq, true_and,
        and_true]
      exact and_comm
    · refine attempt_congr ?_
      simp only [Candidate.admits, volumeFor, pile, tierOf]
  · rename_i other
    rw [if_neg (by simp [pile, other])]
    exact .nil p

theorem steps_servePile {i : Fin 24} {p : Pass} (ground : Ground s p.s) (auto : s.mau.mode = .auto) :
    Steps (pileCandidates s i) p (servePile p i) := by
  have test : ((p.s.pile i).hold || !tierServed (waterState p.s) (p.s.demand i).tier) = false ↔
      (s.pile i).hold = false ∧ ServesTier s (s.demand i).tier := by
    rw [← tierServed_iff, ground.pile, ground.water, ground.tier]
    simp
  have aimed : pileCandidates s i = (List.finRange 32).flatMap fun c =>
      if (s.cannon c).config.pile = i then [.enters .auto c] else [] := by
    unfold pileCandidates
    induction List.finRange 32 with
    | nil => rfl
    | cons c l ih => by_cases own : (s.cannon c).config.pile = i <;> simp_all
  unfold servePile
  split
  · rename_i shut
    refine Steps.passed _ fun x hx asks => ?_
    obtain ⟨c, rfl, rfl⟩ := mem_pileCandidates.1 hx
    obtain ⟨-, held, tier⟩ := (ground.originServed .auto c).1 asks.2.1
    rw [test.2 ⟨held, tier⟩] at shut
    cases shut
  · rename_i opened
    have served := test.1 (Bool.eq_false_of_not_eq_true opened)
    rw [aimed]
    exact (Steps.foldl (pass := id) (I := fun q : Pass => Ground s q.s) (List.finRange 32) (fun q c _ ground =>
      have met := steps_grantAutoAt (c := c) ground ⟨auto, served⟩
      ⟨met, ground.trans met.ground⟩) ground).1

theorem steps_piles {p : Pass} (l : List (Fin 24)) (ground : Ground s p.s) (auto : s.mau.mode = .auto) :
    Steps (l.flatMap (pileCandidates s)) p (l.foldl servePile p) :=
  (Steps.foldl (pass := id) (I := fun q : Pass => Ground s q.s) l (fun _ _ _ ground =>
    have served := steps_servePile ground auto
    ⟨served, ground.trans served.ground⟩) ground).1

end

end Sys2Proof.Machine
end

