-- ==== Sys2Proof/Proofs/PassReached.lean ====
section
/-! SUPPORT. What a pass has done when it has come through some of its candidates (R119, R124 to R126). -/

namespace Sys2Proof.Machine

/-- Runs of order slot k (R125). -/
def orderOf (k : Nat) (r : Run) : Bool := r.origin = .order k

/-- Runs that draw on the same volume as a new run of the origin on the cannon (R125, R126). -/
def drawsOn (s : State) (o : Origin) (c : Fin 32) : Run → Bool :=
  match o with
  | .order k => orderOf k
  | .auto => autoOf (s.cannon c).config.pile
  | .detached => fun _ => false

/-- The flow of the cannons that a pass from s to t took. -/
def flowTaken (s t : State) : Nat :=
  ((List.finRange 32).map fun x => if (turnTaken s t x).isSome then (s.cannon x).config.flow else 0).sum

/-- The target, among the runs that pass the test, of the new run of the candidate. -/
def Candidate.gained (t : State) (test : Run → Bool) : Candidate → Nat
  | .resumes _ _ => 0
  | .enters o c => if test (enteredRun t o (volumeFor t o c) c) then (enteredRun t o (volumeFor t o c) c).target else 0

/-- A pass from s has come through the candidates done, and to t. -/
structure Reached (s : State) (done : List Candidate) (t : State) : Prop extends Ground s t where
  wiu : t.wiu = s.wiu
  stays : ∀ c, ∀ r ∈ s.run c, t.run c = some r ∨
    (freeToResume s c = true ∧ RunServed s r ∧ t.run c = some r.resumed)
  entered : ∀ c, s.run c = none → ∀ r ∈ t.run c, .enters r.origin c ∈ done ∧ eligible s c = true ∧
    OriginServed s r.origin c ∧ EnoughFor s r.origin (leftAtTurn s t r c) ∧
    r = enteredRun s r.origin (leftAtTurn s t r c) c
  demands : ∀ p, (t.demand p).volume = (s.demand p).volume - newTargets s t (autoOf p) fun _ => true
  owed : ∀ k o, undelivered t k o = undelivered s k o - newTargets s t (orderOf k) fun _ => true
  opened : ∀ c, if turnTaken s t c = none then t.cannon c = s.cannon c
    else (t.cannon c).phase = .pendingOpen ∨ (t.cannon c).phase = .opening
  reserved : reservedFlow t = reservedFlow s + flowTaken s t
  taken : ∀ c, ∀ u ∈ turnTaken s t c, (∃ x ∈ done, x.turn s = u) ∧
    reservedFlow s + flowTakenBefore s t u + (s.cannon c).config.flow ≤ capacity s
  waiting : ∀ x ∈ done, x.asks t →
    capacity s < reservedFlow s + flowTakenBefore s t (x.turn s) + (s.cannon x.cannon).config.flow

theorem leftAtTurn_eq {s t : State} {r : Run} {c : Fin 32} (pile : r.pile = (s.cannon c).config.pile) :
    leftAtTurn s t r c = volumeFor s r.origin c - newTargets s t (drawsOn s r.origin c) fun x => decide (x < c) := by
  unfold leftAtTurn volumeFor drawsOn
  cases r.origin with
  | order k => rfl
  | auto =>
    simp only [pile]
    rfl
  | detached => simp

/-! ## Turns taken and targets -/

section
variable {s t u : State} {c : Fin 32}

theorem turnTaken_congr (run : u.run c = t.run c) : turnTaken s u c = turnTaken s t c := by
  rw [turnTaken, run, turnTaken]

theorem turnTaken_self (s : State) (c : Fin 32) : turnTaken s s c = none := by
  unfold turnTaken
  cases s.run c <;> simp

theorem turnTaken_resumed {r : Run} (waits : s.run c = some r) (suspended : r.isSuspended = true)
    (resumed : t.run c = some r.resumed) : turnTaken s t c = some (runTurn s r c) := by
  have moves : r.resumed.isSuspended = false := rfl
  rw [turnTaken, waits, resumed]
  simp [suspended, moves]

theorem turnTaken_entered {o : Origin} {r : Run} (free : s.run c = none) (run : t.run c = some r) (origin : r.origin = o) :
    turnTaken s t c = some ((Candidate.enters o c).turn s) := by
  rw [turnTaken, free, run]
  simp only [origin]
  cases o <;> rfl

theorem turnTaken_stays {r : Run} (run : s.run c = some r) (same : t.run c = some r) : turnTaken s t c = none := by
  rw [turnTaken, run, same]
  simp

/-- The new run's target on one cannon, where the cannon passes. -/
def targetAt (s t : State) (test : Run → Bool) (on : Fin 32 → Bool) (x : Fin 32) : Nat :=
  match s.run x, t.run x with
  | none, some r => if test r && on x then r.target else 0
  | _, _ => 0

theorem newTargets_eq (test : Run → Bool) (on : Fin 32 → Bool) :
    newTargets s t test on = ((List.finRange 32).map (targetAt s t test on)).sum := rfl

theorem newTargets_self (s : State) (test : Run → Bool) (on : Fin 32 → Bool) : newTargets s s test on = 0 := by
  have none : targetAt s s test on = fun _ => 0 := funext fun x => by
    unfold targetAt
    cases s.run x <;> rfl
  simp [newTargets_eq, none]

theorem newTargets_congr {test : Run → Bool} {on off : Fin 32 → Bool}
    (h : ∀ x, s.run x = none → ∀ r ∈ t.run x, test r = true → on x = off x) :
    newTargets s t test on = newTargets s t test off := by
  rw [newTargets_eq, newTargets_eq]
  congr 2
  funext x
  unfold targetAt
  split
  · rename_i r free run
    cases passes : test r with
    | false => simp
    | true => rw [h x free r run passes]
  · rfl

theorem targetAt_of_run {x : Fin 32} (run : u.run x = t.run x) (test : Run → Bool) (on : Fin 32 → Bool) :
    targetAt s u test on x = targetAt s t test on x := by
  rw [targetAt, run, targetAt]

theorem flowTakenBefore_congr (h : ∀ x, turnTaken s u x = turnTaken s t x) (v : List Int) :
    flowTakenBefore s u v = flowTakenBefore s t v := by
  simp only [flowTakenBefore, h]

theorem flowTakenBefore_le (s t : State) (v : List Int) : flowTakenBefore s t v ≤ flowTaken s t := by
  unfold flowTakenBefore flowTaken
  refine List.sum_le_sum fun x _ => ?_
  cases turnTaken s t x with
  | none => simp
  | some w =>
    simp only [Option.isSome_some, if_true]
    split <;> omega

end

/-! ## Standing still -/

section
variable {s t : State} {done : List Candidate}

theorem Reached.start (s : State) : Reached s [] s where
  toGround := .refl s
  wiu := rfl
  stays _ _ hr := .inl hr
  entered c free r hr := by rw [free] at hr; cases hr
  demands p := by rw [newTargets_self, Nat.sub_zero]
  owed k o := by rw [newTargets_self, Nat.sub_zero]
  opened c := by rw [if_pos (turnTaken_self s c)]
  reserved := by
    have : flowTaken s s = 0 := by simp [flowTaken, turnTaken_self]
    omega
  taken c u hu := by rw [turnTaken_self] at hu; cases hu
  waiting x hx := by cases hx

section
variable (h : Reached s done t)
include h

/-- A cannon that was not taken is as it was, and its run. -/
theorem Reached.same {c : Fin 32} (none : turnTaken s t c = none) : t.cannon c = s.cannon c ∧ t.run c = s.run c := by
  have cannon := h.opened c
  rw [if_pos none] at cannon
  refine ⟨cannon, ?_⟩
  cases run : s.run c with
  | none =>
    cases after : t.run c with
    | none => rfl
    | some x => rw [turnTaken_entered run after rfl] at none; cases none
  | some r =>
    rcases h.stays c r run with same | ⟨free, -, resumed⟩
    · exact same
    · have suspended : r.isSuspended = true := by
        simp only [freeToResume, run, Bool.and_eq_true] at free
        exact free.2
      rw [turnTaken_resumed run suspended resumed] at none
      cases none

/-- A cannon that is free to resume its run has not been taken. -/
theorem Reached.untaken_of_free {c : Fin 32} (free : freeToResume t c = true) : turnTaken s t c = none := by
  cases run : s.run c with
  | none =>
    cases after : t.run c with
    | none => simp [freeToResume, after] at free
    | some x =>
      obtain ⟨-, -, -, -, entered⟩ := h.entered c run x after
      rw [freeToResume, after, entered] at free
      simp [enteredRun, entering, Run.isSuspended] at free
  | some r =>
    rcases h.stays c r run with same | ⟨-, -, resumed⟩
    · exact turnTaken_stays run same
    · simp [freeToResume, resumed, Run.resumed, Run.isSuspended] at free

/-- A cannon that the pass would still take up has not been taken. -/
theorem Reached.untaken {x : Candidate} (asks : x.asks t) : turnTaken s t x.cannon = none := by
  cases x with
  | resumes o c => exact h.untaken_of_free asks.1
  | enters o c =>
    have after := run_of_eligible asks.1
    cases run : s.run c with
    | none =>
      show turnTaken s t c = none
      rw [turnTaken, run, after]
    | some r =>
      rcases h.stays c r run with same | ⟨-, -, resumed⟩
      · rw [after] at same; cases same
      · rw [after] at resumed; cases resumed

theorem Reached.volumeFor (o : Origin) (c : Fin 32) :
    volumeFor t o c = volumeFor s o c - newTargets s t (drawsOn s o c) fun _ => true := by
  unfold Machine.volumeFor drawsOn
  cases o with
  | order k =>
    simp only [h.order]
    cases s.order k with
    | none => simp
    | some x => exact h.owed k x
  | auto =>
    simp only [h.config]
    exact h.demands _
  | detached => simp

/-- A new run that draws on the candidate's volume was taken up at a sooner turn, and has the lower cannon (R125, R126). -/
theorem Reached.lower {o : Origin} {c x : Fin 32} {r : Run} (sooner : ∀ y ∈ done, y.turn s < (Candidate.enters o c).turn s)
    (free : s.run x = none) (run : t.run x = some r) (draws : drawsOn s o c r = true) : x < c := by
  obtain ⟨-, -, -, -, entered⟩ := h.entered x free r run
  have pile : r.pile = (s.cannon x).config.pile := by rw [entered]; rfl
  obtain ⟨⟨y, hy, turn⟩, -⟩ := h.taken x _ (turnTaken_entered free run rfl)
  have less := sooner y hy
  rw [turn] at less
  cases o with
  | order k =>
    have origin : r.origin = .order k := of_decide_eq_true draws
    rw [origin] at less
    simpa [Candidate.turn, orderTurn, List.cons_lt_cons_iff] using less
  | auto =>
    have auto : r.origin = .auto ∧ r.pile = (s.cannon c).config.pile := by
      simpa [drawsOn, autoOf] using draws
    rw [auto.1] at less
    simpa [Candidate.turn, pileTurn, ← pile, auto.2, List.cons_lt_cons_iff] using less
  | detached => simp [drawsOn] at draws

end

end

end Sys2Proof.Machine
end

