-- ==== Sys2Proof/Proofs/PassAdvance.lean ====
section
/-! SUPPORT. A pass comes through one candidate more: what it takes up adds to the turns, the targets and the reserved
flow, and leaves what sooner turns have settled (R119, R125, R126). -/

namespace Sys2Proof.Machine

section
variable {s t : State} {done : List Candidate} {x : Candidate}

/-! ## The candidate's own turn -/

theorem autoOf_enteredRun (s : State) (o : Origin) (left : Nat) (c : Fin 32) (p : Fin 24) :
    autoOf p (enteredRun s o left c) = (decide (o = .auto) && decide ((s.cannon c).config.pile = p)) := rfl

theorem orderOf_enteredRun (s : State) (o : Origin) (left : Nat) (c : Fin 32) (k : Nat) :
    orderOf k (enteredRun s o left c) = decide (o = .order k) := rfl

theorem suspended_of_free {r : Run} {c : Fin 32} (free : freeToResume t c = true) (run : t.run c = some r) :
    r.isSuspended = true := by
  simp only [freeToResume, run, Bool.and_eq_true] at free
  exact free.2

theorem ready_of_asks (asks : x.asks t) : (t.cannon x.cannon).Ready := by
  cases x with
  | resumes o c => exact ready_of_couldSpray (couldSpray_of_freeToResume asks.1)
  | enters o c =>
    refine ready_of_couldSpray ?_
    have can := asks.1
    simp only [eligible, Bool.and_eq_true] at can
    exact can.1

/-- Nothing asks for a cannon that has been taken up. -/
theorem not_asks_of_taken {y : Candidate} {c : Fin 32} (own : y.cannon = c)
    (waits : (t.cannon c).phase = .pendingOpen ∨ (t.cannon c).phase = .opening) : ¬ y.asks t := fun asks => by
  subst own
  obtain ⟨phase, -⟩ := ready_of_asks asks
  rcases waits with h | h <;> rw [h] at phase <;> cases phase

section
variable (h : Reached s done t) (asks : x.asks t)
include h asks

theorem Reached.turnTaken_admits : turnTaken s (x.admits t) x.cannon = some (x.turn s) := by
  have same := (h.same (h.untaken asks)).2
  cases x with
  | resumes o c =>
    obtain ⟨free, r, run, origin, -⟩ := asks
    have before : s.run c = some r := same ▸ run
    have suspended := suspended_of_free free run
    have after : ((Candidate.resumes o c).admits t).run c = some r.resumed := by rw [resumes_run, Option.mem_def.1 run]; rfl
    rw [Candidate.cannon, turnTaken_resumed before suspended after]
    subst origin
    unfold runTurn Candidate.turn
    cases r.origin <;> simp [before]
  | enters o c =>
    have free : s.run c = none := same ▸ run_of_eligible asks.1
    exact turnTaken_entered free (enters_run asks) rfl

omit h in
theorem turnTaken_admits_other {c : Fin 32} (other : c ≠ x.cannon) : turnTaken s (x.admits t) c = turnTaken s t c :=
  turnTaken_congr ((takenUp_admits x t asks).run c other)

theorem Reached.flowTaken_admits : flowTaken s (x.admits t) = flowTaken s t + (s.cannon x.cannon).config.flow := by
  unfold flowTaken
  refine sum_finRange_add (i := x.cannon) ?_ fun c other => ?_
  · simp [h.turnTaken_admits asks, h.untaken asks]
  · rw [turnTaken_admits_other asks other]

theorem Reached.reservedFlow_admits : reservedFlow (x.admits t) = reservedFlow t + (s.cannon x.cannon).config.flow := by
  have taken := takenUp_admits x t asks
  have ready := (ready_of_asks asks).1
  unfold reservedFlow
  refine sum_finRange_add (i := x.cannon) ?_ fun c other => ?_
  · rw [ready, taken.config, h.config]
    rcases taken.waits with waits | waits <;> simp [waits, CannonPhase.reserves]
  · rw [taken.cannon c other]

/-- The flow taken before a turn no later than the candidate's is what it was. -/
theorem Reached.flowTakenBefore_admits {u : List Int} (later : ¬ x.turn s < u) :
    flowTakenBefore s (x.admits t) u = flowTakenBefore s t u := by
  unfold flowTakenBefore
  congr 2
  funext c
  by_cases own : c = x.cannon
  · subst own
    simp [h.turnTaken_admits asks, h.untaken asks, later]
  · rw [turnTaken_admits_other asks own]

omit asks in
/-- All that was taken was taken at turns before the candidate's. -/
theorem Reached.flowTakenBefore_last (sooner : ∀ y ∈ done, y.turn s < x.turn s) :
    flowTakenBefore s t (x.turn s) = flowTaken s t := by
  unfold flowTakenBefore flowTaken
  congr 2
  funext c
  cases turn : turnTaken s t c with
  | none => rfl
  | some u =>
    obtain ⟨⟨y, hy, rfl⟩, -⟩ := h.taken c u turn
    simp [sooner y hy]

/-! ## Targets -/

theorem Reached.newTargets_admits (test : Run → Bool) (on : Fin 32 → Bool) : newTargets s (x.admits t) test on =
    newTargets s t test on + if on x.cannon then x.gained t test else 0 := by
  rw [newTargets_eq, newTargets_eq]
  refine sum_finRange_add (i := x.cannon) ?_ fun c other =>
    targetAt_of_run ((takenUp_admits x t asks).run c other) test on
  have same := (h.same (h.untaken asks)).2
  cases x with
  | resumes o c =>
    obtain ⟨-, r, run, -⟩ := asks
    have before : s.run c = some r := same ▸ run
    have none : ∀ u, targetAt s u test on c = 0 := fun u => by rw [targetAt, before]
    rw [Candidate.cannon, none, none, Candidate.gained, ite_self]
  | enters o c =>
    have after := run_of_eligible asks.1
    have free : s.run c = none := same ▸ after
    have none : targetAt s t test on c = 0 := by rw [targetAt, free, after]
    rw [Candidate.cannon, none, zero_add, targetAt, free, enters_run asks]
    simp only [Candidate.gained, Bool.and_eq_true, ← ite_and, and_comm (a := on c = true)]

omit h in
theorem admits_demand (p : Fin 24) : ((x.admits t).demand p).volume = (t.demand p).volume - x.gained t (autoOf p) := by
  cases x with
  | resumes o c => rw [resumes_demand]; rfl
  | enters o c =>
    rw [enters_demand]
    simp only [Candidate.gained, autoOf_enteredRun, Bool.and_eq_true, decide_eq_true_eq]
    rfl

omit h in
theorem admits_undelivered (k : Nat) (o : Order) :
    undelivered (x.admits t) k o = undelivered t k o - x.gained t (orderOf k) := by
  have taken := takenUp_admits x t asks
  suffices total : outstandingOf (x.admits t) (orderOf k) = outstandingOf t (orderOf k) + x.gained t (orderOf k) by
    show o.volume - o.delivered - outstandingOf (x.admits t) (orderOf k) = o.volume - o.delivered - outstandingOf t (orderOf k) - _
    rw [total, Nat.sub_add_eq]
  cases x with
  | resumes o c =>
    obtain ⟨free, r, run, -⟩ := asks
    have suspended := suspended_of_free free run
    rw [Candidate.gained, add_zero]
    refine outstandingOf_congr fun c' => ?_
    by_cases own : c' = c
    · subst own
      unfold outstandingAt
      rw [resumes_run, Option.mem_def.1 run]
      simp only [Option.map_some, resumed_outstanding (unending_of_suspended suspended)]
      rfl
    · exact outstandingAt_of_run (taken.run c' own) _
  | enters o c =>
    rw [outstandingOf_enter (run_of_eligible asks.1) (enters_run asks) taken.run]
    rfl

theorem Reached.demands_admits (p : Fin 24) : ((x.admits t).demand p).volume =
    (s.demand p).volume - newTargets s (x.admits t) (autoOf p) fun _ => true := by
  rw [admits_demand asks, h.demands, h.newTargets_admits asks, Nat.sub_add_eq, if_pos rfl]

theorem Reached.owed_admits (k : Nat) (o : Order) : undelivered (x.admits t) k o =
    undelivered s k o - newTargets s (x.admits t) (orderOf k) fun _ => true := by
  rw [admits_undelivered asks, h.owed, h.newTargets_admits asks, Nat.sub_add_eq, if_pos rfl]

omit h in
theorem volumeFor_admits_le (o : Origin) (c : Fin 32) : volumeFor (x.admits t) o c ≤ volumeFor t o c := by
  have ground := (takenUp_admits x t asks).toGround
  unfold volumeFor
  cases o with
  | order k =>
    simp only [ground.order]
    cases t.order k with
    | none => simp only [Option.map_none, Option.getD_none, le_refl]
    | some o =>
      rw [Option.map_some, Option.map_some, Option.getD_some, Option.getD_some, admits_undelivered asks]
      exact Nat.sub_le _ _
  | auto =>
    simp only [ground.config, admits_demand asks]
    exact Nat.sub_le _ _
  | detached => exact le_rfl

/-! ## Who still asks -/

omit h in
/-- What still asks after the candidate was taken up asked before. -/
theorem asks_of_admits {y : Candidate} (k : y.asks (x.admits t)) : y.asks t := by
  have taken := takenUp_admits x t asks
  have other : y.cannon ≠ x.cannon := fun own => not_asks_of_taken own taken.waits k
  cases y with
  | resumes o c =>
    obtain ⟨free, r, run, origin, served⟩ := k
    have same := taken.run c other
    exact ⟨(taken.freeToResume (taken.cannon c other) same).symm.trans free, r, same ▸ run, origin, (taken.runServed r).1 served⟩
  | enters o c =>
    obtain ⟨can, served, enough⟩ := k
    exact ⟨(taken.eligible (taken.cannon c other) (taken.run c other)).symm.trans can, (taken.originServed o c).1 served,
      ((taken.enoughFor o _).1 enough).mono (volumeFor_admits_le asks o c)⟩

/-! ## The new run -/

/-- A run that was entered before keeps what was left at its turn. -/
theorem Reached.leftAtTurn_admits (sooner : ∀ y ∈ done, y.turn s < x.turn s) {c : Fin 32} {r : Run} (free : s.run c = none)
    (run : t.run c = some r) : leftAtTurn s (x.admits t) r c = leftAtTurn s t r c := by
  obtain ⟨-, -, -, -, entered⟩ := h.entered c free r run
  have pile : r.pile = (s.cannon c).config.pile := by rw [entered]; rfl
  rw [leftAtTurn_eq pile, leftAtTurn_eq pile, h.newTargets_admits asks]
  split
  · rename_i before
    cases x with
    | resumes o d => rw [Candidate.gained, add_zero]
    | enters o d =>
      suffices apart : drawsOn s r.origin c (enteredRun t o (Machine.volumeFor t o d) d) = false by
        rw [Candidate.gained, apart, if_neg Bool.false_ne_true, add_zero]
      refine Bool.eq_false_of_not_eq_true fun draws => ?_
      have shares : drawsOn s o d r = true := by
        unfold drawsOn at draws ⊢
        cases origin : r.origin with
        | order k =>
          rw [origin] at draws
          have same : o = .order k := of_decide_eq_true draws
          simp [same, orderOf, origin]
        | auto =>
          rw [origin] at draws
          have same : o = .auto ∧ (t.cannon d).config.pile = (s.cannon c).config.pile := by
            simpa only [autoOf_enteredRun, Bool.and_eq_true, decide_eq_true_eq] using draws
          simp [same.1, autoOf, origin, pile, ← same.2, h.config]
        | detached =>
          rw [origin] at draws
          cases draws
      have lower := h.lower sooner free run shares
      exact absurd (of_decide_eq_true before) (not_lt_of_gt lower)
  · rw [add_zero]

/-- What is left when the candidate's turn comes is what is left in the end for the cannon. -/
theorem Reached.leftAtTurn_own {o : Origin} {c : Fin 32} (own : x = .enters o c)
    (sooner : ∀ y ∈ done, y.turn s < x.turn s) {r : Run} (pile : r.pile = (s.cannon c).config.pile) (origin : r.origin = o) :
    leftAtTurn s (x.admits t) r c = Machine.volumeFor t o c := by
  subst own
  have counted : newTargets s t (drawsOn s o c) (fun d => decide (d < c)) = newTargets s t (drawsOn s o c) fun _ => true :=
    newTargets_congr fun d free q run draws => decide_eq_true (h.lower sooner free run draws)
  have own : newTargets s ((Candidate.enters o c).admits t) (drawsOn s o c) (fun d => decide (d < c)) =
      newTargets s t (drawsOn s o c) fun d => decide (d < c) := by
    rw [h.newTargets_admits asks, Candidate.cannon, decide_eq_false (lt_irrefl c), if_neg Bool.false_ne_true, add_zero]
  rw [leftAtTurn_eq pile, origin, own, counted, ← h.volumeFor]

omit asks in
theorem Reached.enteredRun_congr (o : Origin) (left : Nat) (c : Fin 32) : enteredRun t o left c = enteredRun s o left c := by
  unfold enteredRun entering tierOf
  rw [h.config, h.longestRun]
  cases o <;> simp [h.tier]

end

/-! ## One more -/

section
variable (h : Reached s done t) (sooner : ∀ y ∈ done, y.turn s < x.turn s)
include h sooner

omit sooner in
/-- A candidate that is not taken up. -/
theorem Reached.left (waits : x.asks t →
    capacity s < reservedFlow s + flowTakenBefore s t (x.turn s) + (s.cannon x.cannon).config.flow) :
    Reached s (done ++ [x]) t :=
  { h with
    entered := fun c free r run => (h.entered c free r run).imp_left (List.mem_append_left _)
    taken := fun c u hu => by
      obtain ⟨⟨y, hy, turn⟩, fits⟩ := h.taken c u hu
      exact ⟨⟨y, List.mem_append_left _ hy, turn⟩, fits⟩
    waiting := fun y hy asks => by
      rcases List.mem_append.1 hy with old | new
      · exact h.waiting y old asks
      · obtain rfl := List.mem_singleton.1 new
        exact waits asks }

theorem Reached.skipped (short : capacity s < reservedFlow t + (s.cannon x.cannon).config.flow) :
    Reached s (done ++ [x]) t := h.left fun _ => by
  rw [h.flowTakenBefore_last sooner, ← h.reserved]
  exact short

theorem Reached.admitted (asks : x.asks t) (fits : reservedFlow t + (s.cannon x.cannon).config.flow ≤ capacity s) :
    Reached s (done ++ [x]) (x.admits t) := by
  have taken := takenUp_admits x t asks
  have same := h.same (h.untaken asks)
  have own := h.turnTaken_admits asks
  exact {
    toGround := h.toGround.trans taken.toGround
    wiu := taken.wiu.trans h.wiu
    stays := fun c r hr => by
      by_cases mine : c = x.cannon
      · subst mine
        cases x with
        | resumes o c =>
          obtain ⟨free, q, run, origin, served⟩ := asks
          rw [Candidate.cannon] at same hr
          rw [same.2, hr] at run
          obtain rfl := Option.some.inj run
          refine .inr ⟨(h.freeToResume same.1 same.2).symm.trans free, (h.runServed _).1 served, ?_⟩
          rw [Candidate.cannon, resumes_run, same.2, Option.mem_def.1 hr]
          rfl
        | enters o c =>
          have none := run_of_eligible asks.1
          rw [Candidate.cannon] at same hr
          rw [same.2, hr] at none
          cases none
      · rw [taken.run c mine]
        exact h.stays c r hr
    entered := fun c free r hr => by
      by_cases mine : c = x.cannon
      · subst mine
        cases x with
        | resumes o c =>
          obtain ⟨-, q, run, -⟩ := asks
          rw [Candidate.cannon] at same free
          rw [same.2, free] at run
          cases run
        | enters o c =>
          have run := enters_run asks
          rw [Candidate.cannon] at same hr
          rw [Option.mem_def, run] at hr
          obtain rfl := Option.some.inj hr
          obtain ⟨can, served, enough⟩ := id asks
          have left := h.leftAtTurn_own asks rfl sooner (r := enteredRun t o (Machine.volumeFor t o c) c)
            (by rw [h.enteredRun_congr]; rfl) rfl
          rw [Candidate.cannon, left]
          exact ⟨List.mem_append_right _ (List.mem_singleton_self _), (h.eligible same.1 same.2).symm.trans can, (h.originServed o c).1 served, (h.enoughFor o _).1 enough,
            h.enteredRun_congr o _ c⟩
      · rw [Option.mem_def, taken.run c mine] at hr
        rw [h.leftAtTurn_admits asks sooner free hr]
        exact (h.entered c free r hr).imp_left (List.mem_append_left _)
    demands := h.demands_admits asks
    owed := h.owed_admits asks
    opened := fun c => by
      by_cases mine : c = x.cannon
      · subst mine
        rw [if_neg (by rw [own]; simp)]
        exact taken.waits
      · rw [turnTaken_admits_other asks mine, taken.cannon c mine]
        exact h.opened c
    reserved := by
      rw [h.reservedFlow_admits asks, h.flowTaken_admits asks, h.reserved, Nat.add_assoc]
    taken := fun c u hu => by
      by_cases mine : c = x.cannon
      · subst mine
        rw [own] at hu
        obtain rfl := Option.some.inj hu
        refine ⟨⟨x, by simp, rfl⟩, ?_⟩
        rw [h.flowTakenBefore_admits asks (lt_irrefl (α := List Int) _), h.flowTakenBefore_last sooner, ← h.reserved]
        exact fits
      · rw [turnTaken_admits_other asks mine] at hu
        obtain ⟨⟨y, hy, turn⟩, old⟩ := h.taken c u hu
        refine ⟨⟨y, List.mem_append_left _ hy, turn⟩, ?_⟩
        rw [h.flowTakenBefore_admits asks (turn ▸ lt_asymm (sooner y hy))]
        exact old
    waiting := fun y hy waits => by
      rcases List.mem_append.1 hy with old | new
      · rw [h.flowTakenBefore_admits asks (lt_asymm (sooner y old))]
        exact h.waiting y old (asks_of_admits asks waits)
      · rw [List.mem_singleton.1 new] at waits
        exact absurd waits (not_asks_of_taken rfl taken.waits) }

end

end

end Sys2Proof.Machine
end

