-- ==== Sys2Proof/Proofs/PassMade.lean ====
section
/-! SUPPORT. The grant pass goes by R119 and R124 to R126: what its steps have taken up when they are through, and
what still waits. -/

namespace Sys2Proof.Machine

/-- A pass from s has come through the candidates done. -/
structure PassAt (s : State) (done : List Candidate) (p : Pass) : Prop where
  reached : Reached s done p.s
  granted : p.granted = true ↔ ∃ c, turnTaken s p.s c ≠ none
  untouched : p.granted = false → p.s = s ∧ (p.skipped = true ↔ ∃ x ∈ done, x.asks s)

theorem capacity_congr {s t : State} (site : t.site = s.site) (wiu : t.wiu = s.wiu) : capacity t = capacity s := by
  have rate : sourceRate t = sourceRate s := funext fun src => by
    cases src <;> simp only [sourceRate, State.pond, site, wiu]
  rw [capacity, wiu, rate]
  rfl

section
variable {s : State} {done : List Candidate}

theorem PassAt.start (s : State) : PassAt s [] ⟨s, false, false⟩ where
  reached := .start s
  granted := by simp [turnTaken_self]
  untouched _ := ⟨rfl, by simp⟩

theorem Reached.flowFits {t : State} (h : Reached s done t) (c : Fin 32) :
    flowFits t c = true ↔ reservedFlow t + (s.cannon c).config.flow ≤ capacity s := by
  rw [Machine.flowFits, decide_eq_true_eq, h.config, capacity_congr h.site h.wiu]

theorem PassAt.meets {p q : Pass} {x : Candidate} (h : PassAt s done p) (met : x.Meets p q)
    (sooner : ∀ y ∈ done, y.turn s < x.turn s) : PassAt s (done ++ [x]) q := by
  have one : (∃ y ∈ done ++ [x], y.asks s) ↔ (∃ y ∈ done, y.asks s) ∨ x.asks s := by
    simp only [List.mem_append, List.mem_singleton]
    exact ⟨fun ⟨y, mem, asks⟩ => mem.elim (fun old => .inl ⟨y, old, asks⟩) fun new => .inr (new ▸ asks),
      fun k => k.elim (fun ⟨y, old, asks⟩ => ⟨y, .inl old, asks⟩) fun asks => ⟨x, .inr rfl, asks⟩⟩
  rcases met with ⟨asks, rfl⟩ | ⟨asksNot, rfl⟩
  · unfold Pass.attempt
    split
    · rename_i fits
      exact ⟨h.reached.admitted sooner asks ((h.reached.flowFits _).1 fits),
        ⟨fun _ => ⟨x.cannon, by rw [h.reached.turnTaken_admits asks]; simp⟩, fun _ => rfl⟩, fun none => by cases none⟩
    · rename_i short
      refine ⟨h.reached.skipped sooner (Nat.lt_of_not_le fun fits => short ((h.reached.flowFits _).2 fits)), h.granted,
        fun none => ⟨(h.untouched none).1, ?_⟩⟩
      have same := (h.untouched none).1
      exact ⟨fun _ => one.2 (.inr (same ▸ asks)), fun _ => rfl⟩
  · refine ⟨h.reached.left fun asks => absurd asks asksNot, h.granted, fun none => ?_⟩
    obtain ⟨same, skipped⟩ := h.untouched none
    refine ⟨same, skipped.trans ?_⟩
    rw [one]
    rw [same] at asksNot
    exact ⟨.inl, fun k => k.resolve_right asksNot⟩

theorem PassAt.steps {l : List Candidate} {p q : Pass} (h : PassAt s done p) (steps : Steps l p q)
    (sorted : (done ++ l).Pairwise (Sooner s)) : PassAt s (done ++ l) q := by
  induction steps generalizing done with
  | nil p => simpa using h
  | @cons x l p q r met _ ih =>
    have sooner : ∀ y ∈ done, y.turn s < x.turn s := fun y hy =>
      (List.pairwise_append.1 sorted).2.2 y hy x (List.mem_cons_self ..)
    have split : done ++ x :: l = (done ++ [x]) ++ l := by simp
    rw [split] at sorted ⊢
    exact ih (h.meets met sooner) sorted

end

/-! ## The lists of the three steps -/

/-- The candidate is one that a pass from s goes through (R125, R126). -/
def Candidate.Listed (s : State) : Candidate → Prop
  | .resumes (.order k) _ => OpenWetAt s k
  | .resumes .auto c => AutoWaits s c
  | .resumes .detached _ => False
  | .enters (.order k) _ => OpenWetAt s k
  | .enters .auto c => s.mau.mode = .auto ∧ 0 < (s.demand (s.cannon c).config.pile).volume
  | .enters .detached _ => False

/-- The candidates of steps 1 and 2, where step 2 resumes the AUTO runs of the cannons listed. -/
def ordersAndResumptions (s : State) (l : List (Fin 32)) : List Candidate :=
  (openWetOrders s).flatMap orderCandidates ++ l.map (.resumes .auto)

section
variable {s : State}

theorem turn_of_orders {x : Candidate} (h : x ∈ (openWetOrders s).flatMap orderCandidates) :
    ∃ k b, x.turn s = orderTurn s k b x.cannon := by
  obtain ⟨k, -, mem⟩ := List.mem_flatMap.1 h
  exact ⟨k, turn_of_mem_orderCandidates mem⟩

theorem turn_of_resumptions {x : Candidate} {l : List (Fin 32)} (waits : ∀ c ∈ l, AutoWaits s c)
    (h : x ∈ l.map (.resumes .auto)) : ∃ r, x.turn s = resumeTurn r x.cannon := by
  obtain ⟨c, hc, rfl⟩ := List.mem_map.1 h
  obtain ⟨-, r, run, -⟩ := waits c hc
  exact ⟨r, by simp [Candidate.turn, Option.mem_def.1 run, Candidate.cannon]⟩

theorem turn_of_piles {x : Candidate} {l : List (Fin 24)} (h : x ∈ l.flatMap (pileCandidates s)) :
    x.turn s = pileTurn s x.cannon := by
  obtain ⟨i, -, mem⟩ := List.mem_flatMap.1 h
  obtain ⟨c, -, rfl⟩ := mem_pileCandidates.1 mem
  rfl

theorem orderTurn_lt_resumeTurn (s : State) (k : Nat) (b : Bool) (r : Run) (c d : Fin 32) :
    orderTurn s k b c < resumeTurn r d := by simp [orderTurn, resumeTurn, List.cons_lt_cons_iff]

theorem orderTurn_lt_pileTurn (s : State) (k : Nat) (b : Bool) (c d : Fin 32) : orderTurn s k b c < pileTurn s d := by
  simp [orderTurn, pileTurn, List.cons_lt_cons_iff]

theorem resumeTurn_lt_pileTurn (s : State) (r : Run) (c d : Fin 32) : resumeTurn r c < pileTurn s d := by
  simp [resumeTurn, pileTurn, List.cons_lt_cons_iff]

theorem sorted_ordersAndResumptions {l : List (Fin 32)} (waits : ∀ c ∈ l, AutoWaits s c)
    (sorted : (l.map (.resumes .auto)).Pairwise (Sooner s)) : (ordersAndResumptions s l).Pairwise (Sooner s) := by
  refine List.pairwise_append.2 ⟨pairwise_orders s, sorted, fun x hx y hy => ?_⟩
  obtain ⟨k, b, first⟩ := turn_of_orders hx
  obtain ⟨r, second⟩ := turn_of_resumptions waits hy
  rw [Sooner, first, second]
  exact orderTurn_lt_resumeTurn s k b r _ _

theorem lt_pileTurn_of_mem {l : List (Fin 32)} (waits : ∀ c ∈ l, AutoWaits s c) {x : Candidate}
    (hx : x ∈ ordersAndResumptions s l) (c : Fin 32) : x.turn s < pileTurn s c := by
  rcases List.mem_append.1 hx with order | resumption
  · obtain ⟨k, b, first⟩ := turn_of_orders order
    rw [first]
    exact orderTurn_lt_pileTurn s k b _ _
  · obtain ⟨r, first⟩ := turn_of_resumptions waits resumption
    rw [first]
    exact resumeTurn_lt_pileTurn s r _ _

/-- Step 1 touches no AUTO run (R125). -/
theorem autoWaits_afterOrders {t : State} (h : Reached s ((openWetOrders s).flatMap orderCandidates) t) (c : Fin 32) :
    (AutoWaits t c ↔ AutoWaits s c) ∧ (AutoWaits s c → t.run c = s.run c) := by
  have kept : AutoWaits s c → turnTaken s t c = none := fun ⟨free, r, run, origin⟩ => by
    rcases h.stays c r run with same | ⟨-, -, resumed⟩
    · exact turnTaken_stays run same
    · have turn := turnTaken_resumed run (suspended_of_free free run) resumed
      obtain ⟨⟨x, hx, first⟩, -⟩ := h.taken c _ turn
      obtain ⟨k, b, order⟩ := turn_of_orders hx
      rw [runTurn, origin, order] at first
      exact absurd first (ne_of_lt (orderTurn_lt_resumeTurn s k b r _ _))
  have both : turnTaken s t c = none → (AutoWaits t c ↔ AutoWaits s c) := fun none => by
    obtain ⟨cannon, run⟩ := h.same none
    rw [AutoWaits, AutoWaits, h.freeToResume cannon run, run]
  exact ⟨⟨fun waits => (both (h.untaken_of_free waits.1)).1 waits, fun waits => (both (kept waits)).2 waits⟩,
    fun waits => (h.same (kept waits)).2⟩

/-- Steps 1 and 2 leave the open demands (R126). -/
theorem demand_afterResumptions {t : State} {done : List Candidate} (h : Reached s done t)
    (early : ∀ x ∈ done, ∀ c, x.turn s < pileTurn s c) (p : Fin 24) : t.demand p = s.demand p := by
  have none : newTargets s t (autoOf p) (fun _ => true) = newTargets s t (autoOf p) fun _ => false :=
    newTargets_congr fun c free r run auto => by
      have origin : r.origin = .auto := by
        simp only [autoOf, Bool.and_eq_true, decide_eq_true_eq] at auto
        exact auto.1
      obtain ⟨⟨x, hx, turn⟩, -⟩ := h.taken c _ (turnTaken_entered free run origin)
      exact absurd turn (ne_of_lt (early x hx c))
  have zero : newTargets s t (autoOf p) (fun _ => false) = 0 := by
    have nothing : targetAt s t (autoOf p) (fun _ => false) = fun _ => 0 := funext fun x => by
      unfold targetAt
      split <;> simp
    rw [newTargets_eq, nothing]
    simp
  have volume := h.demands p
  rw [none, zero, Nat.sub_zero] at volume
  have tier := h.tier p
  cases after : t.demand p
  cases before : s.demand p
  simp_all

theorem demandingPiles_congr {t : State} (h : ∀ p, t.demand p = s.demand p) : demandingPiles t = demandingPiles s := by
  simp only [demandingPiles, h]

end

end Sys2Proof.Machine
end

