-- ==== Sys2Proof/Proofs/PassTaken.lean ====
section
/-! SUPPORT. The steps of a grant pass make a pass by R119 and R124 to R126, and skip a candidate that still waits. -/

namespace Sys2Proof.Machine

section
variable {s t : State}

theorem passSteps_eq (s : State) : ∃ p q, p = (openWetOrders s).foldl serveOrder ⟨s, false, false⟩ ∧
    q = (resumableAuto p.s).foldl resumeAutoAt p ∧
    passSteps s = if s.mau.mode = .auto then (demandingPiles q.s).foldl servePile q else q :=
  ⟨_, _, rfl, rfl, rfl⟩

/-- Step 2 resumes the AUTO runs that wait at the start, in the order of their turns then (R126). -/
theorem sorted_resumptions {p : Pass} (first : PassAt s ((openWetOrders s).flatMap orderCandidates) p) :
    ((resumableAuto p.s).map (.resumes .auto)).Pairwise (Sooner s) := by
  have same : ∀ c ∈ resumableAuto p.s, (Candidate.resumes .auto c).turn p.s = (Candidate.resumes .auto c).turn s :=
    fun c hc => by
      obtain ⟨waits, run⟩ := autoWaits_afterOrders first.reached c
      rw [Candidate.turn, run (waits.1 (mem_resumableAuto.1 hc)), Candidate.turn]
      all_goals exact fun k other => by cases other
  have sorted := List.pairwise_map.1 (pairwise_resumableAuto p.s)
  refine List.pairwise_map.2 (List.Pairwise.imp_of_mem (fun {c d} hc hd less => ?_) sorted)
  rw [Sooner, same c hc, same d hd] at less
  exact less

theorem mem_ordersAndResumptions {l : List (Fin 32)} (waits : ∀ c, c ∈ l ↔ AutoWaits s c) {x : Candidate} :
    x ∈ ordersAndResumptions s l ↔ x.Listed s ∧ ∀ c, x ≠ .enters .auto c := by
  have orders : ∀ {k}, k ∈ openWetOrders s ↔ OpenWetAt s k := fun {k} =>
    ⟨openWetAt_of_mem, mem_openWetOrders_of_openWetAt⟩
  simp only [ordersAndResumptions, List.mem_append, List.mem_flatMap, mem_orderCandidates, List.mem_map, waits, orders]
  cases x with
  | resumes o c => cases o <;> simp [Candidate.Listed]
  | enters o c => cases o <;> simp [Candidate.Listed]

theorem mem_piles {x : Candidate} : x ∈ (demandingPiles s).flatMap (pileCandidates s) ↔
    ∃ c, x = .enters .auto c ∧ 0 < (s.demand (s.cannon c).config.pile).volume := by
  simp only [List.mem_flatMap, mem_demandingPiles, mem_pileCandidates]
  exact ⟨fun ⟨i, demand, c, pile, eq⟩ => ⟨c, eq, pile ▸ demand⟩, fun ⟨c, eq, demand⟩ => ⟨_, demand, c, rfl, eq⟩⟩

theorem listed_enters_auto {c : Fin 32} : (Candidate.enters .auto c).Listed s ↔
    s.mau.mode = .auto ∧ 0 < (s.demand (s.cannon c).config.pile).volume := Iff.rfl

/-- The steps of the pass come through every candidate that is listed, and no other. -/
theorem passAt_passSteps (s : State) : ∃ l, PassAt s l (passSteps s) ∧ ∀ x, x ∈ l ↔ x.Listed s := by
  obtain ⟨p, q, hp, hq, steps⟩ := passSteps_eq s
  have first : PassAt s ((openWetOrders s).flatMap orderCandidates) p := by
    rw [hp]
    exact (PassAt.start s).steps (steps_orders s) (pairwise_orders s)
  have resumed : Steps ((resumableAuto p.s).map (.resumes .auto)) p q := by
    rw [hq]
    exact steps_resumeAutos _ (nodup_resumableAuto p.s) p fun c hc => mem_resumableAuto.1 hc
  have waits : ∀ c, c ∈ resumableAuto p.s ↔ AutoWaits s c := fun c =>
    mem_resumableAuto.trans (autoWaits_afterOrders first.reached c).1
  have sorted := sorted_ordersAndResumptions (fun c hc => (waits c).1 hc) (sorted_resumptions first)
  have second : PassAt s (ordersAndResumptions s (resumableAuto p.s)) q := first.steps resumed sorted
  generalize resumableAuto p.s = l at *
  have early := fun x hx => lt_pileTurn_of_mem (x := x) (fun c hc => (waits c).1 hc) hx
  rw [steps]
  split
  · rename_i auto
    have demand := demand_afterResumptions second.reached early
    have third := steps_piles (demandingPiles q.s) second.reached.toGround auto
    rw [demandingPiles_congr demand] at third ⊢
    refine ⟨_, second.steps third (List.pairwise_append.2 ⟨sorted, pairwise_piles s, fun x hx y hy => ?_⟩), fun x => ?_⟩
    · rw [Sooner, turn_of_piles hy]
      exact early x hx _
    · rw [List.mem_append, mem_ordersAndResumptions waits, mem_piles]
      by_cases new : ∃ c, x = .enters .auto c
      · obtain ⟨c, rfl⟩ := new
        simp [listed_enters_auto, auto]
      · have other : ∀ c, x ≠ .enters .auto c := fun c same => new ⟨c, same⟩
        simp [other]
  · rename_i manual
    refine ⟨_, second, fun x => ?_⟩
    rw [mem_ordersAndResumptions waits]
    refine ⟨And.left, fun listed => ⟨listed, fun c same => ?_⟩⟩
    subst same
    exact manual listed.1

/-! ## What waits -/

theorem mem_turnsWaiting {c : Fin 32} {u : List Int} : u ∈ turnsWaiting s t c ↔
    (eligible t c = true ∧ ((∃ k, OrderWants t k c ∧ u = orderTurn s k false c) ∨ (PileWants t c ∧ u = pileTurn s c))) ∨
    (freeToResume t c = true ∧ ∃ r ∈ t.run c, RunServed t r ∧ u = runTurn s r c) := by
  have slot : ∀ k, OrderWants t k c → k < t.sd.orders.length := fun k ⟨o, order, _⟩ => by
    by_contra out
    rw [State.order, List.getElem?_eq_none (Nat.le_of_not_lt out)] at order
    cases order
  unfold turnsWaiting
  rw [List.mem_append]
  refine or_congr ?_ ?_
  · split
    · rename_i can
      simp only [can, true_and, List.mem_append, List.mem_map, List.mem_filter, List.mem_range, decide_eq_true_eq]
      refine or_congr ⟨fun ⟨k, ⟨_, wants⟩, eq⟩ => ⟨k, wants, eq.symm⟩, fun ⟨k, wants, eq⟩ => ⟨k, ⟨slot k wants, wants⟩, eq.symm⟩⟩ ?_
      by_cases wants : PileWants t c
      · rw [if_pos wants, List.mem_singleton]
        exact ⟨fun eq => ⟨wants, eq⟩, And.right⟩
      · rw [if_neg wants]
        exact ⟨fun none => absurd none List.not_mem_nil, fun both => absurd both.1 wants⟩
    · rename_i cannot
      exact ⟨fun none => absurd none List.not_mem_nil, fun both => absurd both.1 cannot⟩
  · split
    · rename_i free
      cases run : t.run c with
      | none => simp
      | some r =>
        simp only [free, Option.mem_def, Option.some.injEq, exists_eq_left', true_and, RunServed, runTurn]
        cases r.origin with
        | order k => by_cases opened : OpenWetAt t k <;> simp [opened]
        | auto => by_cases served : ServesTier t r.tierNumber <;> simp [served]
        | detached => simp
    · rename_i held
      exact ⟨fun none => absurd none List.not_mem_nil, fun both => absurd both.1 held⟩

/-- What waits is a candidate that asks, at its turn. -/
theorem Reached.candidate_of_waiting {done : List Candidate} (h : Reached s done t) {c : Fin 32} {u : List Int}
    (waits : u ∈ turnsWaiting s t c) : ∃ x : Candidate, x.Listed s ∧ x.cannon = c ∧ x.turn s = u ∧ x.asks t := by
  rcases mem_turnsWaiting.1 waits with ⟨can, ⟨k, wants, rfl⟩ | ⟨wants, rfl⟩⟩ | ⟨free, r, run, served, rfl⟩
  · refine ⟨.enters (.order k) c, ?_, rfl, rfl, can, (orderWants_iff t k c).1 wants⟩
    obtain ⟨o, order, wet, opened, -⟩ := wants
    exact (h.openWetAt k).1 ⟨o, order, wet, opened⟩
  · obtain ⟨served, enough, positive⟩ := (pileWants_iff t c).1 wants
    refine ⟨.enters .auto c, ⟨h.mode.symm.trans served.1, ?_⟩, rfl, rfl, can, served, enough⟩
    rw [h.volumeFor] at positive
    exact Nat.lt_of_lt_of_le positive (Nat.sub_le _ _)
  · have same := (h.same (h.untaken_of_free free)).2
    have before : s.run c = some r := same ▸ run
    refine ⟨.resumes r.origin c, ?_, rfl, ?_, free, r, run, rfl, served⟩
    · have there := (h.runServed r).1 served
      unfold RunServed at there
      unfold Candidate.Listed
      cases origin : r.origin with
      | order k => rw [origin] at there; exact there
      | auto =>
        have cannon := (h.same (h.untaken_of_free free)).1
        exact ⟨(h.freeToResume cannon same).symm.trans free, r, before, origin⟩
      | detached => rw [origin] at there; exact there
    · unfold Candidate.turn runTurn
      cases r.origin <;> simp [before]

theorem wanted_of_asks {x : Candidate} (listed : x.Listed s) (asks : x.asks s) : Wanted s x.cannon := by
  have some : ∃ u, u ∈ turnsWaiting s s x.cannon := by
    cases x with
    | resumes o c =>
      obtain ⟨free, r, run, -, served⟩ := asks
      exact ⟨_, mem_turnsWaiting.2 (.inr ⟨free, r, run, served, rfl⟩)⟩
    | enters o c =>
      obtain ⟨can, served, enough⟩ := asks
      cases o with
      | order k => exact ⟨_, mem_turnsWaiting.2 (.inl ⟨can, .inl ⟨k, (orderWants_iff s k c).2 ⟨served, enough⟩, rfl⟩⟩)⟩
      | auto =>
        exact ⟨_, mem_turnsWaiting.2 (.inl ⟨can, .inr ⟨(pileWants_iff s c).2 ⟨served, enough, listed.2⟩, rfl⟩⟩)⟩
      | detached => exact absurd served id
  obtain ⟨u, mem⟩ := some
  exact List.ne_nil_of_mem mem

/-! ## The pass -/

theorem Reached.passTaken {done : List Candidate} (h : Reached s done t) (all : ∀ x, x ∈ done ↔ x.Listed s) :
    PassTaken s t := by
  refine ⟨h.stays, fun c free r run => ?_, fun p => ⟨h.tier p, h.demands p⟩, fun c u hu => (h.taken c u hu).2,
    fun c u hu => ?_, h.opened⟩
  · obtain ⟨mem, can, served, enough, entered⟩ := h.entered c free r run
    have pile : r.pile = (s.cannon c).config.pile := by rw [entered]; rfl
    have target : r.target = min (leftAtTurn s t r c) ((s.cannon c).config.flow * s.site.maxRun) := by
      conv_lhs => rw [entered]
      rfl
    have tier : r.tier = tierOf s r.origin c := by
      conv_lhs => rw [entered]
      rfl
    have le : leftAtTurn s t r c ≤ Machine.volumeFor s r.origin c := by
      rw [leftAtTurn_eq pile]
      exact Nat.sub_le _ _
    refine ⟨can, pile, by rw [entered]; rfl, by rw [entered]; rfl, target, ?_⟩
    cases origin : r.origin with
    | order k =>
      rw [origin] at served enough le tier
      exact ⟨tier, (orderWants_iff s k c).2 ⟨served, enough.mono le⟩, enough⟩
    | auto =>
      rw [origin] at served enough le tier
      refine ⟨by rw [tier, pile]; rfl, (pileWants_iff s c).2 ⟨served, enough.mono le, ?_⟩, enough⟩
      rw [origin] at mem
      exact ((all _).1 mem).2
    | detached =>
      rw [origin] at served
      exact served
  · obtain ⟨x, listed, rfl, rfl, asks⟩ := h.candidate_of_waiting hu
    exact h.waiting x ((all x).2 listed) asks

end

end Sys2Proof.Machine
end

