-- ==== Sys2Proof/Proofs/PassAlike.lean ====
section
/-! SUPPORT. What a pass reads of a state is its cannons, runs, orders, open demands, piles, mode, water and header: a
pass between two states is one between any two that agree on these (R119, R125, R126). -/

namespace Sys2Proof.Machine

/-- The states agree on all that a pass reads but the header capacity. -/
structure Alike (s t : State) : Prop extends Ground s t where
  cannon : ∀ c, t.cannon c = s.cannon c
  run : ∀ c, t.run c = s.run c
  demand : ∀ p, t.demand p = s.demand p

theorem Alike.refl (s : State) : Alike s s := ⟨.refl s, fun _ => rfl, fun _ => rfl, fun _ => rfl⟩

theorem Alike.trans {s t u : State} (h : Alike s t) (k : Alike t u) : Alike s u :=
  ⟨h.toGround.trans k.toGround, fun c => (k.cannon c).trans (h.cannon c), fun c => (k.run c).trans (h.run c),
    fun p => (k.demand p).trans (h.demand p)⟩

theorem Ground.symm {s t : State} (h : Ground s t) : Ground t s :=
  ⟨h.site.symm, h.mode.symm, fun p => (h.pile p).symm, h.orders.symm, h.water.symm, fun c => (h.config c).symm,
    fun p => (h.tier p).symm⟩

theorem Alike.symm {s t : State} (h : Alike s t) : Alike t s :=
  ⟨h.toGround.symm, fun c => (h.cannon c).symm, fun c => (h.run c).symm, fun p => (h.demand p).symm⟩

theorem alike_of_eq {s t : State} (site : t.site = s.site) (mode : t.mau.mode = s.mau.mode) (pau : t.pau = s.pau)
    (cannons : t.cc.cannons = s.cc.cannons) (runs : t.sd.runs = s.sd.runs) (orders : t.sd.orders = s.sd.orders)
    (demands : t.sd.demands = s.sd.demands) (ponds : t.wiu.ponds = s.wiu.ponds) (today : t.wiu.today = s.wiu.today) :
    Alike s t := by
  have cannon : ∀ c, t.cannon c = s.cannon c := fun c => by rw [State.cannon, cannons, State.cannon]
  have demand := demand_of_demands demands
  exact ⟨⟨site, mode, fun p => by rw [State.pile, pau, State.pile], orders, waterState_congr site ponds today,
    fun c => by rw [cannon], fun p => by rw [demand]⟩, cannon, fun c => by rw [State.run, runs, State.run], demand⟩

section
variable {s t s' t' : State}

section
variable (h : Alike s s')
include h

theorem Alike.freeToResume' (c : Fin 32) : freeToResume s' c = freeToResume s c := h.freeToResume (h.cannon c) (h.run c)

theorem Alike.eligible' (c : Fin 32) : eligible s' c = eligible s c := h.eligible (h.cannon c) (h.run c)

theorem Alike.undelivered (k : Nat) (o : Order) : undelivered s' k o = undelivered s k o := by
  have total : outstandingOf s' (orderOf k) = outstandingOf s (orderOf k) :=
    outstandingOf_congr fun c => outstandingAt_of_run (h.run c) _
  show o.volume - o.delivered - outstandingOf s' (orderOf k) = o.volume - o.delivered - outstandingOf s (orderOf k)
  rw [total]

theorem Alike.volumeFor (o : Origin) (c : Fin 32) : volumeFor s' o c = volumeFor s o c := by
  unfold Machine.volumeFor
  cases o with
  | order k =>
    have owed : Machine.undelivered s' k = Machine.undelivered s k := funext (h.undelivered k)
    simp only [h.order, owed]
  | auto => simp only [h.config, h.demand]
  | detached => rfl

theorem Alike.orderWants (k : Nat) (c : Fin 32) : OrderWants s' k c ↔ OrderWants s k c := by
  rw [orderWants_iff, orderWants_iff, h.originServed, h.volumeFor, h.enoughFor]

theorem Alike.pileWants (c : Fin 32) : PileWants s' c ↔ PileWants s c := by
  rw [pileWants_iff, pileWants_iff, h.originServed, h.volumeFor, h.enoughFor]

theorem Alike.reservedFlow : reservedFlow s' = reservedFlow s := by
  unfold Machine.reservedFlow
  simp only [h.cannon]

theorem Alike.orderTurn (k : Nat) (b : Bool) (c : Fin 32) : orderTurn s' k b c = orderTurn s k b c := by
  unfold Machine.orderTurn
  rw [h.order]

theorem Alike.pileTurn (c : Fin 32) : pileTurn s' c = pileTurn s c := by
  unfold Machine.pileTurn
  rw [h.config, h.demand]

theorem Alike.runTurn (r : Run) (c : Fin 32) : runTurn s' r c = runTurn s r c := by
  unfold Machine.runTurn
  cases r.origin with
  | order k => exact h.orderTurn k true c
  | auto => rfl
  | detached => rfl

end

section
variable (h : Alike s s') (k : Alike t t')
include h k

theorem Alike.turnTaken (c : Fin 32) : turnTaken s' t' c = turnTaken s t c := by
  unfold Machine.turnTaken
  rw [h.run, k.run]
  simp only [h.runTurn, h.orderTurn, h.pileTurn]

theorem Alike.mem_turnsWaiting (c : Fin 32) (u : List Int) : u ∈ turnsWaiting s' t' c ↔ u ∈ turnsWaiting s t c := by
  rw [Machine.mem_turnsWaiting, Machine.mem_turnsWaiting]
  simp only [k.eligible', k.freeToResume', k.orderWants, k.pileWants, h.orderTurn, h.pileTurn, h.runTurn, k.run,
    k.runServed]

theorem Alike.newTargets (test : Run → Bool) (on : Fin 32 → Bool) : newTargets s' t' test on = newTargets s t test on := by
  have same : targetAt s' t' test on = targetAt s t test on := funext fun x => by
    rw [targetAt, h.run, k.run, targetAt]
  rw [newTargets_eq, newTargets_eq, same]

theorem Alike.flowTakenBefore (u : List Int) : flowTakenBefore s' t' u = flowTakenBefore s t u := by
  unfold Machine.flowTakenBefore
  simp only [h.turnTaken k, h.config]

theorem Alike.leftAtTurn (r : Run) (c : Fin 32) : leftAtTurn s' t' r c = leftAtTurn s t r c := by
  unfold Machine.leftAtTurn
  cases r.origin with
  | order j =>
    have owed : Machine.undelivered s' j = Machine.undelivered s j := funext (h.undelivered j)
    simp only [h.order, owed, h.newTargets k]
  | auto => simp only [h.demand, h.newTargets k]
  | detached => rfl

theorem Alike.passTaken (capacity : capacity s' = capacity s) (taken : PassTaken s t) : PassTaken s' t' := by
  obtain ⟨stays, entered, demands, fits, waits, opened⟩ := taken
  refine ⟨fun c r run => ?_, fun c free r run => ?_, fun p => ?_, fun c u turn => ?_, fun c u turn => ?_, fun c => ?_⟩
  · rw [h.run] at run
    rw [k.run, h.freeToResume', h.runServed]
    exact stays c r run
  · rw [h.run] at free
    rw [k.run] at run
    obtain ⟨can, pile, delivered, phase, target, origin⟩ := entered c free r run
    rw [h.eligible', h.config, h.leftAtTurn k, h.site]
    refine ⟨can, pile, delivered, phase, target, ?_⟩
    cases source : r.origin with
    | order j =>
      rw [source] at origin
      obtain ⟨tier, wants, enough⟩ := origin
      exact ⟨tier, (h.orderWants j c).2 wants, enough⟩
    | auto =>
      rw [source] at origin
      obtain ⟨tier, wants, enough⟩ := origin
      exact ⟨by rw [h.demand]; exact tier, (h.pileWants c).2 wants, enough⟩
    | detached =>
      rw [source] at origin
      exact origin
  · rw [k.demand, h.demand, h.newTargets k]
    exact demands p
  · rw [h.turnTaken k] at turn
    rw [h.reservedFlow, h.flowTakenBefore k, h.config, capacity]
    exact fits c u turn
  · rw [h.mem_turnsWaiting k] at turn
    rw [h.reservedFlow, h.flowTakenBefore k, h.config, capacity]
    exact waits c u turn
  · rw [h.turnTaken k, h.cannon, k.cannon]
    exact opened c

end

theorem wanted_iff (s t : State) (c : Fin 32) : Wanted t c ↔ ∃ u, u ∈ turnsWaiting s t c := by
  have some : Wanted t c ↔ ∃ u, u ∈ turnsWaiting t t c := ⟨List.exists_mem_of_ne_nil _, fun ⟨_, mem⟩ => List.ne_nil_of_mem mem⟩
  rw [some]
  simp only [mem_turnsWaiting, exists_or, exists_and_left]
  constructor
  · rintro (⟨can, wants⟩ | ⟨free, u, r, run, served, -⟩)
    · refine .inl ⟨can, ?_⟩
      obtain ⟨u, k, wants, -⟩ | ⟨wants, -⟩ := wants
      · exact .inl ⟨_, k, wants, rfl⟩
      · exact .inr ⟨wants, _, rfl⟩
    · exact .inr ⟨free, _, r, run, served, rfl⟩
  · rintro (⟨can, wants⟩ | ⟨free, u, r, run, served, -⟩)
    · refine .inl ⟨can, ?_⟩
      obtain ⟨u, k, wants, -⟩ | ⟨wants, -⟩ := wants
      · exact .inl ⟨_, k, wants, rfl⟩
      · exact .inr ⟨wants, _, rfl⟩
    · exact .inr ⟨free, _, r, run, served, rfl⟩

theorem Alike.wanted (h : Alike s t) (c : Fin 32) : Wanted t c ↔ Wanted s c := by
  rw [wanted_iff s t, wanted_iff s s]
  simp only [(Alike.refl s).mem_turnsWaiting h]

end

end Sys2Proof.Machine
end

