-- ==== Sys2Proof/Proofs/PassReports.lean ====
section
/-! SUPPORT. The grant pass with the reports that end it: the runs and demands of R124 to R126, and the pump set as the
grant report, the start request and the header idle report leave it (R71, R73, R122). -/

namespace Sys2Proof.Machine

section
variable {s t : State}

/-! ## The reports -/

theorem alike_pumpTo (x : PumpPhase) (y : Option Source) (n : Option Nat) (s : State) : Alike s (pumpTo x y n s) := by
  unfold pumpTo
  exact alike_of_eq (by rw [post_site]; rfl) (by rw [post_mau]; rfl) (by rw [post_pau]; rfl) (by rw [post_cc]; rfl)
    (by rw [post_sd]; rfl) (by rw [post_sd]; rfl) (by rw [post_sd]; rfl) (by rw [post_wiu]; rfl) (by rw [post_wiu]; rfl)

theorem alike_grantReport (s : State) : Alike s (grantReport s) := by
  unfold grantReport
  split
  · exact alike_pumpTo _ _ _ s
  · exact .refl s

theorem alike_startRequest (s : State) : Alike s (startRequest s) := by
  unfold startRequest
  split
  · split
    · exact alike_pumpTo _ _ _ s
    · exact .refl s
  · exact .refl s

theorem alike_headerIdle (s : State) : Alike s (headerIdle s) := by
  unfold headerIdle enterRundown pumpOff
  repeat' split
  · exact alike_pumpTo _ _ _ s
  · exact alike_pumpTo _ _ _ s
  · exact alike_pumpTo _ _ _ s
  · exact .refl s

theorem grantReport_of_not (h : s.wiu.pump.phase ≠ .rundown) : grantReport s = s := if_neg h

theorem startRequest_of_not (h : s.wiu.pump.phase ≠ .off) : startRequest s = s := if_neg fun k => h k.1

theorem headerIdle_of_not (h : s.wiu.pump.phase ≠ .running) : headerIdle s = s := if_neg fun k => h k.1

theorem headerIdle_of_busy (h : headerBusy s = true) : headerIdle s = s := if_neg fun k => by rw [h] at k; cases k.2

/-! ## The pass -/

theorem grantPass_eq (s : State) : grantPass s = headerIdle
    (if (passSteps s).skipped then startRequest (if (passSteps s).granted then grantReport (passSteps s).s else (passSteps s).s)
      else if (passSteps s).granted then grantReport (passSteps s).s else (passSteps s).s) := rfl

theorem alike_grantPass (s : State) : Alike (passSteps s).s (grantPass s) := by
  rw [grantPass_eq]
  refine Alike.trans ?_ (alike_headerIdle _)
  have reported : Alike (passSteps s).s (if (passSteps s).granted then grantReport (passSteps s).s else (passSteps s).s) := by
    split
    · exact alike_grantReport _
    · exact .refl _
  split
  · exact reported.trans (alike_startRequest _)
  · exact reported

theorem passTaken_passSteps (s : State) : PassTaken s (passSteps s).s := by
  obtain ⟨l, pass, all⟩ := passAt_passSteps s
  exact pass.reached.passTaken all

theorem passTaken_grantPass (s : State) : PassTaken s (grantPass s) :=
  (Alike.refl s).passTaken (alike_grantPass s) rfl (passTaken_passSteps s)

theorem passSteps_wiu (s : State) : (passSteps s).s.wiu = s.wiu := by
  obtain ⟨l, pass, -⟩ := passAt_passSteps s
  exact pass.reached.wiu

theorem ground_grantPass (s : State) : Ground s (grantPass s) := by
  obtain ⟨l, pass, -⟩ := passAt_passSteps s
  exact pass.reached.toGround.trans (alike_grantPass s).toGround

theorem granted_iff (s : State) : (passSteps s).granted = true ↔ ∃ c, turnTaken s (grantPass s) c ≠ none := by
  obtain ⟨l, pass, -⟩ := passAt_passSteps s
  simp only [pass.granted, (Alike.refl s).turnTaken (alike_grantPass s)]

theorem passSteps_of_not_granted (h : (passSteps s).granted = false) :
    (passSteps s).s = s ∧ ((passSteps s).skipped = true ↔ ∃ c, Wanted s c) := by
  obtain ⟨l, pass, all⟩ := passAt_passSteps s
  obtain ⟨same, skipped⟩ := pass.untouched h
  refine ⟨same, skipped.trans ⟨fun ⟨x, mem, asks⟩ => ⟨_, wanted_of_asks ((all x).1 mem) asks⟩, fun ⟨c, wanted⟩ => ?_⟩⟩
  obtain ⟨u, waits⟩ := (wanted_iff s s c).1 wanted
  obtain ⟨x, listed, -, -, asks⟩ := (Reached.start s).candidate_of_waiting waits
  exact ⟨x, (all x).2 listed, asks⟩

/-! ## The header after the pass -/

theorem grantReport_pump_le (s : State) : capacity (grantReport s) ≤ capacity s := by
  unfold grantReport
  split
  · rename_i rundown
    have rate : sourceRate (pumpTo .running s.wiu.pump.source none s) = sourceRate s := funext fun src => by
      cases src <;> simp [sourceRate, pumpTo, post_site, State.pond]
    rw [capacity, capacity, pumpTo_pump, rate, rundown]
    cases s.wiu.pump.source <;> exact le_rfl
  · exact le_rfl

theorem capacity_startRequest_le (s : State) : capacity (startRequest s) ≤ capacity s := by
  unfold startRequest
  split
  · split
    · rw [capacity, pumpTo_pump]
      exact Nat.zero_le _
    · exact le_rfl
  · exact le_rfl

theorem capacity_headerIdle_le (s : State) : capacity (headerIdle s) ≤ capacity s := by
  have off : capacity (pumpOff s) ≤ capacity s := by
    rw [capacity, pumpOff, pumpTo_pump]
    exact Nat.zero_le _
  unfold headerIdle
  split
  · rename_i idle
    unfold enterRundown
    split
    · split
      · exact off
      · have rate : sourceRate (pumpTo .rundown s.wiu.pump.source (some (Config.seconds s.site.rundown)) s) = sourceRate s :=
          funext fun src => by cases src <;> simp [sourceRate, pumpTo, post_site, State.pond]
        rw [capacity, capacity, pumpTo_pump, rate, idle.1]
        cases s.wiu.pump.source <;> exact le_rfl
    · exact off
  · exact le_rfl

theorem capacity_grantPass_le (s : State) : capacity (grantPass s) ≤ capacity s := by
  have steps : capacity (passSteps s).s = capacity s := capacity_congr (within_passSteps s).site (passSteps_wiu s)
  have reported : capacity (if (passSteps s).granted then grantReport (passSteps s).s else (passSteps s).s) ≤ capacity s := by
    split
    · exact (grantReport_pump_le _).trans steps.le
    · exact steps.le
  rw [grantPass_eq]
  refine (capacity_headerIdle_le _).trans ?_
  split
  · exact (capacity_startRequest_le _).trans reported
  · exact reported

/-- Whatever is wanted after a pass is what the header has no room for (R119). -/
theorem passMade_grantPass (s : State) : PassMade (grantPass s) := fun c wanted => by
  obtain ⟨l, pass, -⟩ := passAt_passSteps s
  obtain ⟨u, waits⟩ := (wanted_iff s (grantPass s) c).1 wanted
  obtain ⟨-, -, -, -, short, -⟩ := passTaken_grantPass s
  have beyond := short c u waits
  have reserved : reservedFlow (grantPass s) = reservedFlow s + flowTaken s (passSteps s).s := by
    rw [(alike_grantPass s).reservedFlow, pass.reached.reserved]
  have taken := flowTakenBefore_le s (passSteps s).s u
  have before := (Alike.refl s).flowTakenBefore (alike_grantPass s) u
  have capacity := capacity_grantPass_le s
  rw [(ground_grantPass s).config, reserved]
  omega

/-! ## The pump set after the pass -/

/-- Every cannon that is configured has a flow, as it has in a state of sound valves (R87). -/
def FlowsPositive (s : State) : Prop := ∀ c, (s.cannon c).configured = true → 0 < (s.cannon c).config.flow

theorem flowsPositive_of_valves (h : ValvesSound s) : FlowsPositive s := fun c configured =>
  Nat.lt_of_lt_of_le (by decide) (h.2.2.1 c configured)

theorem FlowsPositive.of_cc (h : FlowsPositive s) (cc : t.cc = s.cc) : FlowsPositive t := fun c => by
  rw [State.cannon, cc, ← State.cannon]
  exact h c

theorem configured_of_couldSpray {c : Fin 32} (h : couldSpray s c = true) : (s.cannon c).configured = true := by
  simp only [couldSpray, Bool.and_eq_true] at h
  exact h.1.1.1.1.1

theorem sprays_of_couldSpray {c : Fin 32} (h : couldSpray s c = true) : spraysMode s.mau.mode = true := by
  simp only [couldSpray, Bool.and_eq_true] at h
  exact h.2

theorem couldSpray_of_wanted {c : Fin 32} (h : Wanted s c) : couldSpray s c = true := by
  obtain ⟨u, waits⟩ := (wanted_iff s s c).1 h
  rcases mem_turnsWaiting.1 waits with ⟨can, -⟩ | ⟨free, -⟩
  · simp only [eligible, Bool.and_eq_true] at can
    exact can.1
  · exact couldSpray_of_freeToResume free

theorem capacity_of_phase (running : s.wiu.pump.phase ≠ .running) (rundown : s.wiu.pump.phase ≠ .rundown) : capacity s = 0 := by
  unfold capacity
  split
  · rename_i phase _
    exact absurd phase running
  · rename_i phase _
    exact absurd phase rundown
  · rfl

/-- A header without capacity grants nothing (R119). -/
theorem not_granted_of_noCapacity (flows : FlowsPositive s) (header : capacity s = 0) : (passSteps s).granted = false := by
  refine Bool.eq_false_of_not_eq_true fun granted => ?_
  obtain ⟨l, pass, -⟩ := passAt_passSteps s
  obtain ⟨c, taken⟩ := pass.granted.1 granted
  obtain ⟨u, turn⟩ := Option.ne_none_iff_exists'.1 taken
  have fits := (pass.reached.taken c u turn).2
  have could : couldSpray s c = true := by
    cases run : s.run c with
    | none =>
      cases after : (passSteps s).s.run c with
      | none => simp [turnTaken, run, after] at turn
      | some r =>
        obtain ⟨-, can, -⟩ := pass.reached.entered c run r after
        simp only [eligible, Bool.and_eq_true] at can
        exact can.1
    | some r =>
      rcases pass.reached.stays c r run with same | ⟨free, -⟩
      · rw [turnTaken_stays run same] at turn
        cases turn
      · exact couldSpray_of_freeToResume free
  have positive := flows c (configured_of_couldSpray could)
  omega

theorem grantPass_of_not_granted (h : (passSteps s).granted = false) :
    grantPass s = headerIdle (if (passSteps s).skipped then startRequest s else s) := by
  rw [grantPass_eq, h, (passSteps_of_not_granted h).1]
  rfl

/-- From OFF the pass starts the pump set where a cannon is wanted (R71, R122). -/
theorem grantPass_pump_off (flows : FlowsPositive s) (off : s.wiu.pump.phase = .off) :
    (grantPass s).wiu.pump = pumpStarted s (grantPass s) := by
  have none : (passSteps s).granted = false :=
    not_granted_of_noCapacity flows (capacity_of_phase (by rw [off]; simp) (by rw [off]; simp))
  obtain ⟨same, skipped⟩ := passSteps_of_not_granted none
  have alike : Alike s (grantPass s) := by
    have k := alike_grantPass s
    rw [same] at k
    exact k
  have wanted : (∃ c, Wanted (grantPass s) c) ↔ ∃ c, Wanted s c := by simp only [alike.wanted]
  have selected : selection (grantPass s) = selection s := (within_grantPass s).selection
  unfold pumpStarted
  rw [selected]
  simp only [wanted, ← skipped]
  rw [grantPass_of_not_granted none]
  split
  · rename_i skip
    obtain ⟨c, found⟩ := skipped.1 skip
    have sprays := sprays_of_couldSpray (couldSpray_of_wanted found)
    unfold startRequest
    rw [if_pos ⟨off, sprays⟩]
    cases selection s with
    | none => rw [headerIdle_of_not (by rw [off]; simp)]
    | some src =>
      simp only
      rw [headerIdle_of_not (by rw [pumpTo_pump]; simp), pumpTo_pump]
  · rw [headerIdle_of_not (by rw [off]; simp)]

theorem grantPass_of_waiting (h : s.wiu.pump.phase = .priming ∨ s.wiu.pump.phase = .changeover) :
    (grantPass s).wiu.pump = s.wiu.pump := by
  have wiu := passSteps_wiu s
  have rundown : (passSteps s).s.wiu.pump.phase ≠ .rundown := by rw [wiu]; rcases h with h | h <;> rw [h] <;> simp
  have off : (passSteps s).s.wiu.pump.phase ≠ .off := by rw [wiu]; rcases h with h | h <;> rw [h] <;> simp
  have running : (passSteps s).s.wiu.pump.phase ≠ .running := by rw [wiu]; rcases h with h | h <;> rw [h] <;> simp
  rw [grantPass_eq, grantReport_of_not rundown, ite_self, startRequest_of_not off, ite_self, headerIdle_of_not running, wiu]

theorem headerBusy_congr (h : ∀ c, t.cannon c = s.cannon c) : headerBusy t = headerBusy s := by
  simp only [headerBusy, h]

/-- In RUNNING the pass leaves the pump set where some cannon holds the header busy, and else lets it run down (R73). -/
theorem grantPass_pump_running (running : s.wiu.pump.phase = .running) :
    (grantPass s).wiu.pump = if headerBusy (grantPass s) = true then s.wiu.pump else pumpIdle s (grantPass s) := by
  have wiu := passSteps_wiu s
  have within := within_passSteps s
  have busy := headerBusy_congr (alike_grantPass s).cannon
  have eq : grantPass s = headerIdle (passSteps s).s := by
    rw [grantPass_eq, grantReport_of_not (by rw [wiu, running]; simp), ite_self,
      startRequest_of_not (by rw [wiu, running]; simp), ite_self]
  have selected : selection (grantPass s) = selection (passSteps s).s :=
    (within_grantPass s).selection.trans within.selection.symm
  rw [pumpIdle, selected, busy, eq]
  generalize (passSteps s).s = t at *
  have site := within.site
  unfold headerIdle
  rw [wiu]
  by_cases held : headerBusy t = true
  · rw [if_neg (by simp [held]), if_pos held, wiu]
  · rw [if_pos ⟨running, Bool.eq_false_of_not_eq_true held⟩, if_neg held]
    unfold enterRundown
    rw [wiu, site]
    by_cases source : (selection t).isSome ∧ selection t = s.wiu.pump.source
    · rw [if_pos source]
      have some : s.wiu.pump.source ≠ none := by
        rw [← source.2]
        exact Option.isSome_iff_ne_none.1 source.1
      by_cases rest : s.site.rundown = 0
      · rw [if_pos rest, if_neg (fun k => k.2.2 rest), pumpOff, pumpTo_pump]
      · rw [if_neg rest, if_pos ⟨some, source.2, rest⟩, pumpTo_pump]
    · rw [if_neg source, if_neg, pumpOff, pumpTo_pump]
      rintro ⟨some, same, -⟩
      exact source ⟨by rw [same]; exact Option.isSome_iff_ne_none.2 some, same⟩

/-- A grant in RUNDOWN brings the pump set back to RUNNING on its source (R73). -/
theorem grantPass_pump_rundown (rundown : s.wiu.pump.phase = .rundown) : (grantPass s).wiu.pump =
    if ∃ c, turnTaken s (grantPass s) c ≠ none then ⟨.running, s.wiu.pump.source, none⟩ else s.wiu.pump := by
  have wiu := passSteps_wiu s
  simp only [← granted_iff]
  by_cases granted : (passSteps s).granted = true
  · obtain ⟨l, pass, -⟩ := passAt_passSteps s
    obtain ⟨c, taken⟩ := pass.granted.1 granted
    have waits := pass.reached.opened c
    rw [if_neg taken] at waits
    have busy : headerBusy (grantReport (passSteps s).s) = true := by
      rw [headerBusy_congr (alike_grantReport _).cannon]
      refine List.any_eq_true.2 ⟨c, List.mem_finRange c, ?_⟩
      rcases waits with h | h <;> rw [h] <;> rfl
    have pump : (grantReport (passSteps s).s).wiu.pump = ⟨.running, s.wiu.pump.source, none⟩ := by
      rw [grantReport, wiu, if_pos rundown, pumpTo_pump]
    rw [grantPass_eq, if_pos granted, if_pos granted, startRequest_of_not (by rw [pump]; simp), ite_self,
      headerIdle_of_busy busy, pump]
  · have none := Bool.eq_false_of_not_eq_true granted
    rw [grantPass_of_not_granted none, startRequest_of_not (by rw [rundown]; simp), ite_self,
      headerIdle_of_not (by rw [rundown]; simp), if_neg granted]

end

end Sys2Proof.Machine
end

