-- ==== Sys2Proof/Proofs/PumpIntervals.lean ====
section
/-! The ends of the pump set's intervals: PRIMING and CHANGEOVER end in RUNNING with a grant pass, RUNDOWN in OFF
(R69, R72 to R74, R76, R108, R119, R122). -/

namespace Sys2Proof.Machine

section
variable {s t u : State}

/-! ## An event that ends in a pass -/

theorem alike_setPass (b : Bool) (s : State) : Alike s (s.setPass b) :=
  alike_of_eq rfl rfl rfl rfl rfl rfl rfl rfl rfl

theorem inEvent_of_marked {f : State → State} (event : f (s.setPass false) = u) (marked : u.sd.passDue = true) :
    inEvent f s = (grantPass u).setPass false := by
  unfold inEvent
  simp only [event]
  rw [if_pos marked]

theorem passMade_setPass (made : PassMade t) (b : Bool) : PassMade (t.setPass b) := fun c wanted => by
  have alike := alike_setPass b t
  rw [alike.reservedFlow, alike.config, capacity_congr (t := t.setPass b) (s := t) rfl rfl]
  exact made c ((alike.wanted c).1 wanted)

theorem passMade_event (u : State) : PassMade ((grantPass u).setPass false) := passMade_setPass (passMade_grantPass u) false

theorem passTaken_event (alike : Alike s u) (capacity : capacity s = capacity u) :
    PassTaken s ((grantPass u).setPass false) :=
  alike.symm.passTaken (alike_setPass false _) capacity (passTaken_grantPass u)

theorem selection_setPass (b : Bool) (s : State) : selection (s.setPass b) = selection s := (within_setPass s b).selection

theorem headerBusy_setPass (b : Bool) (s : State) : headerBusy (s.setPass b) = headerBusy s :=
  headerBusy_congr (alike_setPass b s).cannon

/-! ## The entry to RUNNING -/

/-- The pump set enters RUNNING on its source, and a pass is made at the source's rate (R70, R72, R76). -/
theorem capacityIncrease_event (s : State) : .source ∈ (inEvent capacityIncrease s).lc.notices ∧
    PassMade (inEvent capacityIncrease s) ∧
    PassTaken (s.setPump ⟨.running, s.wiu.pump.source, none⟩) (inEvent capacityIncrease s) ∧
    (inEvent capacityIncrease s).wiu.pump =
      (if headerBusy (inEvent capacityIncrease s) = true then ⟨.running, s.wiu.pump.source, none⟩
        else pumpIdle s (inEvent capacityIncrease s)) ∧
    Within (s.setPump ⟨.running, s.wiu.pump.source, none⟩) (inEvent capacityIncrease s) := by
  have entered : Within (s.setPump ⟨.running, s.wiu.pump.source, none⟩) (capacityIncrease (s.setPass false)) :=
    ((within_setPass _ false).trans (within_post ((s.setPump ⟨.running, s.wiu.pump.source, none⟩).setPass false) .source)).trans
      (within_setPass _ true)
  have notice : .source ∈ (capacityIncrease (s.setPass false)).lc.notices := (mem_post _ _ _).2 (.inl rfl)
  have alike : Alike (s.setPump ⟨.running, s.wiu.pump.source, none⟩) (capacityIncrease (s.setPass false)) := by
    refine Alike.trans ?_ (alike_setPass true _)
    unfold pumpTo
    exact alike_of_eq (by rw [post_site]; rfl) (by rw [post_mau]; rfl) (by rw [post_pau]; rfl) (by rw [post_cc]; rfl)
      (by rw [post_sd]; rfl) (by rw [post_sd]; rfl) (by rw [post_sd]; rfl) (by rw [post_wiu]; rfl) (by rw [post_wiu]; rfl)
  have pump : (capacityIncrease (s.setPass false)).wiu.pump = ⟨.running, s.wiu.pump.source, none⟩ := pumpTo_pump _ _ _ _
  have wiu : (capacityIncrease (s.setPass false)).wiu = (s.setPump ⟨.running, s.wiu.pump.source, none⟩).wiu := post_wiu _ _
  have site := entered.site
  have marked : (capacityIncrease (s.setPass false)).sd.passDue = true := rfl
  have within : Within (s.setPump ⟨.running, s.wiu.pump.source, none⟩) (inEvent capacityIncrease s) :=
    entered.trans (inEvent_within s capacityIncrease)
  have kept := (inEvent_within s capacityIncrease).posts.keeps.subset notice
  have eq := inEvent_of_marked rfl marked
  generalize inEvent capacityIncrease s = t at *
  generalize capacityIncrease (s.setPass false) = u at *
  subst eq
  refine ⟨kept, passMade_event u, passTaken_event alike (capacity_congr site.symm wiu.symm), ?_, within⟩
  have running := grantPass_pump_running (s := u) (by rw [pump])
  rw [headerBusy_setPass, setPass_wiu, running, pumpIdle, pumpIdle, selection_setPass, pump, site]
  rfl

/-- Both expiries that bring the pump set to RUNNING (R72, R76). -/
theorem runningEntered (s : State) : .source ∈ (inEvent capacityIncrease s).lc.notices ∧
    PassMade (inEvent capacityIncrease s) ∧
    PassTaken (s.setPump ⟨.running, s.wiu.pump.source, none⟩) (inEvent capacityIncrease s) ∧
    (headerBusy (inEvent capacityIncrease s) = true →
      (inEvent capacityIncrease s).wiu.pump = ⟨.running, s.wiu.pump.source, none⟩) ∧
    (headerBusy (inEvent capacityIncrease s) = false →
      (inEvent capacityIncrease s).wiu.pump = pumpIdle s (inEvent capacityIncrease s)) ∧
    SprayFrame s (inEvent capacityIncrease s) ∧ WaterFrame s (inEvent capacityIncrease s) ∧
    PilesFrame s (inEvent capacityIncrease s) ∧ CannonsFrame s (inEvent capacityIncrease s) := by
  obtain ⟨notice, made, taken, pump, within⟩ := capacityIncrease_event s
  refine ⟨notice, made, taken, fun busy => by rw [pump, if_pos busy], fun idle => by rw [pump, if_neg (by simp [idle])],
    within.sprayFrame, ⟨within.ponds, within.today, within.previous⟩, within.pile, within.cannon⟩

/-! ## The end of RUNDOWN -/

theorem shut_of_idle (idle : headerBusy s = false) (c : Fin 32) : (s.cannon c).Shut := by
  have free : (s.cannon c).phase.busy = false :=
    Bool.eq_false_of_not_eq_true fun busy => by
      rw [headerBusy, List.any_eq_false] at idle
      exact idle c (List.mem_finRange c) busy
  unfold Cannon.Shut
  cases phase : (s.cannon c).phase <;> simp_all [CannonPhase.busy]

theorem rundownEnds (idle : headerBusy s = false) :
    inEvent pumpStop s = post .source ((s.setPass false).setPump ⟨.off, none, none⟩) := by
  have cannon : ∀ c, (pumpOff (s.setPass false)).cannon c = s.cannon c := fun c => post_cannon _ _ _
  have stopped : pumpStop (s.setPass false) = pumpOff (s.setPass false) :=
    capacityLoss_of_shut fun c => by rw [cannon]; exact shut_of_idle idle c
  have quiet : (pumpOff (s.setPass false)).sd.passDue = false := by
    rw [pumpOff, pumpTo, post_sd]
    rfl
  rw [inEvent_of_quietPass (by rw [stopped]; exact quiet), stopped]
  rfl

/-! ## What the header is -/

theorem couldSpray_iff (c : Fin 32) (s : State) : couldSpray s c = true ↔ (s.cannon c).configured = true ∧
    (s.cannon c).phase = .idle ∧ (s.cannon c).excluded = false ∧ (s.cannon c).driftBlocked = false ∧
    (s.pile (s.cannon c).config.pile).configured = true ∧ (s.mau.mode = .auto ∨ s.mau.mode = .manual) := by
  have sprays : spraysMode s.mau.mode = true ↔ s.mau.mode = .auto ∨ s.mau.mode = .manual := by
    cases s.mau.mode <;> simp [spraysMode]
  simp only [couldSpray, Bool.and_eq_true, decide_eq_true_eq, Bool.not_eq_true', sprays, and_assoc]

theorem eligible_iff (c : Fin 32) (s : State) : eligible s c = true ↔ (s.cannon c).configured = true ∧
    (s.cannon c).phase = .idle ∧ (s.cannon c).excluded = false ∧ (s.cannon c).driftBlocked = false ∧
    (s.pile (s.cannon c).config.pile).configured = true ∧ (s.mau.mode = .auto ∨ s.mau.mode = .manual) ∧
    s.run c = none := by
  rw [eligible, Bool.and_eq_true, couldSpray_iff, Option.isNone_iff_eq_none]
  simp only [and_assoc]

theorem freeToResume_iff (c : Fin 32) (s : State) : freeToResume s c = true ↔ (s.cannon c).configured = true ∧
    (s.cannon c).phase = .idle ∧ (s.cannon c).excluded = false ∧ (s.cannon c).driftBlocked = false ∧
    (s.pile (s.cannon c).config.pile).configured = true ∧ (s.mau.mode = .auto ∨ s.mau.mode = .manual) ∧
    ∃ r ∈ s.run c, r.isSuspended = true := by
  rw [freeToResume, Bool.and_eq_true, couldSpray_iff]
  simp only [and_assoc]
  cases s.run c <;> simp

theorem capacity_eq (s : State) : capacity s =
    if s.wiu.pump.phase = .running ∨ s.wiu.pump.phase = .rundown then
      match s.wiu.pump.source with
      | some (.pond p) => (s.pond p).config.flow
      | some .fresh => s.site.freshRate
      | none => 0
    else 0 := by
  unfold capacity sourceRate
  cases s.wiu.pump.phase <;> cases s.wiu.pump.source with
  | none => rfl
  | some src => cases src <;> rfl

theorem reserves_iff (x : CannonPhase) : x.reserves = true ↔
    x ∈ [CannonPhase.pendingOpen, .opening, .spraying, .closePending, .closing, .stuck] := by cases x <;> decide

theorem busy_iff (x : CannonPhase) : x.busy = true ↔
    x ∈ [CannonPhase.pendingOpen, .opening, .spraying, .closePending, .closing] := by cases x <;> decide

end

/-- Settles O30: both entries to RUNNING are the same event, made of the pass that `passTaken_grantPass` describes. -/
theorem pumpIntervalsEndAsStated : Obligations.PumpIntervalsEndAsStated := by
  refine ⟨fun s priming => ⟨_, ?_, runningEntered s⟩, fun s changeover => ⟨_, ?_, runningEntered s⟩,
    fun s rundown idle => ?_, fun c s => ⟨eligible_iff c s, freeToResume_iff c s⟩, capacity_eq, fun s => ?_, fun s => ?_,
    fun c s => ?_, fun src s => ?_⟩
  · show execPrimingExpiry s = _
    rw [execPrimingExpiry, if_pos priming]
  · show execChangeoverExpiry s = _
    rw [execChangeoverExpiry, if_pos changeover]
  · show execRundownExpiry s = _
    rw [execRundownExpiry, if_pos rundown, rundownEnds idle]
  · simp only [reservedFlow, reserves_iff]
  · simp only [headerBusy, List.any_eq_true, List.mem_finRange, true_and, busy_iff]
  · unfold valveDriven
    cases (s.cannon c).phase <;> decide
  · simp [sourceDriven]

end Sys2Proof.Machine
end

