-- ==== Sys2Proof/Proofs/WetOrders.lean ====
section
/-! ORDER_WET: the judgement of the request, the entry of its order, and the grant pass that follows (R71, R113, R119,
R122, R124 to R129, R159, R184). -/

namespace Sys2Proof.Machine

section
variable {s t u : State}

/-! ## The pump set after an event's pass -/

/-- A start from OFF reads the states that agree on water, cannons and pump set alike (R71). -/
theorem pumpStarted_congr {s' t' : State} (pump : s'.wiu.pump = s.wiu.pump) (site : s'.site = s.site) (alike : Alike t t')
    (selected : selection t' = selection t) : pumpStarted s' t' = pumpStarted s t := by
  have wanted : (∃ c, Wanted t' c) ↔ ∃ c, Wanted t c := by simp only [alike.wanted]
  unfold pumpStarted
  rw [pump, site, selected]
  simp only [wanted]

theorem pump_event_off (flows : FlowsPositive u) (off : u.wiu.pump.phase = .off) (pump : u.wiu.pump = s.wiu.pump)
    (site : u.site = s.site) : ((grantPass u).setPass false).wiu.pump = pumpStarted s ((grantPass u).setPass false) := by
  rw [pumpStarted_congr (s := u) (t := grantPass u) pump.symm site.symm (alike_setPass false _) (selection_setPass false _)]
  exact grantPass_pump_off flows off

theorem grantPass_pau (s : State) : (grantPass s).pau = s.pau := sprayRules_pau.grantPass s

/-- A run that stood before the pass stands after it, resumed or not (R124). -/
theorem PassTaken.run_isSome (taken : PassTaken s t) {c : Fin 32} (h : (s.run c).isSome = true) : (t.run c).isSome = true := by
  obtain ⟨stays, -⟩ := taken
  obtain ⟨r, run⟩ := Option.isSome_iff_exists.1 h
  rcases stays c r run with same | ⟨-, -, resumed⟩
  · rw [same]; rfl
  · rw [resumed]; rfl

theorem PassTaken.entered (taken : PassTaken s t) {c : Fin 32} (free : s.run c = none) : ∀ r ∈ t.run c,
    r.delivered = 0 ∧ r.phase = .active .none none ∧ r.pile = (s.cannon c).config.pile := fun r run => by
  obtain ⟨-, entered, -⟩ := taken
  obtain ⟨-, pile, delivered, phase, -⟩ := entered c free r run
  exact ⟨delivered, phase, pile⟩

/-! ## The entry of the order -/

/-- The order that an accepted ORDER_WET enters (R128, R129). -/
def wetOrder (s : State) (tag : Nat) (p : Fin 24) (volume expiry : Nat) : Order :=
  { tag := tag, kind := .wet, pile := p, volume := volume, duration := 0, delivered := 0,
    countdown := if expiry = 0 then none else some (Config.seconds expiry),
    acceptance := Config.count48 (s.sd.acceptances + 1), acceptedTime := now s, closure := none }

/-- The event of an accepted ORDER_WET: its order is entered, and a pass is made (R124, R129). -/
structure WetEntered (s : State) (k : Nat) (o : Order) (t : State) : Prop where
  orders : t.sd.orders = s.sd.orders.set k (some o)
  acceptances : t.sd.acceptances = o.acceptance
  made : PassMade t
  taken : PassTaken { s with sd := { s.sd with orders := t.sd.orders } } t
  off : ValvesSound s → s.wiu.pump.phase = .off → t.wiu.pump = pumpStarted s t
  waiting : s.wiu.pump.phase = .priming ∨ s.wiu.pump.phase = .changeover → t.wiu.pump = s.wiu.pump
  pau : t.pau = s.pau
  spray : SprayFrame s t
  water : WaterFrame s t
  cannons : CannonsFrame s t

/-- The state that the entry of an order in slot k leaves for the pass (R128, R129). -/
def orderEntered (s : State) (k : Nat) (o : Order) : State :=
  ((s.setAcceptances o.acceptance).setOrder k (some o)).setPass true

theorem wetEntered_pass (s : State) (k : Nat) (o : Order) :
    WetEntered s k o ((grantPass (orderEntered s k o)).setPass false) := by
  have orders : (orderEntered s k o).sd.orders = s.sd.orders.set k (some o) := rfl
  have acceptances : (orderEntered s k o).sd.acceptances = o.acceptance := rfl
  have wiu : (orderEntered s k o).wiu = s.wiu := rfl
  have cc : (orderEntered s k o).cc = s.cc := rfl
  have frame : SprayFrame s (orderEntered s k o) := ⟨rfl, rfl, rfl, rfl, rfl, rfl, rfl, rfl, rfl, rfl, rfl, rfl⟩
  have alike : Alike { s with sd := { s.sd with orders := s.sd.orders.set k (some o) } } (orderEntered s k o) :=
    alike_of_eq rfl rfl rfl rfl rfl rfl rfl rfl rfl
  have sound : ValvesSound s → FlowsPositive (orderEntered s k o) := fun sound => flowsPositive_of_valves sound
  have site : (orderEntered s k o).site = s.site := rfl
  have pau : (orderEntered s k o).pau = s.pau := rfl
  generalize orderEntered s k o = u at *
  have within : Within u ((grantPass u).setPass false) := (within_grantPass u).trans (within_setPass _ false)
  have stands : ((grantPass u).setPass false).sd.orders = s.sd.orders.set k (some o) := (ground_grantPass u).orders.trans orders
  exact {
    orders := stands
    acceptances := within.acceptances.trans acceptances
    made := passMade_event u
    taken := by
      rw [stands]
      exact passTaken_event alike (capacity_congr site.symm wiu.symm)
    off := fun valves off => pump_event_off (sound valves) (by rw [wiu]; exact off) (by rw [wiu]) site
    waiting := fun waits => by
      have pump : ((grantPass u).setPass false).wiu.pump = u.wiu.pump := grantPass_of_waiting (by rw [wiu]; exact waits)
      rw [pump, wiu]
    pau := (grantPass_pau u).trans pau
    spray := SprayFrame.trans frame within.sprayFrame
    water := ⟨within.ponds.trans (by rw [wiu]), within.today.trans (by rw [wiu]), within.previous.trans (by rw [wiu])⟩
    cannons := fun c => (within.cannon c).trans (by rw [State.cannon, cc, ← State.cannon]) }

theorem wetEntered (s : State) (k tag : Nat) (p : Fin 24) (volume expiry : Nat) :
    WetEntered s k (wetOrder s tag p volume expiry) (inEvent (wetStep k tag p volume expiry) s) := by
  have event : wetStep k tag p volume expiry (s.setPass false) = orderEntered s k (wetOrder s tag p volume expiry) := rfl
  rw [inEvent_of_marked event rfl]
  exact wetEntered_pass s k _

theorem WetEntered.order {k : Nat} {o : Order} (h : WetEntered s k o t) (slot : k < s.sd.orders.length) :
    t.order k = some o := by
  rw [State.order, h.orders, List.getElem?_set_self slot]
  rfl

/-- The new order's cannons that are still eligible do not fit the header, while it has volume undelivered (R119, R125). -/
theorem WetEntered.short {k : Nat} {o : Order} (h : WetEntered s k o t) (slot : k < s.sd.orders.length) (wet : o.kind = .wet)
    (opened : o.closure = none) {c : Fin 32} (can : eligible t c = true) (aimed : (t.cannon c).config.pile = o.pile)
    (owed : ∃ y ∈ t.order k, 0 < undelivered t k y) : capacity t < reservedFlow t + (t.cannon c).config.flow := by
  refine h.made c ((wanted_iff t t c).2 ⟨orderTurn t k false c, mem_turnsWaiting.2 (.inl ⟨can, .inl ⟨k, ?_, rfl⟩⟩)⟩)
  obtain ⟨y, hy, positive⟩ := owed
  have same := h.order slot
  rw [Option.mem_def, same] at hy
  obtain rfl := Option.some.inj hy
  exact ⟨_, same, wet, opened, aimed.symm, positive⟩

/-! ## The judgement -/

theorem orderOfTag_isSome {tag : Nat} : (orderOfTag s tag).isSome = true ↔ ∃ y ∈ s.sd.orders, ∃ r ∈ y, r.tag = tag := by
  rw [orderOfTag, List.findIdx?_isSome, List.any_eq_true]
  refine exists_congr fun y => and_congr_right fun _ => ?_
  cases y <;> simp

theorem freeOrderSlot_eq_none (full : ∀ y ∈ s.sd.orders, y.isSome = true) : freeOrderSlot s = none := by
  rw [freeOrderSlot, List.findIdx?_eq_none_iff]
  intro y hy
  cases y with
  | none => cases full none hy
  | some r => rfl

theorem freeOrderSlot_eq_some {k : Nat} (slot : k < s.sd.orders.length) (free : s.order k = none)
    (lower : ∀ j < k, (s.order j).isSome = true) : freeOrderSlot s = some k := by
  have found : ∀ {j} (h : j < s.sd.orders.length), s.order j = s.sd.orders[j] := fun {j} h => by
    rw [State.order, List.getElem?_eq_getElem h]
    rfl
  rw [freeOrderSlot, List.findIdx?_eq_some_iff_getElem]
  refine ⟨slot, by rw [← found slot, free]; rfl, fun j less => ?_⟩
  have some := lower j less
  rw [found (less.trans slot)] at some
  simp [Option.isSome_iff_ne_none.1 some]

section
variable {tag pile volume expiry : Nat}

theorem answerOrderWet_standby (mode : s.mau.mode = .standby) :
    answerOrderWet tag pile volume expiry s = .refused .wrongMode := if_pos mode

theorem answerOrderWet_lockdown (mode : s.mau.mode = .lockdown) :
    answerOrderWet tag pile volume expiry s = .refused .lockdown := by
  rw [answerOrderWet, if_neg (by rw [mode]; simp), if_pos mode]

/-- Where the part may spray, the request is judged by its fields. -/
theorem answerOrderWet_sprays (mode : s.mau.mode = .auto ∨ s.mau.mode = .manual) {p : Fin 24} (volumes : 1 ≤ volume ∧ volume ≤ 10000000)
    (expires : expiry ≤ 86400) : answerOrderWet tag p volume expiry s =
      if (s.pile p).configured = false then .refused .noSuchObject
      else if (s.pile p).hold then .refused .held
      else if (orderOfTag s tag).isSome then .refused .duplicateTag
      else (freeOrderSlot s).elim (.refused .full) fun k => accept (wetStep k tag p volume expiry) (orderBody k) s := by
  rw [answerOrderWet, if_neg (by rcases mode with h | h <;> rw [h] <;> simp),
    if_neg (by rcases mode with h | h <;> rw [h] <;> simp), index?_val]
  simp only
  rw [if_neg (by omega)]
  cases freeOrderSlot s <;> rfl

theorem answerOrderWet_outOfRange (mode : s.mau.mode = .auto ∨ s.mau.mode = .manual)
    (out : 24 ≤ pile ∨ volume = 0 ∨ 10000000 < volume ∨ 86400 < expiry) :
    answerOrderWet tag pile volume expiry s = .refused .outOfRange := by
  rw [answerOrderWet, if_neg (by rcases mode with h | h <;> rw [h] <;> simp),
    if_neg (by rcases mode with h | h <;> rw [h] <;> simp)]
  rcases Nat.lt_or_ge pile 24 with inside | outside
  · rw [show pile = ((⟨pile, inside⟩ : Fin 24) : Nat) from rfl, index?_val]
    simp only
    rw [if_pos (by omega)]
  · rw [index?_of_le outside]

end

end

/-- Settles O50: the order takes its slot, and the event's pass is the one that `passTaken_grantPass` describes. -/
theorem wetOrdersAreJudgedEnteredAndServed : Obligations.WetOrdersAreJudgedEnteredAndServed := by
  refine ⟨fun tag o p v x k s free mode volumes expires configured held tags slot empty lower => ?_,
    fun tag o p v x s free mode => congrArg _ (takeRequest_refused free (answerOrderWet_standby mode)),
    fun tag o p v x s free mode => congrArg _ (takeRequest_refused free (answerOrderWet_lockdown mode)),
    fun tag o p v x s free mode out => congrArg _ (takeRequest_refused free (answerOrderWet_outOfRange mode out)),
    fun tag o p v x s free mode volumes expires unconfigured => congrArg _ (takeRequest_refused free ?_),
    fun tag o p v x s free mode volumes expires configured held => congrArg _ (takeRequest_refused free ?_),
    fun tag o p v x s free mode volumes expires configured held used => congrArg _ (takeRequest_refused free ?_),
    fun tag o p v x s free mode volumes expires configured held tags full => congrArg _ (takeRequest_refused free ?_),
    fun test s => ?_, fun k o s => rfl⟩
  · have unused : ¬ (orderOfTag s o).isSome = true := by
      rw [orderOfTag_isSome]
      exact fun ⟨y, hy, r, hr, same⟩ => tags y hy r hr same
    have accepted : answerOrderWet o p v x s = accept (wetStep k o p v x) (orderBody k) s := by
      rw [answerOrderWet_sprays mode volumes expires, if_neg (by simp [configured]), if_neg (by simp [held]), if_neg unused,
        freeOrderSlot_eq_some slot empty lower, Option.elim_some]
    have entered := wetEntered s k o p v x
    have answer := takeRequest_accepted (kind := 0x20) (tag := tag) free accepted
    rw [orderBody, orderRuns_eq] at answer
    generalize inEvent (wetStep k o p v x) s = t at entered answer
    exact ⟨t, congrArg _ answer, entered.orders, entered.acceptances, fun c h => entered.taken.run_isSome h,
      fun c free => entered.taken.entered free, fun c can aimed owed => entered.short slot rfl rfl can aimed owed,
      entered.made, entered.taken, entered.off, entered.waiting, entered.pau, entered.spray, entered.water, entered.cannons⟩
  · rw [answerOrderWet_sprays mode volumes expires, if_pos unconfigured]
  · rw [answerOrderWet_sprays mode volumes expires, if_neg (by simp [configured]), if_pos held]
  · rw [answerOrderWet_sprays mode volumes expires, if_neg (by simp [configured]), if_neg (by simp [held]),
      if_pos (orderOfTag_isSome.2 used)]
  · have unused : ¬ (orderOfTag s o).isSome = true := by
      rw [orderOfTag_isSome]
      exact fun ⟨y, hy, r, hr, same⟩ => tags y hy r hr same
    rw [answerOrderWet_sprays mode volumes expires, if_neg (by simp [configured]), if_neg (by simp [held]), if_neg unused,
      freeOrderSlot_eq_none full, Option.elim_none]
  · rfl

end Sys2Proof.Machine
end

