-- ==== Sys2Proof/Proofs/CapacityLoss.lean ====
section
/-! SUPPORT. A capacity loss cannon by cannon, and the numbers of the runs that it suspends (R93, R114, R115, R120). -/

namespace Sys2Proof.Machine

/-! ## One cannon -/

section
variable {c : Fin 32} {s : State} {r : Run} {d : Disposition} {n : Option Nat}

theorem setDisposition_run {x : Disposition} (run : s.run c = some r) :
    (setDisposition c x s).run c = some { r with phase := r.phase.dispose x } := by
  rw [setDisposition, updateRun_run, if_pos rfl, run, Option.map_some]

theorem loseCapacityAt_suspends (run : s.run c = some r) (phase : r.phase = .active d n)
    (cannon : (s.cannon c).phase = .pendingOpen ∨ (s.cannon c).phase = .opening ∨ (s.cannon c).phase = .spraying) :
    loseCapacityAt c s = immediateClose c (setDisposition c (.suspend .flow) s) := by
  have active : r.isSuspended = false := by simp [Run.isSuspended, phase]
  unfold loseCapacityAt
  simp only [run, active, Bool.false_eq_true, if_false]
  rcases cannon with h | h | h <;> simp only [h]

theorem loseCapacityAt_ends (run : s.run c = some r) (phase : r.phase = .active d n)
    (cannon : (s.cannon c).phase = .closePending) :
    loseCapacityAt c s = immediateClose c (setDisposition c .ends s) := by
  have active : r.isSuspended = false := by simp [Run.isSuspended, phase]
  unfold loseCapacityAt
  simp only [run, active, Bool.false_eq_true, if_false, cannon]

/-- Before an immediate close the run has taken its disposition, and the cannon's queue entry is gone (R93, R114). -/
def disposed (c : Fin 32) (x : Disposition) (s : State) : State := removeEntry c (setDisposition c x s)

theorem disposed_run {x : Disposition} (run : s.run c = some r) :
    (disposed c x s).run c = some { r with phase := r.phase.dispose x } := setDisposition_run run

theorem disposed_cannon (x : Disposition) (i : Fin 32) : (disposed c x s).cannon i = s.cannon i := setDisposition_cannon c i x s

theorem disposed_count (x : Disposition) : (disposed c x s).sd.suspensions = s.sd.suspensions := updateRun_suspensions c _ s

theorem within_disposed (x : Disposition) : Within s (disposed c x s) :=
  (within_setDisposition s c x).trans (within_removeEntry _ c)

theorem disposed_feedback (x : Disposition) : feedbackOpen (disposed c x s) c = feedbackOpen s c :=
  feedback_of_within (within_disposed x)

/-- An open that waits is withdrawn with its run's disposition (R93, R115). -/
theorem loseCapacityAt_pendingOpen (run : s.run c = some r) (phase : r.phase = .active d n)
    (cannon : (s.cannon c).phase = .pendingOpen) : ((loseCapacityAt c s).cannon c).phase = .idle ∧
      Closes c (lossDisposition .pendingOpen d) r s (loseCapacityAt c s) := by
  have event : loseCapacityAt c s = returnToIdle c (disposed c (.suspend .flow) s) := by
    rw [loseCapacityAt_suspends run phase (.inl cannon)]
    simp only [immediateClose, setDisposition_cannon, cannon, withdrawOpen, disposed]
  have found : (disposed c (.suspend .flow) s).run c = some { r with phase := .active (lossDisposition .pendingOpen d) n } := by
    rw [disposed_run run, phase]
    cases d <;> rfl
  have closes := closes_returnToIdle (by cases d <;> simp [lossDisposition]) found rfl
  rw [event]
  exact ⟨by rw [returnToIdle_cannon], closes.of_counts (disposed_count _) (within_disposed _).site⟩

/-- A valve that moves or sprays is closed with its run's disposition, and confirmed at once over a not-open feedback
(R93, R96, R115). -/
theorem loseCapacityAt_closes (run : s.run c = some r) (phase : r.phase = .active d n) {x : CannonPhase}
    (cannon : (s.cannon c).phase = x) (moves : x = .opening ∨ x = .spraying ∨ x = .closePending) :
    (loseCapacityAt c s).cannon c = (if feedbackOpen s c then
      { s.cannon c with phase := .closing, travel := some (Config.seconds s.site.travel), lostWater := none }
      else { s.cannon c with phase := .idle, travel := none, lostWater := none }) ∧
      Closes c (lossDisposition x d) r s (loseCapacityAt c s) := by
  have event : loseCapacityAt c s = beginClose c (disposed c (if x = .closePending then .ends else .suspend .flow) s) := by
    rcases moves with rfl | rfl | rfl
    · rw [loseCapacityAt_suspends run phase (.inr (.inl cannon))]
      simp only [immediateClose, setDisposition_cannon, cannon, disposed, reduceCtorEq, if_false]
    · rw [loseCapacityAt_suspends run phase (.inr (.inr cannon))]
      simp only [immediateClose, setDisposition_cannon, cannon, disposed, reduceCtorEq, if_false]
    · rw [loseCapacityAt_ends run phase cannon]
      simp only [immediateClose, setDisposition_cannon, cannon, disposed, if_true]
  have found : (disposed c (if x = .closePending then .ends else .suspend .flow) s).run c =
      some { r with phase := .active (lossDisposition x d) n } := by
    rw [disposed_run run, phase]
    rcases moves with rfl | rfl | rfl <;> cases d <;> rfl
  have keeps : lossDisposition x d ≠ .none := by
    unfold lossDisposition
    split <;> simp
  have closes := closes_beginClose keeps found rfl
  rw [event]
  refine ⟨?_, closes.of_counts (disposed_count _) (within_disposed _).site⟩
  rw [beginClose_cannon, disposed_feedback, disposed_cannon, (within_disposed _).site]

end

/-! ## Its account -/

section
variable {c : Fin 32} {g u t : State} {r : Run} {d : Disposition} {n : Option Nat}

/-- What SUSPEND with cause FLOW makes of a live run, with its number (R114, R115). -/
theorem runSuspends_of_closes {x : CannonPhase} {test : Fin 32 → Bool} (open_ : x ≠ .closePending) (run : g.run c = some r)
    (phase : r.phase = .active d n) (closes : Closes c (lossDisposition x d) r u t) (site : u.site = g.site)
    (count : u.sd.suspensions = suspensionsAfter g (countBelow c test)) : RunSuspends .flow test c g t ∧
      t.sd.suspensions = suspensionsAfter g
        (countBelow c test + if carriesLiveRun g c && decide ((t.cannon c).phase = .idle) then 1 else 0) := by
  unfold RunSuspends
  simp only [run, Option.mem_def, Option.some.injEq, forall_eq', phase]
  rw [carriesLiveRun_of_active run phase]
  cases d with
  | ends =>
    have closes : Closes c .ends r u t := by simpa [lossDisposition] using closes
    exact closes.ends count
  | none | suspend y =>
    have closes : Closes c (.suspend .flow) r u t := by simpa [lossDisposition, open_] using closes
    exact closes.suspended (by simp) site count

theorem runEnds_of_closes (run : g.run c = some r) (closes : Closes c .ends r u t) (moves : (t.cannon c).phase ≠ .idle) :
    RunEnds c g t ∧ t.sd.suspensions = u.sd.suspensions := by
  rcases closes with ⟨-, same, stands⟩ | ⟨idle, -⟩
  · refine ⟨fun x hx => ?_, same⟩
    rw [Option.mem_def, run] at hx
    obtain rfl := Option.some.inj hx
    exact stands
  · exact absurd idle moves

theorem suspendedAtOnce_of_phase (h : (g.cannon c).phase ≠ .pendingOpen) (k : (g.cannon c).phase ≠ .opening) :
    suspendedAtOnce g c = false := by
  simp [suspendedAtOnce, h, k]

theorem active_of_open (sound : RunSound g c) (moves : ¬ (g.cannon c).Shut) : ∃ r d n, g.run c = some r ∧ r.phase = .active d n := by
  cases run : g.run c with
  | none =>
    refine absurd ?_ moves
    unfold Cannon.Shut
    simpa only [RunSound, run] using sound
  | some r =>
    cases phase : r.phase with
    | active d n => exact ⟨r, d, n, rfl, phase⟩
    | suspended x m w =>
      have idle : (g.cannon c).phase = .idle := by simpa only [RunSound, run, phase] using sound
      exact absurd (by simp [Cannon.Shut, idle]) moves

/-- What the capacity loss does at one cannon that stands as g has it (R120). -/
structure LossTaken (c : Fin 32) (g t : State) : Prop where
  closed : ClosedAtOnce .flow (suspendedAtOnce g) c g t
  kept : (g.cannon c).phase.busy = false ∨ (g.cannon c).phase = .closing → t.run c = g.run c
  count : t.sd.suspensions = suspensionsAfter g (countBelow (c.val + 1) (suspendedAtOnce g))

theorem lossTaken_at (valve : ValveSound g c) (sound : RunSound g c) (cannon : u.cannon c = g.cannon c)
    (run : u.run c = g.run c) (within : Within g u)
    (count : u.sd.suspensions = suspensionsAfter g (countBelow c.val (suspendedAtOnce g))) :
    LossTaken c g (loseCapacityAt c u) := by
  have feedback : feedbackOpen u c = feedbackOpen g c := feedback_of_within within
  have site := within.site
  have still : ∀ {x}, (g.cannon c).phase = x → (g.cannon c).Shut → (∀ t : State, (t.cannon c).phase = x →
      ClosedAtOnce .flow (suspendedAtOnce g) c g t) → LossTaken c g (loseCapacityAt c u) := fun {x} phase shut closed => by
    rw [loseCapacityAt_of_shut (by rw [cannon]; exact shut)]
    refine ⟨closed u (by rw [cannon, phase]), fun _ => run, ?_⟩
    rw [countBelow_succ, suspendedAtOnce_of_phase shut.1 shut.2.1]
    exact count
  cases phase : (g.cannon c).phase with
  | pendingOpen =>
    obtain ⟨r, d, n, found, active⟩ := active_of_open sound (by simp [Cannon.Shut, phase])
    obtain ⟨idle, closes⟩ := loseCapacityAt_pendingOpen (run.trans found) active (by rw [cannon, phase])
    obtain ⟨suspends, next⟩ := runSuspends_of_closes (by simp) found active closes site count
    refine ⟨?_, fun k => by rw [phase] at k; simp [CannonPhase.busy] at k, ?_⟩
    · simp only [ClosedAtOnce, phase]
      exact ⟨idle, suspends⟩
    · rw [next, countBelow_succ, idle]
      simp [suspendedAtOnce, phase]
  | opening =>
    obtain ⟨r, d, n, found, active⟩ := active_of_open sound (by simp [Cannon.Shut, phase])
    obtain ⟨shut, closes⟩ := loseCapacityAt_closes (run.trans found) active (by rw [cannon, phase]) (.inl rfl)
    obtain ⟨suspends, next⟩ := runSuspends_of_closes (by simp) found active closes site count
    rw [feedback] at shut
    have moved : ((loseCapacityAt c u).cannon c).phase = if feedbackOpen g c then .closing else .idle := by
      rw [shut]
      split <;> rfl
    refine ⟨?_, fun k => by rw [phase] at k; simp [CannonPhase.busy] at k, ?_⟩
    · simp only [ClosedAtOnce, phase]
      exact ⟨moved, suspends⟩
    · rw [next, countBelow_succ, moved]
      cases shown : feedbackOpen g c <;> simp [suspendedAtOnce, phase, shown]
  | spraying =>
    obtain ⟨r, d, n, found, active⟩ := active_of_open sound (by simp [Cannon.Shut, phase])
    have open_ : feedbackOpen g c = true := by
      simp only [ValveSound, phase] at valve
      exact valve.2.2.2
    obtain ⟨shut, closes⟩ := loseCapacityAt_closes (run.trans found) active (by rw [cannon, phase]) (.inr (.inl rfl))
    obtain ⟨suspends, next⟩ := runSuspends_of_closes (by simp) found active closes site count
    rw [feedback, if_pos open_, site] at shut
    refine ⟨?_, fun k => by rw [phase] at k; simp [CannonPhase.busy] at k, ?_⟩
    · simp only [ClosedAtOnce, phase]
      exact ⟨by rw [shut], by rw [shut], suspends⟩
    · rw [next, countBelow_succ, shut]
      simp [suspendedAtOnce, phase]
  | closePending =>
    obtain ⟨r, d, n, found, active⟩ := active_of_open sound (by simp [Cannon.Shut, phase])
    have open_ : feedbackOpen g c = true := by
      simp only [ValveSound, phase] at valve
      exact valve.2.2.2
    obtain ⟨shut, closes⟩ := loseCapacityAt_closes (run.trans found) active (by rw [cannon, phase]) (.inr (.inr rfl))
    rw [feedback, if_pos open_, site] at shut
    obtain ⟨ends, next⟩ := runEnds_of_closes found closes (by rw [shut]; simp)
    refine ⟨?_, fun k => by rw [phase] at k; simp [CannonPhase.busy] at k, ?_⟩
    · simp only [ClosedAtOnce, phase]
      exact ⟨by rw [shut], by rw [shut], ends⟩
    · rw [next, countBelow_succ, count]
      simp [suspendedAtOnce, phase]
  | idle | closing | stuck | faulted | locked =>
    exact still phase (by simp [Cannon.Shut, phase]) fun t same => by simpa only [ClosedAtOnce, phase] using same

/-! ## The sweep -/

/-- The cannons below n have lost the capacity; those from n on are as g has them. -/
structure LossSwept (g : State) (n : Nat) (t : State) : Prop where
  within : Within g t
  later : ∀ i : Fin 32, n ≤ i.val → t.cannon i = g.cannon i ∧ t.run i = g.run i
  count : t.sd.suspensions = suspensionsAfter g (countBelow n (suspendedAtOnce g))
  done : ∀ i : Fin 32, i.val < n → ClosedAtOnce .flow (suspendedAtOnce g) i g t ∧
    ((g.cannon i).phase.busy = false ∨ (g.cannon i).phase = .closing → t.run i = g.run i)

/-- The account of a cannon is read off its own record and run. -/
theorem closedAtOnce_congr {x : SuspendCause} {test : Fin 32 → Bool} (h : ClosedAtOnce x test c g u)
    (cannon : t.cannon c = u.cannon c) (run : t.run c = u.run c) : ClosedAtOnce x test c g t := by
  unfold ClosedAtOnce RunSuspends RunEnds at *
  rw [cannon, run]
  exact h

theorem LossSwept.next (valves : ∀ c, ValveSound g c) (runs : RunsSound g) (c : Fin 32) (h : LossSwept g c.val u) :
    LossSwept g (c.val + 1) (loseCapacityAt c u) := by
  obtain ⟨cannon, run⟩ := h.later c (Nat.le_refl _)
  have apart := apart_loseCapacityAt c u
  have own := lossTaken_at (valves c) (runs c) cannon run h.within h.count
  refine ⟨h.within.trans (within_loseCapacityAt u c), fun i hi => ?_, own.count, fun i hi => ?_⟩
  · have other : i ≠ c := fun e => by rw [e] at hi; omega
    obtain ⟨cannon, run⟩ := h.later i (Nat.le_of_succ_le hi)
    exact ⟨(apart.cannon i other).trans cannon, (apart.run i other).trans run⟩
  · by_cases same : i = c
    · subst same
      exact ⟨own.closed, own.kept⟩
    · obtain ⟨closed, kept⟩ := h.done i (Nat.lt_of_le_of_ne (Nat.le_of_lt_succ hi) fun e => same (Fin.ext e))
      exact ⟨closedAtOnce_congr closed (apart.cannon i same) (apart.run i same), fun k => (apart.run i same).trans (kept k)⟩

theorem capacityLoss_swept (valves : ∀ c, ValveSound g c) (runs : RunsSound g) : LossSwept g 32 (capacityLoss g) := by
  unfold capacityLoss
  refine forCannons_induct (P := LossSwept g) ⟨.refl g, fun _ _ => ⟨rfl, rfl⟩, ?_, fun i hi => absurd hi (Nat.not_lt_zero _)⟩
    fun c t h => h.next valves runs c
  rw [countBelow_zero]
  rfl

/-- Every cannon has lost the capacity (R120). -/
theorem capacityLost_of_sound (valves : ∀ c, ValveSound g c) (runs : RunsSound g) : CapacityLost g (capacityLoss g) := by
  have swept := capacityLoss_swept valves runs
  exact ⟨fun c => swept.done c c.isLt, swept.count⟩

end

end Sys2Proof.Machine
end

