-- ==== Sys2Proof/Proofs/ForcedSwitch.lean ====
section
/-! SUPPORT. An event with a forced switch: the pump set, the capacity loss, and the pass that finds no capacity (R70,
R75, R76, R119, R120). -/

namespace Sys2Proof.Machine

section
variable {s t w : State}

/-! ## The forced switch in an event -/

/-- With the pump set switched, the header has no capacity and the event's pass changes nothing (R75, R119). -/
theorem Switched.grantPass_eq (h : Switched s) (flows : FlowsPositive s) : grantPass s = s := by
  have phase : s.wiu.pump.phase ≠ .running ∧ s.wiu.pump.phase ≠ .rundown := by
    rcases h with h | ⟨h, -⟩ <;> rw [h] <;> simp
  have none := not_granted_of_noCapacity flows (capacity_of_phase phase.1 phase.2)
  rw [grantPass_of_not_granted none, h.startRequest, ite_self, headerIdle_of_not phase.1]

/-- An event that ends with the pump set switched is through. -/
theorem Switched.inEvent {f : State → State} (h : Switched (f (s.setPass false))) (flows : FlowsPositive (f (s.setPass false))) :
    (inEvent f s).cc = (f (s.setPass false)).cc ∧
    (inEvent f s).sd = { (f (s.setPass false)).sd with passDue := false } ∧
    (inEvent f s).wiu = (f (s.setPass false)).wiu := by
  rw [Machine.inEvent]
  simp only
  generalize f (s.setPass false) = t at *
  split
  · rw [h.grantPass_eq flows]
    exact ⟨rfl, rfl, rfl⟩
  · rename_i quiet
    exact ⟨rfl, by rw [← Bool.eq_false_of_not_eq_true quiet], rfl⟩

/-- The event f has switched the pump set from the state w, and nothing but that (R75, R76). -/
structure SwitchMade (w t : State) : Prop where
  cc : t.cc = (forcedSwitch w).cc
  runs : t.sd.runs = (forcedSwitch w).sd.runs
  suspensions : t.sd.suspensions = (forcedSwitch w).sd.suspensions
  pump : t.wiu.pump = pumpSwitched w t
  notice : .source ∈ t.lc.notices

theorem switchMade {f : State → State} (noted : Noted (forcedSwitch w) (f (s.setPass false))) (flows : FlowsPositive w) :
    SwitchMade w (inEvent f s) := by
  have switch := within_forcedSwitch w
  have pump : (f (s.setPass false)).wiu.pump = pumpSwitched w (f (s.setPass false)) := by
    rw [noted.wiu]
    exact forcedSwitch_pump (switch.trans noted.within)
  have whole := switch.trans noted.within
  have same : (f (s.setPass false)).wiu.pump = pumpSwitched (f (s.setPass false)) (f (s.setPass false)) := by
    rw [pump, pumpSwitched, pumpSwitched, whole.mau, whole.site]
  have flows' : FlowsPositive (f (s.setPass false)) := fun c => by
    rw [whole.cannon c]
    exact flows c
  obtain ⟨cc, sd, wiu⟩ := (switched_of_pump same rfl).inEvent flows'
  have notice : .source ∈ (forcedSwitch w).lc.notices := (mem_post _ _ _).2 (.inl rfl)
  have within := inEvent_within s f
  refine ⟨cc.trans noted.cc, by rw [sd, noted.sd], by rw [sd, noted.sd], ?_,
    within.posts.keeps.subset (noted.within.posts.keeps.subset notice)⟩
  rw [wiu, pump, pumpSwitched, pumpSwitched, within.selection]

theorem forcedSwitch_sd (w : State) : (forcedSwitch w).sd = { (giveUpSource w).sd with passDue := (forcedSwitch w).sd.passDue } ∧
    (forcedSwitch w).cc = (giveUpSource w).cc := by
  have noted := noted_forcedSwitch w
  have chosen : (selectAnew (giveUpSource w)).sd = (giveUpSource w).sd ∧ (selectAnew (giveUpSource w)).cc = (giveUpSource w).cc := by
    unfold selectAnew
    repeat' split
    all_goals exact ⟨rfl, rfl⟩
  exact ⟨by rw [noted.sd, chosen.1], noted.cc.trans chosen.2⟩

/-- The account of a capacity loss is read off the cannons, their feedback, the runs and the suspension counter (R120). -/
theorem capacityLost_congr {y u : State} (h : CapacityLost y u) (before : y.cc.cannons = s.cc.cannons) (pins : y.pins = s.pins)
    (runs : y.sd.runs = s.sd.runs) (counter : y.sd.suspensions = s.sd.suspensions) (site : y.site = s.site)
    (cc : t.cc = u.cc) (after : t.sd.runs = u.sd.runs) (count : t.sd.suspensions = u.sd.suspensions) : CapacityLost s t := by
  have cannon : ∀ c, y.cannon c = s.cannon c := fun c => by rw [State.cannon, before, State.cannon]
  have run : ∀ c, y.run c = s.run c := fun c => by rw [State.run, runs, State.run]
  have feedback : ∀ c, feedbackOpen y c = feedbackOpen s c := fun c => by rw [feedbackOpen, pins, feedbackOpen]
  have number : suspensionsAfter y = suspensionsAfter s := funext (suspensionsAfter_of_unchanged counter)
  have test : suspendedAtOnce y = suspendedAtOnce s := funext fun c => by
    simp only [suspendedAtOnce, carriesLiveRun, cannon, run, feedback]
  have shut : ∀ c, t.cannon c = u.cannon c := fun c => by rw [State.cannon, cc, State.cannon]
  have left : ∀ c, t.run c = u.run c := fun c => by rw [State.run, after, State.run]
  obtain ⟨closed, counted⟩ := h
  refine ⟨fun c => ?_, ?_⟩
  · obtain ⟨own, kept⟩ := closed c
    simp only [ClosedAtOnce, RunSuspends, RunEnds, cannon, run, feedback, number, test, site] at own kept
    simp only [ClosedAtOnce, RunSuspends, RunEnds, shut, left]
    exact ⟨own, kept⟩
  · rw [SuspensionsCounted, count, ← number, ← test]
    exact counted

theorem SwitchMade.capacityLost (h : SwitchMade w t) (steady : w.wiu.pump.phase ≠ .changeover) (valves : ∀ c, ValveSound s c)
    (runs : RunsSound s) (cc : w.cc = s.cc) (pins : w.pins = s.pins) (sd : w.sd = { s.sd with passDue := w.sd.passDue })
    (site : w.site = s.site) : CapacityLost s t := by
  obtain ⟨left, shut⟩ := forcedSwitch_sd w
  have given : giveUpSource w = capacityLoss (w.setPump ⟨.off, none, none⟩) := if_neg steady
  have cannon : ∀ c, (w.setPump ⟨.off, none, none⟩).cannon c = s.cannon c := fun c => by
    rw [setPump_cannon, State.cannon, cc, State.cannon]
  have run : ∀ c, (w.setPump ⟨.off, none, none⟩).run c = s.run c := fun c => by
    rw [setPump_run, State.run, sd, State.run]
  have lost := capacityLost_of_sound (g := w.setPump ⟨.off, none, none⟩) (fun c => by
    have queued : queuedMovement (w.setPump ⟨.off, none, none⟩) c = queuedMovement s c :=
      queuedMovement_of_cc (by rw [setPump_cc, cc]) c
    have feedback : feedbackOpen (w.setPump ⟨.off, none, none⟩) c = feedbackOpen s c := by
      rw [feedbackOpen, setPump_pins, pins, feedbackOpen]
    unfold ValveSound
    rw [cannon, queued, feedback]
    exact valves c) (fun c => by
    unfold RunSound
    rw [cannon, run]
    exact runs c)
  rw [← given] at lost
  exact capacityLost_congr lost (by rw [setPump_cc, cc]) (by rw [setPump_pins, pins]) (by rw [setPump_sd, sd])
    (by rw [setPump_sd, sd]) (by rw [setPump_site, site]) (h.cc.trans shut) (h.runs.trans (by rw [left]))
    (h.suspensions.trans (by rw [left]))

/-- A further switch in CHANGEOVER hands no capacity loss (R76). -/
theorem SwitchMade.stands (h : SwitchMade w t) (changing : w.wiu.pump.phase = .changeover) :
    t.sd.runs = w.sd.runs ∧ t.cc = w.cc := by
  obtain ⟨left, shut⟩ := forcedSwitch_sd w
  have given : giveUpSource w = w.setPump ⟨.off, none, none⟩ := if_pos changing
  exact ⟨h.runs.trans (by rw [left, given]; rfl), h.cc.trans (by rw [shut, given]; rfl)⟩

end

end Sys2Proof.Machine
end

