-- ==== Sys2Proof/Proofs/PondReports.lean ====
section
/-! SETTLE_EXPIRY and POND_REPORT: the pond as each leaves it, the start on a pond that has become usable, and the forced
switch from a source that has become unfit (R65, R66, R68, R70, R71, R75, R76, R81, R120). -/

namespace Sys2Proof.Machine

section
variable {s t w : State} {p : Fin 4}

/-! ## A pond that has settled -/

/-- The pond once its settle countdown has come to its end (R65). -/
def Pond.settles (d : Pond) : Pond := { d with settled := true, settleCountdown := none, runoff := 0 }

theorem settle_within (p : Fin 4) (s : State) : Within ((s.setPass false).setPond p (s.pond p).settles) (inEvent (settle p) s) :=
  (noted_waterEvent (fun t => t.setPond p (t.pond p).settles) (s.setPass false)).within.trans (inEvent_within s (settle p))

theorem mem_sources (x : Source) : x ∈ sources := by
  cases x <;> simp [sources]

/-- A source that has become usable brings a pass (R68). -/
theorem passDue_reportUsable {x : Source} (before : usable s x = false) (after : usable t x = true) :
    (reportUsable s t).sd.passDue = true := by
  unfold reportUsable
  rw [if_pos (List.any_eq_true.2 ⟨x, mem_sources x, by simp [before, after]⟩)]
  rfl

theorem fit_settles {x : Source} : fit (s.setPond p (s.pond p).settles) x = fit s x := by
  cases x with
  | fresh => rfl
  | pond q =>
    simp only [fit, setPond_pond]
    split
    · rename_i own
      rw [own]
      rfl
    · rfl

theorem settle_starts (valves : ValvesSound s) (off : s.wiu.pump.phase = .off) (sound : fit s (.pond p) = true)
    (unusable : usable s (.pond p) = false) :
    (inEvent (settle p) s).wiu.pump = pumpStarted s (inEvent (settle p) s) := by
  have noted := noted_waterEvent (fun t => t.setPond p (t.pond p).settles) (s.setPass false)
  have usableNow : usable ((s.setPass false).setPond p (s.pond p).settles) (.pond p) = true := by
    have same : fit ((s.setPass false).setPond p ((s.setPass false).pond p).settles) (.pond p) = true :=
      fit_settles.trans sound
    rw [usable_iff]
    refine ⟨same, fun q own => ?_⟩
    obtain rfl := Source.pond.inj own
    rw [setPond_pond_same]
    rfl
  have marked : (settle p (s.setPass false)).sd.passDue = true := by
    refine passDue_reportUsable (x := .pond p) unusable ?_
    rw [((within_syncAlerts _ _)).usable]
    exact usableNow
  rw [inEvent_of_marked rfl marked]
  have pump : (settle p (s.setPass false)).wiu.pump = s.wiu.pump := by
    show (waterEvent (fun t => t.setPond p (t.pond p).settles) (s.setPass false)).wiu.pump = _
    rw [noted.wiu]
    rfl
  have site : (settle p (s.setPass false)).site = s.site := noted.within.site
  exact pump_event_off ((flowsPositive_of_valves valves).of_cc noted.cc) (by rw [pump]; exact off) pump site

/-! ## A pond that is reported -/

/-- What a POND_REPORT carries, written into the pond (R66). -/
def reported (p : Fin 4) (level : Option Nat) (x y : Option Bool) (s : State) : State :=
  reportQuality p x y (reportLevel p level s)

/-- What the report leaves outside the pond's own record and corrections (R66). -/
structure ReportWritten (p : Fin 4) (level : Option Nat) (x y : Option Bool) (s w : State) : Prop where
  writes : w = { s with wiu := { s.wiu with ponds := w.wiu.ponds, today := w.wiu.today } }
  own : w.pond p = { s.pond p with
    volume := (level.map fun v => min v (s.pond p).config.capacity).getD (s.pond p).volume
    clear := x.getD (s.pond p).clear
    inService := y.getD (s.pond p).inService }
  others : ∀ q, q ≠ p → w.pond q = s.pond q
  today : w.wiu.today = (level.map fun v =>
    correctedDay p ((min v (s.pond p).config.capacity : Nat) - (s.pond p).volume) s.wiu.today).getD s.wiu.today

theorem reportWritten (p : Fin 4) (level : Option Nat) (x y : Option Bool) (s : State) :
    ReportWritten p level x y s (reported p level x y s) := by
  unfold reported reportLevel
  cases level with
  | none =>
    refine ⟨rfl, ?_, fun q other => ?_, rfl⟩
    · rw [reportQuality, setPond_pond_same]
      rfl
    · rw [reportQuality, setPond_pond, if_neg other]
  | some v =>
    refine ⟨rfl, ?_, fun q other => ?_, ?_⟩
    · rw [reportQuality, setPond_pond_same, restateVolume_pond, if_pos rfl]
      rfl
    · rw [reportQuality, setPond_pond, if_neg other, restateVolume_pond, if_neg other]
    · exact restateVolume_today p _ s

section
variable {level : Option Nat} {x y : Option Bool}

theorem ReportWritten.of_setPass {w : State} (h : ReportWritten p level x y (s.setPass false) w) : w.cc = s.cc ∧
    w.pins = s.pins ∧ w.sd = { s.sd with passDue := w.sd.passDue } ∧ w.site = s.site ∧ w.mau = s.mau ∧ w.pau = s.pau ∧
    w.wiu.pump = s.wiu.pump ∧ w.wiu.previous = s.wiu.previous ∧ SprayFrame s w := by
  rw [h.writes]
  exact ⟨rfl, rfl, rfl, rfl, rfl, rfl, rfl, rfl, rfl, rfl, rfl, rfl, rfl, rfl, rfl, rfl, rfl, rfl, rfl, rfl⟩

theorem noted_reportPond (p : Fin 4) (level : Option Nat) (x y : Option Bool) (s : State) :
    Noted (testFitness s (reported p level x y s)) (reportPond p level x y s) :=
  noted_waterEvent (fun t => testFitness t (reported p level x y t)) s

theorem within_reportPond (p : Fin 4) (level : Option Nat) (x y : Option Bool) (s : State) :
    Within (reported p level x y (s.setPass false)) (inEvent (reportPond p level x y) s) :=
  ((within_testFitness _ _).trans (noted_reportPond p level x y _).within).trans (inEvent_within s _)

/-- The test changes nothing, or it has found the active source to be unfit (R75). -/
theorem testFitness_cases (before after : State) : testFitness before after = after ∨
    testFitness before after = forcedSwitch after := by
  unfold testFitness
  repeat' split
  · exact .inr rfl
  · exact .inl rfl
  · exact .inl rfl

theorem testFitness_switches {before after : State} {src : Source} (source : after.wiu.pump.source = some src)
    (on : after.wiu.pump.phase ≠ .off) (sound : fit before src = true) (unfit : fit after src = false) :
    testFitness before after = forcedSwitch after := by
  unfold testFitness
  rw [source]
  exact if_pos ⟨on, sound, unfit⟩

/-- The runs that end in the event have their orders tested (R131). -/
theorem ordersTested_reportPond (p : Fin 4) (level : Option Nat) (x y : Option Bool) (s : State) :
    OrdersTested s (inEvent (reportPond p level x y) s) := by
  have written := reportWritten p level x y (s.setPass false)
  have event := noted_reportPond p level x y (s.setPass false)
  have granted := ordersTraced_granted (granted_inEvent s (reportPond p level x y)) (inEvent_within s _)
  generalize reported p level x y (s.setPass false) = w at written event
  obtain ⟨-, -, sd, -, -, -, -, -, frame⟩ := written.of_setPass
  have first : OrdersTraced s w := by
    refine ordersTraced_frame (by rw [now, frame.2.1, now]) (by rw [sd]) ?_ fun c => by rw [State.run, sd, State.run]
    rw [written.writes]
    exact List.Subset.refl _
  have tested : OrdersTraced w (testFitness (s.setPass false) w) := by
    rcases testFitness_cases (s.setPass false) w with same | switched
    · rw [same]
      exact .refl w
    · rw [switched]
      exact ordersTraced_forcedSwitch w
  exact (((first.trans tested).trans (ordersTraced_noted event)).trans granted).tests

section
variable (source : s.wiu.pump.source = some (.pond p)) (on : s.wiu.pump.phase ≠ .off) (sound : fit s (.pond p) = true)
  (unfit : fit (inEvent (reportPond p level x y) s) (.pond p) = false)
include source on sound unfit

/-- The report has made the active pond unfit: the pump set is switched (R75, R76). -/
theorem reportPond_switches : Noted (forcedSwitch (reported p level x y (s.setPass false)))
    (reportPond p level x y (s.setPass false)) := by
  have written := reportWritten p level x y (s.setPass false)
  have event := noted_reportPond p level x y (s.setPass false)
  rw [(within_reportPond p level x y s).fit] at unfit
  generalize reported p level x y (s.setPass false) = w at *
  obtain ⟨-, -, -, -, -, -, pump, -⟩ := written.of_setPass
  have before : fit (s.setPass false) (.pond p) = true := sound
  rw [testFitness_switches (by rw [pump]; exact source) (by rw [pump]; exact on) before unfit] at event
  exact event

theorem reportPond_leavesSource : (inEvent (reportPond p level x y) s).wiu.pump.source ≠ some (.pond p) := by
  have noted := reportPond_switches source on sound unfit
  have first := forcedSwitch_settled (reported p level x y (s.setPass false))
  have settled := ((noted.within.waterStands noted.wiu).trans (inEvent_waterStands s _)).pump first
  intro same
  by_cases off : (inEvent (reportPond p level x y) s).wiu.pump.phase = .off
  · rw [(settled.off off).1] at same
    cases same
  · obtain ⟨src, active, fits⟩ := settled.source off
    rw [active] at same
    obtain rfl := Option.some.inj same
    rw [unfit] at fits
    cases fits

theorem reportPond_made (valves : ValvesSound s) :
    SwitchMade (reported p level x y (s.setPass false)) (inEvent (reportPond p level x y) s) ∧
    (inEvent (reportPond p level x y) s).wiu.pump = pumpSwitched s (inEvent (reportPond p level x y) s) := by
  have noted := reportPond_switches source on sound unfit
  obtain ⟨cc, -, -, site, mau, -⟩ := (reportWritten p level x y (s.setPass false)).of_setPass
  have made := switchMade noted ((flowsPositive_of_valves valves).of_cc cc)
  refine ⟨made, ?_⟩
  rw [made.pump, pumpSwitched, pumpSwitched, mau, site]

theorem reportPond_loses (valves : ValvesSound s) (runs : RunsSound s) (steady : s.wiu.pump.phase ≠ .changeover) :
    CapacityLost s (inEvent (reportPond p level x y) s) := by
  obtain ⟨made, -⟩ := reportPond_made source on sound unfit valves
  obtain ⟨cc, pins, sd, site, -, -, pump, -⟩ := (reportWritten p level x y (s.setPass false)).of_setPass
  exact made.capacityLost (by rw [pump]; exact steady) valves.1 runs cc pins sd site

theorem reportPond_stands (valves : ValvesSound s) (changing : s.wiu.pump.phase = .changeover) :
    (inEvent (reportPond p level x y) s).sd.runs = s.sd.runs ∧ (inEvent (reportPond p level x y) s).cc = s.cc := by
  obtain ⟨made, -⟩ := reportPond_made source on sound unfit valves
  obtain ⟨cc, -, sd, -, -, -, pump, -⟩ := (reportWritten p level x y (s.setPass false)).of_setPass
  obtain ⟨runs, stands⟩ := made.stands (by rw [pump]; exact changing)
  exact ⟨runs.trans (by rw [sd]), stands.trans cc⟩

end

end

/-! ## What a report leaves -/

/-- The level that a report carries (R66). -/
def levelOf (level : Nat) : Option Nat := if level = 0xFFFFFFFF then none else some level

theorem reportPond_frame (p : Fin 4) (level : Nat) (x y : Option Bool) (s : State) :
    (inEvent (reportPond p (levelOf level) x y) s).pond p = { s.pond p with
      volume := if level = 0xFFFFFFFF then (s.pond p).volume else min level (s.pond p).config.capacity
      clear := x.getD (s.pond p).clear
      inService := y.getD (s.pond p).inService } ∧
    (∀ q, q ≠ p → (inEvent (reportPond p (levelOf level) x y) s).pond q = s.pond q) ∧
    (inEvent (reportPond p (levelOf level) x y) s).wiu.today = { s.wiu.today with
      ponds := if level = 0xFFFFFFFF then s.wiu.today.ponds
        else s.wiu.today.ponds.set p { s.wiu.today.ponds.get p with
          corrections := Config.signed48 ((s.wiu.today.ponds.get p).corrections +
            ((((inEvent (reportPond p (levelOf level) x y) s).pond p).volume : Int) - (s.pond p).volume)) } } ∧
    (inEvent (reportPond p (levelOf level) x y) s).wiu.previous = s.wiu.previous ∧
    SprayFrame s (inEvent (reportPond p (levelOf level) x y) s) ∧
    PilesFrame s (inEvent (reportPond p (levelOf level) x y) s) ∧
    CannonsFrame s (inEvent (reportPond p (levelOf level) x y) s) := by
  have within := within_reportPond p (levelOf level) x y s
  have written := reportWritten p (levelOf level) x y (s.setPass false)
  generalize inEvent (reportPond p (levelOf level) x y) s = t at *
  generalize reported p (levelOf level) x y (s.setPass false) = w at *
  obtain ⟨cc, -, -, -, -, pau, -, previous, frame⟩ := written.of_setPass
  have own : t.pond p = _ := (within.pond p).trans written.own
  refine ⟨?_, fun q other => (within.pond q).trans (written.others q other), ?_, within.previous.trans previous,
    frame.trans within.sprayFrame, fun q => (within.pile q).trans (by rw [State.pile, pau, ← State.pile]),
    fun c => (within.cannon c).trans (by rw [State.cannon, cc, ← State.cannon])⟩
  · rw [own]
    unfold levelOf
    split <;> rfl
  · rw [own, within.today, written.today]
    unfold levelOf
    split <;> rfl

theorem usableWater_eq (s : State) : usableWater s =
    ((List.finRange 4).map fun p =>
      if (s.pond p).configured = true ∧ (s.pond p).clear = true ∧ (s.pond p).inService = true then
        (s.pond p).volume - (s.pond p).config.floor
      else 0).sum +
    if s.site.freshRate = 0 then 0 else s.site.freshAllocation - s.wiu.today.fresh := by
  have pond : pondWater s = fun p =>
      if (s.pond p).configured = true ∧ (s.pond p).clear = true ∧ (s.pond p).inService = true then
        (s.pond p).volume - (s.pond p).config.floor
      else 0 := funext fun p => by simp only [pondWater, Bool.and_eq_true, and_assoc]
  rw [usableWater, pond]
  congr 1
  by_cases rate : s.site.freshRate = 0
  · rw [if_pos rate, if_neg (by omega)]
  · rw [if_neg rate, if_pos (by omega), freshUsed]

/-! ## The judgement -/

theorem observed?_isSome {q : Nat} (h : q = 0 ∨ q = 1 ∨ q = 0xFF) (b : Bool) : ∃ x, observed? q = some x ∧
    x.getD b = if q = 0xFF then b else decide (q = 0) := by
  rcases h with rfl | rfl | rfl
  · exact ⟨some true, rfl, rfl⟩
  · exact ⟨some false, rfl, rfl⟩
  · exact ⟨none, rfl, rfl⟩

theorem observed?_none {q : Nat} (two : 2 ≤ q) (absent : q ≠ 0xFF) : observed? q = none := by
  unfold observed?
  split <;> first | rfl | omega

theorem answerPondReport_outOfRange {i l q v : Nat} (h : 4 ≤ i ∨ (2 ≤ q ∧ q ≠ 0xFF) ∨ (2 ≤ v ∧ v ≠ 0xFF)) :
    answerPondReport i l q v s = .refused .outOfRange := by
  unfold answerPondReport
  rcases h with out | ⟨two, absent⟩ | ⟨two, absent⟩
  · rw [index?_of_le out]
  · rw [observed?_none two absent]
    split <;> simp_all
  · rw [observed?_none two absent]
    split <;> simp_all

theorem answerPondReport_configured {l q v : Nat} {x y : Option Bool} (hx : observed? q = some x) (hy : observed? v = some y)
    (configured : (s.pond p).configured = true) :
    answerPondReport p l q v s = accept (reportPond p (levelOf l) x y) (pondReportBody p) s := by
  unfold answerPondReport
  rw [index?_val, hx, hy]
  simp only
  rw [if_neg (by simp [configured])]
  rfl

theorem answerPondReport_unconfigured {l q v : Nat} {x y : Option Bool} (hx : observed? q = some x) (hy : observed? v = some y)
    (unconfigured : (s.pond p).configured = false) : answerPondReport p l q v s = .refused .noSuchObject := by
  unfold answerPondReport
  rw [index?_val, hx, hy]
  exact if_pos unconfigured

end

/-- Settles O31: a settled pond that has become usable brings the pass that starts the pump set, and a report that makes
the active pond unfit the forced switch, after which the header has no capacity for the pass. -/
theorem pondSettlesAndIsReported : Obligations.PondSettlesAndIsReported := by
  refine ⟨fun p s runs => ?_, fun tag p level q v s free configured quality service => ?_,
    fun tag i l q v s free out => congrArg _ (takeRequest_refused free (answerPondReport_outOfRange out)),
    fun tag p l q v s free unconfigured quality service => ?_, fun src s => ⟨fit_iff s src, usable_iff s src⟩,
    selection_spec, fun s => ?_, fun s => rfl, fun s => noUsableSource_iff⟩
  · have within := settle_within p s
    refine ⟨inEvent (settle p) s, ?_, settle_starts, ?_, fun q other => ?_, within.today, within.previous,
      within.sprayFrame, within.pile, within.cannon⟩
    · show execSettleExpiry p s = _
      rw [execSettleExpiry, if_neg runs]
    · rw [within.pond, setPond_pond_same]
      rfl
    · rw [within.pond, setPond_pond, if_neg other]
      rfl
  · obtain ⟨x, hx, clear⟩ := observed?_isSome quality (s.pond p).clear
    obtain ⟨y, hy, inService⟩ := observed?_isSome service (s.pond p).inService
    have answer := takeRequest_accepted (kind := 0x13) (tag := tag) free
      (answerPondReport_configured (l := level) hx hy configured)
    obtain ⟨own, others, today, previous, spray, piles, cannons⟩ := reportPond_frame p level x y s
    rw [clear, inService] at own
    exact ⟨_, congrArg _ answer, own, others, today, previous, reportPond_leavesSource,
      fun valves runs source sound unfit phase =>
        have on : s.wiu.pump.phase ≠ .off := by rcases phase with h | h | h <;> rw [h] <;> simp
        have steady : s.wiu.pump.phase ≠ .changeover := by rcases phase with h | h | h <;> rw [h] <;> simp
        have made := reportPond_made source on sound unfit valves
        ⟨made.2, reportPond_loses source on sound unfit valves runs steady, made.1.notice⟩,
      fun valves source sound unfit changing _ =>
        have on : s.wiu.pump.phase ≠ .off := by rw [changing]; simp
        have made := reportPond_made source on sound unfit valves
        have stands := reportPond_stands source on sound unfit valves changing
        ⟨made.2, stands.1, stands.2, made.1.notice⟩,
      ordersTested_reportPond p (levelOf level) x y s, spray, piles, cannons⟩
  · obtain ⟨x, hx, -⟩ := observed?_isSome quality true
    obtain ⟨y, hy, -⟩ := observed?_isSome service true
    exact congrArg _ (takeRequest_refused free (answerPondReport_unconfigured hx hy unconfigured))
  · exact usableWater_eq s

end Sys2Proof.Machine
end

