-- ==== Sys2Proof/Proofs/SprayModes.lean ====
section
/-! SUPPORT. The entry to AUTO and MANUAL: the AUTO runs that a change to MANUAL ends, the pass, and the pump set (R71,
R115, R122, R124 to R126, R135, R154). -/

namespace Sys2Proof.Machine

section
variable {m : Mode} {x : Cause} {s t u : State}

/-- What the entry to AUTO or MANUAL leaves for the pass of its event (R135, R154). -/
structure SprayEntered (s u : State) : Prop where
  orders : u.sd.orders = s.sd.orders
  marked : u.sd.passDue = true
  pau : u.pau = s.pau
  pump : s.wiu.pump.phase ≠ .running → u.wiu.pump = s.wiu.pump
  runs : ∀ c, ∀ r ∈ s.run c, s.mau.mode ≠ .auto ∨ r.origin ≠ .auto → u.run c = some r
  ends : s.mau.mode = .auto → ∀ c, ∀ r ∈ u.run c, r.origin = .auto → ∃ n, r.phase = .active .ends n
  decided : s.mau.mode = .auto → ValvesSound s → RunsSound s → ∀ c, ∀ r ∈ s.run c, r.origin = .auto → EndDecided c r s u

/-! ## The state that the pass finds -/

/-- The change of mode with the orders put aside (R154). -/
def ordersAside (s : State) (m : Mode) (x : Cause) : State := (modeEntered s m x).setOrders []

theorem ordersAside_eq (s : State) (m : Mode) (x : Cause) : ordersAside s m x =
    ((s.setMode m (some x)).setNotices (modeEntered s m x).lc.notices).setOrders [] := by
  rw [ordersAside, ← modeEntered_eq]

/-- An entry to AUTO or MANUAL is what the dispatcher makes of it, and the pass that is owed (R135). -/
theorem enterMode_sprays (s : State) (f : State → State) (spray : m = .auto ∨ m = .manual)
    (dispatched : ∀ t, dispatcherOnMode s.mau.mode m t = markPass (f t)) : enterMode m x s =
      syncAlert .noWater ((markPass (f (ordersAside s m x))).setOrders (modeEntered s m x).sd.orders) := by
  rw [enterMode_eq]
  have cannons : cannonsOnMode m = id := by rcases spray with rfl | rfl <;> rfl
  have orders : ∀ t, ordersOnMode m t = t := by rcases spray with rfl | rfl <;> exact fun _ => rfl
  have pump : ∀ t, pumpOnMode m t = t := by
    rcases spray with rfl | rfl <;> exact fun t => by unfold pumpOnMode; cases t.wiu.pump.phase <;> rfl
  rw [pump, orders, sparingOrders, cannons]
  simp only [id, dispatched]
  rfl

theorem beside_ordersAside (s : State) (m : Mode) (x : Cause) (c : Fin 32) : Beside c s (ordersAside s m x) := by
  rw [ordersAside_eq]
  exact ⟨rfl, rfl, rfl, id, rfl⟩

theorem beside_entered (c : Fin 32) (y : List (Option Order)) (v : State) :
    Beside c v (syncAlert .noWater ((markPass v).setOrders y)) := by
  have marked : Beside c v ((markPass v).setOrders y) := ⟨rfl, rfl, rfl, id, rfl⟩
  exact marked.trans ((noted_syncAlert .noWater _).beside c)

theorem modeEntered_orders (s : State) (m : Mode) (x : Cause) : (modeEntered s m x).sd.orders = s.sd.orders := by
  rw [modeEntered_eq]
  rfl

/-- The entry from a mode other than AUTO, and that to AUTO, touch no run (R135). -/
theorem sprayEntered_of_notAuto (spray : m = .auto ∨ m = .manual) (before : s.mau.mode ≠ .auto) :
    SprayEntered s (enterMode m x s) ∧ (enterMode m x s).cc = s.cc ∧
      (enterMode m x s).sd = { s.sd with passDue := true } ∧ (enterMode m x s).wiu = s.wiu := by
  have dispatched : ∀ t, dispatcherOnMode s.mau.mode m t = markPass (id t) := fun t => by
    rcases spray with rfl | rfl
    · rfl
    · simp only [dispatcherOnMode, if_neg before]
      rfl
  have entered := enterMode_sprays (x := x) s id spray dispatched
  have noted := noted_syncAlert .noWater ((markPass (id (ordersAside s m x))).setOrders (modeEntered s m x).sd.orders)
  have pau := syncAlert_pau ((markPass (id (ordersAside s m x))).setOrders (modeEntered s m x).sd.orders) .noWater
  have sd := syncAlert_sd ((markPass (id (ordersAside s m x))).setOrders (modeEntered s m x).sd.orders) .noWater
  rw [← entered] at noted pau sd
  rw [modeEntered_orders, ordersAside_eq] at noted pau sd
  refine ⟨⟨by rw [sd]; rfl, by rw [sd]; rfl, by rw [pau]; rfl, fun _ => by rw [noted.wiu]; rfl, fun c r run _ => ?_,
    fun auto => absurd auto before, fun auto => absurd auto before⟩, noted.cc, sd, noted.wiu⟩
  rw [noted.run]
  exact run

/-- The AUTO runs are ended between v and w, and every other cannon stands (R135). -/
theorem sprayEntered_of_ended {v w : State} (first : ∀ c, Beside c s v) (aside : v.pau = s.pau ∧ v.wiu = s.wiu)
    (kept : CloseKeeps v w) (pau : w.pau = v.pau)
    (decided : ∀ c, (∀ r ∈ v.run c, decide (r.origin = .auto) = true → Ended c r v w) ∧
      ((∀ r ∈ v.run c, decide (r.origin = .auto) = false) → Beside c v w))
    (entered : u = syncAlert .noWater ((markPass w).setOrders s.sd.orders)) (before : s.mau.mode = .auto) :
    SprayEntered s u := by
  have after := fun c => beside_entered c s.sd.orders w
  have uPau := syncAlert_pau ((markPass w).setOrders s.sd.orders) .noWater
  have uSd := syncAlert_sd ((markPass w).setOrders s.sd.orders) .noWater
  have uWiu := syncAlert_wiu ((markPass w).setOrders s.sd.orders) .noWater
  rw [← entered] at after uPau uSd uWiu
  have ended : ∀ c, ∀ r ∈ s.run c, r.origin = .auto → Ended c r s u := fun c r run auto =>
    (((decided c).1 r (by rw [(first c).run]; exact run) (decide_eq_true auto)).of_beside (first c)).beside (after c)
  have stood : ∀ c, (∀ r ∈ s.run c, r.origin ≠ .auto) → u.run c = s.run c := fun c other =>
    ((after c).run.trans ((decided c).2 fun r run => decide_eq_false (other r (by rw [← (first c).run]; exact run))).run).trans
      (first c).run
  refine ⟨by rw [uSd]; rfl, by rw [uSd]; rfl, (uPau.trans pau).trans aside.1, fun idle => ?_, fun c r run other => ?_,
    fun _ c r run auto => ?_, fun _ valves runs c r run auto => (ended c r run auto).decided (valves.1 c) (runs c)⟩
  · rw [uWiu]
    exact (kept.pump (by rw [aside.2]; exact idle)).trans (by rw [aside.2])
  · rw [stood c fun y hy => ?_]
    · exact run
    · obtain rfl := Option.mem_unique hy run
      exact other.resolve_left fun no => no before
  · cases found : s.run c with
    | none =>
      rw [stood c (fun y hy => by rw [found] at hy; cases hy), found] at run
      cases run
    | some y =>
      by_cases mine : y.origin = .auto
      · obtain ⟨n, same⟩ := (ended c y found mine).ends r run
        exact ⟨n, by rw [same]⟩
      · rw [stood c fun z hz => Option.mem_unique hz found ▸ mine, found] at run
        obtain rfl := Option.some.inj run
        exact absurd auto mine

/-- The entry to MANUAL from AUTO ends the AUTO runs (R135). -/
theorem sprayEntered_of_auto (before : s.mau.mode = .auto) : SprayEntered s (enterMode .manual x s) := by
  have dispatched : ∀ t, dispatcherOnMode s.mau.mode .manual t = markPass (decideEnds (fun r => r.origin = .auto) t) :=
    fun t => by simp only [dispatcherOnMode, if_pos before]
  have entered := enterMode_sprays (x := x) s _ (.inr rfl) dispatched
  rw [modeEntered_orders] at entered
  have aside : (ordersAside s .manual x).pau = s.pau ∧ (ordersAside s .manual x).wiu = s.wiu := by
    rw [ordersAside_eq]
    exact ⟨rfl, rfl⟩
  exact sprayEntered_of_ended (beside_ordersAside s .manual x) aside
    (closeKeeps_endWhere (ordersAside s .manual x) fun _ r => r.origin = .auto)
    (sprayRules_pau.decideEnds (ordersAside s .manual x) fun r => r.origin = .auto)
    (fun c => endWhere_at (fun _ r => r.origin = .auto) c (ordersAside s .manual x)) entered before

end

end Sys2Proof.Machine
end

