-- ==== Sys2Proof/Proofs/SprayEntry.lean ====
section
/-! SUPPORT. The event of an accepted MODE to AUTO or MANUAL: what its pass leaves of the runs and the pump set (R71, R73,
R122, R124 to R126, R135, R154, R155). -/

namespace Sys2Proof.Machine

section
variable {m : Mode} {s t u : State}

/-- The event of an accepted MODE to another mode is its entry (R154, R155). -/
theorem modeStep_enters (other : m ≠ s.mau.mode) : modeStep m (s.setPass false) = enterMode m .request (s.setPass false) :=
  if_neg other

theorem modeFrame_request (other : m ≠ s.mau.mode) : ModeFrame m .request s (inEvent (modeStep m) s) :=
  have frame := modeFrame_inEvent s (modeStep_enters other)
  { mode := frame.mode, cause := frame.cause, split := frame.split, notice := frame.notice, noWater := frame.noWater,
    water := frame.water, piles := frame.piles, cannons := frame.cannons, yc := frame.yc, wfe := frame.wfe, ft := frame.ft,
    bwu := frame.bwu, site := frame.site, pins := frame.pins }

/-- The event with its pass, for an entry u. -/
structure SprayEvent (m : Mode) (s u t : State) : Prop where
  entered : SprayEntered s u
  within : Within (modeEntered (s.setPass false) m .request) u
  pass : t = (grantPass u).setPass false
  opened : Opened (Demanding u) u t
  granted : Granted u t

theorem sprayEvent (other : m ≠ s.mau.mode) (entered : SprayEntered (s.setPass false) (enterMode m .request (s.setPass false))) :
    SprayEvent m s (enterMode m .request (s.setPass false)) (inEvent (modeStep m) s) := by
  have event := modeStep_enters other
  have beside : ∀ c, Beside c s (s.setPass false) := fun c => ⟨rfl, rfl, rfl, id, rfl⟩
  refine ⟨?_, within_enterMode (s.setPass false) m .request, inEvent_of_marked event entered.marked, ?_, ?_⟩
  · exact ⟨entered.orders, entered.marked, entered.pau, entered.pump, entered.runs, entered.ends,
      fun auto valves runs c r run origin => (entered.decided auto valves runs c r run origin).of_beside (beside c)⟩
  · rw [← event]
    exact opened_inEvent (modeStep m) s
  · rw [← event]
    exact granted_inEvent s (modeStep m)

section
variable (h : SprayEvent m s u t)
include h

theorem SprayEvent.mode : u.mau.mode = m ∧ u.site = s.site ∧ u.wiu.ponds = s.wiu.ponds ∧ u.wiu.today = s.wiu.today ∧
    ∀ c, (u.cannon c).configured = (s.cannon c).configured ∧ (u.cannon c).config = (s.cannon c).config := by
  have within := h.within
  rw [modeEntered_eq] at within
  exact ⟨by rw [within.mau]; rfl, within.site, within.ponds, within.today, fun c => by rw [within.cannon c]; exact ⟨rfl, rfl⟩⟩

theorem SprayEvent.flows (valves : ValvesSound s) : FlowsPositive u := fun c => by
  obtain ⟨-, -, -, -, cannon⟩ := h.mode
  rw [(cannon c).1, (cannon c).2]
  exact flowsPositive_of_valves valves c

theorem SprayEvent.orders : t.sd.orders = s.sd.orders := by
  rw [h.pass]
  exact (ground_grantPass u).orders.trans h.entered.orders

theorem SprayEvent.pau : t.pau = s.pau := by
  rw [h.pass]
  exact (grantPass_pau u).trans h.entered.pau

theorem SprayEvent.made : PassMade t := by
  rw [h.pass]
  exact passMade_event u

theorem SprayEvent.taken : PassTaken u t := by
  rw [h.pass]
  exact passTaken_event (.refl u) rfl

theorem SprayEvent.goesOn {c : Fin 32} {r : Run} (run : u.run c = some r) : RunGoesOn c r t := by
  obtain ⟨stays, -⟩ := h.taken
  rcases stays c r run with same | ⟨free, -, resumed⟩
  · exact .inl same
  · exact .inr ⟨suspended_of_free free run, resumed⟩

/-- After a change from AUTO every AUTO run has END: a pass in MANUAL enters none, and resumes none that has (R126, R135). -/
theorem SprayEvent.autoEnds (before : s.mau.mode = .auto) (manual : m ≠ .auto) {c : Fin 32} {r : Run} (run : r ∈ t.run c)
    (auto : r.origin = .auto) : ∃ n, r.phase = .active .ends n := by
  obtain ⟨stays, entered, -⟩ := h.taken
  cases found : u.run c with
  | none =>
    obtain ⟨-, -, -, -, -, wants⟩ := entered c found r run
    rw [auto] at wants
    obtain ⟨-, wants, -⟩ := wants
    exact absurd (h.mode.1.symm.trans wants.1) manual
  | some y =>
    rcases stays c y found with same | ⟨free, -, resumed⟩
    · obtain rfl := Option.mem_unique run same
      exact h.entered.ends before c r found auto
    · obtain rfl := Option.mem_unique run resumed
      obtain ⟨n, ends⟩ := h.entered.ends before c y found auto
      have suspended := suspended_of_free free found
      simp [Run.isSuspended, ends] at suspended

theorem SprayEvent.endDecided (before : s.mau.mode = .auto) (valves : ValvesSound s) (runs : RunsSound s) {c : Fin 32} {r : Run}
    (run : r ∈ s.run c) (auto : r.origin = .auto) : EndDecided c r s t :=
  (h.entered.decided before valves runs c r run auto).opened h.opened h.granted

theorem SprayEvent.pump_off (valves : ValvesSound s) (off : s.wiu.pump.phase = .off) : t.wiu.pump = pumpStarted s t := by
  have pump := h.entered.pump (by rw [off]; simp)
  rw [h.pass]
  exact pump_event_off (h.flows valves) (by rw [pump]; exact off) pump h.mode.2.1

theorem SprayEvent.pump_waiting (waits : s.wiu.pump.phase = .priming ∨ s.wiu.pump.phase = .changeover) :
    t.wiu.pump = s.wiu.pump := by
  have pump := h.entered.pump (by rcases waits with h | h <;> rw [h] <;> simp)
  have stands : ((grantPass u).setPass false).wiu.pump = u.wiu.pump := grantPass_of_waiting (by rw [pump]; exact waits)
  rw [h.pass, stands, pump]

end

/-! ## From a mode other than AUTO -/

section
variable (h : SprayEvent m s u t) (cc : u.cc = s.cc) (sd : u.sd = { s.sd with passDue := true }) (wiu : u.wiu = s.wiu)
include h cc sd wiu

theorem SprayEvent.alike : Alike (s.setMode m (some .request)) u := by
  obtain ⟨mode, site, -⟩ := h.mode
  exact alike_of_eq site mode h.entered.pau (by rw [cc]; rfl) (by rw [sd]; rfl) (by rw [sd]; rfl) (by rw [sd]; rfl)
    (by rw [wiu]; rfl) (by rw [wiu]; rfl)

theorem SprayEvent.taken_request : PassTaken (s.setMode m (some .request)) t := by
  rw [h.pass]
  exact passTaken_event (h.alike cc sd wiu)
    (capacity_congr (s := u) (t := s.setMode m (some .request)) h.mode.2.1.symm wiu.symm)

omit cc sd in
theorem SprayEvent.pump_running (running : s.wiu.pump.phase = .running) :
    t.wiu.pump = if headerBusy t = true then s.wiu.pump else pumpIdle s t := by
  have pump := grantPass_pump_running (s := u) (by rw [wiu]; exact running)
  rw [h.pass, headerBusy_setPass, setPass_wiu, pump, pumpIdle, pumpIdle, selection_setPass, wiu, h.mode.2.1]

theorem SprayEvent.pump_rundown (rundown : s.wiu.pump.phase = .rundown) : t.wiu.pump =
    if ∃ c, turnTaken s t c ≠ none then ⟨.running, s.wiu.pump.source, none⟩ else s.wiu.pump := by
  have pump := grantPass_pump_rundown (s := u) (by rw [wiu]; exact rundown)
  have turn : ∀ c, turnTaken u (grantPass u) c = turnTaken s ((grantPass u).setPass false) c := fun c =>
    ((h.alike cc sd wiu).turnTaken (alike_setPass false (grantPass u)).symm c).trans rfl
  simp only [turn] at pump
  rw [h.pass, setPass_wiu, pump, wiu]

end

end

end Sys2Proof.Machine
end

