-- ==== Sys2Proof/Proofs/ClosedOrders.lean ====
section
/-! SUPPORT. The closing of every OPEN order once the runs have END: the runs are detached, the closures written and
announced, and the hold flags recomputed (R130, R133, R135). -/

namespace Sys2Proof.Machine

section
variable {c : Fin 32} {k n : Nat} {r : Run} {m : Option Nat} {s t u : State}

/-! ## A cannon whose end is decided -/

/-- No open waits at the cannon, and its run, if it has one, has END with its close requested or under way. -/
structure Spent (c : Fin 32) (s : State) : Prop where
  waits : (s.cannon c).phase ≠ .pendingOpen
  ends : ∀ r ∈ s.run c, ∃ n, r.phase = .active .ends n
  closes : ∀ r ∈ s.run c, (s.cannon c).phase ≠ .spraying ∧ ((s.cannon c).phase = .opening → queuedMovement s c ≠ none)

theorem Spent.beside (h : Spent c s) (k : Beside c s t) : Spent c t :=
  ⟨by rw [k.cannon]; exact h.waits, by rw [k.run]; exact h.ends, by rw [k.run, k.cannon, k.queued]; exact h.closes⟩

theorem spent_of_noRun (waits : (s.cannon c).phase ≠ .pendingOpen) (none : s.run c = none) : Spent c s := by
  have absent : ∀ {p : Run → Prop}, ∀ r ∈ s.run c, p r := fun r found => by
    rw [none] at found
    cases found
  exact ⟨waits, absent, absent⟩

theorem Spent.queuedClose_eq (h : Spent c s) (run : s.run c = some r) : queuedClose c s = s := by
  obtain ⟨spraying, waits⟩ := h.closes r run
  unfold queuedClose
  split
  · exact absurd ‹_› h.waits
  · exact if_neg (waits ‹_›)
  · exact absurd ‹_› spraying
  · rfl

theorem spent_of_shut (ends : ∀ r ∈ s.run c, ∃ n, r.phase = .active .ends n) (shut : (s.cannon c).Shut) : Spent c s :=
  have ⟨pending, opening, spraying, _⟩ := shut
  ⟨pending, ends, fun _ _ => ⟨spraying, fun moves => absurd moves opening⟩⟩

/-- A close that has been issued is under way, or confirmed (R92, R96). -/
theorem spent_of_issued {b : Bool} {p q : Prop} (ends : ∀ r ∈ s.run c, ∃ n, r.phase = .active .ends n)
    (issued : if b = true then (s.cannon c).phase = .closing ∧ p else (s.cannon c).phase = .idle ∧ q) : Spent c s := by
  refine spent_of_shut ends ?_
  cases b
  · simp [Cannon.Shut, issued.1]
  · simp [Cannon.Shut, issued.1]

/-- A close queued over a run that has END leaves nothing to ask for (R91). -/
theorem spent_queuedClose (run : RunEnding c r m s) (waits : (s.cannon c).phase ≠ .pendingOpen) :
    Spent c (queuedClose c s) := by
  have ends : ∀ y ∈ (queuedClose c s).run c, ∃ n, y.phase = .active .ends n := fun y hy => by
    obtain ⟨n, same⟩ := run_queuedClose run y hy
    exact ⟨n, by rw [same]⟩
  cases phase : (s.cannon c).phase with
  | pendingOpen => exact absurd phase waits
  | opening =>
    by_cases queued : queuedMovement s c = none
    · have event : queuedClose c s = enqueue c .closes s := by simp only [queuedClose, phase, if_pos queued]
      rw [event] at ends ⊢
      rcases ending_enqueue run (.inl phase) with ⟨same, -, joins⟩ | ⟨-, issued⟩
      · rw [phase] at same
        exact ⟨by simp [same], ends, fun _ _ => ⟨by simp [same], fun _ => by simp [joins queued]⟩⟩
      · exact spent_of_issued ends issued
    · have event : queuedClose c s = s := by simp only [queuedClose, phase, if_neg queued]
      rw [event] at ends ⊢
      exact ⟨waits, ends, fun _ _ => ⟨by simp [phase], fun _ => queued⟩⟩
  | spraying =>
    obtain ⟨pending, sameRun, -⟩ := closePending_facts c s _ rfl
    have event : queuedClose c s = enqueue c .closes (enterPhase c .closePending none none s) := by
      simp only [queuedClose, phase]
    rw [event] at ends ⊢
    rcases ending_enqueue (sameRun.trans run) (.inr pending) with ⟨same, -⟩ | ⟨-, issued⟩
    · rw [pending] at same
      exact ⟨by simp [same], ends, fun _ _ => by simp [same]⟩
    · exact spent_of_issued ends issued
  | idle | closePending | closing | stuck | faulted | locked =>
    have event : queuedClose c s = s := by simp only [queuedClose, phase]
    rw [event] at ends ⊢
    exact ⟨waits, ends, fun _ _ => by simp [phase]⟩

theorem spent_decideEnd (waits : (s.cannon c).phase ≠ .pendingOpen) : Spent c (decideEnd c s) := by
  cases run : s.run c with
  | none =>
    have same : decideEnd c s = s := by
      unfold decideEnd
      rw [run]
    rw [same]
    exact spent_of_noRun waits run
  | some r =>
    cases phase : r.phase with
    | suspended x n w =>
      have gone : (endRun c s).run c = none := by rw [endRun_run, if_pos rfl]
      rw [decideEnd_of_suspended run (by simp [Run.isSuspended, phase])]
      exact spent_of_noRun (by rw [State.cannon, endRun_cc]; exact waits) gone
    | active d n =>
      rw [decideEnd_of_active run phase]
      exact spent_queuedClose (setDisposition_ends run phase) (by rw [setDisposition_cannon]; exact waits)

/-! ## Detaching (R133) -/

/-- The run as the closure of order k leaves it, where it has END (R133). -/
def Run.detachedFrom (k : Nat) (r : Run) : Run := if r.origin = .order k then { r with origin := .detached } else r

theorem Run.detachedFrom_phase (k : Nat) (r : Run) : (r.detachedFrom k).phase = r.phase := by
  unfold Run.detachedFrom
  split <;> rfl

theorem setRun_self (c : Fin 32) (s : State) : s.setRun c (s.run c) = s := by
  rw [State.setRun, State.run, Table.set_get_self]

theorem setDisposition_of_ends (run : s.run c = some r) (phase : r.phase = .active .ends m) : setDisposition c .ends s = s := by
  have same : s.setRun c (some { r with phase := r.phase.dispose .ends }) = s.setRun c (s.run c) := by
    rw [run, phase]
    congr 2
    exact congrArg (fun x => { r with phase := x }) phase.symm
  unfold setDisposition updateRun
  rw [run]
  exact same.trans (setRun_self c s)

theorem detachAt_of_spent (spent : Spent c s) : detachAt k c s = s.setRun c ((s.run c).map (Run.detachedFrom k)) := by
  cases run : s.run c with
  | none =>
    unfold detachAt
    rw [run]
    exact (run ▸ setRun_self c s).symm
  | some r =>
    obtain ⟨n, phase⟩ := spent.ends r run
    by_cases mine : r.origin = .order k
    · have found : (s.setRun c (some (r.detachedFrom k))).run c = some (r.detachedFrom k) := setRun_run_same ..
      have active : (r.detachedFrom k).phase = .active .ends n := (r.detachedFrom_phase k).trans phase
      have still : Spent c (s.setRun c (some (r.detachedFrom k))) :=
        ⟨spent.waits, fun y hy => ⟨n, by rw [Option.mem_unique hy found]; exact active⟩, fun _ _ => spent.closes r run⟩
      have event : detachAt k c s = decideEnd c (s.setRun c (some (r.detachedFrom k))) := by
        unfold detachAt Run.detachedFrom
        rw [run]
        simp only [if_pos mine]
      rw [event, decideEnd_of_active found active, setDisposition_of_ends found active, still.queuedClose_eq found]
      rfl
    · have event : detachAt k c s = s := by
        unfold detachAt
        rw [run]
        exact if_neg mine
      rw [event, Option.map_some, Run.detachedFrom, if_neg mine, ← run, setRun_self]

/-- Over runs that have END, an order's closure detaches its own and does nothing else to the cannons. -/
theorem detached_of_spent (k : Nat) (spent : ∀ c, Spent c s) : ∃ runs : Table 32 (Option Run),
    forCannons (detachAt k) s = { s with sd := { s.sd with runs := runs } } ∧
    ∀ c, runs.get c = (s.run c).map (Run.detachedFrom k) := by
  have swept := forCannons_induct (f := detachAt k) (s := s) (P := fun n t => ∃ runs : Table 32 (Option Run),
    t = { s with sd := { s.sd with runs := runs } } ∧
    ∀ i : Fin 32, runs.get i = if i.val < n then (s.run i).map (Run.detachedFrom k) else s.run i)
    ⟨s.sd.runs, rfl, fun i => by rw [if_neg (Nat.not_lt_zero _)]; rfl⟩ ?_
  · obtain ⟨runs, event, rows⟩ := swept
    exact ⟨runs, event, fun c => (rows c).trans (if_pos c.isLt)⟩
  · rintro c t ⟨runs, rfl, rows⟩
    have own : runs.get c = s.run c := (rows c).trans (if_neg (Nat.lt_irrefl _))
    have here : Spent c { s with sd := { s.sd with runs := runs } } :=
      ⟨(spent c).waits, by rw [State.run, own]; exact (spent c).ends, by rw [State.run, own]; exact (spent c).closes⟩
    refine ⟨runs.set c ((runs.get c).map (Run.detachedFrom k)), detachAt_of_spent here, fun i => ?_⟩
    by_cases same : i = c
    · subst same
      rw [Table.get_set_same, own, if_pos (Nat.lt_succ_self _)]
    · have below : i.val < c.val + 1 ↔ i.val < c.val := by
        have := Fin.val_ne_of_ne same
        omega
      rw [Table.get_set_other _ _ same, rows]
      simp only [below]

end

end Sys2Proof.Machine
end

