-- ==== Sys2Proof/Proofs/CancelledOrders.lean ====
section
/-! SUPPORT. The order list once every OPEN order has closed CANCELLED, slot by slot, with the hold flags that follow it
(R130, R133, R135). -/

namespace Sys2Proof.Machine

section
variable {c : Fin 32} {p : Fin 24} {k n : Nat} {o : Order} {s t u : State}

/-! ## The slots and the hold flags -/

/-- The order is an OPEN HOLD of the pile (R130). -/
def Order.HoldsOpen (p : Fin 24) (o : Order) : Prop := o.kind = .hold ∧ o.closure = none ∧ o.pile = p

theorem order_eq_some : s.order k = some o ↔ s.sd.orders[k]? = some (some o) := by
  rw [State.order, Option.join_eq_some_iff]

theorem exists_order {q : Order → Prop} : (∃ y ∈ s.sd.orders, ∃ r ∈ y, q r) ↔ ∃ k, ∃ o ∈ s.order k, q o := by
  constructor
  · rintro ⟨y, listed, r, rfl, holds⟩
    obtain ⟨k, slot⟩ := List.mem_iff_getElem?.1 listed
    exact ⟨k, r, order_eq_some.2 slot, holds⟩
  · rintro ⟨k, r, found, holds⟩
    exact ⟨some r, List.mem_iff_getElem?.2 ⟨k, order_eq_some.1 found⟩, r, rfl, holds⟩

theorem lt_of_order (found : s.order k = some o) : k < s.sd.orders.length :=
  (List.getElem?_eq_some_iff.1 (order_eq_some.1 found)).1

theorem heldByOrder_iff : heldByOrder s p = true ↔ ∃ k, ∃ o ∈ s.order k, o.HoldsOpen p := by
  rw [← exists_order, heldByOrder, List.any_eq_true]
  refine exists_congr fun y => and_congr_right fun _ => ?_
  cases y with
  | none => simp
  | some r => simp [Order.HoldsOpen, and_assoc]

theorem heldByOrder_congr (same : ∀ k, (∃ o ∈ t.order k, o.HoldsOpen p) ↔ ∃ o ∈ s.order k, o.HoldsOpen p) :
    heldByOrder t p = heldByOrder s p := by
  rw [Bool.eq_iff_iff, heldByOrder_iff, heldByOrder_iff]
  exact exists_congr same

/-! ## One closure announced -/

theorem announceClosure_frame (k : Nat) (o : Order) (s : State) : (announceClosure k o s).cc = s.cc ∧
    (announceClosure k o s).wiu = s.wiu ∧ (announceClosure k o s).sd = s.sd := by
  unfold announceClosure
  simp only [post_cc, post_wiu, post_sd]
  split <;> exact ⟨rfl, rfl, rfl⟩

theorem announceClosure_notices (k : Nat) (o : Order) (s : State) : .order k ∈ (announceClosure k o s).lc.notices :=
  (mem_post _ _ _).2 (.inl rfl)

/-- The hold flag of a HOLD's pile is recomputed, and no other pile changes (R130). -/
theorem announceClosure_pile (k : Nat) (o : Order) (s : State) (p : Fin 24) : (announceClosure k o s).pile p =
    if o.kind = .hold ∧ o.pile = p then { s.pile p with hold := heldByOrder s p } else s.pile p := by
  unfold announceClosure
  simp only [State.pile, post_pau]
  by_cases hold : o.kind = .hold
  · rw [if_pos hold]
    by_cases own : o.pile = p
    · subst own
      rw [if_pos ⟨hold, rfl⟩]
      exact setPile_pile_same ..
    · rw [if_neg fun h => own h.2]
      exact (setPile_pile ..).trans (if_neg fun same => own same.symm)
  · rw [if_neg hold, if_neg fun h => hold h.1]

/-! ## The list up to a slot -/

/-- The order as its closing CANCELLED at the time x leaves it; a CLOSED one stands (R133, R135). -/
def Order.cancelledAt (x : Option Nat) (o : Order) : Order :=
  if o.closure = none then { o with countdown := none, closure := some ⟨.cancelled, x⟩ } else o

/-- The run once the OPEN orders in the slots below n have closed (R133). -/
def Run.freedBelow (n : Nat) (s : State) (r : Run) : Run :=
  match r.origin with
  | .order k => if k < n ∧ ∃ o ∈ s.order k, o.closure = none then { r with origin := .detached } else r
  | .auto => r
  | .detached => r

/-- An OPEN HOLD of the pile stands in a slot below n. -/
def HoldsBelow (n : Nat) (s : State) (p : Fin 24) : Prop := ∃ k < n, ∃ o ∈ s.order k, o.HoldsOpen p

theorem Order.cancelledAt_closed (x : Option Nat) (o : Order) : (o.cancelledAt x).closure ≠ none := by
  unfold Order.cancelledAt
  split
  · simp
  · assumption

theorem Order.cancelledAt_of_closed {x : Option Nat} (closed : o.closure ≠ none) : o.cancelledAt x = o := if_neg closed

theorem Run.freedBelow_zero (s : State) (r : Run) : r.freedBelow 0 s = r := by
  unfold Run.freedBelow
  split
  · exact if_neg fun h => absurd h.1 (Nat.not_lt_zero _)
  · rfl
  · rfl

theorem Run.freedBelow_phase (n : Nat) (s : State) (r : Run) : (r.freedBelow n s).phase = r.phase := by
  unfold Run.freedBelow
  split
  · split <;> rfl
  · rfl
  · rfl

theorem Run.freedBelow_of_order {r : Run} (origin : r.origin = .order k) : r.freedBelow n s =
    if k < n ∧ ∃ o ∈ s.order k, o.closure = none then { r with origin := .detached } else r := by
  unfold Run.freedBelow
  rw [origin]

theorem Run.freedBelow_of_free {r : Run} (origin : ∀ k, r.origin ≠ .order k) : r.freedBelow n s = r := by
  unfold Run.freedBelow
  split
  · exact absurd ‹_› (origin _)
  · rfl
  · rfl

/-- A closed or free slot frees no run. -/
theorem Run.freedBelow_succ_of_closed (closed : ∀ o ∈ s.order n, o.closure ≠ none) (r : Run) :
    r.freedBelow (n + 1) s = r.freedBelow n s := by
  cases origin : r.origin with
  | auto | detached => rw [freedBelow_of_free (by simp [origin]), freedBelow_of_free (by simp [origin])]
  | order k =>
    rw [freedBelow_of_order origin, freedBelow_of_order origin]
    refine if_congr (and_congr_left fun ⟨o, found, isOpen⟩ => ⟨fun below => ?_, Nat.lt_succ_of_lt⟩) rfl rfl
    refine Nat.lt_of_le_of_ne (Nat.le_of_lt_succ below) ?_
    rintro rfl
    exact closed o found isOpen

/-- The closure of an OPEN order frees its own runs. -/
theorem Run.freedBelow_succ_of_open (found : s.order n = some o) (isOpen : o.closure = none) (r : Run) :
    r.freedBelow (n + 1) s = (r.freedBelow n s).detachedFrom n := by
  cases origin : r.origin with
  | auto | detached =>
    rw [freedBelow_of_free (by simp [origin]), freedBelow_of_free (by simp [origin]), detachedFrom, if_neg (by simp [origin])]
  | order k =>
    rw [freedBelow_of_order origin, freedBelow_of_order origin]
    by_cases own : k = n
    · subst own
      rw [if_pos ⟨Nat.lt_succ_self _, o, found, isOpen⟩, if_neg fun h => absurd h.1 (Nat.lt_irrefl _), detachedFrom,
        if_pos origin]
    · have below : k < n + 1 ↔ k < n := by omega
      simp only [below]
      split
      · rw [detachedFrom, if_neg (by simp)]
      · rw [detachedFrom, if_neg (by simpa [origin] using own)]

/-- Once the last slot is passed, the runs are as R133 leaves them. -/
theorem Run.freedBelow_length (s : State) (r : Run) : r.freedBelow s.sd.orders.length s = r.freed s := by
  cases origin : r.origin with
  | auto | detached => rw [freedBelow_of_free (by simp [origin]), Run.freed]; simp only [origin]
  | order k =>
    rw [freedBelow_of_order origin, Run.freed]
    simp only [origin]
    exact if_congr (and_iff_right_of_imp fun ⟨o, found, _⟩ => lt_of_order found) rfl rfl

theorem HoldsBelow.succ_iff : HoldsBelow (n + 1) s p ↔ HoldsBelow n s p ∨ ∃ o ∈ s.order n, o.HoldsOpen p := by
  constructor
  · rintro ⟨k, below, held⟩
    by_cases own : k = n
    · exact .inr (own ▸ held)
    · exact .inl ⟨k, by omega, held⟩
  · rintro (⟨k, below, held⟩ | held)
    · exact ⟨k, Nat.lt_succ_of_lt below, held⟩
    · exact ⟨n, Nat.lt_succ_self _, held⟩

/-- The slots of u below n have been closed, and t is as that leaves it. -/
structure CancelledBelow (n : Nat) (u t : State) : Prop where
  within : Within u t
  cc : t.cc = u.cc
  wiu : t.wiu = u.wiu
  run : ∀ c, t.run c = (u.run c).map (Run.freedBelow n u)
  order : ∀ j, t.order j = if j < n then (u.order j).map (Order.cancelledAt (now u)) else u.order j
  notices : ∀ k < n, ∀ o ∈ u.order k, o.closure = none → .order k ∈ t.lc.notices
  held : ∀ p, HoldsBelow n u p → (t.pile p).hold = heldByOrder t p
  stands : ∀ p, ¬ HoldsBelow n u p → t.pile p = u.pile p

theorem cancelledBelow_zero (u : State) : CancelledBelow 0 u u := by
  refine ⟨.refl u, rfl, rfl, fun c => ?_, fun j => (if_neg (Nat.not_lt_zero j)).symm,
    fun k below => absurd below (Nat.not_lt_zero k), fun p ⟨k, below, _⟩ => absurd below (Nat.not_lt_zero k), fun p _ => rfl⟩
  cases u.run c with
  | none => rfl
  | some r => rw [Option.map_some, Run.freedBelow_zero]

theorem CancelledBelow.spent (h : CancelledBelow n u t) (spent : ∀ c, Spent c u) (c : Fin 32) : Spent c t := by
  have queued : queuedMovement t c = queuedMovement u c := queuedMovement_of_cc (by rw [h.cc]) c
  refine ⟨by rw [State.cannon, h.cc]; exact (spent c).waits, fun r found => ?_, fun r found => ?_⟩
  all_goals
    rw [h.run] at found
    obtain ⟨x, carried, rfl⟩ := Option.map_eq_some_iff.1 found
  · rw [Run.freedBelow_phase]
    exact (spent c).ends x carried
  · rw [queued, State.cannon, h.cc]
    exact (spent c).closes x carried

/-- A free slot and a CLOSED order are passed by. -/
theorem CancelledBelow.next_of_closed (h : CancelledBelow n u t) (closed : ∀ o ∈ u.order n, o.closure ≠ none) :
    CancelledBelow (n + 1) u t := by
  have holds : ∀ p, HoldsBelow (n + 1) u p ↔ HoldsBelow n u p := fun p =>
    HoldsBelow.succ_iff.trans (or_iff_left fun ⟨o, found, held⟩ => closed o found held.2.1)
  refine ⟨h.within, h.cc, h.wiu, fun c => ?_, fun j => ?_, fun k below o found isOpen => ?_,
    fun p held => h.held p ((holds p).1 held), fun p free => h.stands p fun held => free ((holds p).2 held)⟩
  · rw [h.run, funext fun r => (Run.freedBelow_succ_of_closed closed r).symm]
  · rw [h.order]
    by_cases own : j = n
    · subst own
      rw [if_neg (Nat.lt_irrefl _), if_pos (Nat.lt_succ_self _)]
      cases found : u.order j with
      | none => rfl
      | some o => rw [Option.map_some, Order.cancelledAt_of_closed (closed o found)]
    · have below : j < n + 1 ↔ j < n := by omega
      simp only [below]
  · by_cases own : k = n
    · exact absurd isOpen (closed o (own ▸ found))
    · exact h.notices k (by omega) o found isOpen

/-- The state in which the closure of an OPEN order is announced (R133). -/
theorem closing_of_spent (spent : ∀ c, Spent c t) (slot : t.order n = some o) (isOpen : o.closure = none) : ∃ v,
    closeOrder n .cancelled t = announceClosure n o v ∧ v.cc = t.cc ∧ v.wiu = t.wiu ∧ v.pau = t.pau ∧
    (∀ j, v.order j = if j = n then some (o.cancelledAt (now t)) else t.order j) ∧
    ∀ c, v.run c = (t.run c).map (Run.detachedFrom n) := by
  have wrote : ∀ c, Spent c (writeClosure n o .cancelled t) := fun c => ⟨(spent c).waits, (spent c).ends, (spent c).closes⟩
  obtain ⟨runs, detached, rows⟩ := detached_of_spent n wrote
  refine ⟨forCannons (detachAt n) (writeClosure n o .cancelled t), ?_, ?_⟩
  · unfold closeOrder
    rw [slot]
    exact if_neg (by simp [isOpen])
  · rw [detached]
    refine ⟨rfl, rfl, rfl, fun j => ?_, rows⟩
    have wrote : State.order { writeClosure n o .cancelled t with sd := { (writeClosure n o .cancelled t).sd with runs := runs } } j =
        (writeClosure n o .cancelled t).order j := rfl
    rw [wrote, writeClosure, setOrder_order, if_pos (lt_of_order slot), Order.cancelledAt, if_pos isOpen]

/-- The closure of an OPEN order, with the hold flags and the notice that announce it (R130, R133). -/
structure SlotCancelled (n : Nat) (o : Order) (t w : State) : Prop where
  cc : w.cc = t.cc
  wiu : w.wiu = t.wiu
  run : ∀ c, w.run c = (t.run c).map (Run.detachedFrom n)
  order : ∀ j, w.order j = if j = n then some (o.cancelledAt (now t)) else t.order j
  notice : .order n ∈ w.lc.notices
  pile : ∀ p, w.pile p = if o.kind = .hold ∧ o.pile = p then { t.pile p with hold := heldByOrder w p } else t.pile p

theorem slotCancelled (spent : ∀ c, Spent c t) (slot : t.order n = some o) (isOpen : o.closure = none) :
    SlotCancelled n o t (closeOrder n .cancelled t) := by
  obtain ⟨v, event, vCc, vWiu, vPau, vOrder, vRun⟩ := closing_of_spent spent slot isOpen
  obtain ⟨cc, wiu, sd⟩ := announceClosure_frame n o v
  have held : ∀ p, heldByOrder (announceClosure n o v) p = heldByOrder v p := fun p => by rw [heldByOrder, sd, heldByOrder]
  have vPile : ∀ p, v.pile p = t.pile p := fun p => by rw [State.pile, vPau, State.pile]
  rw [event]
  refine ⟨cc.trans vCc, wiu.trans vWiu, fun c => ?_, fun j => ?_, announceClosure_notices n o v, fun p => ?_⟩
  · rw [State.run, sd]
    exact vRun c
  · rw [State.order, sd]
    exact vOrder j
  · rw [announceClosure_pile, held, vPile]

/-- A pile that the order does not hold keeps its holders. -/
theorem SlotCancelled.held_of_other (h : SlotCancelled n o s t) (slot : s.order n = some o) {p : Fin 24}
    (other : ¬ (o.kind = .hold ∧ o.pile = p)) : heldByOrder t p = heldByOrder s p :=
  heldByOrder_congr fun k => by
    rw [h.order]
    split
    · rename_i own
      rw [own, slot]
      simp only [Option.mem_some_iff, exists_eq_left']
      exact iff_of_false (fun held => Order.cancelledAt_closed _ _ held.2.1) fun held => other ⟨held.1, held.2.2⟩
    · exact Iff.rfl

/-- An OPEN order closes (R133). -/
theorem CancelledBelow.next_of_open (h : CancelledBelow n u t) (spent : ∀ c, Spent c u) (found : u.order n = some o)
    (isOpen : o.closure = none) : CancelledBelow (n + 1) u (closeOrder n .cancelled t) := by
  have slot : t.order n = some o := by rw [h.order, if_neg (Nat.lt_irrefl _), found]
  have within : Within t (closeOrder n .cancelled t) := within_closeOrder t n .cancelled
  have closed := slotCancelled (h.spent spent) slot isOpen
  generalize closeOrder n .cancelled t = w at within closed ⊢
  have holds : ∀ p, HoldsBelow (n + 1) u p ↔ HoldsBelow n u p ∨ o.kind = .hold ∧ o.pile = p := fun p => by
    rw [HoldsBelow.succ_iff, found]
    simp only [Option.mem_some_iff, exists_eq_left', Order.HoldsOpen, isOpen, true_and]
  refine ⟨h.within.trans within, closed.cc.trans h.cc, closed.wiu.trans h.wiu, fun c => ?_, fun j => ?_,
    fun k below x slot' isOpen' => ?_, fun p held => ?_, fun p free => ?_⟩
  · rw [closed.run, h.run, Option.map_map, funext fun r => Run.freedBelow_succ_of_open found isOpen r]
    rfl
  · rw [closed.order, h.order, now_of_within h.within]
    by_cases own : j = n
    · subst own
      rw [if_pos rfl, if_pos (Nat.lt_succ_self _), found, Option.map_some]
    · have below : j < n + 1 ↔ j < n := by omega
      simp only [if_neg own, below]
  · by_cases own : k = n
    · exact own ▸ closed.notice
    · exact within.posts.keeps.subset (h.notices k (by omega) x slot' isOpen')
  · rw [closed.pile]
    split
    · rfl
    · rename_i other
      rw [closed.held_of_other slot other]
      exact h.held p (((holds p).1 held).resolve_right other)
  · obtain ⟨below, other⟩ := not_or.1 fun k => free ((holds p).2 k)
    rw [closed.pile, if_neg other]
    exact h.stands p below

/-! ## The whole list -/

theorem foldl_range_induct {α : Type} {P : Nat → α → Prop} {f : α → Nat → α} {a : α} (zero : P 0 a)
    (step : ∀ i a, P i a → P (i + 1) (f a i)) (n : Nat) : P n ((List.range n).foldl f a) := by
  induction n with
  | zero => exact zero
  | succ n ih =>
    rw [List.range_succ, List.foldl_append]
    exact step n _ ih

theorem cancelledBelow_closeOrders (spent : ∀ c, Spent c u) :
    CancelledBelow u.sd.orders.length u (closeOrders (fun _ => true) .cancelled u) := by
  unfold closeOrders
  refine foldl_range_induct (P := fun n t => CancelledBelow n u t) (cancelledBelow_zero u) (fun n t h => ?_) _
  have slot : t.order n = u.order n := by rw [h.order, if_neg (Nat.lt_irrefl _)]
  rw [slot]
  cases found : u.order n with
  | none => exact h.next_of_closed fun o some => by rw [found] at some; cases some
  | some o =>
    simp only [if_true]
    by_cases isOpen : o.closure = none
    · exact h.next_of_open spent found isOpen
    · have same : closeOrder n .cancelled t = t := by
        unfold closeOrder
        rw [slot, found]
        exact if_pos (Option.isSome_iff_ne_none.2 isOpen)
      rw [same]
      exact h.next_of_closed fun x some => Option.mem_unique some found ▸ isOpen

/-- Some OPEN HOLD in the list names the pile (R130). -/
abbrev HoldListed (s : State) (p : Fin 24) : Prop :=
  ∃ y ∈ s.sd.orders, ∃ r ∈ y, r.kind = .hold ∧ r.closure = none ∧ r.pile = p

/-- The pile once every OPEN HOLD has closed: the flag stands only where no HOLD had set it (R130). -/
abbrev unheldPile (s : State) (p : Fin 24) : Pile :=
  { s.pile p with hold := if HoldListed s p then false else (s.pile p).hold }

/-- The part once every OPEN order has closed CANCELLED (R130, R133, R135). -/
structure AllCancelled (u t : State) : Prop where
  cc : t.cc = u.cc
  wiu : t.wiu = u.wiu
  run : ∀ c, t.run c = (u.run c).map (Run.freed · u)
  orders : t.sd.orders = u.sd.orders.map (Option.map (Order.cancelledAt (now u)))
  notices : ∀ k, ∀ o ∈ u.order k, o.closure = none → .order k ∈ t.lc.notices
  pile : ∀ p, t.pile p = unheldPile u p

theorem allCancelled (spent : ∀ c, Spent c u) : AllCancelled u (closeOrders (fun _ => true) .cancelled u) := by
  have h := cancelledBelow_closeOrders spent
  generalize closeOrders (fun _ => true) .cancelled u = t at h ⊢
  have slots : t.sd.orders.length = u.sd.orders.length := h.within.slots
  have order : ∀ j, t.order j = (u.order j).map (Order.cancelledAt (now u)) := fun j => by
    rw [h.order]
    split
    · rfl
    · rename_i outside
      cases found : u.order j with
      | none => rfl
      | some o => exact absurd (lt_of_order found) outside
  have free : ∀ p, heldByOrder t p = false := fun p => Bool.eq_false_iff.2 fun held => by
    obtain ⟨k, o, found, -, isOpen, -⟩ := heldByOrder_iff.1 held
    rw [order] at found
    obtain ⟨x, -, rfl⟩ := Option.map_eq_some_iff.1 found
    exact Order.cancelledAt_closed _ _ isOpen
  refine ⟨h.cc, h.wiu, fun c => ?_, ?_, fun k o found => h.notices k (lt_of_order found) o found, fun p => ?_⟩
  · rw [h.run, funext fun r => Run.freedBelow_length u r]
  · refine List.ext_getElem (by rw [List.length_map, slots]) fun j below below' => ?_
    have slot := order j
    simp only [State.order, List.getElem?_eq_getElem below, List.getElem?_eq_getElem (slots ▸ below), Option.join_some] at slot
    rw [List.getElem_map]
    exact slot
  · have holds : HoldsBelow u.sd.orders.length u p ↔ HoldListed u p := by
      rw [HoldListed, exists_order]
      exact exists_congr fun k => and_iff_right_of_imp fun ⟨o, found, _⟩ => lt_of_order found
    unfold unheldPile
    split
    · rename_i held
      rw [h.within.pile p, h.held p (holds.2 held), free]
    · rename_i other
      exact h.stands p fun held => other (holds.1 held)

end

end Sys2Proof.Machine
end

