-- ==== Sys2Proof/Proofs/StandbyEnds.lean ====
section
/-! SUPPORT. The ends of the entry to STANDBY: the waiting opens withdrawn and every run ended, before the orders close
(R110, R133, R135). -/

namespace Sys2Proof.Machine

section
variable {c : Fin 32} {r : Run} {s t u v : State}

/-! ## The waiting opens (R110) -/

theorem apart_withdrawPending (c : Fin 32) (s : State) : Apart c s (withdrawPending c s) := by
  unfold withdrawPending
  split
  · exact apart_withdrawOpen c s
  · exact .refl c s

theorem closeKeeps_withdrawPending (c : Fin 32) (s : State) : CloseKeeps s (withdrawPending c s) := by
  unfold withdrawPending
  split
  · exact closeKeeps_withdrawOpen c s
  · exact .refl s

theorem withdrawOpen_idle (c : Fin 32) (s : State) : ((withdrawOpen c s).cannon c).phase = .idle := by
  rw [withdrawOpen, returnToIdle_cannon]

theorem withdrawPending_waits (c : Fin 32) (s : State) : ((withdrawPending c s).cannon c).phase ≠ .pendingOpen := by
  unfold withdrawPending
  split
  · rw [withdrawOpen_idle]
    simp
  · assumption

/-- A disposition that is applied leaves no run ACTIVE (R115, R116). -/
theorem applyDisposition_suspended (c : Fin 32) (s : State) : ∀ y ∈ (applyDisposition c s).run c, y.isSuspended = true := by
  rcases applyDisposition_cases c s with ⟨same, suspended⟩ | ⟨r, x, n, run, -, event⟩ | ⟨r, d, n, -, -, -, event⟩
  · rw [same]
    exact suspended
  · intro y found
    rw [event, suspendRun_run, if_pos rfl, run] at found
    split at found
    · cases found
    · rw [← Option.some.inj found]
      rfl
  · intro y found
    rw [event, endRun_run, if_pos rfl] at found
    cases found

theorem withdrawOpen_suspended (c : Fin 32) (s : State) : ∀ y ∈ (withdrawOpen c s).run c, y.isSuspended = true := by
  have found : (withdrawOpen c s).run c = (applyDisposition c (enterPhase c .idle none none (removeEntry c s))).run c := by
    rw [withdrawOpen, State.run, returnToIdle_sd, State.run]
  rw [found]
  exact applyDisposition_suspended c _

theorem decideEnd_gone (suspended : ∀ y ∈ s.run c, y.isSuspended = true) :
    (decideEnd c s).run c = none ∧ (decideEnd c s).cannon c = s.cannon c := by
  cases run : s.run c with
  | none =>
    have same : decideEnd c s = s := by
      unfold decideEnd
      rw [run]
    rw [same]
    exact ⟨run, rfl⟩
  | some r =>
    rw [decideEnd_of_suspended run (suspended r run), endRun_run, if_pos rfl, State.cannon, endRun_cc]
    exact ⟨rfl, rfl⟩

/-! ## Every run ended (R135) -/

/-- The answers of the cannons and of the dispatcher, before the orders close (R110, R135). -/
def endedForStandby (s : State) : State := decideEnds (fun _ => true) (forCannons withdrawPending s)

theorem decideEnds_at (c : Fin 32) (s : State) :
    ∃ u, Beside c s u ∧ Beside c (decideEnd c u) (decideEnds (fun _ => true) s) := by
  have every : ∀ t, endIf (fun _ _ => true) c t = decideEnd c t := fun t => by
    cases run : t.run c with
    | none =>
      unfold endIf decideEnd
      rw [run]
    | some r => exact endIf_of_passes run rfl
  obtain ⟨u, before, after⟩ := forCannons_at (f := endIf fun _ _ => true) (fun x i t other => beside_endIf _ other t) c s
  rw [every] at after
  exact ⟨u, before, after⟩

/-- What the two sweeps do at one cannon. -/
theorem endedForStandby_at (c : Fin 32) (s : State) : ∃ a b, Beside c s a ∧ Beside c (withdrawPending c a) b ∧
    Beside c (decideEnd c b) (endedForStandby s) := by
  obtain ⟨a, before, middle⟩ := forCannons_at (f := withdrawPending)
    (fun x i t other => (apart_withdrawPending x t).beside other (within_withdrawPending t x).pins) c s
  obtain ⟨b, between, after⟩ := decideEnds_at c (forCannons withdrawPending s)
  exact ⟨a, b, before, middle.trans between, after⟩

theorem spent_endedForStandby (c : Fin 32) (s : State) : Spent c (endedForStandby s) := by
  obtain ⟨a, b, -, middle, after⟩ := endedForStandby_at c s
  exact (spent_decideEnd (by rw [middle.cannon]; exact withdrawPending_waits c a)).beside after

/-- The run on a cannon of a sound part ends, or has END and its close requested (R110, R135). -/
theorem endDecided_endedForStandby (valve : ValveSound s c) (sound : RunSound s c) (run : s.run c = some r) :
    EndDecided c r s (endedForStandby s) ∧ ∀ y ∈ (endedForStandby s).run c, ∃ n, y = { r with phase := .active .ends n } := by
  obtain ⟨a, b, before, middle, after⟩ := endedForStandby_at c s
  generalize endedForStandby s = w at after ⊢
  have found : a.run c = some r := before.run.trans run
  by_cases pending : (a.cannon c).phase = .pendingOpen
  · have event : withdrawPending c a = withdrawOpen c a := if_pos pending
    rw [event] at middle
    obtain ⟨gone, stands⟩ := decideEnd_gone (c := c) (s := b) (by rw [middle.run]; exact withdrawOpen_suspended c a)
    have none : w.run c = none := after.run.trans gone
    have left : RunLeft c w :=
      runLeft_of_idle (by rw [after.cannon, stands, middle.cannon, withdrawOpen_idle]) none
    refine ⟨?_, fun y hy => by rw [none] at hy; cases hy⟩
    rw [before.cannon] at pending
    unfold EndDecided
    split
    · exact left
    · simpa only [pending] using left
  · have event : withdrawPending c a = a := if_neg pending
    rw [event] at middle
    have start := before.trans middle
    have ended : Ended c r b (decideEnd c b) :=
      ⟨run_decideEnd (middle.run.trans found), endDecided_decideEnd (middle.run.trans found)⟩
    have whole := (ended.of_beside start).beside after
    exact ⟨whole.decided valve sound, whole.ends⟩

theorem closeKeeps_endedForStandby (s : State) : CloseKeeps s (endedForStandby s) := by
  have withdrawn : CloseKeeps s (forCannons withdrawPending s) :=
    forCannons_induct (P := fun _ t => CloseKeeps s t) (.refl s) fun c t kept => kept.trans (closeKeeps_withdrawPending c t)
  exact withdrawn.trans (closeKeeps_endWhere (forCannons withdrawPending s) fun _ _ => true)

theorem endedForStandby_pau (s : State) : (endedForStandby s).pau = s.pau :=
  (sprayRules_pau.decideEnds (forCannons withdrawPending s) fun _ => true).trans
    (sprayRules_pau.forCannons s _ sprayRules_pau.withdrawPending)

theorem within_endedForStandby (s : State) : Within s (endedForStandby s) :=
  (within_forCannons s _ fun c t => within_withdrawPending t c).trans (within_decideEnds _ _)

/-! ## The ends beside the closures (R133) -/

theorem Run.freed_ends (r : Run) (s : State) (n : Option Nat) :
    Run.freed { r with phase := .active .ends n } s = { r.freed s with phase := .active .ends n } := by
  unfold Run.freed
  simp only
  split
  · split <;> rfl
  · rfl
  · rfl

theorem Run.freed_congr (same : ∀ k, t.order k = s.order k) (r : Run) : r.freed t = r.freed s := by
  unfold Run.freed
  simp only [same]

/-- An end that is decided stays decided when the OPEN orders close (R133, R135). -/
theorem EndDecided.freed (h : EndDecided c r s t) (ends : ∀ y ∈ t.run c, ∃ n, y.phase = .active .ends n) (cc : u.cc = t.cc)
    (run : u.run c = (t.run c).map (Run.freed · v)) : EndDecided c (r.freed v) s u := by
  have cannon : u.cannon c = t.cannon c := by rw [State.cannon, cc, State.cannon]
  have queued : queuedMovement u c = queuedMovement t c := queuedMovement_of_cc (by rw [cc]) c
  have left : RunLeft c t → RunLeft c u := fun left => by
    cases found : t.run c with
    | none =>
      rw [RunLeft, found] at left
      exact runLeft_of_idle (by rw [cannon]; exact left) (by rw [run, found]; rfl)
    | some y =>
      obtain ⟨n, phase⟩ := ends y found
      rw [RunLeft, found] at left
      rw [left.2.1] at phase
      cases phase
  have ending : ∀ {n}, RunEnding c r n t → RunEnding c (r.freed v) n u := fun {n} found => by
    rw [RunEnding, run, found, Option.map_some, Run.freed_ends]
  have phase : (r.freed v).phase = r.phase := r.freed_phase v
  unfold EndDecided at *
  rw [phase, cannon, queued]
  split
  · rename_i suspended
    simp only [suspended] at h
    exact left h
  · rename_i active
    simp only [active] at h
    split
    · rename_i before; simp only [before] at h; exact left h
    · rename_i before
      simp only [before] at h
      refine h.imp (fun ⟨opening, waits, stands⟩ => ⟨opening, waits, ending stands⟩) fun ⟨free, closed⟩ => ⟨free, ?_⟩
      split
      · rename_i open_; rw [if_pos open_] at closed; exact ⟨closed.1, ending closed.2⟩
      · rename_i shut; rw [if_neg shut] at closed; exact left closed
    · rename_i before
      simp only [before] at h
      exact h.imp (fun ⟨pending, waits, stands⟩ => ⟨pending, waits, ending stands⟩)
        fun ⟨free, closing, stands⟩ => ⟨free, closing, ending stands⟩
    · rename_i before; simp only [before] at h; exact ⟨h.1, ending h.2⟩
    · rename_i before; simp only [before] at h; exact ⟨h.1, ending h.2⟩
    all_goals trivial

end

end Sys2Proof.Machine
end

