-- ==== Sys2Proof/Proofs/StandbyEntry.lean ====
section
/-! SUPPORT. The entry to STANDBY: with the runs ended the OPEN orders are CANCELLED, and a pump set in PRIMING or
CHANGEOVER stops (R77, R120, R133, R135, R154). -/

namespace Sys2Proof.Machine

section
variable {c : Fin 32} {r : Run} {s t u : State}

/-! ## The pump set (R73, R77) -/

/-- What ends of runs make of the pump set: it stands, or it runs down or stops. -/
def PumpFalls (s t : State) : Prop :=
  t.wiu.pump.phase = s.wiu.pump.phase ∨ t.wiu.pump.phase = .rundown ∨ t.wiu.pump.phase = .off

theorem pumpFalls_of_wiu (same : t.wiu = s.wiu) : PumpFalls s t := .inl (by rw [same])

theorem PumpFalls.trans (h : PumpFalls s t) (k : PumpFalls t u) : PumpFalls s u := by
  rcases k with same | falls
  · unfold PumpFalls
    rw [same]
    exact h
  · exact .inr falls

theorem pumpFalls_headerIdle (s : State) : PumpFalls s (headerIdle s) := by
  unfold headerIdle enterRundown pumpOff
  repeat' split
  · exact .inr (.inr (by rw [pumpTo_pump]))
  · exact .inr (.inl (by rw [pumpTo_pump]))
  · exact .inr (.inr (by rw [pumpTo_pump]))
  · exact .inl rfl

theorem pumpFalls_returnToIdle (c : Fin 32) (s : State) : PumpFalls s (returnToIdle c s) := by
  have applied : (applyDisposition c (enterPhase c .idle none none s)).wiu = s.wiu :=
    (applyDisposition_wiu _ _).trans (syncAlert_wiu _ _)
  exact (pumpFalls_of_wiu applied).trans (pumpFalls_headerIdle _)

theorem pumpFalls_withdrawOpen (c : Fin 32) (s : State) : PumpFalls s (withdrawOpen c s) :=
  pumpFalls_returnToIdle c (removeEntry c s)

theorem pumpFalls_beginClose (c : Fin 32) (s : State) : PumpFalls s (beginClose c s) := by
  have stopped : PumpFalls s (stopDelivery c s) := pumpFalls_of_wiu (updateRun_wiu _ _ _)
  unfold beginClose
  split
  · exact stopped.trans (pumpFalls_of_wiu (syncAlert_wiu _ _))
  · exact stopped.trans (pumpFalls_returnToIdle c _)

theorem pumpFalls_enqueue_close (c : Fin 32) (s : State) : PumpFalls s (enqueue c .closes s) := by
  unfold enqueue issueEntry
  repeat' split
  · exact pumpFalls_of_wiu (syncAlert_wiu _ _)
  · exact pumpFalls_beginClose c (s.setSlot _)
  · exact pumpFalls_beginClose c (s.setSlot _)
  · exact .inl rfl
  · exact .inl rfl

theorem pumpFalls_queuedClose (c : Fin 32) (s : State) : PumpFalls s (queuedClose c s) := by
  have pending : PumpFalls s (enterPhase c .closePending none none s) := pumpFalls_of_wiu (syncAlert_wiu _ _)
  unfold queuedClose
  split
  · exact pumpFalls_withdrawOpen c s
  · split
    · exact pumpFalls_enqueue_close c s
    · exact .inl rfl
  · exact pending.trans (pumpFalls_enqueue_close c _)
  · exact .inl rfl

theorem pumpFalls_decideEnd (c : Fin 32) (s : State) : PumpFalls s (decideEnd c s) := by
  unfold decideEnd
  split
  · exact .inl rfl
  · split
    · exact pumpFalls_of_wiu (endRun_wiu c s)
    · exact (pumpFalls_of_wiu (updateRun_wiu _ _ _)).trans (pumpFalls_queuedClose c _)

theorem pumpFalls_forCannons {f : Fin 32 → State → State} (step : ∀ c t, PumpFalls t (f c t)) (s : State) :
    PumpFalls s (forCannons f s) :=
  forCannons_induct (P := fun _ t => PumpFalls s t) (.inl rfl) fun c t falls => falls.trans (step c t)

theorem pumpFalls_endedForStandby (s : State) : PumpFalls s (endedForStandby s) := by
  have withdrawn : PumpFalls s (forCannons withdrawPending s) := pumpFalls_forCannons (fun c t => by
    unfold withdrawPending
    split
    · exact pumpFalls_withdrawOpen c t
    · exact .inl rfl) s
  have ended : ∀ t, PumpFalls t (decideEnds (fun _ => true) t) := fun t => by
    unfold decideEnds
    refine pumpFalls_forCannons (fun c t => ?_) t
    split
    · exact pumpFalls_decideEnd c t
    · exact .inl rfl
  exact withdrawn.trans (ended _)

/-- The pump set waits for an interval without capacity (R70). -/
def PumpWaits (s : State) : Prop := s.wiu.pump.phase = .priming ∨ s.wiu.pump.phase = .changeover

theorem PumpFalls.waits (h : PumpFalls s t) (waits : PumpWaits t) : PumpWaits s := by
  unfold PumpWaits at *
  rcases h with same | rundown | off
  · rwa [same] at waits
  · simp [rundown] at waits
  · simp [off] at waits

theorem pumpOnMode_standby_of_waits (waits : PumpWaits s) : pumpOnMode .standby s = pumpStop s := by
  unfold pumpOnMode
  rcases waits with phase | phase <;> rw [phase]

theorem pumpOnMode_standby_of_not (steady : ¬ PumpWaits s) : pumpOnMode .standby s = s := by
  unfold PumpWaits at steady
  unfold pumpOnMode
  cases phase : s.wiu.pump.phase with
  | priming | changeover => simp [phase] at steady
  | off | running | rundown => rfl

theorem beside_pumpOff (c : Fin 32) (s : State) : Beside c s (pumpOff s) :=
  have stopped : Beside c s (s.setPump ⟨.off, none, none⟩) := ⟨rfl, rfl, rfl, id, rfl⟩
  stopped.trans ((noted_post .source (s.setPump ⟨.off, none, none⟩)).beside c)

/-- A header without capacity is held by CLOSING and STUCK cannons alone (R119). -/
theorem shut_of_waits (valves : ValvesSound s) (header : HeaderSound s) (waits : PumpWaits s) (c : Fin 32) : (s.cannon c).Shut := by
  have none : capacity s = 0 :=
    capacity_of_phase (by rcases waits with h | h <;> simp [h]) (by rcases waits with h | h <;> simp [h])
  have lasts : (s.cannon c).phase.reserves = true → (s.cannon c).phase = .closing ∨ (s.cannon c).phase = .stuck := by
    rcases header with fits | closing
    · intro reserves
      rw [none, Nat.le_zero, reservedFlow, List.sum_eq_zero_iff] at fits
      have row := fits _ (List.mem_map.2 ⟨c, List.mem_finRange c, rfl⟩)
      rw [if_pos reserves] at row
      obtain ⟨-, idle, flow, -⟩ := valves
      cases configured : (s.cannon c).configured with
      | true => have := flow c configured; omega
      | false => rw [idle c configured] at reserves; cases reserves
    · exact closing c
  unfold Cannon.Shut
  cases phase : (s.cannon c).phase <;> simp [phase, CannonPhase.reserves] at lasts ⊢

theorem endedForStandby_of_shut (shut : ∀ c, (s.cannon c).Shut) : (endedForStandby s).cc = s.cc := by
  have still : forCannons withdrawPending s = s := forCannons_id fun c => if_neg (shut c).1
  rw [endedForStandby, still]
  exact (decideEnds_of_shut shut).1

/-- With its valves shut, a part gives up its source and nothing else (R70, R77, R120). -/
theorem pumpOnMode_standby_of_shut (shut : PumpWaits s → ∀ c, (s.cannon c).Shut) :
    (pumpOnMode .standby s).cc = s.cc ∧ (pumpOnMode .standby s).sd = s.sd := by
  by_cases waits : PumpWaits s
  · have stop : pumpStop s = pumpOff s := capacityLoss_of_shut fun c => by
      rw [(beside_pumpOff c s).cannon]
      exact shut waits c
    rw [pumpOnMode_standby_of_waits waits, stop]
    exact ⟨post_cc _ _, post_sd _ _⟩
  · rw [pumpOnMode_standby_of_not waits]
    exact ⟨rfl, rfl⟩

/-! ## The capacity loss after the ends (R120) -/

/-- No open waits at the cannon, and its run, if it has one, has END. -/
def EndsOnly (c : Fin 32) (s : State) : Prop :=
  (s.cannon c).phase ≠ .pendingOpen ∧ ∀ r ∈ s.run c, ∃ n, r.phase = .active .ends n

theorem EndsOnly.beside (h : EndsOnly c s) (k : Beside c s t) : EndsOnly c t := by
  unfold EndsOnly
  rw [k.cannon, k.run]
  exact h

theorem EndsOnly.loseCapacityAt (h : EndsOnly c s) : EndsOnly c (loseCapacityAt c s) := by
  obtain ⟨waits, ends⟩ := h
  by_cases shut : (s.cannon c).Shut
  · rw [loseCapacityAt_of_shut shut]
    exact ⟨waits, ends⟩
  · cases run : s.run c with
    | none =>
      have same : Machine.loseCapacityAt c s = s := by
        unfold Machine.loseCapacityAt
        rw [run]
      rw [same]
      exact ⟨waits, ends⟩
    | some r =>
      obtain ⟨n, phase⟩ := ends r run
      have moves : (s.cannon c).phase = .opening ∨ (s.cannon c).phase = .spraying ∨ (s.cannon c).phase = .closePending := by
        unfold Cannon.Shut at shut
        tauto
      obtain ⟨cannon, closes⟩ := loseCapacityAt_closes run phase rfl moves
      refine ⟨by rw [cannon]; split <;> simp, fun y found => ?_⟩
      have kept : lossDisposition (s.cannon c).phase .ends = .ends := if_pos (.inr rfl)
      rw [kept] at closes
      rcases closes with ⟨-, -, m, stands⟩ | ⟨-, -, gone⟩
      · rw [stands] at found
        exact ⟨m, by rw [← Option.some.inj found]⟩
      · rw [gone] at found
        cases found

theorem EndsOnly.pumpOnMode (h : EndsOnly c s) : EndsOnly c (pumpOnMode .standby s) := by
  by_cases waits : PumpWaits s
  · obtain ⟨u, before, after⟩ := forCannons_at (fun x i t other => beside_loseCapacityAt other t) c (pumpOff s)
    rw [pumpOnMode_standby_of_waits waits]
    exact ((h.beside ((beside_pumpOff c s).trans before)).loseCapacityAt).beside after
  · rw [pumpOnMode_standby_of_not waits]
    exact h

/-- No end of a run moves an order of a list whose orders are all CLOSED (R131). -/
theorem sprayRules_closedOrders :
    SprayRules fun s t => (∀ k, ∀ o ∈ s.order k, o.closure ≠ none) → t.sd.orders = s.sd.orders where
  refl _ _ := rfl
  trans {s t u} h k closed := by
    have same := h closed
    refine (k fun j o found => closed j o ?_).trans same
    rwa [State.order, same] at found
  run _ _ _ _ := rfl
  complete s k closed := by
    rcases completeIfDone_cases k s with ⟨o, found, met, -⟩ | ⟨same, -⟩
    · exact absurd met.2.1 (closed k o found)
    · rw [same]
  suspensions _ _ _ := rfl
  pass _ _ _ := rfl
  pump _ _ _ := rfl
  queue _ _ _ := rfl
  slot _ _ _ := rfl
  demand _ _ _ _ := rfl
  post s n _ := by rw [post_sd]
  phase s c x n l _ _ := by rw [enterPhase_sd]

/-! ## The entry to STANDBY -/

/-- What the entry to STANDBY leaves of the cannons, the runs, the orders, the pump set and the piles. -/
structure StandbyEntered (s t : State) : Prop where
  ends : ∀ c, EndsOnly c t
  decided : ValvesSound s → RunsSound s → HeaderSound s → ∀ c, ∀ r ∈ s.run c, EndDecided c (r.freed s) s t
  orders : t.sd.orders = s.sd.orders.map (Option.map (Order.cancelledAt (now s)))
  notices : ∀ k, ∀ o ∈ s.order k, o.closure = none → .order k ∈ t.lc.notices
  pump : PumpWaits s → t.wiu.pump = ⟨.off, none, none⟩
  pile : ∀ p, t.pile p = unheldPile s p

theorem enterMode_standby (x : Cause) (s : State) : enterMode .standby x s = syncAlert .noWater (pumpOnMode .standby
    (closeOrders (fun _ => true) .cancelled ((endedForStandby (ordersAside s .standby x)).setOrders s.sd.orders))) := by
  have orders := modeEntered_orders s .standby x
  rw [enterMode_eq, sparingOrders, orders]
  rfl

/-- The ends and the closures, before the pump set's answer. -/
structure StandbyServed (s t : State) : Prop where
  ends : ∀ c, EndsOnly c t
  decided : ∀ c, ValveSound s c → RunSound s c → ∀ r ∈ s.run c, EndDecided c (r.freed s) s t
  shut : (∀ c, (s.cannon c).Shut) → ∀ c, (t.cannon c).Shut
  orders : t.sd.orders = s.sd.orders.map (Option.map (Order.cancelledAt (now s)))
  notices : ∀ k, ∀ o ∈ s.order k, o.closure = none → .order k ∈ t.lc.notices
  pump : PumpWaits s → t.wiu.pump = s.wiu.pump
  falls : PumpFalls s t
  pile : ∀ p, t.pile p = unheldPile s p

theorem standbyServed (x : Cause) (s : State) : StandbyServed s (closeOrders (fun _ => true) .cancelled
    ((endedForStandby (ordersAside s .standby x)).setOrders s.sd.orders)) := by
  have start := beside_ordersAside s .standby x
  have aside : (ordersAside s .standby x).cc = s.cc ∧ (ordersAside s .standby x).wiu = s.wiu ∧
      (ordersAside s .standby x).pau = s.pau ∧ now (ordersAside s .standby x) = now s := by
    rw [ordersAside_eq]
    exact ⟨rfl, rfl, rfl, rfl⟩
  generalize ordersAside s .standby x = v at start aside ⊢
  obtain ⟨cc, wiu, pau, time⟩ := aside
  have spent := fun c => spent_endedForStandby c v
  have decided : ∀ c, ValveSound s c → RunSound s c → ∀ r ∈ s.run c,
      EndDecided c r s (endedForStandby v) := fun c valve sound r run =>
    (endDecided_endedForStandby (valve.beside (start c)) (sound.beside (start c)) ((start c).run.trans run)).1.of_beside (start c)
  have shut : (∀ c, (s.cannon c).Shut) → (endedForStandby v).cc = s.cc := fun shut =>
    (endedForStandby_of_shut fun c => by rw [(start c).cannon]; exact shut c).trans cc
  have kept := (closeKeeps_endedForStandby v).pump
  have falls := pumpFalls_endedForStandby v
  have piles := (endedForStandby_pau v).trans pau
  have clock : now (endedForStandby v) = now s := (now_of_within (within_endedForStandby v)).trans time
  generalize endedForStandby v = w at spent decided shut kept falls piles clock ⊢
  have closed := allCancelled (u := w.setOrders s.sd.orders) fun c => ⟨(spent c).waits, (spent c).ends, (spent c).closes⟩
  generalize closeOrders (fun _ => true) .cancelled (w.setOrders s.sd.orders) = t at closed ⊢
  have run : ∀ c, t.run c = (w.run c).map (Run.freed · s) := fun c =>
    (closed.run c).trans (by rw [funext fun r => Run.freed_congr (s := s) (t := w.setOrders s.sd.orders) (fun _ => rfl) r]; rfl)
  refine ⟨fun c => ⟨by rw [State.cannon, closed.cc]; exact (spent c).waits, fun r found => ?_⟩, fun c valve sound r found => ?_,
    fun all c => ?_, closed.orders.trans (by rw [← clock]; rfl), closed.notices, fun waits => ?_, ?_, fun p => ?_⟩
  · rw [run] at found
    obtain ⟨y, carried, rfl⟩ := Option.map_eq_some_iff.1 found
    rw [Run.freed_phase]
    exact (spent c).ends y carried
  · exact (decided c valve sound r found).freed (spent c).ends closed.cc (run c)
  · rw [State.cannon, closed.cc, setOrders_cc, shut all]
    exact all c
  · rw [closed.wiu]
    exact (kept (by rw [wiu]; rcases waits with h | h <;> simp [h])).trans (by rw [wiu])
  · unfold PumpFalls at *
    rw [closed.wiu]
    rw [wiu] at falls
    exact falls
  · have same : w.pile p = s.pile p := by rw [State.pile, piles, State.pile]
    exact (closed.pile p).trans (by rw [unheldPile, setOrders_pile, same]; rfl)

theorem standbyEntered (x : Cause) (s : State) : StandbyEntered s (enterMode .standby x s) := by
  have served := standbyServed x s
  rw [enterMode_standby]
  generalize closeOrders (fun _ => true) .cancelled
    ((endedForStandby (ordersAside s .standby x)).setOrders s.sd.orders) = u at served ⊢
  have noted := noted_syncAlert .noWater (pumpOnMode .standby u)
  have pau := (syncAlert_pau (pumpOnMode .standby u) .noWater).trans (sprayRules_pau.pumpOnMode u .standby)
  have orders : (pumpOnMode .standby u).sd.orders = u.sd.orders :=
    sprayRules_closedOrders.pumpOnMode u .standby fun k o found => by
      rw [State.order, served.orders, List.getElem?_map, Option.mem_def, Option.join_eq_some_iff, Option.map_eq_some_iff] at found
      obtain ⟨y, -, same⟩ := found
      obtain ⟨z, -, rfl⟩ := Option.map_eq_some_iff.1 same
      exact Order.cancelledAt_closed _ _
  refine ⟨fun c => (served.ends c).pumpOnMode.beside (noted.beside c), fun valves runs header c r run => ?_, ?_, ?_,
    fun waits => ?_, fun p => ?_⟩
  · obtain ⟨cc, sd⟩ := pumpOnMode_standby_of_shut fun waits =>
      served.shut (shut_of_waits valves header (served.falls.waits waits))
    refine ((served.decided c (valves.1 c) (runs c) r run).beside ?_ ?_ ?_).beside (noted.beside c).cannon
      (noted.beside c).run (noted.beside c).queued
    · rw [State.cannon, cc, State.cannon]
    · rw [State.run, sd, State.run]
    · exact queuedMovement_of_cc (by rw [cc]) c
  · rw [syncAlert_sd, orders, served.orders]
  · intro k o found isOpen
    exact ((within_pumpOnMode u .standby).trans (within_syncAlert _ _)).posts.keeps.subset (served.notices k o found isOpen)
  · rw [syncAlert_wiu, pumpOnMode_standby_of_waits (by unfold PumpWaits at *; rwa [served.pump waits]), pumpStop,
      capacityLoss_pump_of_off (by rw [pumpOff, pumpTo_pump]), pumpOff, pumpTo_pump]
  · rw [← served.pile p, State.pile, pau, State.pile]

end

end Sys2Proof.Machine
end

