-- ==== Sys2Proof/Proofs/LayoutCheck.lean ====
section
/-! SUPPORT. The layout check, item by item in its order, with the lowest-numbered object that fails (R156). -/

namespace Sys2Proof.Machine

/-- Some pile is configured: item 1 (R156). -/
def LayoutPiled (s : State) : Prop := ∃ p, (s.pile p).configured = true

/-- Some cannon is aimed at a configured pile: item 2 (R156). -/
def LayoutAimed (s : State) : Prop := ∃ c, (s.cannon c).configured = true ∧ (s.pile (s.cannon c).config.pile).configured = true

/-- The cannon, if it is configured, is aimed at a configured pile: item 3 (R156). -/
def CannonAimed (s : State) (c : Fin 32) : Prop :=
  (s.cannon c).configured = true → (s.pile (s.cannon c).config.pile).configured = true

/-- The pile, if it is configured, drains into a configured pond or none: item 4 (R156). -/
def PileDrained (s : State) (p : Fin 24) : Prop :=
  (s.pile p).configured = true → ∀ d ∈ (s.pile p).config.drain, (s.pond d).configured = true

/-- There is a source: item 5 (R156). -/
def LayoutSourced (s : State) : Prop := (∃ d, (s.pond d).configured = true) ∨ (0 < s.site.freshRate ∧ 0 < s.site.freshAllocation)

/-- What the check finds: the first item that fails, at the lowest-numbered object that fails it (R156). -/
def LayoutFinding (s : State) : Option LayoutFailure → Prop
  | none => LayoutPiled s ∧ LayoutAimed s ∧ (∀ c, CannonAimed s c) ∧ (∀ p, PileDrained s p) ∧ LayoutSourced s
  | some .piles => ¬ LayoutPiled s
  | some .cannons => LayoutPiled s ∧ ¬ LayoutAimed s
  | some (.cannonTarget k) => LayoutPiled s ∧ LayoutAimed s ∧ ¬ CannonAimed s k ∧ ∀ c < k, CannonAimed s c
  | some (.drain k) => LayoutPiled s ∧ LayoutAimed s ∧ (∀ c, CannonAimed s c) ∧ ¬ PileDrained s k ∧ ∀ p < k, PileDrained s p
  | some .source => LayoutPiled s ∧ LayoutAimed s ∧ (∀ c, CannonAimed s c) ∧ (∀ p, PileDrained s p) ∧ ¬ LayoutSourced s

section
variable {s : State}

/-! ## The tests of the check -/

theorem find?_finRange_eq_some {n : Nat} {f : Fin n → Bool} {k : Fin n} :
    (List.finRange n).find? f = some k ↔ f k = true ∧ ∀ i < k, f i = false := by
  rw [List.find?_eq_some_iff_getElem]
  refine and_congr_right fun _ => ?_
  constructor
  · rintro ⟨i, bound, rfl, earlier⟩ j below
    have found := earlier j.val (by simpa [Fin.lt_def] using below)
    simpa using found
  · intro earlier
    refine ⟨k.val, by simp, by simp, fun j below => ?_⟩
    simpa using earlier ⟨j, by omega⟩ below

theorem find?_finRange_eq_none {n : Nat} {f : Fin n → Bool} : (List.finRange n).find? f = none ↔ ∀ i, f i = false := by
  simp [List.find?_eq_none]

theorem noPiles_iff : ((List.finRange 24).all fun p => !(s.pile p).configured) = true ↔ ¬ LayoutPiled s := by
  simp [LayoutPiled]

theorem noneAimed_iff : ((List.finRange 32).all fun c => !wellAimed s c) = true ↔ ¬ LayoutAimed s := by
  simp only [LayoutAimed, wellAimed, List.all_eq_true, List.mem_finRange, true_imp_iff, Bool.not_eq_true', not_exists,
    Bool.and_eq_false_iff, not_and, Bool.not_eq_true]
  exact forall_congr' fun c => by cases (s.cannon c).configured <;> simp

theorem misaimed_iff (c : Fin 32) : ((s.cannon c).configured && !wellAimed s c) = false ↔ CannonAimed s c := by
  unfold CannonAimed wellAimed
  cases (s.cannon c).configured <;> simp

theorem wellDrained_iff (p : Fin 24) : wellDrained s p = true ↔ ∀ d ∈ (s.pile p).config.drain, (s.pond d).configured = true := by
  unfold wellDrained
  cases (s.pile p).config.drain <;> simp

theorem misdrained_iff (p : Fin 24) : ((s.pile p).configured && !wellDrained s p) = false ↔ PileDrained s p := by
  rw [PileDrained, ← wellDrained_iff]
  cases (s.pile p).configured <;> simp

theorem sourced_iff : (((List.finRange 4).any fun p => (s.pond p).configured) ||
    (0 < s.site.freshRate && 0 < s.site.freshAllocation)) = true ↔ LayoutSourced s := by
  simp [LayoutSourced]

theorem misaimed_first {k : Fin 32} : ((List.finRange 32).find? fun c => (s.cannon c).configured && !wellAimed s c) = some k ↔
    ¬ CannonAimed s k ∧ ∀ c < k, CannonAimed s c := by
  rw [find?_finRange_eq_some, ← misaimed_iff, Bool.not_eq_false]
  simp only [misaimed_iff]

theorem misaimed_none : ((List.finRange 32).find? fun c => (s.cannon c).configured && !wellAimed s c) = none ↔
    ∀ c, CannonAimed s c := by
  rw [find?_finRange_eq_none]
  simp only [misaimed_iff]

theorem misdrained_first {k : Fin 24} :
    ((List.finRange 24).find? fun p => (s.pile p).configured && !wellDrained s p) = some k ↔
    ¬ PileDrained s k ∧ ∀ p < k, PileDrained s p := by
  rw [find?_finRange_eq_some, ← misdrained_iff, Bool.not_eq_false]
  simp only [misdrained_iff]

theorem misdrained_none : ((List.finRange 24).find? fun p => (s.pile p).configured && !wellDrained s p) = none ↔
    ∀ p, PileDrained s p := by
  rw [find?_finRange_eq_none]
  simp only [misdrained_iff]

/-! ## The check -/

theorem layoutFinding_layoutCheck (s : State) : LayoutFinding s (layoutCheck s) := by
  unfold layoutCheck
  split
  · exact noPiles_iff.1 ‹_›
  · rename_i piled
    rw [noPiles_iff, not_not] at piled
    split
    · exact ⟨piled, noneAimed_iff.1 ‹_›⟩
    · rename_i aimed
      rw [noneAimed_iff, not_not] at aimed
      split
      · exact ⟨piled, aimed, misaimed_first.1 ‹_›⟩
      · rename_i targets
        split
        · exact ⟨piled, aimed, misaimed_none.1 targets, misdrained_first.1 ‹_›⟩
        · rename_i drains
          split
          · exact ⟨piled, aimed, misaimed_none.1 targets, misdrained_none.1 drains, sourced_iff.1 ‹_›⟩
          · rename_i dry
            exact ⟨piled, aimed, misaimed_none.1 targets, misdrained_none.1 drains, fun found => dry (sourced_iff.2 found)⟩

/-- The findings exclude each other. -/
theorem layoutCheck_of_finding : ∀ {x : Option LayoutFailure}, LayoutFinding s x → layoutCheck s = x
  | none, ⟨piled, aimed, targets, drains, sourced⟩ => by
    unfold layoutCheck
    rw [if_neg (by rw [noPiles_iff, not_not]; exact piled), if_neg (by rw [noneAimed_iff, not_not]; exact aimed),
      misaimed_none.2 targets, misdrained_none.2 drains]
    exact if_pos (sourced_iff.2 sourced)
  | some .piles, unpiled => by
    unfold layoutCheck
    rw [if_pos (noPiles_iff.2 unpiled)]
  | some .cannons, ⟨piled, unaimed⟩ => by
    unfold layoutCheck
    rw [if_neg (by rw [noPiles_iff, not_not]; exact piled), if_pos (noneAimed_iff.2 unaimed)]
  | some (.cannonTarget k), ⟨piled, aimed, first⟩ => by
    unfold layoutCheck
    rw [if_neg (by rw [noPiles_iff, not_not]; exact piled), if_neg (by rw [noneAimed_iff, not_not]; exact aimed),
      misaimed_first.2 first]
  | some (.drain k), ⟨piled, aimed, targets, first⟩ => by
    unfold layoutCheck
    rw [if_neg (by rw [noPiles_iff, not_not]; exact piled), if_neg (by rw [noneAimed_iff, not_not]; exact aimed),
      misaimed_none.2 targets, misdrained_first.2 first]
  | some .source, ⟨piled, aimed, targets, drains, dry⟩ => by
    unfold layoutCheck
    rw [if_neg (by rw [noPiles_iff, not_not]; exact piled), if_neg (by rw [noneAimed_iff, not_not]; exact aimed),
      misaimed_none.2 targets, misdrained_none.2 drains]
    exact if_neg fun found => dry (sourced_iff.1 found)

theorem layoutCheck_iff {x : Option LayoutFailure} : layoutCheck s = x ↔ LayoutFinding s x :=
  ⟨fun found => found ▸ layoutFinding_layoutCheck s, layoutCheck_of_finding⟩

theorem not_layoutPiled : ¬ LayoutPiled s ↔ ∀ p, (s.pile p).configured = false := by simp [LayoutPiled]

theorem not_layoutAimed : ¬ LayoutAimed s ↔
    ∀ c, (s.cannon c).configured = true → (s.pile (s.cannon c).config.pile).configured = false := by simp [LayoutAimed]

theorem not_cannonAimed {c : Fin 32} : ¬ CannonAimed s c ↔
    (s.cannon c).configured = true ∧ (s.pile (s.cannon c).config.pile).configured = false := by simp [CannonAimed]

theorem not_pileDrained {p : Fin 24} : ¬ PileDrained s p ↔
    (s.pile p).configured = true ∧ ∃ d ∈ (s.pile p).config.drain, (s.pond d).configured = false := by simp [PileDrained]

theorem not_layoutSourced : ¬ LayoutSourced s ↔
    (∀ d, (s.pond d).configured = false) ∧ ¬ (0 < s.site.freshRate ∧ 0 < s.site.freshAllocation) := by
  rw [LayoutSourced, not_or, not_exists]
  simp only [Bool.not_eq_true]

end

end Sys2Proof.Machine
end

