-- ==== Sys2Proof/Proofs/ModeRequests.lean ====
section
/-! OBLIGATION O60. The MODE request: R155's table of refusals, and the mode that an accepted one enters (R154 to R156). -/

namespace Sys2Proof.Machine

section
variable {m : Mode} {n tag : Nat} {s t : State}

/-! ## The table of R155 -/

theorem mode?_code (m : Mode) : mode? m.code = some m := by cases m <;> rfl

theorem mode?_eq_none (out : 4 ≤ n) : mode? n = none := by
  obtain ⟨k, rfl⟩ := Nat.exists_eq_add_of_le' out
  rfl

theorem answerMode_code (m : Mode) (s : State) : answerMode m.code s =
    (modeRefusal m s).elim (accept (modeStep m) modeBody s) .refused := by
  unfold answerMode
  rw [mode?_code]
  simp only
  cases modeRefusal m s <;> rfl

/-- A MODE to the present mode, or to one that the table lets in, is accepted. -/
theorem exec_mode_accepted (free : s.lc.reply = none) (enters : modeRefusal m s = none) : exec (.mode tag m.code) s =
    .next (startReply (acceptance 0x09 tag (modeBody (inEvent (modeStep m) s))) false (inEvent (modeStep m) s)) := by
  have accepted : answerMode m.code s = accept (modeStep m) modeBody s := by rw [answerMode_code, enters]; rfl
  exact congrArg _ (takeRequest_accepted free accepted)

theorem exec_mode_refused {x : Reason} (free : s.lc.reply = none) (refuses : modeRefusal m s = some x) :
    exec (.mode tag m.code) s = .next (startReply (refusal 0x09 tag x) false s) := by
  have refused : answerMode m.code s = .refused x := by rw [answerMode_code, refuses]; rfl
  exact congrArg _ (takeRequest_refused free refused)

theorem modeRefusal_self (s : State) : modeRefusal s.mau.mode s = none := by
  unfold modeRefusal
  cases s.mau.mode <;> rfl

theorem modeRefusal_stop (mode : s.mau.mode = .lockdown) (stop : stopAsserted s = true) (other : m ≠ .lockdown) :
    modeRefusal m s = some .stopAsserted := by
  unfold modeRefusal
  rw [mode]
  cases m with
  | lockdown => exact absurd rfl other
  | standby | auto | manual => exact if_pos stop

theorem modeRefusal_checked (before : s.mau.mode = .standby ∨ (s.mau.mode = .lockdown ∧ stopAsserted s = false))
    (spray : m = .auto ∨ m = .manual) : modeRefusal m s = (layoutCheck s).map .notConfigured := by
  unfold modeRefusal
  rcases before with mode | ⟨mode, released⟩
  · rw [mode]
    rcases spray with rfl | rfl <;> rfl
  · rw [mode]
    rcases spray with rfl | rfl <;> exact if_neg (by simp [released])

theorem modeRefusal_sprays (spray : m = .auto ∨ m = .manual) (released : s.mau.mode = .lockdown → stopAsserted s = false)
    (checked : s.mau.mode = .standby ∨ s.mau.mode = .lockdown → layoutCheck s = none) : modeRefusal m s = none := by
  cases mode : s.mau.mode with
  | standby => rw [modeRefusal_checked (.inl mode) spray, checked (.inl mode)]; rfl
  | lockdown => rw [modeRefusal_checked (.inr ⟨mode, released mode⟩) spray, checked (.inr mode)]; rfl
  | auto | manual =>
    unfold modeRefusal
    rw [mode]

theorem modeRefusal_standby (released : s.mau.mode = .lockdown → stopAsserted s = false) : modeRefusal .standby s = none := by
  unfold modeRefusal
  cases mode : s.mau.mode with
  | lockdown => exact if_neg (by simp [released mode])
  | standby | auto | manual => rfl

theorem modeRefusal_lockdown (s : State) : modeRefusal .lockdown s = none := by
  unfold modeRefusal
  cases s.mau.mode <;> rfl

/-! ## The event and its reply -/

theorem inEvent_modeStep_self (s : State) : inEvent (modeStep s.mau.mode) s = s.setPass false := by
  have same : modeStep s.mau.mode (s.setPass false) = s.setPass false := if_pos rfl
  rw [inEvent_of_quietPass (by rw [same]; rfl), same]

theorem modeBody_entered (other : m ≠ s.mau.mode) : modeBody (inEvent (modeStep m) s) = le 1 m.code ++ [0] := by
  have frame := modeFrame_request other
  rw [modeBody, frame.mode, frame.cause]
  rfl

/-- An accepted change of mode, with the state that its event ends in (R154, R155). -/
theorem exec_mode_enters (free : s.lc.reply = none) (enters : modeRefusal m s = none) (other : m ≠ s.mau.mode) :
    exec (.mode tag m.code) s =
      .next (startReply (acceptance 0x09 tag (le 1 m.code ++ [0])) false (inEvent (modeStep m) s)) := by
  rw [exec_mode_accepted free enters, modeBody_entered other]

/-! ## AUTO and MANUAL -/

theorem sprayEntered_request (spray : m = .auto ∨ m = .manual) (other : m ≠ s.mau.mode) :
    SprayEntered (s.setPass false) (enterMode m .request (s.setPass false)) := by
  by_cases auto : s.mau.mode = .auto
  · obtain rfl := spray.resolve_left fun same => other (same.trans auto.symm)
    exact sprayEntered_of_auto (s := s.setPass false) auto
  · exact (sprayEntered_of_notAuto (s := s.setPass false) (x := .request) spray auto).1

/-! ## STANDBY -/

/-- The event of an accepted MODE to STANDBY, in which the pass finds no cannon that could spray (R108). -/
theorem standbyEntered_inEvent (other : s.mau.mode ≠ .standby) : StandbyEntered s (inEvent (modeStep .standby) s) := by
  have event := modeStep_enters (m := .standby) (s := s) (Ne.symm other)
  have entered := standbyEntered .request (s.setPass false)
  have dry : ∀ c, couldSpray (modeStep .standby (s.setPass false)) c = false :=
    couldSpray_of_mode (by rw [event, (enterMode_mode _ _ _).1]; rfl)
  obtain ⟨cc, sd, pau⟩ := inEvent_of_none dry
  have keeps := (inEvent_within s (modeStep .standby)).posts.keeps
  have off : PumpWaits s → (inEvent (modeStep .standby) s).wiu.pump = ⟨.off, none, none⟩ := fun waits => by
    have pump := entered.pump waits
    rw [← event] at pump
    rw [inEvent_of_none_off dry (by rw [pump]), setPass_wiu, pump]
  rw [event] at cc sd pau keeps
  generalize inEvent (modeStep .standby) s = t at *
  have cannon : ∀ c, t.cannon c = (enterMode .standby .request (s.setPass false)).cannon c := fun c => by
    rw [State.cannon, cc, State.cannon]
  have run : ∀ c, t.run c = (enterMode .standby .request (s.setPass false)).run c := fun c => by
    rw [State.run, sd, State.run]
  refine ⟨fun c => ?_, fun valves runs header c r carried => ?_, ?_, fun k o found isOpen => keeps.subset ?_, off, fun p => ?_⟩
  · unfold EndsOnly
    rw [cannon, run]
    exact entered.ends c
  · exact (entered.decided valves runs header c r carried).beside (cannon c) (run c) (queuedMovement_of_cc (by rw [cc]) c)
  · rw [sd]
    exact entered.orders
  · exact entered.notices k o found isOpen
  · rw [State.pile, pau]
    exact entered.pile p

end

/-- Settles O60: the table of R155 refuses or enters its target, and the entry to each mode is followed through every
block's answer; the layout check names the first item that fails, at its lowest-numbered object. -/
theorem modeRequestsEnterTheirModes : Obligations.ModeRequestsEnterTheirModes := by
  refine ⟨fun tag s free => ?_, fun tag n s free out => congrArg _ (takeRequest_refused free ?_),
    fun tag n s free known mode stop => ?_, fun tag n x s free known before found => ?_,
    fun tag m s free spray other released checked => ?_, fun tag s free other released => ?_, fun tag s free other => ?_,
    fun s => layoutCheck_iff (x := none), fun x s => ?_, fun c p => ⟨rfl, rfl, rfl, rfl, rfl⟩⟩
  · rw [exec_mode_accepted free (modeRefusal_self s), inEvent_modeStep_self]
    rfl
  · unfold answerMode
    rw [mode?_eq_none out]
  · obtain ⟨m, rfl, last⟩ : ∃ m : Mode, n = m.code ∧ m ≠ .lockdown := by
      interval_cases n
      exacts [⟨.standby, rfl, by simp⟩, ⟨.auto, rfl, by simp⟩, ⟨.manual, rfl, by simp⟩]
    exact exec_mode_refused free (modeRefusal_stop mode stop last)
  · obtain ⟨m, rfl, spray⟩ : ∃ m : Mode, n = m.code ∧ (m = .auto ∨ m = .manual) := by
      rcases known with rfl | rfl
      exacts [⟨.auto, rfl, .inl rfl⟩, ⟨.manual, rfl, .inr rfl⟩]
    refine exec_mode_refused free ?_
    rw [modeRefusal_checked before spray, found]
    rfl
  · have frame := modeFrame_request other
    have event := sprayEvent other (sprayEntered_request spray other)
    have noWater : (inEvent (modeStep m) s).mau.alerts.noWater.condition = noUsableSource (inEvent (modeStep m) s) := by
      refine frame.noWater.trans ?_
      rcases spray with rfl | rfl <;> exact Bool.and_true _
    have alike := fun before : s.mau.mode ≠ .auto =>
      (sprayEntered_of_notAuto (s := s.setPass false) (x := .request) spray before).2
    refine ⟨_, exec_mode_enters free (modeRefusal_sprays spray released checked) other, frame.mode, frame.cause, frame.split,
      frame.notice, event.orders, noWater, fun before c r run auto => ?_, fun before valves runs c r run auto =>
        event.endDecided before valves runs run auto, fun c r run goes => event.goesOn (event.entered.runs c r run goes),
      event.made, fun before => ?_, fun valves off => event.pump_off valves off, fun waits => event.pump_waiting waits,
      fun before running => ?_, fun before rundown => ?_, frame.water, event.pau, frame.cannons, frame.yc, frame.wfe, frame.ft,
      frame.bwu, frame.site, frame.pins⟩
    · exact event.autoEnds before (fun same => other (same.trans before.symm)) run auto
    · obtain ⟨cc, sd, wiu⟩ := alike before
      exact event.taken_request cc sd wiu
    · obtain ⟨cc, sd, wiu⟩ := alike before
      exact event.pump_running wiu running
    · obtain ⟨cc, sd, wiu⟩ := alike before
      exact event.pump_rundown cc sd wiu rundown
  · have frame := modeFrame_request (m := .standby) (Ne.symm other)
    have entered := standbyEntered_inEvent other
    exact ⟨_, exec_mode_enters free (modeRefusal_standby released) (Ne.symm other), frame.mode, frame.cause, frame.split,
      frame.notice, frame.noWater.trans (Bool.and_false _), fun c => (entered.ends c).1, fun c => (entered.ends c).2,
      entered.decided, entered.orders, fun k _ => entered.notices k, entered.pump, frame.water, entered.pile, frame.cannons,
      frame.yc, frame.wfe, frame.ft, frame.bwu, frame.site, frame.pins⟩
  · have frame := modeFrame_request (m := .lockdown) (Ne.symm other)
    have locked := lockedDown_inEvent (modeStep_enters (m := .lockdown) (Ne.symm other))
    exact ⟨_, exec_mode_enters free (modeRefusal_lockdown s) (Ne.symm other), frame.mode, frame.cause, frame.split,
      frame.notice, frame.noWater.trans (Bool.and_false _), locked.released, locked.valvesStopped, locked.queue, locked.slot,
      locked.runs, locked.pump, locked.orders, frame.water, locked.pau, frame.cannons, frame.yc, frame.wfe, frame.ft,
      frame.bwu, frame.site, frame.pins⟩
  · rw [layoutCheck_iff]
    cases x with
    | piles => exact not_layoutPiled
    | cannons => exact and_congr_right fun _ => not_layoutAimed
    | cannonTarget k =>
      simp only [LayoutFinding, not_cannonAimed, and_assoc]
      exact Iff.rfl
    | drain k =>
      simp only [LayoutFinding, not_pileDrained, and_assoc]
      exact Iff.rfl
    | source =>
      simp only [LayoutFinding, not_layoutSourced]
      exact Iff.rfl

end Sys2Proof.Machine
end
